-- ==== Sys2Proof/Word.lean ====
section
/-!
DEFINITION. The words of the machine: bytes, 32-bit registers, 64-bit values, and the plain reading of a field of a
number. Everything that a test could show wrong stands in Decode.lean or under Machine/.
-/
namespace Sys2Proof

/-- A byte of memory or scratch. -/
abbrev Byte := BitVec 8

/-- A lane register, a uniform register or a system register of 32 bits (R94, R103). -/
abbrev Word := BitVec 32

/-- A 64-bit value, held in a pair of registers (R51). -/
abbrev DWord := BitVec 64

/-- A 128-bit capability without its tag (R194). -/
abbrev Quad := BitVec 128

/-- The field of `n` bits of `w` whose lowest bit is bit `p`. -/
def fieldOf (w p n : Nat) : Nat := w / 2 ^ p % 2 ^ n

/-- Bit `p` of `w`. -/
def bitOf (w p : Nat) : Bool := w / 2 ^ p % 2 == 1

end Sys2Proof
end

