-- ==== Sys2Proof/Machine/Map.lean ====
section
/-!
DEFINITION. Sparse maps over numbers as sorted lists of entries, and sorted sets of numbers. A map lists no entry whose
value is the default, so that equal maps are equal lists; reading after writing needs no hypothesis on the order.
-/
namespace Sys2Proof.Machine

/-- A sparse map: keys strictly rising, no entry equal to the default value. -/
abbrev SMap (α : Type) := List (Nat × α)

/-- The value at `k`, or the default. -/
def SMap.get {α : Type} (dflt : α) : SMap α → Nat → α
  | [], _ => dflt
  | (k', v) :: t, k => if k = k' then v else SMap.get dflt t k

/-- The map without any entry at `k`. -/
def SMap.erase {α : Type} : SMap α → Nat → SMap α
  | [], _ => []
  | (k', v) :: t, k => if k = k' then SMap.erase t k else (k', v) :: SMap.erase t k

/-- The entry `(k, v)` placed before the first larger key. -/
def SMap.insert {α : Type} : SMap α → Nat → α → SMap α
  | [], k, v => [(k, v)]
  | (k', v') :: t, k, v => if k < k' then (k, v) :: (k', v') :: t else (k', v') :: SMap.insert t k v

/-- The map with `v` at `k`; writing the default removes the entry. -/
def SMap.set {α : Type} [DecidableEq α] (dflt : α) (m : SMap α) (k : Nat) (v : α) : SMap α :=
  if v = dflt then SMap.erase m k else SMap.insert (SMap.erase m k) k v

/-- Keys at least `lo` and strictly rising, no default value. -/
def SMap.sortedFrom {α : Type} [DecidableEq α] (dflt : α) (lo : Nat) : SMap α → Bool
  | [] => true
  | (k, v) :: t => decide (lo ≤ k) && decide (v ≠ dflt) && SMap.sortedFrom dflt (k + 1) t

/-- The canonical form of a sparse map. -/
def SMap.wf {α : Type} [DecidableEq α] (dflt : α) (m : SMap α) : Bool := SMap.sortedFrom dflt 0 m

/-- A finite set of numbers, strictly rising. -/
abbrev NSet := List Nat

/-- Membership. -/
def NSet.has (s : NSet) (k : Nat) : Bool := s.elem k

/-- The set without `k`. -/
def NSet.del : NSet → Nat → NSet
  | [], _ => []
  | x :: t, k => if k = x then NSet.del t k else x :: NSet.del t k

/-- The set with `k` placed before the first larger element (`k` is not in it). -/
def NSet.put : NSet → Nat → NSet
  | [], k => [k]
  | x :: t, k => if k < x then k :: x :: t else x :: NSet.put t k

/-- The set with `k` in it or not. -/
def NSet.set (s : NSet) (k : Nat) (b : Bool) : NSet := if b then NSet.put (NSet.del s k) k else NSet.del s k

/-- Elements at least `lo` and strictly rising. -/
def NSet.sortedFrom (lo : Nat) : NSet → Bool
  | [] => true
  | x :: t => decide (lo ≤ x) && NSet.sortedFrom (x + 1) t

/-- The canonical form of a set. -/
def NSet.wf (s : NSet) : Bool := NSet.sortedFrom 0 s

end Sys2Proof.Machine
end

