-- ==== Sys2Proof/Syntax.lean ====
section
/-!
DEFINITION. The instructions of the machine as syntax: one constructor of Instr per row of spec/opcode_table.json. Rope
instructions carry their operand fields, typed; commands, requests and events carry the parameters that the outside gives
them. Fields are those of the cards (files 01 to 18); limits on them are checked in WellFormed.lean.
-/
namespace Sys2Proof

/-! ### Operand fields -/

/-- A guard, GRD of R14: `p = 7` with `neg = false` is no guard. -/
structure Guard where
  neg : Bool
  p : BitVec 3
deriving DecidableEq, Repr

/-- A hint field of R15; the value 11 is reserved. -/
inductive Hint where
  /-- 00 -/
  | none
  /-- 01: last use. -/
  | last
  /-- 10: keep. -/
  | keep
deriving DecidableEq, Repr

/-- A register source field with its hint. In the uniform class the field names a uniform register. -/
structure RSrc where
  r : BitVec 8
  h : Hint
deriving DecidableEq, Repr

/-- The B source of the 64-bit moulds (R29, R106): a register, a uniform (SB) or a 16-bit immediate (I). -/
inductive BSrc where
  | reg (s : RSrc)
  | unif (r : BitVec 8)
  | imm (i : BitVec 16)
deriving DecidableEq, Repr

/-- A B or C source of the 96-bit moulds: a register, or a uniform (SB, SC). -/
inductive CSrc where
  | reg (s : RSrc)
  | unif (r : BitVec 8)
deriving DecidableEq, Repr

/-- An 8-bit immediate or a uniform register that holds the value (SA and kin of R172 to R180). -/
inductive ISrc where
  | imm (i : BitVec 8)
  | unif (r : BitVec 8)
deriving DecidableEq, Repr

/-- The offset register of a span operand (R223): none (NOB), one register, or an even pair (OW). -/
inductive OffSrc where
  | none
  | reg (s : RSrc)
  | pair (s : RSrc)
deriving DecidableEq, Repr

/-- Rounding field of R60. -/
inductive Round where
  /-- `.rn` nearest, ties to even. -/
  | rn
  /-- `.rz` toward zero. -/
  | rz
  /-- `.rp` toward plus infinity. -/
  | rp
  /-- `.rm` toward minus infinity. -/
  | rm
  /-- `.rna` nearest, ties away from zero (conversions only). -/
  | rna
deriving DecidableEq, Repr

/-- Element formats of R19, by suffix; `plane` is the block-fixed plane form. -/
inductive Elem where
  | i8 | i16 | i32 | i64 | n8 | n16 | n32 | n64 | b32 | b64
  | f16 | bf16 | f32 | f64
  | e4m3 | e5m2 | e3m2 | e2m3 | e2m1 | nq4 | plane
deriving DecidableEq, Repr

/-- Conditions of `icmp` (R123). -/
inductive ICond where
  | eq | ne | lt | le | gt | ge
deriving DecidableEq, Repr

/-- Conditions of `fcmp` (R129). -/
inductive FCond where
  | eq | ne | lt | le | gt | ge | num | nan
deriving DecidableEq, Repr

/-- CMB of R123: how the compare combines with a predicate. -/
inductive Combine where
  | none | and | or
deriving DecidableEq, Repr

/-- The integer mould of R106 with A and B, without OPF. -/
structure IntOp where
  u : Bool
  w : Bool
  s : Bool
  g : Guard
  d : BitVec 8
  a : RSrc
  b : BSrc
deriving DecidableEq, Repr

/-- The integer mould of R106 for unary cards. -/
structure IntUn where
  u : Bool
  w : Bool
  g : Guard
  d : BitVec 8
  a : RSrc
deriving DecidableEq, Repr

/-- The 96-bit integer mould of R106. -/
structure IntTri where
  u : Bool
  w : Bool
  s : Bool
  g : Guard
  d : BitVec 8
  a : RSrc
  b : CSrc
  c : CSrc
deriving DecidableEq, Repr

/-- The floating mould of R106 with A and B, without W and BF. -/
structure FltOp where
  u : Bool
  rm : Round
  ftz : Bool
  na : Bool
  nb : Bool
  aa : Bool
  ab : Bool
  g : Guard
  d : BitVec 8
  a : RSrc
  b : BSrc
deriving DecidableEq, Repr

/-- The floating mould of R106 for unary cards. -/
structure FltUn where
  u : Bool
  rm : Round
  ftz : Bool
  na : Bool
  aa : Bool
  g : Guard
  d : BitVec 8
  a : RSrc
deriving DecidableEq, Repr

/-- The 96-bit floating mould of R106. -/
structure FltTri where
  u : Bool
  rm : Round
  ftz : Bool
  na : Bool
  nb : Bool
  nc : Bool
  aa : Bool
  ab : Bool
  ac : Bool
  g : Guard
  d : BitVec 8
  a : RSrc
  b : CSrc
  c : CSrc
deriving DecidableEq, Repr

/-- Fields of `cvt` (R66). -/
structure CvtOp where
  u : Bool
  dst : Elem
  src : Elem
  rm : Round
  sat : Bool
  ftz : Bool
  g : Guard
  d : BitVec 8
  a : RSrc
deriving DecidableEq, Repr

/-- Fields of `cvtp` (R67); `xp` is DIR. -/
structure CvtpOp where
  xp : Bool
  fmt : Elem
  rm : Round
  sat : Bool
  g : Guard
  d : BitVec 8
  a : RSrc
  b : RSrc
  c : RSrc
deriving DecidableEq, Repr

/-- The two directions of `cvtb` (R68): pack with P − 1 and an optional C, or expand. -/
inductive CvtbForm where
  | pk (pm1 : BitVec 4) (c : Option RSrc)
  | xp
deriving DecidableEq, Repr

/-- Fields of `rint` (R69). -/
structure RintOp where
  u : Bool
  fmt : Elem
  rm : Round
  x : Bool
  ftz : Bool
  g : Guard
  d : BitVec 8
  a : RSrc
deriving DecidableEq, Repr

/-- Fields of `fcmp` (R129). -/
structure FcmpOp where
  u : Bool
  cond : FCond
  ftz : Bool
  w : Bool
  cmb : Combine
  cp : BitVec 3
  g : Guard
  d : BitVec 8
  a : RSrc
  b : BSrc
deriving DecidableEq, Repr

/-- TEST of `vote` (R165). -/
inductive VoteTest where
  | ge | le | maj | agree
deriving DecidableEq, Repr

/-- MODE of `ballot` (R166). -/
inductive BallotMode where
  | mask | count | rank
deriving DecidableEq, Repr

/-- MODE of `shfl` (R167). -/
inductive ShflMode where
  | from | rot | rev | swz
deriving DecidableEq, Repr

/-- The B operand of `shfl` (R167): a lane register, a uniform (SB) or IMM15 (BI). -/
inductive ShflSrc where
  | reg (s : RSrc)
  | unif (r : BitVec 8)
  | imm (i : BitVec 15)
deriving DecidableEq, Repr

/-- Segment widths of `shfl` (R167), SEG 000 to 100. -/
inductive Seg where
  | w32 | w16 | w8 | w4 | w2
deriving DecidableEq, Repr

/-- Fields of `shfl` (R167); `cv` is C when CV is set. -/
structure ShflOp where
  mode : ShflMode
  w : Bool
  seg : Seg
  g : Guard
  d : BitVec 8
  a : RSrc
  b : ShflSrc
  cv : Option (BitVec 8)
deriving DecidableEq, Repr

/-- OP of `red` and `scan` (R168). -/
inductive RedOp where
  | add | min | max | and | or | xor
deriving DecidableEq, Repr

/-- TY of `red` and `scan` (R168). -/
inductive RedTy where
  | i32 | n32 | f32 | i64 | n64 | f64 | b32 | b64
deriving DecidableEq, Repr

/-- A lane destination, or a uniform one (UD). -/
inductive Dst where
  | lane (d : BitVec 8)
  | unif (d : BitVec 8)
deriving DecidableEq, Repr

/-- MODE of `match` (R170). -/
inductive MatchMode where
  | grp | lead | cnt
deriving DecidableEq, Repr

/-- MODE of `elect` (R171), with A for `.from`. -/
inductive ElectMode where
  | low
  | high
  | from (a : BitVec 8)
deriving DecidableEq, Repr

/-- The count of `barinit` (R174): COUNT, or a uniform (SC). -/
inductive CountSrc where
  | imm (i : BitVec 6)
  | unif (r : BitVec 8)
deriving DecidableEq, Repr

/-- The two forms of `bartest` (R176). -/
inductive BartestForm where
  | flag (k : BitVec 8) (a : BitVec 8)
  | status (d : BitVec 8)
deriving DecidableEq, Repr

/-- The target of `cinit` (R177). -/
inductive TargetSrc where
  | imm (t : BitVec 22)
  | unif (r : BitVec 8)
deriving DecidableEq, Repr

/-- The byte count of `carrive` (R178). -/
inductive NSrc where
  | imm (n : BitVec 11)
  | unif (r : BitVec 8)
deriving DecidableEq, Repr

/-- Fields of `draw` (R188): `ib` is B when IB is set, `l` is T when L is set. -/
structure DrawOp where
  g : Guard
  d : Dst
  a : RSrc
  ib : Option RSrc
  k : Option (BitVec 2)
  l : Option CSrc
deriving DecidableEq, Repr

/-- MODE of `drawm` (R189). -/
inductive DrawMode where
  | w | l | mx
deriving DecidableEq, Repr

/-- Fields of `drawm` (R189); `coin` is C when UC is set. -/
structure DrawmOp where
  mode : DrawMode
  g : Guard
  d : BitVec 8
  a : RSrc
  b : CSrc
  coin : Option RSrc
deriving DecidableEq, Repr

/-- The operations of `drawk` (R191). -/
inductive DrawkForm where
  | set (a b : BitVec 8)
  | ctr (b : BitVec 8)
  | get (d : BitVec 8)
deriving DecidableEq, Repr

/-- Fields of `drawt` (R192): `l` is TU when L is set, `area` is C. -/
structure DrawtOp where
  g : Guard
  d : Dst
  a : RSrc
  ib : Option RSrc
  k : Option (BitVec 2)
  l : Option (BitVec 8)
  bar : BitVec 7
  area : BitVec 8
deriving DecidableEq, Repr

/-- A scratch operand (R16, R143): the offset register, absent with NOA, and IMM14. -/
structure ScrOff where
  a : Option RSrc
  imm : BitVec 14
deriving DecidableEq, Repr

/-- SZ of `lds` and `sts` (R143) and of `ld` and `st` (R226, R227). -/
inductive Sz where
  | n8 | i8 | n16 | i16 | b32 | b64 | b128 | c
deriving DecidableEq, Repr

/-- OP of the atomics (R144, R230). -/
inductive AtomOp where
  | add | minI | minN | maxI | maxN | and | or | xor | exch | cas | fadd
deriving DecidableEq, Repr

/-- ORD of the atomics (R144, R230). -/
inductive MemOrd where
  | relaxed | acq | rel | ar
deriving DecidableEq, Repr

/-- Scopes of R230 and R299. -/
inductive Scope where
  | rope | team | party | die | pkg | sys
deriving DecidableEq, Repr

/-- Fields of `atms` (R144). -/
structure AtmsOp where
  op : AtomOp
  ord : MemOrd
  w : Bool
  g : Guard
  d : BitVec 8
  off : ScrOff
  b : RSrc
  c : RSrc
deriving DecidableEq, Repr

/-- Fields of `smap` (R145). -/
structure SmapOp where
  ro : Bool
  nm1 : BitVec 4
  g : Guard
  a : RSrc
  b : RSrc
  c : RSrc
deriving DecidableEq, Repr

/-- KEEP of `cperm` (R211): an immediate, or a register (RB). -/
inductive KeepSrc where
  | imm (k : BitVec 12)
  | reg (s : RSrc)
deriving DecidableEq, Repr

/-- F of `cfield` (R213). -/
inductive CField where
  | base | baseh | len | lenh | perm | colour | otype
deriving DecidableEq, Repr

/-- The span access mould of R223: capability quad A, offset, IMM22 and CH (`.ef`). -/
structure SpanOp where
  g : Guard
  a : RSrc
  off : OffSrc
  imm : BitVec 22
  ef : Bool
deriving DecidableEq, Repr

/-- Fields of `atom` and `atomn` (R230). -/
structure AtomOpnd where
  op : AtomOp
  ord : MemOrd
  scope : Scope
  w : Bool
  g : Guard
  d : BitVec 8
  a : RSrc
  off : OffSrc
  imm : BitVec 24
  c : RSrc
  e : RSrc
deriving DecidableEq, Repr

/-- The gang mould of R255: Z, the plane counts less one, and the uniforms that hold the tile offsets. -/
structure GangOp where
  z : Bool
  pam1 : BitVec 4
  pbm1 : BitVec 4
  sam1 : BitVec 4
  sbm1 : BitVec 4
  int : Bool
  sat : Bool
  d : BitVec 8
  a : BitVec 8
  b : BitVec 8
deriving DecidableEq, Repr

/-- Fields of `accw` (R263). -/
structure AccwOp where
  fmt : Elem
  rm : Round
  sat : Bool
  rel : Bool
  int : Bool
  d : BitVec 8
  a : RSrc
  b : BitVec 8
  c : BitVec 8
deriving DecidableEq, Repr

/-- OP of `rpin` (R296). -/
inductive RpinOp where
  | pin | unpin | try
deriving DecidableEq, Repr

/-- OP of `tret` (R355). -/
inductive TretOp where
  | retry | skip | endParty
deriving DecidableEq, Repr

/-- `rdsr` destination and `wrsr` source: an even lane pair or an even uniform pair (R356). -/
inductive SrPair where
  | lane (s : RSrc)
  | unif (r : BitVec 8)
deriving DecidableEq, Repr

/-- Fields of `cpy` (R272): A the layout record, B the quad, `jd` is D when JD is set, `post` is REC. -/
structure CpyOp where
  st : Bool
  jd : Option (BitVec 8)
  post : Bool
  a : BitVec 8
  b : RSrc
deriving DecidableEq, Repr

/-- Fields of `cpyc` (R274): `cairn` is CIDX unless NC. -/
structure CpycOp where
  jd : Option (BitVec 8)
  post : Bool
  cairn : Option (BitVec 8)
  a : RSrc
deriving DecidableEq, Repr

/-- Fields of `cpyh` (R278): A is absent with SCR. -/
structure CpyhOp where
  post : Bool
  cairn : Option (BitVec 8)
  d : BitVec 8
  a : Option RSrc
  b : BitVec 8
  c : BitVec 8
deriving DecidableEq, Repr

/-- Fields of `snap` (R279). -/
structure SnapOp where
  post : Bool
  cairn : Option (BitVec 8)
  d : BitVec 8
  a : RSrc
deriving DecidableEq, Repr

/-- The two forms of `cring` (R277). -/
inductive CringForm where
  | off
  | bind (a : RSrc) (cairn : Option (BitVec 8))
deriving DecidableEq, Repr

/-- The two forms of `rcard` (R294). -/
inductive RcardForm where
  | off
  | install (a : RSrc) (b : BitVec 8)
deriving DecidableEq, Repr

/-- The waypoint of `wpt` (R295). -/
inductive WptSrc where
  | imm (n : BitVec 16)
  | unif (r : BitVec 8)
deriving DecidableEq, Repr

/-- Fields of `spawn` (R331). -/
structure SpawnOp where
  hold : Bool
  nw : Bool
  g : Guard
  d : BitVec 8
  a : RSrc
  b : RSrc
  c : BitVec 8
deriving DecidableEq, Repr

/-- Fields of `joinc` (R332): B is absent with NOB. -/
structure JoincOp where
  g : Guard
  d : BitVec 8
  a : RSrc
  b : Option RSrc
  imm : BitVec 8
deriving DecidableEq, Repr

/-- Fields of `qpush` (R338): C is absent with SCR. -/
structure QpushOp where
  g : Guard
  d : BitVec 8
  a : BitVec 8
  b : BitVec 8
  c : Option RSrc
deriving DecidableEq, Repr

/-- Fields of `coll` (R392): `nm1` is the number of base quads less one. -/
structure CollOp where
  post : Bool
  cairn : Option (BitVec 8)
  nm1 : BitVec 4
  d : BitVec 8
  a : BitVec 8
  b : BitVec 8
  c : BitVec 8
deriving DecidableEq, Repr

/-! ### Arguments of events -/

/-- A place where a tagged capability can stand (R207): a 4 KiB page of the span, a page of a party's scratch, a quad of a rope's lanes,
a party's code capability, a stash page, what a rope has bound as its ring, a job's card, a delegation record, a page that a snapshot
has saved; and what firmware holds in HBM: a queue's completion ring, a continuation record, a graph node's payload. -/
inductive Place where
  | memory (page : Nat)
  | scratch (uid page : Nat)
  | quad (uid rope quad : Nat)
  | code (uid : Nat)
  | stash (uid page : Nat)
  | binding (uid rope : Nat)
  | job (id : Nat)
  | delegation (index : Nat)
  | image (page : Nat)
  | queue (q : Nat)
  | record (launch id : Nat)
  | node (graph node : Nat)
deriving DecidableEq, Repr

/-- What a request to a peer device does (R375). -/
inductive PeerOp where
  | load (n : Nat)
  /-- A store: a lane's, which leaves poison standing, or an engine's or base camp's single write, whose bytes carry poison or none
  (R219, R270, R390). -/
  | store (bytes : List (BitVec 8)) (engine : Option Bool)
  | atomic (op : AtomOp) (w ret : Bool) (ord : MemOrd) (scope : Scope) (c e : Nat)
  /-- The updates of a join word by `joinc`, and by `spawn.hold` with the id of its record (R331, R332). -/
  | join
  | hold (id : Nat)
deriving DecidableEq, Repr

/-- A table entry that has met an uncorrectable error (R407); `both` says that the copy in HBM is bad as well. -/
inductive TableError where
  | queue (q : Nat) (both : Bool)
  | record (launch : Nat) (both : Bool)
  | job (id : Nat)
  | page (page : Nat)
deriving DecidableEq, Repr

/-- A chunk as it arrives from another device (R389, R390): the device, plan, replay number, the sender's rank, CHUNK, SW, the bytes, the
bitmap, the poison mark. -/
structure ChunkIn where
  dev : Nat
  planid : Nat
  seq : Nat
  rank : Nat
  chunk : Nat
  sw : Bool
  bytes : List (BitVec 8)
  bitmap : BitVec 64
  poison : Bool
deriving DecidableEq, Repr

/-! ### The instructions -/

/-- One constructor per row of spec/opcode_table.json, in its order. -/
inductive Instr where
  -- control (file 04)
  | nop (g : Guard)
  | bra (g : Guard) (tgt : BitVec 32) (rcv : BitVec 22)
  | brc (g : Guard) (tgt : BitVec 32) (rcv : BitVec 22)
  | brx (g : Guard) (a : RSrc) (rcv : BitVec 22)
  | call (g : Guard) (d : BitVec 8) (tgt : BitVec 32)
  | callx (g : Guard) (d : BitVec 8) (a : RSrc)
  | ret (g : Guard) (a : RSrc)
  | brk (g : Guard) (n : BitVec 4)
  | exit (g : Guard)
  | yield (g : Guard)
  | rest (g : Guard) (count : BitVec 16)
  | seed (a : BitVec 8)
  -- moves and conversions (files 05, 03)
  | mov (u w c : Bool) (g : Guard) (d : BitVec 8) (b : BSrc)
  | movi (u w : Bool) (g : Guard) (d : BitVec 8) (imm : BitVec 32)
  | movs (u : Bool) (g : Guard) (d a : BitVec 8)
  | movu (u : Bool) (g : Guard) (d : BitVec 8) (a : RSrc) (b : BSrc)
  | movl (u : Bool) (g : Guard) (d : BitVec 8) (a : RSrc) (b : BSrc)
  | cvt (o : CvtOp)
  | cvtp (o : CvtpOp)
  | cvtb (g : Guard) (rnd : Round) (d : BitVec 8) (a : RSrc) (form : CvtbForm)
  | rint (o : RintOp)
  -- integer and logic (file 05)
  | iadd (m : IntOp) (sat : Bool)
  | isub (m : IntOp) (sat : Bool)
  | iaddc (m : IntOp) (cie : Bool) (ci co : BitVec 3) (sub : Bool)
  | imul (m : IntOp) (sat : Bool)
  | imulh (m : IntOp)
  | imad (m : IntTri) (sat : Bool)
  | imadw (m : IntTri) (sat : Bool)
  | idiv (m : IntOp)
  | irem (m : IntOp)
  | iabs (m : IntUn) (sat : Bool)
  | ineg (m : IntUn) (sat : Bool)
  | imin (m : IntOp)
  | imax (m : IntOp)
  | icmp (m : IntOp) (cond : ICond) (cmb : Combine) (cp : BitVec 3)
  | isel (u w : Bool) (g : Guard) (d : BitVec 8) (a : RSrc) (b : CSrc) (c : BitVec 8)
  | and (m : IntOp)
  | or (m : IntOp)
  | xor (m : IntOp)
  | not (m : IntUn)
  | bool3 (m : IntTri) (lut : BitVec 8)
  | shl (m : IntOp)
  | shr (m : IntOp)
  | sra (m : IntOp)
  | fsh (m : IntTri) (left : Bool)
  | popc (m : IntUn)
  | clz (m : IntUn)
  | ctz (m : IntUn)
  | brev (m : IntUn)
  | bfx (m : IntTri)
  | bfi (m : IntTri)
  | perm (m : IntTri)
  | pset (u : Bool) (g : Guard) (d a b : BitVec 8) (fa : Bool) (lut : BitVec 4)
  -- floating point (file 05)
  | fadd (m : FltOp)
  | fsub (m : FltOp)
  | fmul (m : FltOp)
  | fma (m : FltTri)
  | fmin (m : FltOp) (w : Bool)
  | fmax (m : FltOp) (w : Bool)
  | fcmp (o : FcmpOp)
  | fclass (u ftz w : Bool) (g : Guard) (d : BitVec 8) (a : RSrc) (cls : BitVec 10)
  | frcp (m : FltUn)
  | fdiv (m : FltOp)
  | fsqrt (m : FltUn)
  | frsq (m : FltUn)
  | fex2 (m : FltUn)
  | flg2 (m : FltUn)
  | fsin (m : FltUn)
  | fcos (m : FltUn)
  | ftanh (m : FltUn)
  | fscale (m : FltOp)
  | hadd2 (m : FltOp) (bf : Bool)
  | hmul2 (m : FltOp) (bf : Bool)
  | hfma2 (m : FltTri) (bf : Bool)
  | hmin2 (m : FltOp) (bf : Bool)
  | hmax2 (m : FltOp) (bf : Bool)
  | dadd (m : FltOp)
  | dmul (m : FltOp)
  | dfma (m : FltTri)
  -- cross-lane work, barriers and cairns (file 07)
  | vote (g : Guard) (test : VoteTest) (fd na : Bool) (k : BitVec 6) (d a : BitVec 8)
  | ballot (g : Guard) (mode : BallotMode) (na : Bool) (d : Dst) (a : BitVec 8)
  | shfl (o : ShflOp)
  | red (g : Guard) (op : RedOp) (ty : RedTy) (bar : Option (BitVec 8)) (k : Option (BitVec 2)) (d : Dst) (a : RSrc)
  | scan (g : Guard) (op : RedOp) (ty : RedTy) (ex : Bool) (k : Option (BitVec 2)) (d : BitVec 8) (a : RSrc)
  | matchLanes (g : Guard) (w : Bool) (mode : MatchMode) (d : BitVec 8) (a : RSrc)
  | elect (g : Guard) (mode : ElectMode) (su : Option (BitVec 8)) (d : BitVec 8)
  | tmask (g : Guard) (src : ISrc) (d : BitVec 8)
  | barinit (bar : BitVec 7) (count : CountSrc) (team : Option (BitVec 8))
  | barrive (bar : BitVec 7) (pd : Option (BitVec 8))
  | barwait (bar : BitVec 7) (pd : Option (BitVec 8))
  | bartest (bar : BitVec 7) (form : BartestForm)
  | cinit (i : ISrc) (target : TargetSrc)
  | carrive (i : ISrc) (n : NSrc)
  | cwait (i : ISrc) (gen : ISrc)
  | ctest (k : BitVec 8) (i : ISrc) (gen : ISrc)
  -- draws (file 08)
  | draw (o : DrawOp)
  | drawm (o : DrawmOp)
  | drawk (form : DrawkForm)
  | drawt (o : DrawtOp)
  -- scratchpad (file 06)
  | lds (sz : Sz) (g : Guard) (d : BitVec 8) (off : ScrOff)
  | sts (sz : Sz) (g : Guard) (off : ScrOff) (b : RSrc)
  | atms (o : AtmsOp)
  | smap (o : SmapOp)
  | sunmap (nm1 : BitVec 4) (g : Guard) (a : RSrc)
  | sflush (nm1 : BitVec 4) (g : Guard) (a : RSrc)
  -- capabilities (file 09)
  | cbnd (g : Guard) (d : BitVec 8) (a b c : RSrc)
  | cperm (g : Guard) (d : BitVec 8) (a : RSrc) (keep : KeepSrc)
  | cseal (g : Guard) (d : BitVec 8) (a b : RSrc)
  | cunseal (g : Guard) (d : BitVec 8) (a b : RSrc)
  | cfield (g : Guard) (f : CField) (d : BitVec 8) (a : RSrc)
  | ctag (g : Guard) (use : Bool) (d : BitVec 8) (a : RSrc)
  | cclr (g : Guard) (d : BitVec 8)
  | revk (g : Guard) (nw : Bool) (d : BitVec 8) (a : RSrc)
  | swpq (g : Guard) (d : Dst)
  -- span memory (file 10)
  | ld (m : SpanOp) (sz : Sz) (d : BitVec 8)
  | st (m : SpanOp) (sz : Sz) (c : RSrc)
  | ldc (m : SpanOp) (d : BitVec 8)
  | stc (m : SpanOp) (c : RSrc)
  | atom (o : AtomOpnd)
  | atomn (o : AtomOpnd)
  | ldmx (m : SpanOp) (fmt : Elem) (d : BitVec 8) (c : RSrc)
  | stmx (m : SpanOp) (fmt : Elem) (d : BitVec 8) (c : RSrc)
  | pref (m : SpanOp) (nm1 : BitVec 6)
  | fence (scope : Scope)
  | iinv (m : SpanOp) (c : RSrc) (pkg : Bool)
  | isync
  | clwb (m : SpanOp) (c : RSrc) (inv : Bool)
  -- matrix engine (file 11)
  | gang (n : BitVec 3) (a : BitVec 8)
  | ldm (capok : Bool) (a : BitVec 8) (b : RSrc)
  | mma (o : GangOp)
  | mmas (o : GangOp) (ns : BitVec 2)
  | mmb (z opx : Bool) (d a b : BitVec 8)
  | mmf (o : GangOp) (c : RSrc) (stride : BitVec 20)
  | accz (rel : Bool) (nm1 : BitVec 3) (d : BitVec 8)
  | accw (o : AccwOp)
  | accq (d : BitVec 8)
  -- copy engines (file 12)
  | cpy (o : CpyOp)
  | cpyc (o : CpycOp)
  | cpyh (o : CpyhOp)
  | snap (o : SnapOp)
  | cring (form : CringForm)
  -- tiers (file 13)
  | rcard (form : RcardForm) (d : BitVec 8)
  | wpt (n : WptSrc)
  | resq (m : SpanOp) (d : BitVec 8)
  | rpin (op : RpinOp) (m : SpanOp) (d : BitVec 8) (c : RSrc)
  -- queues and system (files 15, 17)
  | spawn (o : SpawnOp)
  | joinc (o : JoincOp)
  | qpush (o : QpushOp)
  | gcond (or : Bool) (n : BitVec 8) (d a : BitVec 8)
  | trap (g : Guard) (code : BitVec 16)
  | tret (op : TretOp)
  | rdsr (srn : BitVec 12) (d : Dst)
  | wrsr (srn : BitVec 12) (a : SrPair)
  | bkpt (g : Guard) (code : BitVec 16)
  -- fabric (file 18)
  | delg (g : Guard) (d : BitVec 8) (a : RSrc) (b : BitVec 8)
  | coll (o : CollOp)
  -- events of fetch, issue and the core (files 02, 04, 06, 07, 15, 17)
  | retiredOpcodeEmulation (bytes : Nat)
  | blockSkipWord
  | waitCounterBoost (uid rope pos : Nat)
  | restEnd (uid rope pos : Nat)
  | cairnArrival (job n : Nat)
  | pageRefill (uid line : Nat)
  | stashLineFill (uid line : Nat)
  | stashForeignAccess (uid line : Nat) (write : Bool)
  | partyPlacement
  | resourceRelease (uid : Nat)
  | parkLimitExpiry (uid rope : Nat)
  | partySave (uid : Nat)
  | partyRestore (uid core : Nat)
  | barrierRecordWaitEnd (uid rope pos : Nat)
  | jobCardWaitEnd (uid rope pos : Nat)
  | revocationMapRoom (uid rope pos : Nat)
  | recordSlotFree (forLaunch : Bool) (a rope pos : Nat)
  -- events of tiers, sweeps, engines and rings (files 09, 11 to 13)
  | tierFetch
  | pageResident (page : Nat) (readOnly : Bool)
  | eviction (page : Nat)
  | pageLost (page : Nat)
  | pageRequestResponse (page : Nat) (success : Bool)
  | atsInvalidateRequest (lo hi : Nat)
  | sweepPassStart
  | sweepVisit (place : Place)
  | sweepPassComplete
  | copyJobDispatch (die : Nat)
  | copyJobComplete (id : Nat)
  | ldmJobComplete (id : Nat)
  | ringPost
  | ringSlotWaitEnd (job : Nat)
  | ringCtimeExpiry (desc : Nat)
  | gangJoin (uid rope : Nat)
  | readPhaseComplete (id : Nat)
  | accumulatePhaseComplete (core : Nat)
  | nearCacheAdd (n : Nat)
  | snapshotCut
  | snapshotCopyComplete
  -- events of queues, launches and graphs (file 15)
  | queueDoorbell (off size val : Nat)
  | registerWrite (off : Nat) (bytes : List (BitVec 8))
  | queueSlotMapping
  | bucketSettlement (b : Nat)
  | watchdogExpiry (q : Nat)
  | drainComplete (q : Nat)
  | launchComplete (id : Nat)
  | graphNodeComplete (graph node : Nat)
  | waitextPoll (node : Bool) (a b : Nat)
  -- commands (files 10, 12, 15, 18): the next command of queue q
  | load (q : Nat)
  | launch (q : Nat)
  | graphload (q : Nat)
  | graph (q : Nat)
  | unload (q : Nat)
  | cmdblk (q : Nat)
  | fwin (q : Nat)
  | signal (q : Nat)
  | wait (q : Nat)
  | copy (q : Nat)
  | collectiveLoad (q : Nat)
  | collectiveReplay (q : Nat)
  | collectiveUnload (q : Nat)
  | codeSync (q : Nat)
  -- requests of the management interface (files 15, 17 to 19): the request in the mailbox
  | queueSet
  | queueFree
  | bucketSet
  | colourNew
  | colourRetire
  | grant
  | ungrant
  | admitSet
  | regionSet
  | routeSet
  | keysSet
  | fwActivate
  | attest
  | counters
  | portStatus
  | spareThreshold
  | handleFree
  | pinquotaSet
  -- collectives (file 18): operation `op` of replay `id`
  | replayStart
  | fetch (id op : Nat)
  | send (id op : Nat)
  | recv (id op : Nat)
  | reduce (id op : Nat)
  | merge (id op : Nat)
  | deliver (id op : Nat)
  | chunkArrival (c : ChunkIn)
  | chunkResend (id op : Nat)
  | lateContribution (c : ChunkIn)
  | replayComplete (id : Nat)
  -- fabric ports, peers, delegation, the pool (files 10, 18)
  | flitCrcFailure (port : Nat) (again : Bool)
  | laneFailure (port lane : Nat)
  | retrainComplete (port partner : Nat)
  | portDownReroute (port : Nat)
  | unreachableTimeout (seq : Nat)
  | peerAccess (dev seq addr colour : Nat) (op : PeerOp)
  | peerReply (seq : Nat) (ok : Bool) (bytes : List (BitVec 8))
  | handleIn (dev colour id : Nat) (wire : List (BitVec 8))
  | delgAnswer (entry : Nat) (arrived accepted : Bool)
  | handleInvocation (dev inv colour : Nat) (wire : List (BitVec 8))
  | invocationReport (job fault bytes : Nat)
  | invocationReportTimeout (job : Nat)
  | poolSnoop (line : Nat)
  | poolHostFailure (lines : List Nat)
  | uncorrectableError (addr : Nat)
  -- firmware, power and spares (files 13, 15, 18, 19)
  | mailboxRequestExecution
  | leaseRenewal
  | leaseExpiry
  | arbiterGrant
  | firmwareEccError (core : Nat)
  | imageReloadComplete (core : Nat)
  | tableEccError (t : TableError)
  | dieFence (die : Nat)
  | safePoint
  | safePointTimeout
  | islandClockChange (island : Nat) (clkmax : Option Nat)
  | packageReset
  | correctedError (die counter kind unit : Nat)
  | mbdbWrite (size val : Nat)
  | writePermissionUpgrade (page : Nat) (granted : Bool)
  | chunkAcknowledgement (id op : Nat) (accepted : Bool)
  | poolModuleLoss (region module : Nat)
  | poolPortDown (port : Nat)
  | dieBroughtBack (die : Nat)
  | copyOnWritePageCopied (page : Nat)
deriving DecidableEq, Repr

end Sys2Proof
end

