-- ==== Sys2Proof/Machine/Rope.lean ====
section
/-!
DEFINITION. What a rope and a party hold (files 04 to 09 and 17): lanes, stack, trap registers, barriers, scratch pages. All of
it is plain data.
-/
namespace Sys2Proof.Machine

/-! ### Causes -/

/-- The trap causes of R345 but RETIRED_OPCODE (code 0x02), which goes to the emulation handler and not to the rope's. -/
inductive Cause where
  | illegalEncoding | fetchPlacement | partialMask | formatCombination | capTag | capBounds | capPerm | capColour | capSealed
  | misaligned | race | waypointMiss | fetchLost | controlStack | poisonConsumed | barrierMisuse | gangMismatch
  | precisionCapped | revoked | breakpoint | software
deriving DecidableEq, Repr

/-- The code of a cause (R345). -/
def Cause.code : Cause → Nat
  | .illegalEncoding => 0x01 | .fetchPlacement => 0x03 | .partialMask => 0x04 | .formatCombination => 0x05
  | .capTag => 0x06 | .capBounds => 0x07 | .capPerm => 0x08 | .capColour => 0x09 | .capSealed => 0x0A
  | .misaligned => 0x0B | .race => 0x0C | .waypointMiss => 0x0D | .fetchLost => 0x0E | .controlStack => 0x0F
  | .poisonConsumed => 0x10 | .barrierMisuse => 0x11 | .gangMismatch => 0x12 | .precisionCapped => 0x13
  | .revoked => 0x14 | .breakpoint => 0x15 | .software => 0x16

/-! ### Ordering knowledge (R300, R309) -/

/-- A release known for the bytes of one range only: the issuer's writes to a job's footprint (R268). -/
structure PartKnow where
  agent : Nat
  count : Nat
  lo : Nat
  hi : Nat
deriving DecidableEq, Repr

/-- The release counts of other agents that an agent has acquired, directly or through others (R309). -/
structure Know where
  all : SMap Nat
  part : List PartKnow
deriving DecidableEq, Repr

/-- Where an agent stands, for the scopes below the package (R299): its party and its die. -/
structure Home where
  party : Nat
  die : Nat
deriving DecidableEq, Repr

/-- By which row of R301 a release is acquired: an atomic's own, or a fence's before a later write (R302); the publication of a ring's
COMMIT (R275); a signal, which the host acquires (R336). -/
inductive PubKind where
  | atomic | fence | commit | signal
deriving DecidableEq, Repr

/-- A release that stands to be acquired: how, who made it, where the agent stood (base camp and firmware stand in no party and on no
die), at which scope, and what it carries. -/
structure Pub where
  kind : PubKind
  agent : Nat
  home : Option Home
  scope : Scope
  know : Know
deriving DecidableEq, Repr

/-- What can be acquired at one 128-byte line (R301): the count of the marked writes made there, the releases with the count that
each had, and for a byte last written by an atomic its count × 2 + 1, for one stored plainly after a fence its count × 2. -/
structure LineSync where
  ctr : Nat
  pubs : List (Nat × Pub)
  marks : SMap Nat
deriving DecidableEq, Repr

/-! ### The reconvergence stack (R75) -/

/-- KIND of R75. -/
inductive EntryKind where
  | side | join
deriving DecidableEq, Repr

/-- What a slot that has issued an instruction waits for. Only `phase` has had an effect (the arrival); every other wait leaves
the instruction to be issued again from its first check. -/
inductive Wait where
  /-- `barwait`, a team-scope `red` or `drawt` after its arrival: barrier, phase number, the instruction, the flags of the rope's
  own tree (R154, R168, R192). -/
  | phase (b ph : Nat) (i : Instr) (own : BitVec 6)
  /-- `cwait` on cairn `i` leaving generation `g` (R179). -/
  | cairn (i g : Nat)
  /-- `barinit` with no record free, since a time (R152). -/
  | barRecord (since : Nat)
  /-- `revk` with a full map, after its checks: A and the capability read there, the active lanes, D (R214). -/
  | mapRoom (a : RSrc) (cap : Quad) (active : Word) (d : BitVec 8)
  /-- A copy instruction or `coll` with no job card free (R266). -/
  | jobCard
  /-- `ldm` with no job slot free (R251). -/
  | ldmSlot
  /-- A gang instruction in the rope's latch (R240). -/
  | latch (i : Instr)
  /-- A gang instruction in its read or accumulate phase, gang number `g` of the core (R241). -/
  | gang (g : Nat)
  /-- An access to an accumulator block that is in flight (R254). -/
  | block
  /-- `accq` until its partials have performed (R261). -/
  | accq
  /-- `smap` and its kin until no job delivers into the pages they name (R140). -/
  | pages
  /-- A scratch line that stands in the backing (R136). -/
  | refill (line : Nat)
  /-- `spawn` with no record slot free (R331). -/
  | recordSlot
  /-- A store to a snapshot source page with no copy-on-write frame (R280). -/
  | copyOnWrite (page : Nat)
  /-- An access at a peer device, until its replies have come: the instruction, replies still due (R375). -/
  | peer (i : Instr) (due : Nat)
  /-- `delg`, until its answer (R381). -/
  | delg (rec : Nat)
deriving DecidableEq, Repr

/-- An entry of the stack (R75), with the pipe's bookkeeping for its slot (R72, R73, R92). -/
structure Entry where
  kind : EntryKind
  /-- NONE: the entry has no reconvergence point. -/
  noRpc : Bool
  rpc : BitVec 48
  pc : BitVec 48
  mask : Word
  /-- Cycles that a `rest` still has to run (R92). -/
  rest : Option Nat
  wait : Option Wait
  /-- The wait counter and the boost (R73). -/
  counter : Nat
  boost : Bool
deriving DecidableEq, Repr

/-- A fresh entry: nothing waited for. -/
def Entry.mk' (kind : EntryKind) (noRpc : Bool) (rpc pc : BitVec 48) (mask : Word) : Entry :=
  ⟨kind, noRpc, rpc, pc, mask, none, none, 0, false⟩

/-! ### A rope -/

/-- A cairn named with the INC captured (R162): party, index, INC, the core whose STRAYCNT a stray raises. -/
structure CairnRef where
  uid : Nat
  idx : Nat
  inc : Nat
  core : Nat
deriving DecidableEq, Repr

/-- The completion ring that `cring` bound (R277): the descriptor quad, SLOTS and GEOM as read, the cairn and its INC, or NC. -/
structure RingBind where
  desc : Quad
  slots : Quad
  geom : Word
  cairn : Option Nat
  inc : Nat
  /-- The core whose STRAYCNT a stray arrival of this binding raises (R162). -/
  core : Nat
deriving DecidableEq, Repr

/-- A park (R284): the instruction's address, the far pages waited for, whether an instruction fetch parked, whether all of the pages
are waited for (`rpin.pin`, R297) or any one, the time. -/
structure Park where
  pc : BitVec 48
  pages : List Nat
  fetch : Bool
  all : Bool
  since : Nat
deriving DecidableEq, Repr

/-- The answer of a peer device to one access (R376): the address of its instruction, its key (the lane; a second access of lane l
is 32 + l), and the bytes or a failure; `again` says that the rope has parked since, so that the checks are made again (R224). -/
structure PeerData where
  pc : BitVec 48
  key : Nat
  bytes : List Byte
  lost : Bool
  again : Bool
deriving DecidableEq, Repr

/-- A `drawt` whose phase has completed and that has still to read the slots (R192): its address, barrier, phase, the ropes that
arrived in the phase, the flags of the rope's own tree, the phase's form (0 `.w`, 1 `.l`, 2 argmax) and exchange area. -/
structure DrawtWait where
  pc : BitVec 48
  bar : Nat
  ph : Nat
  arrived : Word
  own : BitVec 6
  form : Nat
  area : Nat
deriving DecidableEq, Repr

/-- A rope (R70 to R77): lane state, uniform state, stack, generators, trap registers, bindings. -/
structure Rope where
  /-- Lane registers, keyed by lane × 256 + register; an unlisted one reads 0x7FA5A5A5 (R96). -/
  regs : SMap Word
  /-- Quad tags, keyed by lane × 64 + quad (R98). -/
  qtag : NSet
  /-- `s0` to `s63` (R103). -/
  unif : SMap Word
  /-- Lane masks of `p0` to `p6` (R104). -/
  preds : SMap Word
  /-- `k0` to `k3` (R104). -/
  flags : BitVec 4
  /-- `%fpst` (R64). -/
  fpst : BitVec 6
  /-- The stack, top first (R75). -/
  stack : List Entry
  lfsr : Word
  /-- Draw key and counter (R185). -/
  dkey : DWord
  dctr : DWord
  /-- Gang register (R237). -/
  gangReg : Word
  /-- Accumulator block bits VALID, DIRTY and INFL (R253). -/
  accValid : BitVec 8
  accDirty : BitVec 8
  accInfl : BitVec 8
  trapvec : BitVec 48
  tpc : BitVec 48
  tcause : Word
  tmask : Word
  tinfo : DWord
  /-- HM and HDEPTH (R347). -/
  hm : Bool
  hdepth : Nat
  wptmiss : DWord
  lastWpt : Option Nat
  ring : Option RingBind
  /-- Race agent number, release count, what it has acquired (R309). -/
  agent : Nat
  rel : Nat
  know : Know
  /-- The latest fence at each scope, for accesses after it (R302). -/
  fenced : List Pub
  /-- Releases read by accesses that no acquire has followed yet (R302). -/
  seen : List Pub
  /-- Age stamp (R72) and rope slot (R70). -/
  age : Nat
  slot : Nat
  park : Option Park
  /-- Pages reported lost, each with the address of the instruction that replays its access (R286). -/
  lostPages : List (BitVec 48 × Nat)
  /-- Far partials of `mmf` on their way, and those dropped since the last `accq` (R261). -/
  farOut : Nat
  farDropped : Nat
  /-- Code words fetched and not issued, by address (R236). -/
  fbuf : SMap (Option Word)
  drawtWait : List DrawtWait
  /-- Peer answers received for an access that is being completed (R376). -/
  peerData : List PeerData
  /-- The cairn that an instruction captured before it began to wait for a job card, and its address (R162, R269). -/
  capt : Option (BitVec 48 × CairnRef)
  ended : Bool
deriving DecidableEq, Repr

/-! ### Barriers, pages, parties -/

/-- The kind of a barrier phase (R154, R192). -/
inductive BarKind where
  | unset
  | plain
  | red (op : RedOp) (ty : RedTy)
  | drawt (form offset : Nat)
deriving DecidableEq, Repr

/-- A live barrier (R154). -/
structure BarRec where
  phase : Nat
  team : Nat
  psc : Bool
  expect : Nat
  arrived : Nat
  /-- The ropes that have arrived. -/
  mask : Word
  kind : BarKind
  /-- The partials of a team-scope `red`: rope and value; a rope that carried nothing is not listed. -/
  partials : SMap (Option DWord)
  /-- EXPECT reductions due at the phase's completion (R156). -/
  pending : Nat
  /-- What the arrivals of this phase released, and by number what those of the completed phases released to observers (R157). -/
  cur : Know
  done : SMap Know
deriving DecidableEq, Repr

/-- What a scratch page is (R137 to R139). -/
inductive Page where
  | priv
  /-- The held capability, the read-only flag, the span address shown. -/
  | stash (cap : Quad) (ro : Bool) (addr : Nat)
  | dead (cap : Quad) (ro : Bool) (addr : Nat)
deriving DecidableEq, Repr

/-- What a cairn's arrivals release (R163): those of the current phase, and those that completed phases. -/
structure CairnSync where
  cur : Know
  done : Know
deriving DecidableEq, Repr

/-- Why a party was saved (REASON of R363). -/
inductive SaveReason where
  | bucket | park | barRecord
deriving DecidableEq, Repr

/-- A party's life (R71, R349, R357). -/
inductive PartyStatus where
  | placed
  /-- A save is requested and waits for what is in flight (R358). -/
  | saving (why : SaveReason)
  | saved (why : SaveReason)
  /-- Every rope has ended; the resources wait for the party's jobs (R71). -/
  | ended
deriving DecidableEq, Repr

/-- A party (R70, R71). -/
structure Party where
  uid : Nat
  /-- The launch that it belongs to, its continuation record, and `%party` in it (R326). -/
  launch : Nat
  record : Nat
  index : Nat
  queue : Nat
  colour : Nat
  core : Nat
  /-- Party slot on its core (R70). -/
  pslot : Nat
  /-- Allotment a (R94), scratch bytes (R134), capacity of each rope's stack (R78). -/
  regs : Nat
  scratchSize : Nat
  capacity : Nat
  status : PartyStatus
  ropes : List Rope
  teams : SMap Word
  scratch : List (Nat × Byte)
  stag : NSet
  /-- Poisoned 64-byte half-lines of private scratch (R136). -/
  spoison : NSet
  pages : SMap Page
  /-- Lines (offset / 128) that stand in the backing and not in SRAM (R136). -/
  backed : NSet
  /-- Lines of stash pages that are present, and those that are dirty (R138). -/
  present : NSet
  dirty : NSet
  bars : SMap (Option BarRec)
  cairns : SMap CairnSync
  /-- What `atms` releases published in private scratch, by offset / 128 (R144, R301). -/
  ssync : SMap LineSync
  code : Quad
  codeTag : Bool
  frame : Quad
  /-- Firmware-held areas: control stacks, scratch backing, save area (R78, R136, R360). -/
  cstackAt : Nat
  backingAt : Nat
  saveAt : Nat
  /-- The party was ended by a trap, for its launch's count (R349). -/
  killed : Bool
  /-- Card holds of a party saved at a park, and the parked instructions that have still to pass their residency check: rope, address
  (R285). -/
  holds : List Nat
  replay : List (Nat × BitVec 48)
deriving DecidableEq, Repr

end Sys2Proof.Machine
end

