-- ==== Sys2Proof/Machine/Job.lean ====
section
/-!
DEFINITION. Engine jobs as data (files 11, 12, 18): what a job moves, its footprints, captured capabilities, cairn and issuer. `ldm` jobs
run on a core's load-convert unit and hold no card; every other job holds a card of its die.
-/
namespace Sys2Proof.Machine

/-- A ring to post to: the descriptor's address, the slot area, GEOM, the cairn of the binding. -/
structure RingAt where
  desc : Nat
  slots : Nat
  geom : Nat
  cairn : Option CairnRef
deriving DecidableEq, Repr

/-- A range of a footprint (R268): in the span, or in a party's scratch; bytes from `lo` up to `hi`. -/
structure Foot where
  scratch : Option Nat
  lo : Nat
  hi : Nat
deriving DecidableEq, Repr

/-- One side of a copy: span or scratch, the address of the first element, the bytes from line to line and from element to element,
the capability (none for scratch). -/
structure Side where
  scratch : Bool
  base : Nat
  ls : Nat
  es : Nat
  cap : Quad
deriving DecidableEq, Repr

/-- A copy of lines of elements of `w` bytes (R271, R273): zeros for ZERO; blocks decoded from a view when `view` (R221). -/
structure CopyPlan where
  lines : Nat
  len : Nat
  w : Nat
  src : Side
  dst : Side
  zero : Bool
  view : Bool
deriving DecidableEq, Repr

/-- A tile load (R246 to R249). -/
structure LdmPlan where
  fmt : Elem
  rows : Nat
  cols : Nat
  stride : Nat
  base : Nat
  planes : Nat
  tr : Bool
  /-- N of a sparse source. -/
  sparse : Option Nat
  scale : Nat
  sbase : Nat
  sstride : Nat
  dst : Nat
  view : Bool
  cap : Quad
deriving DecidableEq, Repr

/-- What a job does. -/
inductive JobKind where
  | copy (p : CopyPlan)
  /-- `cpyh`: the payload, its length, the ring, the slot reserved. -/
  | stream (p : CopyPlan) (ring : RingAt) (slot : Option Nat)
  /-- `snap`; its state stands in State.snap. -/
  | snap
  | ldm (l : LdmPlan)
  /-- `cpyc` of a fabric handle: the invocation runs at device `dev` (R383). -/
  | handle (dev : Nat) (wire : List Byte) (since : Nat)
  /-- A replay of a collective plan (R392). -/
  | replay (n : Nat)
deriving DecidableEq, Repr

/-- Who issued a job: a rope, a queue command with its TAG, a graph node, or a peer's invocation (R383). -/
inductive JobBy where
  | rope (uid k : Nat)
  | command (q tag : Nat)
  | node (run node : Nat)
  | peer (dev inv : Nat)
deriving DecidableEq, Repr

/-- A job (R251, R265). -/
structure Job where
  id : Nat
  die : Nat
  core : Nat
  by' : JobBy
  kind : JobKind
  colour : Nat
  reads : List Foot
  writes : List Foot
  caps : List Quad
  cairn : Option CairnRef
  /-- REC: a clean end posts DONE. -/
  post : Bool
  low : Bool
  running : Bool
  /-- Stopped before its end: it moves nothing more and posts no further arrival (R270). -/
  ceased : Bool
  /-- Bytes moved and counted, and those of them that were written. -/
  moved : Nat
  written : Nat
  /-- The first fault code that it has met, 0 for none (R270). -/
  fault : Nat
  /-- Half-lines (address / 64) that it has poisoned; far pages that its next bytes wait for, and those of them that have been lost
  meanwhile (R417). -/
  hot : NSet
  waits : NSet
  lost : NSet
  /-- Bytes that peers have answered: address, bytes, lost (R376). -/
  got : List (Nat × List Byte × Bool)
  /-- Race agent, its release count, and what the issue released to it (R268, R309). -/
  agent : Nat
  rel : Nat
  know : Know
deriving DecidableEq, Repr

/-- The party that issued a job. -/
def Job.uid? (j : Job) : Option Nat :=
  match j.by' with
  | .rope uid _ => some uid
  | _ => none

/-- Whether a job holds a card of its die (R265, R268). -/
def Job.card (j : Job) : Bool :=
  match j.kind with
  | .ldm _ => false
  | _ => true

/-- Whether two ranges meet. -/
def Foot.meets (a b : Foot) : Bool := a.scratch == b.scratch && decide (a.lo < b.hi) && decide (b.lo < a.hi)

end Sys2Proof.Machine
end

