-- ==== Sys2Proof/Machine/Tables.lean ====
section
/-!
DEFINITION. The tables of the front end, base camp and firmware as data (files 11, 13, 15, 18, 19): gangs, route cards, queues, launches,
graphs, plans, the fabric's tables, firmware's own.
-/
namespace Sys2Proof.Machine

/-! ### The matrix engine (R240, R241, R259) -/

/-- A member of a joined gang instruction: its rope and instruction; after the read phase its A tile, and for `mmf` its capability
and the address of its first row. -/
structure GangMember where
  rope : Nat
  instr : Instr
  aTile : List Byte
  cap : Quad
  base : Nat
deriving DecidableEq, Repr

/-- A joined gang instruction (R241): its number, its core and party, the members in gang order, whether it is in its read phase, the
cycles of occupancy still to run (R264), the B tile as read. -/
structure Gang where
  id : Nat
  core : Nat
  uid : Nat
  members : List GangMember
  reading : Bool
  left : Nat
  bTile : List Byte
deriving DecidableEq, Repr

/-- An `mmf` partial on its way to its adder (R259): who sent it, the base of its capability (R208), where it goes, the sender's race agent
and release count, the fences that its write releases (R298, R302), and whether it waits at a far page (R417). -/
structure FarPart where
  uid : Nat
  k : Nat
  die : Nat
  colour : Nat
  base : Nat
  addr : Nat
  val : Word
  agent : Nat
  gen : Nat
  pubs : List Pub
  waits : Bool
deriving DecidableEq, Repr

/-! ### Route cards (R291) -/

/-- An entry of a route card: page number, ACT, PRI, the pinned version. -/
structure CardEntry where
  page : Nat
  act : Nat
  pri : Nat
  version : Option Nat
deriving DecidableEq, Repr

/-- An installed card: its launch and colour, LOOK, WTABLE and the entries. -/
structure RouteCard where
  launch : Nat
  colour : Nat
  look : Nat
  table : List Nat
  entries : List CardEntry
deriving DecidableEq, Repr

/-! ### Queues and buckets (R311, R316, R320) -/

/-- STATE of R311. -/
inductive QueueSt where
  | free | idle | active | dry | draining | lost
deriving DecidableEq, Repr

/-- A queue's record (R311) with the front end's own bookkeeping: the watchdog timer (R339), when it became eligible and when it was
mapped (R319). -/
structure QueueRec where
  st : QueueSt
  prio : Nat
  flags : Nat
  colour : Nat
  bucket : Nat
  ring : Nat
  rsize : Nat
  wdog : Nat
  head : Nat
  tail : Nat
  parklim : Nat
  slot : Option Nat
  /-- PART: bit n is physical core n. -/
  part : Nat
  compring : Quad
  compTag : Bool
  /-- Nanoseconds on the watchdog timer. -/
  timer : Nat
  elig : Nat
  mapped : Nat
  /-- What `qpush` released with the commands that it wrote (R338). -/
  know : Know
  /-- A drain of it has begun and not ended (R339, R369). -/
  ending : Bool
deriving DecidableEq, Repr

/-- A queue after reset: FREE, park limit 200 (R285). -/
def QueueRec.zero : QueueRec :=
  ⟨.free, 0, 0, 0, 0, 0, 0, 0, 0, 0, 200, none, 0, 0, false, 0, 0, 0, ⟨[], []⟩, false⟩

/-- A bucket (R320); LEVEL is signed, and kept in eighths of a core-nanosecond, so that every debit is exact. -/
structure Bucket where
  level : Int
  cap : Nat
  rate : Nat
  dry : Bool
  resume : Nat
  /-- When it was last settled, on the package timer (R321). -/
  since : Nat
  /-- The jobs that have held an engine since then (R321). -/
  ran : NSet
deriving DecidableEq, Repr

/-- A bucket after reset. -/
def Bucket.zero : Bucket := ⟨0, 0, 0, false, 0, 0, []⟩

/-- What a command or graph node in execution is doing. -/
inductive Work where
  | launch (n : Nat)
  /-- A run of graph `h`, or a GRAPH command that waits for the table's run to end (R334). -/
  | graph (h : Nat)
  | graphWait (h : Nat)
  | job (id : Nat)
  /-- A WAIT of an address for a value (R336). -/
  | poll (addr val : Nat)
  | replay (n : Nat)
  /-- A COND node that has fired, and whether the word that it read re-arms it (R335). -/
  | cond (rearm : Bool)
  /-- A node whose payload has ended, with its STATUS, FAULT, BYTES and DETAIL, and that has still to complete (R334). -/
  | fin (status fault bytes detail : Nat)
deriving DecidableEq, Repr

/-- A command in execution: its queue, its number in the ring, its TAG. -/
structure Cmd where
  queue : Nat
  seq : Nat
  tag : Nat
  work : Work
deriving DecidableEq, Repr

/-! ### Objects and launches (R46, R318, R322 to R328) -/

/-- An entry of an object's LAUNCH section (R323). -/
structure EntryRec where
  ropes : Nat
  cstack : Nat
  regs : Nat
  scratch : Nat
  route : Nat
  teams : List (Nat × Word)
  gangs : List (List Nat)
  cairns : List (Nat × Nat)
deriving DecidableEq, Repr

/-- A text of an object as firmware holds it in HBM: the key of a NATIVE section (none for a translation and the signature it was
made under), where it lies, its size, the entries' byte offsets and the placement lists (R328). -/
structure CodeText where
  key : Nat
  at' : Nat
  size : Nat
  offsets : List Nat
  place : List (List Nat)
deriving DecidableEq, Repr

/-- A loaded object (R318): handle, colour, entries, texts, Palow text, DATA copy, route cards. -/
structure ObjRec where
  handle : Nat
  colour : Nat
  entries : List EntryRec
  native : List CodeText
  /-- PALOW section bytes, and the translation cached for a signature (R48). -/
  palow : Option (List Byte)
  cached : Option CodeText
  data : Option (Nat × Nat)
  cards : List (List Byte)
deriving DecidableEq, Repr

/-- A frame rule (R326): FBASE, FLEN, FSTRIDE and FPERMS, or one captured capability with its tag. -/
inductive FrameRule where
  | strided (base len stride perms : Nat)
  | captured (q : Quad) (tag : Bool)
deriving DecidableEq, Repr

/-- A continuation record (R326). -/
structure ContRec where
  id : Nat
  entry : Nat
  /-- The next party of the range that no one has yet taken, and its end. -/
  next : Nat
  hi : Nat
  /-- Parties before `next` that still wait: bound parties whose core had no room (R328), and those returned by a fence (R329). -/
  back : List Nat
  /-- Placed or saved parties that have not ended. -/
  live : Nat
  frame : FrameRule
  /-- The join word that holds it, of a held record (R331). -/
  join : Option Nat
  held : Bool
  /-- What the placement of its parties acquires (R331, R332). -/
  know : Know
deriving DecidableEq, Repr

/-- Who started a launch, a copy or a replay: a command of a queue, or a node of a graph's run. -/
inductive Starter where
  | command (queue seq : Nat)
  | node (graph node : Nat)
deriving DecidableEq, Repr

/-- A launch in execution (R324, R325). -/
structure Launch where
  id : Nat
  queue : Nat
  colour : Nat
  by' : Starter
  object : Nat
  seed : Word
  drawkey : DWord
  reissue : Bool
  code : Quad
  place : List (List Nat)
  offsets : List Nat
  records : List ContRec
  /-- The launch's own record while it waits for a slot of the table (R324 step 5). -/
  first : Option ContRec
  /-- Cores that have taken a party in the current round; none once the wave is over (R327). -/
  wave : Option (List Nat)
  /-- Parties that a trap ended, and parties lost with a die (R325, R329). -/
  killed : Nat
  lost : Nat
  dieLost : Bool
  /-- Parties that a drain has discarded (R339). -/
  cut : Nat
  /-- What its ended parties release (R325). -/
  know : Know
deriving DecidableEq, Repr

/-! ### Graphs (R333, R334) -/

/-- KIND of R333. -/
inductive NodeKind where
  | launch | copy | collective | cond | signal | wait
deriving DecidableEq, Repr

/-- A node of a graph table (R333). -/
structure NodeRec where
  kind : NodeKind
  npred : Nat
  succ : List Nat
  body : List Nat
  word : Nat
  rfirst : Nat
  rlast : Nat
  payload : List Byte
  /-- The capabilities that firmware has made for the payload, with their tags (R333). -/
  caps : List (Quad × Bool)
deriving DecidableEq, Repr

/-- A run of a graph table (R334). -/
structure RunRec where
  cmd : Starter
  counters : SMap Int
  words : SMap Nat
  /-- The nodes that run, and the fires of running nodes that wait. -/
  running : List (Nat × Work)
  pending : List Nat
  failed : Nat
  rearms : Nat
  /-- What the run's start acquired; by node, what its predecessors have released to it, and what its own completion releases. -/
  know : Know
  got : SMap Know
  outs : SMap Know
  /-- What every completed node has released, for the end of the run. -/
  ends : Know
deriving DecidableEq, Repr

/-- A resident graph table (R333). -/
structure GraphRec where
  handle : Nat
  colour : Nat
  nodes : List NodeRec
  run : Option RunRec
deriving DecidableEq, Repr

/-! ### The fabric (R374, R378, R382, R383) -/

/-- An admission entry (R374). -/
structure Admit where
  peer : Nat
  flags : Nat
  rcolour : Nat
  lcolour : Nat
  inqueue : Nat
  base : Nat
  len : Nat
  inbox : Nat
deriving DecidableEq, Repr

/-- A delegation record (R378): the capability, the peer, the nonce's port and counter. -/
structure DelgRec where
  cap : Quad
  peer : Nat
  port : Nat
  ctr : Nat
deriving DecidableEq, Repr

/-- A `delg` that waits for a port or for its answer (R381): the record and its id, the rope and the instruction's address, the lane's
capability and the peer, since when, whether it has been sent, and the status that it is to return. -/
structure DelgWait where
  entry : Nat
  id : Nat
  uid : Nat
  k : Nat
  pc : BitVec 48
  since : Nat
  sent : Bool
  answer : Option Nat
deriving DecidableEq, Repr

/-- What a record table's slot holds: a generation, and a record while in use (R378). -/
structure DelgSlot where
  gen : Nat
  body : Option DelgRec
deriving DecidableEq, Repr

/-- A handle-table entry in use (R382): the 48 bytes, the colour of its capability, the pass after which it is free. -/
structure HandleRec where
  wire : List Byte
  colour : Nat
  freeAfter : Option Nat
deriving DecidableEq, Repr

/-! ### Collectives (R386 to R395) -/

/-- An operation of a plan (R387). -/
structure PlanOp where
  kind : Nat
  ty : Nat
  opr : Nat
  npred : Nat
  bytes : Nat
  bufa : Nat
  bufb : Nat
  base : Nat
  peer : Nat
  sw : Bool
  chunk : Nat
  off : Nat
  succ : List Nat
deriving DecidableEq, Repr

/-- A loaded plan (R387, R388). -/
structure Plan where
  handle : Nat
  colour : Nat
  planid : Nat
  ranks : Nat
  rank : Nat
  nbuf : Nat
  slotwait : Nat
  dbytes : Nat
  /-- Extent, needs LD, needs ST. -/
  bases : List (Nat × Bool × Bool)
  rankmap : List Nat
  ops : List PlanOp
  /-- The next replay's number (R392). -/
  next : Nat
deriving DecidableEq, Repr

/-- A chunk (R390): bytes, contributor bitmap, poison mark, and what it carries of its senders' releases (R393). -/
structure Chunk where
  bytes : List Byte
  bitmap : DWord
  poison : Bool
  know : Know
deriving DecidableEq, Repr

/-- An empty buffer. -/
def Chunk.empty : Chunk := ⟨[], 0, false, ⟨[], []⟩⟩

/-- State of a plan operation in a replay: waiting for predecessors, a SEND or a peer's DELIVER not answered (since a time; refused or
not), a RECV that has taken a switch's partial (R395), done. -/
inductive OpSt where
  | waiting (preds : Nat)
  | sent (since : Nat) (refused : Bool)
  | held
  | done
deriving DecidableEq, Repr

/-- Who issued a replay, and what its completion posts (R391). -/
structure ReplayRec where
  id : Nat
  plan : Nat
  seq : Nat
  started : Bool
  /-- The job card of a `coll`, or the command or node of a REPLAY. -/
  job : Option Nat
  by' : Option Starter
  queue : Nat
  caps : List Quad
  colour : Nat
  die : Nat
  key : DWord
  ctr : DWord
  bufs : SMap Chunk
  ops : List OpSt
  dropped : DWord
  /-- Bytes that its DELIVERs have written. -/
  written : Nat
  /-- The bitmap of a switch's partial, once one has been taken (R395). -/
  order : Option DWord
  /-- Far pages that it has met lost (R417), and peers' answers to FETCHes: operation, bytes, refused or unreachable (R376). -/
  lost : NSet
  /-- The far pages at which its operations wait. -/
  waits : NSet
  got : List (Nat × List Byte × Bool)
  /-- Race agent of its accesses, and what its issue released (R393). -/
  agent : Nat
  know : Know
deriving DecidableEq, Repr

/-- A chunk that has arrived for a replay and no RECV has taken (R389), or a switch's late contribution (R395). -/
structure Inbound where
  planid : Nat
  seq : Nat
  from' : Nat
  chunk : Nat
  late : Bool
  body : Chunk
deriving DecidableEq, Repr

/-- The ranks that a switch slot expects (R395), by plan identifier and CHUNK. -/
structure SwitchSlot where
  planid : Nat
  chunk : Nat
  expects : DWord
deriving DecidableEq, Repr

/-- What base camp sends, as the world outside sees it: delegations and invocations (R381, R383), reports (R384), chunks and their
answers (R389), answers to a peer's accesses (R376), an ATS Invalidate Completion (R288). -/
inductive WireMsg where
  | deleg (dev : Nat) (wire : List Byte) (colour id : Nat)
  | delegAnswer (dev : Nat) (ok : Bool)
  | invoke (dev : Nat) (wire : List Byte) (colour job : Nat)
  | report (dev inv fault bytes : Nat)
  | chunk (dev planid seq rank chunk : Nat) (sw : Bool) (body : Chunk)
  | chunkAnswer (dev planid seq chunk : Nat) (ok : Bool)
  | peerAnswer (dev seq : Nat) (data : List Byte) (ok : Bool)
  | invalidated (lo hi : Nat)
deriving DecidableEq, Repr

/-! ### Pool regions (R397) -/

/-- A pool region record, and its modules that are lost (R398). -/
structure Region where
  base : Nat
  len : Nat
  parity : Bool
  versioned : Bool
  ctrl : Nat
  colours : List Nat
  lostModules : NSet
deriving DecidableEq, Repr

/-! ### Emulation (R38) -/

/-- What the emulation of a retired instruction reads before it touches memory: the instruction's words, the live lanes of the slot, the
rope's lane registers, predicates and uniform registers (R38 steps 1 and 2). -/
structure EmuIn where
  words : Nat
  live : Word
  regs : SMap Word
  preds : SMap Word
  unif : SMap Word
deriving DecidableEq, Repr

/-- An access that the emulation makes: the lane, the quad of its capability, the offset, the bytes and their alignment; of a store,
its data. -/
structure EmuAcc where
  lane : Nat
  quad : BitVec 6
  off : Int
  n : BitVec 4
  align : Nat
  data : List Byte
deriving DecidableEq, Repr

/-- The first part of an emulation: the guard-active lanes, a cause of its own with its lanes and TINFO, and its accesses, stores when
`write` is set and reads otherwise. -/
structure Emulation where
  active : Word
  cause : Option (Cause × Word × DWord)
  write : Bool
  accs : List EmuAcc
deriving DecidableEq, Repr, Inhabited

/-- What an emulation then writes: lane registers (lane × 256 + register), predicates, uniform registers, sticky flags; the sources whose
last-use hints apply, with their numbers of registers (R38 step 3). -/
structure EmuEffect where
  regs : List (Nat × Word)
  preds : List (Nat × Word)
  unif : List (Nat × Word)
  fpst : BitVec 6
  used : List (RSrc × Nat)
deriving DecidableEq, Repr, Inhabited

/-! ### Firmware (R47, R404, R411, R412) -/

/-- The enablement map (R47): core and slice bits, and the words of cores that differ from the one of a whole core. -/
structure EnMap where
  cores : Nat
  slices : Nat
  words : SMap Word
deriving DecidableEq, Repr

/-- A change that is due at a safe point (R411, R413): kind 0 core, 1 L2 slice, 2 scratch bank, 3 lane group, 4 HBM row or channel,
5 SerDes lane, 6 the plane cap; the unit: a core's number, die × 256 + slice, core × 256 + bank or group, a number of an HBM unit, port
× 256 + lane, or the new cap. -/
structure SpareDue where
  kind : Nat
  unit : Nat
deriving DecidableEq, Repr

/-- A safe point being waited for (R412): the change, and since when. -/
structure SafeWait where
  due : SpareDue
  /-- The cores that are affected. -/
  cores : List Nat
  since : Nat
deriving DecidableEq, Repr

/-- What firmware holds of itself. -/
structure Firmware where
  /-- The lead and the expiry of its lease, in nanoseconds (R404). -/
  lead : Option Nat
  expiry : Nat
  /-- Cores that ask the arbiter, and since when it collects (R404). -/
  asking : NSet
  collect : Option Nat
  /-- Halted firmware cores (R406), those of them whose image has failed verification. -/
  halted : NSet
  clkmax : Nat
  pcap : Nat
  /-- The active image's bytes, the layouts that it reads, the fused minimum security version (R368, R409). -/
  image : List Byte
  layouts : List Nat
  minSec : Nat
  /-- Thresholds by kind; corrected errors, and the units that a spare has replaced, by kind × 65536 + unit (R413). -/
  thresholds : SMap Nat
  worn : SMap Nat
  retired : NSet
  due : List SpareDue
  safe : Option SafeWait
deriving DecidableEq, Repr

end Sys2Proof.Machine
end

