-- ==== Sys2Proof/Machine/State.lean ====
section
/-!
DEFINITION. The state of the FC4 package as plain data: every register, memory and table that the spec names, and the model's own
bookkeeping (the agenda of steps, counters that index free values, what synchronises with what).
-/
namespace Sys2Proof.Machine

/-! ### The model's own step bookkeeping -/

/-- Which rope and slot issues: the party's number in this model, the rope's number in the party, the place of the slot's entry in
the stack (0 slot A, 1 slot B; an entry that waits may stand deeper). -/
structure Issuer where
  uid : Nat
  rope : Nat
  pos : Nat
deriving DecidableEq, Repr

/-- What the machine does in one step (log 1). -/
inductive Turn where
  /-- One cycle of an issue pipe (R72, R73); the pairs whose operands or unit are not available: rope slot, slot B. -/
  | cycle (core pipe : Nat) (unavailable : List (Nat × Bool))
  /-- A command, a request or an event of the opcode table. -/
  | event (i : Instr)
  /-- The package timer runs on by `ns` nanoseconds (R276). -/
  | elapse (ns : Nat)
  /-- The clock of a core runs on (R105). -/
  | clock (core cycles : Nat)
  /-- A line leaves L2 by capacity, and its race records are lost (R310). -/
  | evictLine (line : Nat)
  /-- The instruction cache of a die takes, or drops, the code word at an address (R236). -/
  | cacheWord (die addr : Nat)
  | uncacheWord (die addr : Nat)
  /-- A rope's fetch buffer takes the code words of the block at an address (R236). -/
  | bufferBlock (uid rope addr : Nat)
  /-- The host makes an acquire read of the word at an address at system scope (R301, R336). -/
  | hostAcquire (addr : Nat)
  /-- The host writes bytes of VECWIN from an offset (R312). -/
  | vecWrite (off : Nat) (bytes : List Byte)
  /-- A host writes its memory, or the pool is written by another host: bytes from an address (R309: clears VALID). -/
  | hostWrite (addr : Nat) (bytes : List Byte)
  /-- Dirty lines of a stash page go back to L2 (R138). -/
  | stashWriteBack (uid line : Nat)
deriving DecidableEq, Repr, Inhabited

/-! ### Memory -/

/-- A race record (R309): AGENT of 32 bits, GEN of 30, ATOM; VALID is its being there. -/
structure RaceRec where
  agent : BitVec 32
  gen : BitVec 30
  atom : Bool
deriving DecidableEq, Repr

/-- State of a residency entry (R283). -/
inductive PageSt where
  | fetching | resident | evicting
deriving DecidableEq, Repr

/-- The class of a request for a page (R287): demand, engine or `pref`, route card with waypoint and PRI. -/
inductive AskClass where
  | demand
  | engine
  | card (waypoint pri : Nat)
deriving DecidableEq, Repr

/-- A request for a page that has no residency entry (R287). -/
structure PageAsk where
  page : Nat
  cls : AskClass
  /-- Write permission is wanted (R288). -/
  write : Bool
  colour : Nat
  /-- The pool version that the route card pins (R291). -/
  version : Option Nat
deriving DecidableEq, Repr

/-- A residency entry (R283). -/
structure PageRec where
  /-- The frame that holds the page (R282). -/
  frame : Nat
  st : PageSt
  /-- The half-lines that its home marks poisoned, by address / 64 (R287). -/
  home : NSet
  /-- Dirty lines, by address / 128. -/
  dirty : NSet
  /-- A host page is translated with write permission (R288); an upgrade has been asked for. -/
  writable : Bool
  upgrade : Bool
  /-- The pool version to which the contents are bound (R287, R403). -/
  version : Nat
  /-- Number of the last access (R289). -/
  used : Nat
  /-- Eviction is wanted: an ATS invalidation, or a pinned version that differs (R288, R403). -/
  unwanted : Bool
deriving DecidableEq, Repr

/-- A pin record (R297): the launch, its colour, the page. -/
structure Pin where
  launch : Nat
  colour : Nat
  page : Nat
deriving DecidableEq, Repr

/-- The contents of a 4 KiB page as they stood at a cut (R280). -/
structure PageImage where
  bytes : List Byte
  tags : NSet
  poison : NSet
deriving DecidableEq, Repr

/-- A running snapshot (R280): its job, whether the cut has been made, source and destination, the pages that have taken a
copy-on-write, those copied out; `ahead` counts the oldest `mmf` partials that were on their way when it was issued. -/
structure Snap where
  job : Nat
  cut : Bool
  ahead : Nat
  src : Nat
  len : Nat
  dst : Nat
  saved : SMap (Option PageImage)
  copied : NSet
deriving DecidableEq, Repr

/-- State of a port (R372). -/
inductive PortSt where
  | down | training | up | narrow | fenced
deriving DecidableEq, Repr

/-- A fabric port (R372), its seal counter (R379) and its good lanes (R371). -/
structure PortRec where
  st : PortSt
  /-- PARTNER, LANEMAP and RETRIES (R372). -/
  partner : Nat
  lanemap : Nat
  retries : Nat
  sealCtr : Nat
  /-- Lanes that have failed (R371); the port has carried traffic since reset. -/
  failed : NSet
  trained : Bool
  /-- Retries of the flit that is being retried (R370). -/
  streak : Nat
deriving DecidableEq, Repr

/-- A port after reset (R372, R379). -/
def PortRec.zero : PortRec := ⟨.down, 0, 0, 0, 1, [], false, 0⟩

/-- Who waits for the answer of a request: a rope's access, by its key and the instruction's address; a job; nobody. -/
inductive PeerFrom where
  | job (id : Nat)
  /-- A FETCH or DELIVER of a replay (R390). -/
  | replay (id op : Nat)
  | lane (uid k key : Nat) (pc : BitVec 48)
  /-- A read for a WAIT command (queue and number) or a WAITEXT node (graph and node) (R336). -/
  | poll (node : Bool) (a b : Nat)
  /-- A store or `atomn` of a rope, which it does not wait for; its ordering instructions do (R231, R234). -/
  | posted (uid k : Nat)
  /-- An `mmf` partial of a rope, for its `accq` (R261). -/
  | part (uid k : Nat)
  | nobody
deriving DecidableEq, Repr

/-- A request to a peer that has not been answered (R373, R375). -/
structure PeerReq where
  seq : Nat
  dev : Nat
  addr : Nat
  op : PeerOp
  src : PeerFrom
  colour : Nat
  /-- The base of the capability that it was made through (R208). -/
  base : Nat
  /-- The die whose counter a dropped write raises (R376). -/
  die : Nat
  since : Nat
  /-- The port that carries it; none while it waits for one. -/
  port : Option Nat
deriving DecidableEq, Repr

/-- An entry of the revocation map (R205) with the pass it is assigned to (R206). -/
structure RevEntry where
  /-- The range [lo, hi), or none for a colour entry. -/
  range : Option (Nat × Nat)
  colour : Nat
  pass : Nat
deriving DecidableEq, Repr

/-- State of a colour (R202). -/
inductive ColourSt where
  | free | live | retiring
deriving DecidableEq, Repr

/-! ### Rings (R275) -/

/-- A completion record (R276) without its TIME. -/
structure Record where
  status : Nat
  fault : Nat
  job : Nat
  bytes : Nat
  detail : Nat
deriving DecidableEq, Repr

/-- Where a waiting record goes: the ring that a rope has bound when it is posted, or a queue's completion ring. -/
inductive PostTo where
  | rope (uid k : Nat)
  | queue (q : Nat)
deriving DecidableEq, Repr

/-- A record that waits for RING_POST. -/
structure Post where
  dest : PostTo
  body : Record
  /-- What its commit releases (R276, R325). -/
  know : Know
  /-- Far pages of the ring that it waits for (R283). -/
  waits : List Nat
deriving DecidableEq, Repr

/-- A slot that is ready and not yet covered by COMMIT, because an earlier reservation is not (R275): what it releases, and a record
that is written with its TIME as it is committed, at the slot's address (R276). -/
structure RingDone where
  desc : Nat
  k : Nat
  cairn : Option CairnRef
  know : Know
  body : Option (Nat × Record)
  /-- The colour for which far pages of the ring are asked for, those that it waits for, and whether the slot's page has been lost
  (R283). -/
  colour : Nat
  waits : List Nat
  failed : Bool
deriving DecidableEq, Repr

/-- Slots committed since the last interrupt of a ring, and when the oldest of them was (R275). -/
structure RingInt where
  count : Nat
  oldest : Nat
deriving DecidableEq, Repr

/-! ### Cores and dies -/

/-- What a core holds besides its ropes (R72, R105, R162). -/
structure CoreRec where
  stray : Word
  clock : DWord
  ageCtr : Nat
deriving DecidableEq, Repr

/-- What a die holds: job and agent counts (R265, R309), error counters (R414), the fenced mark (R411). -/
structure DieRec where
  jobCtr : Nat
  agentCtr : Nat
  errors : SMap Nat
  fenced : Bool
deriving DecidableEq, Repr

/-- A range that the management interface has granted to a colour (R314): kind 0 HBM, 1 pool, 2 host, 3 peer window. -/
structure GrantRec where
  colour : Nat
  kind : Nat
  base : Nat
  len : Nat
deriving DecidableEq, Repr

/-- The registers of MGMTWIN (R313): the last request answered, BUSY, MBVEC, and the buffers by offset. -/
structure Mailbox where
  answered : Nat
  busy : Bool
  vec : Nat
  req : SMap Byte
  rsp : SMap Byte
deriving DecidableEq, Repr

/-- The core after reset. -/
def CoreRec.zero : CoreRec := ⟨0, 0, 0⟩

/-- The die after reset. -/
def DieRec.zero : DieRec := ⟨0, 0, [], false⟩

/-! ### The state -/

/-- The state of the package. -/
structure State where
  /-- The steps that come next; when there is none, Config.environment gives the next (log 1). -/
  agenda : List Turn
  /-- Counts the steps that Config.environment gave, and the free values taken (log 15). -/
  tick : Nat
  fresh : Nat
  /-- The pair whose instruction is being issued. -/
  issuing : Option Issuer
  /-- The package timer, nanoseconds since package reset (R276). -/
  timer : Nat
  /-- The span: HBM, pool and host windows (R216); an unlisted byte reads 0 (log 3). -/
  mem : List Host.Cell
  /-- Tagged granules of the span, by address / 16 (R196), and the tag-summary bits, by 4 KiB page (R207). -/
  tags : NSet
  tagPages : NSet
  /-- Poisoned half-lines, by address / 64 (R219). -/
  poison : NSet
  /-- Race records, by address / 16 (R309). -/
  race : SMap (Option RaceRec)
  /-- What can be acquired at a line, by address / 128 (R301). -/
  sync : SMap LineSync
  /-- The release counts of base camp and of the firmware cores, by agent number (R298, R309). -/
  devRel : SMap Nat
  /-- The colours of the race agents, by number, for what a sweep pass releases (R208, R309). -/
  agentColour : SMap Nat
  /-- The fences made, for later fences at a scope that holds both (R302). -/
  fences : List Pub
  /-- Instruction caches, by die × 2^48 + address (R236). -/
  icache : SMap (Option Word)
  parties : List Party
  cores : SMap CoreRec
  dies : SMap DieRec
  /-- Jobs issued and not ended, oldest first (R251, R265); those that have ended, for what later jobs acquire of them (R307). -/
  jobs : List Job
  endedJobs : List Job
  /-- The residency table, by page (R283), pin records (R297), requests, oldest first (R287), PINQUOTA by colour (R297). -/
  pages : SMap (Option PageRec)
  pins : List Pin
  asks : List PageAsk
  quota : SMap Nat
  /-- Numbers the accesses to far pages (R289). -/
  accesses : Nat
  /-- ATS Invalidate Requests that wait for pages to be evicted: ranges (R288). -/
  invals : List (Nat × Nat)
  snap : Option Snap
  /-- Fabric ports (R372), the route table by device (R373), this device's number (log 5). -/
  ports : SMap PortRec
  routes : SMap (List Nat)
  device : Nat
  /-- Requests to peers without an answer, oldest first, the next sequence number, the sequence numbers that have arrived, as
  device × 2^64 + number (R373), and by device what has been released to it at `.sys` (R375). -/
  peerOut : List PeerReq
  peerSeq : Nat
  peerSeen : NSet
  peerKnow : SMap Know
  /-- The revocation map, W and whether pass W + 1 runs (R205, R206). -/
  revMap : List RevEntry
  passDone : Nat
  passRunning : Bool
  /-- What completed passes release: every agent's count when the pass completed (R208). -/
  passKnow : Know
  colours : SMap ColourSt
  /-- Records that wait for RING_POST, oldest first. -/
  posts : List Post
  ringDone : List RingDone
  /-- By descriptor address (R275). -/
  ringInt : SMap RingInt
  /-- What the host has acquired by its acquire reads (R301, R336). -/
  hostKnow : Know
  /-- MSI-X vectors sent to the host, latest first (R275, R313). -/
  msix : List Nat
  /-- Configured pool bytes (R216), residency frames on each stack (R282), copy-on-write frames in the reserve (R280; logs 6, 7). -/
  poolBytes : Nat
  resFrames : Nat
  cowFrames : Nat
  /-- Format windows, by 8 × stack + window: the descriptor's 256 bits (R220). -/
  windows : SMap Nat
  /-- Installed route cards (R292). -/
  cards : List RouteCard
  /-- Gang instructions joined and not complete, oldest first, and their count (R241); `mmf` partials on their way (R259). -/
  gangs : List Gang
  gangCtr : Nat
  parts : List FarPart
  /-- Queues (R311), commands in execution (R316), buckets (R320); numbers moments of eligibility, mapping and start (R319, R327). -/
  queues : SMap QueueRec
  cmds : List Cmd
  buckets : SMap Bucket
  moments : Nat
  /-- Objects and graph tables, by handle (R318), launches in order of start, their count (R363). -/
  objects : List ObjRec
  graphs : List GraphRec
  launches : List Launch
  launchCtr : Nat
  partyCtr : Nat
  /-- Cores whose release has still to be offered to parties (R327). -/
  offers : List Nat
  /-- Where firmware takes its areas of HBM, and where it keeps the handle table (log 8). -/
  heldAt : Nat
  handleAt : Nat
  mailbox : Mailbox
  /-- VECWIN: the MSI-X table and the pending bits, by offset (R312). -/
  vecwin : SMap Byte
  grants : List GrantRec
  /-- Keys provisioned for a colour: the payload of KEYS_SET (R314). -/
  keys : SMap (List Byte)
  /-- Admission (R374), delegation records (R378) and the `delg` that wait, keys by port × 128 + peer (numbered from 1, R379),
  the handle table (R382). -/
  admits : SMap (Option Admit)
  delgs : SMap DelgSlot
  delgWaits : List DelgWait
  portKeys : SMap Nat
  handles : SMap (Option HandleRec)
  /-- Plans, replays in order of issue, chunk buffers in use, chunks arrived, switch slots (R386 to R395). -/
  plans : List Plan
  replays : List ReplayRec
  replayCtr : Nat
  bufUsed : Nat
  inbound : List Inbound
  switches : List SwitchSlot
  /-- What was sent to other devices and the host, latest first. -/
  wire : List WireMsg
  /-- Pool regions (R397) and the host-side ports 1 to 3 that are trained (R396). -/
  regions : SMap (Option Region)
  poolPorts : NSet
  enmap : EnMap
  fw : Firmware
  /-- The die whose distributor is master (R329). -/
  master : Nat
deriving DecidableEq, Repr

/-- Cores 52d to 52d + 47 of each die d (log 4). -/
def wholeCores : Nat := (2 ^ 48 - 1) * (1 + 2 ^ 52 + 2 ^ 104 + 2 ^ 156)

/-- Firmware after reset (R404, R411; log 17). -/
def Firmware.zero : Firmware :=
  { lead := some 0, expiry := 4000000, asking := [], collect := none, halted := [], clkmax := 128, pcap := 16
    image := [], layouts := [3], minSec := 0, thresholds := [], worn := [], retired := [], due := [], safe := none }

/-- The state right after package reset (R329). -/
def State.reset : State where
  agenda := []
  tick := 0
  fresh := 0
  issuing := none
  timer := 0
  mem := []
  tags := []
  tagPages := []
  poison := []
  race := []
  sync := []
  devRel := []
  agentColour := []
  fences := []
  icache := []
  parties := []
  cores := []
  dies := []
  jobs := []
  endedJobs := []
  pages := []
  pins := []
  asks := []
  quota := []
  accesses := 0
  invals := []
  snap := none
  ports := []
  routes := []
  device := 0
  peerOut := []
  peerSeq := 0
  peerSeen := []
  peerKnow := []
  revMap := []
  passDone := 0
  passRunning := false
  passKnow := ⟨[], []⟩
  colours := []
  posts := []
  ringDone := []
  ringInt := []
  hostKnow := ⟨[], []⟩
  msix := []
  poolBytes := 2 ^ 46
  resFrames := 8
  cowFrames := 16
  windows := []
  cards := []
  gangs := []
  gangCtr := 0
  parts := []
  queues := []
  cmds := []
  buckets := []
  moments := 0
  objects := []
  graphs := []
  launches := []
  launchCtr := 0
  partyCtr := 0
  offers := []
  heldAt := 0x00BF00000000
  handleAt := 0x00BEFFFC0000
  mailbox := ⟨0, false, 0, [], []⟩
  vecwin := []
  grants := []
  keys := []
  admits := []
  delgs := []
  delgWaits := []
  portKeys := []
  handles := []
  plans := []
  replays := []
  replayCtr := 0
  bufUsed := 0
  inbound := []
  switches := []
  wire := []
  regions := []
  poolPorts := [1, 2, 3]
  enmap := ⟨wholeCores, 2 ^ 48 - 1 + (2 ^ 48 - 1) * 2 ^ 50 + (2 ^ 48 - 1) * 2 ^ 100 + (2 ^ 48 - 1) * 2 ^ 150, []⟩
  fw := Firmware.zero
  master := 0

/-- Why the machine stops. Hardware never stops so: each reason is a step that no hardware takes. -/
inductive Fault where
  /-- A rope instruction is executed while no rope issues. Raised by every rope instruction of exec; safe. -/
  | noIssuer
deriving DecidableEq, Repr

/-- Why a step has no meaning. -/
inductive Refusal where
  /-- An instruction whose meaning is not given; safe. -/
  | notModelled (mnemonic : String)
deriving DecidableEq, Repr

/-- The outcome of a step of this machine. -/
abbrev Out := Host.Outcome State Fault Refusal

end Sys2Proof.Machine
end

