-- ==== Sys2Proof/Config.lean ====
section
/-!
DEFINITION. What an implementation or the outside fixes, and the free values of the model: constants without a body, so that no proof
can see a value of them.
-/
namespace Sys2Proof.Config

open Machine

/-- The step that comes next when State.agenda is empty, by the count of such steps (log 1). -/
opaque environment : Nat → Turn

/-- A free 64-bit value, by State.fresh: a value that the spec leaves open (log 15). -/
opaque freeBits : Nat → DWord

/-- The 36 bytes that a copy delivers for a view address that is not the first of a block: the spec states no result there. -/
opaque misreadView : Nat → BitVec 288

/-- What the emulation of a retired instruction accesses, by what it reads of the rope, and what it writes, by the bytes that its accesses
have read as well: the spec does not give it (R38, log 11). -/
opaque emulation : EmuIn → Emulation
opaque emulated : EmuIn → List (List Byte) → EmuEffect

/-- The keys that base camp's random number source makes, by their number (R379, log 12). -/
opaque portKey : Nat → BitVec 256

/-- The SIGNATURES section that a firmware image carries, the bytes that are digested, and the keys under which images are verified, as
KEYS_SET lays them out: the spec gives no container of an image (R368, R409, log 12). -/
opaque imageSignatures : List Byte → List Byte
opaque imageBody : List Byte → List Byte
opaque imageKeys : List Byte

/-- The security version that a firmware image carries, and the save layouts that it declares (R368, R409). -/
opaque imageVersion : List Byte → Nat
opaque imageLayouts : List Byte → List Nat

/-- What the identity keys sign: the ECDSA and the LMS signature over a report's digest (R409, log 12). -/
opaque identityEcdsa : List Byte → List Byte
opaque identityLms : List Byte → List Byte

/-- The home slice of a line among the enabled slices (R217): the hash is not architectural. -/
opaque homeSlice : Nat → Nat → Nat

/-- The ranks that a switch slot expects, by plan identifier and CHUNK (R395): the fabric's configuration. -/
opaque slotExpects : Nat → Nat → DWord

/-- The TYPE code of the elements that a switch slot adds, by plan identifier and CHUNK (R394): the fabric's configuration. -/
opaque slotElem : Nat → Nat → Nat

end Sys2Proof.Config
end

