-- ==== Sys2Proof/WellFormed.lean ====
section
/-!
DEFINITION. The limits that the cards set on operand fields (R25 to R29, R101, R106 and each card), as a check on Instr. The
limits that depend on the rope, its allotment (R97) and its handler mode, are checked where the instruction issues.
-/
namespace Sys2Proof

/-- No guard: GRD 0111. -/
def Guard.always : Guard := ⟨false, 7⟩

/-- `!p7` is illegal (R14). -/
def Guard.ok (g : Guard) : Bool := !(g.neg && g.p == 7)

/-- The uniform class takes no guard (R28). -/
def guardOk (u : Bool) (g : Guard) : Bool := if u then g == Guard.always else g.ok

/-- An even field: a 64-bit pair (R27). -/
def isEven (r : BitVec 8) : Bool := r.toNat % 2 == 0

/-- A multiple of 4: a capability quad (R27). -/
def isQuad (r : BitVec 8) : Bool := r.toNat % 4 == 0

/-- A uniform register, 0x00 to 0x3F (R27). -/
def isUnif (r : BitVec 8) : Bool := r.toNat < 64

/-- An even uniform pair, 0x00 to 0x3E. -/
def isUnifPair (r : BitVec 8) : Bool := isUnif r && isEven r

/-- A uniform flag, 0 to 3 (R27). -/
def isFlag (r : BitVec 8) : Bool := r.toNat < 4

/-- A predicate destination, 0 to 6 (R27). -/
def isPredDst (r : BitVec 8) : Bool := r.toNat < 7

/-- A predicate source, 0 to 7 (R27). -/
def isPredSrc (r : BitVec 8) : Bool := r.toNat < 8

/-- A layout record, a multiple of 8 up to 0x38 (R27). -/
def isRecord (r : BitVec 8) : Bool := isUnif r && r.toNat % 8 == 0

/-- No hint on a field that carries none (R101). -/
def noHint (s : RSrc) : Bool := s.h == .none

/-- A field that the card leaves unused is zero (R26). -/
def isUnused (s : RSrc) : Bool := s.r == 0 && noHint s

/-- A register field of the lane class, or of the uniform class when `u`; even when `w`. -/
def regOk (u w : Bool) (r : BitVec 8) : Bool := (!u || isUnif r) && (!w || isEven r)

/-- A register source (R28, R101). -/
def srcOk (u w : Bool) (s : RSrc) : Bool := regOk u w s.r && (!u || noHint s)

/-- The B source of a 64-bit mould (R106): SB only with U = 0. -/
def bOk (u w : Bool) : BSrc → Bool
  | .reg s => srcOk u w s
  | .unif r => !u && isUnif r && (!w || isEven r)
  | .imm _ => true

/-- A B or C source of a 96-bit mould (R106). -/
def cOk (u w : Bool) : CSrc → Bool
  | .reg s => srcOk u w s
  | .unif r => !u && isUnif r && (!w || isEven r)

/-- The integer mould with the widths of D, A and B. -/
def IntOp.ok (m : IntOp) (dw aw bw : Bool) : Bool :=
  guardOk m.u m.g && regOk m.u dw m.d && srcOk m.u aw m.a && bOk m.u bw m.b

/-- The integer mould with every operand of the card's width. -/
def IntOp.okW (m : IntOp) : Bool := m.ok m.w m.w m.w

/-- The unary integer mould with the width of D. -/
def IntUn.ok (m : IntUn) (dw : Bool) : Bool :=
  guardOk m.u m.g && regOk m.u dw m.d && srcOk m.u m.w m.a

/-- The 96-bit integer mould with the widths of its operands. -/
def IntTri.ok (m : IntTri) (dw aw bw cw : Bool) : Bool :=
  guardOk m.u m.g && regOk m.u dw m.d && srcOk m.u aw m.a && cOk m.u bw m.b && cOk m.u cw m.c

/-- R60: `.rna` only on conversions. -/
def roundOk (r : Round) : Bool := r != .rna

/-- The floating mould; `w` says that operands are pairs. -/
def FltOp.ok (m : FltOp) (w : Bool) : Bool :=
  guardOk m.u m.g && roundOk m.rm && regOk m.u w m.d && srcOk m.u w m.a && bOk m.u w m.b

/-- The unary floating mould. -/
def FltUn.ok (m : FltUn) : Bool :=
  guardOk m.u m.g && roundOk m.rm && regOk m.u false m.d && srcOk m.u false m.a

/-- The 96-bit floating mould. -/
def FltTri.ok (m : FltTri) (w : Bool) : Bool :=
  guardOk m.u m.g && roundOk m.rm && regOk m.u w m.d && srcOk m.u w m.a && cOk m.u w m.b && cOk m.u w m.c

/-- A destination that is a lane register, or a uniform one; even when `w`. -/
def Dst.ok (w : Bool) : Dst → Bool
  | .lane d => regOk false w d
  | .unif d => regOk true w d

/-- An immediate, or a uniform register (R173). -/
def ISrc.ok : ISrc → Bool
  | .imm _ => true
  | .unif r => isUnif r

/-- A barrier number, 0 to 95 (R152). -/
def barOk (b : Nat) : Bool := b < 96

/-- Whether a format holds its values in 64 bits. -/
def Elem.wide : Elem → Bool
  | .i64 | .n64 | .b64 | .f64 => true
  | _ => false

/-- Formats of `cvt` (R66): 0x01 to 0x08 and 0x10 to 0x13. -/
def Elem.scalar : Elem → Bool
  | .i8 | .i16 | .i32 | .i64 | .n8 | .n16 | .n32 | .n64 | .f16 | .bf16 | .f32 | .f64 => true
  | _ => false

/-- `.f32` or `.f64`. -/
def Elem.flushable : Elem → Bool
  | .f32 | .f64 => true
  | _ => false

/-- Formats of `rint` (R69). -/
def Elem.rintable : Elem → Bool
  | .f16 | .bf16 | .f32 | .f64 => true
  | _ => false

/-- The MX element types, 0x20 to 0x24 (R53). -/
def Elem.mx : Elem → Bool
  | .e4m3 | .e5m2 | .e3m2 | .e2m3 | .e2m1 => true
  | _ => false

/-- Number of elements in a packed word of `cvtp` (R67); 0 for a format the card does not take. -/
def Elem.packed : Elem → Nat
  | .f16 | .bf16 => 2
  | .e4m3 | .e5m2 | .e3m2 | .e2m3 => 4
  | .e2m1 | .nq4 => 8
  | _ => 0

/-- The limits of `cvtp` (R67). -/
def CvtpOp.ok (o : CvtpOp) : Bool :=
  o.g.ok && o.fmt.packed != 0
  && (if o.xp then o.d.toNat else o.a.r.toNat) + o.fmt.packed ≤ 256
  && (match o.fmt with
      | .f16 | .bf16 => isUnused o.b && isUnused o.c
      | .nq4 => o.rm == .rn && !o.sat
      | _ => isUnused o.c)

/-- Whether a type of `red` is 64 bits wide (R168). -/
def RedTy.wide : RedTy → Bool
  | .i64 | .n64 | .f64 | .b64 => true
  | _ => false

/-- Which types an operation of `red` takes (R168). -/
def RedOp.takes : RedOp → RedTy → Bool
  | .and, t | .or, t | .xor, t => t == .b32 || t == .b64
  | _, t => t != .b32 && t != .b64

/-- A uniform or barrier field that may be absent. -/
def optUnif : Option (BitVec 8) → Bool
  | none => true
  | some r => isUnif r

/-- The index operand of `draw` and `drawt` and their destination (R188). -/
def drawDst : Dst → Bool
  | .lane d => isEven d
  | .unif d => isUnifPair d

/-- The scratch mould (R143). -/
def szData (sz : Sz) (r : BitVec 8) : Bool :=
  match sz with
  | .b64 => isEven r
  | .b128 | .c => isQuad r
  | _ => true

/-- The signed sizes, which stores do not have (R143, R227). -/
def Sz.storable : Sz → Bool
  | .i8 | .i16 => false
  | _ => true

/-- The offset field of the span mould (R223). -/
def OffSrc.ok : OffSrc → Bool
  | .none => true
  | .reg _ => true
  | .pair s => isEven s.r

/-- The span access mould (R223). -/
def SpanOp.ok (m : SpanOp) : Bool := m.g.ok && isQuad m.a.r && m.off.ok

/-- The limits common to `atom` and `atomn` (R230). -/
def AtomOpnd.ok (o : AtomOpnd) : Bool :=
  o.g.ok && isQuad o.a.r && o.off.ok && regOk false o.w o.d && srcOk false o.w o.c
  && (if o.op == .cas then srcOk false o.w o.e else isUnused o.e)
  && (o.ord != .relaxed || o.scope == .rope)

/-- The gang mould (R255): PA ≤ SA, PB ≤ SB, SAT only with INT, uniform tile offsets. -/
def GangOp.ok (o : GangOp) : Bool :=
  o.pam1.toNat ≤ o.sam1.toNat && o.pbm1.toNat ≤ o.sbm1.toNat && (!o.sat || o.int)
  && isUnif o.a && isUnif o.b

/-- An accumulator block base (R252). -/
def isBlock (d : BitVec 8) : Bool := d.toNat % 32 == 0

/-- The formats of `accw` (R263). -/
def accwFmt (int : Bool) : Elem → Bool
  | .f32 => true
  | .bf16 | .f16 => !int
  | .i32 | .i16 | .i8 => int
  | _ => false

/-- The special registers of R105. -/
def isSpecial (a : BitVec 8) : Bool := a.toNat ≤ 0x0D

/-- System register numbers of R351 that `rdsr` may name. -/
def isSysReg (n : Nat) : Bool :=
  n ≤ 0x011 || (0x100 ≤ n && n ≤ 0x17F) || (0x200 ≤ n && n ≤ 0x37F)

/-- System registers that `wrsr` may name: FPSTAT, TRAPVEC and TPC (R351, R356). -/
def isSysWritable (n : Nat) : Bool := n == 0x000 || n == 0x002 || n == 0x003

/-- The limits of `shfl` (R167). -/
def ShflOp.ok (o : ShflOp) : Bool :=
  o.g.ok && regOk false o.w o.d && srcOk false o.w o.a
  && (match o.mode, o.b with
      | .rev, .reg s => isUnused s
      | .rev, _ => false
      | .swz, .imm _ => true
      | _, .imm i => i.toNat < 256
      | _, .unif r => isUnif r
      | _, .reg _ => true)
  && (match o.cv with
      | none => true
      | some p => isPredDst p)

/-- The limits that do not depend on the rope, card by card. -/
def Instr.wf : Instr → Bool
  | .nop g | .exit g | .yield g | .rest g _ => g.ok
  | .bra g tgt rcv => g.ok && tgt.toNat % 4 == 0 && rcv.toNat % 4 == 0
  | .brc g tgt rcv => g.ok && tgt.toNat % 4 == 0 && rcv.toNat % 4 == 0 && rcv != 0
  | .brx g a rcv => g.ok && isEven a.r && rcv.toNat % 4 == 0
  | .call g d tgt => g.ok && isEven d && tgt.toNat % 4 == 0
  | .callx g d a => g.ok && isEven d && isEven a.r
  | .ret g a => g.ok && isEven a.r
  | .brk g n => g.ok && n != 0
  | .seed a => isUnif a
  | .mov u w c g d b =>
    if c then
      !u && !w && g.ok && isQuad d && (match b with
        | .reg s => isQuad s.r
        | _ => false)
    else guardOk u g && regOk u w d && bOk u w b
  | .movi u w g d _ => guardOk u g && regOk u w d
  | .movs u g d a => guardOk u g && regOk u (a == 0x05) d && isSpecial a && !(u && a == 0x00)
  | .movu u g d a b | .movl u g d a b => guardOk u g && regOk u false d && srcOk u false a && bOk u false b
  | .cvt o =>
    guardOk o.u o.g && o.dst.scalar && o.src.scalar && regOk o.u o.dst.wide o.d && srcOk o.u o.src.wide o.a
    && (!o.ftz || o.dst.flushable || o.src.flushable)
  | .cvtp o => o.ok
  | .cvtb g _ _ _ _ => g.ok
  | .rint o =>
    guardOk o.u o.g && o.fmt.rintable && roundOk o.rm && regOk o.u o.fmt.wide o.d && srcOk o.u o.fmt.wide o.a
    && (!o.ftz || o.fmt.flushable)
  | .iadd m _ | .isub m _ | .imul m _ | .imulh m | .idiv m | .irem m | .imin m | .imax m => m.okW
  | .iaddc m cie ci co _ =>
    m.okW && !m.s && co.toNat < 7 && (cie || ci == 0) && (!m.u || (ci.toNat < 4 && co.toNat < 4))
  | .imad m _ => m.ok m.w m.w m.w m.w
  | .imadw m _ => !m.w && m.ok true false false true
  | .iabs m _ | .ineg m _ | .not m | .brev m => m.ok m.w
  | .popc m | .clz m | .ctz m => m.ok false
  | .icmp m _ cmb cp =>
    guardOk m.u m.g && srcOk m.u m.w m.a && bOk m.u m.w m.b
    && (if m.u then isFlag m.d && cp.toNat < 4 else isPredDst m.d) && (cmb != .none || cp == 0)
  | .isel u w g d a b c =>
    guardOk u g && regOk u w d && srcOk u w a && cOk u w b && (if u then isFlag c else isPredSrc c)
  | .and m | .or m | .xor m => m.okW && !m.s
  | .bool3 m _ => !m.s && m.ok m.w m.w m.w m.w
  | .shl m | .shr m | .sra m => !m.s && m.ok m.w m.w false
  | .fsh m _ | .perm m => !m.s && !m.w && m.ok false false false false
  | .bfx m => m.ok m.w m.w false false
  | .bfi m => !m.s && m.ok m.w m.w m.w false
  | .pset u g d a b fa _ =>
    guardOk u g && (if u then isUnif d && isFlag a && isFlag b
      else isPredDst d && (if fa then isFlag a else isPredSrc a) && isPredSrc b)
  | .fadd m | .fsub m | .fmul m | .fdiv m => m.ok false
  | .fscale m => m.ok false && !m.nb && !m.ab
  | .fma m => m.ok false
  | .fmin m w | .fmax m w => m.ok w && m.rm == .rn
  | .fcmp o =>
    guardOk o.u o.g && srcOk o.u o.w o.a && bOk o.u o.w o.b
    && (if o.u then isFlag o.d && o.cp.toNat < 4 else isPredDst o.d) && (o.cmb != .none || o.cp == 0)
  | .fclass u _ w g d a _ => guardOk u g && srcOk u w a && (if u then isUnif d else isPredDst d)
  | .frcp m | .fsqrt m | .frsq m | .fex2 m | .flg2 m | .fsin m | .fcos m | .ftanh m => m.ok
  | .hadd2 m _ | .hmul2 m _ => !m.u && !m.ftz && m.ok false
  | .hmin2 m _ | .hmax2 m _ => !m.u && !m.ftz && m.ok false && m.rm == .rn
  | .hfma2 m _ => !m.u && !m.ftz && m.ok false
  | .dadd m | .dmul m => !m.u && m.ok true
  | .dfma m => !m.u && m.ok true
  | .vote g test fd _ k d a =>
    g.ok && (if fd then isFlag d else isPredDst d) && isPredSrc a && k.toNat ≤ 32
    && (match test with
        | .ge | .le => true
        | .maj | .agree => k == 0)
  | .ballot g mode _ d a =>
    g.ok && d.ok false && isPredSrc a && (match d with
      | .unif _ => mode != .rank
      | .lane _ => true)
  | .shfl o => o.ok
  | .red g op ty bar _ d a =>
    g.ok && op.takes ty && d.ok ty.wide && srcOk false ty.wide a && (match bar with
      | none => true
      | some b => barOk b.toNat)
  | .scan g op ty _ _ d a => g.ok && op.takes ty && regOk false ty.wide d && srcOk false ty.wide a
  | .matchLanes g w _ _ a => g.ok && srcOk false w a
  | .elect g mode su d =>
    g.ok && isPredDst d && optUnif su && (match mode with
      | .from a => isUnif a
      | _ => true)
  | .tmask g src d => g.ok && src.ok && isUnif d
  | .barinit bar count _ =>
    barOk bar.toNat && (match count with
      | .imm i => i.toNat ≤ 32
      | .unif r => isUnif r)
  | .barrive bar pd | .barwait bar pd => barOk bar.toNat && optUnif pd
  | .bartest bar form =>
    barOk bar.toNat && (match form with
      | .flag k a => isFlag k && isUnif a
      | .status d => isUnif d)
  | .cinit i target =>
    i.ok && (match target with
      | .imm t => t != 0
      | .unif r => isUnif r)
  | .carrive i n =>
    i.ok && (match n with
      | .imm _ => true
      | .unif r => isUnif r)
  | .cwait i gen => i.ok && gen.ok
  | .ctest k i gen => isFlag k && i.ok && gen.ok
  | .draw o => o.g.ok && drawDst o.d && (match o.l with
      | none => true
      | some c => cOk false false c)
  | .drawm o => o.g.ok && isEven o.d && isEven o.a.r && cOk false true o.b
  | .drawk form => (match form with
      | .set a b => isUnifPair a && isUnifPair b
      | .ctr b => isUnifPair b
      | .get d => isUnif d && isQuad d)
  | .drawt o => o.g.ok && drawDst o.d && optUnif o.l && barOk o.bar.toNat && isUnif o.area
  | .lds sz g d _ => g.ok && szData sz d
  | .sts sz g _ b => g.ok && szData sz b.r && sz.storable
  | .atms o =>
    o.g.ok && regOk false o.w o.d && srcOk false o.w o.b
    && (if o.op == .cas then srcOk false o.w o.c else isUnused o.c) && (o.op != .fadd || !o.w)
  | .smap o => o.g.ok && isQuad o.a.r && isEven o.b.r
  | .sunmap _ g _ | .sflush _ g _ => g.ok
  | .cbnd g d a b c => g.ok && isQuad d && isQuad a.r && isEven b.r && isEven c.r
  | .cperm g d a _ => g.ok && isQuad d && isQuad a.r
  | .cseal g d a b | .cunseal g d a b => g.ok && isQuad d && isQuad a.r && isQuad b.r
  | .cfield g _ _ a => g.ok && isQuad a.r
  | .ctag g _ d a => g.ok && isPredDst d && isQuad a.r
  | .cclr g d => g.ok && isQuad d
  | .revk g _ d a => g.ok && isEven d && isQuad a.r
  | .swpq g d => g.ok && d.ok true
  | .ld m sz d => m.ok && sz != .c && szData sz d
  | .st m sz c => m.ok && sz != .c && sz.storable && szData sz c.r
  | .ldc m d => m.ok && isQuad d
  | .stc m c => m.ok && isQuad c.r
  | .atom o => o.ok
  | .atomn o => o.ok && o.d == 0 && o.op != .exch && o.op != .cas
  | .ldmx m fmt d _ | .stmx m fmt d _ => m.ok && fmt.mx && isEven d
  | .pref m _ => m.ok
  | .fence scope => scope != .rope
  | .iinv m _ _ | .clwb m _ _ => m.ok
  | .isync => true
  | .gang n a => n != 1 && n != 7 && isUnif a && (n != 0 || a == 0)
  | .ldm _ a b => isRecord a && isQuad b.r
  | .mma o => o.ok && isBlock o.d
  | .mmas o ns => o.ok && isBlock o.d && ns != 0
  | .mmb _ _ d a b => isBlock d && isUnif a && isUnif b
  | .mmf o c stride =>
    o.ok && !o.z && !o.int && !o.sat && isUnifPair o.d && isQuad c.r && 32 ≤ stride.toNat
  | .accz _ nm1 d => isBlock d && d.toNat + 32 * (nm1.toNat + 1) ≤ 256
  | .accw o =>
    accwFmt o.int o.fmt && roundOk o.rm && isBlock o.d && isQuad o.a.r && isUnifPair o.b && isUnif o.c
  | .accq d => isUnif d
  | .cpy o => isRecord o.a && isQuad o.b.r && optUnif o.jd
  | .cpyc o => isQuad o.a.r && optUnif o.jd
  | .cpyh o => isQuad o.d && isUnifPair o.b && isUnif o.c && (match o.a with
      | none => true
      | some a => isQuad a.r)
  | .snap o => isQuad o.d && isQuad o.a.r
  | .cring form => (match form with
      | .off => true
      | .bind a _ => isQuad a.r)
  | .rcard form d => isUnif d && (match form with
      | .off => true
      | .install a b => isQuad a.r && isUnifPair b)
  | .wpt n => (match n with
      | .imm _ => true
      | .unif r => isUnif r)
  | .resq m _ => m.ok && !m.ef
  | .rpin _ m _ _ => m.ok && !m.ef
  | .spawn o => o.g.ok && isUnif o.d && isQuad o.a.r && isQuad o.b.r && isUnif o.c && isQuad o.c
  | .joinc o => o.g.ok && isQuad o.a.r
  | .qpush o => o.g.ok && isUnif o.d && isUnif o.a && isUnifPair o.b && (match o.c with
      | none => true
      | some c => isQuad c.r)
  | .gcond _ _ d a => isFlag d && isUnif a
  | .trap g _ | .bkpt g _ => g.ok
  | .tret _ => true
  | .rdsr srn d => isSysReg srn.toNat && d.ok true
  | .wrsr srn a => isSysWritable srn.toNat && (match a with
      | .lane s => isEven s.r
      | .unif r => isUnifPair r)
  | .delg g d a b => g.ok && isUnif d && isQuad a.r && isUnif b
  | .coll o => isUnif o.d && isUnif o.a && isQuad o.b && o.b.toNat + 4 * (o.nm1.toNat + 1) ≤ 256
      && isUnif o.c && isQuad o.c && o.nm1.toNat < 8
  -- events: the numbers that they name exist
  | .retiredOpcodeEmulation bytes => decide (4 < bytes)
  | .blockSkipWord | .cairnArrival _ _ | .pageRefill _ _ | .stashLineFill _ _ | .stashForeignAccess _ _ _
  | .partyPlacement | .resourceRelease _ | .partySave _ | .tierFetch | .pageResident _ _ | .eviction _ | .pageLost _
  | .pageRequestResponse _ _ | .atsInvalidateRequest _ _ | .sweepPassStart | .sweepVisit _ | .sweepPassComplete
  | .copyJobComplete _ | .ldmJobComplete _ | .ringPost | .ringSlotWaitEnd _ | .ringCtimeExpiry _
  | .readPhaseComplete _ | .nearCacheAdd _ | .snapshotCut | .snapshotCopyComplete | .queueDoorbell _ _ _
  | .registerWrite _ _ | .queueSlotMapping | .launchComplete _ | .graphNodeComplete _ _ | .waitextPoll _ _ _
  | .queueSet | .queueFree | .bucketSet | .colourNew | .colourRetire | .grant | .ungrant | .admitSet | .regionSet
  | .routeSet | .keysSet | .fwActivate | .attest | .counters | .portStatus | .spareThreshold | .handleFree
  | .pinquotaSet | .replayStart | .chunkArrival _ | .lateContribution _ | .replayComplete _ | .unreachableTimeout _
  | .peerReply _ _ _ | .delgAnswer _ _ _ | .invocationReport _ _ _ | .invocationReportTimeout _ | .poolSnoop _
  | .poolHostFailure _ | .uncorrectableError _ | .mailboxRequestExecution | .leaseRenewal | .leaseExpiry
  | .arbiterGrant | .tableEccError _ | .safePoint | .safePointTimeout | .packageReset | .mbdbWrite _ _
  | .writePermissionUpgrade _ _ | .poolModuleLoss _ _ | .copyOnWritePageCopied _ => true
  | .waitCounterBoost _ rope pos | .restEnd _ rope pos | .barrierRecordWaitEnd _ rope pos
  | .jobCardWaitEnd _ rope pos | .revocationMapRoom _ rope pos | .recordSlotFree _ _ rope pos
    => decide (rope < 32) && decide (pos < 256)
  | .parkLimitExpiry _ rope | .gangJoin _ rope => decide (rope < 32)
  | .partyRestore _ core | .accumulatePhaseComplete core => decide (core < 208)
  | .copyJobDispatch die | .dieFence die | .dieBroughtBack die => decide (die < 4)
  | .bucketSettlement b => decide (b < 4096)
  | .watchdogExpiry q | .drainComplete q | .load q | .launch q | .graphload q | .graph q | .unload q | .cmdblk q
  | .fwin q | .signal q | .wait q | .copy q | .collectiveLoad q | .collectiveReplay q | .collectiveUnload q
  | .codeSync q => decide (q < 65536)
  | .fetch _ op | .send _ op | .recv _ op | .reduce _ op | .merge _ op | .deliver _ op | .chunkResend _ op
  | .chunkAcknowledgement _ op _ => decide (op < 4096)
  | .flitCrcFailure port _ | .retrainComplete port _ | .portDownReroute port => decide (port < 16)
  | .laneFailure port lane => decide (port < 16) && decide (lane < 10)
  | .peerAccess dev _ _ _ _ | .handleIn dev _ _ _ | .handleInvocation dev _ _ _ => decide (dev < 128)
  | .firmwareEccError core | .imageReloadComplete core => decide (core < 5)
  | .islandClockChange island _ => decide (island < 1024)
  | .correctedError die counter _ _ => decide (die < 5) && decide (counter < 3)
  | .poolPortDown port => decide (port < 4)

/-- Whether an instruction has words: rope instructions have, commands, requests and events have none. -/
def Instr.coded : Instr → Bool
  | .retiredOpcodeEmulation _ | .blockSkipWord | .waitCounterBoost _ _ _ | .restEnd _ _ _ | .cairnArrival _ _
  | .pageRefill _ _ | .stashLineFill _ _ | .stashForeignAccess _ _ _ | .partyPlacement | .resourceRelease _
  | .parkLimitExpiry _ _ | .partySave _ | .partyRestore _ _ | .barrierRecordWaitEnd _ _ _ | .jobCardWaitEnd _ _ _
  | .revocationMapRoom _ _ _ | .recordSlotFree _ _ _ _ | .tierFetch | .pageResident _ _ | .eviction _ | .pageLost _
  | .pageRequestResponse _ _ | .atsInvalidateRequest _ _ | .sweepPassStart | .sweepVisit _ | .sweepPassComplete
  | .copyJobDispatch _ | .copyJobComplete _ | .ldmJobComplete _ | .ringPost | .ringSlotWaitEnd _ | .ringCtimeExpiry _
  | .gangJoin _ _ | .readPhaseComplete _ | .accumulatePhaseComplete _ | .nearCacheAdd _ | .snapshotCut
  | .snapshotCopyComplete | .queueDoorbell _ _ _ | .registerWrite _ _ | .queueSlotMapping | .bucketSettlement _
  | .watchdogExpiry _ | .drainComplete _ | .launchComplete _ | .graphNodeComplete _ _ | .waitextPoll _ _ _ | .load _
  | .launch _ | .graphload _ | .graph _ | .unload _ | .cmdblk _ | .fwin _ | .signal _ | .wait _ | .copy _
  | .collectiveLoad _ | .collectiveReplay _ | .collectiveUnload _ | .codeSync _ | .queueSet | .queueFree | .bucketSet
  | .colourNew | .colourRetire | .grant | .ungrant | .admitSet | .regionSet | .routeSet | .keysSet | .fwActivate
  | .attest | .counters | .portStatus | .spareThreshold | .handleFree | .pinquotaSet | .replayStart | .fetch _ _
  | .send _ _ | .recv _ _ | .reduce _ _ | .merge _ _ | .deliver _ _ | .chunkArrival _ | .chunkResend _ _
  | .lateContribution _ | .replayComplete _ | .flitCrcFailure _ _ | .laneFailure _ _ | .retrainComplete _ _
  | .portDownReroute _ | .unreachableTimeout _ | .peerAccess _ _ _ _ _ | .peerReply _ _ _ | .handleIn _ _ _ _
  | .delgAnswer _ _ _ | .handleInvocation _ _ _ _ | .invocationReport _ _ _ | .invocationReportTimeout _
  | .poolSnoop _ | .poolHostFailure _ | .uncorrectableError _ | .mailboxRequestExecution | .leaseRenewal
  | .leaseExpiry | .arbiterGrant | .firmwareEccError _ | .imageReloadComplete _ | .tableEccError _ | .dieFence _
  | .safePoint | .safePointTimeout | .islandClockChange _ _ | .packageReset | .correctedError _ _ _ _
  | .mbdbWrite _ _ | .writePermissionUpgrade _ _ | .chunkAcknowledgement _ _ _ | .poolModuleLoss _ _
  | .poolPortDown _ | .dieBroughtBack _ | .copyOnWritePageCopied _ => false
  | _ => true

end Sys2Proof
end

