-- ==== Sys2Proof/Decode.lean ====
section
/-!
DEFINITION. Decoding (R25 to R37) and encoding. The bits of an instruction are cut into the fields of R25 and R26; a major's
parser reads the fields its card names; the word is legal when the parsed instruction is well formed and its encoding gives
the same fields again, so that every field the card does not use, and every reserved value, is refused (R33 step 4).
-/
namespace Sys2Proof

/-! ### Fields -/

/-- The fields of R25 and R26; MOD is bits [63:42], EXT bits [95:74], IMM bits [127:96]. -/
structure Raw where
  len : Nat
  opc : Nat
  grd : Nat
  d : Nat
  a : Nat
  b : Nat
  ah : Nat
  bh : Nat
  mod : Nat
  c : Nat
  ch : Nat
  ext : Nat
  imm : Nat
deriving DecidableEq, Repr

/-- Bytes that LEN gives (R25). -/
def lenBytes (len : Nat) : Nat := if len = 1 then 8 else if len = 2 then 12 else if len = 3 then 16 else 4

/-- Cuts a number of up to 128 bits into its fields; bits past the length LEN gives are not read. -/
def Raw.ofBits (w : Nat) : Raw :=
  let len := fieldOf w 0 2
  let ext := decide (2 ≤ len)
  { len := len, opc := fieldOf w 2 8, grd := fieldOf w 10 4, d := fieldOf w 14 8, a := fieldOf w 22 8,
    b := fieldOf w 30 8, ah := fieldOf w 38 2, bh := fieldOf w 40 2, mod := fieldOf w 42 22,
    c := if ext then fieldOf w 64 8 else 0, ch := if ext then fieldOf w 72 2 else 0,
    ext := if ext then fieldOf w 74 22 else 0, imm := if len = 3 then fieldOf w 96 32 else 0 }

/-- The number whose fields these are. -/
def Raw.bits (r : Raw) : Nat :=
  r.len + r.opc * 2 ^ 2 + r.grd * 2 ^ 10 + r.d * 2 ^ 14 + r.a * 2 ^ 22 + r.b * 2 ^ 30 + r.ah * 2 ^ 38
    + r.bh * 2 ^ 40 + r.mod * 2 ^ 42 + r.c * 2 ^ 64 + r.ch * 2 ^ 72 + r.ext * 2 ^ 74 + r.imm * 2 ^ 96

/-- A field of MOD, by its lowest bit in the head. -/
def Raw.mf (r : Raw) (lo n : Nat) : Nat := fieldOf r.mod (lo - 42) n

/-- A bit of MOD, by its place in the head. -/
def Raw.mb (r : Raw) (lo : Nat) : Bool := bitOf r.mod (lo - 42)

/-- A field of EXT, by its lowest bit in the instruction. -/
def Raw.ef (r : Raw) (lo n : Nat) : Nat := fieldOf r.ext (lo - 74) n

/-- A bit of EXT, by its place in the instruction. -/
def Raw.eb (r : Raw) (lo : Nat) : Bool := bitOf r.ext (lo - 74)

/-- A field of bits [127:96], by its lowest bit in the instruction. -/
def Raw.xf (r : Raw) (lo n : Nat) : Nat := fieldOf r.imm (lo - 96) n

/-- A bit of bits [127:96]. -/
def Raw.xb (r : Raw) (lo : Nat) : Bool := bitOf r.imm (lo - 96)

/-- A bit as a number. -/
def nb (b : Bool) : Nat := if b then 1 else 0

/-- A MOD field in its place. -/
def atM (lo v : Nat) : Nat := v * 2 ^ (lo - 42)

/-- An EXT field in its place. -/
def atE (lo v : Nat) : Nat := v * 2 ^ (lo - 74)

/-- A field of bits [127:96] in its place. -/
def atX (lo v : Nat) : Nat := v * 2 ^ (lo - 96)

/-! ### Codes of the small fields -/

/-- GRD (R14). -/
def Guard.code (g : Guard) : Nat := g.p.toNat + 8 * nb g.neg

/-- Reads GRD. -/
def guardOf (n : Nat) : Guard := ⟨bitOf n 3, BitVec.ofNat 3 n⟩

/-- Hint bits (R15). -/
def Hint.code : Hint → Nat
  | .none => 0
  | .last => 1
  | .keep => 2

/-- Reads hint bits. -/
def hintOf : Nat → Hint
  | 1 => .last
  | 2 => .keep
  | _ => .none

/-- RM (R60). -/
def Round.code : Round → Nat
  | .rn => 0
  | .rz => 1
  | .rp => 2
  | .rm => 3
  | .rna => 4

/-- Reads RM. -/
def roundOf : Nat → Round
  | 1 => .rz
  | 2 => .rp
  | 3 => .rm
  | 4 => .rna
  | _ => .rn

/-- Format codes (R19). -/
def Elem.code : Elem → Nat
  | .i8 => 0x01 | .i16 => 0x02 | .i32 => 0x03 | .i64 => 0x04
  | .n8 => 0x05 | .n16 => 0x06 | .n32 => 0x07 | .n64 => 0x08
  | .b32 => 0x09 | .b64 => 0x0A
  | .f16 => 0x10 | .bf16 => 0x11 | .f32 => 0x12 | .f64 => 0x13
  | .e4m3 => 0x20 | .e5m2 => 0x21 | .e3m2 => 0x22 | .e2m3 => 0x23 | .e2m1 => 0x24
  | .nq4 => 0x28 | .plane => 0x30

/-- Reads a format code; none for a reserved one. -/
def elemOf : Nat → Option Elem
  | 0x01 => some .i8 | 0x02 => some .i16 | 0x03 => some .i32 | 0x04 => some .i64
  | 0x05 => some .n8 | 0x06 => some .n16 | 0x07 => some .n32 | 0x08 => some .n64
  | 0x09 => some .b32 | 0x0A => some .b64
  | 0x10 => some .f16 | 0x11 => some .bf16 | 0x12 => some .f32 | 0x13 => some .f64
  | 0x20 => some .e4m3 | 0x21 => some .e5m2 | 0x22 => some .e3m2 | 0x23 => some .e2m3 | 0x24 => some .e2m1
  | 0x28 => some .nq4 | 0x30 => some .plane
  | _ => none

/-- COND of `icmp` (R123). -/
def ICond.code : ICond → Nat
  | .eq => 0 | .ne => 1 | .lt => 2 | .le => 3 | .gt => 4 | .ge => 5

/-- Reads COND of `icmp`. -/
def icondOf : Nat → ICond
  | 1 => .ne | 2 => .lt | 3 => .le | 4 => .gt | 5 => .ge | _ => .eq

/-- COND of `fcmp` (R129). -/
def FCond.code : FCond → Nat
  | .eq => 0 | .ne => 1 | .lt => 2 | .le => 3 | .gt => 4 | .ge => 5 | .num => 6 | .nan => 7

/-- Reads COND of `fcmp`. -/
def fcondOf : Nat → FCond
  | 1 => .ne | 2 => .lt | 3 => .le | 4 => .gt | 5 => .ge | 6 => .num | 7 => .nan | _ => .eq

/-- CMB (R123). -/
def Combine.code : Combine → Nat
  | .none => 0 | .and => 1 | .or => 2

/-- Reads CMB. -/
def combineOf : Nat → Combine
  | 1 => .and | 2 => .or | _ => .none

/-- TEST (R165). -/
def VoteTest.code : VoteTest → Nat
  | .ge => 0 | .le => 1 | .maj => 2 | .agree => 3

/-- Reads TEST. -/
def voteOf : Nat → VoteTest
  | 1 => .le | 2 => .maj | 3 => .agree | _ => .ge

/-- MODE of `ballot` (R166). -/
def BallotMode.code : BallotMode → Nat
  | .mask => 0 | .count => 1 | .rank => 2

/-- Reads MODE of `ballot`. -/
def ballotOf : Nat → BallotMode
  | 1 => .count | 2 => .rank | _ => .mask

/-- MODE of `shfl` (R167). -/
def ShflMode.code : ShflMode → Nat
  | .from => 0 | .rot => 1 | .rev => 2 | .swz => 3

/-- Reads MODE of `shfl`. -/
def shflOf : Nat → ShflMode
  | 1 => .rot | 2 => .rev | 3 => .swz | _ => .from

/-- SEG (R167). -/
def Seg.code : Seg → Nat
  | .w32 => 0 | .w16 => 1 | .w8 => 2 | .w4 => 3 | .w2 => 4

/-- Reads SEG. -/
def segOf : Nat → Seg
  | 1 => .w16 | 2 => .w8 | 3 => .w4 | 4 => .w2 | _ => .w32

/-- OP of `red` (R168). -/
def RedOp.code : RedOp → Nat
  | .add => 0 | .min => 1 | .max => 2 | .and => 3 | .or => 4 | .xor => 5

/-- Reads OP of `red`. -/
def redOpOf : Nat → RedOp
  | 1 => .min | 2 => .max | 3 => .and | 4 => .or | 5 => .xor | _ => .add

/-- TY of `red` (R168). -/
def RedTy.code : RedTy → Nat
  | .i32 => 0 | .n32 => 1 | .f32 => 2 | .i64 => 3 | .n64 => 4 | .f64 => 5 | .b32 => 6 | .b64 => 7

/-- Reads TY of `red`. -/
def redTyOf : Nat → RedTy
  | 1 => .n32 | 2 => .f32 | 3 => .i64 | 4 => .n64 | 5 => .f64 | 6 => .b32 | 7 => .b64 | _ => .i32

/-- MODE of `match` (R170). -/
def MatchMode.code : MatchMode → Nat
  | .grp => 0 | .lead => 1 | .cnt => 2

/-- Reads MODE of `match`. -/
def matchOf : Nat → MatchMode
  | 1 => .lead | 2 => .cnt | _ => .grp

/-- MODE of `drawm` (R189). -/
def DrawMode.code : DrawMode → Nat
  | .w => 0 | .l => 1 | .mx => 2

/-- Reads MODE of `drawm`. -/
def drawModeOf : Nat → DrawMode
  | 1 => .l | 2 => .mx | _ => .w

/-- SZ (R143, R226). -/
def Sz.code : Sz → Nat
  | .n8 => 0 | .i8 => 1 | .n16 => 2 | .i16 => 3 | .b32 => 4 | .b64 => 5 | .b128 => 6 | .c => 7

/-- Reads SZ. -/
def szOf : Nat → Sz
  | 1 => .i8 | 2 => .n16 | 3 => .i16 | 4 => .b32 | 5 => .b64 | 6 => .b128 | 7 => .c | _ => .n8

/-- OP of the atomics (R144). -/
def AtomOp.code : AtomOp → Nat
  | .add => 0 | .minI => 1 | .minN => 2 | .maxI => 3 | .maxN => 4 | .and => 5 | .or => 6 | .xor => 7
  | .exch => 8 | .cas => 9 | .fadd => 10

/-- Reads OP of the atomics. -/
def atomOpOf : Nat → AtomOp
  | 1 => .minI | 2 => .minN | 3 => .maxI | 4 => .maxN | 5 => .and | 6 => .or | 7 => .xor
  | 8 => .exch | 9 => .cas | 10 => .fadd | _ => .add

/-- ORD (R144, R230). -/
def MemOrd.code : MemOrd → Nat
  | .relaxed => 0 | .acq => 1 | .rel => 2 | .ar => 3

/-- Reads ORD. -/
def memOrdOf : Nat → MemOrd
  | 1 => .acq | 2 => .rel | 3 => .ar | _ => .relaxed

/-- SCOPE (R230). -/
def Scope.code : Scope → Nat
  | .rope => 0 | .team => 1 | .party => 2 | .die => 3 | .pkg => 4 | .sys => 5

/-- Reads SCOPE. -/
def scopeOf : Nat → Scope
  | 1 => .team | 2 => .party | 3 => .die | 4 => .pkg | 5 => .sys | _ => .rope

/-- F of `cfield` (R213). -/
def CField.code : CField → Nat
  | .base => 0 | .baseh => 1 | .len => 2 | .lenh => 3 | .perm => 4 | .colour => 5 | .otype => 6

/-- Reads F of `cfield`. -/
def cfieldOf : Nat → CField
  | 1 => .baseh | 2 => .len | 3 => .lenh | 4 => .perm | 5 => .colour | 6 => .otype | _ => .base

/-- OP of `rpin` (R296). -/
def RpinOp.code : RpinOp → Nat
  | .pin => 0 | .unpin => 1 | .try => 2

/-- Reads OP of `rpin`. -/
def rpinOf : Nat → RpinOp
  | 1 => .unpin | 2 => .try | _ => .pin

/-- OP of `tret` (R355). -/
def TretOp.code : TretOp → Nat
  | .retry => 0 | .skip => 1 | .endParty => 2

/-- Reads OP of `tret`. -/
def tretOf : Nat → TretOp
  | 1 => .skip | 2 => .endParty | _ => .retry

/-! ### Building and reading the common fields -/

/-- An instruction of a length and major under a guard, with MOD. -/
def Raw.mk0 (len opc : Nat) (g : Guard) (mod : Nat) : Raw :=
  ⟨len, opc, g.code, 0, 0, 0, 0, 0, mod, 0, 0, 0, 0⟩

/-- Sets D. -/
def Raw.setD (r : Raw) (d : BitVec 8) : Raw := { r with d := d.toNat }

/-- Sets A without a hint. -/
def Raw.setA (r : Raw) (a : BitVec 8) : Raw := { r with a := a.toNat }

/-- Sets B without a hint. -/
def Raw.setB (r : Raw) (b : BitVec 8) : Raw := { r with b := b.toNat }

/-- Sets C without a hint. -/
def Raw.setC (r : Raw) (c : BitVec 8) : Raw := { r with c := c.toNat }

/-- Sets A with its hint. -/
def Raw.srcA (r : Raw) (s : RSrc) : Raw := { r with a := s.r.toNat, ah := s.h.code }

/-- Sets B with its hint. -/
def Raw.srcB (r : Raw) (s : RSrc) : Raw := { r with b := s.r.toNat, bh := s.h.code }

/-- Sets C with its hint. -/
def Raw.srcC (r : Raw) (s : RSrc) : Raw := { r with c := s.r.toNat, ch := s.h.code }

/-- Adds to MOD. -/
def Raw.addM (r : Raw) (m : Nat) : Raw := { r with mod := r.mod + m }

/-- Adds to EXT. -/
def Raw.addE (r : Raw) (e : Nat) : Raw := { r with ext := r.ext + e }

/-- Sets bits [127:96]. -/
def Raw.setX (r : Raw) (x : Nat) : Raw := { r with imm := x }

/-- Sets the B source of a 64-bit mould: I at [62], SB at [61], the high byte of the immediate at [49:42]. -/
def Raw.bsrc (r : Raw) : BSrc → Raw
  | .reg s => r.srcB s
  | .unif u => (r.setB u).addM (atM 61 1)
  | .imm i => (r.addM (atM 62 1 + atM 42 (i.toNat / 256))).setB (BitVec.ofNat 8 i.toNat)

/-- Sets the B source of a 96-bit mould: SB at [61]. -/
def Raw.b96 (r : Raw) : CSrc → Raw
  | .reg s => r.srcB s
  | .unif u => (r.setB u).addM (atM 61 1)

/-- Sets the C source of a 96-bit mould: SC at [95]. -/
def Raw.c96 (r : Raw) : CSrc → Raw
  | .reg s => r.srcC s
  | .unif u => (r.setC u).addE (atE 95 1)

/-- The guard. -/
def Raw.g (r : Raw) : Guard := guardOf r.grd
/-- D. -/
def Raw.D (r : Raw) : BitVec 8 := BitVec.ofNat 8 r.d
/-- A. -/
def Raw.A (r : Raw) : BitVec 8 := BitVec.ofNat 8 r.a
/-- B. -/
def Raw.B (r : Raw) : BitVec 8 := BitVec.ofNat 8 r.b
/-- C. -/
def Raw.C (r : Raw) : BitVec 8 := BitVec.ofNat 8 r.c
/-- A with its hint. -/
def Raw.As (r : Raw) : RSrc := ⟨r.A, hintOf r.ah⟩
/-- B with its hint. -/
def Raw.Bs (r : Raw) : RSrc := ⟨r.B, hintOf r.bh⟩
/-- C with its hint. -/
def Raw.Cs (r : Raw) : RSrc := ⟨r.C, hintOf r.ch⟩
/-- U, bit [63]. -/
def Raw.u (r : Raw) : Bool := r.mb 63

/-- Reads the B source of a 64-bit mould. -/
def Raw.getB (r : Raw) : BSrc :=
  if r.mb 62 then .imm (BitVec.ofNat 16 (r.b + 256 * r.mf 42 8))
  else if r.mb 61 then .unif r.B else .reg r.Bs

/-- Reads the B source of a 96-bit mould. -/
def Raw.getB96 (r : Raw) : CSrc := if r.mb 61 then .unif r.B else .reg r.Bs

/-- Reads the C source of a 96-bit mould. -/
def Raw.getC96 (r : Raw) : CSrc := if r.eb 95 then .unif r.C else .reg r.Cs

/-! ### Moulds -/

/-- Encodes the integer mould of R106; `opf` is OPF in place. -/
def encInt (opc : Nat) (m : IntOp) (opf : Nat) : Raw :=
  (((Raw.mk0 1 opc m.g (atM 63 (nb m.u) + atM 60 (nb m.w) + atM 59 (nb m.s) + opf)).setD m.d).srcA m.a).bsrc m.b

/-- Reads the integer mould. -/
def Raw.int (r : Raw) : IntOp := ⟨r.u, r.mb 60, r.mb 59, r.g, r.D, r.As, r.getB⟩

/-- Encodes the unary integer mould. -/
def encIntUn (opc : Nat) (m : IntUn) (opf : Nat) : Raw :=
  ((Raw.mk0 1 opc m.g (atM 63 (nb m.u) + atM 60 (nb m.w) + opf)).setD m.d).srcA m.a

/-- Reads the unary integer mould. -/
def Raw.intUn (r : Raw) : IntUn := ⟨r.u, r.mb 60, r.g, r.D, r.As⟩

/-- Encodes the 96-bit integer mould. -/
def encIntTri (opc : Nat) (m : IntTri) (opf : Nat) : Raw :=
  ((((Raw.mk0 2 opc m.g (atM 63 (nb m.u) + atM 60 (nb m.w) + atM 59 (nb m.s) + opf)).setD m.d).srcA m.a).b96 m.b).c96 m.c

/-- Reads the 96-bit integer mould. -/
def Raw.intTri (r : Raw) : IntTri := ⟨r.u, r.mb 60, r.mb 59, r.g, r.D, r.As, r.getB96, r.getC96⟩

/-- Encodes the floating mould of R106; `x` is W or BF. -/
def encFlt (opc : Nat) (m : FltOp) (x : Bool) : Raw :=
  (((Raw.mk0 1 opc m.g (atM 63 (nb m.u) + atM 58 m.rm.code + atM 57 (nb m.ftz) + atM 56 (nb x)
    + atM 55 (nb m.na) + atM 54 (nb m.nb) + atM 53 (nb m.aa) + atM 52 (nb m.ab))).setD m.d).srcA m.a).bsrc m.b

/-- Reads the floating mould. -/
def Raw.flt (r : Raw) : FltOp :=
  ⟨r.u, roundOf (r.mf 58 3), r.mb 57, r.mb 55, r.mb 54, r.mb 53, r.mb 52, r.g, r.D, r.As, r.getB⟩

/-- Encodes the unary floating mould. -/
def encFltUn (opc : Nat) (m : FltUn) : Raw :=
  ((Raw.mk0 1 opc m.g (atM 63 (nb m.u) + atM 58 m.rm.code + atM 57 (nb m.ftz) + atM 55 (nb m.na)
    + atM 53 (nb m.aa))).setD m.d).srcA m.a

/-- Reads the unary floating mould. -/
def Raw.fltUn (r : Raw) : FltUn := ⟨r.u, roundOf (r.mf 58 3), r.mb 57, r.mb 55, r.mb 53, r.g, r.D, r.As⟩

/-- Encodes the 96-bit floating mould. -/
def encFltTri (opc : Nat) (m : FltTri) (x : Bool) : Raw :=
  (((((Raw.mk0 2 opc m.g (atM 63 (nb m.u) + atM 58 m.rm.code + atM 57 (nb m.ftz) + atM 56 (nb x)
    + atM 55 (nb m.na) + atM 54 (nb m.nb) + atM 53 (nb m.aa) + atM 52 (nb m.ab))).setD m.d).srcA m.a).b96
      m.b).c96 m.c).addE (atE 94 (nb m.nc) + atE 93 (nb m.ac))

/-- Reads the 96-bit floating mould. -/
def Raw.fltTri (r : Raw) : FltTri :=
  ⟨r.u, roundOf (r.mf 58 3), r.mb 57, r.mb 55, r.mb 54, r.eb 94, r.mb 53, r.mb 52, r.eb 93, r.g, r.D, r.As,
    r.getB96, r.getC96⟩

/-- Encodes the span mould of R223; `sz` is SZ, `card` the card field in place. -/
def encSpan (opc : Nat) (m : SpanOp) (sz card : Nat) : Raw :=
  let r := ((Raw.mk0 2 opc m.g (atM 60 sz + atM 56 (nb m.ef) + card)).srcA m.a).addE m.imm.toNat
  match m.off with
  | .none => r.addM (atM 59 1)
  | .reg s => r.srcB s
  | .pair s => (r.srcB s).addM (atM 58 1)

/-- Reads the span mould. -/
def Raw.span (r : Raw) : SpanOp :=
  ⟨r.g, r.As, if r.mb 59 then .none else if r.mb 58 then .pair r.Bs else .reg r.Bs, BitVec.ofNat 22 r.ext, r.mb 56⟩

/-- Encodes the gang mould of R255. -/
def encGang (opc : Nat) (o : GangOp) : Raw :=
  (((Raw.mk0 3 opc Guard.always (atM 62 (nb o.z) + atM 58 o.pam1.toNat + atM 54 o.pbm1.toNat
    + atM 50 o.sam1.toNat + atM 46 o.sbm1.toNat + atM 45 (nb o.int) + atM 44 (nb o.sat))).setD o.d).setA o.a).setB o.b

/-- Reads the gang mould. -/
def Raw.gang (r : Raw) : GangOp :=
  ⟨r.mb 62, BitVec.ofNat 4 (r.mf 58 4), BitVec.ofNat 4 (r.mf 54 4), BitVec.ofNat 4 (r.mf 50 4),
    BitVec.ofNat 4 (r.mf 46 4), r.mb 45, r.mb 44, r.D, r.A, r.B⟩

/-- Encodes the scratch mould of R143: NOA at [59], IMM14 at [55:42]. -/
def encScr (opc : Nat) (g : Guard) (sz : Nat) (off : ScrOff) : Raw :=
  let r := Raw.mk0 1 opc g (atM 60 sz + off.imm.toNat)
  match off.a with
  | none => r.addM (atM 59 1)
  | some s => r.srcA s

/-- Reads the scratch operand of R143. -/
def Raw.scr (r : Raw) : ScrOff := ⟨if r.mb 59 then none else some r.As, BitVec.ofNat 14 (r.mf 42 14)⟩

/-- Encodes a destination with its UD bit at `lo`. -/
def Raw.dst (r : Raw) (lo : Nat) : Dst → Raw
  | .lane d => r.setD d
  | .unif d => (r.setD d).addM (atM lo 1)

/-- Reads a destination with its UD bit at `lo`. -/
def Raw.getDst (r : Raw) (lo : Nat) : Dst := if r.mb lo then .unif r.D else .lane r.D

/-- Encodes an optional flag: KE at `lo + 2`, K at `lo`. -/
def encK (lo : Nat) : Option (BitVec 2) → Nat
  | none => 0
  | some k => atM (lo + 2) 1 + atM lo k.toNat

/-- Reads an optional flag. -/
def Raw.getK (r : Raw) (lo : Nat) : Option (BitVec 2) :=
  if r.mb (lo + 2) then some (BitVec.ofNat 2 (r.mf lo 2)) else none

/-- Encodes an optional cairn index: NC at `nc`, CIDX at `lo`. -/
def encCairn (nc lo : Nat) : Option (BitVec 8) → Nat
  | none => atM nc 1
  | some i => atM lo i.toNat

/-- Reads an optional cairn index. -/
def Raw.getCairn (r : Raw) (nc lo : Nat) : Option (BitVec 8) :=
  if r.mb nc then none else some (BitVec.ofNat 8 (r.mf lo 8))

/-- Encodes an optional D with its bit at `lo`. -/
def Raw.optD (r : Raw) (lo : Nat) : Option (BitVec 8) → Raw
  | none => r
  | some d => (r.setD d).addM (atM lo 1)

/-- Reads an optional D. -/
def Raw.getOptD (r : Raw) (lo : Nat) : Option (BitVec 8) := if r.mb lo then some r.D else none

/-- Encodes an index: its uniform bit at `sa` and the uniform in A, or the immediate at `lo`. -/
def Raw.isrcA (r : Raw) (sa lo : Nat) : ISrc → Raw
  | .imm i => r.addM (atM lo i.toNat)
  | .unif u => (r.setA u).addM (atM sa 1)

/-- Reads an index. -/
def Raw.getIsrcA (r : Raw) (sa lo : Nat) : ISrc := if r.mb sa then .unif r.A else .imm (BitVec.ofNat 8 (r.mf lo 8))

/-- Encodes a generation operand (R179): SG at [53] and the uniform in B, or GIMM at [52:45]. -/
def Raw.gsrc (r : Raw) : ISrc → Raw
  | .imm i => r.addM (atM 45 i.toNat)
  | .unif u => (r.setB u).addM (atM 53 1)

/-- Reads a generation operand. -/
def Raw.getG (r : Raw) : ISrc := if r.mb 53 then .unif r.B else .imm (BitVec.ofNat 8 (r.mf 45 8))

/-! ### Encoding -/

/-- The field of an optional operand. -/
def Raw.optB (r : Raw) (lo : Nat) : Option RSrc → Raw
  | none => r
  | some s => (r.srcB s).addM (atM lo 1)

/-- Encodes the atomic mould of R230. -/
def encAtom (opc : Nat) (o : AtomOpnd) : Raw :=
  let r := ((((Raw.mk0 3 opc o.g (atM 62 (nb o.w) + atM 56 o.op.code + atM 54 o.ord.code + atM 51 o.scope.code)).setD
    o.d).srcA o.a).srcC o.c).setX (atX 104 o.imm.toNat + o.e.r.toNat)
  let r := r.addE o.e.h.code
  match o.off with
  | .none => r.addM (atM 61 1)
  | .reg s => r.srcB s
  | .pair s => (r.srcB s).addM (atM 60 1)

/-- The fields of a rope instruction; commands, requests and events have no words, and LEN 0 here. -/
def encodeRaw : Instr → Raw
  | .nop g => Raw.mk0 1 0x01 g 0
  | .bra g tgt rcv => ((Raw.mk0 3 0x02 g 0).addE rcv.toNat).setX tgt.toNat
  | .brc g tgt rcv => ((Raw.mk0 3 0x03 g 0).addE rcv.toNat).setX tgt.toNat
  | .brx g a rcv => ((Raw.mk0 2 0x04 g 0).srcA a).addE rcv.toNat
  | .call g d tgt => ((Raw.mk0 3 0x05 g 0).setD d).setX tgt.toNat
  | .callx g d a => ((Raw.mk0 2 0x06 g 0).setD d).srcA a
  | .ret g a => (Raw.mk0 1 0x07 g 0).srcA a
  | .brk g n => Raw.mk0 1 0x08 g (atM 42 n.toNat)
  | .exit g => Raw.mk0 1 0x09 g 0
  | .yield g => Raw.mk0 1 0x0A g 0
  | .rest g n => Raw.mk0 1 0x0B g (atM 42 n.toNat)
  | .seed a => (Raw.mk0 1 0x0C Guard.always 0).setA a
  | .mov u w c g d b => ((Raw.mk0 1 0x14 g (atM 63 (nb u) + atM 60 (nb w) + atM 58 (nb c))).setD d).bsrc b
  | .movi u w g d imm => ((Raw.mk0 3 0x15 g (atM 63 (nb u) + atM 60 (nb w))).setD d).setX imm.toNat
  | .movs u g d a => ((Raw.mk0 1 0x16 g (atM 63 (nb u))).setD d).setA a
  | .movu u g d a b => (((Raw.mk0 1 0x17 g (atM 63 (nb u))).setD d).srcA a).bsrc b
  | .movl u g d a b => (((Raw.mk0 1 0x18 g (atM 63 (nb u))).setD d).srcA a).bsrc b
  | .cvt o =>
    ((Raw.mk0 1 0x19 o.g (atM 63 (nb o.u) + atM 55 o.dst.code + atM 47 o.src.code + atM 44 o.rm.code
      + atM 43 (nb o.sat) + atM 42 (nb o.ftz))).setD o.d).srcA o.a
  | .cvtp o =>
    ((((Raw.mk0 2 0x1A o.g (atM 62 (nb o.xp) + atM 54 o.fmt.code + atM 51 o.rm.code + atM 50 (nb o.sat))).setD
      o.d).srcA o.a).srcB o.b).srcC o.c
  | .cvtb g rnd d a form =>
    let r := ((Raw.mk0 2 0x1B g (atM 55 rnd.code)).setD d).srcA a
    match form with
    | .xp => r.addM (atM 62 1)
    | .pk pm1 none => r.addM (atM 58 pm1.toNat)
    | .pk pm1 (some c) => ((r.addM (atM 58 pm1.toNat)).srcC c).addE 1
  | .rint o =>
    ((Raw.mk0 1 0x1C o.g (atM 63 (nb o.u) + atM 55 o.fmt.code + atM 52 o.rm.code + atM 51 (nb o.x)
      + atM 50 (nb o.ftz))).setD o.d).srcA o.a
  | .iadd m sat => encInt 0x20 m (atM 58 (nb sat))
  | .isub m sat => encInt 0x21 m (atM 58 (nb sat))
  | .iaddc m cie ci co sub =>
    encInt 0x22 m (atM 58 (nb cie) + atM 55 ci.toNat + atM 52 co.toNat + atM 51 (nb sub))
  | .imul m sat => encInt 0x23 m (atM 58 (nb sat))
  | .imulh m => encInt 0x24 m 0
  | .imad m sat => encIntTri 0x25 m (atM 58 (nb sat))
  | .imadw m sat => encIntTri 0x26 m (atM 58 (nb sat))
  | .idiv m => encInt 0x27 m 0
  | .irem m => encInt 0x28 m 0
  | .iabs m sat => encIntUn 0x29 m (atM 58 (nb sat))
  | .ineg m sat => encIntUn 0x2A m (atM 58 (nb sat))
  | .imin m => encInt 0x2B m 0
  | .imax m => encInt 0x2C m 0
  | .icmp m cond cmb cp => encInt 0x2D m (atM 56 cond.code + atM 54 cmb.code + atM 51 cp.toNat)
  | .isel u w g d a b c =>
    ((((Raw.mk0 2 0x2E g (atM 63 (nb u) + atM 60 (nb w))).setD d).srcA a).b96 b).setC c
  | .and m => encInt 0x2F m 0
  | .or m => encInt 0x30 m 0
  | .xor m => encInt 0x31 m 0
  | .not m => encIntUn 0x32 m 0
  | .bool3 m lut => encIntTri 0x33 m (atM 50 lut.toNat)
  | .shl m => encInt 0x34 m 0
  | .shr m => encInt 0x35 m 0
  | .sra m => encInt 0x36 m 0
  | .fsh m left => encIntTri 0x37 m (atM 58 (nb left))
  | .popc m => encIntUn 0x38 m 0
  | .clz m => encIntUn 0x39 m 0
  | .ctz m => encIntUn 0x3A m 0
  | .brev m => encIntUn 0x3B m 0
  | .bfx m => encIntTri 0x3C m 0
  | .bfi m => encIntTri 0x3D m 0
  | .perm m => encIntTri 0x3E m 0
  | .pset u g d a b fa lut =>
    (((Raw.mk0 1 0x3F g (atM 63 (nb u) + atM 54 (nb fa) + atM 50 lut.toNat)).setD d).setA a).setB b
  | .fadd m => encFlt 0x44 m false
  | .fsub m => encFlt 0x45 m false
  | .fmul m => encFlt 0x46 m false
  | .fma m => encFltTri 0x47 m false
  | .fmin m w => encFlt 0x48 m w
  | .fmax m w => encFlt 0x49 m w
  | .fcmp o =>
    (((Raw.mk0 1 0x4A o.g (atM 63 (nb o.u) + atM 58 o.cond.code + atM 57 (nb o.ftz) + atM 56 (nb o.w)
      + atM 54 o.cmb.code + atM 51 o.cp.toNat)).setD o.d).srcA o.a).bsrc o.b
  | .fclass u ftz w g d a cls =>
    ((Raw.mk0 1 0x4B g (atM 63 (nb u) + atM 57 (nb ftz) + atM 56 (nb w) + atM 42 cls.toNat)).setD d).srcA a
  | .frcp m => encFltUn 0x4C m
  | .fdiv m => encFlt 0x4D m false
  | .fsqrt m => encFltUn 0x4E m
  | .frsq m => encFltUn 0x4F m
  | .fex2 m => encFltUn 0x50 m
  | .flg2 m => encFltUn 0x51 m
  | .fsin m => encFltUn 0x52 m
  | .fcos m => encFltUn 0x53 m
  | .ftanh m => encFltUn 0x54 m
  | .fscale m => encFlt 0x55 m false
  | .hadd2 m bf => encFlt 0x56 m bf
  | .hmul2 m bf => encFlt 0x57 m bf
  | .hfma2 m bf => encFltTri 0x58 m bf
  | .hmin2 m bf => encFlt 0x59 m bf
  | .hmax2 m bf => encFlt 0x5A m bf
  | .dadd m => encFlt 0x5B m false
  | .dmul m => encFlt 0x5C m false
  | .dfma m => encFltTri 0x5D m false
  | .vote g test fd na k d a =>
    ((Raw.mk0 1 0x60 g (atM 61 test.code + atM 60 (nb fd) + atM 59 (nb na) + atM 53 k.toNat)).setD d).setA a
  | .ballot g mode na d a => ((Raw.mk0 1 0x61 g (atM 60 mode.code + atM 59 (nb na))).dst 62 d).setA a
  | .shfl o =>
    let r := ((Raw.mk0 2 0x62 o.g (atM 61 o.mode.code + atM 60 (nb o.w) + atM 55 o.seg.code)).setD o.d).srcA o.a
    let r := match o.b with
      | .reg s => r.srcB s
      | .unif u => (r.setB u).addM (atM 59 1)
      | .imm i => (r.addM (atM 58 1)).addE (atE 75 i.toNat)
    match o.cv with
    | none => r
    | some p => (r.setC p).addE 1
  | .red g op ty bar k d a =>
    let r := ((Raw.mk0 1 0x63 g (atM 60 op.code + atM 57 ty.code + encK 52 k)).dst 56 d).srcA a
    match bar with
    | none => r
    | some b => (r.setB b).addM (atM 55 1)
  | .scan g op ty ex k d a =>
    ((Raw.mk0 1 0x64 g (atM 60 op.code + atM 57 ty.code + atM 56 (nb ex) + encK 52 k)).setD d).srcA a
  | .matchLanes g w mode d a => ((Raw.mk0 1 0x65 g (atM 62 (nb w) + atM 60 mode.code)).setD d).srcA a
  | .elect g mode su d =>
    let r := (Raw.mk0 1 0x66 g 0).setD d
    let r := match mode with
      | .low => r
      | .high => r.addM (atM 61 1)
      | .from a => (r.setA a).addM (atM 61 2)
    match su with
    | none => r
    | some b => (r.setB b).addM (atM 60 1)
  | .tmask g src d => ((Raw.mk0 1 0x67 g 0).setD d).isrcA 62 54 src
  | .barinit bar count team =>
    let r := Raw.mk0 1 0x68 Guard.always (atM 56 bar.toNat)
    let r := match count with
      | .imm i => r.addM (atM 50 i.toNat)
      | .unif u => (r.setA u).addM (atM 48 1)
    match team with
    | none => r.addM (atM 49 1)
    | some t => r.setB t
  | .barrive bar pd => (Raw.mk0 1 0x69 Guard.always (atM 56 bar.toNat)).optD 55 pd
  | .barwait bar pd => (Raw.mk0 1 0x6A Guard.always (atM 56 bar.toNat)).optD 55 pd
  | .bartest bar form =>
    let r := Raw.mk0 1 0x6B Guard.always (atM 56 bar.toNat)
    match form with
    | .flag k a => (r.setD k).setA a
    | .status d => (r.setD d).addM (atM 55 1)
  | .cinit i target =>
    let r := (Raw.mk0 2 0x6C Guard.always 0).isrcA 62 54 i
    match target with
    | .imm t => (r.addM (atM 53 1)).addE t.toNat
    | .unif u => r.setB u
  | .carrive i n =>
    let r := (Raw.mk0 1 0x6D Guard.always 0).isrcA 62 54 i
    match n with
    | .imm k => r.addM (atM 42 k.toNat)
    | .unif u => (r.setB u).addM (atM 53 1)
  | .cwait i gen => ((Raw.mk0 1 0x6E Guard.always 0).isrcA 62 54 i).gsrc gen
  | .ctest k i gen => (((Raw.mk0 1 0x6F Guard.always 0).setD k).isrcA 62 54 i).gsrc gen
  | .draw o =>
    let r := (((Raw.mk0 2 0x70 o.g (encK 57 o.k)).dst 60 o.d).srcA o.a).optB 61 o.ib
    match o.l with
    | none => r
    | some c => (r.addM (atM 62 1)).c96 c
  | .drawm o =>
    let r := ((Raw.mk0 2 0x71 o.g (atM 61 o.mode.code)).setD o.d).srcA o.a
    let r := match o.b with
      | .reg s => r.srcB s
      | .unif u => (r.setB u).addM (atM 60 1)
    match o.coin with
    | none => r
    | some c => (r.srcC c).addE 1
  | .drawk form =>
    let r := Raw.mk0 1 0x72 Guard.always 0
    match form with
    | .set a b => (r.setA a).setB b
    | .ctr b => (r.setB b).addM (atM 61 1)
    | .get d => (r.setD d).addM (atM 61 2)
  | .drawt o =>
    let r := ((((Raw.mk0 2 0x73 o.g (encK 57 o.k + atM 50 o.bar.toNat)).dst 60 o.d).srcA o.a).optB 61 o.ib).setC o.area
    match o.l with
    | none => r
    | some t => r.addM (atM 62 1 + atM 42 t.toNat)
  | .lds sz g d off => (encScr 0x80 g sz.code off).setD d
  | .sts sz g off b => (encScr 0x81 g sz.code off).srcB b
  | .atms o =>
    let r := ((((Raw.mk0 2 0x82 o.g (atM 59 o.op.code + atM 57 o.ord.code + atM 56 (nb o.w) + o.off.imm.toNat)).setD
      o.d).srcB o.b).srcC o.c)
    match o.off.a with
    | none => r.addE 1
    | some s => r.srcA s
  | .smap o => (((Raw.mk0 2 0x83 o.g (atM 62 (nb o.ro) + atM 58 o.nm1.toNat)).srcA o.a).srcB o.b).srcC o.c
  | .sunmap nm1 g a => (Raw.mk0 1 0x84 g (atM 58 nm1.toNat)).srcA a
  | .sflush nm1 g a => (Raw.mk0 1 0x85 g (atM 58 nm1.toNat)).srcA a
  | .cbnd g d a b c => ((((Raw.mk0 2 0x88 g 0).setD d).srcA a).srcB b).srcC c
  | .cperm g d a keep =>
    let r := ((Raw.mk0 1 0x89 g 0).setD d).srcA a
    match keep with
    | .imm k => r.addM (atM 42 k.toNat)
    | .reg s => (r.srcB s).addM (atM 62 1)
  | .cseal g d a b => (((Raw.mk0 1 0x8A g 0).setD d).srcA a).srcB b
  | .cunseal g d a b => (((Raw.mk0 1 0x8B g 0).setD d).srcA a).srcB b
  | .cfield g f d a => ((Raw.mk0 1 0x8C g (atM 42 f.code)).setD d).srcA a
  | .ctag g use d a => ((Raw.mk0 1 0x8D g (atM 42 (nb use))).setD d).srcA a
  | .cclr g d => (Raw.mk0 1 0x8E g 0).setD d
  | .revk g nw d a => (((Raw.mk0 2 0x8F g 0).setD d).srcA a).addE (nb nw)
  | .swpq g d => (Raw.mk0 1 0x90 g 0).dst 62 d
  | .ld m sz d => (encSpan 0x98 m sz.code 0).setD d
  | .st m sz c => (encSpan 0x99 m sz.code 0).srcC c
  | .ldc m d => (encSpan 0x9A m 0 0).setD d
  | .stc m c => (encSpan 0x9B m 0 0).srcC c
  | .atom o => encAtom 0x9C o
  | .atomn o => encAtom 0x9D o
  | .ldmx m fmt d c => ((encSpan 0x9E m 0 (atM 48 fmt.code)).setD d).srcC c
  | .stmx m fmt d c => ((encSpan 0x9F m 0 (atM 48 fmt.code)).setD d).srcC c
  | .pref m nm1 => encSpan 0xA0 m 0 (atM 50 nm1.toNat)
  | .fence scope => Raw.mk0 1 0xA1 Guard.always (atM 59 scope.code)
  | .iinv m c pkg => (encSpan 0xA2 m 0 (atM 55 (nb pkg))).srcC c
  | .isync => Raw.mk0 1 0xA3 Guard.always 0
  | .clwb m c inv => (encSpan 0xA4 m 0 (atM 55 (nb inv))).srcC c
  | .gang n a => (Raw.mk0 1 0xA8 Guard.always (atM 60 n.toNat)).setA a
  | .ldm capok a b => ((Raw.mk0 1 0xA9 Guard.always (atM 62 (nb capok))).setA a).srcB b
  | .mma o => encGang 0xAA o
  | .mmas o ns => (encGang 0xAB o).setX ns.toNat
  | .mmb z opx d a b => (((Raw.mk0 3 0xAC Guard.always (atM 62 (nb z) + atM 61 (nb opx))).setD d).setA a).setB b
  | .mmf o c stride => ((encGang 0xAD o).srcC c).setX (atX 108 stride.toNat)
  | .accz rel nm1 d => (Raw.mk0 1 0xAE Guard.always (atM 62 (nb rel) + atM 59 nm1.toNat)).setD d
  | .accw o =>
    (((((Raw.mk0 2 0xAF Guard.always 0).setD o.d).srcA o.a).setB o.b).setC o.c).addE
      (atE 88 o.fmt.code + atE 85 o.rm.code + atE 84 (nb o.sat) + atE 83 (nb o.rel) + atE 82 (nb o.int))
  | .accq d => (Raw.mk0 1 0xB0 Guard.always 0).setD d
  | .cpy o =>
    (((Raw.mk0 1 0xB8 Guard.always (atM 62 (nb o.st) + atM 60 (nb o.post))).setA o.a).srcB o.b).optD 61 o.jd
  | .cpyc o =>
    ((Raw.mk0 1 0xB9 Guard.always (atM 60 (nb o.post) + encCairn 51 52 o.cairn)).srcA o.a).optD 61 o.jd
  | .cpyh o =>
    let r := (((Raw.mk0 2 0xBA Guard.always (atM 60 (nb o.post) + encCairn 61 52 o.cairn)).setD o.d).setB o.b).setC o.c
    match o.a with
    | none => r.addM (atM 62 1)
    | some s => r.srcA s
  | .snap o => ((Raw.mk0 2 0xBB Guard.always (atM 60 (nb o.post) + encCairn 61 52 o.cairn)).setD o.d).srcA o.a
  | .cring form =>
    match form with
    | .off => Raw.mk0 2 0xBC Guard.always (atM 62 1)
    | .bind a cairn => (Raw.mk0 2 0xBC Guard.always (encCairn 61 52 cairn)).srcA a
  | .rcard form d =>
    let r := (Raw.mk0 2 0xC0 Guard.always 0).setD d
    match form with
    | .off => r.addM (atM 62 1)
    | .install a b => (r.srcA a).setB b
  | .wpt n =>
    match n with
    | .imm i => Raw.mk0 1 0xC1 Guard.always (atM 42 i.toNat)
    | .unif u => (Raw.mk0 1 0xC1 Guard.always (atM 62 1)).setA u
  | .resq m d => (encSpan 0xC2 m 0 0).setD d
  | .rpin op m d c => ((encSpan 0xC3 m 0 (atM 54 op.code)).setD d).srcC c
  | .spawn o =>
    ((((Raw.mk0 2 0xC4 o.g (atM 62 (nb o.hold) + atM 61 (nb o.nw))).setD o.d).srcA o.a).srcB o.b).setC o.c
  | .joinc o =>
    let r := ((Raw.mk0 1 0xC5 o.g (atM 42 o.imm.toNat)).setD o.d).srcA o.a
    match o.b with
    | none => r.addM (atM 62 1)
    | some s => r.srcB s
  | .qpush o =>
    let r := (((Raw.mk0 2 0xC6 o.g 0).setD o.d).setA o.a).setB o.b
    match o.c with
    | none => r.addM (atM 62 1)
    | some s => r.srcC s
  | .gcond or n d a => ((Raw.mk0 1 0xC7 Guard.always (atM 62 (nb or) + atM 54 n.toNat)).setD d).setA a
  | .trap g code => Raw.mk0 1 0xC8 g (atM 42 code.toNat)
  | .tret op => Raw.mk0 1 0xC9 Guard.always (atM 61 op.code)
  | .rdsr srn d => (Raw.mk0 1 0xCA Guard.always (atM 42 srn.toNat)).dst 62 d
  | .wrsr srn a =>
    let r := Raw.mk0 1 0xCB Guard.always (atM 42 srn.toNat)
    match a with
    | .lane s => r.srcA s
    | .unif u => (r.setA u).addM (atM 62 1)
  | .bkpt g code => Raw.mk0 1 0xCC g (atM 42 code.toNat)
  | .delg g d a b => (((Raw.mk0 2 0xCD g 0).setD d).srcA a).setB b
  | .coll o =>
    (((((Raw.mk0 3 0xCE Guard.always 0).setD o.d).setA o.a).setB o.b).setC o.c).setX
      (atX 109 (nb o.post) + atX 96 o.nm1.toNat + (match o.cairn with
        | none => atX 108 1
        | some i => atX 100 i.toNat))
  -- no words
  | .retiredOpcodeEmulation _ | .blockSkipWord | .waitCounterBoost _ _ _ | .restEnd _ _ _ | .cairnArrival _ _
  | .pageRefill _ _ | .stashLineFill _ _ | .stashForeignAccess _ _ _ | .partyPlacement | .resourceRelease _
  | .parkLimitExpiry _ _ | .partySave _ | .partyRestore _ _ | .barrierRecordWaitEnd _ _ _ | .jobCardWaitEnd _ _ _
  | .revocationMapRoom _ _ _ | .recordSlotFree _ _ _ _ | .tierFetch | .pageResident _ _ | .eviction _ | .pageLost _
  | .pageRequestResponse _ _ | .atsInvalidateRequest _ _ | .sweepPassStart | .sweepVisit _ | .sweepPassComplete
  | .copyJobDispatch _ | .copyJobComplete _ | .ldmJobComplete _ | .ringPost | .ringSlotWaitEnd _ | .ringCtimeExpiry _
  | .gangJoin _ _ | .readPhaseComplete _ | .accumulatePhaseComplete _ | .nearCacheAdd _ | .snapshotCut
  | .snapshotCopyComplete | .queueDoorbell _ _ _ | .registerWrite _ _ | .queueSlotMapping | .bucketSettlement _
  | .watchdogExpiry _ | .drainComplete _ | .launchComplete _ | .graphNodeComplete _ _ | .waitextPoll _ _ _ | .load _
  | .launch _ | .graphload _ | .graph _ | .unload _ | .cmdblk _ | .fwin _ | .signal _ | .wait _ | .copy _
  | .collectiveLoad _ | .collectiveReplay _ | .collectiveUnload _ | .codeSync _ | .queueSet | .queueFree | .bucketSet
  | .colourNew | .colourRetire | .grant | .ungrant | .admitSet | .regionSet | .routeSet | .keysSet | .fwActivate
  | .attest | .counters | .portStatus | .spareThreshold | .handleFree | .pinquotaSet | .replayStart | .fetch _ _
  | .send _ _ | .recv _ _ | .reduce _ _ | .merge _ _ | .deliver _ _ | .chunkArrival _ | .chunkResend _ _
  | .lateContribution _ | .replayComplete _ | .flitCrcFailure _ _ | .laneFailure _ _ | .retrainComplete _ _
  | .portDownReroute _ | .unreachableTimeout _ | .peerAccess _ _ _ _ _ | .peerReply _ _ _ | .handleIn _ _ _ _
  | .delgAnswer _ _ _ | .handleInvocation _ _ _ _ | .invocationReport _ _ _ | .invocationReportTimeout _
  | .poolSnoop _ | .poolHostFailure _ | .uncorrectableError _ | .mailboxRequestExecution | .leaseRenewal
  | .leaseExpiry | .arbiterGrant | .firmwareEccError _ | .imageReloadComplete _ | .tableEccError _ | .dieFence _
  | .safePoint | .safePointTimeout | .islandClockChange _ _ | .packageReset | .correctedError _ _ _ _
  | .mbdbWrite _ _ | .writePermissionUpgrade _ _ | .chunkAcknowledgement _ _ _ | .poolModuleLoss _ _
  | .poolPortDown _ | .dieBroughtBack _ | .copyOnWritePageCopied _ => Raw.mk0 0 0 Guard.always 0

/-! ### Majors (R35 to R37) -/

/-- The length in bytes of a live major; 0 for a major that is not live. -/
def liveLen (opc : Nat) : Nat :=
  if 0x01 ≤ opc ∧ opc ≤ 0x0C ∨ 0x14 ≤ opc ∧ opc ≤ 0x1C ∨ 0x20 ≤ opc ∧ opc ≤ 0x3F ∨ 0x44 ≤ opc ∧ opc ≤ 0x5D
    ∨ 0x60 ≤ opc ∧ opc ≤ 0x73 ∨ 0x80 ≤ opc ∧ opc ≤ 0x85 ∨ 0x88 ≤ opc ∧ opc ≤ 0x90 ∨ 0x98 ≤ opc ∧ opc ≤ 0xA4
    ∨ 0xA8 ≤ opc ∧ opc ≤ 0xB0 ∨ 0xB8 ≤ opc ∧ opc ≤ 0xBC ∨ 0xC0 ≤ opc ∧ opc ≤ 0xCE then
    if [0x02, 0x03, 0x05, 0x15, 0x9C, 0x9D, 0xAA, 0xAB, 0xAC, 0xAD, 0xCE].elem opc then 16
    else if [0x04, 0x06, 0x1A, 0x1B, 0x25, 0x26, 0x2E, 0x33, 0x37, 0x3C, 0x3D, 0x3E, 0x47, 0x58, 0x5D, 0x62, 0x6C,
      0x70, 0x71, 0x73, 0x82, 0x83, 0x88, 0x8F, 0x98, 0x99, 0x9A, 0x9B, 0x9E, 0x9F, 0xA0, 0xA2, 0xA4, 0xAF, 0xBA,
      0xBB, 0xBC, 0xC0, 0xC2, 0xC3, 0xC4, 0xC6, 0xCD].elem opc then 12
    else 8
  else 0

/-- The length in bytes of a retired major (R37); 0 otherwise. -/
def retiredLen (opc : Nat) : Nat :=
  if 0x10 ≤ opc ∧ opc ≤ 0x13 then 12
  else if 0x40 ≤ opc ∧ opc ≤ 0x43 then 8
  else if 0x74 ≤ opc ∧ opc ≤ 0x77 then 16
  else if 0xD0 ≤ opc ∧ opc ≤ 0xD1 then 8
  else 0

/-! ### Reading, class range by class range (R35) -/

/-- Control, 0x01 to 0x0C. -/
def parseControl (r : Raw) : Option Instr :=
  match r.opc with
  | 0x01 => some (.nop r.g)
  | 0x02 => some (.bra r.g (BitVec.ofNat 32 r.imm) (BitVec.ofNat 22 r.ext))
  | 0x03 => some (.brc r.g (BitVec.ofNat 32 r.imm) (BitVec.ofNat 22 r.ext))
  | 0x04 => some (.brx r.g r.As (BitVec.ofNat 22 r.ext))
  | 0x05 => some (.call r.g r.D (BitVec.ofNat 32 r.imm))
  | 0x06 => some (.callx r.g r.D r.As)
  | 0x07 => some (.ret r.g r.As)
  | 0x08 => some (.brk r.g (BitVec.ofNat 4 (r.mf 42 4)))
  | 0x09 => some (.exit r.g)
  | 0x0A => some (.yield r.g)
  | 0x0B => some (.rest r.g (BitVec.ofNat 16 (r.mf 42 16)))
  | 0x0C => some (.seed r.A)
  | _ => none

/-- Moves and conversions, 0x14 to 0x1C. -/
def parseMove (r : Raw) : Option Instr :=
  match r.opc with
  | 0x14 => some (.mov r.u (r.mb 60) (r.mb 58) r.g r.D r.getB)
  | 0x15 => some (.movi r.u (r.mb 60) r.g r.D (BitVec.ofNat 32 r.imm))
  | 0x16 => some (.movs r.u r.g r.D r.A)
  | 0x17 => some (.movu r.u r.g r.D r.As r.getB)
  | 0x18 => some (.movl r.u r.g r.D r.As r.getB)
  | 0x19 =>
    match elemOf (r.mf 55 8), elemOf (r.mf 47 8) with
    | some dst, some src => some (.cvt ⟨r.u, dst, src, roundOf (r.mf 44 3), r.mb 43, r.mb 42, r.g, r.D, r.As⟩)
    | _, _ => none
  | 0x1A => (elemOf (r.mf 54 8)).map fun fmt =>
      .cvtp ⟨r.mb 62, fmt, roundOf (r.mf 51 3), r.mb 50, r.g, r.D, r.As, r.Bs, r.Cs⟩
  | 0x1B => some (.cvtb r.g (roundOf (r.mf 55 3)) r.D r.As
      (if r.mb 62 then .xp else .pk (BitVec.ofNat 4 (r.mf 58 4)) (if r.eb 74 then some r.Cs else none)))
  | 0x1C => (elemOf (r.mf 55 8)).map fun fmt =>
      .rint ⟨r.u, fmt, roundOf (r.mf 52 3), r.mb 51, r.mb 50, r.g, r.D, r.As⟩
  | _ => none

/-- Integer and logic, 0x20 to 0x3F. -/
def parseInt (r : Raw) : Option Instr :=
  match r.opc with
  | 0x20 => some (.iadd r.int (r.mb 58))
  | 0x21 => some (.isub r.int (r.mb 58))
  | 0x22 => some (.iaddc r.int (r.mb 58) (BitVec.ofNat 3 (r.mf 55 3)) (BitVec.ofNat 3 (r.mf 52 3)) (r.mb 51))
  | 0x23 => some (.imul r.int (r.mb 58))
  | 0x24 => some (.imulh r.int)
  | 0x25 => some (.imad r.intTri (r.mb 58))
  | 0x26 => some (.imadw r.intTri (r.mb 58))
  | 0x27 => some (.idiv r.int)
  | 0x28 => some (.irem r.int)
  | 0x29 => some (.iabs r.intUn (r.mb 58))
  | 0x2A => some (.ineg r.intUn (r.mb 58))
  | 0x2B => some (.imin r.int)
  | 0x2C => some (.imax r.int)
  | 0x2D => some (.icmp r.int (icondOf (r.mf 56 3)) (combineOf (r.mf 54 2)) (BitVec.ofNat 3 (r.mf 51 3)))
  | 0x2E => some (.isel r.u (r.mb 60) r.g r.D r.As r.getB96 r.C)
  | 0x2F => some (.and r.int)
  | 0x30 => some (.or r.int)
  | 0x31 => some (.xor r.int)
  | 0x32 => some (.not r.intUn)
  | 0x33 => some (.bool3 r.intTri (BitVec.ofNat 8 (r.mf 50 8)))
  | 0x34 => some (.shl r.int)
  | 0x35 => some (.shr r.int)
  | 0x36 => some (.sra r.int)
  | 0x37 => some (.fsh r.intTri (r.mb 58))
  | 0x38 => some (.popc r.intUn)
  | 0x39 => some (.clz r.intUn)
  | 0x3A => some (.ctz r.intUn)
  | 0x3B => some (.brev r.intUn)
  | 0x3C => some (.bfx r.intTri)
  | 0x3D => some (.bfi r.intTri)
  | 0x3E => some (.perm r.intTri)
  | 0x3F => some (.pset r.u r.g r.D r.A r.B (r.mb 54) (BitVec.ofNat 4 (r.mf 50 4)))
  | _ => none

/-- Floating point, 0x44 to 0x5D. -/
def parseFlt (r : Raw) : Option Instr :=
  match r.opc with
  | 0x44 => some (.fadd r.flt)
  | 0x45 => some (.fsub r.flt)
  | 0x46 => some (.fmul r.flt)
  | 0x47 => some (.fma r.fltTri)
  | 0x48 => some (.fmin r.flt (r.mb 56))
  | 0x49 => some (.fmax r.flt (r.mb 56))
  | 0x4A => some (.fcmp ⟨r.u, fcondOf (r.mf 58 3), r.mb 57, r.mb 56, combineOf (r.mf 54 2),
      BitVec.ofNat 3 (r.mf 51 3), r.g, r.D, r.As, r.getB⟩)
  | 0x4B => some (.fclass r.u (r.mb 57) (r.mb 56) r.g r.D r.As (BitVec.ofNat 10 (r.mf 42 10)))
  | 0x4C => some (.frcp r.fltUn)
  | 0x4D => some (.fdiv r.flt)
  | 0x4E => some (.fsqrt r.fltUn)
  | 0x4F => some (.frsq r.fltUn)
  | 0x50 => some (.fex2 r.fltUn)
  | 0x51 => some (.flg2 r.fltUn)
  | 0x52 => some (.fsin r.fltUn)
  | 0x53 => some (.fcos r.fltUn)
  | 0x54 => some (.ftanh r.fltUn)
  | 0x55 => some (.fscale r.flt)
  | 0x56 => some (.hadd2 r.flt (r.mb 56))
  | 0x57 => some (.hmul2 r.flt (r.mb 56))
  | 0x58 => some (.hfma2 r.fltTri (r.mb 56))
  | 0x59 => some (.hmin2 r.flt (r.mb 56))
  | 0x5A => some (.hmax2 r.flt (r.mb 56))
  | 0x5B => some (.dadd r.flt)
  | 0x5C => some (.dmul r.flt)
  | 0x5D => some (.dfma r.fltTri)
  | _ => none

/-- Lanes, teams, barriers, cairns and draws, 0x60 to 0x73. -/
def parseLanes (r : Raw) : Option Instr :=
  match r.opc with
  | 0x60 => some (.vote r.g (voteOf (r.mf 61 2)) (r.mb 60) (r.mb 59) (BitVec.ofNat 6 (r.mf 53 6)) r.D r.A)
  | 0x61 => some (.ballot r.g (ballotOf (r.mf 60 2)) (r.mb 59) (r.getDst 62) r.A)
  | 0x62 => some (.shfl ⟨shflOf (r.mf 61 2), r.mb 60, segOf (r.mf 55 3), r.g, r.D, r.As,
      if r.mb 58 then .imm (BitVec.ofNat 15 (r.ef 75 15)) else if r.mb 59 then .unif r.B else .reg r.Bs,
      if r.eb 74 then some r.C else none⟩)
  | 0x63 => some (.red r.g (redOpOf (r.mf 60 3)) (redTyOf (r.mf 57 3)) (if r.mb 55 then some r.B else none)
      (r.getK 52) (r.getDst 56) r.As)
  | 0x64 => some (.scan r.g (redOpOf (r.mf 60 3)) (redTyOf (r.mf 57 3)) (r.mb 56) (r.getK 52) r.D r.As)
  | 0x65 => some (.matchLanes r.g (r.mb 62) (matchOf (r.mf 60 2)) r.D r.As)
  | 0x66 => some (.elect r.g
      (if r.mb 62 then .from r.A else if r.mb 61 then .high else .low)
      (if r.mb 60 then some r.B else none) r.D)
  | 0x67 => some (.tmask r.g (r.getIsrcA 62 54) r.D)
  | 0x68 => some (.barinit (BitVec.ofNat 7 (r.mf 56 7))
      (if r.mb 48 then .unif r.A else .imm (BitVec.ofNat 6 (r.mf 50 6))) (if r.mb 49 then none else some r.B))
  | 0x69 => some (.barrive (BitVec.ofNat 7 (r.mf 56 7)) (r.getOptD 55))
  | 0x6A => some (.barwait (BitVec.ofNat 7 (r.mf 56 7)) (r.getOptD 55))
  | 0x6B => some (.bartest (BitVec.ofNat 7 (r.mf 56 7)) (if r.mb 55 then .status r.D else .flag r.D r.A))
  | 0x6C => some (.cinit (r.getIsrcA 62 54) (if r.mb 53 then .imm (BitVec.ofNat 22 r.ext) else .unif r.B))
  | 0x6D => some (.carrive (r.getIsrcA 62 54) (if r.mb 53 then .unif r.B else .imm (BitVec.ofNat 11 (r.mf 42 11))))
  | 0x6E => some (.cwait (r.getIsrcA 62 54) r.getG)
  | 0x6F => some (.ctest r.D (r.getIsrcA 62 54) r.getG)
  | 0x70 => some (.draw ⟨r.g, r.getDst 60, r.As, if r.mb 61 then some r.Bs else none, r.getK 57,
      if r.mb 62 then some r.getC96 else none⟩)
  | 0x71 => some (.drawm ⟨drawModeOf (r.mf 61 2), r.g, r.D, r.As,
      if r.mb 60 then .unif r.B else .reg r.Bs, if r.eb 74 then some r.Cs else none⟩)
  | 0x72 => some (.drawk (if r.mb 62 then .get r.D else if r.mb 61 then .ctr r.B else .set r.A r.B))
  | 0x73 => some (.drawt ⟨r.g, r.getDst 60, r.As, if r.mb 61 then some r.Bs else none, r.getK 57,
      if r.mb 62 then some (BitVec.ofNat 8 (r.mf 42 8)) else none, BitVec.ofNat 7 (r.mf 50 7), r.C⟩)
  | _ => none

/-- Scratchpad and capabilities, 0x80 to 0x90. -/
def parseScratch (r : Raw) : Option Instr :=
  match r.opc with
  | 0x80 => some (.lds (szOf (r.mf 60 3)) r.g r.D r.scr)
  | 0x81 => some (.sts (szOf (r.mf 60 3)) r.g r.scr r.Bs)
  | 0x82 => some (.atms ⟨atomOpOf (r.mf 59 4), memOrdOf (r.mf 57 2), r.mb 56, r.g, r.D,
      ⟨if r.eb 74 then none else some r.As, BitVec.ofNat 14 (r.mf 42 14)⟩, r.Bs, r.Cs⟩)
  | 0x83 => some (.smap ⟨r.mb 62, BitVec.ofNat 4 (r.mf 58 4), r.g, r.As, r.Bs, r.Cs⟩)
  | 0x84 => some (.sunmap (BitVec.ofNat 4 (r.mf 58 4)) r.g r.As)
  | 0x85 => some (.sflush (BitVec.ofNat 4 (r.mf 58 4)) r.g r.As)
  | 0x88 => some (.cbnd r.g r.D r.As r.Bs r.Cs)
  | 0x89 => some (.cperm r.g r.D r.As (if r.mb 62 then .reg r.Bs else .imm (BitVec.ofNat 12 (r.mf 42 12))))
  | 0x8A => some (.cseal r.g r.D r.As r.Bs)
  | 0x8B => some (.cunseal r.g r.D r.As r.Bs)
  | 0x8C => some (.cfield r.g (cfieldOf (r.mf 42 3)) r.D r.As)
  | 0x8D => some (.ctag r.g (r.mb 42) r.D r.As)
  | 0x8E => some (.cclr r.g r.D)
  | 0x8F => some (.revk r.g (r.eb 74) r.D r.As)
  | 0x90 => some (.swpq r.g (r.getDst 62))
  | _ => none

/-- Reads the atomic mould (R230). -/
def Raw.atom (r : Raw) : AtomOpnd :=
  ⟨atomOpOf (r.mf 56 4), memOrdOf (r.mf 54 2), scopeOf (r.mf 51 3), r.mb 62, r.g, r.D, r.As,
    if r.mb 61 then .none else if r.mb 60 then .pair r.Bs else .reg r.Bs,
    BitVec.ofNat 24 (r.xf 104 24), r.Cs, ⟨BitVec.ofNat 8 (r.xf 96 8), hintOf (r.ef 74 2)⟩⟩

/-- Span memory, 0x98 to 0xA4. -/
def parseSpan (r : Raw) : Option Instr :=
  match r.opc with
  | 0x98 => some (.ld r.span (szOf (r.mf 60 3)) r.D)
  | 0x99 => some (.st r.span (szOf (r.mf 60 3)) r.Cs)
  | 0x9A => some (.ldc r.span r.D)
  | 0x9B => some (.stc r.span r.Cs)
  | 0x9C => some (.atom r.atom)
  | 0x9D => some (.atomn r.atom)
  | 0x9E => (elemOf (r.mf 48 8)).map fun fmt => .ldmx r.span fmt r.D r.Cs
  | 0x9F => (elemOf (r.mf 48 8)).map fun fmt => .stmx r.span fmt r.D r.Cs
  | 0xA0 => some (.pref r.span (BitVec.ofNat 6 (r.mf 50 6)))
  | 0xA1 => some (.fence (scopeOf (r.mf 59 3)))
  | 0xA2 => some (.iinv r.span r.Cs (r.mb 55))
  | 0xA3 => some .isync
  | 0xA4 => some (.clwb r.span r.Cs (r.mb 55))
  | _ => none

/-- Matrix and copy, 0xA8 to 0xBC. -/
def parseEngine (r : Raw) : Option Instr :=
  match r.opc with
  | 0xA8 => some (.gang (BitVec.ofNat 3 (r.mf 60 3)) r.A)
  | 0xA9 => some (.ldm (r.mb 62) r.A r.Bs)
  | 0xAA => some (.mma r.gang)
  | 0xAB => some (.mmas r.gang (BitVec.ofNat 2 (r.xf 96 2)))
  | 0xAC => some (.mmb (r.mb 62) (r.mb 61) r.D r.A r.B)
  | 0xAD => some (.mmf r.gang r.Cs (BitVec.ofNat 20 (r.xf 108 20)))
  | 0xAE => some (.accz (r.mb 62) (BitVec.ofNat 3 (r.mf 59 3)) r.D)
  | 0xAF => (elemOf (r.ef 88 8)).map fun fmt =>
      .accw ⟨fmt, roundOf (r.ef 85 3), r.eb 84, r.eb 83, r.eb 82, r.D, r.As, r.B, r.C⟩
  | 0xB0 => some (.accq r.D)
  | 0xB8 => some (.cpy ⟨r.mb 62, r.getOptD 61, r.mb 60, r.A, r.Bs⟩)
  | 0xB9 => some (.cpyc ⟨r.getOptD 61, r.mb 60, r.getCairn 51 52, r.As⟩)
  | 0xBA => some (.cpyh ⟨r.mb 60, r.getCairn 61 52, r.D, if r.mb 62 then none else some r.As, r.B, r.C⟩)
  | 0xBB => some (.snap ⟨r.mb 60, r.getCairn 61 52, r.D, r.As⟩)
  | 0xBC => some (.cring (if r.mb 62 then .off else .bind r.As (r.getCairn 61 52)))
  | _ => none

/-- Tiers, queues, system and fabric, 0xC0 to 0xCE. -/
def parseSystem (r : Raw) : Option Instr :=
  match r.opc with
  | 0xC0 => some (.rcard (if r.mb 62 then .off else .install r.As r.B) r.D)
  | 0xC1 => some (.wpt (if r.mb 62 then .unif r.A else .imm (BitVec.ofNat 16 (r.mf 42 16))))
  | 0xC2 => some (.resq r.span r.D)
  | 0xC3 => some (.rpin (rpinOf (r.mf 54 2)) r.span r.D r.Cs)
  | 0xC4 => some (.spawn ⟨r.mb 62, r.mb 61, r.g, r.D, r.As, r.Bs, r.C⟩)
  | 0xC5 => some (.joinc ⟨r.g, r.D, r.As, if r.mb 62 then none else some r.Bs, BitVec.ofNat 8 (r.mf 42 8)⟩)
  | 0xC6 => some (.qpush ⟨r.g, r.D, r.A, r.B, if r.mb 62 then none else some r.Cs⟩)
  | 0xC7 => some (.gcond (r.mb 62) (BitVec.ofNat 8 (r.mf 54 8)) r.D r.A)
  | 0xC8 => some (.trap r.g (BitVec.ofNat 16 (r.mf 42 16)))
  | 0xC9 => some (.tret (tretOf (r.mf 61 2)))
  | 0xCA => some (.rdsr (BitVec.ofNat 12 (r.mf 42 12)) (r.getDst 62))
  | 0xCB => some (.wrsr (BitVec.ofNat 12 (r.mf 42 12)) (if r.mb 62 then .unif r.A else .lane r.As))
  | 0xCC => some (.bkpt r.g (BitVec.ofNat 16 (r.mf 42 16)))
  | 0xCD => some (.delg r.g r.D r.As r.B)
  | 0xCE => some (.coll ⟨r.xb 109, if r.xb 108 then none else some (BitVec.ofNat 8 (r.xf 100 8)),
      BitVec.ofNat 4 (r.xf 96 4), r.D, r.A, r.B, r.C⟩)
  | _ => none

/-- Reads the fields of a live major. -/
def parse (r : Raw) : Option Instr :=
  if r.opc < 0x10 then parseControl r
  else if r.opc < 0x20 then parseMove r
  else if r.opc < 0x40 then parseInt r
  else if r.opc < 0x60 then parseFlt r
  else if r.opc < 0x80 then parseLanes r
  else if r.opc < 0x98 then parseScratch r
  else if r.opc < 0xA8 then parseSpan r
  else if r.opc < 0xC0 then parseEngine r
  else parseSystem r

/-! ### Decoding (R33) -/

/-- The fate of a word (R33). -/
inductive Decoded where
  /-- Step 1: the block-skip word (R31). -/
  | skip
  /-- Step 1 or 4: ILLEGAL_ENCODING. -/
  | illegal
  /-- Step 2: FETCH_PLACEMENT. -/
  | placement
  /-- Step 3: RETIRED_OPCODE, with the length in bytes. -/
  | retired (bytes : Nat)
  /-- Step 5: the instruction, with its length in bytes. -/
  | ok (i : Instr) (bytes : Nat)
deriving DecidableEq, Repr

/-- Steps 3 to 5 of R33 on an instruction's fields. -/
def decodeRaw (r : Raw) : Decoded :=
  if lenBytes r.len = retiredLen r.opc then .retired (lenBytes r.len)
  else if lenBytes r.len ≠ liveLen r.opc then .illegal
  else match parse r with
    | none => .illegal
    | some i => if i.wf ∧ encodeRaw i = r then .ok i (lenBytes r.len) else .illegal

/-- Decodes the number `w` whose low word is the word at word position `q` of its fetch block (R33); total on any bits. -/
def decode (q w : Nat) : Decoded :=
  let len := fieldOf w 0 2
  if len = 0 then (if fieldOf w 0 32 = 0 then .skip else .illegal)
  else if 8 < q + lenBytes len / 4 then .placement
  else decodeRaw (Raw.ofBits w)

/-- The instruction as a number, its first word lowest. -/
def encodeBits (i : Instr) : Nat := (encodeRaw i).bits

/-- The length of an instruction in bytes: 8, 12 or 16. -/
def Instr.bytes (i : Instr) : Nat := lenBytes (encodeRaw i).len

/-- The 32-bit words of a number, lowest first. -/
def wordsOf (w : Nat) : Nat → List (BitVec 32)
  | 0 => []
  | k + 1 => BitVec.ofNat 32 w :: wordsOf (w / 2 ^ 32) k

/-- The words of an instruction, in memory order (R25). -/
def encode (i : Instr) : List (BitVec 32) := wordsOf (encodeBits i) (i.bytes / 4)

/-- The instruction that decoding reads from an instruction whose bits are `w`, numbered as the opcode table numbers them;
bits above `nbits` are zero. -/
def decodeTableWord (nbits w : Nat) : Option Instr :=
  match decode 0 (w % 2 ^ nbits) with
  | .ok i _ => some i
  | _ => none

end Sys2Proof
end

