-- ==== Sys2Proof/Machine/Regs.lean ====
section
/-!
DEFINITION. The registers of a rope: reading and writing lane registers, quads, uniforms, predicates and flags (R94 to R104), masks
and guards (R14), last-use poisoning (R15, R101). Every register is read and written through these operations.
-/
namespace Sys2Proof.Machine

/-- The value of a register that nothing has written (R13). -/
def regPoison : Word := 0x7FA5A5A5#32

/-! ### Lane registers -/

/-- Where lane `l`'s register `r` is kept. -/
def laneKey (l r : Nat) : Nat := l * 256 + r

/-- Where lane `l`'s tag of quad `q` is kept. -/
def quadKey (l q : Nat) : Nat := l * 64 + q

/-- Register `r` of lane `l`. -/
def Rope.x (p : Rope) (l r : Nat) : Word := SMap.get regPoison p.regs (laneKey l r)

/-- The pair of lane `l` whose low half is register `r` (R98). -/
def Rope.x64 (p : Rope) (l r : Nat) : DWord := p.x l (r + 1) ++ p.x l r

/-- The 128 bits of the quad of lane `l` whose first register is `r` (R98). -/
def Rope.quad (p : Rope) (l r : Nat) : Quad := p.x l (r + 3) ++ p.x l (r + 2) ++ p.x l (r + 1) ++ p.x l r

/-- The tag of the quad that holds register `r` in lane `l` (R98). -/
def Rope.tag (p : Rope) (l r : Nat) : Bool := NSet.has p.qtag (quadKey l (r / 4))

/-- Writes register `r` of lane `l`: the tag of its quad is cleared (R99), VALID of its block is set (R254). -/
def Rope.setX (p : Rope) (l r : Nat) (v : Word) : Rope :=
  { p with
    regs := SMap.set regPoison p.regs (laneKey l r) v
    qtag := NSet.set p.qtag (quadKey l (r / 4)) false
    accValid := p.accValid ||| BitVec.ofNat 8 (2 ^ (r / 32)) }

/-- Sets the tag of the quad that holds register `r` in lane `l`. -/
def Rope.setTag (p : Rope) (l r : Nat) (t : Bool) : Rope := { p with qtag := NSet.set p.qtag (quadKey l (r / 4)) t }

/-- Writes a pair (R98). -/
def Rope.setX64 (p : Rope) (l r : Nat) (v : DWord) : Rope :=
  (p.setX l r (v.extractLsb' 0 32)).setX l (r + 1) (v.extractLsb' 32 32)

/-- Writes a quad with its tag (R98). -/
def Rope.setQuad (p : Rope) (l r : Nat) (v : Quad) (t : Bool) : Rope :=
  ((((p.setX l r (v.extractLsb' 0 32)).setX l (r + 1) (v.extractLsb' 32 32)).setX l (r + 2)
    (v.extractLsb' 64 32)).setX l (r + 3) (v.extractLsb' 96 32)).setTag l r t

/-! ### Uniforms, predicates, flags -/

/-- `s[n]` (R103). -/
def Rope.s (p : Rope) (n : Nat) : Word := SMap.get regPoison p.unif n

/-- The uniform pair whose low half is `s[n]` (R103). -/
def Rope.s64 (p : Rope) (n : Nat) : DWord := p.s (n + 1) ++ p.s n

/-- Writes `s[n]`. -/
def Rope.setS (p : Rope) (n : Nat) (v : Word) : Rope := { p with unif := SMap.set regPoison p.unif n v }

/-- Writes a uniform pair. -/
def Rope.setS64 (p : Rope) (n : Nat) (v : DWord) : Rope :=
  (p.setS n (v.extractLsb' 0 32)).setS (n + 1) (v.extractLsb' 32 32)

/-- The lane mask of a predicate; `p7` reads true (R104). -/
def Rope.pmask (p : Rope) (n : Nat) : Word := if n = 7 then 0xFFFFFFFF#32 else SMap.get 0#32 p.preds n

/-- Predicate `n` of lane `l`. -/
def Rope.p (p : Rope) (n l : Nat) : Bool := (p.pmask n).getLsbD l

/-- A mask with bit `l` set or cleared. -/
def withBit (m : Word) (l : Nat) (b : Bool) : Word :=
  if b then m ||| BitVec.ofNat 32 (2 ^ l) else m &&& ~~~(BitVec.ofNat 32 (2 ^ l))

/-- Writes predicate `n` of lane `l`; `p7` is never written (R104). -/
def Rope.setP (p : Rope) (n l : Nat) (b : Bool) : Rope :=
  if n = 7 then p else { p with preds := SMap.set 0#32 p.preds n (withBit (SMap.get 0#32 p.preds n) l b) }

/-- Flag `k[n]` (R104). -/
def Rope.k (p : Rope) (n : Nat) : Bool := p.flags.getLsbD n

/-- Writes flag `k[n]`. -/
def Rope.setK (p : Rope) (n : Nat) (b : Bool) : Rope :=
  { p with flags := if b then p.flags ||| BitVec.ofNat 4 (2 ^ n) else p.flags &&& ~~~(BitVec.ofNat 4 (2 ^ n)) }

/-- ORs flags into `%fpst` (R65). -/
def Rope.orFpst (p : Rope) (f : BitVec 6) : Rope := { p with fpst := p.fpst ||| f }

/-! ### Masks, guards, hints -/

/-- The lanes of a mask, in ascending order. -/
def lanesOf (m : Word) : List Nat := (List.range 32).filter fun l => m.getLsbD l

/-- A guard as a lane mask (R14). -/
def Rope.guardMask (p : Rope) (g : Guard) : Word := if g.neg then ~~~(p.pmask g.p.toNat) else p.pmask g.p.toNat

/-- The active lanes of an instruction (R24). -/
def Rope.activeMask (p : Rope) (e : Entry) (g : Guard) : Word := e.mask &&& p.guardMask g

/-- The number of lanes of a mask. -/
def popMask (m : Word) : Nat := (lanesOf m).length

/-- The lowest lane of a mask, or 0. -/
def lowLane (m : Word) : Nat := (lanesOf m).headD 0

/-- Poisons `n` registers from `r` in the lanes of a mask (R15). -/
def Rope.poisonRun (p : Rope) (m : Word) (r n : Nat) : Rope :=
  (lanesOf m).foldl (fun p l => (List.range n).foldl (fun p j => p.setX l (r + j) regPoison) p) p

/-- Applies the last-use hint of a source of `n` registers in the lanes of a mask (R15, R101). -/
def Rope.useUp (p : Rope) (m : Word) (s : RSrc) (n : Nat) : Rope :=
  if s.h = .last then p.poisonRun m s.r.toNat n else p

/-- Applies the last-use hints of several sources, each with its number of registers. -/
def Rope.useAll (p : Rope) (m : Word) (l : List (RSrc × Nat)) : Rope := l.foldl (fun p x => p.useUp m x.1 x.2) p

end Sys2Proof.Machine
end

