-- ==== Sys2Proof/Machine/Operands.lean ====
section
/-!
DEFINITION. Operand forms: what a source field reads in a lane or, in the uniform class, once for the rope (R12, R17, R29, R106), and
what a card writes. Every source is read from the rope as it stood before the instruction (R24).
-/
namespace Sys2Proof.Machine

/-- What an executing card sees: the rope before the instruction, the lane (none in the uniform class), and the special registers
that the rope itself does not hold (R105). -/
structure Env where
  rope : Rope
  lane : Option Nat
  /-- `%rope`, `%party`, `%core`, `%die`, `%regs`. -/
  ropeNo : Nat
  party : Nat
  core : Nat
  die : Nat
  allot : Nat
  clock : DWord
  /-- The issuing slot's mask (`%live`) and the lanes that execute. -/
  live : Word
  active : Word

/-- A 32-bit source register: a lane register, or a uniform in the uniform class (R17). -/
def Env.reg (e : Env) (r : BitVec 8) : Word :=
  match e.lane with
  | some l => e.rope.x l r.toNat
  | none => e.rope.s r.toNat

/-- A source pair (R98, R103). -/
def Env.reg64 (e : Env) (r : BitVec 8) : DWord :=
  match e.lane with
  | some l => e.rope.x64 l r.toNat
  | none => e.rope.s64 r.toNat

/-- A source of 32 bits, or of 64 bits with W, as a number. -/
def Env.val (e : Env) (w : Bool) (r : BitVec 8) : Nat := if w then (e.reg64 r).toNat else (e.reg r).toNat

/-- A uniform source of 32 or 64 bits. -/
def Env.uval (e : Env) (w : Bool) (r : BitVec 8) : Nat :=
  if w then (e.rope.s64 r.toNat).toNat else (e.rope.s r.toNat).toNat

/-- The predicate or, in the uniform class, the flag `n` (R28, R104). -/
def Env.pred (e : Env) (n : Nat) : Bool :=
  match e.lane with
  | some l => e.rope.p n l
  | none => e.rope.k n

/-- How an immediate of 16 bits enters a card (R29). -/
inductive ImmKind where
  | int | f32 | f64 | packed
deriving DecidableEq, Repr

/-- A 16-bit immediate as the bits of a source (R29). -/
def immBits (k : ImmKind) (w : Bool) (i : BitVec 16) : Nat :=
  match k with
  | .int => if w then (i.signExtend 64).toNat else (i.signExtend 32).toNat
  | .f32 => i.toNat * 2 ^ 16
  | .f64 => i.toNat * 2 ^ 48
  | .packed => i.toNat * 2 ^ 16 + i.toNat

/-- The B source of a 64-bit mould (R29, R106). -/
def Env.bval (e : Env) (k : ImmKind) (w : Bool) : BSrc → Nat
  | .reg s => e.val w s.r
  | .unif r => e.uval w r
  | .imm i => immBits k w i

/-- A B or C source of a 96-bit mould (R106). -/
def Env.cval (e : Env) (w : Bool) : CSrc → Nat
  | .reg s => e.val w s.r
  | .unif r => e.uval w r

/-- What a card writes in a lane, or once for the rope. -/
structure Fx where
  regs : List (Nat × Word) := []
  /-- Quads written with their tags (R98). -/
  quads : List (Nat × Quad × Bool) := []
  /-- Tags written without their quads (`cclr`). -/
  tags : List (Nat × Bool) := []
  preds : List (Nat × Bool) := []
  /-- Flags raised (R65). -/
  fpst : BitVec 6 := 0

/-- A result of 32 bits. -/
def Fx.word (d : BitVec 8) (v : Nat) : Fx := { regs := [(d.toNat, BitVec.ofNat 32 v)] }

/-- A result of 64 bits. -/
def Fx.pair (d : BitVec 8) (v : Nat) : Fx :=
  { regs := [(d.toNat, BitVec.ofNat 32 v), (d.toNat + 1, BitVec.ofNat 32 (v / 2 ^ 32))] }

/-- A result of 32 bits, or of 64 bits with W. -/
def Fx.out (w : Bool) (d : BitVec 8) (v : Nat) : Fx := if w then Fx.pair d v else Fx.word d v

/-- Writes one lane's part of a card. -/
def Rope.writeLane (p : Rope) (l : Nat) (x : Fx) : Rope :=
  let p := x.regs.foldl (fun (p : Rope) rv => p.setX l rv.1 rv.2) p
  let p := x.quads.foldl (fun (p : Rope) q => p.setQuad l q.1 q.2.1 q.2.2) p
  let p := x.tags.foldl (fun (p : Rope) t => p.setTag l t.1 t.2) p
  x.preds.foldl (fun (p : Rope) b => p.setP b.1 l b.2) p

/-- Writes the uniform registers and flags of a card that acts once for the rope. -/
def Rope.writeUnif (p : Rope) (x : Fx) : Rope :=
  let p := x.regs.foldl (fun (p : Rope) rv => p.setS rv.1 rv.2) p
  x.preds.foldl (fun (p : Rope) b => p.setK b.1 b.2) p

/-- Writes a lane's part, or the rope's part, of a card, and its flags. -/
def Rope.write (p : Rope) (lane : Option Nat) (x : Fx) : Rope :=
  match lane with
  | some l => (p.writeLane l x).orFpst x.fpst
  | none => (p.writeUnif x).orFpst x.fpst

end Sys2Proof.Machine

namespace Sys2Proof

/-- The registers of a B source that a last-use hint poisons. -/
def BSrc.used (n : Nat) : BSrc → List (RSrc × Nat)
  | .reg s => [(s, n)]
  | _ => []

/-- The registers of a C source that a last-use hint poisons. -/
def CSrc.used (n : Nat) : CSrc → List (RSrc × Nat)
  | .reg s => [(s, n)]
  | _ => []

end Sys2Proof

namespace Sys2Proof.Machine

/-- One register, or a pair with W. -/
def width (w : Bool) : Nat := if w then 2 else 1

/-- A card that acts lane by lane, or once for the rope (R107): class, guard, hinted sources, effect. -/
structure Card where
  u : Bool
  g : Guard
  used : List (RSrc × Nat)
  fx : Env → Fx

/-- The card's effect on the rope (R24, R101, R107): all reads from the rope before it, last use, then the writes. -/
def Card.apply (c : Card) (e : Env) : Rope :=
  let lanes : List (Option Nat) := if c.u then [none] else (lanesOf e.active).map some
  let out := lanes.map fun l => (l, c.fx { e with lane := l })
  let p := if c.u then e.rope else e.rope.useAll e.active c.used
  out.foldl (fun p x => p.write x.1 x.2) p

/-- The value of special register `n` (R105). -/
def Env.special (e : Env) (n : Nat) : Nat :=
  let r := e.rope
  if n = 0x00 then e.lane.getD 0
  else if n = 0x01 then e.ropeNo
  else if n = 0x02 then e.party
  else if n = 0x03 then e.core
  else if n = 0x04 then e.die
  else if n = 0x05 then e.clock.toNat
  else if n = 0x06 then r.lfsr.toNat
  else if n = 0x07 then r.fpst.toNat
  else if n = 0x08 then r.gangReg.toNat
  else if n = 0x09 then (if r.hm then r.tmask.toNat else 0)
  else if n = 0x0A then
    let keep := 2 ^ ((e.allot + 31) / 32) - 1
    (r.accInfl.toNat &&& keep) * 2 ^ 16 + (r.accDirty.toNat &&& keep) * 2 ^ 8 + (r.accValid.toNat &&& keep)
  else if n = 0x0B then r.stack.length
  else if n = 0x0C then e.live.toNat
  else e.allot

end Sys2Proof.Machine
end

