-- ==== Sys2Proof/Machine/Num.lean ====
section
/-!
DEFINITION. The number formats of file 03 (R51 to R58) as data, the exact value of a pattern, and the one rounding of an
exact value to a format (R60 to R63). Values are exact: a sign, a natural significand and a binary exponent.
-/
namespace Sys2Proof.Machine

/-! ### Sticky flags (R64): bits 0 to 5 of %fpst -/

/-- Flags an instruction raises, laid out as %fpst. -/
abbrev FFlags := BitVec 6

/-- Invalid. -/
def fInv : FFlags := 0x01#6
/-- Divide by zero. -/
def fDbz : FFlags := 0x02#6
/-- Overflow. -/
def fOfl : FFlags := 0x04#6
/-- Underflow. -/
def fUfl : FFlags := 0x08#6
/-- Inexact. -/
def fInx : FFlags := 0x10#6
/-- Empty reduction, scan or draw. -/
def fEmpty : FFlags := 0x20#6

/-! ### Floating formats (R52) -/

/-- How a format encodes NaN (R52). -/
inductive NanKind where
  /-- IEEE: all-ones exponent, non-zero mantissa. -/
  | ieee
  /-- Only S.1111.111 (`.e4m3`). -/
  | single
  /-- The format has no NaN. -/
  | none
deriving DecidableEq, Repr

/-- A floating format of R52. -/
structure FFmt where
  /-- Width of the exponent field. -/
  ebits : Nat
  /-- Width of the mantissa field. -/
  mbits : Nat
  /-- Exponent bias. -/
  bias : Nat
  /-- Whether the format has infinities. -/
  hasInf : Bool
  /-- Its NaN encodings. -/
  nanKind : NanKind
deriving DecidableEq, Repr

/-- `.f64` -/
def fmtF64 : FFmt := ⟨11, 52, 1023, true, .ieee⟩
/-- `.f32` -/
def fmtF32 : FFmt := ⟨8, 23, 127, true, .ieee⟩
/-- `.bf16` -/
def fmtBF16 : FFmt := ⟨8, 7, 127, true, .ieee⟩
/-- `.f16` -/
def fmtF16 : FFmt := ⟨5, 10, 15, true, .ieee⟩
/-- `.e5m2` -/
def fmtE5M2 : FFmt := ⟨5, 2, 15, true, .ieee⟩
/-- `.e4m3` -/
def fmtE4M3 : FFmt := ⟨4, 3, 7, false, .single⟩
/-- `.e3m2` -/
def fmtE3M2 : FFmt := ⟨3, 2, 3, false, .none⟩
/-- `.e2m3` -/
def fmtE2M3 : FFmt := ⟨2, 3, 1, false, .none⟩
/-- `.e2m1` -/
def fmtE2M1 : FFmt := ⟨2, 1, 1, false, .none⟩

/-- Width of the format in bits. -/
def FFmt.width (f : FFmt) : Nat := 1 + f.ebits + f.mbits

/-- The code (exponent and mantissa together) of the largest finite magnitude. -/
def FFmt.maxCode (f : FFmt) : Nat :=
  match f.nanKind with
  | .ieee => (2 ^ f.ebits - 1) * 2 ^ f.mbits - 1
  | .single => 2 ^ (f.ebits + f.mbits) - 2
  | .none => 2 ^ (f.ebits + f.mbits) - 1

/-- The pattern of an infinity (formats that have one). -/
def FFmt.infCode (f : FFmt) : Nat := (2 ^ f.ebits - 1) * 2 ^ f.mbits

/-- The canonical quiet NaN of R63; zero where the format has none. -/
def FFmt.canonNaN (f : FFmt) : Nat :=
  match f.nanKind with
  | .ieee => f.infCode + 2 ^ (f.mbits - 1)
  | .single => 2 ^ (f.ebits + f.mbits) - 1
  | .none => 0

/-- A sign placed above a code. -/
def FFmt.signed (f : FFmt) (neg : Bool) (code : Nat) : Nat :=
  if neg then 2 ^ (f.ebits + f.mbits) + code else code

/-- The value a pattern denotes. A finite value is (-1)^neg × m × 2^e, with m = 0 for a signed zero. -/
inductive FVal where
  | fin (neg : Bool) (m : Nat) (e : Int)
  | inf (neg : Bool)
  | nan (signalling : Bool)
deriving DecidableEq, Repr

/-- Reads a pattern (R52). -/
def FFmt.read (f : FFmt) (w : Nat) : FVal :=
  let neg := bitOf w (f.ebits + f.mbits)
  let ex := fieldOf w f.mbits f.ebits
  let man := fieldOf w 0 f.mbits
  let finite : FVal :=
    if ex = 0 then .fin neg man (1 - (f.bias : Int) - f.mbits)
    else .fin neg (man + 2 ^ f.mbits) ((ex : Int) - f.bias - f.mbits)
  match f.nanKind with
  | .ieee =>
    if ex = 2 ^ f.ebits - 1 then
      if man = 0 then .inf neg else .nan (!bitOf man (f.mbits - 1))
    else finite
  | .single => if ex = 2 ^ f.ebits - 1 ∧ man = 2 ^ f.mbits - 1 then .nan false else finite
  | .none => finite

/-- Whether a pattern is a non-zero subnormal. -/
def FFmt.isSub (f : FFmt) (w : Nat) : Bool :=
  fieldOf w f.mbits f.ebits == 0 && fieldOf w 0 f.mbits != 0

/-- The zero of a pattern's sign. -/
def FFmt.zeroOf (f : FFmt) (w : Nat) : Nat := f.signed (bitOf w (f.ebits + f.mbits)) 0

/-- A pattern and the flags raised in making it. -/
structure FRes where
  bits : Nat
  flags : FFlags
deriving DecidableEq, Repr

/-- Number of significant bits of `m`: 0 for 0. -/
def bitLen (m : Nat) : Nat := if m = 0 then 0 else m.log2 + 1

/-- The magnitude `m × 2^e`, plus an excess below one unit of `m` when `sticky`, rounded to a multiple of `2^q` in mode
`rm` for a value of sign `neg`: the multiple, and whether it differs from the exact value. The excess is read right only
for `e ≤ q`. -/
def roundAt (mode : Round) (neg : Bool) (m : Nat) (e : Int) (sticky : Bool) (q : Int) : Nat × Bool :=
  let num : Nat := if q ≤ e then m * 2 ^ (e - q).toNat else m
  let den : Nat := if q ≤ e then 1 else 2 ^ (q - e).toNat
  let n := num / den
  let r := num % den
  let inexact := r != 0 || sticky
  let up : Bool :=
    match mode with
    | .rn => decide (den < 2 * r) || (decide (2 * r = den) && (sticky || n % 2 == 1))
    | .rz => false
    | .rp => !neg && inexact
    | .rm => neg && inexact
    | .rna => decide (den ≤ 2 * r)
  (if up then n + 1 else n, inexact)

/-- What an overflow delivers (R62): the largest finite magnitude, or infinity. -/
def overflowCode (f : FFmt) (mode : Round) (sat neg : Bool) : Nat :=
  if sat || !f.hasInf then f.maxCode
  else match mode with
    | .rn => f.infCode
    | .rna => f.infCode
    | .rz => f.maxCode
    | .rp => if neg then f.maxCode else f.infCode
    | .rm => if neg then f.infCode else f.maxCode

/-- Rounds a finite exact value to the format (R60, R62): the magnitude is `m × 2^e` and a little more when `sticky`.
With `sticky`, `m` has at least two bits more than the format's significand. -/
def FFmt.round (f : FFmt) (mode : Round) (sat neg : Bool) (m : Nat) (e : Int) (sticky : Bool) : FRes :=
  if m = 0 ∧ sticky = false then ⟨f.signed neg 0, 0⟩
  else
    let p : Int := f.mbits + 1
    let qFree : Int := e + (bitLen m : Int) - p
    let qMin : Int := 1 - (f.bias : Int) - f.mbits
    let q := max qFree qMin
    let (n, inexact) := roundAt mode neg m e sticky q
    let (nFree, _) := roundAt mode neg m e sticky qFree
    let tiny := decide (qFree + 1 < qMin) || (decide (qFree + 1 = qMin) && decide (nFree < 2 ^ (f.mbits + 1)))
    -- the code rises by one per unit in the last place, so a significand that rounds up to 2^p carries by itself
    let code : Nat := n + (q - qMin).toNat * 2 ^ f.mbits
    if f.maxCode < code then
      ⟨f.signed neg (overflowCode f mode sat neg), fOfl ||| fInx⟩
    else
      ⟨f.signed neg code,
        (if inexact then fInx else 0) ||| (if inexact && tiny then fUfl else 0)⟩

/-- A NaN delivered to the format (R63). -/
def FFmt.nanRes (f : FFmt) (flags : FFlags) : FRes :=
  match f.nanKind with
  | .none => ⟨0, flags ||| fInv⟩
  | _ => ⟨f.canonNaN, flags⟩

/-- An infinity delivered to the format (R62): no flag. -/
def FFmt.infRes (f : FFmt) (sat neg : Bool) : FRes :=
  ⟨f.signed neg (if sat || !f.hasInf then f.maxCode else f.infCode), 0⟩

/-- A value delivered to the format, rounded once; a signalling NaN source raises invalid. -/
def FFmt.deliver (f : FFmt) (mode : Round) (sat : Bool) (v : FVal) : FRes :=
  match v with
  | .fin neg m e => f.round mode sat neg m e false
  | .inf neg => f.infRes sat neg
  | .nan sig => f.nanRes (if sig then fInv else 0)

/-! ### Exact sums and products -/

/-- A finite value as a signed multiple of `2^e` for an exponent `e` not above its own. -/
def signedAt (neg : Bool) (m : Nat) (me e : Int) : Int :=
  let a : Int := (m * 2 ^ (me - e).toNat : Nat)
  if neg then -a else a

/-- The exact sum of two finite values: the zero of an exact cancellation is +0, or −0 in `.rm`; two zeros of one sign
keep it (R127). -/
def addFin (mode : Round) (n1 : Bool) (m1 : Nat) (e1 : Int) (n2 : Bool) (m2 : Nat) (e2 : Int) : FVal :=
  let e := min e1 e2
  let v := signedAt n1 m1 e1 e + signedAt n2 m2 e2 e
  if v = 0 then
    if m1 = 0 ∧ m2 = 0 ∧ n1 = n2 then .fin n1 0 0
    else .fin (decide (mode = .rm)) 0 0
  else .fin (decide (v < 0)) v.natAbs e

/-- A NaN among the sources: the canonical NaN, with invalid for a signalling one. -/
def isNaN : FVal → Bool
  | .nan _ => true
  | _ => false

/-- Whether a value is a signalling NaN. -/
def isSig : FVal → Bool
  | .nan s => s
  | _ => false

/-- Negates a value; a NaN stays as it is. -/
def FVal.negate : FVal → FVal
  | .fin n m e => .fin (!n) m e
  | .inf n => .inf (!n)
  | .nan s => .nan s

/-- Result of an exact operation before rounding: a value, and the flags the operation itself raises. -/
structure XRes where
  val : FVal
  flags : FFlags
deriving DecidableEq, Repr

/-- The result where a source is a NaN (R63). -/
def nanOf (vs : List FVal) : XRes := ⟨.nan false, if vs.any isSig then fInv else 0⟩

/-- The invalid result (R63). -/
def invalidRes : XRes := ⟨.nan false, fInv⟩

/-- Exact a + b (R127). -/
def xAdd (mode : Round) (a b : FVal) : XRes :=
  match a, b with
  | .nan _, _ => nanOf [a, b]
  | _, .nan _ => nanOf [a, b]
  | .inf x, .inf y => if x = y then ⟨.inf x, 0⟩ else invalidRes
  | .inf x, .fin _ _ _ => ⟨.inf x, 0⟩
  | .fin _ _ _, .inf y => ⟨.inf y, 0⟩
  | .fin n1 m1 e1, .fin n2 m2 e2 => ⟨addFin mode n1 m1 e1 n2 m2 e2, 0⟩

/-- Exact a × b (R127). -/
def xMul (a b : FVal) : XRes :=
  match a, b with
  | .nan _, _ => nanOf [a, b]
  | _, .nan _ => nanOf [a, b]
  | .inf x, .inf y => ⟨.inf (x ^^ y), 0⟩
  | .inf x, .fin y m _ => if m = 0 then invalidRes else ⟨.inf (x ^^ y), 0⟩
  | .fin x m _, .inf y => if m = 0 then invalidRes else ⟨.inf (x ^^ y), 0⟩
  | .fin n1 m1 e1, .fin n2 m2 e2 => ⟨.fin (n1 ^^ n2) (m1 * m2) (e1 + e2), 0⟩

/-- Exact a × b + c (R127): 0 × ∞ is invalid even when c is a quiet NaN. -/
def xFma (mode : Round) (a b c : FVal) : XRes :=
  let p := xMul a b
  let s := xAdd mode p.val c
  let sig := if [a, b, c].any isSig then fInv else 0
  ⟨s.val, p.flags ||| s.flags ||| sig⟩

/-- Rounds an exact result to a format without saturation. -/
def roundX (f : FFmt) (mode : Round) (x : XRes) : FRes :=
  let r := f.deliver mode false x.val
  ⟨r.bits, r.flags ||| x.flags⟩

/-! ### Quotients and roots -/

/-- Exact quotient of two finite non-zero magnitudes to at least `k` bits: significand, exponent, and whether a
remainder is left. -/
def divMag (k : Nat) (m1 : Nat) (e1 : Int) (m2 : Nat) (e2 : Int) : Nat × Int × Bool :=
  let sh := k + bitLen m2
  (m1 * 2 ^ sh / m2, e1 - e2 - sh, m1 * 2 ^ sh % m2 != 0)

/-- Integer square root by bits: the root of `n` below `2^k`, given the part `r` found so far. -/
def isqrtBits (n : Nat) : Nat → Nat → Nat
  | 0, r => r
  | k + 1, r =>
    let t := r + 2 ^ k
    isqrtBits n k (if t * t ≤ n then t else r)

/-- Integer square root. -/
def isqrt (n : Nat) : Nat := isqrtBits n (bitLen n / 2 + 1) 0

/-- Square root of the magnitude `m × 2^e` to at least `k` bits. -/
def sqrtMag (k : Nat) (m : Nat) (e : Int) : Nat × Int × Bool :=
  let sh : Nat := 2 * k + (if (e % 2) = 0 then 0 else 1)
  let n := m * 2 ^ sh
  let r := isqrt n
  (r, (e - sh) / 2, r * r != n)

/-- Rounds a magnitude with a sticky excess. -/
def roundSticky (f : FFmt) (mode : Round) (neg : Bool) (t : Nat × Int × Bool) : FRes :=
  f.round mode false neg t.1 t.2.1 t.2.2

/-- `fdiv` (R131): a / b rounded once. -/
def fDivRes (f : FFmt) (mode : Round) (a b : FVal) : FRes :=
  match a, b with
  | .nan _, _ => roundX f mode (nanOf [a, b])
  | _, .nan _ => roundX f mode (nanOf [a, b])
  | .inf _, .inf _ => f.nanRes fInv
  | .inf x, .fin y _ _ => f.infRes false (x ^^ y)
  | .fin x _ _, .inf y => ⟨f.signed (x ^^ y) 0, 0⟩
  | .fin x m1 e1, .fin y m2 e2 =>
    if m2 = 0 then
      if m1 = 0 then f.nanRes fInv
      else ⟨f.signed (x ^^ y) f.infCode, fDbz⟩
    else if m1 = 0 then ⟨f.signed (x ^^ y) 0, 0⟩
    else roundSticky f mode (x ^^ y) (divMag (f.mbits + 4) m1 e1 m2 e2)

/-- `frcp` (R131). -/
def fRcpRes (f : FFmt) (mode : Round) (a : FVal) : FRes :=
  match a with
  | .fin n 0 _ => ⟨f.signed n f.infCode, fDbz⟩
  | _ => fDivRes f mode (.fin false 1 0) a

/-- `fsqrt` (R131). -/
def fSqrtRes (f : FFmt) (mode : Round) (a : FVal) : FRes :=
  match a with
  | .nan _ => roundX f mode (nanOf [a])
  | .inf false => f.infRes false false
  | .inf true => f.nanRes fInv
  | .fin n m e =>
    if m = 0 then ⟨f.signed n 0, 0⟩
    else if n then f.nanRes fInv
    else roundSticky f mode false (sqrtMag (f.mbits + 4) m e)

/-- `frsq` (R131): 1/√a rounded once, from the root of the exact quotient 1/a carried to enough bits: the root of
`2^(2k) / m` is floor-exact, since floor(√(x)) = floor(√(floor x)). -/
def fRsqRes (f : FFmt) (mode : Round) (a : FVal) : FRes :=
  match a with
  | .nan _ => roundX f mode (nanOf [a])
  | .inf false => ⟨0, 0⟩
  | .inf true => f.nanRes fInv
  | .fin n m e =>
    if m = 0 then ⟨f.signed n f.infCode, fDbz⟩
    else if n then f.nanRes fInv
    else
      -- write a = m × 2^e with e even; 1/√a = √(1/m) × 2^(-e/2)
      let odd := (e % 2) != 0
      let m' := if odd then m * 2 else m
      let e' := if odd then e - 1 else e
      let k := f.mbits + 4 + bitLen m'
      let x := 2 ^ (2 * k) / m'
      let r := isqrt x
      let exact := r * r * m' == 2 ^ (2 * k)
      roundSticky f mode false (r, -(e' / 2) - k, !exact)

/-! ### Minimum, maximum, comparison, classes -/

/-- Order of two values that are not NaN: less, with −0 below +0 when `zeros` (R128, R129). -/
def fLess (zeros : Bool) (a b : FVal) : Bool :=
  match a, b with
  | .nan _, _ => false
  | _, .nan _ => false
  | .inf x, .inf y => x && !y
  | .inf x, .fin _ _ _ => x
  | .fin _ _ _, .inf y => !y
  | .fin n1 m1 e1, .fin n2 m2 e2 =>
    let e := min e1 e2
    let x := signedAt n1 m1 e1 e
    let y := signedAt n2 m2 e2 e
    decide (x < y) || (zeros && decide (x = y) && decide (x = 0) && n1 && !n2)

/-- `fmin` and `fmax` on two patterns as read after flush, absolute value and negation (R128). -/
def fMinMax (f : FFmt) (mx : Bool) (a b : Nat) : FRes :=
  let va := f.read a
  let vb := f.read b
  let flags := if isSig va || isSig vb then fInv else 0
  match isNaN va, isNaN vb with
  | true, true => ⟨f.canonNaN, flags⟩
  | true, false => ⟨b, flags⟩
  | false, true => ⟨a, flags⟩
  | false, false =>
    if mx then ⟨if fLess true va vb then b else a, flags⟩
    else ⟨if fLess true vb va then b else a, flags⟩

/-- `fcmp` on two values (R129): the truth value and the flags. -/
def fCompare (c : FCond) (a b : FVal) : Bool × FFlags :=
  let anyNan := isNaN a || isNaN b
  let anySig := isSig a || isSig b
  let lt := fLess false a b
  let gt := fLess false b a
  let ordered : Bool := match c with
    | .lt | .le | .gt | .ge => true
    | _ => false
  let flags := if (if ordered then anyNan else anySig) then fInv else 0
  let t : Bool := match c with
    | .eq => !anyNan && !lt && !gt
    | .ne => anyNan || lt || gt
    | .lt => lt
    | .le => !anyNan && !gt
    | .gt => gt
    | .ge => !anyNan && !lt
    | .num => !anyNan
    | .nan => anyNan
  (t, flags)

/-- The class number of a pattern, 0 to 9 (R130). -/
def FFmt.classOf (f : FFmt) (w : Nat) : Nat :=
  match f.read w with
  | .nan true => 0
  | .nan false => 1
  | .inf true => 2
  | .inf false => 9
  | .fin neg m _ =>
    let sub := f.isSub w
    if m = 0 then (if neg then 5 else 6)
    else if sub then (if neg then 4 else 7)
    else (if neg then 3 else 8)

/-! ### Integers from values -/

/-- A finite value rounded to an integer in a mode (R60): the integer and whether it differs from the value. -/
def toIntRound (mode : Round) (neg : Bool) (m : Nat) (e : Int) : Int × Bool :=
  let (n, inexact) := roundAt mode neg m e false 0
  (if neg then -(n : Int) else n, inexact)

/-- An integer delivered to a floating format. -/
def FFmt.ofInt (f : FFmt) (mode : Round) (sat : Bool) (v : Int) : FRes :=
  f.round mode sat (decide (v < 0)) v.natAbs 0 false

/-- Smallest value of an integer type of `n` bits. -/
def intMin (n : Nat) (uns : Bool) : Int := if uns then 0 else -(2 ^ (n - 1) : Nat)

/-- Largest value of an integer type of `n` bits. -/
def intMax (n : Nat) (uns : Bool) : Int := if uns then (2 ^ n : Nat) - 1 else (2 ^ (n - 1) : Nat) - 1

/-- An integer held to the range of a type. -/
def clampInt (n : Nat) (uns : Bool) (v : Int) : Int := min (max v (intMin n uns)) (intMax n uns)

/-- The low `n` bits of an integer. -/
def lowBits (n : Nat) (v : Int) : Nat := (v % (2 ^ n : Nat)).toNat

/-- The low `n` bits read as signed or unsigned. -/
def readInt (n : Nat) (uns : Bool) (w : Nat) : Int :=
  let u := w % 2 ^ n
  if uns then u else if 2 ^ (n - 1) ≤ u then (u : Int) - (2 ^ n : Nat) else u

/-! ### Round to an integral value (R69) -/

/-- The integral value of a pattern in the format, keeping the sign of a zero result. -/
def FFmt.integral (f : FFmt) (mode : Round) (x : Bool) (w : Nat) : FRes :=
  match f.read w with
  | .nan sig => ⟨f.canonNaN, if sig then fInv else 0⟩
  | .inf _ => ⟨w, 0⟩
  | .fin neg m e =>
    let (n, inexact) := roundAt mode neg m e false 0
    let r := f.round mode false neg n 0 false
    ⟨r.bits, if x && inexact then fInx else 0⟩

end Sys2Proof.Machine
end

