-- ==== Sys2Proof/Machine/Reduce.lean ====
section
/-!
DEFINITION. Reductions (R150, R151): the pairwise tree over 32 positions, its nodes and its identities. Values are bit patterns of the
type's width.
-/
namespace Sys2Proof

open Machine (FFmt fmtF32 fmtF64)

/-- Bits of a reduction type. -/
def RedTy.bits : RedTy → Nat
  | .i32 | .n32 | .f32 | .b32 => 32
  | .i64 | .n64 | .f64 | .b64 => 64

/-- The floating format of a type, if it has one. -/
def RedTy.fmt : RedTy → Option FFmt
  | .f32 => some fmtF32
  | .f64 => some fmtF64
  | .i32 | .n32 | .b32 | .i64 | .n64 | .b64 => none

/-- Whether a type is read unsigned. -/
def RedTy.unsigned : RedTy → Bool
  | .n32 | .n64 | .b32 | .b64 => true
  | .i32 | .i64 | .f32 | .f64 => false

end Sys2Proof

namespace Sys2Proof.Machine

/-- The lesser or greater of two integers of `n` bits, as bits. -/
def intMinMax (mx : Bool) (n : Nat) (uns : Bool) (a b : Nat) : Nat :=
  if decide (readInt n uns a ≤ readInt n uns b) = mx then b else a

/-- One node of the tree (R150), with the flags it raises. -/
def redNode (op : RedOp) (ty : RedTy) (a b : Nat) : FRes :=
  match op with
  | .add =>
    match ty.fmt with
    | some f => roundX f .rn (xAdd .rn (f.read a) (f.read b))
    | none => ⟨(a + b) % 2 ^ ty.bits, 0⟩
  | .min =>
    match ty.fmt with
    | some f => fMinMax f false a b
    | none => ⟨intMinMax false ty.bits ty.unsigned a b, 0⟩
  | .max =>
    match ty.fmt with
    | some f => fMinMax f true a b
    | none => ⟨intMinMax true ty.bits ty.unsigned a b, 0⟩
  | .and => ⟨Nat.land a b, 0⟩
  | .or => ⟨Nat.lor a b, 0⟩
  | .xor => ⟨Nat.xor a b, 0⟩

/-- The identity of a reduction (R151). -/
def redIdentity (op : RedOp) (ty : RedTy) : Nat :=
  match op with
  | .add | .or | .xor => 0
  | .and => 2 ^ ty.bits - 1
  | .min =>
    match ty.fmt with
    | some f => f.signed false f.infCode
    | none => if ty.unsigned then 2 ^ ty.bits - 1 else 2 ^ (ty.bits - 1) - 1
  | .max =>
    match ty.fmt with
    | some f => f.signed true f.infCode
    | none => if ty.unsigned then 0 else 2 ^ (ty.bits - 1)

/-- One level of the tree: neighbouring positions join; an absent one contributes nothing (R150). Nodes are numbered from `j` on
(R186). -/
def treeLevel {α : Type} (node : Nat → α → α → α × FFlags) (j : Nat) : List (Option α) → List (Option α) × FFlags
  | some a :: some b :: t =>
    let r := node j a b
    let q := treeLevel node (j + 1) t
    (some r.1 :: q.1, r.2 ||| q.2)
  | some a :: none :: t =>
    let q := treeLevel node (j + 1) t
    (some a :: q.1, q.2)
  | none :: b :: t =>
    let q := treeLevel node (j + 1) t
    (b :: q.1, q.2)
  | [a] => ([a], 0)
  | [] => ([], 0)

/-- `k` levels of the tree, over 2^k positions, nodes numbered from `j` on. -/
def treeLevels {α : Type} (node : Nat → α → α → α × FFlags) : Nat → Nat → List (Option α) → FFlags → Option α × FFlags
  | 0, _, v, f => (v.headD none, f)
  | k + 1, j, v, f =>
    let r := treeLevel node j v
    treeLevels node k (j + 2 ^ k) r.1 (f ||| r.2)

/-- The pairwise tree over 32 positions (R150), its nodes numbered as R186 numbers them. -/
def tree {α : Type} (node : Nat → α → α → α × FFlags) (v : List (Option α)) : Option α × FFlags := treeLevels node 5 0 v 0

/-- The tree of a reduction over 32 positions (R150). -/
def redTree (op : RedOp) (ty : RedTy) (v : List (Option Nat)) : Option Nat × FFlags :=
  tree (fun _ a b => let r := redNode op ty a b; (r.bits, r.flags)) v

end Sys2Proof.Machine
end

