-- ==== Sys2Proof/Machine/Know.lean ====
section
/-!
DEFINITION. What an agent knows of other agents' releases (R300 to R302, R309): release counts, joined when an acquire observes a
release at a scope that holds both.
-/
namespace Sys2Proof.Machine

/-- Nothing acquired. -/
def Know.none : Know := ⟨[], []⟩

/-- Raises the count known of an agent. -/
def Know.learn (k : Know) (agent count : Nat) : Know :=
  { k with all := SMap.set 0 k.all agent (max (SMap.get 0 k.all agent) count) }

/-- Everything that either knows. -/
def Know.join (a b : Know) : Know :=
  { all := b.all.foldl (fun m e => SMap.set 0 m e.1 (max (SMap.get 0 m e.1) e.2)) a.all
    part := b.part.foldl (fun l e => if l.elem e then l else e :: l) a.part }

/-- Whether write number `gen` of an agent to a granule happens before an access by one who knows `k` (R309). -/
def Know.covers (k : Know) (agent gen granule : Nat) : Bool :=
  gen < SMap.get 0 k.all agent ||
    k.part.any fun p => p.agent == agent && decide (gen < p.count) && decide (p.lo < granule * 16 + 16)
      && decide (granule * 16 < p.hi)

/-- The die of a core (R105). -/
def dieOf (core : Nat) : Nat := core / 52

/-- Whether a scope holds two agents that stand at these places (R299); an agent without a place is base camp or a firmware core. -/
def scopeHolds (sc : Scope) (agentA : Nat) (a : Option Home) (agentB : Nat) (b : Option Home) : Bool :=
  match sc with
  | .rope => agentA == agentB
  | .team | .party => a.isSome && a.map Home.party == b.map Home.party
  | .die => a.isSome && a.map Home.die == b.map Home.die
  | .pkg | .sys => true

/-- The width of a scope (R299). -/
def scopeRank : Scope → Nat
  | .rope => 0
  | .team | .party => 1
  | .die => 2
  | .pkg => 3
  | .sys => 4

/-- Whether an atomic acquire at a scope may observe a release (R301, R302): a fence serves partners no wider than itself, a COMMIT
those at `.sys`, a signal the host alone. -/
def Pub.serves (p : Pub) (sc : Scope) : Bool :=
  match p.kind with
  | .atomic => true
  | .fence => decide (scopeRank sc ≤ scopeRank p.scope)
  | .commit => sc == .sys
  | .signal => false

/-- Whether a fence at a scope makes an acquire of an earlier read that showed a release (R302): an atomic's at a scope no wider than
its own, or a COMMIT's. -/
def Pub.servesFence (p : Pub) (sc : Scope) : Bool :=
  match p.kind with
  | .atomic => decide (scopeRank p.scope ≤ scopeRank sc)
  | .fence => false
  | .commit => sc == .sys
  | .signal => false

/-- A rope releases: its release count rises, and what it then knows is what it publishes (R309). -/
def Rope.release (r : Rope) : Rope × Know :=
  let r := { r with rel := r.rel + 1 }
  (r, r.know.learn r.agent r.rel)

/-- A rope acquires what a release published. -/
def Rope.acquire (r : Rope) (k : Know) : Rope := { r with know := r.know.join k }

/-- A rope acquires at a scope: of the releases listed, those whose own scope and this one hold both agents (R301). -/
def Rope.acquireAt (r : Rope) (home : Home) (sc : Scope) (pubs : List Pub) : Rope :=
  pubs.foldl (fun (r : Rope) p =>
    if scopeHolds p.scope p.agent p.home r.agent (some home) && scopeHolds sc p.agent p.home r.agent (some home) then r.acquire p.know
    else r) r

/-- Whether an atomic acquires (R144, R231). -/
def ordAcq : MemOrd → Bool
  | .acq | .ar => true
  | .relaxed | .rel => false

/-- Whether an atomic releases (R144, R231). -/
def ordRel : MemOrd → Bool
  | .rel | .ar => true
  | .relaxed | .acq => false

/-! ### Releases at lines (R301) -/

/-- The blocks of `z` bytes that `n` bytes from `a` touch. -/
def blocksOf (z a n : Nat) : List Nat :=
  if n = 0 then [] else (List.range ((a + n - 1) / z - a / z + 1)).map (a / z + ·)

/-- No marked write. -/
def LineSync.none : LineSync := ⟨0, [], []⟩

/-- The bytes of an access that lie in a line. -/
def lineBytes (line a n : Nat) : List Nat := ((List.range n).map (a + ·)).filter fun x => x / 128 == line

/-- A write at one line: atomic or plain, with what it releases. -/
def LineSync.write (r : LineSync) (atom : Bool) (pubs : List Pub) (bytes : List Nat) : LineSync :=
  if atom || pubs != [] then
    let q := r.ctr + 1
    let m := if atom then 2 * q + 1 else 2 * q
    ⟨q, pubs.map (fun p => (q, p)) ++ r.pubs, bytes.foldl (fun t b => SMap.set 0 t b m) r.marks⟩
  else ⟨r.ctr, r.pubs, bytes.foldl (fun t b => SMap.set 0 t b 0) r.marks⟩

/-- A write of `n` bytes at `a`, atomic or plain, with the releases that it carries (R301, R302). -/
def syncWrite (m : SMap LineSync) (atom : Bool) (pubs : List Pub) (a n : Nat) : SMap LineSync :=
  (blocksOf 128 a n).foldl (fun m line =>
    SMap.set LineSync.none m line ((SMap.get LineSync.none m line).write atom pubs (lineBytes line a n))) m

/-- Whether reading a byte with mark `k` observes the release numbered `q`: an atomic's value, or one later in the line's order
written by an atomic; or the value of a plain store that a fence made a release (R301, R302). -/
def markShows (k q : Nat) : Bool := k != 0 && (if k % 2 = 1 then decide (q ≤ k / 2) else q == k / 2)

/-- The releases that a read of `n` bytes at `a` observes. -/
def syncRead (m : SMap LineSync) (a n : Nat) : List Pub :=
  let r := SMap.get LineSync.none m (a / 128)
  ((r.pubs.filter fun p => (List.range n).all fun j => markShows (SMap.get 0 r.marks (a + j)) p.1)).map Prod.snd

end Sys2Proof.Machine
end

