-- ==== Sys2Proof/Machine/Mem.lean ====
section
/-!
DEFINITION. Span memory (R216 to R219, R196): bytes, tags, poison, and the race records and releases that travel with lines (R301,
R309). Byte order is decided here once: the least significant byte lies at the lowest address.
-/
namespace Sys2Proof.Machine

/-! ### The map -/

/-- HBM: twelve stacks of 64 GiB (R216). -/
def isHbm (a : Nat) : Bool := a < 0x00C000000000

/-- The view region (R216). -/
def isView (a : Nat) : Bool := decide (0x080000000000 ≤ a) && decide (a < 0x098000000000)

/-- The pool window (R216). -/
def isPool (a : Nat) : Bool := decide (0x100000000000 ≤ a) && decide (a < 0x500000000000)

/-- The host window (R216). -/
def isHost (a : Nat) : Bool := decide (0x500000000000 ≤ a) && decide (a < 0x800000000000)

/-- The peer windows (R216). -/
def isPeer (a : Nat) : Bool := decide (0x800000000000 ≤ a) && decide (a < 0x1000000000000)

/-- A byte of a far page: the pool or host window (R281). -/
def isFar (a : Nat) : Bool := isPool a || isHost a

/-- The die that holds an address of HBM (R216); other addresses belong to base camp's die, die 0. -/
def homeDie (a : Nat) : Nat := if isHbm a then a / 2 ^ 36 / 3 else 0

/-- Whether the span has a byte here that this package or its host and pool hold (R216). The HBM of a fenced die is unreachable (R208),
and is met as unbacked bytes are (log 107). -/
def State.backedAt (s : State) (a : Nat) : Bool :=
  (isHbm a && !(SMap.get DieRec.zero s.dies (homeDie a)).fenced) || isHost a || (isPool a && decide (a < 0x100000000000 + s.poolBytes))

/-- The far page of an address (R281). -/
def pageOf (a : Nat) : Nat := a / 2 ^ 21

/-! ### Bytes -/

/-- What a byte that nothing has written reads as (log 3). -/
def memInit : Byte := 0#8

/-- Reads one byte of the span. -/
def State.byte (s : State) (a : Nat) : Byte := SMap.get memInit s.mem a

/-- Writes one byte, keeping the canonical form. -/
def State.setByte (s : State) (a : Nat) (b : Byte) : State := { s with mem := SMap.set memInit s.mem a b }

/-- The canonical form of memory: addresses strictly rising, no entry equal to what an unlisted address reads as. -/
def Memory.wf (m : List Host.Cell) : Bool := SMap.wf memInit m

/-- Reads `n` bytes from `a`, lowest address first. -/
def State.bytes (s : State) (a : Nat) : Nat → List Byte
  | 0 => []
  | n + 1 => s.byte a :: s.bytes (a + 1) n

/-- Writes bytes from `a` on, lowest address first. -/
def State.setBytes (s : State) (a : Nat) : List Byte → State
  | [] => s
  | b :: t => (s.setByte a b).setBytes (a + 1) t

/-- Bytes as a number, the first the least significant. -/
def leNat : List Byte → Nat
  | [] => 0
  | b :: t => b.toNat + 256 * leNat t

/-- The `n` bytes of a number, the least significant first. -/
def leBytes : Nat → Nat → List Byte
  | 0, _ => []
  | n + 1, v => BitVec.ofNat 8 v :: leBytes n (v / 256)

/-- Reads a little-endian number of `n` bytes. -/
def State.num (s : State) (a n : Nat) : Nat := leNat (s.bytes a n)

/-- Writes a little-endian number of `n` bytes. -/
def State.setNum (s : State) (a n v : Nat) : State := s.setBytes a (leBytes n v)

/-! ### Ranges of granules, half-lines and lines -/

/-- The granules that an access touches. -/
def granules (a n : Nat) : List Nat := blocksOf 16 a n

/-- The tag of the granule at an address. -/
def State.tagAt (s : State) (a : Nat) : Bool := NSet.has s.tags (a / 16)

/-- Clears the tags of every granule that an access touches (R196). -/
def State.clearTags (s : State) (a n : Nat) : State :=
  { s with tags := (granules a n).foldl (fun t g => NSet.set t g false) s.tags }

/-- Sets the tag of the granule at an address; a tagged write sets its page's tag-summary bit (R207, R229). -/
def State.setTagAt (s : State) (a : Nat) (t : Bool) : State :=
  { s with tags := NSet.set s.tags (a / 16) t, tagPages := if t then NSet.set s.tagPages (a / 4096) true else s.tagPages }

/-- Whether any byte of a range lies in a poisoned half-line, or is unbacked (R216, R219). -/
def State.poisoned (s : State) (a n : Nat) : Bool :=
  (blocksOf 64 a n).any (fun h => NSet.has s.poison h) ||
    (decide (0 < n) && (!s.backedAt a || !s.backedAt (a + n - 1)))

/-- Poisons every half-line that a range touches. -/
def State.addPoison (s : State) (a n : Nat) : State :=
  { s with poison := (blocksOf 64 a n).foldl (fun p h => NSet.set p h true) s.poison }

/-- The half-lines that a range covers whole. -/
def wholeHalves (a n : Nat) : List Nat :=
  (blocksOf 64 a n).filter fun h => decide (a ≤ h * 64) && decide (h * 64 + 64 ≤ a + n)

/-- A single engine write clears the poison of the half-lines that it covers whole (R219). -/
def State.healPoison (s : State) (a n : Nat) : State :=
  { s with poison := (wholeHalves a n).foldl (fun p h => NSet.set p h false) s.poison }

/-! ### Race records and releases -/

/-- The race record of a granule, when its line is held (R309). -/
def State.raceAt (s : State) (g : Nat) : Option RaceRec := SMap.get none s.race g

/-- Records a write by a package agent in every granule that it touches (R309). -/
def State.recordWrite (s : State) (agent gen : Nat) (atom : Bool) (a n : Nat) : State :=
  { s with race := (granules a n).foldl (fun m g => SMap.set none m g (some ⟨BitVec.ofNat 32 agent, BitVec.ofNat 30 gen, atom⟩)) s.race }

/-- A write from outside the package clears VALID (R309). -/
def State.clearRace (s : State) (a n : Nat) : State :=
  { s with race := (granules a n).foldl (fun m g => SMap.set none m g none) s.race }

/-- Loses the race records of a line (R310). -/
def State.dropLine (s : State) (line : Nat) : State := s.clearRace (line * 128) 128

/-- Whether an access by an agent conflicts with an unordered earlier write at a granule (R308). -/
def State.races (s : State) (agent : Nat) (know : Know) (atomic : Bool) (a n : Nat) : Bool :=
  (granules a n).any fun g =>
    match s.raceAt g with
    | none => false
    | some w => w.agent.toNat != agent && !(w.atom && atomic) && !(know.covers w.agent.toNat w.gen.toNat g)

/-! ### Copy-on-write of a snapshot's source (R280) -/

/-- The contents of 4 KiB page `q`. -/
def State.pageImage (s : State) (q : Nat) : PageImage :=
  { bytes := s.bytes (q * 4096) 4096
    tags := s.tags.filter fun g => g / 256 == q
    poison := s.poison.filter fun h => h / 64 == q }

/-- The source pages that a write must copy first: those of the range, neither saved nor copied out. -/
def State.cowPages (s : State) (a n : Nat) : List Nat :=
  match s.snap with
  | none => []
  | some x =>
    (blocksOf 4096 a n).filter fun q =>
      decide (x.src ≤ q * 4096) && decide (q * 4096 < x.src + x.len) && !(NSet.has x.copied q)
        && (SMap.get none x.saved q).isNone

/-- Whether a write needs more copy-on-write frames than are free (R280). -/
def State.cowFull (s : State) (pages : List Nat) : Bool :=
  pages != [] && (s.snap.any fun x => decide (s.cowFrames < x.saved.length + pages.eraseDups.length))

/-- Saves the source pages that a write is about to change. -/
def State.cowSave (s : State) (a n : Nat) : State :=
  { s with snap := s.snap.map fun x =>
      { x with saved := (s.cowPages a n).foldl (fun m q => SMap.set none m q (some (s.pageImage q))) x.saved } }

/-- Before the cut, what a job or an earlier partial has written belongs to the image: saved pages take it over (R280). -/
def State.snapThrough (s : State) (a n : Nat) : State :=
  let keep (q : Nat) (z : Nat) (old cur : NSet) : NSet :=
    let touched := blocksOf z a n
    (cur.filter fun g => touched.elem g && g * z / 4096 == q).foldl (fun t g => NSet.set t g true) (old.filter fun g => !(touched.elem g))
  let patch (q : Nat) (x : PageImage) : PageImage :=
    { bytes := x.bytes.mapIdx fun i b => if a ≤ q * 4096 + i ∧ q * 4096 + i < a + n then s.byte (q * 4096 + i) else b
      tags := keep q 16 x.tags s.tags
      poison := keep q 64 x.poison s.poison }
  { s with snap := s.snap.map fun x =>
      { x with saved := x.saved.map fun e => if (blocksOf 4096 a n).elem e.1 then (e.1, e.2.map (patch e.1)) else e } }

/-- Whether a snapshot has been issued and not cut. -/
def State.uncut (s : State) : Bool := s.snap.any fun x => !x.cut

/-! ### Stash copies (R134, R138) -/

/-- What page of the allotment an offset lies in (R134). -/
def Party.pageAt (p : Party) (off : Nat) : Page := SMap.get .priv p.pages (off / 4096)

/-- Whether a page is private. -/
def isPriv : Page → Bool
  | .priv => true
  | _ => false

/-- The lines of a party's stash pages that show bytes of a range and are present. -/
def Party.stashLines (p : Party) (lo hi : Nat) : List Nat :=
  p.present.filter fun ln =>
    match p.pageAt (ln * 128) with
    | .stash _ _ a => decide (lo ≤ a + ln * 128 % 4096) && decide (a + ln * 128 % 4096 < hi)
    | _ => false

/-- A party's stash copies of the lines of a range are written back and dropped. -/
def Party.dropLines (p : Party) (lo hi : Nat) : Party :=
  let l := p.stashLines lo hi
  { p with present := p.present.filter fun x => !(l.elem x), dirty := p.dirty.filter fun x => !(l.elem x) }

/-- Every stash copy of the lines of a range is written back and dropped, as a write by another agent does (R138). -/
def State.dropStash (s : State) (lo hi : Nat) : State := { s with parties := s.parties.map fun p => p.dropLines lo hi }

/-- Whether a stash holds a line, which stays in L2 then (R138, R310). -/
def State.inStash (s : State) (line : Nat) : Bool := s.parties.any fun p => p.stashLines (line * 128) (line * 128 + 128) != []

/-! ### A store, whole -/

/-- Who writes: race agent and release count, whether atomically, and what the write releases (R301, R309). -/
structure Writer where
  agent : Nat
  gen : Nat
  atom : Bool
  pubs : List Pub
deriving DecidableEq, Repr

/-- A plain write of an agent. -/
def Writer.plain (agent gen : Nat) : Writer := ⟨agent, gen, false, []⟩

/-- Bytes stored by a package agent: a snapshot's page saved first, stash copies dropped, the bytes, their granules' tags cleared, the
race record, what the write releases (R138, R196, R280, R301, R309). Bytes that the span does not back are dropped (R216). -/
def State.store (s : State) (w : Writer) (a : Nat) (bs : List Byte) : State :=
  if s.backedAt a && s.backedAt (a + bs.length - 1) then
    let n := bs.length
    let s := ((((s.cowSave a n).dropStash (a / 128 * 128) (a + n)).setBytes a bs).clearTags a n).recordWrite w.agent w.gen w.atom a n
    { s with sync := syncWrite s.sync w.atom w.pubs a n }
  else s

/-- A store that belongs to the image of a snapshot that has not been cut: it takes no copy-on-write (R280). -/
def State.storeIn (s : State) (w : Writer) (a : Nat) (bs : List Byte) : State :=
  if s.uncut then { ({ s with snap := none }.store w a bs) with snap := s.snap } else s.store w a bs

/-- A write from outside the package, plain or an atomic's: it clears race records (R138, R309). -/
def State.foreignWrite (s : State) (atom : Bool) (pubs : List Pub) (a : Nat) (bs : List Byte) : State :=
  if s.backedAt a && s.backedAt (a + bs.length - 1) then
    let n := bs.length
    let s := ((((s.cowSave a n).dropStash (a / 128 * 128) (a + n)).setBytes a bs).clearTags a n).clearRace a n
    { s with sync := syncWrite s.sync atom pubs a n }
  else s

/-- A plain write from outside the package, which carries no release. -/
def State.foreignStore (s : State) (a : Nat) (bs : List Byte) : State := s.foreignWrite false [] a bs

/-! ### The size of L2 (R5, R310) -/

/-- The lines that an L2 slice of 2 MiB holds (R5). -/
def sliceLines : Nat := 16384

/-- The lines whose race records stand, those that a stash holds apart (R138). -/
def State.heldLines (s : State) : List Nat := ((s.race.map fun e => e.1 / 8).eraseDups).filter fun l => !(s.inStash l)

/-- The lines of a slice that are one too many; which of its lines leave is free. -/
def State.tooMany (s : State) (slice : Nat) : List Nat :=
  let l := s.heldLines.filter fun x => Config.homeSlice s.enmap.slices x == slice
  let k := (Config.freeBits s.fresh).toNat % l.length
  (l.drop k ++ l.take k).take (l.length - sliceLines)

/-- A slice holds no more lines than it has room for: the others leave by capacity, and their race records are lost (R5, R310). -/
def State.fitL2 (s : State) : State :=
  if s.race.length ≤ sliceLines then s
  else ((List.range 200).flatMap s.tooMany).foldl State.dropLine { s with fresh := s.fresh + 1 }

/-- Whether a running snapshot holds no more pages than the reserve has frames (R280). -/
def State.reserveOk (s : State) : Bool := s.snap.all fun x => decide (x.saved.length ≤ s.cowFrames)

/-! ### Residency -/

/-- Whether an address lies in a page to which residency applies (R281): a byte of the pool or host window that stands behind it. -/
def State.farAt (s : State) (a : Nat) : Bool := isFar a && s.backedAt a

/-- The residency entry of a page. -/
def State.page? (s : State) (q : Nat) : Option PageRec := SMap.get none s.pages q

/-- Whether a page lies in the host window. -/
def hostPage (q : Nat) : Bool := isHost (q * 2 ^ 21)

/-- Whether a far page may be accessed now: RESIDENT and, for a write to a host page, translated with write permission
(R284, R288). -/
def State.pageOpen (s : State) (wr : Bool) (q : Nat) : Bool :=
  (s.page? q).any fun r => r.st == .resident && (!wr || !(hostPage q) || r.writable)

/-- The far pages of an access. -/
def State.farPages (s : State) (a n : Nat) : List Nat :=
  if s.farAt a || s.farAt (a + n - 1) then blocksOf (2 ^ 21) a n else []

/-- The far pages of an access that may not be accessed now. -/
def State.shutPages (s : State) (wr : Bool) (a n : Nat) : List Nat := (s.farPages a n).filter fun q => !(s.pageOpen wr q)

/-- Asks for a page (R284, R287): a fetch under way serves; a resident page that lacks write permission is asked to be upgraded
(R288). -/
def State.ask (s : State) (x : PageAsk) : State :=
  match s.page? x.page with
  | some r =>
    if x.write && r.st == .resident && !r.writable then
      { s with pages := SMap.set none s.pages x.page (some { r with upgrade := true }) }
    else if r.st == .evicting && !(s.asks.elem x) then { s with asks := s.asks ++ [x] }
    else s
  | none => if s.asks.elem x then s else { s with asks := s.asks ++ [x] }

/-- An agent that waits at far pages asks for them, in the engines' class (R287). -/
def State.askAll (s : State) (wr : Bool) (colour : Nat) (l : List Nat) : State :=
  l.foldl (fun (s : State) q => s.ask ⟨q, .engine, wr, colour, none⟩) s

/-! ### Error counters -/

/-- Adds to a die's error counter (R414). -/
def State.countError (s : State) (die c n : Nat) : State :=
  let d := SMap.get DieRec.zero s.dies die
  let d := { d with errors := SMap.set 0 d.errors c (min (SMap.get 0 d.errors c + n) (2 ^ 32 - 1)) }
  { s with dies := SMap.set DieRec.zero s.dies die d }

end Sys2Proof.Machine
end

