-- ==== Sys2Proof/Machine/Scratch.lean ====
section
/-!
DEFINITION. A party's scratchpad (R134 to R141) and its cairn words (R159 to R164). Private bytes, their tags and their poison stand in
the party; a stash page shows the span, so its bytes are the span's own (R138).
-/
namespace Sys2Proof.Machine

/-! ### Private scratch -/

/-- One private byte; a byte never written reads zero (R135). -/
def Party.sbyte (p : Party) (off : Nat) : Byte := SMap.get 0#8 p.scratch off

/-- Writes one private byte. -/
def Party.setSbyte (p : Party) (off : Nat) (b : Byte) : Party := { p with scratch := SMap.set 0#8 p.scratch off b }

/-- Reads private bytes. -/
def Party.sbytes (p : Party) (off : Nat) : Nat → List Byte
  | 0 => []
  | n + 1 => p.sbyte off :: p.sbytes (off + 1) n

/-- Writes private bytes. -/
def Party.setSbytes (p : Party) (off : Nat) : List Byte → Party
  | [] => p
  | b :: t => (p.setSbyte off b).setSbytes (off + 1) t

/-- Clears the tags of the granules that a write touches. -/
def Party.clearStags (p : Party) (off n : Nat) : Party :=
  { p with stag := (granules off n).foldl (fun t g => NSet.set t g false) p.stag }

/-- Whether a private byte read carries poison (R136). -/
def Party.spoisoned (p : Party) (off n : Nat) : Bool := (blocksOf 64 off n).any fun h => NSet.has p.spoison h

/-- The lines (offset / 128) of an access that stand in the backing, or are not present in a stash (R136, R138). -/
def Party.missing (p : Party) (off n : Nat) : List Nat :=
  (blocksOf 128 off n).filter fun ln =>
    match p.pageAt (ln * 128) with
    | .priv => NSet.has p.backed ln
    | .stash _ _ _ => !(NSet.has p.present ln)
    | .dead _ _ _ => false

/-! ### Ropes of a party -/

/-- Replaces rope `k`. -/
def Party.setRope (p : Party) (k : Nat) (r : Rope) : Party := { p with ropes := p.ropes.set k r }

/-- Changes every entry of every rope. -/
def Party.mapEntries (p : Party) (f : Entry → Entry) : Party :=
  { p with ropes := p.ropes.map fun r => { r with stack := r.stack.map f } }

/-- The slots that wait as `f` says wait no longer, and issue their instruction again. -/
def Party.wake (p : Party) (f : Wait → Bool) : Party :=
  p.mapEntries fun e => if e.wait.any f then { e with wait := none } else e

/-- The wait of the slot at a place of the stack. -/
def Rope.setWait (r : Rope) (pos : Nat) (w : Option Wait) : Rope :=
  { r with stack := r.stack.modify pos fun e => { e with wait := w } }

/-- The slots of a rope that wait on a block or on flags test again (R254, R356). -/
def Rope.unblock (r : Rope) : Rope :=
  { r with stack := r.stack.map fun e => if e.wait = some .block then { e with wait := none } else e }

/-! ### Cairns -/

/-- The word of cairn `i` (R159). -/
def Party.cairnWord (p : Party) (i : Nat) : Nat := leNat (p.sbytes (8 * i) 8)

/-- TARGET, COUNT, GEN and INC of a cairn word (R160). -/
structure Cairn where
  target : Nat
  count : Nat
  gen : Nat
  inc : Nat
deriving DecidableEq, Repr

/-- Reads the fields of a cairn word (R160). -/
def Cairn.ofWord (w : Nat) : Cairn := ⟨fieldOf w 40 24, fieldOf w 16 24, fieldOf w 8 8, fieldOf w 0 8⟩

/-- The cairn word of these fields (R160). -/
def Cairn.word (c : Cairn) : Nat := c.target % 2 ^ 24 * 2 ^ 40 + c.count % 2 ^ 24 * 2 ^ 16 + c.gen % 256 * 2 ^ 8 + c.inc % 256

/-- The generation of cairn `i`. -/
def Party.cairnGen (p : Party) (i : Nat) : Nat := (Cairn.ofWord (p.cairnWord i)).gen

/-- The slots that wait on a cairn whose generation has moved test it again (R179). -/
def Party.wakeCairns (p : Party) : Party :=
  p.wake fun w =>
    match w with
    | .cairn j g => p.cairnGen j != g
    | _ => false

/-- A write of private bytes by a rope or an engine: the bytes, their tags cleared, what the write releases (R141, R144); a write among
the cairn words lets the slots that wait on them test again (R179). -/
def Party.swrite (p : Party) (atom : Bool) (pubs : List Pub) (off : Nat) (bs : List Byte) : Party :=
  let p := (p.setSbytes off bs).clearStags off bs.length
  let p := { p with ssync := syncWrite p.ssync atom pubs off bs.length }
  if off < 2048 then p.wakeCairns else p

/-- A matching arrival of `n` bytes (R161): excess carries into the next phases. -/
def Cairn.arrive (c : Cairn) (n : Nat) : Cairn :=
  if c.target = 0 then { c with gen := (c.gen + 1) % 256 }
  else { c with count := (c.count + n) % c.target, gen := (c.gen + (c.count + n) / c.target) % 256 }

/-- What a cairn's arrivals release. -/
def Party.cairnSync (p : Party) (i : Nat) : CairnSync := SMap.get ⟨Know.none, Know.none⟩ p.cairns i

/-- Writes a cairn word (R160). -/
def Party.setCairn (p : Party) (i : Nat) (c : Cairn) : Party := p.swrite true [] (8 * i) (leBytes 8 c.word)

/-- A matching arrival at cairn `i`, with what it releases (R161, R163). -/
def Party.arriveCairn (p : Party) (i n : Nat) (k : Know) : Party :=
  let c := Cairn.ofWord (p.cairnWord i)
  let c' := c.arrive n
  let sy := p.cairnSync i
  let cur := sy.cur.join k
  let sy' : CairnSync := if c.target = 0 || c.target ≤ c.count + n then ⟨Know.none, sy.done.join cur⟩ else ⟨cur, sy.done⟩
  { p.setCairn i c' with cairns := SMap.set ⟨Know.none, Know.none⟩ p.cairns i sy' }

/-- The check of R159 and R140 on the word of cairn `i`. -/
def Party.cairnCheck (p : Party) (i : Nat) : Option Cause :=
  if p.scratchSize < 8 * i + 8 then some .capBounds
  else match p.pageAt (8 * i) with
    | .priv => none
    | _ => some .capPerm

/-! ### Parties of the state -/

/-- The party with this number. -/
def State.party? (s : State) (uid : Nat) : Option Party := s.parties.find? fun p => p.uid == uid

/-- Replaces the party with the same number. -/
def State.setParty (s : State) (p : Party) : State :=
  { s with parties := s.parties.map fun q => if q.uid = p.uid then p else q }

/-- Changes one party. -/
def State.withParty (s : State) (uid : Nat) (f : Party → Party) : State :=
  { s with parties := s.parties.map fun q => if q.uid = uid then f q else q }

/-- Changes one rope. -/
def State.withRope (s : State) (uid k : Nat) (f : Rope → Rope) : State :=
  s.withParty uid fun p => { p with ropes := p.ropes.modify k f }

/-- Changes a core's record. -/
def State.withCore (s : State) (core : Nat) (f : CoreRec → CoreRec) : State :=
  { s with cores := SMap.set CoreRec.zero s.cores core (f (SMap.get CoreRec.zero s.cores core)) }

/-- Changes a die's record. -/
def State.withDie (s : State) (die : Nat) (f : DieRec → DieRec) : State :=
  { s with dies := SMap.set DieRec.zero s.dies die (f (SMap.get DieRec.zero s.dies die)) }

/-- A core's record. -/
def State.core (s : State) (core : Nat) : CoreRec := SMap.get CoreRec.zero s.cores core

/-- A die's record. -/
def State.die (s : State) (die : Nat) : DieRec := SMap.get DieRec.zero s.dies die

/-- A fresh age stamp of a core (R72). -/
def State.stamp (s : State) (core : Nat) : State × Nat :=
  (s.withCore core fun c => { c with ageCtr := c.ageCtr + 1 }, (s.core core).ageCtr)

/-- A fresh agent number of a die (R309), for an agent of a colour. -/
def State.newAgent (s : State) (die colour : Nat) : State × Nat :=
  let n := die * 2 ^ 30 + (s.die die).agentCtr
  ({ s with agentColour := SMap.set 0 s.agentColour n colour }.withDie die fun d => { d with agentCtr := (d.agentCtr + 1) % 2 ^ 30 }, n)

/-- A fresh job id of a die (R265). -/
def State.newJob (s : State) (die : Nat) : State × Nat :=
  (s.withDie die fun d => { d with jobCtr := (d.jobCtr + 1) % 2 ^ 30 }, die * 2 ^ 30 + (s.die die).jobCtr)

/-- STRAYCNT of a core rises by one and saturates (R162). -/
def State.countStray (s : State) (core : Nat) : State :=
  s.withCore core fun c => { c with stray := if c.stray = 0xFFFFFFFF#32 then c.stray else c.stray + 1 }

end Sys2Proof.Machine
end

