-- ==== Sys2Proof/Machine/Barrier.lean ====
section
/-!
DEFINITION. Named barriers (R152 to R157): scope, arrival, completion of a phase with what it does to the ropes that wait, and the
adjustment when a rope ends.
-/
namespace Sys2Proof.Machine

/-- Barrier `b` of the party, when live. -/
def Party.bar? (p : Party) (b : Nat) : Option BarRec := SMap.get none p.bars b

/-- Sets or retires barrier `b`. -/
def Party.setBar (p : Party) (b : Nat) (r : Option BarRec) : Party := { p with bars := SMap.set none p.bars b r }

/-- The mask of all the party's ropes. -/
def Party.allRopes (p : Party) : Word := BitVec.ofNat 32 (2 ^ p.ropes.length - 1)

/-- Team table entry `t` (R147). -/
def Party.team (p : Party) (t : Nat) : Word := SMap.get 0#32 p.teams t

/-- The ropes of a barrier's scope (R154). -/
def Party.scopeOf (p : Party) (r : BarRec) : Word := if r.psc then p.allRopes else p.team r.team

/-- A barrier bound afresh (R155): phase 0. -/
def BarRec.fresh (psc : Bool) (team expect : Nat) : BarRec :=
  ⟨0, team, psc, expect, 0, 0, .unset, [], 0, Know.none, []⟩

/-- The status word (R154). -/
def barStatus : Option BarRec → Nat
  | none => 0
  | some r => r.phase * 2 ^ 24 + r.team * 2 ^ 16 + 2 ^ 15 + (if r.psc then 2 ^ 14 else 0) + r.expect * 2 ^ 6 + r.arrived

/-- The value that a team-scope `red` delivers: the tree over rope positions, or the identity; whether it was empty; flags
(R168). -/
def redResult (op : RedOp) (ty : RedTy) (v : List (Option Nat)) : Nat × Bool × FFlags :=
  let t := redTree op ty v
  match t.1 with
  | some x => (x, false, t.2)
  | none => (redIdentity op ty, true, t.2)

/-- Writes the result of a `red` to its destination and flag (R168). -/
def Rope.redWrite (r : Rope) (active : Word) (ty : RedTy) (k : Option (BitVec 2)) (d : Dst) (x : Nat × Bool × FFlags) : Rope :=
  let r := match d with
    | .unif d => r.writeUnif (Fx.out ty.wide d x.1)
    | .lane d => (lanesOf active).foldl (fun (r : Rope) l => r.writeLane l (Fx.out ty.wide d x.1)) r
  let r := match k with
    | none => r
    | some k => r.setK k.toNat x.2.1
  r.orFpst (x.2.2 ||| (if x.2.1 then fEmpty else 0))

/-- Moves the entry at a place of the stack on by some bytes, waiting for nothing. -/
def Rope.stepOn (r : Rope) (pos : Nat) (bytes : Nat) : Rope :=
  { r with stack := r.stack.modify pos fun e => { e with pc := e.pc + BitVec.ofNat 48 bytes, wait := none } }

/-- What the arrivals of the completed phases from number `from'` up to the present one released (R157). -/
def BarRec.since (r : BarRec) (from' : Nat) : Know :=
  (List.range ((r.phase + 256 - from' % 256) % 256)).foldl (fun (k : Know) i => k.join (SMap.get Know.none r.done ((from' + i) % 256)))
    Know.none

/-- What the completion of a phase does to one slot of a rope: if it waits on this phase, the instruction completes (R154), and the rope
observes the arrivals of this phase (R157). -/
def Rope.phaseDone (r : Rope) (pos : Nat) (b ph : Nat) (bar : BarRec) : Rope :=
  match r.stack[pos]? with
  | none => r
  | some e =>
    match e.wait with
    | some (.phase b' ph' i own) =>
      if b' = b ∧ ph' = ph then
        let r := r.acquire bar.cur
        match i with
        | .red g op ty _ k d a =>
          let v := (List.range 32).map fun j => (SMap.get none bar.partials j).map BitVec.toNat
          let active := r.activeMask e g
          ((((r.useUp active a (if ty.wide then 2 else 1)).redWrite active ty k d (redResult op ty v)).orFpst own).stepOn pos 8).unblock
        | .drawt _ =>
          let fo := match bar.kind with
            | .drawt f o => (f, o)
            | _ => (0, 0)
          { r.setWait pos none with drawtWait := ⟨e.pc, b, ph, bar.mask, own, fo.1, fo.2⟩ :: r.drawtWait }
        | _ => r.stepOn pos 8
      else r
    | _ => r

/-- Completes the current phase of barrier `b` in one step (R154, R156). -/
def Party.completePhase (p : Party) (b : Nat) : Party :=
  match p.bar? b with
  | none => p
  | some r =>
    let ropes := p.ropes.map fun rp => (List.range rp.stack.length).foldl (fun (q : Rope) pos => q.phaseDone pos b r.phase r) rp
    let r' : BarRec := { r with phase := (r.phase + 1) % 256, arrived := 0, mask := 0, kind := .unset, partials := []
                                expect := r.expect - r.pending, pending := 0
                                cur := Know.none, done := SMap.set Know.none r.done r.phase r.cur }
    { p with ropes := ropes }.setBar b (if r'.expect = 0 then none else some r')

/-- Completes the phase if every expected arrival has come. -/
def Party.checkPhase (p : Party) (b : Nat) : Party :=
  match p.bar? b with
  | none => p
  | some r => if r.arrived = r.expect ∧ r.arrived ≠ 0 then p.completePhase b else p

/-- The check of R155 for an arrival of rope `k`. -/
def Party.arrivalBad (p : Party) (b k : Nat) (kind : BarKind) : Bool :=
  match p.bar? b with
  | none => true
  | some r =>
    !((p.scopeOf r).getLsbD k) || r.mask.getLsbD k || (r.kind != .unset && r.kind != kind)

/-- Rope `k` arrives at barrier `b` (R154, R157); the phase is not yet completed. -/
def Party.arriveBar (p : Party) (b k : Nat) (kind : BarKind) (partialV : Option DWord) (know : Know) : Party :=
  match p.bar? b with
  | none => p
  | some r =>
    p.setBar b (some { r with arrived := r.arrived + 1, mask := withBit r.mask k true, kind := kind
                              partials := SMap.set none r.partials k partialV, cur := r.cur.join know })

/-- A barrier of a party whose rope `k` ends (R156). -/
def Party.ropeEndAt (k : Nat) (p : Party) (b : Nat) : Party :=
  match p.bar? b with
  | none => p
  | some r =>
    if (p.scopeOf r).getLsbD k then
      if r.mask.getLsbD k then p.setBar b (some { r with pending := r.pending + 1 })
      else
        let r' := { r with expect := r.expect - 1 }
        if r'.expect = 0 then p.setBar b none
        else (p.setBar b (some r')).checkPhase b
    else p

/-- Every live barrier of a party whose rope `k` ends is adjusted (R156). -/
def Party.ropeEndBars (p : Party) (k : Nat) : Party := (p.bars.map Prod.fst).foldl (Party.ropeEndAt k) p

end Sys2Proof.Machine
end

