-- ==== Sys2Proof/Machine/Cap.lean ====
section
/-!
DEFINITION. Capabilities (R194, R195) and their checks (R198, R199): fields, permissions, the revocation map, the ordered steps.
-/
namespace Sys2Proof.Machine

/-- BASE (R194). -/
def capBase (c : Quad) : Nat := (c.extractLsb' 0 48).toNat
/-- LENGTH (R194). -/
def capLen (c : Quad) : Nat := (c.extractLsb' 48 40).toNat
/-- PERMS (R194). -/
def capPerms (c : Quad) : Nat := (c.extractLsb' 88 12).toNat
/-- COLOUR (R194). -/
def capColour (c : Quad) : Nat := (c.extractLsb' 100 14).toNat
/-- OTYPE (R194). -/
def capOtype (c : Quad) : Nat := (c.extractLsb' 114 14).toNat

/-- The capability of these fields (R194). -/
def capMake (base len perms colour otype : Nat) : Quad :=
  BitVec.ofNat 14 otype ++ BitVec.ofNat 14 colour ++ BitVec.ofNat 12 perms ++ BitVec.ofNat 40 len ++ BitVec.ofNat 48 base

/-- LD (R195). -/
def pLD : Nat := 0x001
/-- ST -/
def pST : Nat := 0x002
/-- LDCAP -/
def pLDCAP : Nat := 0x004
/-- STCAP -/
def pSTCAP : Nat := 0x008
/-- EXEC -/
def pEXEC : Nat := 0x010
/-- ATOM -/
def pATOM : Nat := 0x020
/-- CMD -/
def pCMD : Nat := 0x040
/-- VIEW -/
def pVIEW : Nat := 0x080
/-- CHECKED -/
def pCHECKED : Nat := 0x100
/-- DELEG -/
def pDELEG : Nat := 0x200
/-- SEAL -/
def pSEAL : Nat := 0x400
/-- GLOBAL -/
def pGLOBAL : Nat := 0x800

/-- Whether a capability holds every permission of a set. -/
def capHas (c : Quad) (perms : Nat) : Bool := Nat.land (capPerms c) perms == perms

/-- Whether an entry names capabilities of a colour with a base (R205). -/
def RevEntry.names (e : RevEntry) (colour base : Nat) : Bool :=
  colour == e.colour &&
    match e.range with
    | none => true
    | some (lo, hi) => decide (lo ≤ base) && decide (base < hi)

/-- Whether a capability matches an entry of the revocation map (R205). -/
def RevEntry.hits (e : RevEntry) (c : Quad) : Bool := e.names (capColour c) (capBase c)

/-- Whether a capability matches any entry of the map. -/
def State.revoked (s : State) (c : Quad) : Bool := s.revMap.any fun e => e.hits c

/-- Whether a capability matches an entry of the pass that runs (R207). -/
def State.sweeping (s : State) (c : Quad) : Bool :=
  s.passRunning && s.revMap.any fun e => e.pass == s.passDone + 1 && e.hits c

/-- The tag with which a capability is written: untagged when the running pass matches it (R207). -/
def State.tagFor (s : State) (c : Quad) (t : Bool) : Bool := t && !(s.sweeping c)

/-- The tag of a granule that a copy engine moves: untagged when it matches the map, whichever pass the entry belongs to, while a pass runs
(R207). -/
def State.engineTag (s : State) (c : Quad) : Bool := !(s.passRunning && s.revoked c)

/-- The first cause of an ordered list of conditions: condition true means the step fails. -/
def firstCause : List (Bool × Cause) → Option Cause
  | [] => none
  | (b, c) :: t => if b then some c else firstCause t

/-- Steps 1 to 4 of R198 on a quad of a rope of this colour. -/
def State.useSteps (s : State) (colour : Nat) (c : Quad) (tag : Bool) : List (Bool × Cause) :=
  [(!tag, .capTag), (capOtype c != 0, .capSealed), (capColour c != colour, .capColour), (s.revoked c, .revoked)]

/-- Steps 5 to 7 of R198 for `z` bytes at an exact offset. -/
def accessSteps (c : Quad) (perms : Nat) (off : Int) (z align : Nat) : List (Bool × Cause) :=
  [(!(capHas c perms), .capPerm),
   (decide (off < 0) || decide ((capLen c : Int) < off + z), .capBounds),
   (((capBase c : Int) + off) % align != 0, .misaligned)]

/-- Steps 1 to 7 of R198. -/
def State.capCheck (s : State) (colour : Nat) (c : Quad) (tag : Bool) (perms : Nat) (off : Int) (z align : Nat) :
    Option Cause := firstCause (s.useSteps colour c tag ++ accessSteps c perms off z align)

/-- The cause that R198 delivers across lanes, each with its cause's step: the earliest, and the lanes that raised it. -/
def earliest (l : List (Nat × Nat × Cause)) : Option (Cause × Word) :=
  match l with
  | [] => none
  | x :: t =>
    let best := t.foldl (fun b y => if y.2.1 < b.2.1 then y else b) x
    some (best.2.2, (x :: t).foldl (fun m y => if y.2.2 = best.2.2 then withBit m y.1 true else m) 0)

/-- The index of the first failing step of a list, with its cause. -/
def firstStep (n : Nat) : List (Bool × Cause) → Option (Nat × Cause)
  | [] => none
  | (b, c) :: t => if b then some (n, c) else firstStep (n + 1) t

/-- Lane by lane checks, each an ordered list of steps: the cause of the earliest step that fails in any lane, with the lanes
that raise that cause (R198). -/
def checkLanes (lanes : List Nat) (steps : Nat → List (Bool × Cause)) : Option (Cause × Word) :=
  earliest (lanes.filterMap fun l => (firstStep 0 (steps l)).map fun x => (l, x.1, x.2))

end Sys2Proof.Machine
end

