-- ==== Sys2Proof/Machine/Ring.lean ====
section
/-!
DEFINITION. Arrivals at cairns (R161, R162) and posts to rings (R275, R276): reserve, write, commit in reservation order, arrival,
interrupt.
-/
namespace Sys2Proof.Machine

/-- The race agent of base camp with its front end: the last count of die 3 (log 21). -/
def baseAgent : Nat := 2 ^ 32 - 1

/-- The race agent of firmware core `n`: the counts before it (log 21). -/
def fwAgent (n : Nat) : Nat := 2 ^ 32 - 2 - n

/-- The release count of an agent of base camp or firmware. -/
def State.devCount (s : State) (agent : Nat) : Nat := SMap.get 0 s.devRel agent

/-- An agent of base camp or firmware publishes what it has written, with what it has itself acquired (R309). -/
def State.publish (s : State) (agent : Nat) (k : Know) : State × Know :=
  ({ s with devRel := SMap.set 0 s.devRel agent (s.devCount agent + 1) }, k.learn agent (s.devCount agent + 1))

/-- The firmware core that acts: the lead (R404). -/
def State.fwAgent (s : State) : Nat := Sys2Proof.Machine.fwAgent (s.fw.lead.getD 0)

/-! ### Arrivals -/

/-- An arrival of `n` bytes at a cairn (R161): a mismatch of INC strays, and with `report` a STRAY record follows for the job
(R162). `k` is the rope that issued the operation. A word in a page that has become a stash page since is updated in the page's private
bytes (log 109). -/
def State.arrive (s : State) (c : CairnRef) (n : Nat) (know : Know) (k job : Nat) (report : Bool) : State :=
  match s.party? c.uid with
  | none => s
  | some p =>
    if (Cairn.ofWord (p.cairnWord c.idx)).inc = c.inc then s.setParty (p.arriveCairn c.idx n know)
    else
      let s := s.countStray c.core
      if report then { s with posts := s.posts ++ [⟨.rope c.uid k, ⟨0x0003, 0, job, n, 0⟩, Know.none, []⟩] } else s

/-! ### Rings -/

/-- Number of slots of a ring (R275). -/
def RingAt.count (r : RingAt) : Nat := 2 ^ fieldOf r.geom 8 8

/-- Slot size of a ring (R275). -/
def RingAt.size (r : RingAt) : Nat := 2 ^ fieldOf r.geom 0 8

/-- The address of slot `k` (R275). -/
def RingAt.slot (r : RingAt) (k : Nat) : Nat := r.slots + k % r.count * r.size

/-- A rope's binding as a ring, for party `uid` (R277); a binding that a pass has cleared acts as none. -/
def RingBind.at (b : RingBind) (uid : Nat) : RingAt :=
  { desc := capBase b.desc
    slots := capBase b.slots
    geom := b.geom.toNat
    cairn := b.cairn.map fun i => ⟨uid, i, b.inc, b.core⟩ }

/-- PROD, CONS and COMMIT of a descriptor. -/
def State.ringProd (s : State) (d : Nat) : Nat := s.num (d + 0x20) 8
/-- CONS -/
def State.ringCons (s : State) (d : Nat) : Nat := s.num (d + 0x28) 8
/-- COMMIT -/
def State.ringCommit (s : State) (d : Nat) : Nat := s.num (d + 0x30) 8

/-- A write of base camp, as any store of the span. -/
def State.devStore (s : State) (a : Nat) (bs : List Byte) : State := s.store (.plain baseAgent (s.devCount baseAgent)) a bs

/-- A write of the firmware core that leads. -/
def State.fwStore (s : State) (a : Nat) (bs : List Byte) : State := s.store (.plain s.fwAgent (s.devCount s.fwAgent)) a bs

/-- A device write of a number. -/
def State.devNum (s : State) (a n v : Nat) : State := s.devStore a (leBytes n v)

/-- DROPS rises by one and saturates (R275). -/
def State.ringDrop (s : State) (d : Nat) : State :=
  s.devNum (d + 0x1C) 4 (min (s.num (d + 0x1C) 4 + 1) (2 ^ 32 - 1))

/-- Whether a ring has a free slot (R275 step 1). -/
def State.ringFree (s : State) (r : RingAt) : Bool := s.ringProd r.desc - s.ringCons r.desc < r.count

/-- Reserves the next slot (R275 step 1). -/
def State.ringReserve (s : State) (r : RingAt) : State × Nat :=
  let k := s.ringProd r.desc
  (s.devNum (r.desc + 0x20) 8 (k + 1), k)

/-- Sends an MSI-X vector of host port 0. -/
def State.sendMsix (s : State) (v : Nat) : State := { s with msix := v :: s.msix }

/-- Nothing pending for an interrupt. -/
def RingInt.zero : RingInt := ⟨0, 0⟩

/-- The interrupt of a ring: the vector is sent and the count returns to zero (R275 step 5). -/
def State.ringInterrupt (s : State) (d : Nat) : State :=
  let s := { s with ringInt := SMap.set RingInt.zero s.ringInt d RingInt.zero }
  if s.num (d + 0x14) 2 = 0xFFFF then s else s.sendMsix (s.num (d + 0x14) 2)

/-- After a commit: the arrival of 32 bytes, which releases what the slot's writer did, then the interrupt by count (R275 steps 4
and 5). -/
def State.ringAfter (s : State) (r : RingDone) : State :=
  let s := match r.cairn with
    | none => s
    | some c => s.arrive c 32 r.know 0 0 false
  if s.num (r.desc + 0x14) 2 = 0xFFFF then s
  else
    let i := SMap.get RingInt.zero s.ringInt r.desc
    let i' : RingInt := ⟨i.count + 1, if i.count = 0 then s.timer else i.oldest⟩
    let s := { s with ringInt := SMap.set RingInt.zero s.ringInt r.desc i' }
    if s.num (r.desc + 0x16) 2 ≤ i'.count then s.ringInterrupt r.desc else s

/-- The 32 bytes of a completion record, with TIME (R276). -/
def Record.bytes32 (x : Record) (time : Nat) : List Byte :=
  leBytes 2 x.status ++ leBytes 1 x.fault ++ leBytes 1 0 ++ leBytes 4 x.job ++ leBytes 8 x.bytes ++ leBytes 8 x.detail
    ++ leBytes 8 time

/-- Writes the record of a slot that is being committed (R275, R276): one that the span does not back fails, as does one whose page has been
lost, and DROPS rises. -/
def State.ringRecord (s : State) (e : RingDone) : State :=
  match e.body with
  | none => if e.failed then s.ringDrop e.desc else s
  | some (a, x) =>
    let ok := s.backedAt a && s.backedAt (a + 31)
    let s := s.devStore a (x.bytes32 s.timer)
    if ok then s else s.ringDrop e.desc

/-- The far pages that the commit of a slot waits for: those of the descriptor and of its record's slot (R283). -/
def State.commitShut (s : State) (e : RingDone) : List Nat :=
  (s.shutPages true e.desc 64 ++ match e.body with
    | none => []
    | some (a, _) => s.shutPages true a 32).eraseDups

/-- Advances COMMIT over the slots that are ready, in reservation order (R275 step 3); each value is published at system scope, and a
later one shows the earlier ones too (R301). At a far page of the ring that is not resident it waits. -/
def State.ringCommits (s : State) (d : Nat) : Nat → State
  | 0 => s
  | fuel + 1 =>
    let k := s.ringCommit d
    match s.ringDone.find? (fun e => e.desc == d && e.k == k) with
    | none => s
    | some e =>
      let shut := s.commitShut e
      if shut ≠ [] then
        let wait (x : RingDone) : RingDone := if x.desc == d && x.k == k then { x with waits := shut } else x
        { s with ringDone := s.ringDone.map wait }.askAll true e.colour shut
      else
      let s := ({ s with ringDone := s.ringDone.filter fun x => !(x.desc == d && x.k == k) }).ringRecord e
      let y := s.publish baseAgent e.know
      let pub : Pub := ⟨.commit, baseAgent, none, .sys, y.2⟩
      let s := y.1.store ⟨baseAgent, s.devCount baseAgent, true, [pub]⟩ (d + 0x30) (leBytes 8 (k + 1))
      (s.ringAfter e).ringCommits d fuel

/-- A slot is ready: it is committed as soon as every earlier one is (R275). -/
def State.ringFinish (s : State) (e : RingDone) : State :=
  let s := { s with ringDone := s.ringDone ++ [e] }
  s.ringCommits e.desc s.ringDone.length

/-- The far pages that a post to a ring waits for: those of the descriptor, then those of the next slot (R283). -/
def State.ringShut (s : State) (r : RingAt) : List Nat :=
  match s.shutPages true r.desc 64 with
  | [] => s.shutPages true (r.slot (s.ringProd r.desc)) 32
  | l => l

/-- Posts a record to a ring (R275, R276), of pages asked for with a colour: a full completion ring drops it and DROPS rises. At a far page
of the ring that is not resident the record waits for RING_POST (log 74). -/
def State.postRecord (s : State) (dest : PostTo) (colour : Nat) (r : RingAt) (x : Record) (know : Know) : State :=
  match s.ringShut r with
  | [] =>
    if s.ringFree r then
      let (s, k) := s.ringReserve r
      s.ringFinish ⟨r.desc, k, r.cairn, know, some (r.slot k, x), colour, [], false⟩
    else s.ringDrop r.desc
  | l =>
    let p : Post := ⟨dest, x, know, l⟩
    { s with posts := s.posts ++ [p] }.askAll true colour l

/-- The ring that a rope has bound, if any, with its party's colour (R276, R277). -/
def State.ropeRing (s : State) (uid k : Nat) : Option (RingAt × Nat) :=
  match s.party? uid with
  | none => none
  | some p => (p.ropes[k]?).bind fun r => r.ring.map fun b => (b.at uid, p.colour)

/-- Posts a record to the ring that a rope has bound; without one the record is dropped (R276). -/
def State.postRope (s : State) (uid k : Nat) (x : Record) (know : Know) : State :=
  match s.ropeRing uid k with
  | none => s
  | some r => s.postRecord (.rope uid k) r.2 r.1 x know

end Sys2Proof.Machine
end

