-- ==== Sys2Proof/Machine/Ops.lean ====
section
/-!
DEFINITION. The operations that meanings share: the issuing rope, cards over lanes, transfers of control (R81), taking a trap (R347),
ending a party (R349) and returning from a handler (R355).
-/
namespace Sys2Proof.Machine

/-! ### The issuing rope -/

/-- The rope and slot whose instruction executes, with the state before it. -/
structure Ctx where
  s : State
  uid : Nat
  k : Nat
  /-- The entry's place in the stack: A on top, B below it (R77). -/
  pos : Nat
  party : Party
  rope : Rope
  entry : Entry

/-- A rope and slot as a meaning sees them. -/
def State.ctxAt (s : State) (uid k pos : Nat) : Option Ctx :=
  match s.party? uid with
  | none => none
  | some p =>
    match p.ropes[k]? with
    | none => none
    | some r =>
      match r.stack[pos]? with
      | none => none
      | some e => some ⟨s, uid, k, pos, p, r, e⟩

/-- The issuing pair of a state, when there is one. -/
def State.ctx? (s : State) : Option Ctx :=
  match s.issuing with
  | none => none
  | some i => s.ctxAt i.uid i.rope i.pos

/-- Runs a meaning on the issuing pair. -/
def State.issue (s : State) (f : Ctx → State) : Out :=
  match s.ctx? with
  | none => .fault .noIssuer
  | some c => .next (f c)

/-- The state with a new value of the issuing rope. -/
def Ctx.put (c : Ctx) (r : Rope) : State := c.s.setParty (c.party.setRope c.k r)

/-- The state with a new value of the issuing rope's party, the rope in it included. -/
def Ctx.putParty (c : Ctx) (p : Party) : State := c.s.setParty p

/-- The instruction completes in the issuing slot: the rope as given, the PC past it. -/
def Ctx.done (c : Ctx) (r : Rope) (bytes : Nat) : State := c.put (r.stepOn c.pos bytes)

/-- The instruction waits in its slot, without effect. -/
def Ctx.wait (c : Ctx) (w : Wait) : State := c.put (c.rope.setWait c.pos (some w))

/-- The active lanes under a guard (R24). -/
def Ctx.active (c : Ctx) (g : Guard) : Word := c.rope.activeMask c.entry g

/-- The lowest lane of the issuing slot's mask. -/
def Ctx.lowLive (c : Ctx) : Nat := lowLane c.entry.mask

/-- What a card sees, for the lanes of a mask. -/
def Ctx.env (c : Ctx) (active : Word) : Env where
  rope := c.rope
  lane := none
  ropeNo := c.k
  party := c.party.index
  core := c.party.core
  die := dieOf c.party.core
  allot := c.party.regs
  clock := (c.s.core c.party.core).clock
  live := c.entry.mask
  active := active

/-- Executes a card of some bytes (R107). -/
def State.runCard (s : State) (bytes : Nat) (c : Card) : Out :=
  s.issue fun x => x.done (c.apply (x.env (x.active c.g))) bytes

/-- Where the issuing rope stands (R299). -/
def Ctx.home (c : Ctx) : Home := ⟨c.uid, dieOf c.party.core⟩

/-- Whether an answer is one to the issuing slot's instruction. -/
def Ctx.mine (c : Ctx) (d : PeerData) : Bool := d.pc == c.entry.pc && c.entry.mask.getLsbD (d.key % 32)

/-- The instruction has replayed: pages reported lost to it are no longer so (R286). -/
def Ctx.clearLost (c : Ctx) : Ctx :=
  { c with rope := { c.rope with lostPages := c.rope.lostPages.filter fun x => x.1 != c.entry.pc } }

/-! ### Traps -/

/-- The rope without what its issuing instruction has gathered: the answers of peers, the pages reported lost to it, the cairn that it
captured (R286, R344). -/
def Ctx.over (c : Ctx) : Rope :=
  { c.clearLost.rope with
    peerData := c.rope.peerData.filter fun d => !(c.mine d)
    capt := c.rope.capt.filter fun x => x.1 != c.entry.pc }

/-- One of a record's parties has ended; the record leaves the table with its last (R326). -/
def Launch.partyEnded (x : Launch) (record : Nat) : Launch :=
  { x with records := (x.records.map fun r => if r.id = record then { r with live := r.live - 1 } else r).filter fun r =>
      r.held || decide (r.next < r.hi) || r.back != [] || decide (0 < r.live) }

/-- Every rope of a party has ended. -/
def State.partyOver (s : State) (p : Party) : State :=
  { s with launches := s.launches.map fun x => if x.id = p.launch then x.partyEnded p.record else x }

/-- Ends a party (R349): its ropes end, a record goes to the faulting rope's ring, its jobs run on. -/
def State.endParty (s : State) (uid k : Nat) (nested byTret : Bool) (code : Nat) : State :=
  match s.party? uid with
  | none => s
  | some p =>
    let tpc := match p.ropes[k]? with
      | none => 0
      | some r => r.tpc.toNat
    let detail := tpc * 2 ^ 16 + (if nested then 2 ^ 9 else 0) + (if byTret then 2 ^ 8 else 0) + code
    let s := (s.postRope uid k ⟨0x0007, 0, 0, 0, detail⟩ Know.none).partyOver p
    s.withParty uid fun p =>
      { p with status := .ended, killed := true
               ropes := p.ropes.map fun r => { r with ended := true, stack := [], park := none } }

/-- Takes a trap: the one entry of R347 for every cause but RETIRED_OPCODE. `tmask` holds the lanes that raised the cause. The
instruction is over: what peers have answered it, and the pages reported lost to it, are dropped (R286, R344). -/
def Ctx.trapWith (c : Ctx) (gang : Bool) (cause : Cause) (tmask : Word) (tinfo : Nat) : State :=
  let r := c.over
  let code := cause.code + (if c.pos ≠ 0 then 2 ^ 8 else 0) + (if gang then 2 ^ 9 else 0)
  let r := { r with tpc := c.entry.pc, tcause := BitVec.ofNat 32 code, tmask := tmask, tinfo := BitVec.ofNat 64 tinfo }
  if r.hm then (c.put r).endParty c.uid c.k true false cause.code
  else if r.trapvec = 0 then (c.put r).endParty c.uid c.k false false cause.code
  else if r.stack.length = c.party.capacity then (c.put r).endParty c.uid c.k true false Cause.controlStack.code
  else
    c.put { (r.setWait c.pos none) with
      hdepth := r.stack.length, hm := true
      stack := Entry.mk' .side true 0 r.trapvec c.entry.mask :: (r.setWait c.pos none).stack }

/-- The return from a handler (R355): the handler's entry leaves the stack, HM clears, and the frozen entry of the trapping slot goes
on at an address. -/
def Ctx.returnTo (c : Ctx) (pc : BitVec 48) : State :=
  let r := c.rope
  let e := if r.tcause.getLsbD 8 then 1 else 0
  c.put { r with hm := false, stack := (r.stack.eraseIdx c.pos).modify e fun e => { e with pc := pc, wait := none } }

/-- Takes a trap that one rope's instruction raised. -/
def Ctx.trap (c : Ctx) (cause : Cause) (tmask : Word) (tinfo : Nat) : State := c.trapWith false cause tmask tinfo

/-- Takes a trap whose TINFO the spec leaves open: the cause shows an offset and the card forms none (R345, log 24). -/
def Ctx.trapFree (c : Ctx) (cause : Cause) (tmask : Word) : State :=
  { c with s := { c.s with fresh := c.s.fresh + 1 } }.trap cause tmask (Config.freeBits c.s.fresh).toNat

/-- ILLEGAL_ENCODING raised by an executing instruction: every live lane, TINFO its bits [63:0] (R345). -/
def Ctx.illegal (c : Ctx) (i : Instr) : State :=
  c.trap .illegalEncoding c.entry.mask (encodeBits i % 2 ^ 64)

/-- CONTROL_STACK, raised by the slot as a whole: every live lane, TINFO `%cdepth` (R345, log 22). -/
def Ctx.controlStack (c : Ctx) : State := c.trap .controlStack c.entry.mask c.rope.stack.length

/-! ### Transfers of control -/

/-- One step of the path-choice LFSR (R80). -/
def lfsrStep (x : Word) : Word :=
  let fb := x.getLsbD 31 ^^ x.getLsbD 21 ^^ x.getLsbD 1 ^^ x.getLsbD 0
  (x <<< 1) ||| (if fb then 1 else 0)

/-- The reconvergence point of an entry, or none. -/
def Entry.point (e : Entry) : Option (BitVec 48) := if e.noRpc then none else some e.rpc

/-- An entry with a reconvergence point or none. -/
def Entry.at (kind : EntryKind) (rpc : Option (BitVec 48)) (pc : BitVec 48) (mask : Word) : Entry :=
  match rpc with
  | none => Entry.mk' kind true 0 pc mask
  | some p => Entry.mk' kind false p pc mask

/-- A stack with the entry at `pos` replaced by some entries, the first highest. -/
def replaceAt (st : List Entry) (pos : Nat) (new : List Entry) : List Entry := st.take pos ++ new ++ st.drop (pos + 1)

/-- The transfer procedure (R81): none where it raises CONTROL_STACK, and nothing has changed. -/
def Rope.transfer (r : Rope) (pos : Nat) (capacity : Nat) (e : Entry) (groups : List (BitVec 48 × Word))
    (point : Option (BitVec 48)) (opens : Bool) : Option Rope :=
  if groups.length = 1 ∧ opens = false then
    let pc := (groups.headD (e.pc, 0)).1
    some { r with stack := r.stack.modify (pos) fun e => { e with pc := pc, wait := none } }
  else
    let join : List Entry := if point = e.point then [] else [Entry.at .join e.point (point.getD 0) e.mask]
    let sides := groups.filter fun g => some g.1 != point
    if capacity < r.stack.length - 1 + join.length + sides.length then none
    else
      let diverges := decide (2 ≤ groups.length)
      let lfsr := if diverges then lfsrStep r.lfsr else r.lfsr
      let sides := if diverges && !(lfsr.getLsbD 0) then sides.reverse else sides
      let new := sides.map (fun g => Entry.at .side point g.1 g.2) ++ join
      some { r with lfsr := lfsr, stack := replaceAt r.stack (pos) new }

/-- The groups of an indirect transfer: one per distinct target, by lowest lane (R86). -/
def groupTargets (f : Nat → BitVec 48) : List Nat → List (BitVec 48 × Word)
  | [] => []
  | l :: t =>
    let g := groupTargets f t
    match g.find? (fun x => x.1 == f l) with
    | none => (f l, withBit 0 l true) :: g
    | some x => (f l, withBit x.2 l true) :: g.filter fun y => y.1 != f l

/-- One pair per distinct target, in the order of the first with it (R81, log 23). -/
def mergeGroups : List (BitVec 48 × Word) → List (BitVec 48 × Word)
  | [] => []
  | g :: t =>
    (g.1, t.foldl (fun m x => if x.1 = g.1 then m ||| x.2 else m) g.2) :: (mergeGroups t).filter fun x => x.1 != g.1

/-- A transfer by the issuing slot, after which `f` changes the rope (a link); CONTROL_STACK where there is no room (R78). -/
def Ctx.go (c : Ctx) (groups : List (BitVec 48 × Word)) (point : Option (BitVec 48)) (opens : Bool)
    (f : Rope → Rope) : State :=
  match c.rope.transfer c.pos c.party.capacity c.entry (mergeGroups groups) point opens with
  | none => c.controlStack
  | some r => c.put (f r)

/-! ### The end of a rope -/

/-- A rope whose stack is empty ends (R83): its barriers are adjusted (R156); with the last one the party's ropes have ended. -/
def State.endRope (s : State) (uid k : Nat) : State :=
  match s.party? uid with
  | none => s
  | some p =>
    let p := ({ p with ropes := p.ropes.modify k fun r => { r with ended := true } }).ropeEndBars k
    if p.ropes.all (fun r => r.ended) then (s.setParty { p with status := .ended }).partyOver p else s.setParty p

/-- Drops the entries whose mask is empty. -/
def dropEmpty (st : List Entry) : List Entry := st.filter fun e => e.mask != 0

/-- Removes lanes from the masks of entries. -/
def stripMask (m : Word) (st : List Entry) : List Entry := st.map fun e => { e with mask := e.mask &&& ~~~m }

/-- The number of entries that may issue: all, or in a handler those above HDEPTH (R348). -/
def Rope.issuable (r : Rope) : Nat := if r.hm then r.stack.length - r.hdepth else r.stack.length

/-- Whether the top two entries are sides of one region, so that slot B may issue (R77); `n` entries may issue. -/
def slotBOk (n : Nat) : List Entry → Bool
  | a :: b :: _ => decide (2 ≤ n) && a.kind == .side && b.kind == .side && a.noRpc == b.noRpc && a.rpc == b.rpc
  | _ => false

/-- Whether a slot is eligible for issue (R77, R348). -/
def Rope.eligible (r : Rope) (pos : Nat) : Bool :=
  match pos with
  | 0 => decide (1 ≤ r.issuable) && !r.stack.isEmpty
  | 1 => slotBOk r.issuable r.stack
  | _ => false

/-- Whether an entry stands at its reconvergence point (R79). -/
def Entry.atPoint (e : Entry) : Bool := !e.noRpc && e.pc == e.rpc

/-- Whether a slot's entry neither sleeps nor waits. -/
def Entry.free (e : Entry) : Bool := e.wait.isNone && (e.rest.isNone || e.rest == some 0)

/-- Before a slot issues: while its entry is awake and stands at its reconvergence point, the entry leaves the stack (R79). -/
def Rope.popPoints (pos : Nat) : Nat → Rope → Rope
  | 0, r => r
  | n + 1, r =>
    if r.eligible pos then
      match r.stack[pos]? with
      | some e => if e.atPoint && e.free then Rope.popPoints pos n { r with stack := r.stack.eraseIdx (pos) } else r
      | none => r
    else r

/-- Before the pipe chooses: both slots of a rope that may issue are rid of the entries at their reconvergence points (R79). -/
def Rope.settlePoints (r : Rope) : Rope :=
  if r.ended || r.park.isSome then r else (r.popPoints 0 r.stack.length).popPoints 1 r.stack.length

end Sys2Proof.Machine
end

