-- ==== Sys2Proof/Machine/Lanes.lean ====
section
/-!
DEFINITION. Cross-lane work inside one rope (R165 to R172): every active lane is read before any lane is written, and a uniform or
flag destination is written once, active lanes or none.
-/
namespace Sys2Proof.Machine

/-! ### Shared pieces -/

/-- The lanes of a mask in which a test holds, as a mask. -/
def maskWhere (m : Word) (f : Nat → Bool) : Word := (lanesOf m).foldl (fun w l => withBit w l (f l)) 0

/-- Writes what a card gives each lane of a mask. -/
def Rope.writeEach (p : Rope) (m : Word) (f : Nat → Fx) : Rope := (lanesOf m).foldl (fun (p : Rope) l => p.writeLane l (f l)) p

/-- Raises EMPTY when no lane is active (R151). -/
def Rope.flagEmpty (p : Rope) (active : Word) : Rope := if active = 0 then p.orFpst fEmpty else p

/-- The active lanes whose predicate, negated with NA, is true (R165, R166). -/
def Rope.truths (p : Rope) (active : Word) (na : Bool) (a : BitVec 8) : Word :=
  maskWhere active fun l => xor na (p.p a.toNat l)

/-- The source of a lane, 32 bits or 64 with W. -/
def Rope.laneVal (p : Rope) (w : Bool) (l : Nat) (r : BitVec 8) : Nat :=
  if w then (p.x64 l r.toNat).toNat else (p.x l r.toNat).toNat

/-- What positions hold: the source of an active lane, else nothing (R168). -/
def Rope.positions (p : Rope) (active : Word) (w : Bool) (a : BitVec 8) : List (Option Nat) :=
  (List.range 32).map fun l => if active.getLsbD l then some (p.laneVal w l a) else none

/-! ### vote and ballot -/

/-- The test of `vote` on the number `t` of true lanes among `n` (R165). -/
def voteHolds (test : VoteTest) (k t n : Nat) : Bool :=
  match test with
  | .ge => decide (k ≤ t)
  | .le => decide (t ≤ k)
  | .maj => decide (n < 2 * t)
  | .agree => t == 0 || t == n

/-- `vote` on a rope (R165). -/
def Rope.vote (p : Rope) (active : Word) (test : VoteTest) (fd na : Bool) (k : BitVec 6) (d a : BitVec 8) : Rope :=
  let r := voteHolds test k.toNat (popMask (p.truths active na a)) (popMask active)
  let q := p.flagEmpty active
  if fd then q.setK d.toNat r else q.writeEach active fun _ => { preds := [(d.toNat, r)] }

/-- `vote` (R165). -/
def execVote (g : Guard) (test : VoteTest) (fd na : Bool) (k : BitVec 6) (d a : BitVec 8) (s : State) : Out :=
  s.issue fun c => c.done (c.rope.vote (c.active g) test fd na k d a) 8

/-- What `ballot` gives lane `l`, from the mask of true lanes (R166). -/
def ballotValue (mode : BallotMode) (m : Word) (l : Nat) : Nat :=
  match mode with
  | .mask => m.toNat
  | .count => popMask m
  | .rank => popMask (m &&& BitVec.ofNat 32 (2 ^ l - 1))

/-- `ballot` on a rope (R166). -/
def Rope.ballot (p : Rope) (active : Word) (mode : BallotMode) (na : Bool) (d : Dst) (a : BitVec 8) : Rope :=
  let m := p.truths active na a
  let q := p.flagEmpty active
  match d with
  | .unif d => q.setS d.toNat (BitVec.ofNat 32 (ballotValue mode m 0))
  | .lane d => q.writeEach active fun l => Fx.word d (ballotValue mode m l)

/-- `ballot` (R166). -/
def execBallot (g : Guard) (mode : BallotMode) (na : Bool) (d : Dst) (a : BitVec 8) (s : State) : Out :=
  s.issue fun c => c.done (c.rope.ballot (c.active g) mode na d a) 8

/-! ### shfl -/

/-- Lanes of a segment (R167). -/
def segWidth : Seg → Nat
  | .w32 => 32 | .w16 => 16 | .w8 => 8 | .w4 => 4 | .w2 => 2

/-- The source lane of lane `l`, with operand `b`, in segments of `w` lanes (R167). -/
def shflLane (mode : ShflMode) (w b l : Nat) : Nat :=
  let i := l % w
  let base := l - i
  match mode with
  | .from => base + b % 256 % w
  | .rot => base + (((i : Int) - ((b % 256 : Nat) : Int)) % (w : Int)).toNat
  | .rev => base + (w - 1 - i)
  | .swz => base + Nat.xor (Nat.lor (Nat.land i (b % 32)) (fieldOf b 5 5)) (fieldOf b 10 5) % w

/-- The operand b of `shfl` in a lane (R167). -/
def Rope.shflB (p : Rope) (b : ShflSrc) (l : Nat) : Nat :=
  match b with
  | .imm i => i.toNat
  | .unif r => (p.s r.toNat).toNat
  | .reg s => (p.x l s.r.toNat).toNat

/-- The registers of the B operand that a last-use hint poisons. -/
def shflUsed : ShflSrc → List (RSrc × Nat)
  | .reg s => [(s, 1)]
  | _ => []

/-- `shfl` on a rope (R167). -/
def Rope.shfl (p : Rope) (active : Word) (o : ShflOp) : Rope :=
  let src (l : Nat) : Nat := shflLane o.mode (segWidth o.seg) (p.shflB o.b l) l
  let q := p.useAll active ((o.a, width o.w) :: shflUsed o.b)
  q.writeEach active fun l =>
    let ok := active.getLsbD (src l)
    { Fx.out o.w o.d (p.laneVal o.w (if ok then src l else l) o.a.r) with
      preds := match o.cv with
        | none => []
        | some c => [(c.toNat, ok)] }

/-- `shfl` (R167). -/
def execShfl (o : ShflOp) (s : State) : Out := s.issue fun c => c.done (c.rope.shfl (c.active o.g) o) 12

/-! ### red and scan -/

/-- `red` within the rope (R168). -/
def Rope.red (p : Rope) (active : Word) (op : RedOp) (ty : RedTy) (k : Option (BitVec 2)) (d : Dst) (a : RSrc) : Rope :=
  (p.useUp active a (width ty.wide)).redWrite active ty k d (redResult op ty (p.positions active ty.wide a.r))

/-- The trap BARRIER_MISUSE of a barrier (R155, R345), its TMASK every live lane of the slot (log 22). -/
def Ctx.misuse (c : Ctx) (b : Nat) : State := c.trap .barrierMisuse c.entry.mask b

/-- An arrival by the issuing rope after which the slot waits for the phase, which this arrival may complete (R154): `r` is the rope
with what the instruction does at its arrival, `own` the flags of the rope's own tree. -/
def Ctx.arriveWait (c : Ctx) (r : Rope) (b : Nat) (kind : BarKind) (v : Option DWord) (i : Instr) (own : FFlags) : State :=
  match c.party.bar? b with
  | none => c.misuse b
  | some bar =>
    let x := r.release
    let rope := x.1.setWait c.pos (some (.phase b bar.phase i own))
    let p := (c.party.setRope c.k rope).arriveBar b c.k kind v x.2
    c.putParty (p.checkPhase b)

/-- `red` over a team (R168): the arrival carries the rope's partial, and the rope receives its own tree's flags with it. -/
def Ctx.redTeam (c : Ctx) (g : Guard) (op : RedOp) (ty : RedTy) (b : Nat) (k : Option (BitVec 2)) (d : Dst) (a : RSrc) : State :=
  let kind := BarKind.red op ty
  if c.party.arrivalBad b c.k kind then c.misuse b
  else
    let active := c.active g
    let t := redTree op ty (c.rope.positions active ty.wide a.r)
    c.arriveWait c.rope b kind (t.1.map (BitVec.ofNat 64)) (.red g op ty (some (BitVec.ofNat 8 b)) k d a) t.2

/-- `red` (R168). -/
def execRed (g : Guard) (op : RedOp) (ty : RedTy) (bar : Option (BitVec 8)) (k : Option (BitVec 2)) (d : Dst) (a : RSrc)
    (s : State) : Out :=
  s.issue fun c =>
    match bar with
    | none => c.done (c.rope.red (c.active g) op ty k d a) 8
    | some b => c.redTeam g op ty b.toNat k d a

/-- The positions of a prefix: those below lane `l`, and lane `l` itself unless EX (R169). -/
def prefixOf (l : Nat) (ex : Bool) (v : List (Option Nat)) : List (Option Nat) :=
  v.mapIdx fun j x => if j < l || (j == l && !ex) then x else none

/-- `scan` on a rope (R169). A prefix without contributions raises EMPTY only when no lane is active, as R169's text has it (log 115). -/
def Rope.scan (p : Rope) (active : Word) (op : RedOp) (ty : RedTy) (ex : Bool) (k : Option (BitVec 2)) (d : BitVec 8) (a : RSrc) :
    Rope :=
  let p' := match k with
    | none => p
    | some k => p.setK k.toNat (active == 0)
  if active = 0 then p'.orFpst fEmpty
  else
    let v := p.positions active ty.wide a.r
    let res (l : Nat) : Nat × FFlags :=
      let t := redTree op ty (prefixOf l ex v)
      (t.1.getD (redIdentity op ty), t.2)
    ((p'.useUp active a (width ty.wide)).writeEach active fun l => Fx.out ty.wide d (res l).1).orFpst
      ((lanesOf active).foldl (fun f l => f ||| (res l).2) 0)

/-- `scan` (R169). -/
def execScan (g : Guard) (op : RedOp) (ty : RedTy) (ex : Bool) (k : Option (BitVec 2)) (d : BitVec 8) (a : RSrc) (s : State) :
    Out := s.issue fun c => c.done (c.rope.scan (c.active g) op ty ex k d a) 8

/-! ### match, elect, tmask -/

/-- `match` on a rope (R170). -/
def Rope.matchLanes (p : Rope) (active : Word) (w : Bool) (mode : MatchMode) (d : BitVec 8) (a : RSrc) : Rope :=
  let grp (l : Nat) : Word := maskWhere active fun j => p.laneVal w j a.r == p.laneVal w l a.r
  (p.useUp active a (width w)).writeEach active fun l =>
    Fx.word d (match mode with
      | .grp => (grp l).toNat
      | .lead => lowLane (grp l)
      | .cnt => popMask (grp l))

/-- `match` (R170). -/
def execMatchLanes (g : Guard) (w : Bool) (mode : MatchMode) (d : BitVec 8) (a : RSrc) (s : State) : Out :=
  s.issue fun c => c.done (c.rope.matchLanes (c.active g) w mode d a) 8

/-- The lane that `elect` chooses among active lanes, the lowest first in the list (R171). -/
def electLane (p : Rope) (mode : ElectMode) (lanes : List Nat) : Nat :=
  match mode with
  | .low => lanes.headD 0
  | .high => lanes.getLastD 0
  | .from a =>
    match lanes.find? fun l => decide ((p.s a.toNat).toNat % 32 ≤ l) with
    | some l => l
    | none => lanes.headD 0

/-- `elect` on a rope (R171). -/
def Rope.elect (p : Rope) (active : Word) (mode : ElectMode) (su : Option (BitVec 8)) (d : BitVec 8) : Rope :=
  let put (q : Rope) (v : Nat) : Rope := match su with
    | none => q
    | some b => q.setS b.toNat (BitVec.ofNat 32 v)
  if active = 0 then put p 0xFFFFFFFF
  else
    let e := electLane p mode (lanesOf active)
    put (p.writeEach active fun l => { preds := [(d.toNat, l == e)] }) e

/-- `elect` (R171). -/
def execElect (g : Guard) (mode : ElectMode) (su : Option (BitVec 8)) (d : BitVec 8) (s : State) : Out :=
  s.issue fun c => c.done (c.rope.elect (c.active g) mode su d) 8

/-- An 8-bit immediate, or the low byte of a uniform (R172 to R180). -/
def isrcVal (p : Rope) : ISrc → Nat
  | .imm i => i.toNat
  | .unif r => (p.s r.toNat).toNat % 256

/-- `tmask` (R172). -/
def execTmask (_g : Guard) (src : ISrc) (d : BitVec 8) (s : State) : Out :=
  s.issue fun c => c.done (c.rope.setS d.toNat (c.party.team (isrcVal c.rope src))) 8

end Sys2Proof.Machine
end

