-- ==== Sys2Proof/Machine/Barriers.lean ====
section
/-!
DEFINITION. The barrier and cairn cards (R173 to R180). Each acts once for the rope, whatever its lanes.
-/
namespace Sys2Proof.Machine

/-! ### Barriers -/

/-- Barrier records in use on a core (R152): those of the parties that hold resources there. -/
def State.barRecords (s : State) (core : Nat) : Nat :=
  (s.parties.map fun p =>
    match p.status with
    | .saved _ => 0
    | _ => if p.core = core then p.bars.length else 0).foldl (· + ·) 0

/-- The count of `barinit` (R174). -/
def countVal (p : Rope) : CountSrc → Nat
  | .imm i => i.toNat
  | .unif r => (p.s r.toNat).toNat

/-- The mask of the scope that `barinit` names: a team, or the party (R174). -/
def Party.initScope (p : Party) (team : Option (BitVec 8)) : Word :=
  match team with
  | none => p.allRopes
  | some t => p.team t.toNat

/-- The conditions under which `barinit` is misuse (R155, R174). -/
def Party.barinitBad (p : Party) (b n : Nat) (team : Option (BitVec 8)) : Bool :=
  ((p.bar? b).any fun r => r.arrived != 0) || decide (32 < n) ||
    (n != 0 && (p.initScope team == 0 || decide (popMask (p.initScope team) < n)))

/-- What barrier `b` becomes under `barinit` with a count from 1 to 32: PHASE stands when it was live (R155). -/
def BarRec.bound (old : Option BarRec) (psc : Bool) (team n : Nat) : BarRec :=
  match old with
  | none => BarRec.fresh psc team n
  | some r => { r with psc := psc, team := team, expect := n }

/-- `barinit` (R174). -/
def execBarinit (bar : BitVec 7) (count : CountSrc) (team : Option (BitVec 8)) (s : State) : Out :=
  s.issue fun c =>
    let b := bar.toNat
    let n := countVal c.rope count
    let old := c.party.bar? b
    if c.party.barinitBad b n team then c.misuse b
    else if n = 0 then (c.done c.rope 8).withParty c.uid fun p => p.setBar b none
    else if old = none ∧ 96 ≤ c.s.barRecords c.party.core then c.wait (.barRecord c.s.timer)
    else
      let t := team.elim 0 BitVec.toNat
      (c.done c.rope 8).withParty c.uid fun p => p.setBar b (some (BarRec.bound old team.isNone t n))

/-- Writes the phase number at an arrival, when the card names a destination (R175). -/
def Rope.putPhase (p : Rope) (pd : Option (BitVec 8)) (ph : Nat) : Rope :=
  match pd with
  | none => p
  | some d => p.setS d.toNat (BitVec.ofNat 32 ph)

/-- `barrive` (R175). -/
def execBarrive (bar : BitVec 7) (pd : Option (BitVec 8)) (s : State) : Out :=
  s.issue fun c =>
    let b := bar.toNat
    if c.party.arrivalBad b c.k .plain then c.misuse b
    else
      match c.party.bar? b with
      | none => c.misuse b
      | some r =>
        let x := (c.rope.putPhase pd r.phase).release
        let p := (c.party.setRope c.k (x.1.stepOn c.pos 8)).arriveBar b c.k .plain none x.2
        c.putParty (p.checkPhase b)

/-- `barwait` (R175). -/
def execBarwait (bar : BitVec 7) (pd : Option (BitVec 8)) (s : State) : Out :=
  s.issue fun c =>
    let b := bar.toNat
    if c.party.arrivalBad b c.k .plain then c.misuse b
    else
      let ph := (c.party.bar? b).elim 0 BarRec.phase
      c.arriveWait (c.rope.putPhase pd ph) b .plain none (.barwait bar pd) 0

/-- `bartest` (R176): a changed PHASE is an observation (R157). -/
def execBartest (bar : BitVec 7) (form : BartestForm) (s : State) : Out :=
  s.issue fun c =>
    let b := bar.toNat
    match form with
    | .status d => c.done (c.rope.setS d.toNat (BitVec.ofNat 32 (barStatus (c.party.bar? b)))) 8
    | .flag k a =>
      match c.party.bar? b with
      | none => c.misuse b
      | some r =>
        let from' := (c.rope.s a.toNat).toNat % 256
        let changed := r.phase != from'
        c.done ((if changed then c.rope.acquire (r.since from') else c.rope).setK k.toNat changed) 8

/-! ### Cairns -/

/-- A trap of a cairn card: TINFO is the offset of the word (R159, R345). -/
def Ctx.cairnTrap (c : Ctx) (cause : Cause) (i : Nat) : State := c.trap cause c.entry.mask (8 * i)

/-- Runs a cairn card on cairn `i` after the checks of R159; a word that stands in the backing is filled first (R136). -/
def Ctx.onCairn (c : Ctx) (i : Nat) (f : State) : State :=
  match c.party.cairnCheck i with
  | some cause => c.cairnTrap cause i
  | none =>
    match c.party.missing (8 * i) 8 with
    | ln :: _ => c.wait (.refill ln)
    | [] => f

/-- The target of `cinit` (R177). -/
def targetVal (p : Rope) : TargetSrc → Nat
  | .imm t => t.toNat
  | .unif r => (p.s r.toNat).toNat % 2 ^ 24

/-- The word of a cairn after `cinit` (R177). -/
def Cairn.init (c : Cairn) (target : Nat) : Cairn := ⟨target, 0, c.gen, (c.inc + 1) % 256⟩

/-- What a fresh incarnation of a cairn leaves to acquire: arrivals of the phase begun before it are dropped. -/
def Party.cairnReset (p : Party) (i : Nat) : Party :=
  { p with cairns := SMap.set ⟨Know.none, Know.none⟩ p.cairns i ⟨Know.none, (p.cairnSync i).done⟩ }

/-- `cinit` (R177). -/
def execCinit (i : ISrc) (target : TargetSrc) (s : State) : Out :=
  s.issue fun c =>
    let n := isrcVal c.rope i
    c.onCairn n <|
      (c.done c.rope 12).withParty c.uid fun p =>
        (p.setCairn n ((Cairn.ofWord (p.cairnWord n)).init (targetVal c.rope target))).cairnReset n

/-- The byte count of `carrive` (R178). -/
def nVal (p : Rope) : NSrc → Nat
  | .imm n => n.toNat
  | .unif r => (p.s r.toNat).toNat % 2 ^ 24

/-- `carrive` (R178): one arrival with the word's current INC, and a release (R163). -/
def execCarrive (i : ISrc) (n : NSrc) (s : State) : Out :=
  s.issue fun c =>
    let ci := isrcVal c.rope i
    c.onCairn ci <|
      let x := c.rope.release
      (c.done x.1 8).withParty c.uid fun p => p.arriveCairn ci (nVal c.rope n) x.2

/-- Runs `cwait` or `ctest` on cairn `i`: a poisoned word traps (R179, R136). -/
def Ctx.readCairn (c : Ctx) (i : Nat) (f : State) : State :=
  c.onCairn i (if c.party.spoisoned (8 * i) 8 then c.cairnTrap .poisonConsumed i else f)

/-- `cwait` (R179): sleeps until GEN leaves g; its return is an observation (R163). -/
def execCwait (i gen : ISrc) (s : State) : Out :=
  s.issue fun c =>
    let ci := isrcVal c.rope i
    let g := isrcVal c.rope gen
    c.readCairn ci <|
      if c.party.cairnGen ci = g then c.wait (.cairn ci g)
      else c.done (c.rope.acquire (c.party.cairnSync ci).done) 8

/-- `ctest` (R180). -/
def execCtest (k : BitVec 8) (i gen : ISrc) (s : State) : Out :=
  s.issue fun c =>
    let ci := isrcVal c.rope i
    let changed := c.party.cairnGen ci != isrcVal c.rope gen
    c.readCairn ci <|
      c.done ((if changed then c.rope.acquire (c.party.cairnSync ci).done else c.rope).setK k.toNat changed) 8

end Sys2Proof.Machine
end

