-- ==== Sys2Proof/Machine/Span.lean ====
section
/-!
DEFINITION. Access to the span by a rope (R224): the gate that every access passes after its checks (residency, copy-on-write, RACE,
POISON_CONSUMED, peers), parking (R284), and the bytes read and written behind it.
-/
namespace Sys2Proof.Machine

/-- One access of one lane to the span. A card that acts once for the rope on two ranges numbers the second 32 + lane. -/
structure Acc where
  key : Nat
  /-- The exact offset, for TINFO (R345). -/
  off : Int
  addr : Nat
  n : Nat
  /-- The capability holds CHECKED. -/
  checked : Bool
deriving DecidableEq, Repr

/-- The lane of an access. -/
def Acc.lane (a : Acc) : Nat := a.key % 32

/-- The base of the capability of an access. -/
def Acc.base (a : Acc) : Nat := ((a.addr : Int) - a.off).toNat

/-- Whether an access lies in a peer window (R216). -/
def Acc.peer (a : Acc) : Bool := isPeer a.addr

/-- The lanes of some accesses. -/
def accMask (l : List Acc) : Word := l.foldl (fun m a => withBit m a.lane true) 0

/-- A cause with the lanes that raised it; TINFO is the offset of the lowest of them (R345). -/
def Ctx.trapOff (c : Ctx) (cause : Cause) (m : Word) (off : Nat → Int) : State :=
  c.trap cause m ((off (lowLane m)) % 2 ^ 64).toNat

/-- A cause that some accesses raise. -/
def Ctx.trapAcc (c : Ctx) (cause : Cause) (l : List Acc) : State :=
  c.trapOff cause (accMask l) fun j => ((l.find? fun a => a.lane == j).map Acc.off).getD 0

/-! ### Parking -/

/-- The issuing rope parks on far pages, which are requested on demand (R284); an instruction that has had answers from peers makes its
checks again when it replays (R224). -/
def Ctx.parkOn (c : Ctx) (pages : List Nat) (wr fetch all : Bool) : State :=
  let s := pages.foldl (fun (s : State) q => s.ask ⟨q, .demand, wr, c.party.colour, none⟩) c.s
  s.setParty (c.party.setRope c.k { c.rope with
    park := some ⟨c.entry.pc, pages, fetch, all, c.s.timer⟩
    peerData := c.rope.peerData.map fun d => if c.mine d then { d with again := true } else d })

/-- Whether an access meets a page reported lost to this instruction (R286). -/
def Ctx.isLost (c : Ctx) (a : Acc) : Bool :=
  (blocksOf (2 ^ 21) a.addr a.n).any fun q => c.rope.lostPages.elem (c.entry.pc, q)

/-- An access to a resident far page is noted: last accessed, its lines dirty when written (R289). -/
def State.touchPage (s : State) (wr : Bool) (a n : Nat) : State :=
  (s.farPages a n).foldl (fun (s : State) q =>
    match s.page? q with
    | none => s
    | some r =>
      let d := if wr then (blocksOf 128 a n).foldl (fun t l => NSet.set t l true) r.dirty else r.dirty
      { s with pages := SMap.set none s.pages q (some { r with used := s.accesses, dirty := d })
               accesses := s.accesses + 1 }) s

/-- The dirty lines of a resident page that `hit` names go to their home, which takes over their poison (R219, R235). -/
def PageRec.sendHome (r : PageRec) (poison : NSet) (hit : Nat → Bool) : PageRec :=
  let gone (ln : Nat) : Bool := hit ln && NSet.has r.dirty ln
  let kept := r.home.filter fun h => !(gone (h / 2))
  { r with dirty := r.dirty.filter fun ln => !(hit ln)
           home := (poison.filter fun h => gone (h / 2)).foldl (fun m h => NSet.set m h true) kept }

/-! ### Peers -/

/-- The device whose window holds an address (R216). -/
def peerOf (a : Nat) : Nat := (a - 0x800000000000) / 2 ^ 40

/-- Whether a port carries traffic. -/
def State.portUp (s : State) (p : Nat) : Bool :=
  match (SMap.get PortRec.zero s.ports p).st with
  | .up | .narrow => true
  | .down | .training | .fenced => false

/-- The first port of a device's route that carries traffic (R373). -/
def State.portFor (s : State) (dev : Nat) : Option Nat := (SMap.get [] s.routes dev).find? fun p => s.portUp p

/-- Whether the route table names a port for a device (R373). -/
def State.routed (s : State) (dev : Nat) : Bool := SMap.get [] s.routes dev != []

/-- Sends a request to a peer (R373, R375); `base` is that of the capability that it was made through (R208). -/
def State.sendPeer (s : State) (addr : Nat) (op : PeerOp) (src : PeerFrom) (colour base die : Nat) : State :=
  let dev := peerOf addr
  { s with
    peerOut := s.peerOut ++ [⟨s.peerSeq, dev, addr, op, src, colour, base, die, s.timer, s.portFor dev⟩]
    peerSeq := s.peerSeq + 1 }

/-- Whether a party's ropes have stores, `atomn` updates or reads at peers that have still to perform (R298, R375). -/
def State.accessesOut (s : State) (uid : Nat) : Bool :=
  s.peerOut.any fun r => match r.src with
    | .posted u _ | .lane u _ _ _ => u == uid
    | _ => false

/-- What has been released to a device at `.sys`, and what it has acquired here, all of which its own releases carry (R375, log 106). -/
def State.told (s : State) (dev : Nat) : Know := SMap.get Know.none s.peerKnow dev

/-- More is released to a device. -/
def State.tell (s : State) (dev : Nat) (k : Know) : State :=
  { s with peerKnow := SMap.set Know.none s.peerKnow dev ((s.told dev).join k) }

/-- What a rope's request tells the peer that it changes: what the rope releases with a releasing atomic at `.sys`, and what its fences
at `.sys` have released (R302, R375). -/
def Rope.tells (r : Rope) (op : PeerOp) : List Know :=
  let fences := (r.fenced.filter fun p => p.scope == .sys).map Pub.know
  match op with
  | .atomic _ _ _ ord sc _ _ => (if ordRel ord && sc == .sys then [r.release.2] else []) ++ fences
  | .store _ _ => fences
  | _ => []

/-- A rope's request leaves for a peer. -/
def Ctx.sendOp (c : Ctx) (s : State) (a : Acc) (op : PeerOp) (src : PeerFrom) : State :=
  (c.rope.tells op).foldl (fun (s : State) k => s.tell (peerOf a.addr) k)
    (s.sendPeer a.addr op src c.party.colour a.base (dieOf c.party.core))

/-- Sends the stores and `atomn` updates of lanes to their peers; one whose device has no route is dropped and counted
(R373, R376). -/
def Ctx.postPeers (c : Ctx) (l : List Acc) (op : Acc → PeerOp) : Ctx :=
  let die := dieOf c.party.core
  { c with s := l.foldl (fun (s : State) a =>
      if s.routed (peerOf a.addr) then c.sendOp s a (op a) (.posted c.uid c.k) else s.countError die 5 1) c.s }

/-- Sends reads and returning atomics of lanes to their peers; the slot waits for the answers. A device without a route answers at
once with a poisoned line (R373, R376). -/
def Ctx.askPeers (c : Ctx) (i : Instr) (l : List Acc) (op : Acc → PeerOp) : Ctx × Nat :=
  let go := l.filter fun a => c.s.routed (peerOf a.addr)
  let no := l.filter fun a => !(c.s.routed (peerOf a.addr))
  let s := go.foldl (fun (s : State) a => c.sendOp s a (op a) (.lane c.uid c.k a.key c.entry.pc)) c.s
  let r := { c.rope with peerData := no.map (fun a => ⟨c.entry.pc, a.key, [], true, false⟩) ++ c.rope.peerData }
  let r := if go = [] then r else r.setWait c.pos (some (.peer i go.length))
  ({ c with s := s, rope := r }, go.length)

/-- The peer answer to an access. -/
def Ctx.answer (c : Ctx) (a : Acc) : Option PeerData := c.rope.peerData.find? fun d => d.pc == c.entry.pc && d.key == a.key

/-- Whether the issuing instruction has been checked and sent to its peers, and their answers have come (R376). -/
def Ctx.resumed (c : Ctx) : Bool := c.rope.peerData.any c.mine

/-- Whether the checks of the issuing instruction stand: its peers have answered, and the rope has not parked since (R224). -/
def Ctx.checked (c : Ctx) : Bool := c.resumed && !(c.rope.peerData.any fun d => c.mine d && d.again)

/-- After an instruction that peers have answered: the answers are used up. -/
def Ctx.useAnswers (c : Ctx) (s : State) : State :=
  s.withRope c.uid c.k fun r => { r with peerData := r.peerData.filter fun d => !(c.mine d) }

/-! ### The gate -/

/-- What a scratch card adds to the gate: the lines that its slot must wait for (R136, R138), and the accesses to private bytes that
carry poison. -/
structure GateMore where
  lines : List Nat
  poison : List Acc

/-- The accesses whose peers have answered with a poisoned line, or have not been reached (R376). -/
def Ctx.peerBad (c : Ctx) (accs : List Acc) : List Acc := accs.filter fun a => a.peer && (c.answer a).all fun d => d.lost

/-- The gate of R224 after the checks of capability and card: a lost page (R286), residency (R284), a copy-on-write frame (R280),
RACE (R308), poison (R219), peers (R375); then `k`. `rd` says that bytes are read, `wr` that they are written, `ret` that a peer's
answer is waited for; `op` is what a peer is sent. Once the peers have answered, the lanes of this package are checked again, and
perform with the rest: nothing else of the rope issues in between (log 105). -/
def Ctx.gateWith (c : Ctx) (x : GateMore) (i : Instr) (accs : List Acc) (wr rd atomic ret : Bool) (op : Acc → PeerOp)
    (k : Ctx → State) : State :=
  let near := accs.filter fun a => !a.peer
  let peers := accs.filter Acc.peer
  let lost := near.filter c.isLost
  if lost ≠ [] then c.trapAcc .poisonConsumed lost
  else
    let shut := near.flatMap fun a => c.s.shutPages wr a.addr a.n
    if shut ≠ [] then c.parkOn shut.eraseDups wr false false
    else
      let back := ret && c.resumed
      let c := c.clearLost
      let cow := if wr then near.flatMap fun a => c.s.cowPages a.addr a.n else []
      if c.s.cowFull cow then c.wait (.copyOnWrite (cow.headD 0))
      else if x.lines ≠ [] then c.wait (.refill (x.lines.headD 0))
      else
        let raced := near.filter fun a => a.checked && c.s.races c.rope.agent c.rope.know atomic a.addr a.n
        if raced ≠ [] then c.trapAcc .race raced
        else
          let bad := x.poison ++ (if rd then near.filter fun a => c.s.poisoned a.addr a.n else []) ++ if back then c.peerBad accs else []
          if bad ≠ [] then c.trapAcc .poisonConsumed bad
          else if peers ≠ [] ∧ ret = true ∧ back = false then
            let y := c.askPeers i peers op
            if y.2 = 0 then y.1.trapAcc .poisonConsumed peers else y.1.s.setParty (c.party.setRope c.k y.1.rope)
          else
            let c := { c with s := near.foldl (fun (s : State) a => s.touchPage wr a.addr a.n) c.s }
            if back then c.useAnswers (k c) else if peers = [] then k c else k (c.postPeers peers op)

/-- The gate of a span card. -/
def Ctx.gate (c : Ctx) (i : Instr) (accs : List Acc) (wr rd atomic ret : Bool) (op : Acc → PeerOp) (k : Ctx → State) : State :=
  c.gateWith ⟨[], []⟩ i accs wr rd atomic ret op k

/-! ### Bytes behind the gate -/

/-- The bytes of an access: the span's own, or a peer's answer. -/
def Ctx.read (c : Ctx) (a : Acc) : List Byte :=
  if a.peer then ((c.answer a).map PeerData.bytes).getD [] else c.s.bytes a.addr a.n

/-- The rope as a plain writer: after a fence its writes are releases (R302, R309). -/
def Rope.writer (r : Rope) : Writer := ⟨r.agent, r.rel, false, r.fenced⟩

/-- A lane's store: an unbacked byte drops it and is counted (R216); a peer's store has been sent. -/
def State.laneStore (s : State) (die : Nat) (w : Writer) (a : Nat) (bs : List Byte) : State :=
  if isPeer a then s
  else if s.backedAt a && s.backedAt (a + bs.length - 1) then s.store w a bs
  else s.countError die 5 1

/-- A card has stored to the span: of the party's own stash, copies of the lines stored to are dropped (R138). -/
def Ctx.stored (c : Ctx) (s : State) : Ctx :=
  match s.party? c.uid with
  | none => { c with s := s }
  | some p => { c with s := s, party := { c.party with present := p.present, dirty := p.dirty } }

/-- What a read of the rope observes, kept for a later fence (R302): no fence serves another through an access. -/
def Rope.sees (r : Rope) (pubs : List Pub) : Rope :=
  { r with seen := (pubs.filter fun p => p.kind != .fence).foldl (fun l p => if l.elem p then l else p :: l) r.seen }

/-- The releases that reading some accesses observes. -/
def State.shown (s : State) (accs : List Acc) : List Pub :=
  (accs.filter fun a => !a.peer).flatMap fun a => syncRead s.sync a.addr a.n

/-! ### The span mould (R223, R224) -/

/-- The exact offset of lane `l` (R224): the offset register, or a signed pair, and the immediate. -/
def Rope.spanOff (r : Rope) (o : OffSrc) (imm : Int) (l : Nat) : Int :=
  (match o with
   | .none => 0
   | .reg s => ((r.x l s.r.toNat).toNat : Int)
   | .pair s => (r.x64 l s.r.toNat).toInt) + imm

/-- The hinted sources of a span operand: the quad and the offset. -/
def spanUsed (a : RSrc) (o : OffSrc) : List (RSrc × Nat) :=
  (a, 4) :: (match o with
   | .none => []
   | .reg s => [(s, 1)]
   | .pair s => [(s, 2)])

/-- Whether a range of an exact address names a view byte (R222). -/
def namesView (a : Int) (n : Nat) : Bool :=
  decide (0 < n) && decide (a < 0x098000000000) && decide (0x080000000000 < a + n)

/-- R198 steps 1 to 7 of an access; a view byte counts as a missing permission (R224). -/
def Ctx.spanSteps (c : Ctx) (cap : Quad) (tag permOk : Bool) (off : Int) (z align : Nat) : List (Bool × Cause) :=
  c.s.useSteps c.party.colour cap tag ++
    [(!permOk || namesView ((capBase cap : Int) + off) z, .capPerm),
     (decide (off < 0) || decide ((capLen cap : Int) < off + z), .capBounds),
     (((capBase cap : Int) + off) % align != 0, .misaligned)]

/-- The access that a lane makes through its quad. -/
def accOf (key : Nat) (cap : Quad) (off : Int) (n : Nat) : Acc :=
  ⟨key, off, ((capBase cap : Int) + off).toNat, n, capHas cap pCHECKED⟩

/-- An access of a card through the mould: the lanes, the quad and offsets, `z` bytes on alignment `z`, the permissions, what the card
checks besides, then the gate. -/
def Ctx.spanAccess (c : Ctx) (i : Instr) (active : Word) (a : RSrc) (off : Nat → Int) (z perms : Nat)
    (extra : Nat → List (Bool × Cause)) (wr rd atomic ret : Bool) (op : Acc → PeerOp) (k : Ctx → List Acc → State) : State :=
  let lanes := lanesOf active
  let quad (l : Nat) : Quad := c.rope.quad l a.r.toNat
  let steps (l : Nat) := c.spanSteps (quad l) (c.rope.tag l a.r.toNat) (capHas (quad l) perms) (off l) z z ++ extra l
  match if c.checked then none else checkLanes lanes steps with
  | some x => c.trapOff x.1 x.2 off
  | none =>
    let accs := lanes.map fun l => accOf l (quad l) (off l) z
    c.gate i accs wr rd atomic ret op fun c => k c accs

end Sys2Proof.Machine
end

