-- ==== Sys2Proof/Machine/Capabilities.lean ====
section
/-!
DEFINITION. The capability cards (R210 to R215).
-/
namespace Sys2Proof.Machine

/-- A quad of a lane with its tag. -/
def Rope.capAt (r : Rope) (l : Nat) (a : RSrc) : Quad × Bool := (r.quad l a.r.toNat, r.tag l a.r.toNat)

/-- Runs a derivation card: its checks lane by lane, then a quad and tag in each active lane (R198). `off` is what TINFO shows,
where the card forms an offset; the running pass leaves a matching capability untagged (R207). -/
def Ctx.derive (c : Ctx) (g : Guard) (bytes : Nat) (d : BitVec 8) (used : List (RSrc × Nat)) (steps : Nat → List (Bool × Cause))
    (off : Option (Nat → Int)) (f : Nat → Quad) : State :=
  let active := c.active g
  match checkLanes (lanesOf active) steps with
  | some x =>
    match off with
    | some off => c.trapOff x.1 x.2 off
    | none => c.trapFree x.1 x.2
  | none =>
    let r := c.rope.useAll active used
    c.done ((lanesOf active).foldl (fun (r : Rope) l => r.setQuad l d.toNat (f l) (c.s.tagFor (f l) true)) r) bytes

/-- Steps 1 to 4 of R198 on a quad of lane `l`. -/
def Ctx.quadSteps (c : Ctx) (a : RSrc) (l : Nat) : List (Bool × Cause) :=
  c.s.useSteps c.party.colour (c.rope.capAt l a).1 (c.rope.capAt l a).2

/-- A capability with new bounds. -/
def capBound (c : Quad) (base len : Nat) : Quad := capMake base len (capPerms c) (capColour c) (capOtype c)

/-- `cbnd` (R210). -/
def execCbnd (g : Guard) (d : BitVec 8) (a b x : RSrc) (s : State) : Out :=
  s.issue fun c =>
    let cap (l : Nat) : Quad := c.rope.quad l a.r.toNat
    let off (l : Nat) : Nat := (c.rope.x64 l b.r.toNat).toNat
    let len (l : Nat) : Nat := (c.rope.x64 l x.r.toNat).toNat
    c.derive g 12 d [(a, 4), (b, 2), (x, 2)]
      (fun l => c.quadSteps a l ++ [(decide (2 ^ 40 - 1 < len l) || decide (capLen (cap l) < off l + len l), .capBounds)])
      (some fun l => (off l : Int)) fun l => capBound (cap l) (capBase (cap l) + off l) (len l)

/-- KEEP, or the low bits of a register (R211). -/
def keepVal (r : Rope) (l : Nat) : KeepSrc → Nat
  | .imm k => k.toNat
  | .reg s => (r.x l s.r.toNat).toNat % 4096

/-- The register that KEEP names, if any. -/
def keepUsed : KeepSrc → List (RSrc × Nat)
  | .imm _ => []
  | .reg s => [(s, 1)]

/-- `cperm` (R211). -/
def execCperm (g : Guard) (d : BitVec 8) (a : RSrc) (keep : KeepSrc) (s : State) : Out :=
  s.issue fun c =>
    c.derive g 8 d ((a, 4) :: keepUsed keep) (c.quadSteps a) none fun l =>
      let q := c.rope.quad l a.r.toNat
      capMake (capBase q) (capLen q) (Nat.land (capPerms q) (keepVal c.rope l keep)) (capColour q) (capOtype q)

/-- A capability with another object type. -/
def capType (c : Quad) (t : Nat) : Quad := capMake (capBase c) (capLen c) (capPerms c) (capColour c) t

/-- The checks of `cseal` and `cunseal` (R212): `sealA` says whether A's type is refused, `range` whether step 6 fails.
Each row of R212's table is one step (DEDUCED). -/
def Ctx.sealSteps (c : Ctx) (a b : RSrc) (sealA range : Quad → Quad → Bool) (l : Nat) : List (Bool × Cause) :=
  let x := c.rope.capAt l a
  let y := c.rope.capAt l b
  [(!x.2 || !y.2, .capTag), (sealA x.1 y.1 || capOtype y.1 != 0, .capSealed),
   (capColour x.1 != c.party.colour || capColour y.1 != c.party.colour, .capColour),
   (c.s.revoked x.1 || c.s.revoked y.1, .revoked), (!(capHas y.1 pSEAL), .capPerm), (range x.1 y.1, .capBounds)]

/-- `cseal` (R212). -/
def execCseal (g : Guard) (d : BitVec 8) (a b : RSrc) (s : State) : Out :=
  s.issue fun c =>
    c.derive g 8 d [(a, 4), (b, 4)]
      (c.sealSteps a b (fun x _ => capOtype x != 0) fun _ y =>
        decide (capBase y < 16) || decide (16383 < capBase y) || capLen y == 0)
      none fun l => capType (c.rope.quad l a.r.toNat) (capBase (c.rope.quad l b.r.toNat))

/-- `cunseal` (R212). -/
def execCunseal (g : Guard) (d : BitVec 8) (a b : RSrc) (s : State) : Out :=
  s.issue fun c =>
    c.derive g 8 d [(a, 4), (b, 4)]
      (c.sealSteps a b (fun x _ => decide (capOtype x < 16)) fun x y =>
        decide (capOtype x < capBase y) || decide (capBase y + capLen y ≤ capOtype x))
      none fun l => capType (c.rope.quad l a.r.toNat) 0

/-- The field that `cfield` reads (R213). -/
def capField (f : CField) (c : Quad) : Nat :=
  match f with
  | .base => capBase c % 2 ^ 32
  | .baseh => capBase c / 2 ^ 32
  | .len => capLen c % 2 ^ 32
  | .lenh => capLen c / 2 ^ 32
  | .perm => capPerms c
  | .colour => capColour c
  | .otype => capOtype c

/-- `cfield` (R213). -/
def execCfield (g : Guard) (f : CField) (d : BitVec 8) (a : RSrc) (s : State) : Out :=
  s.issue fun c =>
    let active := c.active g
    c.done ((c.rope.useAll active [(a, 4)]).writeEach active fun l => Fx.word d (capField f (c.rope.quad l a.r.toNat))) 8

/-- What `ctag` reports of a lane (R213): the tag, or with `.use` whether steps 1 to 4 would pass. -/
def Ctx.ctagValue (c : Ctx) (use : Bool) (a : RSrc) (l : Nat) : Bool :=
  if use then firstCause (c.quadSteps a l) == none else (c.rope.capAt l a).2

/-- `ctag` (R213). -/
def execCtag (g : Guard) (use : Bool) (d : BitVec 8) (a : RSrc) (s : State) : Out :=
  s.issue fun c =>
    let active := c.active g
    c.done ((c.rope.useAll active [(a, 4)]).writeEach active fun l => { preds := [(d.toNat, c.ctagValue use a l)] }) 8

/-- `cclr` (R213). -/
def execCclr (g : Guard) (d : BitVec 8) (s : State) : Out :=
  s.issue fun c => c.done (c.rope.writeEach (c.active g) fun _ => { tags := [(d.toNat, false)] }) 8

/-- The pass to which a new entry is assigned (R206). -/
def State.nextPass (s : State) : Nat := if s.passRunning then s.passDone + 2 else s.passDone + 1

/-- Adds an entry to the revocation map (R205, R206). -/
def State.addEntry (s : State) (range : Option (Nat × Nat)) (colour : Nat) : State :=
  { s with revMap := s.revMap ++ [⟨range, colour, s.nextPass⟩] }

/-- Whether the revocation map is full (R205). -/
def State.mapFull (s : State) : Bool := decide (1024 ≤ s.revMap.length)

/-- `revk` completes: A is used, and every active lane's pair holds the pass (R214). -/
def Rope.revkDone (r : Rope) (a : RSrc) (active : Word) (d : BitVec 8) (pass : Nat) : Rope :=
  (r.useAll active [(a, 4)]).writeEach active fun _ => Fx.pair d pass

/-- `revk` (R214). -/
def execRevk (g : Guard) (nw : Bool) (d : BitVec 8) (a : RSrc) (s : State) : Out :=
  s.issue fun c =>
    let active := c.active g
    if active = 0 then c.done c.rope 12
    else
      let l := lowLane active
      let cap := c.rope.quad l a.r.toNat
      match firstCause (c.quadSteps a l ++ [(!(capHas cap (pLD + pST)), .capPerm)]) with
      | some cause => c.trapFree cause (withBit 0 l true)
      | none =>
        let write (s : State) (p : Nat) : State := { c with s := s }.done (c.rope.revkDone a active d p) 12
        if c.s.mapFull then (if nw then write c.s (2 ^ 64 - 1) else c.wait (.mapRoom a cap active d))
        else write (c.s.addEntry (some (capBase cap, capBase cap + capLen cap)) (capColour cap)) c.s.nextPass

/-- `swpq` (R215). Its acquire brings every access that pass W has waited for; the steps of this model have performed them. -/
def execSwpq (g : Guard) (d : Dst) (s : State) : Out :=
  s.issue fun c =>
    let r := c.rope.acquire c.s.passKnow
    match d with
    | .unif d => c.done (r.writeUnif (Fx.pair d c.s.passDone)) 8
    | .lane d => c.done (r.writeEach (c.active g) fun _ => Fx.pair d c.s.passDone) 8

end Sys2Proof.Machine
end

