-- ==== Sys2Proof/Machine/Crypto.lean ====
section
/-!
DEFINITION. The cryptography that the spec names and does not spell out, from the standards that it names (log 12): SHA-384 and SHA-256
(FIPS 180-4), ECDSA on P-384 (FIPS 186), LMS (RFC 8554), AES-256-GCM (FIPS 197, SP 800-38D). Bytes are numbers below 256.
-/
namespace Sys2Proof.Machine.Crypto

/-! ### Bytes and words -/

/-- Bytes as a number, the first the most significant. -/
def beNat (l : List Nat) : Nat := l.foldl (fun a b => a * 256 + b) 0

/-- The `n` bytes of a number, the most significant first. -/
def beBytes : Nat → Nat → List Nat
  | 0, _ => []
  | n + 1, v => v / 256 ^ n % 256 :: beBytes n v

/-- The list in pieces of `n`; `fuel` bounds their number. -/
def chunks (n : Nat) : Nat → List Nat → List (List Nat)
  | 0, _ => []
  | fuel + 1, l => if l = [] then [] else l.take n :: chunks n fuel (l.drop n)

/-- Bytewise exclusive or. -/
def xorBytes (a b : List Nat) : List Nat := List.zipWith Nat.xor a b

/-! ### SHA-2 (FIPS 180-4) -/

/-- The parameters of a SHA-2 function: word size, rounds, the rotations of Σ0, Σ1, σ0 and σ1 (the last of σ a shift), the initial
value. -/
structure Sha where
  w : Nat
  rounds : Nat
  big0 : Nat × Nat × Nat
  big1 : Nat × Nat × Nat
  small0 : Nat × Nat × Nat
  small1 : Nat × Nat × Nat
  init : List Nat

/-- The primes below a bound. -/
def primesBelow (n : Nat) : List Nat :=
  (List.range n).filter fun p => decide (2 ≤ p) && (List.range p).all fun d => decide (d < 2) || p % d != 0

/-- Root `k` of `v`, rounded down, found bit by bit from bit `n` down. -/
def rootFrom (k v : Nat) : Nat → Nat → Nat
  | 0, r => r
  | n + 1, r => rootFrom k v n (if (r + 2 ^ n) ^ k ≤ v then r + 2 ^ n else r)

/-- The first `w` bits of the fraction of root `k` of `p`. -/
def fracRoot (w k p : Nat) : Nat := rootFrom k (p * 2 ^ (k * w)) (w + 6) 0 % 2 ^ w

/-- The round constants: fractions of the cube roots of the first primes. -/
def Sha.consts (f : Sha) : List Nat := ((primesBelow 410).take f.rounds).map (fracRoot f.w 3)

/-- SHA-256. -/
def sha256Params : Sha :=
  ⟨32, 64, (2, 13, 22), (6, 11, 25), (7, 18, 3), (17, 19, 10), ((primesBelow 20).take 8).map (fracRoot 32 2)⟩

/-- SHA-384. -/
def sha384Params : Sha :=
  ⟨64, 80, (28, 34, 39), (14, 18, 41), (1, 8, 7), (19, 61, 6), (((primesBelow 54).drop 8).take 8).map (fracRoot 64 2)⟩

/-- Rotation to the right of a `w`-bit word. -/
def rotr (w n x : Nat) : Nat := x / 2 ^ n + x % 2 ^ n * 2 ^ (w - n)

/-- Σ: three rotations. -/
def Sha.big (f : Sha) (r : Nat × Nat × Nat) (x : Nat) : Nat :=
  Nat.xor (Nat.xor (rotr f.w r.1 x) (rotr f.w r.2.1 x)) (rotr f.w r.2.2 x)

/-- σ: two rotations and a shift. -/
def Sha.small (f : Sha) (r : Nat × Nat × Nat) (x : Nat) : Nat :=
  Nat.xor (Nat.xor (rotr f.w r.1 x) (rotr f.w r.2.1 x)) (x / 2 ^ r.2.2)

/-- The message schedule from the last sixteen words, the latest first: `n` more words after `done`. -/
def Sha.schedule (f : Sha) : Nat → List Nat → List Nat
  | 0, l => l.reverse
  | n + 1, l =>
    let at' (i : Nat) : Nat := l.getD (i - 1) 0
    Sha.schedule f n ((f.small f.small1 (at' 2) + at' 7 + f.small f.small0 (at' 15) + at' 16) % 2 ^ f.w :: l)

/-- One round over the eight working words. -/
def Sha.round (f : Sha) (v : List Nat) (kw : Nat × Nat) : List Nat :=
  match v with
  | [a, b, c, d, e, g, h, i] =>
    let ch := Nat.xor (Nat.land e g) (Nat.land (2 ^ f.w - 1 - e) h)
    let maj := Nat.xor (Nat.xor (Nat.land a b) (Nat.land a c)) (Nat.land b c)
    let t1 := i + f.big f.big1 e + ch + kw.1 + kw.2
    let t2 := f.big f.big0 a + maj
    [(t1 + t2) % 2 ^ f.w, a, b, c, (d + t1) % 2 ^ f.w, e, g, h]
  | _ => v

/-- One block: sixteen words of `w / 8` bytes. -/
def Sha.block (f : Sha) (consts : List Nat) (hash : List Nat) (b : List Nat) : List Nat :=
  let words := (chunks (f.w / 8) 16 b).map beNat
  let out := (consts.zip (f.schedule (f.rounds - 16) words.reverse)).foldl f.round hash
  List.zipWith (fun x y => (x + y) % 2 ^ f.w) hash out

/-- The message with its padding and its length in bits. -/
def Sha.pad (f : Sha) (m : List Nat) : List Nat :=
  let z := 2 * f.w
  let l := f.w / 4
  let k := (2 * z - (m.length + 1 + l) % z) % z
  m ++ 0x80 :: List.replicate k 0 ++ beBytes l (8 * m.length)

/-- The digest, all eight words. -/
def Sha.digest (f : Sha) (m : List Nat) : List Nat :=
  let p := f.pad m
  ((chunks (2 * f.w) (p.length / (2 * f.w)) p).foldl (f.block f.consts) f.init).flatMap (beBytes (f.w / 8))

/-- SHA-256 of some bytes. -/
def sha256 (m : List Nat) : List Nat := sha256Params.digest m

/-- SHA-384 of some bytes. -/
def sha384 (m : List Nat) : List Nat := (sha384Params.digest m).take 48

/-! ### ECDSA on P-384 (FIPS 186) -/

/-- The field's prime, the group's order, the coefficient b and the base point of P-384. -/
def p384 : Nat := 2 ^ 384 - 2 ^ 128 - 2 ^ 96 + 2 ^ 32 - 1
def p384Order : Nat :=
  0xFFFFFFFFFFFFFFFFFFFFFFFFFFFFFFFFFFFFFFFFFFFFFFFFC7634D81F4372DDF581A0DB248B0A77AECEC196ACCC52973
def p384B : Nat :=
  0xB3312FA7E23EE7E4988E056BE3F82D19181D9C6EFE8141120314088F5013875AC656398D8A2ED19D2A85C8EDD3EC2AEF
def p384Base : Nat × Nat :=
  (0xAA87CA22BE8B05378EB1C71EF320AD746E1D3B628BA79B9859F741E082542A385502F25DBF55296C3A545E3872760AB7,
   0x3617DE4A96262C6F5D9E98BF9292DC29F8F41DBD289A147CE9DA3113B5F0B8C00A60B1CE1D7E819D7A431D7C90EA0E5F)

/-- A power modulo `m`, by the bits of the exponent from bit `n` down. -/
def powMod (m b e : Nat) : Nat → Nat
  | 0 => 1
  | n + 1 =>
    let h := powMod m b (e / 2) n
    h * h % m * (if e % 2 = 1 then b else 1) % m

/-- The inverse modulo a prime of 384 bits. -/
def invMod (m a : Nat) : Nat := powMod m a (m - 2) 384

/-- Addition on the curve; none is the point at infinity. -/
def ecAdd (x y : Option (Nat × Nat)) : Option (Nat × Nat) :=
  match x, y with
  | none, _ => y
  | _, none => x
  | some (x1, y1), some (x2, y2) =>
    let p := p384
    if x1 = x2 ∧ (y1 + y2) % p = 0 then none
    else
      let m :=
        if x1 = x2 then (3 * x1 * x1 + p - 3) * invMod p (2 * y1) % p
        else (y2 + p - y1) * invMod p ((x2 + p - x1) % p) % p
      let x3 := (m * m + 2 * p - x1 - x2) % p
      some (x3, (m * (x1 + p - x3) + p - y1) % p)

/-- A multiple of a point, by `n` bits of the factor. -/
def ecMul (q : Option (Nat × Nat)) (k : Nat) : Nat → Option (Nat × Nat)
  | 0 => none
  | n + 1 =>
    let h := ecMul q (k / 2) n
    let d := ecAdd h h
    if k % 2 = 1 then ecAdd d q else d

/-- The point of an uncompressed public key, if it lies on the curve. -/
def ecPoint (key : List Nat) : Option (Nat × Nat) :=
  let x := beNat ((key.drop 1).take 48)
  let y := beNat ((key.drop 49).take 48)
  if key.length = 97 ∧ key.head? = some 4 ∧ x < p384 ∧ y < p384 ∧ y * y % p384 = (x * x * x + (p384 - 3) * x + p384B) % p384 then some (x, y)
  else none

/-- Whether r and s, 48 bytes each, are a signature of a 48-byte digest under an uncompressed public key. -/
def ecdsaVerifies (key digest sig : List Nat) : Bool :=
  let r := beNat (sig.take 48)
  let s := beNat ((sig.drop 48).take 48)
  let n := p384Order
  match ecPoint key with
  | none => false
  | some q =>
    if sig.length = 96 ∧ 1 ≤ r ∧ r < n ∧ 1 ≤ s ∧ s < n then
      let w := invMod n s
      match ecAdd (ecMul (some p384Base) (beNat digest * w % n) 384) (ecMul (some q) (r * w % n) 384) with
      | none => false
      | some x => x.1 % n == r
    else false

/-! ### LMS (RFC 8554) -/

/-- An LM-OTS type: w, p and ls. -/
def otsType (t : Nat) : Option (Nat × Nat × Nat) :=
  match t with
  | 1 => some (1, 265, 7)
  | 2 => some (2, 133, 6)
  | 3 => some (4, 67, 4)
  | 4 => some (8, 34, 0)
  | _ => none

/-- The height of an LMS type's tree. -/
def lmsHeight (t : Nat) : Option Nat := if 5 ≤ t ∧ t ≤ 9 then some (5 * (t - 4)) else none

/-- Digit `i` of `w` bits of a byte string. -/
def otsCoef (s : List Nat) (i w : Nat) : Nat := s.getD (i * w / 8) 0 / 2 ^ (8 - (w * (i % (8 / w)) + w)) % 2 ^ w

/-- The checksum of the digits of a 32-byte hash. -/
def otsChecksum (q : List Nat) (w ls : Nat) : Nat :=
  ((List.range (256 / w)).foldl (fun a i => a + (2 ^ w - 1 - otsCoef q i w)) 0) * 2 ^ ls

/-- The rest of a hash chain: steps `j` to `j + n - 1`. -/
def otsChain (pre : List Nat) (j : Nat) : Nat → List Nat → List Nat
  | 0, x => x
  | n + 1, x => otsChain pre (j + 1) n (sha256 (pre ++ beBytes 1 j ++ x))

/-- The LM-OTS public key that a signature gives for a message. -/
def otsCandidate (ident : List Nat) (q : Nat) (t : Nat × Nat × Nat) (sig msg : List Nat) : List Nat :=
  let pre := ident ++ beBytes 4 q
  let h := sha256 (pre ++ beBytes 2 0x8181 ++ (sig.drop 4).take 32 ++ msg)
  let d := h ++ beBytes 2 (otsChecksum h t.1 t.2.2)
  let z := (List.range t.2.1).flatMap fun i =>
    let a := otsCoef d i t.1
    otsChain (pre ++ beBytes 2 i) a (2 ^ t.1 - 1 - a) ((sig.drop (36 + 32 * i)).take 32)
  sha256 (pre ++ beBytes 2 0x8080 ++ z)

/-- The root that a leaf and its path give. -/
def lmsRoot (ident : List Nat) (node : Nat) (x : List Nat) : List (List Nat) → List Nat
  | [] => x
  | y :: t =>
    let pre := ident ++ beBytes 4 (node / 2) ++ beBytes 2 0x8383
    lmsRoot ident (node / 2) (sha256 (pre ++ (if node % 2 = 1 then y ++ x else x ++ y))) t

/-- Whether an LMS signature of a message verifies under a public key. -/
def lmsVerifies (key msg sig : List Nat) : Bool :=
  let lt := beNat (key.take 4)
  let ot := beNat ((key.drop 4).take 4)
  match lmsHeight lt, otsType ot with
  | some h, some t =>
    let q := beNat (sig.take 4)
    let n := 36 + 32 * t.2.1
    let ident := (key.drop 8).take 16
    if key.length = 56 ∧ sig.length = 8 + n + 32 * h ∧ beNat ((sig.drop 4).take 4) = ot ∧ beNat ((sig.drop (4 + n)).take 4) = lt ∧ q < 2 ^ h then
      let k := otsCandidate ident q t ((sig.drop 4).take n) msg
      let leaf := sha256 (ident ++ beBytes 4 (2 ^ h + q) ++ beBytes 2 0x8282 ++ k)
      lmsRoot ident (2 ^ h + q) leaf (chunks 32 h (sig.drop (8 + n))) == key.drop 24
    else false
  | _, _ => false

/-! ### AES-256 (FIPS 197) -/

/-- Doubling in the field of 256 elements. -/
def gfDouble (a : Nat) : Nat := if 128 ≤ a then Nat.xor (2 * a) 0x11B else 2 * a

/-- The product in the field, by `n` bits of `b`. -/
def gfMul (a b : Nat) : Nat → Nat
  | 0 => 0
  | n + 1 => Nat.xor (if b % 2 = 1 then a else 0) (gfMul (gfDouble a) (b / 2) n)

/-- `x` to the power 254, the inverse of `x`: the product of its first seven squarings. -/
def gfInv (x : Nat) : Nat :=
  ((List.range 7).foldl (fun (y : Nat × Nat) _ => let q := gfMul y.2 y.2 8; (gfMul y.1 q 8, q)) (1, x)).1

/-- The S-box. -/
def aesSbox (x : Nat) : Nat :=
  let b := gfInv x
  let rot (n : Nat) : Nat := b * 2 ^ n % 256 + b / 2 ^ (8 - n)
  Nat.xor (Nat.xor (Nat.xor (Nat.xor (Nat.xor b (rot 1)) (rot 2)) (rot 3)) (rot 4)) 0x63

/-- The S-box as a table. -/
def aesTable : List Nat := (List.range 256).map aesSbox

/-- Substitution of bytes. -/
def aesSub (l : List Nat) : List Nat := l.map fun x => aesTable.getD x 0

/-- `n` more words of the key schedule, after word number `i - 1`; the latest first. -/
def aesSchedule (i : Nat) : Nat → List (List Nat) → List (List Nat)
  | 0, l => l.reverse
  | n + 1, l =>
    let t := l.headD []
    let t :=
      if i % 8 = 0 then xorBytes (aesSub (t.drop 1 ++ t.take 1)) [(List.range (i / 8 - 1)).foldl (fun a _ => gfDouble a) 1, 0, 0, 0]
      else if i % 8 = 4 then aesSub t else t
    aesSchedule (i + 1) n (xorBytes (l.getD 7 []) t :: l)

/-- The fifteen round keys of a 32-byte key. -/
def aesKeys (key : List Nat) : List (List Nat) :=
  chunks 16 15 (aesSchedule 8 52 (chunks 4 8 key).reverse).flatten

/-- ShiftRows over a block of columns. -/
def aesShift (l : List Nat) : List Nat := (List.range 16).map fun i => l.getD (i % 4 + 4 * ((i / 4 + i % 4) % 4)) 0

/-- MixColumns. -/
def aesMix (l : List Nat) : List Nat :=
  (List.range 16).map fun i =>
    let x (j : Nat) : Nat := l.getD (i / 4 * 4 + (i + j) % 4) 0
    Nat.xor (Nat.xor (gfDouble (x 0)) (Nat.xor (gfDouble (x 1)) (x 1))) (Nat.xor (x 2) (x 3))

/-- The rounds after the first key: the last one mixes no columns. -/
def aesRounds (l : List Nat) : List (List Nat) → List Nat
  | [] => l
  | [k] => xorBytes (aesShift (aesSub l)) k
  | k :: t => aesRounds (xorBytes (aesMix (aesShift (aesSub l))) k) t

/-- A block encrypted under a 32-byte key. -/
def aesEncrypt (key block : List Nat) : List Nat :=
  match aesKeys key with
  | [] => block
  | k :: t => aesRounds (xorBytes block k) t

/-! ### GCM (SP 800-38D) -/

/-- The product of two blocks in the field of 2^128 elements, the leftmost bit the lowest power: `n` bits of `x` from the left. -/
def gcmMul (x v z : Nat) : Nat → Nat
  | 0 => z
  | n + 1 => gcmMul x (if v % 2 = 1 then Nat.xor (v / 2) (0xE1 * 2 ^ 120) else v / 2) (if x.testBit n then Nat.xor z v else z) n

/-- GHASH of whole blocks. -/
def ghash (h : Nat) (blocks : List (List Nat)) : Nat := blocks.foldl (fun y b => gcmMul (Nat.xor y (beNat b)) h 0 128) 0

/-- Bytes filled up to whole blocks. -/
def gcmPad (l : List Nat) : List Nat := l ++ List.replicate ((16 - l.length % 16) % 16) 0

/-- What is added to the first sixteen bytes of plaintext, for a 12-byte IV. -/
def gcmStream (key iv : List Nat) : List Nat := aesEncrypt key (iv ++ [0, 0, 0, 2])

/-- The tag over additional data and ciphertext, for a 12-byte IV. -/
def gcmTag (key iv data cipher : List Nat) : List Nat :=
  let h := beNat (aesEncrypt key (List.replicate 16 0))
  let all := gcmPad data ++ gcmPad cipher ++ beBytes 8 (8 * data.length) ++ beBytes 8 (8 * cipher.length)
  xorBytes (beBytes 16 (ghash h (chunks 16 (all.length / 16) all))) (aesEncrypt key (iv ++ [0, 0, 0, 1]))

/-! ### The two signatures of the spec (R10, R49) -/

/-- A provisioned key set and a SIGNATURES section: the same 32-byte key identifier (log 12). -/
def sameKey (keys sig : List Byte) : Bool := keys.take 32 == sig.take 32

/-- The ECDSA signature of a SIGNATURES section over the digest of some bytes verifies. -/
def ecdsaHolds (keys sig body : List Byte) : Bool :=
  ecdsaVerifies (((keys.drop 32).take 97).map BitVec.toNat) (sha384 (body.map BitVec.toNat)) (((sig.drop 32).take 96).map BitVec.toNat)

/-- The LMS signature of a SIGNATURES section over the digest of some bytes verifies. -/
def lmsHolds (keys sig body : List Byte) : Bool :=
  lmsVerifies ((keys.drop 133).map BitVec.toNat) (sha384 (body.map BitVec.toNat)) ((sig.drop 132).map BitVec.toNat)

/-- Both signatures verify, or the item is rejected (R10). -/
def signaturesHold (keys sig body : List Byte) : Bool := sameKey keys sig && ecdsaHolds keys sig body && lmsHolds keys sig body

end Sys2Proof.Machine.Crypto
end

