-- ==== Sys2Proof/Machine/Blocks.lean ====
section
/-!
DEFINITION. Narrow and block formats (R53 to R59): MX elements and scales, NQ4 levels, the block-fixed plane form.
-/
namespace Sys2Proof

open Machine (FFmt fmtF64 fmtF32 fmtBF16 fmtF16 fmtE5M2 fmtE4M3 fmtE3M2 fmtE2M3 fmtE2M1)

/-- The floating format of an element suffix, if it has one (R52). -/
def Elem.fmt : Elem → Option FFmt
  | .f16 => some fmtF16 | .bf16 => some fmtBF16 | .f32 => some fmtF32 | .f64 => some fmtF64
  | .e4m3 => some fmtE4M3 | .e5m2 => some fmtE5M2 | .e3m2 => some fmtE3M2 | .e2m3 => some fmtE2M3 | .e2m1 => some fmtE2M1
  | .i8 | .i16 | .i32 | .i64 | .n8 | .n16 | .n32 | .n64 | .b32 | .b64 | .nq4 | .plane => none

/-- Bits of an element (R51, R52). -/
def Elem.bits : Elem → Nat
  | .i8 | .n8 | .e4m3 | .e5m2 => 8
  | .i16 | .n16 | .f16 | .bf16 => 16
  | .i32 | .n32 | .b32 | .f32 => 32
  | .i64 | .n64 | .b64 | .f64 => 64
  | .e3m2 | .e2m3 => 6
  | .e2m1 | .nq4 => 4
  | .plane => 32

/-- Whether an integer element is unsigned (R51). -/
def Elem.unsigned : Elem → Bool
  | .n8 | .n16 | .n32 | .n64 | .b32 | .b64 => true
  | .i8 | .i16 | .i32 | .i64 | .f16 | .bf16 | .f32 | .f64 | .e4m3 | .e5m2 | .e3m2 | .e2m3 | .e2m1 | .nq4 | .plane => false

end Sys2Proof

namespace Sys2Proof.Machine

/-- The value a pattern of an element denotes, integers exactly (R51, R52). -/
def elemValue (t : Elem) (w : Nat) : FVal :=
  match t.fmt with
  | some f => f.read w
  | none =>
    let v := readInt t.bits t.unsigned w
    .fin (decide (v < 0)) v.natAbs 0

/-! ### MX (R53) -/

/-- A value times a power of two, exactly. -/
def FVal.scale (v : FVal) (k : Int) : FVal :=
  match v with
  | .fin n m e => .fin n m (e + k)
  | .inf n => .inf n
  | .nan s => .nan s

/-- An MX element under its scale: NaN for the scale 0xFF (R53). -/
def mxValue (f : FFmt) (scale w : Nat) : FVal :=
  if scale = 0xFF then .nan false else (f.read w).scale ((scale : Int) - 127)

/-! ### NQ4 (R54) -/

/-- The level of a code, as an FP32 pattern (R54). -/
def nq4Level (code : Nat) : Nat :=
  let top : List Nat := [0xBF80, 0xBF35, 0xBF0B, 0xBED5, 0xBE9F, 0xBE5D, 0xBE02, 0xBD2C, 0x3D2C, 0x3E02, 0x3E5D, 0x3E9F, 0x3ED5,
    0x3F0B, 0x3F35, 0x3F80]
  (top.getD code 0) * 2 ^ 16

/-- The scale of an NQ4 block times 255: c × S (R54). -/
def nq4Scale (sup c : Nat) : XRes := xMul (.fin false c 0) (fmtF32.read sup)

/-- An NQ4 element delivered to FP32 (R54): `level × c × S / 255`, formed exactly and rounded once. A zero c times an infinite S, which
the spec does not give, is the canonical NaN with invalid (log 113). -/
def nq4Deliver (mode : Round) (sup c code : Nat) : FRes :=
  let q := nq4Scale sup c
  let x := xMul (fmtF32.read (nq4Level code)) q.val
  let fl := q.flags ||| x.flags
  match x.val with
  | .fin n m e =>
    if m = 0 then ⟨fmtF32.signed n 0, fl⟩
    else
      let d := divMag 40 m e 255 0
      let r := fmtF32.round mode false n d.1 d.2.1 d.2.2
      ⟨r.bits, r.flags ||| fl⟩
  | v =>
    let r := fmtF32.deliver mode false v
    ⟨r.bits, r.flags ||| fl⟩

/-- An NQ4 element as a value, when its scale is finite: the FP32 value that R54's rounding gives. -/
def nq4Value (sup c code : Nat) : FVal := fmtF32.read (nq4Deliver .rn sup c code).bits

/-- The NQ4 code of an FP32 value (R67): the level nearest to `x / (c × S / 255)`, a tie to the even code. No level is nearest to an
infinite quotient: the model gives the outermost one of its sign, with inexact (log 111). -/
def nq4Encode (sup c : Nat) (x : FVal) : FRes :=
  match x, (nq4Scale sup c).val with
  | .nan _, _ => ⟨8, fInv⟩
  | _, .nan _ => ⟨8, fInv⟩
  | _, .inf _ => ⟨8, fInv⟩
  | .inf n, .fin nq mq _ => if mq = 0 then ⟨8, fInv⟩ else ⟨if n = nq then 15 else 0, fInx⟩
  | .fin n m e, .fin nq mq eq =>
    if mq = 0 then ⟨8, fInv⟩
    else
      let base := min e (eq - 30)
      let t := signedAt n (m * 255) e base
      let dist (k : Nat) : Nat :=
        match xMul (fmtF32.read (nq4Level k)) (.fin nq mq eq) with
        | ⟨.fin n2 m2 e2, _⟩ => (t - signedAt n2 m2 e2 base).natAbs
        | _ => 0
      let best := (List.range 16).foldl (fun b k =>
        if dist k < dist b ∨ (dist k = dist b ∧ k % 2 = 0) then k else b) 0
      ⟨best, if dist best = 0 then 0 else fInx⟩

/-! ### The block-fixed plane form (R56, R57) -/

/-- A block-fixed block: EXP, significands, INX and SAT marks, planes. -/
structure FixBlock where
  xcode : Nat
  q : List Int
  inx : Bool
  sat : Bool
  flags : FFlags
deriving DecidableEq, Repr

/-- The exponent e of a block of P planes with exponent code x (R56). -/
def blockExp (x p : Nat) : Int := (x : Int) - 127 - ((p : Int) - 2)

/-- A finite value over `2^e`, rounded to an integer; and whether that changed it. -/
def roundOver (mode : Round) (e : Int) : FVal → Int × Bool
  | .fin n m ev => toIntRound mode n m (ev - e)
  | _ => (0, false)

/-- Raises the exponent code until every element fits, re-rounding from the values (R57). -/
def fitBlock (mode : Round) (p : Nat) (v : List FVal) : Nat → Nat → Nat
  | 0, x => x
  | fuel + 1, x =>
    if x < 255 ∧ (v.any fun a => decide ((2 ^ (p - 1) : Nat) - 1 < (roundOver mode (blockExp x p) a).1)) = true
    then fitBlock mode p v fuel (x + 1) else x

/-- The exponent code that R57 starts from. -/
def startCode (v : List FVal) : Nat :=
  let logs := v.filterMap fun a =>
    match a with
    | .fin _ m e => if m = 0 then none else some ((bitLen m : Int) - 1 + e)
    | _ => none
  match logs with
  | [] => 0
  | x :: t => (min (max (t.foldl max x + 127) 1) 255).toNat

/-- One element of the block: its significand, whether it saturated, the flags (R57). -/
def fixElem (mode : Round) (p : Nat) (e : Int) (v : FVal) : Int × Bool × FFlags :=
  let hi : Int := (2 ^ (p - 1) : Nat) - 1
  let lo : Int := -(2 ^ (p - 1) : Nat)
  match v with
  | .nan _ => (0, false, fInv)
  | .inf n => if n then (lo, true, fOfl) else (hi, true, fOfl)
  | .fin _ _ _ =>
    let r := (roundOver mode e v).1
    if hi < r then (hi, true, fOfl) else if r < lo then (lo, true, fOfl) else (r, false, 0)

/-- Whether a finite value differs from `q × 2^e`. -/
def fixInexact (e : Int) (v : FVal) (q : Int) : Bool :=
  match v with
  | .fin n m ev =>
    let b := min ev e
    decide (signedAt n m ev b ≠ q * (2 ^ (e - b).toNat : Nat))
  | _ => false

/-- Converts values to block-fixed form with `p` planes (R57). -/
def toFix (mode : Round) (p : Nat) (v : List FVal) : FixBlock :=
  let x := fitBlock mode p v 256 (startCode v)
  let e := blockExp x p
  let el := v.map (fixElem mode p e)
  let q := el.map fun t => t.1
  let inx := (v.zip q).any fun t => fixInexact e t.1 t.2
  ⟨x, q, inx, el.any fun t => t.2.1, el.foldl (fun f t => f ||| t.2.2) (if inx then fInx else 0)⟩

/-- Plane `j` of a block: bit l is bit j of the significand of element l (R56). -/
def plane (q : List Int) (j : Nat) : Nat := ofPlane q j 0
where
  /-- The bits from element `l` on. -/
  ofPlane : List Int → Nat → Nat → Nat
    | [], _, _ => 0
    | a :: t, j, l => (if bitOf (lowBits 32 a) j then 2 ^ l else 0) + ofPlane t j (l + 1)

/-- The words of a block: the header, then the planes, the sign plane first (R56). -/
def fixWords (p : Nat) (b : FixBlock) : List Nat :=
  ((if b.sat then 2 ^ 17 else 0) + (if b.inx then 2 ^ 16 else 0) + p * 2 ^ 8 + b.xcode)
    :: (List.range p).map fun k => plane b.q (p - 1 - k)

/-- The significand of element `l` from planes given most significant first (R56). -/
def planeElem (planes : List Nat) (l : Nat) : Int :=
  readInt planes.length false (planes.foldl (fun v w => v * 2 + (if bitOf w l then 1 else 0)) 0)

end Sys2Proof.Machine
end

