-- ==== Sys2Proof/Machine/Flags.lean ====
section
/-!
DEFINITION. What the floating cards do to sources and results around the exact operation, and the flags that this raises (R61, R126):
absolute value, negation, flushing.
-/
namespace Sys2Proof.Machine

/-- The sign bit's place value of a format. -/
def FFmt.signBit (f : FFmt) : Nat := 2 ^ (f.ebits + f.mbits)

/-- Absolute value, then negation, of a pattern (R106). -/
def FFmt.modify (f : FFmt) (aa na : Bool) (w : Nat) : Nat :=
  let m := w % f.signBit
  let neg := (if aa then false else decide (f.signBit ≤ w % (2 * f.signBit))) ^^ na
  if neg then m + f.signBit else m

/-- The flags of one replacement by a zero (R61). -/
def ftzFlags : FFlags := fUfl ||| fInx

/-- A pattern flushed under FTZ, with the flags of the replacement (R61). -/
def FFmt.flush (f : FFmt) (ftz : Bool) (w : Nat) : FRes :=
  if ftz && f.isSub w then ⟨f.zeroOf w, ftzFlags⟩ else ⟨w, 0⟩

/-- A source: absolute value, negation, flush (R126). -/
def FFmt.source (f : FFmt) (ftz aa na : Bool) (w : Nat) : FRes := f.flush ftz (f.modify aa na w)

/-- A result: flushed under FTZ; the flags of the operation and of the replacement (R126). -/
def FFmt.result (f : FFmt) (ftz : Bool) (r : FRes) : FRes :=
  let y := f.flush ftz r.bits
  ⟨y.bits, r.flags ||| y.flags⟩

end Sys2Proof.Machine
end

