-- ==== Sys2Proof/Machine/Convert.lean ====
section
/-!
DEFINITION. The conversion cards (R66 to R69).
-/
namespace Sys2Proof.Machine

/-- An integer result as it stands in a register or a pair: extended to 32 bits (R51). -/
def extendInt (t : Elem) (v : Int) : Nat := if t.bits = 64 then lowBits 64 v else lowBits 32 (readInt t.bits t.unsigned (lowBits t.bits v))

/-- A finite or infinite value to an integer type (R66): clamped with invalid outside the range, else inexact when rounding changed
it. -/
def toInteger (t : Elem) (mode : Round) (v : FVal) : FRes :=
  match v with
  | .nan _ => ⟨0, fInv⟩
  | .inf n => ⟨extendInt t (if n then intMin t.bits t.unsigned else intMax t.bits t.unsigned), fInv⟩
  | .fin n m e =>
    let r := toIntRound mode n m e
    let c := clampInt t.bits t.unsigned r.1
    if c = r.1 then ⟨extendInt t c, if r.2 then fInx else 0⟩ else ⟨extendInt t c, fInv⟩

/-- `cvt` on a source's bits (R66), without flushing. -/
def cvtBits (o : CvtOp) (w : Nat) : FRes :=
  match o.src.fmt, o.dst.fmt with
  | none, none =>
    let v := readInt o.src.bits o.src.unsigned w
    ⟨extendInt o.dst (if o.sat then clampInt o.dst.bits o.dst.unsigned v else v), 0⟩
  | none, some f => f.ofInt o.rm o.sat (readInt o.src.bits o.src.unsigned w)
  | some g, none => toInteger o.dst o.rm (g.read w)
  | some g, some f => f.deliver o.rm o.sat (g.read w)

/-- Flushing on the formats that R61 flushes. -/
def flushElem (ftz : Bool) (t : Elem) (w : Nat) : FRes :=
  match t.fmt with
  | some f => f.flush (ftz && t.flushable) w
  | none => ⟨w, 0⟩

/-- `cvt` (R66). -/
def cvtFx (o : CvtOp) (e : Env) : Fx :=
  let raw := e.val o.src.wide o.a.r % 2 ^ (max o.src.bits 8)
  let v := flushElem o.ftz o.src raw
  let y := cvtBits o v.bits
  let z := flushElem o.ftz o.dst y.bits
  { Fx.out o.dst.wide o.d z.bits with fpst := v.flags ||| y.flags ||| z.flags }

/-- `cvt` (R66). -/
def execCvt (o : CvtOp) (s : State) : Out :=
  s.runCard 8 { u := o.u, g := o.g, used := [(o.a, width o.src.wide)], fx := cvtFx o }

/-! ### cvtp (R67) -/

/-- Packs one element (R67). Under a NaN scale it raises no flag, a signalling source included, of which the spec is silent
(log 112). -/
def packElem (o : CvtpOp) (scale sup c x : Nat) : FRes :=
  match o.fmt.fmt with
  | none => nq4Encode sup c (fmtF32.read x)
  | some f =>
    if o.fmt.mx ∧ scale = 0xFF then f.nanRes 0
    else f.deliver o.rm o.sat ((fmtF32.read x).scale (if o.fmt.mx then 127 - (scale : Int) else 0))

/-- Expands one element. -/
def expandElem (o : CvtpOp) (scale sup c w : Nat) : FRes :=
  match o.fmt.fmt with
  | none => nq4Deliver .rn sup c w
  | some f =>
    if o.fmt.mx then fmtF32.deliver o.rm o.sat (mxValue f scale w) else fmtF32.deliver o.rm o.sat (f.read w)

/-- `cvtp` (R67): B holds the scale, or S for `.nq4`, and C the code c. -/
def cvtpFx (o : CvtpOp) (e : Env) : Fx :=
  let n := o.fmt.packed
  let w := o.fmt.bits
  let b := e.val false o.b.r
  let c := e.val false o.c.r % 256
  if o.xp then
    let a := e.val false o.a.r
    let el := (List.range n).map fun i => expandElem o (b % 256) b c (fieldOf a (w * i) w)
    { regs := el.mapIdx fun i r => (o.d.toNat + i, BitVec.ofNat 32 r.bits)
      fpst := el.foldl (fun f r => f ||| r.flags) 0 }
  else
    let el := (List.range n).map fun i => packElem o (b % 256) b c (e.reg (o.a.r + BitVec.ofNat 8 i)).toNat
    { Fx.word o.d (el.foldr (fun r v => v * 2 ^ w + r.bits) 0) with fpst := el.foldl (fun f r => f ||| r.flags) 0 }

/-- `cvtp` (R67). -/
def execCvtp (o : CvtpOp) (s : State) : Out :=
  s.runCard 12 { u := false, g := o.g, used := [(o.a, if o.xp then 1 else o.fmt.packed), (o.b, 1), (o.c, 1)], fx := cvtpFx o }

/-! ### cvtb (R68) -/

/-- A block's element as FP32: `q × 2^e` (R56, R62). -/
def fixToF32 (mode : Round) (q e : Int) : FRes := fmtF32.round mode false (decide (q < 0)) q.natAbs e false

/-- Writes FP results of lanes, given as word and flags per lane. -/
def writeLanes (r : Rope) (active : Word) (d : BitVec 8) (f : Nat → FRes) : Rope :=
  (lanesOf active).foldl (fun (r : Rope) l => (r.setX l d.toNat (BitVec.ofNat 32 (f l).bits)).orFpst (f l).flags) r

/-- `cvtb.pk` (R68): inactive lanes contribute +0. -/
def cvtbPack (r : Rope) (active : Word) (rnd : Round) (p : Nat) (d : BitVec 8) (a : RSrc) (c : Option RSrc) : Rope :=
  let v := (List.range 32).map fun l => fmtF32.read (if active.getLsbD l then (r.x l a.r.toNat).toNat else 0)
  let b := toFix rnd p v
  let words := fixWords p b
  let e := blockExp b.xcode p
  let r := r.useUp active a 1
  let r := match c with
    | none => r
    | some c => r.useUp active c 1
  let r := writeLanes r active d fun l => ⟨words.getD l 0, 0⟩
  let r := match c with
    | none => r
    | some c => writeLanes r active c.r fun l => fixToF32 .rn (b.q.getD l 0) e
  if active = 0 then r else r.orFpst b.flags

/-- `cvtb.xp` (R68): the header from lane 0, plane p − j from lane j, whatever their masks. -/
def cvtbExpand (r : Rope) (active : Word) (rnd : Round) (d : BitVec 8) (a : RSrc) : Rope :=
  let h := (r.x 0 a.r.toNat).toNat
  let p := fieldOf h 8 8
  let bad := decide (fieldOf h 18 14 ≠ 0) || p == 0 || decide (16 < p)
  let planes := (List.range p).map fun k => (r.x (k + 1) a.r.toNat).toNat
  let e := blockExp (fieldOf h 0 8) p
  writeLanes (r.useUp active a 1) active d fun l =>
    if bad then ⟨0x7FC00000, fInv⟩ else fixToF32 rnd (planeElem planes l) e

/-- `cvtb` (R68). -/
def execCvtb (g : Guard) (rnd : Round) (d : BitVec 8) (a : RSrc) (form : CvtbForm) (s : State) : Out :=
  s.issue fun x =>
    let active := x.active g
    match form with
    | .pk pm1 c => x.done (cvtbPack x.rope active rnd (pm1.toNat + 1) d a c) 12
    | .xp => x.done (cvtbExpand x.rope active rnd d a) 12

/-- `rint` (R69). -/
def rintFx (o : RintOp) (e : Env) : Fx :=
  match o.fmt.fmt with
  | none => {}
  | some f =>
    let v := f.flush o.ftz (e.val o.fmt.wide o.a.r % 2 ^ f.width)
    let y := f.integral o.rm o.x v.bits
    { Fx.out o.fmt.wide o.d y.bits with fpst := v.flags ||| y.flags }

/-- `rint` (R69). -/
def execRint (o : RintOp) (s : State) : Out :=
  s.runCard 8 { u := o.u, g := o.g, used := [(o.a, width o.fmt.wide)], fx := rintFx o }

end Sys2Proof.Machine
end

