-- ==== Sys2Proof/Machine/View.lean ====
section
/-!
DEFINITION. Format windows (R220 to R222): a view block of 32 elements, decoded from raw bytes and scales each time it is read, so that a
read after a raw write decodes the new data.
-/
namespace Sys2Proof.Machine

/-- A format window's descriptor (R220). -/
structure Window where
  sbase : Nat
  fmt : Nat
  colour : Nat
  en : Bool
  rbase : Nat
  vpages : Nat
  vbase : Nat
deriving DecidableEq, Repr

/-- The fields of a descriptor's 256 bits (R220). -/
def Window.ofBits (d : Nat) : Window :=
  ⟨fieldOf d 200 48, fieldOf d 192 8, fieldOf d 178 14, bitOf d 176, fieldOf d 128 48, fieldOf d 96 32, fieldOf d 0 48⟩

/-- Window `j` of stack `k`. -/
def State.window (s : State) (k j : Nat) : Window := Window.ofBits (SMap.get 0 s.windows (8 * k + j))

/-- Whether a view address lies in a window's view range. -/
def Window.covers (w : Window) (a : Nat) : Bool := w.en && decide (w.vbase ≤ a) && decide (a < w.vbase + 4096 * w.vpages)

/-- The enabled window that covers a view address, for readers of its colour (R222). -/
def State.windowAt (s : State) (a colour : Nat) : Option Window :=
  ((List.range 8).map (s.window ((a - 0x080000000000) / 2 ^ 37))).find? fun w => w.covers a && w.colour == colour

/-- Where element `n`'s block of a window lies: raw bytes and their number, scale bytes as (address, number) (R221). -/
def Window.raw (w : Window) (n : Nat) : Nat × Nat × List (Nat × Nat) :=
  if w.fmt = 0x28 then
    let rec0 := w.sbase + 260 * (n / 16384)
    (w.rbase + 32 * (n / 64), 32, [(rec0, 4), (rec0 + 4 + n / 64 % 256, 1)])
  else
    let bits := ((elemOf w.fmt).map Elem.bits).getD 8
    (w.rbase + n / 32 * (4 * bits), 4 * bits, [(w.sbase + n / 32, 1)])

/-- The 32 values of the block that begins at element `n` (R221). -/
def State.windowValues (s : State) (w : Window) (n : Nat) : List FVal :=
  let x := w.raw n
  let raw := s.num x.1 x.2.1
  let sc := x.2.2.map fun y => s.num y.1 y.2
  match (elemOf w.fmt).bind Elem.fmt with
  | some f => (List.range 32).map fun l => mxValue f (sc.getD 0 0) (fieldOf raw (x.2.1 / 4 * l) (x.2.1 / 4))
  | none => (List.range 32).map fun l => nq4Value (sc.getD 0 0) (sc.getD 1 0) (fieldOf raw (4 * (n % 64 + l)) 4)

/-- Whether a raw or scale byte of a block carries poison. -/
def State.windowPoison (s : State) (w : Window) (n : Nat) : Bool :=
  let x := w.raw n
  s.poisoned x.1 x.2.1 || x.2.2.any fun y => s.poisoned y.1 y.2

/-- The block-fixed block that a view shows at an address, 36 bytes with its header, and whether it reads as poisoned (R221, R222). A
view byte that no window covers for this colour reads as poisoned. -/
def State.viewBlock (s : State) (a colour : Nat) : List Byte × Bool :=
  match s.windowAt a colour with
  | none => (List.replicate 36 memInit, true)
  | some w =>
    let n := a - w.vbase
    if n % 32 ≠ 0 then (leBytes 36 (Config.misreadView a).toNat, s.windowPoison w (n / 32 * 32))
    else ((fixWords 8 (toFix .rn 8 (s.windowValues w n))).flatMap (leBytes 4), s.windowPoison w n)

end Sys2Proof.Machine
end

