-- ==== Sys2Proof/Machine/Jobs.lean ====
section
/-!
DEFINITION. Engine jobs at work (R265 to R268, R270, R306, R307, R417): edges between footprints, the scheduler, the movement of bytes with
their tags and poison, arrivals, the end of a job.
-/
namespace Sys2Proof.Machine

/-! ### Access to jobs -/

/-- The job with this id. -/
def State.job? (s : State) (id : Nat) : Option Job := s.jobs.find? fun j => j.id == id

/-- Replaces the job with the same id. -/
def State.setJob (s : State) (j : Job) : State := { s with jobs := s.jobs.map fun x => if x.id = j.id then j else x }

/-- Whether a slot waits for jobs of its party to end, or for a slot of the load-convert unit (R140, R251). -/
def Wait.forJobs : Wait → Bool
  | .pages => true
  | .ldmSlot => true
  | _ => false

/-- Takes a job out of the table: its card or slot frees, and instructions that wait for that are issued again (R140, R251, R266). -/
def State.dropJob (s : State) (id : Nat) : State :=
  { s with jobs := s.jobs.filter (fun j => j.id != id), parties := s.parties.map fun (p : Party) => p.wake Wait.forJobs }

/-- The rope of an issuer, for records; a job without a rope gives none. -/
def Job.ropeNo (j : Job) : Nat :=
  match j.by' with
  | .rope _ k => k
  | _ => 0

/-- What a job's later arrivals and its completion release (R307). -/
def Job.knows (j : Job) : Know := j.know.learn j.agent (j.rel + 1)

/-- A job releases: an arrival or its completion. -/
def Job.release (j : Job) : Job := { j with rel := j.rel + 1 }

/-! ### Edges (R306) -/

/-- The cairn word as a part of a job's write footprint, where R268 lists it: `ldm` and `cpy` into scratch. -/
def Job.cairnFoot (j : Job) : List Foot :=
  match j.cairn with
  | none => []
  | some c => if j.writes.any fun f => f.scratch.isSome then [⟨some c.uid, 8 * c.idx, 8 * c.idx + 8⟩] else []

/-- Whether any range of one list meets any of another. -/
def anyMeets (a b : List Foot) : Bool := a.any fun x => b.any x.meets

/-- Whether a later job waits for an earlier one (R306): an overlap of two cairn words alone makes no edge. -/
def Job.edge (a b : Job) : Bool :=
  anyMeets (a.writes ++ a.cairnFoot) b.reads || anyMeets a.reads (b.writes ++ b.cairnFoot) || anyMeets a.writes b.writes
    || anyMeets a.cairnFoot b.writes || anyMeets a.writes b.cairnFoot

/-- Whether a job runs on its issuing die, among the edges of that die (R383). -/
def Job.local' (j : Job) : Bool :=
  match j.kind with
  | .handle _ _ _ => false
  | .replay _ => false
  | _ => true

/-- Whether some earlier job of the die has an edge to this one. -/
def State.jobHeld (s : State) (j : Job) : Bool :=
  (s.jobs.takeWhile fun x => x.id != j.id).any fun x => x.die == j.die && x.local' && x.edge j

/-- Whether a snapshot that has not been cut holds a job from starting (R280): one that was issued after it; once the snapshot runs, any
other job that has not yet written. -/
def State.snapHolds (s : State) (id : Nat) : Bool :=
  s.snap.any fun x => !x.cut && id != x.job &&
    ((((s.jobs.dropWhile fun j => j.id != x.job).drop 1).any fun j => j.id == id) ||
      ((s.job? x.job).any Job.running && (s.job? id).any fun j => j.moved == 0))

/-! ### The scheduler (R267) -/

/-- Whether a job waits for an engine of a die, with nothing in its way. -/
def State.jobReady (s : State) (die : Nat) (j : Job) : Bool :=
  j.die == die && j.card && j.local' && !j.running && !(s.jobHeld j) && !(s.snapHolds j.id)

/-- The jobs that hold engines of a die. -/
def State.engines (s : State) (die : Nat) : List Job := s.jobs.filter fun j => j.die == die && j.card && j.local' && j.running

/-- The queue for which a job runs. -/
def State.jobQueue (s : State) (j : Job) : Option Nat :=
  match j.by' with
  | .rope uid _ => (s.party? uid).map Party.queue
  | .command q _ => some q
  | .node g _ => ((s.graphs.find? fun x => x.handle == g).bind GraphRec.run).bind fun (r : RunRec) => match r.cmd with
    | .command q _ => some q
    | .node _ _ => none
  | .peer _ _ => none

/-- A job takes an engine, which its queue's bucket counts at the next settlement (R321). -/
def State.noteEngine (s : State) (j : Job) : State :=
  match s.jobQueue j with
  | none => s
  | some q =>
    let b := (SMap.get QueueRec.zero s.queues q).bucket
    let r := SMap.get Bucket.zero s.buckets b
    { s with buckets := SMap.set Bucket.zero s.buckets b { r with ran := NSet.set r.ran j.id true } }

/-- Starts a job: a stream reserves its slot if the ring has one free (R278), once the descriptor's page is resident. -/
def State.startJob (s : State) (j : Job) : State :=
  let s := s.noteEngine j
  match j.kind with
  | .stream p ring none =>
    if s.shutPages true ring.desc 64 == [] && s.ringFree ring then
      let x := s.ringReserve ring
      x.1.setJob { j with running := true, kind := .stream p ring (some x.2) }
    else s.setJob { j with running := true }
  | _ => s.setJob { j with running := true }

/-- Whether a job that has moved `n` bytes stands at a 4 KiB boundary, or at the first granule's edge after one. -/
def atBoundary (n : Nat) : Bool := decide (n % 4096 < 16)

/-- The low jobs of a die that do not hold the engine that the floor keeps (R267). -/
def State.overFloor (s : State) (die : Nat) : List Job := ((s.engines die).filter fun j => j.low).tail

/-- A low job that gives up its engine to a normal one: at a 4 KiB boundary, and not the one that the floor keeps (R267). -/
def State.yielder (s : State) (die : Nat) : Option Job := (s.overFloor die).find? fun j => atBoundary j.moved

/-- Whether a running low job has to give up its engine at its next 4 KiB boundary: every engine is taken, a normal job is ready for this
one (R267). -/
def State.mustYield (s : State) (j : Job) : Bool :=
  ((s.overFloor j.die).any fun x => x.id == j.id) && decide (8 ≤ (s.engines j.die).length)
    && decide (((s.engines j.die).filter fun x => !x.low).length < 7) && s.jobs.any fun x => !x.low && s.jobReady j.die x

/-- Whether a job may move on to `to'` bytes: one that has to yield goes no further than its next boundary (R267). -/
def State.inQuantum (s : State) (j : Job) (to' : Nat) : Bool :=
  !(s.mustYield j) || (!(atBoundary j.moved) && decide (to' < (j.moved / 4096 + 1) * 4096 + 16))

/-- The scheduler's next dispatch on a die (R267): normal jobs first, the oldest first; at most seven engines run normal jobs while a
low job is ready or running. -/
def State.dispatch (s : State) (die : Nat) : State :=
  let run := s.engines die
  let ready := s.jobs.filter (s.jobReady die)
  let normal := ready.find? fun j => !j.low
  let low := ready.find? fun j => j.low
  let nRun := (run.filter fun j => !j.low).length
  let lRun := (run.filter fun j => j.low).length
  let most := if low.isSome || lRun != 0 then 7 else 8
  if run.length < 8 then
    match normal, low with
    | some j, some l => if nRun < most then s.startJob j else if lRun = 0 then s.startJob l else s
    | some j, none => if nRun < most then s.startJob j else s
    | none, some l => s.startJob l
    | none, none => s
  else
    match normal with
    | none => s
    | some j =>
      if nRun < most then
        match s.yielder die with
        | none => s
        | some l => (s.setJob { l with running := false }).startJob j
      else s

/-! ### Moving bytes -/

/-- The elements of a plan. -/
def CopyPlan.count (p : CopyPlan) : Nat := p.lines * p.len

/-- The bytes of a plan (R271). -/
def CopyPlan.total (p : CopyPlan) : Nat := p.count * p.w

/-- Where element `t` of a side lies, in the order of delivery. -/
def Side.at (x : Side) (p : CopyPlan) (t : Nat) : Nat := x.base + t / p.len * x.ls + t % p.len * x.es

/-- The contiguous destination range that holds element `t`: all lines, its line, or the element alone. -/
def CopyPlan.run (p : CopyPlan) (t : Nat) : Nat × Nat :=
  if p.dst.es = p.w then
    if p.dst.ls = p.len * p.w then (p.dst.base, p.dst.base + p.total)
    else (p.dst.base + t / p.len * p.dst.ls, p.dst.base + t / p.len * p.dst.ls + p.len * p.w)
  else (p.dst.at p t, p.dst.at p t + p.w)

/-- Whether `moved` bytes end where an engine's write may end: at the end, at a granule's edge, or where the next element does not
follow on (R306: an aligned granule is written as one). -/
def CopyPlan.edgeAt (p : CopyPlan) (moved : Nat) : Bool :=
  moved % p.w == 0 && (decide (p.total ≤ moved) ||
    (let t := moved / p.w
     p.dst.at p t % 16 == 0 || p.dst.at p t != p.dst.at p (t - 1) + p.w))

/-- A byte on its way: destination, source, value, poison. -/
structure Move where
  dst : Nat
  src : Nat
  val : Byte
  bad : Bool

/-- Whether any byte of a range lies in a page that the job has met lost (R417). -/
def Job.lostAt (j : Job) (a n : Nat) : Bool := (blocksOf (2 ^ 21) a n).any fun q => NSet.has j.lost q

/-- A peer's answer that holds a range. -/
def Job.answer (j : Job) (a n : Nat) : Option (List Byte × Bool) :=
  (j.got.find? fun x => decide (x.1 ≤ a) && decide (a + n ≤ x.1 + x.2.1.length)).map fun x =>
    ((x.2.1.drop (a - x.1)).take n, x.2.2)

/-- The bytes of a source element, and whether each carries poison (R270). -/
def State.readElem (s : State) (p : Party) (j : Job) (c : CopyPlan) (t : Nat) : List Byte × List Bool :=
  let a := c.src.at c t
  let all (x : List Byte × Bool) : List Byte × List Bool := (x.1, x.1.map fun _ => x.2)
  if c.zero then all (List.replicate c.w 0#8, false)
  else if c.src.scratch then (p.sbytes a c.w, (List.range c.w).map fun i => p.spoisoned (a + i) 1)
  else if c.view then all (s.viewBlock a j.colour)
  else if isPeer a then
    all (((j.answer a c.w).map Prod.fst).getD (List.replicate c.w memInit), ((j.answer a c.w).map Prod.snd).getD true)
  else (s.bytes a c.w, (List.range c.w).map fun i => s.poisoned (a + i) 1 || j.lostAt (a + i) 1)

/-- The moves of one element. -/
def State.elemMoves (s : State) (p : Party) (j : Job) (c : CopyPlan) (t : Nat) : List Move :=
  let x := s.readElem p j c t
  let d := c.dst.at c t
  let a := c.src.at c t
  x.1.mapIdx fun i b => ⟨d + i, a + i, b, x.2.getD i false⟩

/-- Cuts moves into pieces that lie in one granule and follow on from byte to byte. -/
def cutPieces : List Move → List (List Move)
  | [] => []
  | m :: t =>
    match cutPieces t with
    | [] => [[m]]
    | g :: r =>
      match g with
      | [] => [m] :: r
      | h :: _ => if h.dst = m.dst + 1 ∧ h.dst % 16 ≠ 0 then (m :: g) :: r else [m] :: g :: r

/-- The state of a move in progress: the machine, the issuing party's scratch, the job, whether it has stopped. -/
structure Mover where
  s : State
  p : Party
  j : Job
  stop : Bool

/-- Whether a piece is a whole granule, aligned on both sides, that follows on in its source. -/
def wholeGranule (g : List Move) : Bool :=
  g.length == 16 && (match g with
    | [] => false
    | m :: _ => m.dst % 16 == 0 && m.src % 16 == 0 && (g.mapIdx fun i x => x.src == m.src + i).all id)

/-- The source tag of a whole granule: only from scratch, or through LDCAP (R270). -/
def Mover.srcTag (t : Mover) (c : CopyPlan) (a : Nat) : Bool :=
  if c.zero || c.view then false
  else if c.src.scratch then NSet.has t.p.stag (a / 16)
  else !(isPeer a) && capHas c.src.cap pLDCAP && t.s.tagAt a && !(t.j.lostAt a 16)

/-- The first fault that a job meets stands (R270). -/
def Job.meet (j : Job) (code : Nat) : Job := if j.fault = 0 then { j with fault := code } else j

/-- Fault code POISON (R276). -/
def fPOISON : Nat := 0x10
/-- Fault code UNBACKED (R276). -/
def fUNBACKED : Nat := 0x40

/-- Poison in the destination of poisoned bytes: the half-line of the span, the 128-byte line of scratch (R270). -/
def Mover.taint (t : Mover) (scratch : Bool) (a n : Nat) : Mover :=
  if scratch then
    let hs := (blocksOf 128 a n).flatMap fun ln => [2 * ln, 2 * ln + 1]
    { t with p := { t.p with spoison := hs.foldl (fun m h => NSet.set m h true) t.p.spoison }
             j := { t.j.meet fPOISON with hot := hs.foldl (fun m h => NSet.set m h true) t.j.hot } }
  else
    { t with s := t.s.addPoison a n
             j := { t.j.meet fPOISON with hot := (blocksOf 64 a n).foldl (fun m h => NSet.set m h true) t.j.hot } }

/-- Writes one piece; `tag` says that it is a whole granule whose tag may travel (R270). -/
def Mover.putTag (t : Mover) (c : CopyPlan) (g : List Move) (tag : Bool) : Mover :=
  match g with
  | [] => t
  | m :: _ =>
    if t.stop then t
    else
      let n := g.length
      let bs := g.map Move.val
      let bad := g.any Move.bad
      let q : Quad := BitVec.ofNat 128 (leNat bs)
      let keep := tag && !bad && (c.dst.scratch || capHas c.dst.cap pSTCAP)
      let moved (t : Mover) (w : Nat) : Mover := { t with j := { t.j with moved := t.j.moved + n, written := t.j.written + w } }
      if c.dst.scratch then
        let p := t.p.swrite false [] m.dst bs
        let p := if keep && t.s.engineTag q then { p with stag := NSet.set p.stag (m.dst / 16) true } else p
        let t := moved { t with p := p } n
        if bad then t.taint true m.dst n else t
      else if keep && !(capHas q pGLOBAL) then { t with stop := true, j := { t.j with fault := Cause.capPerm.code } }
      else if isPeer m.dst then
        moved { t with s := t.s.sendPeer m.dst (.store bs (some bad)) (.job t.j.id) t.j.colour (capBase c.dst.cap) t.j.die, j := if bad then t.j.meet fPOISON else t.j } n
      else if !(t.s.backedAt m.dst) || t.j.lostAt m.dst n then
        moved { t with s := t.s.countError t.j.die 5 n, j := t.j.meet fUNBACKED } 0
      else
        let s := (t.s.storeIn (.plain t.j.agent t.j.rel) m.dst bs).touchPage true m.dst n
        let s := if keep && s.engineTag q then s.setTagAt m.dst true else s
        let t := moved { t with s := s, p := t.p.dropLines (m.dst / 128 * 128) (m.dst + n) } n
        let t := if bad then t.taint false m.dst n else t
        if t.s.uncut then { t with s := t.s.snapThrough m.dst n } else t

/-- Writes one piece (R270). -/
def Mover.put (t : Mover) (c : CopyPlan) (g : List Move) : Mover :=
  match g with
  | [] => t
  | m :: _ => t.putTag c g (wholeGranule g && t.srcTag c m.src)

/-- The half-lines whose last byte a step writes and that the job writes whole, with no poison: one engine write clears their poison
(R219). -/
def CopyPlan.heals (c : CopyPlan) (j : Job) (t0 t1 : Nat) : List Nat :=
  (((List.range (t1 - t0)).flatMap fun i =>
    let t := t0 + i
    let r := c.run t
    (wholeHalves r.1 (r.2 - r.1)).filter fun h =>
      decide (c.dst.at c t ≤ h * 64 + 63) && decide (h * 64 + 63 < c.dst.at c t + c.w) && !(NSet.has j.hot h))).eraseDups

/-- Clears the poison of half-lines that an engine has written whole. -/
def Mover.heal (t : Mover) (c : CopyPlan) (hs : List Nat) : Mover :=
  if c.dst.scratch then { t with p := { t.p with spoison := hs.foldl (fun m h => NSet.set m h false) t.p.spoison } }
  else { t with s := { t.s with poison := hs.foldl (fun m h => if t.s.backedAt (h * 64) then NSet.set m h false else m) t.s.poison } }

/-- The party whose scratch a job uses; a job without one has an empty stand-in that nothing reads. -/
def State.jobParty (s : State) (j : Job) : Option Party := j.uid?.bind s.party?

/-- A party without anything, for jobs that use no scratch. -/
def Party.nobody : Party :=
  { uid := 0, launch := 0, record := 0, index := 0, queue := 0, colour := 0, core := 0, pslot := 0, regs := 0, scratchSize := 0
    capacity := 0, status := .ended, ropes := [], teams := [], scratch := [], stag := [], spoison := [], pages := [], backed := []
    present := [], dirty := [], bars := [], cairns := [], ssync := [], code := 0, codeTag := false, frame := 0, cstackAt := 0
    backingAt := 0, saveAt := 0, killed := false, holds := [], replay := [] }

/-- Moves elements t0 to t1 of a plan. -/
def State.moveElems (s : State) (j : Job) (c : CopyPlan) (t0 t1 : Nat) : Mover :=
  let p := (s.jobParty j).getD Party.nobody
  let moves := (List.range (t1 - t0)).flatMap fun i => s.elemMoves p j c (t0 + i)
  let t := (cutPieces moves).foldl (fun t g => Mover.put t c g) ⟨s, p, j, false⟩
  if t.stop then t else t.heal c (c.heals t.j t0 t1)

/-! ### Waiting at pages and peers (R284, R417, R375) -/

/-- The far pages that a range of elements waits for, and those that it has not met lost. -/
def State.jobShut (s : State) (j : Job) (c : CopyPlan) (t0 t1 : Nat) : List (Bool × Nat) :=
  ((List.range (t1 - t0)).flatMap fun i =>
    let t := t0 + i
    (if c.src.scratch || c.zero || c.view then [] else (s.shutPages false (c.src.at c t) c.w).map fun q => (false, q)) ++
    (if c.dst.scratch then [] else (s.shutPages true (c.dst.at c t) c.w).map fun q => (true, q))).eraseDups.filter
      fun x => !(NSet.has j.lost x.2)

/-- The peer bytes that a range of elements still needs: whole elements, with those asked for left out. -/
def Job.needs (j : Job) (c : CopyPlan) (t0 t1 : Nat) : List Nat :=
  if c.src.scratch || c.zero then []
  else
    ((List.range (t1 - t0)).map fun i => c.src.at c (t0 + i)).filter fun a => isPeer a && (j.answer a c.w).isNone

/-- Asks the peers for the elements that no request has asked for; a device without a route answers at once (R373). -/
def State.askFor (s : State) (j : Job) (base w : Nat) (l : List Nat) : State :=
  l.foldl (fun (s : State) a =>
    if s.peerOut.any fun r => r.src == .job j.id && r.addr == a && r.op == .load w then s
    else if s.routed (peerOf a) then s.sendPeer a (.load w) (.job j.id) j.colour base j.die
    else
      match s.job? j.id with
      | none => s
      | some j' => s.setJob { j' with got := (a, List.replicate w memInit, true) :: j'.got }) s

/-- A job waits for far pages (R284). -/
def Job.waitFor (j : Job) (l : List Nat) : Job := { j with waits := l.foldl (fun m q => NSet.set m q true) j.waits }

/-- A job has moved the bytes that waited: its next ones start afresh at every page (R286, R417). -/
def Job.goOn (j : Job) : Job := { j with waits := [], lost := [] }

/-! ### Arrivals and the end of a job -/

/-- An arrival of a job's bytes at its cairn, a release of what it has moved (R161, R307). -/
def State.jobArrive (s : State) (j : Job) (n : Nat) : State :=
  match j.cairn with
  | none => s
  | some c => (s.arrive c n j.knows j.ropeNo j.id true).setJob j.release

/-- Where the records of a job go: a rope's ring as bound when it is posted; a command's or node's record is posted with the
command (R276). -/
def State.postJob (s : State) (j : Job) (status fault detail : Nat) : State :=
  match j.by' with
  | .rope uid k => s.postRope uid k ⟨status, fault, j.id, j.written, detail⟩ j.knows
  | _ => s

/-- Whether an earlier job of a die orders a later one by its completion (R306, R307). -/
def Job.before (a b : Job) : Bool := a.die == b.die && a.id != b.id && a.local' && b.local' && a.edge b

/-- A job's completion synchronises with the later jobs of its die that have an edge to it (R307): those in the table now, and those that
are accepted later. -/
def State.passOn (s : State) (j : Job) : State :=
  { s with
    jobs := s.jobs.map fun b => if j.before b then { b with know := b.know.join j.knows } else b
    endedJobs := if j.local' then s.endedJobs ++ [j] else s.endedJobs }

/-- What a job that is accepted acquires of jobs that have ended (R307). -/
def State.pastKnow (s : State) (j : Job) : Know :=
  s.endedJobs.foldl (fun (k : Know) a => if a.before j then k.join a.knows else k) j.know

/-- A stream job's slot is committed when the job ends; DROPS rises when its payload has not been written whole (R275). -/
def State.closeStream (s : State) (j : Job) : State :=
  match j.kind with
  | .stream p ring (some k) =>
    let s := if j.written < p.total then s.ringDrop ring.desc else s
    s.ringFinish ⟨ring.desc, k, none, j.knows, none, j.colour, [], false⟩
  | _ => s

/-- The end of a job's work, with no further arrival: the slot, the record, then the card (R266, R270, R276). -/
def State.endJob (s : State) (j : Job) : State :=
  let s := s.closeStream j
  let s := if j.fault ≠ 0 then s.postJob j 0x0002 j.fault 0 else if j.post then s.postJob j 0x0001 0 0 else s
  (s.passOn j).dropJob j.id

/-- Cancels a job (R270, R339): no further arrival; its CANCELLED record. -/
def State.cancelJob (s : State) (j : Job) : State :=
  let s := s.closeStream j
  let s := { s with snap := if s.snap.any (fun (x : Snap) => x.job == j.id) then none else s.snap }
  ((s.postJob j 0x0004 0 0).passOn j).dropJob j.id

/-- A job stops before its end with a fault (R270); its completion posts the record. -/
def State.overJob (s : State) (id fault : Nat) : State :=
  { s with jobs := s.jobs.map fun j => if j.id = id then { j with ceased := true, fault := fault } else j }

/-- A copy's next bytes: it moves `n` of them, then its arrival is applied (R161, R271). A step that would not end at an edge, or whose
pages or peers are not at hand, moves nothing. -/
def State.copyBytes (s : State) (j : Job) (c : CopyPlan) (n : Nat) : State :=
  let t0 := j.moved / c.w
  let t1 := (j.moved + n) / c.w
  if n = 0 ∨ j.ceased = true ∨ c.total < j.moved + n ∨ c.edgeAt (j.moved + n) = false ∨ (j.moved = 0 ∧ s.snapHolds j.id)
      ∨ s.inQuantum j (j.moved + n) = false then s
  else
    let shut := s.jobShut j c t0 t1
    let peers := j.needs c t0 t1
    if shut ≠ [] then
      (shut.foldl (fun (s : State) x => s.ask ⟨x.2, .engine, x.1, j.colour, none⟩) s).setJob (j.waitFor (shut.map Prod.snd))
    else if peers ≠ [] then s.askFor j (capBase c.src.cap) c.w peers
    else if !c.dst.scratch && !s.uncut && s.cowFull ((List.range (t1 - t0)).flatMap fun i => s.cowPages (c.dst.at c (t0 + i)) c.w) then s
    else
      let t := s.moveElems j c t0 t1
      let s := match s.jobParty j with
        | none => t.s
        | some _ => t.s.setParty t.p
      let s := s.setJob t.j.goOn
      let n' := t.j.moved - j.moved
      let s := if n' = 0 then s else s.jobArrive t.j.goOn n'
      if t.stop then s.overJob j.id t.j.fault else s

end Sys2Proof.Machine
end

