-- ==== Sys2Proof/Machine/CopyCards.lean ====
section
/-!
DEFINITION. The copy engine's cards (R269 to R279): `cpy`, `cpyc`, `cpyh`, `snap`, `cring`.
-/
namespace Sys2Proof.Machine

/-! ### What the five cards share (R269) -/

/-- The trap of a card that acts once for the rope with lane 0's operands: TMASK is lane 0, TINFO an offset (R269, R345). -/
def Ctx.trapZero (c : Ctx) (cause : Cause) (off : Int) : State := c.trap cause 1 (off % 2 ^ 64).toNat

/-- The same where the card forms no offset (log 24). -/
def Ctx.trapZeroFree (c : Ctx) (cause : Cause) : State := c.trapFree cause 1

/-- Runs a card whose issuing slot must hold all 32 lanes (R269 step 2). -/
def Ctx.whole (c : Ctx) (k : State) : State :=
  if c.entry.mask = 0xFFFFFFFF#32 then k else c.trap .partialMask c.entry.mask c.entry.mask.toNat

/-- R198 steps 1 to 7 on a quad of lane 0 over `z` bytes from an offset; a range that names a view byte needs VIEW (R222). -/
def Ctx.zeroSteps (c : Ctx) (r : Nat) (perms : Nat) (off : Int) (z align : Nat) : List (Bool × Cause) :=
  let q := c.rope.quad 0 r
  let ok := capHas q perms && (perms == pVIEW || !(namesView ((capBase q : Int) + off) z))
  c.s.useSteps c.party.colour q (c.rope.tag 0 r) ++
    [(!ok, .capPerm), (decide (off < 0) || decide ((capLen q : Int) < off + z), .capBounds),
     (((capBase q : Int) + off) % align != 0, .misaligned)]

/-- The checks of a scratch range (R269 step 5). -/
def Party.scratchSteps (p : Party) (off n : Nat) : List (Bool × Cause) :=
  [(decide (p.scratchSize < off + n), .capBounds),
   ((blocksOf 4096 off n).any fun q => !(isPriv (p.pageAt (q * 4096))), .capPerm)]

/-- The cairn check of a card, with its word's offset (R269 step 6). -/
def Party.cairnStep (p : Party) (i : Option Nat) : Option (Cause × Nat) := i.bind fun i => (p.cairnCheck i).map fun x => (x, 8 * i)

/-- The cairn of an operation with the INC captured now (R162). -/
def Party.capture (p : Party) (i : Option Nat) : Option CairnRef :=
  i.map fun i => ⟨p.uid, i, (Cairn.ofWord (p.cairnWord i)).inc, p.core⟩

/-- Reads a record of the span once for the rope, as one unit, through the gate: parks, RACE, poison, peers (R224). -/
def Ctx.readRec (c : Ctx) (i : Instr) (lane : Nat) (cap : Quad) (off : Int) (n : Nat) (k : Ctx → List Byte → State) : State :=
  let a := accOf lane cap off n
  c.gate i [a] false true false true (fun a => .load a.n) fun c =>
    k { c with rope := c.rope.sees (c.s.shown [a]) } (c.read a)

/-- Whether the party has no card left, or its die's table is full (R266). -/
def State.cardsFull (s : State) (uid die : Nat) : Bool :=
  decide (256 ≤ (s.jobs.filter fun j => j.card && j.uid? == some uid).length)
    || decide (1024 ≤ (s.jobs.filter fun j => j.card && j.die == die).length)

/-- The issuing rope's writes to a footprint, released to a job (R268). -/
def Rope.footKnow (r : Rope) (l : List Foot) : Know :=
  ⟨[], (l.filter fun f => f.scratch.isNone).map fun f => ⟨r.agent, r.rel, f.lo, f.hi⟩⟩

/-- What an instruction hands to the scheduler. -/
structure Issue where
  kind : JobKind
  reads : List Foot
  writes : List Foot
  caps : List Quad
  cairn : Option Nat
  post : Bool
  low : Bool

/-- The state with a job accepted (R265, R268): its id, its race agent, what its issue released. -/
def State.accept (s : State) (die core : Nat) (by' : JobBy) (colour : Nat) (cairn : Option CairnRef) (know : Know) (x : Issue) :
    State × Nat :=
  let a := s.newJob die
  let b := a.1.newAgent die colour
  let j : Job :=
    { id := a.2, die := die, core := core, by' := by', kind := x.kind, colour := colour, reads := x.reads, writes := x.writes
      caps := x.caps, cairn := cairn, post := x.post, low := x.low, running := false, ceased := false, moved := 0, written := 0, fault := 0
      hot := [], waits := [], lost := [], got := [], agent := b.2, rel := 0, know := know }
  ({ b.1 with jobs := b.1.jobs ++ [{ j with know := b.1.pastKnow j }] }, a.2)

/-- The cairn of an operation with the INC that it captured: when its checks passed first, if it has had to wait since (R269). -/
def Ctx.captured (c : Ctx) (i : Option Nat) : Option CairnRef :=
  match c.rope.capt with
  | some x => if x.1 = c.entry.pc ∧ i = some x.2.idx then some x.2 else c.party.capture i
  | none => c.party.capture i

/-- Waits for a job card, the cairn captured (R266, R269). -/
def Ctx.waitCard (c : Ctx) (i : Option Nat) : State :=
  { c with rope := { c.rope with capt := (c.captured i).map fun x => (c.entry.pc, x) } }.wait .jobCard

/-- Issues a job for the rope, its checks made: it waits for a card if it must; else the release of the footprint's writes, the job, its
id in `jd`, the hints (R266, R268, R269). -/
def Ctx.issueJob (c : Ctx) (x : Issue) (jd : Option (BitVec 8)) (used : List RSrc) (bytes : Nat) : State :=
  let die := dieOf c.party.core
  if c.s.cardsFull c.uid die then c.waitCard x.cairn
  else
    let r := { c.rope.release.1 with capt := none }
    let a := c.s.accept die c.party.core (.rope c.uid c.k) c.party.colour (c.captured x.cairn) (r.footKnow (x.reads ++ x.writes)) x
    let r := r.useAll c.entry.mask (used.map fun u => (u, 4))
    let r := match jd with
      | none => r
      | some d => r.setS d.toNat (BitVec.ofNat 32 a.2)
    { c with s := a.1 }.done r bytes

/-! ### cpy (R271, R272) -/

/-- A layout record as R246 and R271 read it. -/
structure Layout where
  off : Nat
  rows : Nat
  cols : Nat
  stride : Nat
  fmt : Nat
  planes : Nat
  tr : Bool
  sp : Bool
  scale : Nat
  sn : Nat
  resv : Nat
  sbase : Nat
  sstride : Nat
  dst : Nat
  cairn : Nat
  resv7 : Nat
deriving DecidableEq, Repr

/-- The eight words from `s[a]` (R246). -/
def Rope.layout (r : Rope) (a : Nat) : Layout :=
  let w (i : Nat) : Nat := (r.s (a + i)).toNat
  { off := w 0 + 2 ^ 32 * w 1, rows := fieldOf (w 2) 16 16, cols := fieldOf (w 2) 0 16, stride := w 3
    fmt := fieldOf (w 4) 0 8, planes := fieldOf (w 4) 8 5, tr := bitOf (w 4) 13, sp := bitOf (w 4) 14
    scale := fieldOf (w 4) 15 3, sn := fieldOf (w 4) 18 2, resv := fieldOf (w 4) 20 12
    sbase := w 5, sstride := w 6, dst := fieldOf (w 7) 0 20, cairn := fieldOf (w 7) 20 8, resv7 := fieldOf (w 7) 28 4 }

/-- The width of a copied element, none for a format that `cpy` does not take or a plane count that it does not fit (R271). -/
def copyWidth (fmt planes : Nat) : Option Nat :=
  if fmt = 0x30 then (if 1 ≤ planes ∧ planes ≤ 16 then some (4 + 4 * planes) else none)
  else if planes ≠ 0 ∨ 0x13 < fmt then none
  else (elemOf fmt).map fun e => e.bits / 8

/-- Whether an address lies in a view. -/
def isViewAt (q : Quad) (off : Int) : Bool := isView ((capBase q : Int) + off).toNat

/-- Whether a layout record breaks R271; `view` says that its source lies in a view. -/
def Layout.copyBad (l : Layout) (view : Bool) : Bool :=
  (copyWidth l.fmt l.planes).isNone || l.rows == 0 || l.cols == 0 || (l.fmt == 0x30 && l.tr) || l.sp || l.sn != 0 || l.scale != 0
    || l.resv != 0 || l.resv7 != 0 || decide (l.stride < l.cols) || (view && (l.fmt != 0x30 || l.planes != 8))

/-- The bytes from the first to the last of strided rows, each element taking `u` bytes of the span (R268). -/
def rowsSpan (rows cols stride u : Nat) : Nat := ((rows - 1) * stride + cols) * u

/-- The plan of a `cpy` (R271): the span side at `base`, `u` bytes from element to element there. -/
def Layout.plan (l : Layout) (st view : Bool) (w u base : Nat) (cap : Quad) : CopyPlan :=
  let lines := if l.tr then l.cols else l.rows
  let len := if l.tr then l.rows else l.cols
  let span : Side :=
    if l.tr then ⟨false, base, u, l.stride * u, cap⟩ else ⟨false, base, l.stride * u, u, cap⟩
  let scr : Side := ⟨true, l.dst, len * w, w, 0⟩
  if st then ⟨lines, len, w, scr, span, false, false⟩ else ⟨lines, len, w, span, scr, false, view⟩

/-- `cpy` (R271, R272). -/
def execCpy (o : CpyOp) (s : State) : Out :=
  s.issue fun c => c.whole <|
    let l := c.rope.layout o.a.toNat
    let b := o.b.r.toNat
    let q := c.rope.quad 0 b
    let view := !o.st && isViewAt q l.off
    if l.copyBad view then c.trap .formatCombination c.entry.mask 0
    else
      let w := (copyWidth l.fmt l.planes).getD 1
      let u := if view then 32 else w
      let z := rowsSpan l.rows l.cols l.stride u
      let perms := if o.st then pST else if view then pVIEW else pLD
      match firstCause (c.zeroSteps b perms l.off z (if l.fmt = 0x30 then 4 else w)) with
      | some x => c.trapZero x l.off
      | none =>
        let n := l.rows * l.cols * w
        match firstCause (c.party.scratchSteps l.dst n) with
        | some x => c.trapZero x l.dst
        | none =>
          match c.party.cairnStep (some l.cairn) with
          | some x => c.trapZero x.1 x.2
          | none =>
            let base := capBase q + l.off
            let span : Foot := ⟨none, base, base + z⟩
            let scr : Foot := ⟨some c.uid, l.dst, l.dst + n⟩
            c.issueJob ⟨.copy (l.plan o.st view w u base q), if o.st then [scr] else [span], if o.st then [span] else [scr], [q],
              some l.cairn, o.post, false⟩ o.jd [o.b] 8

/-! ### cpyc (R273, R274) -/

/-- A command block's fields as read (R273). -/
structure CmdBlock where
  src : Quad
  dst : Quad
  soff : Nat
  doff : Nat
  rows : Nat
  cols : Nat
  sstr : Nat
  dstr : Nat
  fmt : Nat
  tr : Bool
  zero : Bool
  planes : Nat
  resv : Nat
deriving DecidableEq, Repr

/-- The fields of a block's last 48 bytes with two capabilities (R273). -/
def CmdBlock.make (src dst : Quad) (v : Nat) : CmdBlock :=
  ⟨src, dst, fieldOf v 256 64, fieldOf v 320 64, fieldOf v 400 16, fieldOf v 384 16, fieldOf v 416 32, fieldOf v 448 32,
   fieldOf v 480 8, bitOf v 488, bitOf v 489, fieldOf v 490 5, fieldOf v 495 17⟩

/-- The block that 64 bytes hold. -/
def CmdBlock.ofBytes (b : List Byte) : CmdBlock :=
  let v := leNat b
  CmdBlock.make (BitVec.ofNat 128 v) (BitVec.ofNat 128 (v / 2 ^ 128)) v

/-- Whether the source lies in a view. -/
def CmdBlock.view (x : CmdBlock) : Bool := !x.zero && isViewAt x.src x.soff

/-- Whether a CTL or SHAPE value breaks R271 or R273 (R274 step 9). -/
def CmdBlock.bad (x : CmdBlock) : Bool :=
  (copyWidth x.fmt x.planes).isNone || x.rows == 0 || x.cols == 0 || (x.fmt == 0x30 && x.tr) || x.resv != 0
    || decide (!x.zero && x.sstr < x.cols) || decide (x.dstr < (if x.tr then x.rows else x.cols))
    || (x.view && (x.fmt != 0x30 || x.planes != 8))

/-- The width of an element. -/
def CmdBlock.w (x : CmdBlock) : Nat := (copyWidth x.fmt x.planes).getD 1

/-- Source bytes per element: 32 in a view (log 25). -/
def CmdBlock.u (x : CmdBlock) : Nat := if x.view then 32 else x.w

/-- Alignment of R274 step 10. -/
def CmdBlock.align (x : CmdBlock) : Nat := if x.fmt = 0x30 then 4 else x.w

/-- Bytes of the source and of the destination footprint. -/
def CmdBlock.srcSpan (x : CmdBlock) : Nat := rowsSpan x.rows x.cols x.sstr x.u
/-- Destination rows: with TR the element (r, c) goes to (c, r). -/
def CmdBlock.dstSpan (x : CmdBlock) : Nat := if x.tr then rowsSpan x.cols x.rows x.dstr x.w else rowsSpan x.rows x.cols x.dstr x.w

/-- The plan of a block: delivery runs over destination rows. -/
def CmdBlock.plan (x : CmdBlock) : CopyPlan :=
  let lines := if x.tr then x.cols else x.rows
  let len := if x.tr then x.rows else x.cols
  let src : Side := if x.tr then ⟨false, capBase x.src + x.soff, x.u, x.sstr * x.u, x.src⟩
    else ⟨false, capBase x.src + x.soff, x.sstr * x.u, x.u, x.src⟩
  let dst : Side := ⟨false, capBase x.dst + x.doff, x.dstr * x.w, x.w, x.dst⟩
  ⟨lines, len, x.w, src, dst, x.zero, x.view⟩

/-- The checks of a block's two capabilities for a colour (R274 step 10), each with the offset that it forms. -/
def State.blockCheck (s : State) (colour : Nat) (x : CmdBlock) (stag dtag : Bool) : Option (Cause × Int) :=
  let srcOk := capHas x.src (if x.view then pVIEW else pLD) && (x.view || !(namesView ((capBase x.src : Int) + x.soff) x.srcSpan))
  let side (q : Quad) (tag ok : Bool) (off z : Nat) : Option (Cause × Int) :=
    (firstCause (s.useSteps colour q tag ++
      [(!ok, .capPerm), (decide (capLen q < off + z), .capBounds), ((capBase q + off) % x.align != 0, .misaligned)])).map
        fun e => (e, (off : Int))
  match (if x.zero then none else side x.src stag srcOk x.soff x.srcSpan) with
  | some e => some e
  | none => side x.dst dtag (capHas x.dst pST) x.doff x.dstSpan

/-- What a block hands to the scheduler. -/
def CmdBlock.issue (x : CmdBlock) (cairn : Option Nat) (post : Bool) : Issue :=
  let foot (q : Quad) (off z : Nat) : Foot := ⟨none, capBase q + off, capBase q + off + z⟩
  ⟨.copy x.plan, if x.zero then [] else [foot x.src x.soff x.srcSpan], [foot x.dst x.doff x.dstSpan],
   if x.zero then [x.dst] else [x.src, x.dst], cairn, post, false⟩

/-- The checks on lane 0's command capability (R274 steps 1 to 7). -/
def Ctx.cmdSteps (c : Ctx) (a : Nat) : List (Bool × Cause) :=
  let q := c.rope.quad 0 a
  [(!(c.rope.tag 0 a), .capTag), (capOtype q != 1 && capOtype q != 2, .capSealed), (capColour q != c.party.colour, .capColour),
   (c.s.revoked q, .revoked), (!(capHas q pCMD), .capPerm), (decide (capLen q < 64), .capBounds),
   (capBase q % 64 != 0, .misaligned)]

/-- The handle-table entry that a handle capability names (R382). -/
def State.handleWire (s : State) (q : Quad) : List Byte :=
  ((SMap.get none s.handles ((capBase q - s.handleAt) / 64)).map HandleRec.wire).getD (List.replicate 48 0#8)

/-- The device that a wire form comes from: HDR[62:56] (R380). -/
def wireOwner (w : List Byte) : Nat := fieldOf (leNat (w.take 8)) 56 7

/-- The invocation of a fabric handle (R383): a job without footprint here, sent to the owner; a release at system scope. -/
def Ctx.invoke (c : Ctx) (o : CpycOp) (q : Quad) : State :=
  let die := dieOf c.party.core
  if c.s.cardsFull c.uid die then c.waitCard (o.cairn.map BitVec.toNat)
  else
    let wire := c.s.handleWire q
    let dev := wireOwner wire
    let x := { c.rope with capt := none }.release
    let a := c.s.accept die c.party.core (.rope c.uid c.k) c.party.colour (c.captured (o.cairn.map BitVec.toNat)) x.2
      ⟨.handle dev wire c.s.timer, [], [], [q], none, o.post, false⟩
    let s := { a.1 with wire := .invoke dev wire c.party.colour a.2 :: a.1.wire }
    let r := x.1.useAll c.entry.mask [(o.a, 4)]
    let r := match o.jd with
      | none => r
      | some d => r.setS d.toNat (BitVec.ofNat 32 a.2)
    { c with s := s.tell dev x.2 }.done r 8

/-- `cpyc` of a command block, its 64 bytes read (R274 steps 9 and 10, R269 step 6). -/
def Ctx.cpycBlock (c : Ctx) (o : CpycOp) (base : Nat) (b : List Byte) : State :=
  let x := CmdBlock.ofBytes b
  if x.bad then c.trap .formatCombination c.entry.mask 0
  else
    match c.s.blockCheck c.party.colour x (c.s.tagAt base) (c.s.tagAt (base + 16)) with
    | some e => c.trapZero e.1 e.2
    | none =>
      match c.party.cairnStep (o.cairn.map BitVec.toNat) with
      | some e => c.trapZero e.1 e.2
      | none => c.issueJob (x.issue (o.cairn.map BitVec.toNat) o.post) o.jd [o.a] 8

/-- `cpyc` (R274). -/
def execCpyc (o : CpycOp) (s : State) : Out :=
  s.issue fun c => c.whole <|
    let a := o.a.r.toNat
    let q := c.rope.quad 0 a
    match if c.checked then none else firstCause (c.cmdSteps a) with
    | some x => c.trapZero x 0
    | none =>
      if capOtype q = 2 then
        if c.s.poisoned (capBase q) 64 then c.trapZero .poisonConsumed 0
        else
          match c.party.cairnStep (o.cairn.map BitVec.toNat) with
          | some e => c.trapZero e.1 e.2
          | none => c.invoke o q
      else c.readRec (.cpyc o) 0 q 0 64 fun c b => c.cpycBlock o (capBase q) b

/-! ### Rings: cring and cpyh (R275, R277, R278) -/

/-- A descriptor's SLOTS, with its tag, and GEOM as read. -/
structure RingRead where
  slots : Quad
  tag : Bool
  geom : Nat

/-- Reads a descriptor's bytes (R275). -/
def RingRead.ofBytes (b : List Byte) (tag : Bool) : RingRead :=
  ⟨BitVec.ofNat 128 (leNat b), tag, fieldOf (leNat b) 128 32⟩

/-- Whether GEOM breaks its limits, for slots of at most 2^`most` bytes, or SLOTS is too short (R277, R278). -/
def RingRead.bad (x : RingRead) (most : Nat) : Bool :=
  decide (fieldOf x.geom 0 8 < 5) || decide (most < fieldOf x.geom 0 8) || fieldOf x.geom 8 8 == 0 || decide (16 < fieldOf x.geom 8 8)
    || decide (capLen x.slots < 2 ^ fieldOf x.geom 8 8 * 2 ^ fieldOf x.geom 0 8)

/-- Checks lane 0's descriptor quad, reads the descriptor and checks SLOTS and GEOM (R277 steps 1 to 4, R278). -/
def Ctx.readRing (c : Ctx) (i : Instr) (d : Nat) (most : Nat) (k : Ctx → RingRead → State) : State :=
  let q := c.rope.quad 0 d
  match if c.checked then none else firstCause (c.zeroSteps d (pLD + pST) 0 64 64) with
  | some x => c.trapZero x 0
  | none => c.readRec i 0 q 0 64 fun c b =>
      let x := RingRead.ofBytes b (!(isPeer (capBase q)) && c.s.tagAt (capBase q))
      match firstCause (c.s.useSteps c.party.colour x.slots x.tag ++ [(!(capHas x.slots pST), .capPerm)]) with
      | some e => c.trapZero e 0
      | none => if x.bad most then c.trapZeroFree .capBounds else k c x

/-- `cring` (R277). -/
def execCring (form : CringForm) (s : State) : Out :=
  s.issue fun c => c.whole <|
    match form with
    | .off => c.done { c.rope with ring := none } 12
    | .bind a cairn =>
      c.readRing (.cring form) a.r.toNat 5 fun c x =>
        match c.party.cairnStep (cairn.map BitVec.toNat) with
        | some e => c.trapZero e.1 e.2
        | none =>
          let inc := (c.party.capture (cairn.map BitVec.toNat)).elim 0 CairnRef.inc
          let b : RingBind := ⟨c.rope.quad 0 a.r.toNat, x.slots, BitVec.ofNat 32 x.geom, cairn.map BitVec.toNat, inc, c.party.core⟩
          c.done { c.rope.useAll c.entry.mask [(a, 4)] with ring := some b } 12

/-- The ring that a `cpyh` names. -/
def RingRead.at (x : RingRead) (desc : Nat) : RingAt := ⟨desc, capBase x.slots, x.geom, none⟩

/-- What `cpyh` hands to the scheduler (R268, R278): its payload's bytes, and the whole slot area with PROD and COMMIT. -/
def streamIssue (src : Side) (foot : Foot) (n : Nat) (x : RingRead) (desc : Nat) (caps : List Quad) (cairn : Option Nat)
    (post : Bool) : Issue :=
  let r := x.at desc
  let p : CopyPlan := ⟨1, n, 1, src, ⟨false, 0, n, 1, x.slots⟩, false, false⟩
  ⟨.stream p r none, [foot],
   [⟨none, r.slots, r.slots + r.count * r.size⟩, ⟨none, desc + 0x20, desc + 0x28⟩, ⟨none, desc + 0x30, desc + 0x38⟩],
   caps, cairn, post, true⟩

/-- `cpyh`, its ring read (R278). -/
def Ctx.cpyhSource (c : Ctx) (o : CpyhOp) (x : RingRead) : State :=
  let n := (c.rope.s o.c.toNat).toNat
  let desc := c.rope.quad 0 o.d.toNat
  let cairn := o.cairn.map BitVec.toNat
  let off := (c.rope.s64 o.b.toNat).toNat
  if n = 0 ∨ 2 ^ fieldOf x.geom 0 8 < n then c.trapZeroFree .capBounds
  else
    let go (k : State) : State :=
      match c.party.cairnStep cairn with
      | some e => c.trapZero e.1 e.2
      | none => k
    match o.a with
    | some a =>
      let q := c.rope.quad 0 a.r.toNat
      match firstCause (c.zeroSteps a.r.toNat pLD off n 1) with
      | some e => c.trapZero e off
      | none => go <| c.issueJob (streamIssue ⟨false, capBase q + off, n, 1, q⟩ ⟨none, capBase q + off, capBase q + off + n⟩ n x
          (capBase desc) [desc, x.slots, q] cairn o.post) none [a] 12
    | none =>
      if c.rope.s (o.b.toNat + 1) ≠ 0 then c.trapZero .capBounds off
      else
        match firstCause (c.party.scratchSteps off n) with
        | some e => c.trapZero e off
        | none => go <| c.issueJob (streamIssue ⟨true, off, n, 1, 0⟩ ⟨some c.uid, off, off + n⟩ n x (capBase desc) [desc, x.slots]
            cairn o.post) none [] 12

/-- `cpyh` (R278). -/
def execCpyh (o : CpyhOp) (s : State) : Out :=
  s.issue fun c => c.whole <| c.readRing (.cpyh o) o.d.toNat 20 fun c x => c.cpyhSource o x

/-! ### snap (R279) -/

/-- The checks of `snap`: A, then D (R279). -/
def Ctx.snapSteps (c : Ctx) (a d : Nat) : List (Bool × Cause) :=
  let qa := c.rope.quad 0 a
  let qd := c.rope.quad 0 d
  c.s.useSteps c.party.colour qa (c.rope.tag 0 a) ++
    [(!(capHas qa pLD), .capPerm),
     (capLen qa == 0 || !(isHbm (capBase qa)) || decide (0x00C000000000 < capBase qa + capLen qa), .capBounds),
     (capBase qa % 4096 != 0 || capLen qa % 4096 != 0, .misaligned)] ++
  c.s.useSteps c.party.colour qd (c.rope.tag 0 d) ++
    [(!(capHas qd pST), .capPerm), (decide (capLen qd < capLen qa), .capBounds)]

/-- `snap` (R279): one snapshot runs at a time on the package. -/
def execSnap (o : SnapOp) (s : State) : Out :=
  s.issue fun c => c.whole <|
    let qa := c.rope.quad 0 o.a.r.toNat
    let qd := c.rope.quad 0 o.d.toNat
    match firstCause (c.snapSteps o.a.r.toNat o.d.toNat) with
    | some e => c.trapZero e 0
    | none =>
      match c.party.cairnStep (o.cairn.map BitVec.toNat) with
      | some e => c.trapZero e.1 e.2
      | none =>
        if c.s.snap.isSome then c.waitCard (o.cairn.map BitVec.toNat)
        else
          let n := capLen qa
          let id := dieOf c.party.core * 2 ^ 30 + (c.s.die (dieOf c.party.core)).jobCtr
          let full := c.s.cardsFull c.uid (dieOf c.party.core)
          let s := c.issueJob ⟨.snap, [⟨none, capBase qa, capBase qa + n⟩], [⟨none, capBase qd, capBase qd + n⟩], [qa, qd],
            o.cairn.map BitVec.toNat, o.post, false⟩ none [o.a] 12
          if full then s else { s with snap := some ⟨id, false, c.s.parts.length, capBase qa, n, capBase qd, [], []⟩ }

end Sys2Proof.Machine
end

