-- ==== Sys2Proof/Machine/Matrix.lean ====
section
/-!
DEFINITION. The matrix engine's cards (R237 to R263) but `ldm`: `gang`, the gang instructions up to their latch, `accz`, `accw`, `accq`.
-/
namespace Sys2Proof.Machine

/-- All 32 lanes. -/
def fullMask : Word := 0xFFFFFFFF#32

/-! ### gang (R237, R239) -/

/-- G of a gang register (R237). -/
def gangG (g : Word) : Nat := fieldOf g.toNat 29 3

/-- The member list of a rope's gang, in gang order (R237, R238). -/
def Rope.gangList (r : Rope) (k : Nat) : List Nat :=
  let g := r.gangReg.toNat
  let others := (List.range (gangG r.gangReg - 1)).map fun j => fieldOf g (5 * j) 5
  others.take (fieldOf g 26 3) ++ [k] ++ others.drop (fieldOf g 26 3)

/-- The gang register of a rope for a member list (R237). -/
def gangWord (l : List Nat) (k : Nat) : Word :=
  let pos := l.idxOf k
  let others := l.eraseIdx pos
  BitVec.ofNat 32 (l.length * 2 ^ 29 + pos * 2 ^ 26 + (others.mapIdx fun j x => x * 2 ^ (5 * j)).foldl (· + ·) 0)

/-- Whether a rope has a gang instruction joined and not complete. -/
def State.inGang (s : State) (uid k : Nat) : Bool :=
  s.gangs.any fun g => g.uid == uid && g.members.any fun m => m.rope == k

/-- Whether a list of R239 is refused: for `n` members, `k` the rope, `count` the party's ropes. -/
def gangListBad (w n k count : Nat) : Bool :=
  let slot (j : Nat) : Nat := fieldOf w (5 * j) 5
  let l := (List.range n).map slot
  decide (fieldOf w 30 2 ≠ 0) || ((List.range 6).any fun j => decide (n ≤ j) && slot j != 0) || (l.any fun x => decide (count ≤ x))
    || l.eraseDups.length != n || !(l.elem k)

/-- `gang` (R239). -/
def execGang (n : BitVec 3) (a : BitVec 8) (s : State) : Out :=
  s.issue fun c =>
    if c.s.inGang c.uid c.k then c.wait .block
    else if n = 0 then c.done { c.rope with gangReg := 0 } 8
    else
      let w := (c.rope.s a.toNat).toNat
      if gangListBad w n.toNat c.k c.party.ropes.length then c.trap .gangMismatch c.entry.mask 0
      else c.done { c.rope with gangReg := gangWord ((List.range n.toNat).map fun j => fieldOf w (5 * j) 5) c.k } 8

/-! ### The latch (R240) -/

/-- A gang instruction up to its latch: `planes` says that it has plane counts, which the cap holds. -/
def Ctx.latch (c : Ctx) (i : Instr) (planes : Option GangOp) : State :=
  if c.entry.mask ≠ fullMask then c.trap .partialMask c.entry.mask c.entry.mask.toNat
  else if gangG c.rope.gangReg = 0 then c.trap .gangMismatch c.entry.mask 0
  else if planes.any fun o => decide (c.s.fw.pcap < o.pam1.toNat + 1) || decide (c.s.fw.pcap < o.pbm1.toNat + 1) then
    c.trap .precisionCapped c.entry.mask c.s.fw.pcap
  else c.wait (.latch i)

/-- `mma` (R256). -/
def execMma (o : GangOp) (s : State) : Out := s.issue fun c => c.latch (.mma o) (some o)

/-- `mmas` (R257). -/
def execMmas (o : GangOp) (ns : BitVec 2) (s : State) : Out := s.issue fun c => c.latch (.mmas o ns) (some o)

/-- `mmb` (R258): no plane counts. -/
def execMmb (z opx : Bool) (d a b : BitVec 8) (s : State) : Out := s.issue fun c => c.latch (.mmb z opx d a b) none

/-- `mmf` (R259). -/
def execMmf (o : GangOp) (x : RSrc) (stride : BitVec 20) (s : State) : Out := s.issue fun c => c.latch (.mmf o x stride) (some o)

/-! ### accz and accq (R261, R262) -/

/-- A mask of `n` blocks from a block's first register. -/
def blockMask (d n : Nat) : BitVec 8 := BitVec.ofNat 8 ((2 ^ n - 1) * 2 ^ (d / 32))

/-- Writes one value to every register of `n` blocks in every lane. -/
def Rope.fillBlocks (r : Rope) (d n : Nat) (v : Word) : Rope :=
  (List.range 32).foldl (fun (r : Rope) l => (List.range (32 * n)).foldl (fun (r : Rope) j => r.setX l (d + j) v) r) r

/-- Releases blocks: poison, VALID and DIRTY clear (R254). -/
def Rope.releaseBlocks (r : Rope) (d n : Nat) : Rope :=
  let r := r.fillBlocks d n regPoison
  { r with accValid := r.accValid &&& ~~~(blockMask d n), accDirty := r.accDirty &&& ~~~(blockMask d n) }

/-- `accz` (R262). -/
def execAccz (rel : Bool) (nm1 : BitVec 3) (d : BitVec 8) (s : State) : Out :=
  s.issue fun c => c.whole <|
    let n := nm1.toNat + 1
    if rel then c.done (c.rope.releaseBlocks d.toNat n) 8
    else
      let r := c.rope.fillBlocks d.toNat n 0
      c.done { r with accDirty := r.accDirty &&& ~~~(blockMask d.toNat n) } 8

/-- `accq` (R261). -/
def execAccq (d : BitVec 8) (s : State) : Out :=
  s.issue fun c =>
    if c.rope.accInfl ≠ 0 then c.wait .block
    else if c.rope.farOut ≠ 0 then c.wait .accq
    else c.done ({ c.rope with farDropped := 0 }.setS d.toNat (BitVec.ofNat 32 (min c.rope.farDropped (2 ^ 32 - 1)))) 8

/-! ### accw (R263) -/

/-- The conversion that `accw` makes of a register. -/
def accwCvt (o : AccwOp) (v : Word) : FRes :=
  cvtBits ⟨false, o.fmt, if o.int then .i32 else .f32, o.rm, o.sat, false, ⟨false, 7⟩, 0, ⟨0, .none⟩⟩ v.toNat

/-- The 32 elements of a lane's row. -/
def accwRow (o : AccwOp) (r : Rope) (l : Nat) : List FRes := (List.range 32).map fun j => accwCvt o (r.x l (o.d.toNat + j))

/-- The bytes of a lane's row. -/
def accwBytes (o : AccwOp) (r : Rope) (l : Nat) : List Byte := (accwRow o r l).flatMap fun y => leBytes (o.fmt.bits / 8) y.bits

/-- The offset of a lane's row. -/
def accwOff (o : AccwOp) (r : Rope) (l : Nat) : Int := (r.s64 o.b.toNat).toNat + l * (r.s o.c.toNat).toNat

/-- `accw` (R263): lane 0's quad in every lane. -/
def execAccw (o : AccwOp) (s : State) : Out :=
  s.issue fun c => c.whole <|
    let w := o.fmt.bits / 8
    let q := c.rope.quad 0 o.a.r.toNat
    let off := accwOff o c.rope
    match if c.checked then none else checkLanes (List.range 32) fun l =>
        c.spanSteps q (c.rope.tag 0 o.a.r.toNat) (capHas q pST) (off l) (32 * w) w with
    | some x => c.trapOff x.1 x.2 off
    | none =>
      let accs := (List.range 32).map fun l => accOf l q (off l) (32 * w)
      c.gate (.accw o) accs true false false false (fun a => .store (accwBytes o c.rope a.lane) none) fun c =>
        let r := c.rope
        let s := accs.foldl (fun (s : State) a => s.laneStore (dieOf c.party.core) r.writer a.addr (accwBytes o r a.lane)) c.s
        let fl := (List.range 32).foldl (fun f l => (accwRow o r l).foldl (fun f y => f ||| y.flags) f) (0 : FFlags)
        let r' := (r.useAll c.entry.mask [(o.a, 4)]).orFpst fl
        let r' := if o.rel then r'.releaseBlocks o.d.toNat 1 else { r' with accDirty := r'.accDirty &&& ~~~(blockMask o.d.toNat 1) }
        (c.stored s).done r' 12

end Sys2Proof.Machine
end

