-- ==== Sys2Proof/Machine/Ldm.lean ====
section
/-!
DEFINITION. `ldm` (R246 to R251): the record's limits, the checks at issue, and the tile that the job writes, unit by unit.
-/
namespace Sys2Proof.Machine

/-! ### The record (R246, R247) -/

/-- N of a record (R246). -/
def Layout.nsparse (l : Layout) : Nat := 16 * l.sn

/-- Elements of a destination line, and lines, of a dense record (R246). -/
def Layout.lineLen (l : Layout) : Nat := if l.tr then l.rows else l.cols
/-- Lines. -/
def Layout.lines (l : Layout) : Nat := if l.tr then l.cols else l.rows

/-- The scale mode that a format needs (R55). -/
def scaleMode (e : Elem) : Nat :=
  match e with
  | .nq4 => 2
  | _ => if e.mx then 1 else 0

/-- Bytes of the source block that holds 32 elements, or 64 for NQ4; 1 for formats without blocks. -/
def sourceBlock (e : Elem) (p : Nat) : Nat :=
  match e with
  | .nq4 => 32
  | .plane => blockLen p
  | _ => if e.mx then 4 * e.bits else 1
where
  /-- Bytes of a block-fixed block (R56). -/
  blockLen (p : Nat) : Nat := 4 + 4 * p

/-- Whether a record of a format breaks R247 or a limit of R246; `view` says that its source lies in a view (R248). -/
def Layout.ldmBadAs (l : Layout) (e : Elem) (view : Bool) : Bool :=
  let words := e == .b32 || e == .b64
  let narrow := e.mx || e == .nq4 || e == .plane
  words || l.planes == 0  || l.rows == 0 || l.cols == 0 || l.resv != 0 || l.resv7 != 0
    || l.scale != scaleMode e || (l.sp != (l.sn != 0)) || (view && (e != .plane || l.planes != 8))
    || (if l.sp then narrow || l.cols != 64 || l.stride != 0 || decide (256 < l.rows) || l.tr
        else
          l.lineLen % 32 != 0 || decide (512 < l.lineLen) || decide (256 < l.lines) || decide (l.stride < l.cols)
            || (e.mx && (l.cols % 32 != 0 || l.off % sourceBlock e l.planes != 0))
            || (e == .nq4 && (l.cols % 64 != 0 || l.off % sourceBlock e l.planes != 0))
            || (e == .plane && (l.tr || l.stride % 32 != 0)))

/-- Whether a record makes `ldm` raise FORMAT_COMBINATION (R247). -/
def Layout.ldmBad (l : Layout) (view : Bool) : Bool :=
  match elemOf l.fmt with
  | none => true
  | some e => l.ldmBadAs e view

/-! ### The plan -/

/-- What a record describes, with the plane count that stands (R249) and the source's first byte. -/
def Layout.ldmPlan (l : Layout) (e : Elem) (p base : Nat) (view : Bool) (cap : Quad) : LdmPlan :=
  ⟨e, l.rows, l.cols, l.stride, base, p, l.tr, if l.sp then some l.nsparse else none, l.scale, base - l.off + l.sbase, l.sstride, l.dst,
   view, cap⟩

/-- Bytes of a packed sparse row (R246). -/
def LdmPlan.rowSize (x : LdmPlan) (n : Nat) : Nat := (8 + n * (x.fmt.bits / 8) + 7) / 8 * 8

/-- Source bytes of a block of 32 elements in the plane form: 32 in a view (log 25). -/
def LdmPlan.planeStep (x : LdmPlan) : Nat := if x.view then 32 else 4 + 4 * x.planes

/-- Destination lines, and elements of a line of a dense source. -/
def LdmPlan.lines (x : LdmPlan) : Nat := if x.tr then x.cols else x.rows
/-- Elements of a line. -/
def LdmPlan.len (x : LdmPlan) : Nat := if x.tr then x.rows else x.cols

/-- Bytes of the source range of the elements, from the first to the last (R250). -/
def LdmPlan.span (x : LdmPlan) : Nat :=
  match x.sparse with
  | some n => (x.rows - 1) * x.rowSize n + 8 + n * (x.fmt.bits / 8)
  | none =>
    let last := (x.rows - 1) * x.stride + x.cols
    if x.fmt = .plane then ((last - 1) / 32 + 1) * x.planeStep else (last * x.fmt.bits + 7) / 8

/-- Bytes of the scale range, from the first to the last; 0 without a scale mode (R246, R250). -/
def LdmPlan.scaleSpan (x : LdmPlan) : Nat :=
  let last : Nat :=
    if x.scale = 1 then x.cols / 32
    else if x.scale = 2 then
      let j := x.cols / 64 - 1
      260 * (j / 256) + 4 + j % 256 + 1
    else 0
  if x.scale = 0 then 0 else (x.rows - 1) * x.sstride + last

/-- Bytes that land as one: a block of a dense tile, a row of a sparse one. -/
def LdmPlan.unit (x : LdmPlan) : Nat :=
  match x.sparse with
  | some n => 8 + (if n = 48 then 2 else 1) * (4 + 4 * x.planes)
  | none => 4 + 4 * x.planes

/-- Units of a tile. -/
def LdmPlan.units (x : LdmPlan) : Nat :=
  match x.sparse with
  | some _ => x.rows
  | none => x.lines * (x.len / 32)

/-- Bytes of the tile (R243, R250). -/
def LdmPlan.total (x : LdmPlan) : Nat := x.units * x.unit

/-! ### The card (R250) -/

/-- The checks of `ldm` on lane 0's quad: elements, then scales (R250 step 5). -/
def Ctx.ldmSteps (c : Ctx) (b : Nat) (l : Layout) (x : LdmPlan) : List (Bool × Cause × Int) :=
  let q := c.rope.quad 0 b
  let perm := if x.view then pVIEW else pLD
  let off : Int := l.off
  let soff : Int := l.sbase
  let z := x.span
  let sz := x.scaleSpan
  let w := if x.fmt = .plane then 4 else if x.fmt.bits < 8 then 1 else x.fmt.bits / 8
  let permBad (off : Int) (z : Nat) : Bool := !(capHas q perm) || (!x.view && namesView ((capBase q : Int) + off) z)
  ((c.s.useSteps c.party.colour q (c.rope.tag 0 b)).map fun e => (e.1, e.2, off)) ++
    [(permBad off z, .capPerm, off), (sz != 0 && permBad soff sz, .capPerm, soff),
     (decide (capLen q < l.off + z), .capBounds, off), (sz != 0 && decide (capLen q < l.sbase + sz), .capBounds, soff),
     ((capBase q + l.off) % w != 0, .misaligned, off)]

/-- The load-convert jobs of a core (R251). -/
def State.ldmJobs (s : State) (core : Nat) : Nat := (s.jobs.filter fun j => !j.card && j.core == core).length

/-- `ldm` accepted (R251): the job, the release of the footprint's writes, the hint. -/
def Ctx.ldmIssue (c : Ctx) (l : Layout) (x : LdmPlan) (b : RSrc) : State :=
  if 16 ≤ c.s.ldmJobs c.party.core then c.wait .ldmSlot
  else
    let reads := ⟨none, x.base, x.base + x.span⟩ ::
      (if x.scaleSpan = 0 then [] else [(⟨none, x.sbase, x.sbase + x.scaleSpan⟩ : Foot)])
    let writes := [(⟨some c.uid, x.dst, x.dst + x.total⟩ : Foot)]
    let r := c.rope.release.1
    let a := c.s.accept (dieOf c.party.core) c.party.core (.rope c.uid c.k) c.party.colour (c.party.capture (some l.cairn))
      (r.footKnow reads) ⟨.ldm x, reads, writes, [x.cap], some l.cairn, false, false⟩
    { c with s := a.1 }.done (r.useAll c.entry.mask [(b, 4)]) 8

/-- `ldm` (R250). -/
def execLdm (capok : Bool) (a : BitVec 8) (b : RSrc) (s : State) : Out :=
  s.issue fun c => c.whole <|
    let l := c.rope.layout a.toNat
    let q := c.rope.quad 0 b.r.toNat
    let view := isViewAt q l.off
    let cap := c.s.fw.pcap
    match elemOf l.fmt with
    | none => c.trap .formatCombination c.entry.mask 0
    | some e =>
      if l.ldmBadAs e view then c.trap .formatCombination c.entry.mask 0
      else if cap < l.planes ∧ (capok = false ∨ e = .plane) then c.trap .precisionCapped c.entry.mask cap
      else
        let x := l.ldmPlan e (min l.planes cap) (capBase q + l.off) view q
        match (c.ldmSteps b.r.toNat l x).find? fun y => y.1 with
        | some y => c.trapZero y.2.1 y.2.2
        | none =>
          match firstCause (c.party.scratchSteps l.dst x.total) with
          | some y => c.trapZero y l.dst
          | none =>
            match c.party.cairnStep (some l.cairn) with
            | some y => c.trapZero y.1 y.2
            | none => c.ldmIssue l x b

/-! ### The tile (R248) -/

/-- A source range in bytes, with what it reads and whether it carries poison or lies in a lost page. -/
def State.ldmRead (s : State) (j : Job) (a n : Nat) : Nat × Bool :=
  if isPeer a then
    match j.answer a n with
    | none => (0, true)
    | some y => (leNat y.1, y.2)
  else (s.num a n, s.poisoned a n || j.lostAt a n)

/-- The bits of an element `bits` wide that begins at a bit offset of the source. -/
def State.ldmElem (s : State) (j : Job) (x : LdmPlan) (bit : Nat) : Nat × Bool :=
  let a := x.base + bit / 8
  let n := (bit % 8 + x.fmt.bits + 7) / 8
  let y := s.ldmRead j a n
  (fieldOf y.1 (bit % 8) x.fmt.bits, y.2)

/-- Element (r, c) of a dense source as a value, and whether it carries poison (R246, R248). -/
def State.ldmValue (s : State) (j : Job) (x : LdmPlan) (r c : Nat) : FVal × Bool :=
  let y := s.ldmElem j x ((r * x.stride + c) * x.fmt.bits)
  if x.fmt = .nq4 then
    let blk := c / 64
    let rec0 := x.sbase + r * x.sstride + 260 * (blk / 256)
    let sup := s.ldmRead j rec0 4
    let code := s.ldmRead j (rec0 + 4 + blk % 256) 1
    (nq4Value sup.1 code.1 y.1, y.2 || sup.2 || code.2)
  else if x.fmt.mx then
    let sc := s.ldmRead j (x.sbase + r * x.sstride + c / 32) 1
    ((x.fmt.fmt.map fun f => mxValue f sc.1 y.1).getD (.fin false 0 0), y.2 || sc.2)
  else (elemValue x.fmt y.1, y.2)

/-- A value as an integer, for integer sources. -/
def FVal.int : FVal → Int
  | .fin n m _ => if n then -(m : Int) else m
  | _ => 0

/-- A block of values in the plane form: integers keep their value, clamped; the rest are converted by R57 (R248). -/
def ldmBlock (e : Elem) (p : Nat) (v : List FVal) : List Byte :=
  let words :=
    match e.fmt with
    | none =>
      if e = Elem.nq4 then fixWords p (toFix .rn p v)
      else
        let q := v.map fun (a : FVal) => clampInt p false a.int
        let sat := (v.zip q).any fun (t : FVal × Int) => t.1.int != t.2
        fixWords p ⟨125 + p, q, false, sat, 0⟩
    | some _ => fixWords p (toFix .rn p v)
  words.flatMap (leBytes 4)

/-- Unit `n` of the tile, and whether a byte that feeds it carries poison (R248, R251). -/
def State.ldmUnit (s : State) (j : Job) (x : LdmPlan) (n : Nat) : List Byte × Bool :=
  match x.sparse with
  | some k =>
    let row := x.base + n * x.rowSize k
    let w := x.fmt.bits / 8
    let mask := s.ldmRead j row 8
    let v := (List.range k).map fun i => s.ldmRead j (row + 8 + i * w) w
    let vals := v.map (fun y => elemValue x.fmt y.1) ++ List.replicate 64 (FVal.fin false 0 0)
    let blocks := (List.range (if k = 48 then 2 else 1)).flatMap fun b => ldmBlock x.fmt x.planes ((vals.drop (32 * b)).take 32)
    (leBytes 8 mask.1 ++ blocks, mask.2 || v.any Prod.snd)
  | none =>
    let i := n / (x.len / 32)
    let b := n % (x.len / 32)
    if x.fmt = .plane then
      let a := x.base + (i * x.stride + 32 * b) / 32 * x.planeStep
      if x.view then s.viewBlock a j.colour
      else
        let y := s.ldmRead j a (4 + 4 * x.planes)
        (leBytes (4 + 4 * x.planes) y.1, y.2)
    else
      let v := (List.range 32).map fun t => if x.tr then s.ldmValue j x (32 * b + t) i else s.ldmValue j x i (32 * b + t)
      (ldmBlock x.fmt x.planes (v.map Prod.fst), v.any Prod.snd)

/-- The source ranges that unit `n` reads. -/
def LdmPlan.feeds (x : LdmPlan) (n : Nat) : List (Nat × Nat) :=
  match x.sparse with
  | some k => [(x.base + n * x.rowSize k, 8 + k * (x.fmt.bits / 8))]
  | none =>
    let i := n / (x.len / 32)
    let b := n % (x.len / 32)
    if x.fmt = .plane then [(x.base + (i * x.stride + 32 * b) / 32 * x.planeStep, x.planeStep)]
    else
      let elems := (List.range 32).map fun t =>
        let rc := if x.tr then (32 * b + t, i) else (i, 32 * b + t)
        let bit := (rc.1 * x.stride + rc.2) * x.fmt.bits
        (x.base + bit / 8, (bit % 8 + x.fmt.bits + 7) / 8)
      let scales := (List.range 32).flatMap fun t =>
        let rc := if x.tr then (32 * b + t, i) else (i, 32 * b + t)
        if x.scale = 1 then [(x.sbase + rc.1 * x.sstride + rc.2 / 32, 1)]
        else if x.scale = 2 then
          let rec0 := x.sbase + rc.1 * x.sstride + 260 * (rc.2 / 64 / 256)
          [(rec0, 4), (rec0 + 4 + rc.2 / 64 % 256, 1)]
        else []
      (elems ++ scales).eraseDups

/-- Writes units t0 to t1 of a tile into scratch, with poison where a source byte carries it (R251). -/
def State.ldmUnits (s : State) (j : Job) (x : LdmPlan) (t0 t1 : Nat) : Mover :=
  let p := (s.jobParty j).getD Party.nobody
  (List.range (t1 - t0)).foldl (fun (t : Mover) i =>
    let n := t0 + i
    let y := s.ldmUnit j x n
    let a := x.dst + n * x.unit
    let t := { t with p := t.p.swrite false [] a y.1, j := { t.j with moved := t.j.moved + x.unit, written := t.j.written + x.unit } }
    let t := if y.2 then t.taint true a x.unit else t
    let whole := (wholeHalves x.dst x.total).filter fun h =>
      decide (a ≤ h * 64 + 63) && decide (h * 64 + 63 < a + x.unit) && !(NSet.has t.j.hot h)
    { t with p := { t.p with spoison := whole.foldl (fun m h => NSet.set m h false) t.p.spoison } }) ⟨s, p, j, false⟩

/-- Whether `moved` bytes of a tile end where an engine's write may end: with the tile, or at a granule's edge (R306). -/
def LdmPlan.edgeAt (x : LdmPlan) (moved : Nat) : Bool := decide (x.total ≤ moved) || (x.dst + moved) % 16 == 0

/-- An `ldm` job's next bytes: whole units up to a granule's edge, then their arrival; at a page or a peer that is not at hand it waits
(R251, R306). -/
def State.ldmBytes (s : State) (j : Job) (x : LdmPlan) (n : Nat) : State :=
  if n = 0 ∨ j.ceased = true ∨ x.total < j.moved + n ∨ n % x.unit ≠ 0 ∨ x.edgeAt (j.moved + n) = false ∨ s.jobHeld j ∨ (j.moved = 0 ∧ s.snapHolds j.id) then s
  else
    let t0 := j.moved / x.unit
    let t1 := (j.moved + n) / x.unit
    let feeds := if x.view then [] else (List.range (t1 - t0)).flatMap fun i => x.feeds (t0 + i)
    let shut := ((feeds.flatMap fun f => s.shutPages false f.1 f.2).eraseDups).filter fun q => !(NSet.has j.lost q)
    let peers := feeds.filter fun f => isPeer f.1 && (j.answer f.1 f.2).isNone
    if shut ≠ [] then (s.setJob { j.waitFor shut with running := true }).askAll false j.colour shut
    else if peers ≠ [] then peers.foldl (fun (s : State) f => s.askFor j (capBase x.cap) f.2 [f.1]) s
    else
      let t := s.ldmUnits j x t0 t1
      let s := match s.jobParty j with
        | none => t.s
        | some _ => t.s.setParty t.p
      (s.setJob { t.j.goOn with running := true }).jobArrive { t.j.goOn with running := true } n

end Sys2Proof.Machine
end

