-- ==== Sys2Proof/Machine/Fetch.lean ====
section
/-!
DEFINITION. Instruction fetch (R30 to R33, R200, R236, R286): the words of an instruction through the code capability, residency, the
rope's fetch buffer, the die's instruction cache and the span.
-/
namespace Sys2Proof.Machine

/-- What the fetch of one word, or of one instruction, gives. -/
inductive Fetched (α : Type) where
  | ok (v : α)
  /-- A cause for every lane of the slot, with TINFO. -/
  | cause (c : Cause) (tinfo : Nat)
  /-- A far page that is not resident. -/
  | park (page : Nat)
  /-- The decode step of R33 that stopped the fetch: a retired major of this length, a block-skip word. -/
  | retired (bytes : Nat)
  | skip
deriving Repr

/-- The instruction-cache key of a code word. -/
def icacheKey (die a : Nat) : Nat := die * 2 ^ 48 + a

/-- The code word at an address as the span holds it. -/
def State.codeWord (s : State) (a : Nat) : Word := BitVec.ofNat 32 (s.num a 4)

/-- One code word for a rope (R200): the code capability's checks in the order of R198, residency and a lost page (R286), then the
word from the fetch buffer, the instruction cache or the span (R236). `pc` is the instruction's address. -/
def State.fetchWord (s : State) (p : Party) (r : Rope) (pc : BitVec 48) (a : Nat) : Fetched Word :=
  let cap := p.code
  let steps := s.useSteps p.colour cap p.codeTag ++
    [(!(capHas cap pEXEC), .capPerm), (decide (a < capBase cap) || decide (capBase cap + capLen cap < a + 4), .capBounds)]
  match firstCause steps with
  | some c => .cause c a
  | none =>
    match SMap.get none r.fbuf a with
    | some w => .ok w
    | none =>
      match SMap.get none s.icache (icacheKey (dieOf p.core) a) with
      | some w => .ok w
      | none =>
        let q := pageOf a
        if s.farAt a && !(s.pageOpen false q) then
          if r.lostPages.elem (pc, q) then .cause .fetchLost (a / 32 * 32) else .park q
        else .ok (s.codeWord a)

/-- Further words of an instruction, appended to the bits below them. -/
def State.fetchMore (s : State) (p : Party) (r : Rope) (pc : BitVec 48) (a : Nat) : Nat → Fetched Nat
  | 0 => .ok 0
  | n + 1 =>
    match s.fetchWord p r pc a with
    | .ok w =>
      match s.fetchMore p r pc (a + 4) n with
      | .ok t => .ok (w.toNat + 2 ^ 32 * t)
      | x => x
    | .cause c t => .cause c t
    | .park q => .park q
    | .retired b => .retired b
    | .skip => .skip

/-- The instruction at an address (R33): its head first, then placement, then its other words, then decode. -/
def State.fetchInstr (s : State) (p : Party) (r : Rope) (pc : BitVec 48) : Fetched (Instr × Nat) :=
  let a := pc.toNat
  match s.fetchWord p r pc a with
  | .cause c t => .cause c t
  | .park q => .park q
  | .retired b => .retired b
  | .skip => .skip
  | .ok w =>
    let n := if w.toNat % 4 = 0 then 1 else lenBytes (w.toNat % 4) / 4
    let q := a / 4 % 8
    if 8 < q + n then .cause .fetchPlacement a
    else
      match s.fetchMore p r pc a n with
      | .cause c t => .cause c t
      | .park q => .park q
      | .retired b => .retired b
      | .skip => .skip
      | .ok bits =>
        match decode q bits with
        | .ok i b => .ok (i, b)
        | .retired b => .retired b
        | .skip => .skip
        | .placement => .cause .fetchPlacement a
        | .illegal => .cause .illegalEncoding (bits % 2 ^ 64)

/-- The code words of an issued instruction leave the rope's fetch buffer (R236). -/
def Rope.consume (r : Rope) (a bytes : Nat) : Rope :=
  { r with fbuf := r.fbuf.filter fun e => !(decide (a ≤ e.1) && decide (e.1 < a + bytes)) }

end Sys2Proof.Machine
end

