-- ==== Sys2Proof/Machine/System.lean ====
section
/-!
DEFINITION. The system cards (R351 to R356): `trap`, `bkpt`, `tret`, `rdsr`, `wrsr`, and what the system registers read.
-/
namespace Sys2Proof.Machine

/-! ### trap, bkpt, tret -/

/-- `trap` (R353). -/
def execTrap (g : Guard) (code : BitVec 16) (s : State) : Out :=
  s.issue fun c => if c.active g = 0 then c.done c.rope 8 else c.trap .software (c.active g) code.toNat

/-- `bkpt` (R354). -/
def execBkpt (g : Guard) (code : BitVec 16) (s : State) : Out :=
  s.issue fun c =>
    if c.active g = 0 ∨ c.rope.trapvec = 0 ∨ c.rope.hm then c.done c.rope 8 else c.trap .breakpoint (c.active g) code.toNat

/-- Where `tret.skip` resumes (R355): past the instruction at TPC, by LEN of its first word. -/
def skipBytes (w : Word) : Nat :=
  match w.toNat % 4 with
  | 1 => 8
  | 2 => 12
  | 3 => 16
  | _ => 4

/-- `tret.skip`: the word at TPC is fetched under R200; a fault is nested. A `drawt` that was to read its slots is passed over. -/
def Ctx.tretSkip (c : Ctx) : State :=
  let tpc := c.rope.tpc
  match c.s.fetchWord c.party c.rope tpc tpc.toNat with
  | .cause cause tinfo => c.trap cause c.entry.mask tinfo
  | .park q => c.parkOn [q] false true false
  | .ok w =>
    let r := { c.rope with drawtWait := c.rope.drawtWait.filter fun d => d.pc != tpc }
    { c with rope := r }.returnTo (tpc + BitVec.ofNat 48 (skipBytes w))
  | .retired _ => c.returnTo (tpc + 4)
  | .skip => c.returnTo (tpc + 4)

/-- `tret` (R355). -/
def execTret (op : TretOp) (s : State) : Out :=
  s.issue fun c =>
    if !c.rope.hm then c.illegal (.tret op)
    else if c.rope.stack.length ≠ c.rope.hdepth + 1 then c.s.endParty c.uid c.k true false Cause.controlStack.code
    else
      match op with
      | .endParty => c.s.endParty c.uid c.k false true 0
      | .retry => c.returnTo c.rope.tpc
      | .skip => c.tretSkip

/-! ### The enablement map and DMSIG (R47) -/

/-- The word of a whole core: 16 scratch banks and eight lane groups enabled (R47, log 4). -/
def wholeWord : Word := 0x01FFFEFF#32

/-- The word of core `n`; zero for a disabled core (R47). -/
def EnMap.word (m : EnMap) (n : Nat) : Word := if m.cores.testBit n then SMap.get wholeWord m.words n else 0

/-- Byte `i` of the enablement map (R47). -/
def EnMap.byte (m : EnMap) (i : Nat) : Nat :=
  if i < 0x20 then m.cores / 256 ^ i % 256
  else if i < 0x40 then m.slices / 256 ^ (i - 0x20) % 256
  else if i < 0x380 then (m.word ((i - 0x40) / 4)).toNat / 256 ^ (i % 4) % 256
  else 0

/-- The defect-map signature: 64-bit FNV-1a over the map (R47). -/
def EnMap.sig (m : EnMap) : Nat :=
  (List.range 1024).foldl (fun h i => Nat.xor h (m.byte i) * 0x00000100000001B3 % 2 ^ 64) 0xCBF29CE484222325

/-! ### System registers (R351) -/

/-- Frames of the package that hold no page (R282). -/
def State.framesFree (s : State) : Nat := 12 * s.resFrames - s.pages.length

/-- PINQUOTA as a rope of a colour reads it: the limit, and the records that the colour holds (R297, R351). -/
def State.pinQuota (s : State) (colour : Nat) : Nat :=
  SMap.get 0 s.quota colour + (s.pins.filter fun p => p.colour == colour).length * 2 ^ 32

/-- Whether a pool region runs degraded (R398). -/
def State.poolDegraded (s : State) : Bool := s.regions.any fun e => e.2.any fun r => r.lostModules != []

/-- Whether a fabric port that has been trained is NARROW or DOWN (R371, R411). -/
def State.portDegraded (s : State) : Bool :=
  s.ports.any fun e => e.2.st == .narrow || (e.2.st == .down && e.2.trained)

/-- DEGRADE (R411). -/
def State.degrade (s : State) : Nat :=
  s.fw.clkmax * 2 ^ 24 + s.fw.pcap * 2 ^ 16 + (s.fw.halted.foldl (fun n i => n + 2 ^ i) 0) * 2 ^ 6
    + (if s.poolDegraded then 2 ^ 5 else 0) + (if s.portDegraded then 2 ^ 4 else 0)
    + ((List.range 4).foldl (fun n d => n + if (s.die d).fenced then 2 ^ d else 0) 0)

/-- A queue's record. -/
def State.queue (s : State) (q : Nat) : QueueRec := SMap.get QueueRec.zero s.queues q

/-- The value of a system register for the issuing rope (R351). -/
def Ctx.sysReg (c : Ctx) (n : Nat) : Nat :=
  let r := c.rope
  let s := c.s
  match n with
  | 0x000 => r.fpst.toNat
  | 0x001 => c.party.colour
  | 0x002 => r.trapvec.toNat
  | 0x003 => r.tpc.toNat
  | 0x004 => r.tcause.toNat
  | 0x005 => r.tmask.toNat
  | 0x006 => r.tinfo.toNat
  | 0x007 => if r.hm then 1 + (r.hdepth - 1) * 2 ^ 16 else 0
  | 0x008 => (s.core c.party.core).stray.toNat
  | 0x009 => r.wptmiss.toNat
  | 0x00A => (s.queue c.party.queue).parklim % 2 ^ 20
  | 0x00B => s.fw.pcap
  | 0x00C => s.resFrames
  | 0x00D => s.framesFree
  | 0x00E => s.pinQuota c.party.colour
  | 0x00F => 3
  | 0x010 => s.enmap.sig
  | 0x011 => s.degrade
  | n =>
    if n < 0x200 then (List.range 8).foldl (fun v j => v + s.enmap.byte (8 * (n - 0x100) + j) * 256 ^ j) 0
    else fieldOf (SMap.get 0 s.windows ((n - 0x200) / 4)) (64 * (n % 4)) 64

/-- `rdsr` (R356): every live lane, or the uniform pair. -/
def execRdsr (srn : BitVec 12) (d : Dst) (s : State) : Out :=
  s.issue fun c =>
    let v := BitVec.ofNat 64 (c.sysReg srn.toNat)
    match d with
    | .unif d => c.done (c.rope.setS64 d.toNat v) 8
    | .lane d => c.done ((lanesOf c.entry.mask).foldl (fun (r : Rope) l => r.setX64 l d.toNat v) c.rope) 8

/-- An address as TRAPVEC and TPC store it: bits [1:0] and [63:48] zero (R351). -/
def codeAddr (v : DWord) : BitVec 48 := v.extractLsb' 0 48 &&& 0xFFFFFFFFFFFC#48

/-- `wrsr` (R356): a hinted source is used up in the lanes that executed. -/
def execWrsr (srn : BitVec 12) (a : SrPair) (s : State) : Out :=
  s.issue fun c =>
    let v := match a with
      | .lane x => c.rope.x64 c.lowLive x.r.toNat
      | .unif r => c.rope.s64 r.toNat
    let r := match a with
      | .lane x => c.rope.useUp c.entry.mask x 2
      | .unif _ => c.rope
    match srn.toNat with
    | 0x000 => c.done { r with fpst := r.fpst &&& ~~~(v.extractLsb' 0 6) } 8
    | 0x002 => c.done { r with trapvec := codeAddr v } 8
    | 0x003 => if r.hm then c.done { r with tpc := codeAddr v } 8 else c.illegal (.wrsr srn a)
    | _ => c.illegal (.wrsr srn a)

end Sys2Proof.Machine
end

