-- ==== Sys2Proof/Machine/JobEvents.lean ====
section
/-!
DEFINITION. The events of jobs, rings and snapshots (R161, R266, R267, R275, R278, R280) but the completion of a job.
-/
namespace Sys2Proof.Machine

/-! ### Movement -/

/-- The plan of a stream job that has reserved slot `k` (R278). -/
def streamPlan (p : CopyPlan) (ring : RingAt) (k : Nat) : CopyPlan := { p with dst := { p.dst with base := ring.slot k } }

/-- CAIRN_ARRIVAL (R161): the next `n` bytes of a job land, and their arrival is applied. -/
def execCairnArrival (job n : Nat) (s : State) : Out :=
  .next <|
    match s.job? job with
    | none => s
    | some j =>
      match j.kind with
      | .copy p => if j.running then s.copyBytes j p n else s
      | .stream p ring (some k) => if j.running then s.copyBytes j (streamPlan p ring k) n else s
      | .stream _ _ none => s
      | .ldm x => s.ldmBytes j x n
      | .snap => s
      | .handle _ _ _ => s
      | .replay _ => s

/-- COPY_JOB_DISPATCH (R267). -/
def execCopyJobDispatch (die : Nat) (s : State) : Out := .next (s.dispatch die)

/-- A slot that waits as given issues its instruction again. -/
def State.wakeSlot (s : State) (uid k pos : Nat) (w : Wait → Bool) : State :=
  s.withRope uid k fun r => if (r.stack[pos]?).any fun e => e.wait.any w then r.setWait pos none else r

/-- JOB_CARD_WAIT_END (R266): a card is free for the party and on its die. -/
def execJobCardWaitEnd (uid k pos : Nat) (s : State) : Out :=
  .next <|
    match s.party? uid with
    | none => s
    | some p => if s.cardsFull uid (dieOf p.core) then s else s.wakeSlot uid k pos fun w => w == .jobCard

/-! ### Rings -/

/-- RING_SLOT_WAIT_END (R278): a stream job that waits on a full ring reserves a slot once one is free. -/
def execRingSlotWaitEnd (job : Nat) (s : State) : Out :=
  .next <|
    match s.job? job with
    | none => s
    | some j =>
      match j.kind with
      | .stream p ring none =>
        if j.running && s.shutPages true ring.desc 64 != [] then s.askAll true j.colour (s.shutPages true ring.desc 64)
        else if j.running && s.ringFree ring then
          let x := s.ringReserve ring
          x.1.setJob { j with kind := .stream p ring (some x.2) }
        else s
      | _ => s

/-- What a post reads of a queue's ring descriptor (R316): nothing where COMPRING has been cleared or a byte is poisoned; the ring, or
none where its contents are bad. -/
def State.queueRing (s : State) (q : Nat) : Option (Nat × Option RingAt) :=
  let r := s.queue q
  let d := capBase r.compring
  if !r.compTag || s.poisoned d 64 then none
  else
    let slots : Quad := BitVec.ofNat 128 (s.num d 16)
    let geom := s.num (d + 0x10) 4
    let bad := (firstCause (s.useSteps r.colour slots (s.tagAt d) ++ [(!(capHas slots pST), .capPerm)])).isSome
      || fieldOf geom 0 8 != 5 || fieldOf geom 8 8 == 0 || decide (16 < fieldOf geom 8 8)
      || decide (capLen slots < 32 * 2 ^ fieldOf geom 8 8)
    some (d, if bad then none else some ⟨d, capBase slots, geom, none⟩)

/-- Posts a record to a queue's completion ring (R276, R316), whose descriptor is read once its page is resident. -/
def State.postQueue (s : State) (q : Nat) (x : Record) (know : Know) : State :=
  let l := s.shutPages true (capBase (s.queue q).compring) 64
  if (s.queue q).compTag ∧ l ≠ [] then
    let p : Post := ⟨.queue q, x, know, l⟩
    { s with posts := s.posts ++ [p] }.askAll true (s.queue q).colour l
  else
  match s.queueRing q with
  | none => s
  | some (d, none) => s.ringDrop d
  | some (_, some r) => s.postRecord (.queue q) (s.queue q).colour r x know

/-- The commits that wait at far pages go on where those are resident (R275, R283). -/
def State.ringsGoOn (s : State) : State :=
  ((s.ringDone.filter fun e => e.waits != []).map RingDone.desc).eraseDups.foldl (fun (s : State) d => s.ringCommits d s.ringDone.length) s

/-- RING_POST (R275): commits that wait go on, and the oldest record that waits is posted. -/
def execRingPost (s : State) : Out :=
  .next <|
    let s := s.ringsGoOn
    match s.posts with
    | [] => s
    | x :: t =>
      let s := { s with posts := t }
      match x.dest with
      | .rope uid k => s.postRope uid k x.body x.know
      | .queue q => s.postQueue q x.body x.know

/-- RING_CTIME_EXPIRY (R275 step 5): the oldest slot committed since the last interrupt has waited CTIME. -/
def execRingCtimeExpiry (desc : Nat) (s : State) : Out :=
  .next <|
    let i := SMap.get RingInt.zero s.ringInt desc
    let t := s.num (desc + 0x18) 4
    if s.shutPages false desc 64 ≠ [] then s.askAll false 0 (s.shutPages false desc 64)
    else if i.count ≠ 0 ∧ t ≠ 0 ∧ i.oldest + 1000 * t ≤ s.timer then s.ringInterrupt desc else s

/-! ### Snapshots (R280) -/

/-- Whether every job that has written has finished, and every earlier job with an edge to the snapshot (R280 steps 1 and 2). -/
def State.cutReady (s : State) (x : Snap) : Bool :=
  match s.job? x.job with
  | none => false
  | some j =>
    j.running && x.ahead == 0 && !(s.jobHeld j)
      && s.jobs.all fun y => y.id == x.job || y.moved == 0 || !y.local'

/-- SNAPSHOT_CUT (R280): stash lines that are dirty are written back, the image stands, the first arrival of 1 is posted. -/
def execSnapshotCut (s : State) : Out :=
  .next <|
    match s.snap with
    | none => s
    | some x =>
      match s.job? x.job with
      | none => s
      | some j =>
        if !x.cut && s.cutReady x then
          let parties := s.parties.map fun (p : Party) => { p with dirty := [] }
          { s with snap := some { x with cut := true }, parties := parties }.jobArrive j 1
        else s

/-- The plan of a snapshot: from its source to its destination. -/
def snapPlan (j : Job) (x : Snap) : CopyPlan :=
  ⟨1, x.len, 1, ⟨false, x.src, x.len, 1, j.caps.getD 0 0⟩, ⟨false, x.dst, x.len, 1, j.caps.getD 1 0⟩, false, false⟩

/-- Writes page `q` of the image to the destination, granule by granule (R270, R280). -/
def Mover.putPage (t : Mover) (c : CopyPlan) (q : Nat) (x : PageImage) : Mover :=
  let a := q * 4096
  let t := (List.range 256).foldl (fun (t : Mover) g =>
    let bs := (x.bytes.drop (16 * g)).take 16
    let gr := a / 16 + g
    let src := gr * 16
    let ms := bs.mapIdx fun i b => (⟨c.dst.base + (src - c.src.base) + i, src + i, b, NSet.has x.poison (src / 64)⟩ : Move)
    match cutPieces ms with
    | [one] => t.putTag c one (one.length == 16 && (c.dst.base + (src - c.src.base)) % 16 == 0 && capHas c.src.cap pLDCAP
        && NSet.has x.tags gr)
    | l => l.foldl (fun (t : Mover) y => t.putTag c y false) t) t
  if t.stop then t
  else t.heal c ((wholeHalves (c.dst.base + (a - c.src.base)) 4096).filter fun h => !(NSet.has t.j.hot h))

/-- The image of a page: as saved, or as it stands. -/
def State.imageOf (s : State) (x : Snap) (q : Nat) : PageImage := (SMap.get none x.saved q).getD (s.pageImage q)

/-- Where page `q` goes. -/
def Snap.dstOf (x : Snap) (q : Nat) : Nat := x.dst + (q * 4096 - x.src)

/-- The far pages of the destination that a page's copy waits for. -/
def State.snapShut (s : State) (j : Job) (x : Snap) (q : Nat) : List Nat :=
  (s.shutPages true (x.dstOf q) 4096).filter fun p => !(NSet.has j.lost p)

/-- Whether a slot waits for a copy-on-write frame. -/
def isCow : Wait → Bool
  | .copyOnWrite _ => true
  | _ => false

/-- Copies out one page, its frame freed if it had one; the slots that wait for a frame try again. -/
def State.copyOut (s : State) (j : Job) (x : Snap) (q : Nat) : State :=
  let t := (⟨s, Party.nobody, j, false⟩ : Mover).putPage (snapPlan j x) q (s.imageOf x q)
  let s := t.s.setJob { t.j with waits := [] }
  let snap := s.snap.map fun (y : Snap) => { y with saved := SMap.set none y.saved q none, copied := NSet.set y.copied q true }
  let s := { s with snap := snap }
  let s := { s with parties := s.parties.map fun (p : Party) => p.wake isCow }
  if t.stop then { s.overJob j.id t.j.fault with snap := none } else s

/-- COPY_ON_WRITE_PAGE_COPIED (R280): a page that took a copy-on-write is written out, and its frame is freed. -/
def execCopyOnWritePageCopied (page : Nat) (s : State) : Out :=
  .next <|
    match s.snap with
    | none => s
    | some x =>
      match s.job? x.job with
      | none => s
      | some j =>
        if x.cut && (SMap.get none x.saved page).isSome && !j.ceased then
          match s.snapShut j x page with
          | [] => s.copyOut j x page
          | l => (s.askAll true j.colour l).setJob (j.waitFor l)
        else s

/-- Copies out the pages of a list in order, as far as nothing stops the job. -/
def State.copyPages (s : State) (x : Snap) : List Nat → State
  | [] => s
  | q :: t =>
    match s.job? x.job, s.snap with
    | some j, some y => if j.ceased then s else (s.copyOut j y q).copyPages x t
    | _, _ => s

/-- SNAPSHOT_COPY_COMPLETE (R280): the rest of the image is copied, the second arrival is posted, and the job ends. -/
def execSnapshotCopyComplete (s : State) : Out :=
  .next <|
    match s.snap with
    | none => s
    | some x =>
      match s.job? x.job with
      | none => s
      | some j =>
        let rest := (blocksOf 4096 x.src x.len).filter fun q => !(NSet.has x.copied q)
        let shut := (rest.flatMap (s.snapShut j x)).eraseDups
        if !x.cut || x.saved != [] then s
        else if shut ≠ [] then
          (s.askAll true j.colour shut).setJob (j.waitFor shut)
        else
          let s := s.copyPages x rest
          match s.job? x.job with
          | none => s
          | some j => if j.ceased then s else ({ s with snap := none }.jobArrive j 1).endJob j.goOn.release

end Sys2Proof.Machine
end

