-- ==== Sys2Proof/Machine/TierCards.lean ====
section
/-!
DEFINITION. Route cards and the tier cards (R291 to R297): `rcard`, `wpt`, `resq`, `rpin`.
-/
namespace Sys2Proof.Machine

/-! ### Reading a card (R291) -/

/-- A little-endian number of `n` bytes at an offset of a record. -/
def numAt (b : List Byte) (off n : Nat) : Nat := leNat ((b.drop off).take n)

/-- T of R291: the table's bytes, padded to 32. -/
def tableBytes (w : Nat) : Nat := (4 * (w + 1) + 31) / 32 * 32

/-- WCOUNT, ECOUNT and BYTES of a header. -/
def hdrW (b : List Byte) : Nat := numAt b 0x08 4
/-- ECOUNT -/
def hdrE (b : List Byte) : Nat := numAt b 0x0C 4
/-- BYTES -/
def hdrBytes (b : List Byte) : Nat := numAt b 0x10 8

/-- Whether a card's header keeps R291. -/
def headerOk (b : List Byte) : Bool :=
  b.take 4 == [0x46#8, 0x43#8, 0x52#8, 0x43#8] && numAt b 4 2 == 1 && decide (1 ≤ numAt b 6 2) && decide (numAt b 6 2 ≤ 64)
    && decide (1 ≤ hdrW b) && decide (hdrW b ≤ 65535) && decide (1 ≤ hdrE b) && decide (hdrE b ≤ 262144)
    && hdrBytes b == 0x20 + tableBytes (hdrW b) + 32 * hdrE b && numAt b 0x18 8 == 0

/-- The entry that 32 bytes hold, if well formed. -/
def entryOf (b : List Byte) : Option CardEntry :=
  let page := numAt b 0 8
  let flags := numAt b 0x0A 2
  let vpin := bitOf flags 0
  let version := numAt b 0x10 8
  if page % 2 ^ 21 = 0 ∧ page < 2 ^ 48 ∧ isFar page = true ∧ numAt b 8 1 ≤ 2 ∧ numAt b 9 1 ≤ 7 ∧ flags ≤ 1 ∧ numAt b 0x0C 4 = 0
      ∧ (vpin = true ∨ version = 0) ∧ (vpin = true → isHost page = false) ∧ numAt b 0x18 8 = 0 then
    some ⟨page / 2 ^ 21, numAt b 8 1, numAt b 9 1, if vpin then some version else none⟩
  else none

/-- Whether a list of numbers never decreases. -/
def rising : List Nat → Bool
  | a :: b :: t => decide (a ≤ b) && rising (b :: t)
  | _ => true

/-- The card that some bytes hold for a launch and colour, if well formed (R291). -/
def cardOf (launch colour : Nat) (b : List Byte) : Option RouteCard :=
  let w := hdrW b
  let e := hdrE b
  let t := tableBytes w
  let table := (List.range (w + 1)).map fun n => numAt b (0x20 + 4 * n) 4
  let pad := (b.drop (0x20 + 4 * (w + 1))).take (t - 4 * (w + 1))
  if headerOk b && decide (hdrBytes b ≤ b.length) && table.headD 1 == 0 && table.getLastD 0 == e && rising table && pad.all (· == 0#8)
  then
    ((List.range e).mapM fun i => entryOf ((b.drop (0x20 + t + 32 * i)).take 32)).map fun es =>
      ⟨launch, colour, numAt b 6 2, table, es⟩
  else none

/-! ### The store and the waypoints (R292, R293) -/

/-- The installed card of a launch. -/
def State.card? (s : State) (launch : Nat) : Option RouteCard := s.cards.find? fun x => x.launch == launch

/-- The store without a launch's card; each of its ropes' last waypoints returns to none (R293). -/
def State.dropCard (s : State) (launch : Nat) : State :=
  { s with
    cards := s.cards.filter fun x => x.launch != launch
    parties := s.parties.map fun p =>
      if p.launch = launch then { p with ropes := p.ropes.map fun r => { r with lastWpt := none } } else p }

/-- Whether the store has room for a card, the launch's old card counted as freed (R292, R294). -/
def State.cardRoom (s : State) (x : RouteCard) : Bool :=
  let rest := s.cards.filter fun y => y.launch != x.launch
  decide (rest.length < 64) && decide ((rest.map fun y => y.entries.length).foldl (· + ·) 0 + x.entries.length ≤ 1048576)

/-- W of a card. -/
def RouteCard.w (x : RouteCard) : Nat := x.table.length - 1

/-- The entries of waypoint `k`, with their indices. -/
def RouteCard.at (x : RouteCard) (k : Nat) : List (Nat × CardEntry) :=
  let a := x.table.getD k 0
  let b := x.table.getD (k + 1) 0
  (List.range (b - a)).filterMap fun i => (x.entries[a + i]?).map fun e => (a + i, e)

/-- Last waypoints of a launch's ropes that are placed or saved and have not ended; none counts as −1 (R292). -/
def State.waypoints (s : State) (launch : Nat) : List Int :=
  (s.parties.filter fun p => p.launch == launch).flatMap fun p =>
    (p.ropes.filter fun r => !r.ended).map fun r => (r.lastWpt.map fun n => (n : Int)).getD (-1)

/-- LO (R292); without a rope −1. -/
def State.lo (s : State) (launch : Nat) : Int :=
  match s.waypoints launch with
  | [] => -1
  | a :: t => t.foldl min a

/-- HI (R292); without a rope −1. -/
def State.hi (s : State) (launch : Nat) : Int := (s.waypoints launch).foldl max (-1)

/-- The waypoints from one bound up to another that a card has. -/
def RouteCard.between (x : RouteCard) (lo hi : Int) : List Nat :=
  (List.range x.w).filter fun k => decide (lo ≤ (k : Int)) && decide ((k : Int) ≤ hi)

/-- Whether an entry's page is RESIDENT, and under the version that the entry pins (R292, R403). -/
def State.entryResident (s : State) (e : CardEntry) : Bool :=
  (s.page? e.page).any fun r => r.st == .resident && (e.version.all fun v => v == r.version)

/-- What the cards ask for: the NEED and FETCH entries of waypoints LO + 1 to HI + LOOK that are not resident (R292). -/
def State.cardAsks (s : State) : List PageAsk :=
  s.cards.flatMap fun x =>
    (x.between (s.lo x.launch + 1) (s.hi x.launch + x.look)).flatMap fun k =>
      ((x.at k).filter fun e => decide (e.2.act ≤ 1) && !(s.entryResident e.2)).map fun e =>
        ⟨e.2.page, .card k e.2.pri, false, x.colour, e.2.version⟩

/-- The requests that the cards make now are made: one that has been made stands, whatever becomes of LO, HI and the card (R287, R292). -/
def State.noteCards (s : State) : State := s.cardAsks.foldl State.ask s

/-- Installs a card in place of any old one, and makes its first requests (R292, R293). -/
def State.installCard (s : State) (x : RouteCard) : State :=
  let s := s.dropCard x.launch
  { s with cards := s.cards ++ [x] }.noteCards

/-- Whether a card holds a page against eviction (R292). A VPIN entry does not hold a page that is resident under another version. -/
def State.cardHolds (s : State) (q : Nat) : Bool :=
  s.cards.any fun x =>
    (x.between (s.lo x.launch) (s.hi x.launch + x.look)).any fun k =>
      (x.at k).any fun e => decide (e.2.act ≤ 1) && e.2.page == q && s.entryResident e.2

/-- Whether a hold stands on a page: of a card, or of a party saved at a park (R285, R292). -/
def State.held (s : State) (q : Nat) : Bool := s.cardHolds q || s.parties.any fun p => p.holds.elem q

/-! ### rcard (R294) -/

/-- The card's bytes have been read: install, or the status why not. -/
def Ctx.rcardInstall (c : Ctx) (b : List Byte) (fin : Ctx → Nat → State) : State :=
  match cardOf c.party.launch c.party.colour b with
  | none => fin c 2
  | some x =>
    if c.s.cardRoom x then
      let s := c.s.installCard x
      match s.party? c.uid with
      | none => fin c 3
      | some p => fin { c with s := s, party := p, rope := { c.rope with lastWpt := none } } 0
    else fin c 3

/-- `rcard` (R294): once for the rope, with the quad of the lowest live lane. A whole card that a peer has answered is read at once. -/
def execRcard (form : RcardForm) (d : BitVec 8) (s : State) : Out :=
  s.issue fun c =>
    match form with
    | .off =>
      let s := c.s.dropCard c.party.launch
      let r := { c.rope with lastWpt := none }.setS d.toNat 1
      match s.party? c.uid with
      | none => s
      | some p => { c with s := s, party := p }.done r 12
    | .install a b =>
      let l := c.lowLive
      let q := c.rope.quad l a.r.toNat
      let off := (c.rope.s64 b.toNat).toNat
      let trap (cause : Cause) : State := c.trapOff cause (withBit 0 l true) fun _ => off
      let fin (c : Ctx) (status : Nat) : State :=
        c.done ((c.rope.release.1.useAll c.entry.mask [(a, 4)]).setS d.toNat (BitVec.ofNat 32 status)) 12
      let steps := c.spanSteps q (c.rope.tag l a.r.toNat) (capHas q pLD) off 32 32
      match if c.checked then none else firstCause steps with
      | some x => trap x
      | none =>
        match c.answer ⟨32 + l, off, capBase q + off, 0, false⟩ with
        | some x => c.readRec (.rcard form d) (32 + l) q off x.bytes.length fun c b => c.rcardInstall b fin
        | none =>
          c.readRec (.rcard form d) l q off 32 fun c b =>
            if !(headerOk b) then fin c 2
            else
              let z := hdrBytes b
              match firstCause [(decide (capLen q < off + z), .capBounds), ((capBase q + off) % 32 != 0, .misaligned)] with
              | some x => trap x
              | none => c.readRec (.rcard form d) (32 + l) q off z fun c b => c.rcardInstall b fin

/-! ### wpt (R295) -/

/-- WPTMISS (R295). -/
def wptMiss (n : Nat) (x : Nat × CardEntry) : DWord := BitVec.ofNat 64 (n * 2 ^ 48 + x.2.page * 2 ^ 21 + x.1 * 2 ^ 3)

/-- `wpt` (R295): recorded before the check. -/
def execWpt (n : WptSrc) (s : State) : Out :=
  s.issue fun c =>
    let n := match n with
      | .imm n => n.toNat
      | .unif r => (c.rope.s r.toNat).toNat % 2 ^ 16
    match c.s.card? c.party.launch with
    | none => c.done c.rope 8
    | some x =>
      if x.w ≤ n then c.done c.rope 8
      else
        let r := { c.rope with lastWpt := some n }
        let c := { c with rope := r, s := (c.put r).noteCards }
        match (x.at n).find? fun e => e.2.act == 0 && !(c.s.entryResident e.2) with
        | none => c.done r 8
        | some e => { c with rope := { r with wptmiss := wptMiss n e } }.trap .waypointMiss c.entry.mask n

/-! ### resq (R296) -/

/-- R198 steps 1 to 6 of `resq` and `rpin` in a lane: LD, ST or VIEW suffices (R296). -/
def Ctx.pageSteps (c : Ctx) (m : SpanOp) (l : Nat) : List (Bool × Cause) :=
  let q := c.rope.quad l m.a.r.toNat
  let off := c.rope.spanOff m.off m.imm.toInt l
  c.s.useSteps c.party.colour q (c.rope.tag l m.a.r.toNat) ++
    [(!(capHas q pLD || capHas q pST || capHas q pVIEW), .capPerm),
     (decide (off < 0) || decide ((capLen q : Int) < off + 1), .capBounds)]

/-- The address that a lane's operand names. -/
def Rope.spanAddr (r : Rope) (m : SpanOp) (l : Nat) : Nat :=
  ((capBase (r.quad l m.a.r.toNat) : Int) + r.spanOff m.off m.imm.toInt l).toNat

/-- TIER of an address (R296). -/
def tierOf (a : Nat) : Nat := if isPool a then 1 else if isHost a then 2 else if isPeer a then 3 else 0

/-- What `resq` reports of the page of an address (R296). -/
def State.pageStatus (s : State) (a : Nat) : Nat :=
  let q := pageOf a
  let t := tierOf a
  let pins := min ((s.pins.filter fun p => p.page == q).length) 255
  let bit (b : Bool) (n : Nat) : Nat := if b then 2 ^ n else 0
  let near := t == 0 || t == 3
  match s.page? q with
  | none => pins * 256 + t * 64 + bit (s.held q) 3 + bit near 0
  | some r =>
    pins * 256 + t * 64 + bit (r.dirty != []) 4 + bit (s.held q) 3 + bit (r.st == .evicting) 2 + bit (r.st == .fetching) 1
      + bit (r.st == .resident || near) 0

/-- `resq` (R296). -/
def execResq (m : SpanOp) (d : BitVec 8) (s : State) : Out :=
  s.issue fun c =>
    let active := c.active m.g
    match checkLanes (lanesOf active) (c.pageSteps m) with
    | some x => c.trapOff x.1 x.2 (c.rope.spanOff m.off m.imm.toInt)
    | none =>
      let r := c.rope.useAll active (spanUsed m.a m.off)
      c.done ((lanesOf active).foldl (fun (r : Rope) l =>
        r.writeLane l (Fx.word d (c.s.pageStatus (c.rope.spanAddr m l)))) r) 12

/-! ### rpin (R297) -/

/-- Whether residency applies to a page (R281): pages of the far windows that stand behind them. -/
def State.farPage (s : State) (q : Nat) : Bool := s.farAt (q * 2 ^ 21)

/-- Whether a launch has pinned a page. -/
def State.pinned (s : State) (launch q : Nat) : Bool := s.pins.any fun p => p.launch == launch && p.page == q

/-- Whether a page may be accessed at once. -/
def State.pageHere (s : State) (q : Nat) : Bool := !(s.farPage q) || s.pageOpen false q

/-- `.pin` and `.try` on pages; `gone` are pages that were lost to this instruction (R297). -/
def Ctx.rpinPin (c : Ctx) (pages gone : List Nat) (wait : Bool) (fin : Ctx → Nat → State) : State :=
  let new := pages.filter fun q => c.s.farPage q && !(c.s.pinned c.party.launch q) && !(gone.elem q)
  let held := (c.s.pins.filter fun p => p.colour == c.party.colour).length
  if new ≠ [] ∧ SMap.get 0 c.s.quota c.party.colour < held + new.length then fin c 0xFFFFFFFF
  else
    let s := { c.s with pins := c.s.pins ++ new.map fun q => ⟨c.party.launch, c.party.colour, q⟩ }
    let out := pages.filter fun q => !(s.pageHere q) && !(gone.elem q)
    if out = [] ∨ wait = false then
      let s := out.foldl (fun (s : State) q => s.ask ⟨q, .demand, false, c.party.colour, none⟩) s
      let here := pages.filter fun q => s.pageHere q && (!(s.farPage q) || s.pinned c.party.launch q)
      fin { c with s := s } (if wait then here.length else (pages.filter fun q => !(s.pageHere q)).length)
    else { c with s := s }.parkOn out false false true

/-- `rpin` (R297): once for the rope, with the operands of the lowest active lane. -/
def execRpin (op : RpinOp) (m : SpanOp) (d : BitVec 8) (x : RSrc) (s : State) : Out :=
  s.issue fun c =>
    let active := c.active m.g
    if active = 0 then c.done c.rope 12
    else
      let l := lowLane active
      let q := c.rope.quad l m.a.r.toNat
      let n := (c.rope.x l x.r.toNat).toNat
      let page := pageOf (c.rope.spanAddr m l)
      let steps := c.pageSteps m l ++ [(n == 0 || decide (512 < n)
        || decide (capBase q + capLen q ≤ page * 2 ^ 21 + (n - 1) * 2 ^ 21), .capBounds)]
      match firstCause steps with
      | some cause => c.trapOff cause (withBit 0 l true) (c.rope.spanOff m.off m.imm.toInt)
      | none =>
        let pages := (List.range n).map (page + ·)
        let gone := pages.filter fun q => c.rope.lostPages.elem (c.entry.pc, q)
        let fin (c : Ctx) (v : Nat) : State :=
          let r := c.clearLost.rope.useAll active (spanUsed m.a m.off ++ [(x, 1)])
          c.done ((lanesOf active).foldl (fun (r : Rope) l => r.writeLane l (Fx.word d v)) r) 12
        match op with
        | .pin => c.rpinPin pages gone true fin
        | .try => c.rpinPin pages gone false fin
        | .unpin =>
          let hit (p : Pin) : Bool := p.launch == c.party.launch && pages.elem p.page
          fin { c with s := { c.s with pins := c.s.pins.filter fun p => !(hit p) } } (c.s.pins.filter hit).length

end Sys2Proof.Machine
end

