-- ==== Sys2Proof/Machine/Tier.lean ====
section
/-!
DEFINITION. The tier engine (R283 to R290, R403, R417): fetches in the order of R287, the arrival and the loss of a page, eviction, and
the host's answers about translations.
-/
namespace Sys2Proof.Machine

/-! ### Requests -/

/-- The order of a request: class, then for card entries waypoint and PRI from 7 down (R287). -/
def AskClass.rank : AskClass → Nat × Nat × Nat
  | .demand => (0, 0, 0)
  | .engine => (1, 0, 0)
  | .card k pri => (2, k, 7 - pri)

/-- Whether one request comes before another of a later place in the list. -/
def PageAsk.before (a b : PageAsk) : Bool :=
  let x := a.cls.rank
  let y := b.cls.rank
  decide (x.1 < y.1) || (x.1 == y.1 && (decide (x.2.1 < y.2.1) || (x.2.1 == y.2.1 && decide (x.2.2 < y.2.2))))

/-- The request that the engine takes next: the first in order whose page has no residency entry. -/
def State.nextAsk (s : State) : Option PageAsk :=
  ((s.asks ++ s.cardAsks).filter fun x => (s.page? x.page).isNone).foldl
    (fun (b : Option PageAsk) x => match b with
      | none => some x
      | some y => if x.before y then some x else b) none

/-! ### Losing a page (R286, R417) -/

/-- A park ends with one of its pages, or where all are waited for with the last of them (R284, R297). -/
def Park.without (k : Park) (q : Nat) : Option Park :=
  let left := k.pages.filter fun x => x != q
  if k.all && left != [] then some { k with pages := left } else none

/-- A rope that is parked on a page that has become RESIDENT or lost: it is ready again, unless it waits for further pages. -/
def Rope.pageCame (r : Rope) (q : Nat) : Rope :=
  match r.park with
  | none => r
  | some k => if k.pages.elem q then { r with park := k.without q } else r

/-- A rope that is parked on a lost page replays, and meets it lost. -/
def Rope.pageLost (r : Rope) (q : Nat) : Rope :=
  match r.park with
  | none => r
  | some k => if k.pages.elem q then { r.pageCame q with lostPages := (k.pc, q) :: r.lostPages } else r

/-- A job that waits at a lost page meets it so (R417). -/
def Job.meetLost (j : Job) (q : Nat) : Job := if NSet.has j.waits q then { j with lost := NSet.set j.lost q true } else j

/-- A slot whose record's page is lost is still committed, its write failed (R275, log 74). -/
def RingDone.meetLost (q : Nat) (e : RingDone) : RingDone :=
  if e.waits.elem q then { e with body := none, waits := [], failed := true } else e

/-- The operations of a replay that wait at a lost page meet it so (R417). -/
def ReplayRec.meetLost (r : ReplayRec) (q : Nat) : ReplayRec :=
  { r with lost := (r.waits.filter fun x => x % 2 ^ 27 == q).foldl (fun m x => NSet.set m x true) r.lost
           waits := r.waits.filter fun x => x % 2 ^ 27 != q }

/-- A partial has been applied or dropped: an `accq` that waited for the last one is issued again (R261). -/
def Rope.partDone (r : Rope) (dropped : Nat) : Rope :=
  let r := { r with farOut := r.farOut - 1, farDropped := r.farDropped + dropped }
  if r.farOut = 0 then { r with stack := r.stack.map fun e => if e.wait = some .accq then { e with wait := none } else e } else r

/-- A dropped partial: counted for `accq` and in DROP_ADD (R259, R261). -/
def State.dropPart (s : State) (x : FarPart) : State := (s.countError x.die 6 1).withRope x.uid x.k fun r => r.partDone 1

/-- A page's entry goes and its frame is free: what stood in the frame alone goes with it, tags, race records and the poison that its home
does not mark, but for the lines in `kept`, which the home has taken over (R196, R287, R289, R310). -/
def State.dropPage (s : State) (q : Nat) (home kept : NSet) : State :=
  let hit (x w : Nat) : Bool := decide (q * 2 ^ 21 ≤ x * w) && decide (x * w < (q + 1) * 2 ^ 21)
  let stays := s.poison.filter fun h => !(hit h 64) || NSet.has kept (h / 2)
  { s with
    tags := s.tags.filter fun g => !(hit g 16)
    race := s.race.filter fun e => !(hit e.1 16)
    poison := (home.filter fun h => !(NSet.has kept (h / 2))).foldl (fun m h => NSet.set m h true) stays
    pages := SMap.set none s.pages q none }

/-- Whether a partial waits at a page (R417). -/
def FarPart.waitsAt (x : FarPart) (q : Nat) : Bool := x.waits && pageOf x.addr == q

/-- A page is lost: no entry, no pin record, and everyone who waits meets it so (R286, R297, R417). -/
def State.losePage (s : State) (q : Nat) : State :=
  let gone := s.parts.filter fun x => x.waitsAt q
  let ahead (n : Nat) : Nat := ((s.parts.take n).filter fun x => !(x.waitsAt q)).length
  let snap := s.snap.map fun x => { x with ahead := ahead x.ahead }
  let s := gone.foldl State.dropPart { s with parts := s.parts.filter (fun x => !(x.waitsAt q)), snap := snap }
  let out := match s.page? q with
    | none => s
    | some r => s.dropPage q r.home r.dirty
  { out with
    asks := s.asks.filter fun x => x.page != q
    pins := s.pins.filter fun p => p.page != q
    posts := s.posts.filter fun x => !(x.waits.elem q)
    ringDone := (s.ringDone.filter fun e => !(e.waits.elem q && pageOf e.desc == q)).map (RingDone.meetLost q)
    jobs := s.jobs.map fun j => j.meetLost q
    replays := s.replays.map fun r => r.meetLost q
    parties := s.parties.map fun p =>
      { p with ropes := p.ropes.map fun r => r.pageLost q, holds := p.holds.filter fun x => x != q } }

/-! ### Fetching (R287, R403) -/

/-- The region that holds an address of the pool window (R397). -/
def State.regionAt (s : State) (a : Nat) : Option Region :=
  (s.regions.find? fun e => e.2.any fun r => decide (r.base ≤ a) && decide (a < r.base + r.len)).bind Prod.snd

/-- The version word that publishes a version (R401): CUR, or the history word of its number. -/
def State.versionWord (s : State) (ctrl : Nat) (v : Option Nat) : Option Nat :=
  let word (i : Nat) : Nat := s.num (ctrl + 8 * i) 8
  let ver (w : Nat) : Nat := fieldOf w 40 24
  match v with
  | none => if ver (word 0) = 0 then none else some (word 0)
  | some v =>
    if v = 0 then none
    else if ver (word 0) = v then some (word 0)
    else if ver (word (1 + v % 7)) = v then some (word (1 + v % 7)) else none

/-- Whether both modules of a MIRROR region, or two of a PARITY region, are lost: its lines read poisoned (R398). -/
def Region.gone (r : Region) : Bool := decide (2 ≤ r.lostModules.length)

/-- Whether the pool reads poisoned at an address (R398). -/
def State.poolGone (s : State) (a : Nat) : Bool := (s.regionAt a).any Region.gone

/-- Poisons every half-line of a range of whole half-lines. -/
def State.poisonSpan (s : State) (a n : Nat) : State :=
  let lo := a / 64
  let hi := (a + n) / 64
  { s with poison := (s.poison.filter fun h => decide (h < lo)) ++ (List.range (hi - lo)).map (lo + ·) ++ s.poison.filter fun h => decide (hi ≤ h) }

/-- The version to which a fetch of a page of a VERSIONED region binds, and the slot that it reads; none when the page is lost
(R403). -/
def State.slotOf (s : State) (r : Region) (q : Nat) (v : Option Nat) : Option (Nat × Nat) :=
  (s.versionWord r.ctrl v).bind fun w =>
    let m := fieldOf w 0 36 * 4096
    let n := fieldOf w 40 24
    if s.num m 8 = n ∧ s.poolGone r.ctrl = false ∧ s.poolGone m = false then some (n, s.num (m + 8 * (1 + (q * 2 ^ 21 - r.base) / 2 ^ 21)) 8) else none

/-- Copies a slot into a page: bytes and poison (R287, R403). -/
def State.copyPage (s : State) (src dst : Nat) : State :=
  let z := 2 ^ 21
  let hit (a : Nat) (x w : Nat) : Bool := decide (a ≤ x * w) && decide (x * w < a + z)
  let bytes := s.mem.filter fun e => hit src e.1 1
  let bad := s.poison.filter fun h => hit src h 64
  { s with
    mem := bytes.foldl (fun m e => SMap.set memInit m (e.1 - src + dst) e.2) (s.mem.filter fun e => !(hit dst e.1 1))
    poison := bad.foldl (fun p h => NSet.set p (h - src / 64 + dst / 64) true) (s.poison.filter fun h => !(hit dst h 64)) }

/-- A residency entry that begins, in a frame. -/
def PageRec.fetch (frame : Nat) (home : NSet) (writable : Bool) (version : Nat) : PageRec :=
  ⟨frame, .fetching, home, [], writable, false, version, 0, false⟩

/-- The lowest frame that no page holds (R282). -/
def State.freeFrame (s : State) : Nat :=
  ((List.range (12 * s.resFrames)).find? fun n => s.pages.all fun e => e.2.all fun (r : PageRec) => r.frame != n).getD 0

/-- The entry of a page begins: untagged, with the poison that its home marks and without race records (R287, R309). -/
def State.beginFetch (s : State) (q : Nat) (writable : Bool) (version : Nat) : State :=
  let home := s.poison.filter fun h => h / 2 ^ 15 == q
  let t := s.dropPage q home []
  { t with
    asks := s.asks.filter fun y => y.page != q
    pages := SMap.set none s.pages q (some (PageRec.fetch s.freeFrame home writable version)) }

/-- Starts the fetch of a page for a request, a frame being free (R287, R288, R403). -/
def State.fetchPage (s : State) (x : PageAsk) : State :=
  let q := x.page
  let w := s.asks.any fun y => y.page == q && y.write
  let start (s : State) (v : Nat) : State := s.beginFetch q w v
  match (if hostPage q then none else s.regionAt (q * 2 ^ 21)) with
  | none => start s 0
  | some r =>
    if !(r.colours.elem x.colour) then s.losePage q
    else if r.versioned then
      match s.slotOf r q x.version with
      | none => s.losePage q
      | some y =>
        let s := s.copyPage y.2 (q * 2 ^ 21)
        start (if s.poolGone y.2 then s.poisonSpan (q * 2 ^ 21) (2 ^ 21) else s) y.1
    else start (if r.gone then s.poisonSpan (q * 2 ^ 21) (2 ^ 21) else s) 0

/-! ### Eviction (R289) -/

/-- Whether an EVICT entry whose waypoint has passed names a page (R292). -/
def State.firstToGo (s : State) (q : Nat) : Bool :=
  s.cards.any fun x => (x.between (-1) (s.lo x.launch)).any fun k => (x.at k).any fun e => e.2.act == 2 && e.2.page == q

/-- Whether a page may be evicted (R289). -/
def State.evictable (s : State) (q : Nat) (r : PageRec) : Bool :=
  r.st == .resident && !(s.pins.any fun p => p.page == q) && !(s.held q)

/-- The pages that may be evicted, with their entries. -/
def State.victims (s : State) : List (Nat × PageRec) :=
  s.pages.filterMap fun e => e.2.bind fun r => if s.evictable e.1 r then some (e.1, r) else none

/-- The page that the engine evicts next (R289): those marked first, then the least recently accessed. -/
def State.victim (s : State) : Option Nat :=
  let key (e : Nat × PageRec) : Nat × Nat := (if s.firstToGo e.1 || e.2.unwanted then 0 else 1, e.2.used)
  let less (a b : Nat × Nat) : Bool := decide (a.1 < b.1) || (a.1 == b.1 && decide (a.2 < b.2))
  (s.victims.foldl (fun (b : Option (Nat × PageRec)) e => match b with
    | none => some e
    | some y => if less (key e) (key y) then some e else b) none).map Prod.fst

/-- The first step of an eviction: EVICTING, and the page's stash lines go (R289). -/
def State.evictStart (s : State) (q : Nat) : State :=
  match s.page? q with
  | none => s
  | some r => { s with pages := SMap.set none s.pages q (some { r with st := .evicting }) }.dropStash (q * 2 ^ 21) ((q + 1) * 2 ^ 21)

/-- The other steps: dirty lines go home without tags, race records are lost, the entry goes (R289, R310). -/
def State.evictEnd (s : State) (q : Nat) : State :=
  match s.page? q with
  | none => s
  | some r => s.dropPage q r.home r.dirty

/-- Whether an eviction that a host or a pinned version wants of a page of a range is still to come. -/
def State.unwantedIn (s : State) (x : Nat × Nat) : Bool :=
  s.pages.any fun e => e.2.any (fun r => r.unwanted) && decide (e.1 * 2 ^ 21 < x.2) && decide (x.1 < (e.1 + 1) * 2 ^ 21)

/-- Sends the Invalidate Completions whose pages have gone (R288). -/
def State.completeInvals (s : State) : State :=
  let fin := s.invals.filter fun x => !(s.unwantedIn x)
  { s with invals := s.invals.filter s.unwantedIn, wire := (fin.map fun x => WireMsg.invalidated x.1 x.2) ++ s.wire }

/-- Marks the pages that a card pins to another version than they are resident under (R403). -/
def State.markVersions (s : State) : State :=
  s.cardAsks.foldl (fun (s : State) x =>
    match s.page? x.page, x.version with
    | some r, some v =>
      if r.st = .resident ∧ r.version ≠ v then { s with pages := SMap.set none s.pages x.page (some { r with unwanted := true }) } else s
    | _, _ => s) s

/-! ### The events -/

/-- Number of fetches in flight. -/
def State.fetching (s : State) : Nat := (s.pages.filter fun e => e.2.any fun r => r.st == .fetching).length

/-- TIER_FETCH (R287): the next request takes a free frame; when none is free an eviction begins, if none is under way, and the
fetch waits. -/
def execTierFetch (s : State) : Out :=
  let s := s.markVersions
  .next <|
    match s.nextAsk with
    | none => s
    | some x =>
      if 64 ≤ s.fetching then s
      else if s.framesFree = 0 then
        if s.pages.any fun e => e.2.any fun r => r.st == .evicting then s
        else
          match s.victim with
          | none => s
          | some q => s.evictStart q
      else s.fetchPage x

/-- The ropes of placed parties that are parked on a page become ready; those of saved parties when they are restored (R284, R285). -/
def State.wakePage (s : State) (q : Nat) : State :=
  { s with parties := s.parties.map fun p =>
      match p.status with
      | .saved _ => p
      | _ => { p with ropes := p.ropes.map fun r => r.pageCame q } }

/-- PAGE_RESIDENT (R287, R288): every line has arrived; a host may have granted reading alone. -/
def execPageResident (page : Nat) (readOnly : Bool) (s : State) : Out :=
  .next <|
    match s.page? page with
    | none => s
    | some r =>
      if r.st = .fetching then
        let r' := { r with st := .resident, writable := r.writable && !readOnly, used := s.accesses }
        ({ s with pages := SMap.set none s.pages page (some r'), accesses := s.accesses + 1 }).wakePage page
      else s

/-- EVICTION (R289): of a page in state EVICTING, or of one that is unwanted and may go. -/
def execEviction (page : Nat) (s : State) : Out :=
  .next <|
    match s.page? page with
    | none => s
    | some r =>
      if r.st = .evicting then (s.evictEnd page).completeInvals
      else if r.unwanted && s.evictable page r then ((s.evictStart page).evictEnd page).completeInvals
      else s

/-- PAGE_LOST (R286): a fetch fails. -/
def execPageLost (page : Nat) (s : State) : Out :=
  .next (if (s.page? page).any fun r => r.st == .fetching then s.losePage page else s)

/-- PAGE_REQUEST_RESPONSE (R288): after Success the translation is retried and the fetch goes on; after any other response, or without
a translation then, the page is lost. -/
def execPageRequestResponse (page : Nat) (success : Bool) (s : State) : Out :=
  .next (if hostPage page && (s.page? page).any (fun r => r.st == .fetching) && !success then s.losePage page else s)

/-- WRITE_PERMISSION_UPGRADE (R288): the answer to a request to upgrade a resident host page; the ropes parked on it replay. -/
def execWritePermissionUpgrade (page : Nat) (granted : Bool) (s : State) : Out :=
  .next <|
    match s.page? page with
    | none => s
    | some r =>
      if r.st = .resident ∧ r.upgrade = true then
        { s with pages := SMap.set none s.pages page (some { r with upgrade := false, writable := r.writable || granted }) }.wakePage page
      else s

/-- ATS_INVALIDATE_REQUEST (R288): the resident host pages of a range are to be evicted; the completion follows their dirty lines. -/
def execAtsInvalidateRequest (lo hi : Nat) (s : State) : Out :=
  .next <|
    let hit := (s.pages.filter fun e => hostPage e.1 && e.2.any (fun r => r.st == .resident || r.st == .evicting)
      && decide (e.1 * 2 ^ 21 < hi) && decide (lo < (e.1 + 1) * 2 ^ 21)).map Prod.fst
    let s := hit.foldl (fun (s : State) q =>
      match s.page? q with
      | none => s
      | some r =>
        let s := { s with pages := SMap.set none s.pages q (some { r with unwanted := true }) }
        if s.evictable q r then s.evictStart q else s) s
    { s with invals := s.invals ++ [(lo, hi)] }.completeInvals

end Sys2Proof.Machine
end

