-- ==== Sys2Proof/Machine/Grants.lean ====
section
/-!
DEFINITION. What firmware does with memory (R47, R78, R317): grants, the capabilities that it makes, its writes, and the areas of HBM
that it holds for itself.
-/
namespace Sys2Proof.Machine

/-! ### Grants (R314, R317) -/

/-- How far the ranges of a list cover the addresses from `a` on without a gap. -/
def coverEnd (l : List (Nat × Nat)) : Nat → Nat → Nat
  | 0, a => a
  | n + 1, a =>
    match l.find? fun x => decide (x.1 ≤ a) && decide (a < x.2) with
    | none => a
    | some x => coverEnd l n x.2

/-- Whether a whole range has been granted to a colour (R317). -/
def State.granted (s : State) (colour base len : Nat) : Bool :=
  let l := (s.grants.filter fun g => g.colour == colour).map fun g => (g.base, g.base + g.len)
  decide (0 < len) && decide (base + len ≤ coverEnd l l.length base)

/-- Whether a range lies in HBM. -/
def inHbm (base len : Nat) : Bool := decide (base + len ≤ 0x00C000000000)

/-- Whether a range has been granted and lies in HBM: a place where firmware may write a capability (R317). -/
def State.grantedHbm (s : State) (colour base len : Nat) : Bool := inHbm base len && s.granted colour base len

/-- Whether a colour is LIVE (R202). -/
def State.live (s : State) (colour : Nat) : Bool := SMap.get .free s.colours colour == .live

/-! ### Capabilities that firmware makes (R317, R397) -/

/-- Whether a pool region lets a colour have these permissions over a range: admitted, and neither ST nor ATOM over a VERSIONED
region (R397). -/
def State.poolAdmits (s : State) (colour base len perms : Nat) : Bool :=
  s.regions.all fun e => e.2.all fun r =>
    !(decide (base < r.base + r.len) && decide (r.base < base + len)) ||
      (r.colours.elem colour && !(r.versioned && Nat.land perms (pST + pATOM) != 0))

/-- A capability of a colour over a range, when that range is granted; GLOBAL is set (R317). -/
def State.makeCap (s : State) (colour base len perms : Nat) : Option Quad :=
  if base < 2 ^ 48 ∧ len < 2 ^ 40 ∧ perms < 2 ^ 12 ∧ s.granted colour base len = true ∧ s.poolAdmits colour base len perms = true then
    some (capMake base len (Nat.lor perms pGLOBAL) colour 0)
  else none

/-- The capability that a 16-byte list entry asks for (R317). -/
def State.listCap (s : State) (colour v : Nat) : Option Quad :=
  if fieldOf v 48 16 = 0 ∧ fieldOf v 116 12 = 0 then s.makeCap colour (fieldOf v 0 48) (fieldOf v 64 40) (fieldOf v 104 12) else none

/-- The capabilities of a list of `n` entries at an address (R317, R322): none where one of them, or the list itself, is refused. -/
def State.listCaps (s : State) (colour addr n : Nat) : Option (List Quad) :=
  if n = 0 then some []
  else if s.granted colour addr (16 * n) then (List.range n).mapM fun i => s.listCap colour (s.num (addr + 16 * i) 16)
  else none

/-! ### Writes of firmware -/

/-- Firmware writes a capability with its tag; a capability that the running pass matches is written untagged (R207). -/
def State.devCap (s : State) (a : Nat) (q : Quad) (tag : Bool) : State :=
  (s.fwStore a (leBytes 16 q.toNat)).setTagAt a (s.tagFor q tag)

/-! ### Areas that firmware holds (log 8) -/

/-- Bytes of a text's area, in whole pages. -/
def roundPage (n : Nat) : Nat := (n + 4095) / 4096 * 4096

/-- Where a rope record's stride stands (R363). -/
def saveStride (regs : Nat) : Nat := (512 + 129 * regs + 255) / 256 * 256

/-- Bytes of a party's save area, with as many stash entries as it has pages (R363). -/
def saveSize (ropes regs scratch : Nat) : Nat :=
  (0x680 + 32 * (scratch / 4096) + 255) / 256 * 256 + ropes * saveStride regs

/-- Bytes of a party's control stacks, backing and save area (R78, R136, R360). -/
def partyArea (ropes regs scratch units : Nat) : Nat := ropes * 4096 * units + scratch + roundPage (saveSize ropes regs scratch)

/-- The areas that an object's texts and constants take. -/
def ObjRec.areas (o : ObjRec) : List (Nat × Nat) :=
  (o.native ++ o.cached.toList).map (fun t => (t.at', t.at' + roundPage t.size))
    ++ o.data.toList.map fun d => (d.1, d.1 + roundPage d.2)

/-- The area that a party takes. -/
def Party.area (p : Party) : Nat × Nat :=
  (p.cstackAt, p.cstackAt + partyArea p.ropes.length p.regs p.scratchSize ((p.capacity - 2) / 256))

/-- Every area in use; a running launch keeps the text that it runs. -/
def State.areas (s : State) : List (Nat × Nat) :=
  s.objects.flatMap ObjRec.areas ++ s.parties.map Party.area
    ++ s.launches.map fun (x : Launch) => (capBase x.code, capBase x.code + roundPage (capLen x.code))

/-- The HBM that firmware gives to no tenant: its own areas with the handle table and the copy-on-write reserve, and the residency frames
of each stack (R22, R280, R282, log 8). -/
def State.setAside (s : State) : List (Nat × Nat) :=
  (s.handleAt - 4096 * s.cowFrames, 0x00C000000000)
    :: (List.range 12).map fun k => ((k + 1) * 2 ^ 36 - s.resFrames * 2 ^ 21, (k + 1) * 2 ^ 36)

/-- Whether a range meets HBM that firmware keeps. -/
def State.meetsAside (s : State) (base len : Nat) : Bool :=
  s.setAside.any fun x => decide (x.1 < x.2) && decide (base < x.2) && decide (x.1 < base + len)

/-- The end of firmware's own areas: below the frames of the last stack. -/
def State.heldEnd (s : State) : Nat := 0x00C000000000 - s.resFrames * 2 ^ 21

/-- The lowest place for `n` more bytes of firmware-held HBM. -/
def State.allot (s : State) (n : Nat) : Option Nat :=
  let l := s.areas
  let free (c : Nat) : Bool :=
    decide (s.heldAt ≤ c) && decide (c + max n 1 ≤ s.heldEnd) && l.all fun x => decide (c + max n 1 ≤ x.1) || decide (x.2 ≤ c)
  ((s.heldAt :: l.map Prod.snd).filter free).foldl (fun (b : Option Nat) c => match b with
    | none => some c
    | some y => some (min y c)) none

end Sys2Proof.Machine
end

