-- ==== Sys2Proof/Machine/Palow.lean ====
section
/-!
DEFINITION. Palow text and its translation (R41 to R45): each instruction becomes the native instruction with the same fields; the
translator adds block-skip words and nothing else (log 13).
-/
namespace Sys2Proof

open Machine

/-- An instruction of Palow text: its first word's number in the section, the native bits with code offsets in Palow words, the native
length in bytes. -/
structure PalowInstr where
  at' : Nat
  bits : Nat
  bytes : Nat
deriving DecidableEq, Repr

/-- The native length of a major, live or retired (R35, R37). -/
def nativeLen (opc : Nat) : Nat := if liveLen opc = 0 then retiredLen opc else liveLen opc

/-- LEN of a length in bytes. -/
def lenCode (bytes : Nat) : Nat := (bytes - 4) / 4

/-- Whether a major's card has code offsets: RCV in EXT, TGT in IMM32 (R85, R86, R87, R88). -/
def hasRcv (opc : Nat) : Bool := decide (opc = 0x02) || decide (opc = 0x03) || decide (opc = 0x04)
def hasTgt (opc : Nat) : Bool := decide (opc = 0x02) || decide (opc = 0x03) || decide (opc = 0x05)

/-- The extension word with its code offsets replaced by some that every limit of R85 lets pass: in Palow text they count words, and
translation forms the native ones (R43). -/
def plainExt (opc e : Nat) : Nat :=
  let rcv := if hasRcv opc then (if fieldOf e 10 22 = 0 then 0 else 4) else fieldOf e 10 22
  let tgt := if hasTgt opc then 0 else fieldOf e 32 32
  fieldOf e 0 10 + rcv * 2 ^ 10 + tgt * 2 ^ 32

/-- What a native word decodes to, its code offsets replaced (R33 step 4, R42). -/
def palowDecode (bits : Nat) : Decoded :=
  decodeRaw (Raw.ofBits (bits % 2 ^ 64 + plainExt (fieldOf bits 2 8) (bits / 2 ^ 64) * 2 ^ 64))

/-- Reads one instruction of Palow text from its first word and its extension word, if it has one (R41, R42). An error names the
offending word: the extension word, where one that is zero but for a code offset would do (log 13). -/
def palowOne (at' w : Nat) (ext : Option Nat) : Except Nat PalowInstr :=
  let n := nativeLen (fieldOf w 2 8)
  let bits (e : Nat) : Nat := w - w % 4 + lenCode n + e * 2 ^ 64
  let e := ext.getD 0
  if n = 0 ∨ ext.isSome ≠ decide (8 < n) ∨ fieldOf w 38 4 ≠ 0 then .error at'
  else if fieldOf e 8 2 ≠ 0 ∨ (n = 12 ∧ 2 ^ 32 ≤ e) then .error (at' + 1)
  else
    match palowDecode (bits e), palowDecode (bits (if hasRcv (fieldOf w 2 8) then 4 * 2 ^ 10 else 0)) with
    | .ok _ b, _ => .ok ⟨at', bits e, b⟩
    | .retired b, _ => .ok ⟨at', bits e, b⟩
    | _, .ok _ _ => .error (at' + 1)
    | _, _ => .error at'

/-- Reads Palow text; an error names the offending word. -/
def palowParse (n : Nat) : List Nat → Except Nat (List PalowInstr)
  | [] => .ok []
  | w :: t =>
    if w % 4 = 0 then
      match palowOne n w none, palowParse (n + 1) t with
      | .ok i, .ok l => .ok (i :: l)
      | .error e, _ => .error e
      | _, e => e
    else
      match t with
      | [] => .error n
      | e :: t =>
        if w % 4 = 1 then
          match palowOne n w (some e), palowParse (n + 2) t with
          | .ok i, .ok l => .ok (i :: l)
          | .error e, _ => .error e
          | _, r => r
        else .error n

/-- Where the instructions lie after padding (R32): an entry begins a fetch block, and no instruction crosses one. -/
def palowLayout (entries : List Nat) (pos : Nat) : List PalowInstr → List (PalowInstr × Nat)
  | [] => []
  | i :: t =>
    let p := if entries.elem i.at' then (pos + 31) / 32 * 32 else pos
    let p := if 32 < p % 32 + i.bytes then (p + 31) / 32 * 32 else p
    (i, p) :: palowLayout entries (p + i.bytes) t

/-- Whether a signed number fits `n` bits. -/
def fitsSigned (n : Nat) (v : Int) : Bool := decide (-(2 ^ (n - 1) : Int) ≤ v) && decide (v < 2 ^ (n - 1))

/-- A code offset in Palow words as one in native bytes (R43): none where it lands on no first word, and none where the native offset
does not fit its field of `n` bits, for which the spec gives no result and the model refuses the load (log 103). -/
def palowTarget (l : List (PalowInstr × Nat)) (i : PalowInstr) (pos n : Nat) (off : Int) : Option Int :=
  match l.find? fun x => ((x.1.at' : Nat) : Int) == (i.at' : Int) + off with
  | none => none
  | some x => let v : Int := (x.2 : Int) - pos; if fitsSigned n v then some v else none

/-- TGT of a laid-out instruction in native bytes. -/
def palowTgt (l : List (PalowInstr × Nat)) (x : PalowInstr × Nat) : Option (BitVec 32) :=
  (palowTarget l x.1 x.2 32 (BitVec.ofNat 32 (fieldOf x.1.bits 96 32)).toInt).map (BitVec.ofInt 32)

/-- RCV of a laid-out instruction in native bytes: zero stands for no point and stays (R85). -/
def palowRcv (l : List (PalowInstr × Nat)) (x : PalowInstr × Nat) : Option (BitVec 22) :=
  let rcv := BitVec.ofNat 22 (fieldOf x.1.bits 74 22)
  if rcv = 0 then some 0 else (palowTarget l x.1 x.2 22 rcv.toInt).map (BitVec.ofInt 22)

/-- The native bits of a laid-out instruction, its code offsets recomputed. -/
def palowNative (l : List (PalowInstr × Nat)) (x : PalowInstr × Nat) : Option Nat :=
  match palowDecode x.1.bits with
  | .ok (.bra g _ _) _ => (palowTgt l x).bind fun t => (palowRcv l x).map fun r => encodeBits (.bra g t r)
  | .ok (.brc g _ _) _ => (palowTgt l x).bind fun t => (palowRcv l x).map fun r => encodeBits (.brc g t r)
  | .ok (.brx g a _) _ => (palowRcv l x).map fun r => encodeBits (.brx g a r)
  | .ok (.call g d _) _ => (palowTgt l x).map fun t => encodeBits (.call g d t)
  | _ => some x.1.bits

/-- The words of some laid-out instructions from a position on, block-skip words between them (R32). -/
def palowText (l : List (PalowInstr × Nat)) (pos : Nat) : List (PalowInstr × Nat) → Except Nat (List Byte)
  | [] => .ok []
  | x :: t =>
    match palowNative l x, palowText l (x.2 + x.1.bytes) t with
    | some v, .ok r => .ok (List.replicate (x.2 - pos) 0#8 ++ leBytes x.1.bytes v ++ r)
    | none, _ => .error (x.1.at' + 1)
    | _, e => e

/-- A translation: the native text and the entries' offsets in it. -/
structure Translation where
  text : List Byte
  offsets : List Nat
deriving DecidableEq, Repr

/-- The 64-bit words of some bytes. -/
def words64 (b : List Byte) : List Nat := (List.range (b.length / 8)).map fun i => leNat ((b.drop (8 * i)).take 8)

/-- Translates a PALOW section with `n` entries (R42 to R45); an error gives the byte offset of the offending word in the section. -/
def palowTranslate (n : Nat) (sec : List Byte) : Except Nat Translation :=
  let w := words64 sec
  let table := w.take n
  let bad : Except Nat Translation := .error (8 * w.length)
  if sec.length % 8 ≠ 0 ∨ w.length < n then bad
  else
    match palowParse n (w.drop n) with
    | .error e => .error (8 * e)
    | .ok l =>
      let lay := palowLayout table 0 l
      let place (e : Nat) : Option Nat := (lay.find? fun x => x.1.at' == e).map Prod.snd
      match palowText lay 0 lay, table.mapM place with
      | .error e, _ => .error (8 * e)
      | _, none => .error (8 * (table.takeWhile fun e => (place e).isSome).length)
      | .ok t, some o => .ok ⟨t, o⟩

end Sys2Proof
end

