-- ==== Sys2Proof/Machine/Objects.lean ====
section
/-!
DEFINITION. Falcrest objects (R46 to R50, R323, R328): the checks of the loader, and the choice of code at a launch.
-/
namespace Sys2Proof.Machine

/-! ### Sections (R46) -/

/-- An entry of the section table. -/
structure Section where
  kind : Nat
  flags : Nat
  off : Nat
  size : Nat
  key : Nat
deriving DecidableEq, Repr

/-- Reads an entry of the section table from 32 bytes. -/
def Section.ofBytes (b : List Byte) : Section := ⟨numAt b 0 4, numAt b 4 4, numAt b 8 8, numAt b 0x10 8, numAt b 0x18 8⟩

/-- The bytes of a section. -/
def Section.of (x : Section) (obj : List Byte) : List Byte := (obj.drop x.off).take x.size

/-- The sections of an object. -/
def sectionsOf (obj : List Byte) : List Section :=
  let t := numAt obj 8 8
  (List.range (numAt obj 6 2)).map fun i => Section.ofBytes ((obj.drop (t + 32 * i)).take 32)

/-- The sections of one type. -/
def kindOf (l : List Section) (k : Nat) : List Section := l.filter fun x => x.kind == k

/-- Whether no two elements of a list are related. -/
def pairwise {α : Type} (bad : α → α → Bool) : List α → Bool
  | [] => true
  | x :: t => (t.all fun y => !(bad x y)) && pairwise bad t

/-- Whether an object's header keeps R46. -/
def objHeaderOk (b : List Byte) : Bool :=
  let n := numAt b 6 2
  let t := numAt b 8 8
  decide (64 ≤ b.length) && b.take 4 == [0x46#8, 0x43#8, 0x4F#8, 0x42#8] && numAt b 4 2 == 4 && decide (1 ≤ n) && decide (n ≤ 1024)
    && t % 8 == 0 && decide (t + 32 * n ≤ b.length) && decide (numAt b 0x10 4 ≤ 1) && ((b.drop 0x14).take 44).all (· == 0#8)

/-- Whether the section table keeps R46, but for what the sections hold. -/
def sectionsOk (b : List Byte) : Bool :=
  let l := sectionsOf b
  let count (k : Nat) : Nat := (kindOf l k).length
  (l.all fun x => decide (1 ≤ x.kind) && decide (x.kind ≤ 6) && x.flags == 0 && decide (x.off + x.size ≤ b.length)
      && (x.kind == 2 || x.key == 0) && (decide (2 < x.kind) || x.off % 32 == 0))
    && decide (count 1 ≤ 1) && count 3 == 1 && decide (count 4 ≤ 1) && decide (count 5 ≤ 1) && count 6 == numAt b 0x10 4 % 2
    && pairwise (fun (x y : Section) => decide (x.off < y.off + y.size) && decide (y.off < x.off + x.size)) l
    && pairwise (fun (x y : Section) => x.key == y.key) (kindOf l 2)
    && (kindOf l 5).all fun x => decide (x.size ≤ 2 ^ 32)

/-! ### The LAUNCH section (R323) -/

/-- Whether a list of numbers names none twice. -/
def distinct (l : List Nat) : Bool := pairwise (fun x y => x == y) l

/-- The member lists of an entry's gangs, if they keep R21 and R238. -/
def gangsOf (b : List Byte) (off n ropes : Nat) : Option (List (List Nat)) :=
  let gang (i : Nat) : List Byte := (b.drop (off + 8 * i)).take 8
  let l := (List.range n).map fun i => ((List.range (min 6 (numAt (gang i) 0 1))).map fun j => numAt (gang i) (1 + j) 1)
  if (List.range n).all (fun i => decide (2 ≤ numAt (gang i) 0 1) && decide (numAt (gang i) 0 1 ≤ 6) && numAt (gang i) 7 1 == 0)
      && l.flatten.all (fun k => decide (k < ropes)) && distinct l.flatten then some l
  else none

/-- The team table of an entry, if it keeps R21 and R148; of two pairs for one team the last stands (log 116). -/
def teamsOf (b : List Byte) (off n ropes : Nat) : Option (List (Nat × Word)) :=
  let l := (List.range n).map fun i => (numAt b (off + 8 * i) 4, numAt b (off + 8 * i + 4) 4)
  let table : SMap Nat := l.foldl (fun m x => SMap.set 0 m x.1 x.2) []
  if l.all (fun x => decide (x.1 < 256) && decide (x.2 < 2 ^ ropes))
      && (List.range ropes).all (fun k => decide ((table.filter fun x => bitOf x.2 k).length ≤ 4)) then
    some (table.map fun x => (x.1, BitVec.ofNat 32 x.2))
  else none

/-- The cairns of an entry, if they keep R21 and lie in the allotment. -/
def cairnsOf (b : List Byte) (off n scratch : Nat) : Option (List (Nat × Nat)) :=
  let l := (List.range n).map fun i => (numAt b (off + 4 * i) 1, numAt b (off + 4 * i + 1) 3)
  if l.all fun x => decide (8 * x.1 + 8 ≤ scratch) && decide (1 ≤ x.2) then some l else none

/-- Entry `i` of a LAUNCH section, if it keeps R323; `cards` is the number of route cards. -/
def entryRecOf (b : List Byte) (cards i : Nat) : Option EntryRec :=
  let e := (b.drop (16 + 64 * i)).take 64
  let ropes := numAt e 0 1
  let units := numAt e 1 1
  let regs := numAt e 2 2
  let scratch := numAt e 4 4
  let nt := numAt e 8 2
  let ng := numAt e 0x0A 2
  let nc := numAt e 0x0C 2
  let route := numAt e 0x0E 2
  let tof := numAt e 0x10 4
  let go := numAt e 0x14 4
  let co := numAt e 0x18 4
  let name := numAt e 0x1C 4
  let ok := decide (1 ≤ ropes) && decide (ropes ≤ 32) && decide (1 ≤ units) && decide (units ≤ 16) && decide (1 ≤ regs)
    && decide (regs ≤ 256) && decide (scratch ≤ 2 ^ 20) && scratch % 4096 == 0 && decide (nt ≤ 256) && decide (ng ≤ 16)
    && decide (nc ≤ 256) && (route == 0xFFFF || decide (route < cards)) && decide (tof + 8 * nt ≤ b.length)
    && decide (go + 8 * ng ≤ b.length) && decide (co + 4 * nc ≤ b.length) && (b.drop name).any (· == 0#8)
    && (e.drop 0x20).all (· == 0#8)
  if ok then
    match teamsOf b tof nt ropes, gangsOf b go ng ropes, cairnsOf b co nc scratch with
    | some t, some g, some c => some ⟨ropes, units, (regs + 7) / 8 * 8, scratch, route, t, g, c⟩
    | _, _, _ => none
  else none

/-- The entries of a LAUNCH section, if it keeps R323. -/
def entriesOf (b : List Byte) (cards : Nat) : Option (List EntryRec) :=
  let n := numAt b 0 2
  if decide (1 ≤ n) && decide (n ≤ 4096) && decide (16 + 64 * n ≤ b.length) && ((b.drop 2).take 14).all (· == 0#8) then
    (List.range n).mapM (entryRecOf b cards)
  else none

/-! ### Placement tables, route cards (R328, R46) -/

/-- The placement lists of `n` entries from an offset of a NATIVE section, if they keep R328. -/
def placesOf (b : List Byte) : Nat → Nat → Option (List (List Nat))
  | 0, _ => some []
  | n + 1, off =>
    let c := numAt b off 4
    let z := (4 + 2 * c + 7) / 8 * 8
    let l := (List.range (min c 65535)).map fun i => numAt b (off + 4 + 2 * i) 2
    if c ≤ 65535 ∧ off + z ≤ b.length ∧ (l.all fun x => decide (x < 208)) = true
        ∧ ((b.drop (off + 4 + 2 * c)).take (z - 4 - 2 * c)).all (· == 0#8) = true then
      (placesOf b n (off + z)).map fun t => l :: t
    else none

/-- The cards of a ROUTE section, one after another (R46); `fuel` bounds their number. -/
def routeCards (b : List Byte) : Nat → Option (List (List Byte))
  | 0 => if b = [] then some [] else none
  | fuel + 1 =>
    if b = [] then some []
    else
      let n := hdrBytes b
      let c := b.take n
      if decide (0x20 ≤ b.length) && headerOk b && decide (n ≤ b.length) && (cardOf 0 0 c).isSome then
        (routeCards (b.drop n) fuel).map fun t => c :: t
      else none

/-! ### The loader -/

/-- What an object holds, before firmware has placed it in HBM: key, bytes, offsets and places of each native variant. -/
structure Parsed where
  entries : List EntryRec
  native : List (Nat × List Byte × List Nat × List (List Nat))
  palow : Option (List Byte)
  data : Option (List Byte)
  cards : List (List Byte)

/-- A native section with `n` entries: its offset table and placement table (R323, R328). -/
def nativeOf (n : Nat) (x : Section) (b : List Byte) : Option (Nat × List Byte × List Nat × List (List Nat)) :=
  if 8 * n ≤ b.length then
    (placesOf b n (8 * n)).map fun p => (x.key, b, (List.range n).map fun i => numAt b (8 * i) 8, p)
  else none

/-- The parts of an object, or none for LOAD_BAD_OBJECT (R46). -/
def parseObject (b : List Byte) : Option Parsed :=
  if objHeaderOk b && sectionsOk b then
    let l := sectionsOf b
    let one (k : Nat) : Option (List Byte) := (kindOf l k).head?.map fun x => x.of b
    match (match one 4 with | none => some [] | some r => routeCards r (r.length + 1)) with
    | none => none
    | some cards =>
      match (one 3).bind fun x => entriesOf x cards.length with
      | none => none
      | some es =>
        match (kindOf l 2).mapM fun x => nativeOf es.length x (x.of b) with
        | none => none
        | some ns => some ⟨es, ns, one 1, one 5, cards⟩
  else none

/-- The object with the bytes of its SIGNATURES section counted as zero (R49). -/
def digestForm (b : List Byte) : List Byte :=
  match (kindOf (sectionsOf b) 6).head? with
  | none => b
  | some x => b.take x.off ++ List.replicate x.size 0#8 ++ b.drop (x.off + x.size)

/-- The signatures of an object. -/
def signatureOf (b : List Byte) : List Byte := ((kindOf (sectionsOf b) 6).head?.map fun x => x.of b).getD []

/-- Whether a SIGNATURES section has the layout of R49. -/
def signatureFits (sig : List Byte) : Bool :=
  decide (132 ≤ sig.length) && sig.length == 132 + leNat ((sig.drop 128).take 4).reverse

/-- The R50 code of an object for a queue's colour and load policy, or its parts and its Palow translation. -/
def State.judge (s : State) (colour : Nat) (signedOnly : Bool) (b : List Byte) : Nat × Nat ⊕ Parsed :=
  match parseObject b with
  | none => .inl (2, 0)
  | some p =>
    let signed := bitOf (numAt b 0x10 4) 0
    let keys := SMap.get [] s.keys colour
    if signedOnly && !signed then .inl (5, 0)
    else if signed && !(signatureFits (signatureOf b) && keys != [] && Crypto.signaturesHold keys (signatureOf b) (digestForm b)) then .inl (4, 0)
    else
      match p.palow with
      | none => if p.native.any fun x => x.1 == s.enmap.sig then .inr p else .inl (1, 0)
      | some t =>
        match palowTranslate p.entries.length t with
        | .error e => .inl (3, e)
        | .ok _ => .inr p

/-- The lowest handle from 1 on that is free; objects and graphs share the numbers (R318). -/
def State.freeHandle (s : State) : Nat :=
  let used := s.objects.map ObjRec.handle ++ s.graphs.map GraphRec.handle
  ((List.range (used.length + 1)).map (· + 1)).find? (fun h => !(used.elem h)) |>.getD 0

/-- Firmware places some bytes in an area of its own: where they lie (log 8). -/
def State.place (s : State) (b : List Byte) : Option (State × Nat) := (s.allot b.length).map fun a => (s.fwStore a b, a)

/-- An object with no text yet. -/
def ObjRec.start (handle colour : Nat) (p : Parsed) : ObjRec := ⟨handle, colour, p.entries, [], p.palow, none, none, p.cards⟩

/-- Replaces the object with the same handle. -/
def State.setObject (s : State) (o : ObjRec) : State :=
  { s with objects := s.objects.map fun x => if x.handle = o.handle then o else x }

/-- Installs an object: its native texts and the copy of its constants (R22, R318); the state and its handle. -/
def State.installObject (s : State) (colour : Nat) (p : Parsed) : Option (State × Nat) :=
  let h := s.freeHandle
  let s0 := { s with objects := s.objects ++ [ObjRec.start h colour p] }
  let texts := p.native.foldl (fun (x : Option (State × ObjRec)) n => x.bind fun x =>
    (x.1.place n.2.1).map fun y =>
      let o := { x.2 with native := x.2.native ++ [⟨n.1, y.2, n.2.1.length, n.2.2.1, n.2.2.2⟩] }
      (y.1.setObject o, o)) (some (s0, ObjRec.start h colour p))
  texts.bind fun x =>
    match p.data with
    | none => some (x.1, h)
    | some d => (x.1.place d).map fun y => (y.1.setObject { x.2 with data := some (y.2, d.length) }, h)

/-! ### Code selection (R48) -/

/-- The native variant whose key is the current signature and whose placed cores are all enabled. -/
def State.variant (s : State) (o : ObjRec) : Option CodeText :=
  o.native.find? fun t => t.key == s.enmap.sig && t.place.flatten.all fun n => s.enmap.cores.testBit n

/-- The translation of an object's Palow text for the current signature, produced if none is cached; the state and the text. -/
def State.translation (s : State) (o : ObjRec) : Option (State × CodeText) :=
  match o.cached with
  | some t => if t.key = s.enmap.sig then some (s, t) else make
  | none => make
where
  /-- Produces and caches a translation. -/
  make : Option (State × CodeText) :=
    match o.palow with
    | none => none
    | some p =>
      match palowTranslate o.entries.length p with
      | .error _ => none
      | .ok x =>
        let s := { s with objects := s.objects.map fun (y : ObjRec) => if y.handle = o.handle then { y with cached := none } else y }
        match s.place x.text with
        | none => none
        | some y =>
          let t : CodeText := ⟨s.enmap.sig, y.2, x.text.length, x.offsets, o.entries.map fun _ => []⟩
          some (y.1.setObject { o with cached := some t }, t)

/-- The code of a launch, or none for LOAD_NO_VARIANT (R48). -/
def State.selectCode (s : State) (o : ObjRec) : Option (State × CodeText) :=
  match s.variant o with
  | some t => some (s, t)
  | none => s.translation o

/-- Whether a launch would need a translation for which firmware finds no room: it waits (log 8). -/
def State.noCodeRoom (s : State) (o : ObjRec) : Bool := (s.selectCode o).isNone && o.palow.isSome

/-- A loaded object by its handle, for a queue of a colour (R318). -/
def State.object? (s : State) (colour handle : Nat) : Option ObjRec :=
  s.objects.find? fun o => o.handle == handle && o.colour == colour

end Sys2Proof.Machine
end

