-- ==== Sys2Proof/Machine/Queues.lean ====
section
/-!
DEFINITION. Queues, doorbells, slots, buckets (R311, R312, R316, R319 to R321) and the end of a command.
-/
namespace Sys2Proof.Machine

/-! ### Queue records -/

/-- Replaces a queue's record. -/
def State.setQueue (s : State) (q : Nat) (r : QueueRec) : State := { s with queues := SMap.set QueueRec.zero s.queues q r }

/-- A bucket's record (R320). -/
def State.bucket (s : State) (b : Nat) : Bucket := SMap.get Bucket.zero s.buckets b

/-- Whether a queue has a command in execution (R316). -/
def State.working (s : State) (q : Nat) : Bool := s.cmds.any fun c => c.queue == q

/-- STATE of a queue that is neither FREE nor LOST nor DRAINING: DRY with its bucket, ACTIVE with pending work or work in flight, else
IDLE (R319, R321). -/
def State.standing (s : State) (q : Nat) (r : QueueRec) : QueueSt :=
  if (s.bucket r.bucket).dry then .dry else if r.head ≠ r.tail ∨ s.working q = true then .active else .idle

/-- A queue's record with STATE as it now stands: only an ACTIVE queue keeps its slot, and one that becomes ACTIVE without a slot
becomes eligible (R319). -/
def State.refresh (s : State) (q : Nat) : State :=
  let r := s.queue q
  match r.st with
  | .free | .draining | .lost => s
  | _ =>
    let st := s.standing q r
    let fresh := st == .active && r.slot.isNone && r.st != .active
    let r' := { r with st := st, slot := if st = .active then r.slot else none, elig := if fresh then s.moments else r.elig }
    { s.setQueue q r' with moments := if fresh then s.moments + 1 else s.moments }

/-- Whether the queue may place parties and fire nodes: ACTIVE (R321, R339). -/
def State.placeable (s : State) (q : Nat) : Bool := (s.queue q).st == .active

/-- Whether a queue's partition is being drained, or the queue is lost (R339, R369). -/
def State.stopped (s : State) (q : Nat) : Bool :=
  match (s.queue q).st with
  | .draining | .lost | .free => true
  | .idle | .active | .dry => false

/-! ### The end of a command (R316) -/

/-- CMD_OK. -/
def stOK : Nat := 0x0100
/-- BAD_COMMAND. -/
def stBAD : Nat := 0x0103

/-- A record that goes to a queue's completion ring. -/
def State.postLater (s : State) (q : Nat) (x : Record) (k : Know) : State := { s with posts := s.posts ++ [⟨.queue q, x, k, []⟩] }

/-- A command of a queue has completed: its record, which releases what the command did, the watchdog timer at zero, STATE (R316, R339).
No row of R415 orders the command's accesses before those of the queue's later commands. -/
def State.cmdDone (s : State) (q tag : Nat) (x : Record) (k : Know) : State :=
  let s := s.postLater q { x with job := tag } k
  let r := s.queue q
  (s.setQueue q { r with timer := 0 }).refresh q

/-- A record's status and DETAIL, with nothing else. -/
def Record.of (status detail : Nat) : Record := ⟨status, 0, 0, 0, detail⟩

/-- A command in execution completes. -/
def State.cmdEnd (s : State) (c : Cmd) (x : Record) (k : Know) : State :=
  { s with cmds := s.cmds.filter fun y => !(y.queue == c.queue && y.seq == c.seq) }.cmdDone c.queue c.tag x k

/-- The command in execution with this place in its ring. -/
def State.cmd? (s : State) (q seq : Nat) : Option Cmd := s.cmds.find? fun c => c.queue == q && c.seq == seq

/-! ### Doorbells (R311, R312) -/

/-- A write that is ignored and counted in BAD_DOORBELL of base camp (R414). -/
def State.badDoorbell (s : State) : State := s.countError 4 8 1

/-- QUEUE_DOORBELL (R311, R312): a write of `size` bytes at an offset of BELLWIN; what the host has acquired is ordered before the
commands (R316, log 27). -/
def execQueueDoorbell (off size val : Nat) (s : State) : Out :=
  .next <|
    let q := off / 8
    let r := s.queue q
    if off % 8 ≠ 0 ∨ size ≠ 8 ∨ 65536 ≤ q ∨ r.st = .free ∨ r.st = .lost ∨ val < r.tail ∨ r.head + 2 ^ r.rsize < val then s.badDoorbell
    else (s.setQueue q { r with tail := val, know := r.know.join s.hostKnow }).refresh q

/-! ### Slots (R319) -/

/-- The eligible queue that is mapped next: PRIO 7 first, then the one that became eligible first. -/
def State.eligibleNext (s : State) : Option (Nat × QueueRec) :=
  (s.queues.filter fun e => e.2.st == .active && e.2.slot.isNone).foldl (fun (b : Option (Nat × QueueRec)) e =>
    match b with
    | none => some e
    | some y => if y.2.prio < e.2.prio ∨ (y.2.prio = e.2.prio ∧ e.2.elig < y.2.elig) then some e else b) none

/-- The mapped queue that gives up its slot: without a command in execution, the lowest PRIO, then the longest mapped. -/
def State.unmapNext (s : State) : Option (Nat × QueueRec) :=
  (s.queues.filter fun e => e.2.slot.isSome && !(s.working e.1)).foldl (fun (b : Option (Nat × QueueRec)) e =>
    match b with
    | none => some e
    | some y => if e.2.prio < y.2.prio ∨ (y.2.prio = e.2.prio ∧ e.2.mapped < y.2.mapped) then some e else b) none

/-- The lowest free slot. -/
def State.freeSlot (s : State) : Option Nat :=
  let used := s.queues.filterMap fun e => e.2.slot
  (List.range 2048).find? fun k => !(used.elem k)

/-- Maps a queue into a slot. -/
def State.mapQueue (s : State) (q k : Nat) : State :=
  { s.setQueue q { s.queue q with slot := some k, mapped := s.moments } with moments := s.moments + 1 }

/-- QUEUE_SLOT_MAPPING (R319): one eligible queue is mapped, another unmapped for it if no slot is free. -/
def execQueueSlotMapping (s : State) : Out :=
  .next <|
    match s.eligibleNext with
    | none => s
    | some (q, _) =>
      match s.freeSlot with
      | some k => s.mapQueue q k
      | none =>
        match s.unmapNext with
        | none => s
        | some (v, r) =>
          match r.slot with
          | none => s
          | some k =>
            let s := { s.setQueue v { r with slot := none, elig := s.moments } with moments := s.moments + 1 }
            s.mapQueue q k

/-! ### Buckets (R320, R321) -/

/-- Whether a queue draws on a bucket. -/
def State.drawsOn (s : State) (b q : Nat) : Bool :=
  let r := s.queue q
  r.bucket == b && r.st != .free

/-- The jobs that hold an engine now and draw on a bucket. -/
def State.engineJobs (s : State) (b : Nat) : List Nat :=
  (s.jobs.filter fun j => j.running && j.card && j.local' && (s.jobQueue j).any (s.drawsOn b)).map Job.id

/-- What a settlement debits, in eighths of a core-nanosecond: placed parties by their rope slots, every job that has held an engine since
the last one (R321). -/
def State.debit (s : State) (b : Nat) : Nat :=
  let held := s.parties.filter fun p => s.drawsOn b p.queue && (match p.status with
    | .saved _ => false
    | _ => true)
  let jobs := (s.engineJobs b).foldl (fun m i => NSet.set m i true) (s.bucket b).ran
  125 * (held.map fun p => p.ropes.length).foldl (· + ·) 0 + 1000 * jobs.length

/-- Asks for the save of every placed party of a bucket's queues (R321, R357). -/
def State.saveBucket (s : State) (b : Nat) : State :=
  { s with parties := s.parties.map fun p =>
      if s.drawsOn b p.queue ∧ p.status = .placed then { p with status := .saving .bucket } else p }

/-- Placement goes on for the launches of some queues: their wave is open again (R327, log 28). -/
def State.rewave (s : State) (f : Nat → Bool) : State :=
  { s with launches := s.launches.map fun x => if f x.queue ∧ x.wave = none then { x with wave := some [] } else x }

/-- STATE of every queue of a bucket anew; launches whose queue may place again do so. -/
def State.refreshBucket (s : State) (b : Nat) : State :=
  let s := (s.queues.map Prod.fst).foldl (fun (s : State) q => if s.drawsOn b q then s.refresh q else s) s
  s.rewave fun q => s.drawsOn b q && s.placeable q

/-- BUCKET_SETTLEMENT (R321): once per microsecond. -/
def execBucketSettlement (b : Nat) (s : State) : Out :=
  .next <|
    let x := s.bucket b
    if s.timer < x.since + 1000 ∨ 4096 ≤ b then s
    else
      let v : Int := x.level - s.debit b + 8 * x.rate
      let v := max (-(8 * (x.cap : Int))) (min (8 * (x.cap : Int)) v)
      let dry := decide (v ≤ 0) || (x.dry && decide (v < 8 * (x.resume : Int)))
      let y := { x with level := v, dry := dry, since := x.since + 1000, ran := [] }
      let s := { s with buckets := SMap.set Bucket.zero s.buckets b y }
      if dry && !x.dry then (s.refreshBucket b).saveBucket b
      else if x.dry && !dry then s.refreshBucket b else s

end Sys2Proof.Machine
end

