-- ==== Sys2Proof/Machine/Launches.lean ====
section
/-!
DEFINITION. Starting a launch (R322, R324, R326): the command's limits, the conditions in their order, frames, arguments, the first
continuation record.
-/
namespace Sys2Proof.Machine

/-! ### The payload (R322) -/

/-- The fields of a LAUNCH command or node. -/
structure LaunchReq where
  flags : Nat
  entry : Nat
  tag : Nat
  object : Nat
  parties : Nat
  fbase : Nat
  flen : Nat
  fstride : Nat
  args : Nat
  nargs : Nat
  fperms : Nat
  seed : Word
  drawkey : DWord
  resv : Nat
deriving DecidableEq, Repr

/-- The fields of 64 bytes. -/
def LaunchReq.of (b : List Byte) : LaunchReq :=
  ⟨numAt b 1 1, numAt b 2 2, numAt b 4 4, numAt b 8 4, numAt b 0x0C 4, numAt b 0x10 8, numAt b 0x18 4, numAt b 0x1C 4, numAt b 0x20 8,
   numAt b 0x28 1, numAt b 0x2A 2, BitVec.ofNat 32 (numAt b 0x2C 4), BitVec.ofNat 64 (numAt b 0x30 8), numAt b 0x29 1 + numAt b 0x38 8⟩

/-- Whether the fields keep their limits (R322). -/
def LaunchReq.ok (r : LaunchReq) : Bool :=
  decide (r.flags < 4) && decide (1 ≤ r.parties) && decide (r.parties < 2 ^ 24) && decide (16 ≤ r.flen) && decide (r.flen ≤ 2 ^ 20)
    && decide (r.nargs ≤ 16) && decide (r.fperms < 2 ^ 12) && Nat.land r.fperms (pLD + pLDCAP) == pLD + pLDCAP && r.resv == 0
    && decide (16 * r.nargs ≤ r.flen) && (r.nargs == 0 || (r.fbase % 16 == 0 && r.fstride % 16 == 0))

/-- Where the frames begin: one when every party shares it (R322). -/
def LaunchReq.frames (r : LaunchReq) : List Nat :=
  (List.range (if r.fstride = 0 then 1 else r.parties)).map fun p => r.fbase + p * r.fstride

/-- Whether every frame lies in HBM granted to a colour (R317, R322). -/
def State.framesOk (s : State) (colour : Nat) (r : LaunchReq) : Bool := r.frames.all fun a => s.grantedHbm colour a r.flen

/-! ### Cores and records -/

/-- Whether a core may take parties: enabled, on a die that is not fenced (R327, R329). -/
def State.coreOk (s : State) (n : Nat) : Bool := s.enmap.cores.testBit n && !((s.die (dieOf n)).fenced)

/-- The cores of a queue's partition that may take parties, in ascending order. -/
def State.partition (s : State) (q : Nat) : List Nat := (List.range 208).filter fun n => (s.queue q).part.testBit n && s.coreOk n

/-- Whether a party of an entry can be placed at all, and its bound cores lie in PART (R324 step 3). -/
def State.placeableEntry (s : State) (q : Nat) (e : EntryRec) (place : List Nat) : Bool :=
  decide (e.ropes ≤ 64) && decide (e.ropes * (e.regs / 8) ≤ 256) && decide (e.scratch / 4096 ≤ 256) && s.partition q != []
    && place.all fun n => (s.queue q).part.testBit n

/-- The ids of the records in the table (R326). -/
def State.recordIds (s : State) : List Nat := s.launches.flatMap fun (x : Launch) => x.records.map ContRec.id

/-- The lowest free id, when the record table has room (R326). -/
def State.freeRecord (s : State) : Option Nat :=
  let used := s.recordIds
  if 65536 ≤ used.length then none else (List.range (used.length + 1)).find? fun i => !(used.elem i)

/-- A record of the parties [0, n) of an entry (R326). -/
def ContRec.mk' (id entry n : Nat) (f : FrameRule) (join : Option Nat) (held : Bool) (k : Know) : ContRec :=
  ⟨id, entry, 0, n, [], 0, f, join, held, k⟩

/-- The launch with this number. -/
def State.launch? (s : State) (id : Nat) : Option Launch := s.launches.find? fun x => x.id == id

/-- Replaces the launch with the same number. -/
def State.setLaunch (s : State) (x : Launch) : State :=
  { s with launches := s.launches.map fun y => if y.id = x.id then x else y }

/-! ### The start (R324) -/

/-- Writes the arguments into every frame (R322). -/
def State.writeArgs (s : State) (r : LaunchReq) (caps : List (Quad × Bool)) : State :=
  r.frames.foldl (fun (s : State) a =>
    ((List.range caps.length).zip caps).foldl (fun (s : State) x => s.devCap (a + 16 * x.1) x.2.1 x.2.2) s) s

/-- Step 5: the launch starts with its first record, which waits if the table is full. -/
def State.beginLaunch (s : State) (q : Nat) (by' : Starter) (r : LaunchReq) (o : ObjRec) (t : CodeText) (card : Option RouteCard)
    (caps : List (Quad × Bool)) (k : Know) : State :=
  let colour := (s.queue q).colour
  let y := (s.writeArgs r caps).publish s.fwAgent k
  let s := y.1
  let frame : FrameRule := .strided r.fbase r.flen r.fstride r.fperms
  let mk (id : Nat) : ContRec := ContRec.mk' id r.entry r.parties frame none false y.2
  let slot := s.freeRecord
  let x : Launch :=
    { id := s.launchCtr, queue := q, colour := colour, by' := by', object := o.handle, seed := r.seed, drawkey := r.drawkey
      reissue := bitOf r.flags 1, code := capMake t.at' t.size pEXEC colour 0, place := t.place, offsets := t.offsets
      records := slot.toList.map mk, first := if slot.isSome then none else some (mk 0), wave := some [], killed := 0, lost := 0
      dieLost := false, cut := 0, know := y.2 }
  let s := { s with launches := s.launches ++ [x], launchCtr := (s.launchCtr + 1) % 2 ^ 32 }
  match card with
  | none => s
  | some c => s.installCard c

/-- Steps 2 to 5 of R324 for an object and an entry that exist; a record where the launch does not start. -/
def State.launchSteps (s : State) (q : Nat) (by' : Starter) (r : LaunchReq) (o : ObjRec) (e : EntryRec) (caps : List (Quad × Bool))
    (k : Know) : State × Option Record :=
  match s.selectCode o with
  | none => (s, some (.of 0x0104 (2 ^ 32)))
  | some x =>
    if !(s.placeableEntry q e (x.2.place.getD r.entry [])) then (s, some (.of 0x0101 0))
    else
      let card := (o.cards[e.route]?).bind (cardOf s.launchCtr (s.queue q).colour)
      if card.any fun c => !(s.cardRoom c) then (s, some (.of 0x0109 0))
      else (x.1.beginLaunch q by' r o x.2 card caps k, none)

/-- Step 1 of R324 for a LAUNCH command: its object, entry and arguments, or none for BAD_COMMAND. -/
def State.launchOf (s : State) (colour : Nat) (r : LaunchReq) : Option (ObjRec × EntryRec × List Quad) :=
  match s.object? colour r.object with
  | none => none
  | some o =>
    match o.entries[r.entry]?, s.listCaps colour r.args r.nargs with
    | some e, some caps => if r.ok && s.framesOk colour r then some (o, e, caps) else none
    | _, _ => none

/-- Whether a LAUNCH command waits for room for a translation (log 8). -/
def State.launchHeld (s : State) (colour : Nat) (b : List Byte) : Bool :=
  (s.launchOf colour (LaunchReq.of b)).any fun x => s.noCodeRoom x.1

/-- A LAUNCH command (R324). -/
def State.startLaunch (s : State) (q : Nat) (by' : Starter) (b : List Byte) (k : Know) : State × Option Record :=
  let r := LaunchReq.of b
  match s.launchOf (s.queue q).colour r with
  | none => (s, some (.of stBAD 0))
  | some (o, e, caps) => s.launchSteps q by' r o e (caps.map fun c => (c, true)) k

/-- A LAUNCH node, whose memory was checked and whose capabilities were made at GRAPHLOAD (R333). -/
def State.startLaunchNode (s : State) (q : Nat) (by' : Starter) (b : List Byte) (caps : List (Quad × Bool)) (k : Know) :
    State × Option Record :=
  let r := LaunchReq.of b
  match s.object? (s.queue q).colour r.object with
  | none => (s, some (.of stBAD 0))
  | some o =>
    match o.entries[r.entry]? with
    | none => (s, some (.of stBAD 0))
    | some e => s.launchSteps q by' r o e caps k

end Sys2Proof.Machine
end

