-- ==== Sys2Proof/Machine/Placement.lean ====
section
/-!
DEFINITION. Placement of parties (R13, R71, R76, R80, R96, R135, R153, R185, R327, R328), the release of their resources, and the end of
a launch (R325).
-/
namespace Sys2Proof.Machine

/-! ### Room on a core (R70, R71, R94, R134, R152) -/

/-- Whether a party holds resources on a core. -/
def Party.on (p : Party) (core : Nat) : Bool :=
  p.core == core && (match p.status with
    | .saved _ => false
    | _ => true)

/-- What a party needs: rope slots, granules, scratch pages, barrier records. -/
structure Need where
  ropes : Nat
  granules : Nat
  pages : Nat
  bars : Nat
deriving DecidableEq, Repr

/-- What a party of an entry needs; one record is kept for its barrier 0. -/
def EntryRec.need (e : EntryRec) : Need := ⟨e.ropes, e.ropes * (e.regs / 8), e.scratch / 4096, 1⟩

/-- What a saved party needs: a record for each live barrier (R366). -/
def Party.need (p : Party) : Need := ⟨p.ropes.length, p.ropes.length * (p.regs / 8), p.scratchSize / 4096, p.bars.length⟩

/-- The parties on a core. -/
def State.onCore (s : State) (core : Nat) : List Party := s.parties.filter fun p => p.on core

/-- Whether a core has room for a party (R71). -/
def State.room (s : State) (core : Nat) (n : Need) : Bool :=
  let l := s.onCore core
  let sum (f : Party → Nat) : Nat := (l.map f).foldl (· + ·) 0
  decide (l.length < 16) && decide (sum (fun p => p.need.ropes) + n.ropes ≤ 64)
    && decide (sum (fun p => p.need.granules) + n.granules ≤ 256) && decide (sum (fun p => p.need.pages) + n.pages ≤ 256)
    && decide (s.barRecords core + n.bars ≤ 96)

/-- The lowest party slot of a core that is free. -/
def State.freePslot (s : State) (core : Nat) : Nat :=
  ((List.range 16).find? fun j => !((s.onCore core).any fun p => p.pslot == j)).getD 0

/-- The rope slots of a core that are free, lowest first. -/
def State.freeSlots (s : State) (core : Nat) : List Nat :=
  let used := (s.onCore core).flatMap fun p => p.ropes.map Rope.slot
  (List.range 64).filter fun j => !(used.elem j)

/-! ### A fresh party -/

/-- The initial LFSR value of a rope (R80). -/
def lfsrInit (seed : Word) (party rope : Nat) : Word :=
  let v := seed ^^^ BitVec.ofNat 32 ((party * 32 + rope) * 0x9E3779B9)
  if v = 0 then 1 else v

/-- The draw key of a rope (R185). -/
def drawKeyInit (key : DWord) (party rope : Nat) : DWord := key ^^^ BitVec.ofNat 64 ((party * 32 + rope) * 0xD1B54A32D192ED03)

/-- A rope before the launch's writes: poison everywhere, one side entry at a code pointer (R13, R76, R96). -/
def Rope.blank (pc : BitVec 48) (lfsr : Word) (key : DWord) (gang : Word) (agent age slot : Nat) (know : Know) : Rope :=
  { regs := [], qtag := [], unif := [], preds := [], flags := 0, fpst := 0, stack := [Entry.mk' .side true 0 pc 0xFFFFFFFF#32]
    lfsr := lfsr, dkey := key, dctr := 0, gangReg := gang, accValid := 0, accDirty := 0, accInfl := 0, trapvec := 0, tpc := 0
    tcause := 0, tmask := 0, tinfo := 0, hm := false, hdepth := 0, wptmiss := 0, lastWpt := none, ring := none, agent := agent
    rel := 0, know := know, fenced := [], seen := [], age := age, slot := slot, park := none, lostPages := [], farOut := 0
    farDropped := 0, fbuf := [], drawtWait := [], peerData := [], capt := none, ended := false }

/-- A capability written into a quad of every lane (R13). -/
def Rope.setAll (r : Rope) (reg : Nat) (q : Quad) (tag : Bool) : Rope :=
  (List.range 32).foldl (fun (r : Rope) l => r.setQuad l reg q tag) r

/-- The frame capability of party `i` of a record (R322, R326). -/
def FrameRule.cap (f : FrameRule) (colour i : Nat) : Quad × Bool :=
  match f with
  | .strided base len stride perms => (capMake (base + i * stride) len perms colour 0, true)
  | .captured q t => (q, t)

/-- The gang register of rope `k` (R21, R237). -/
def gangInit (gangs : List (List Nat)) (k : Nat) : Word :=
  match gangs.find? fun l => l.elem k with
  | none => 0
  | some l => gangWord l k

/-- The constants of an object as every lane's `c1` sees them (R22). -/
def ObjRec.dataCap (o : ObjRec) : Option Quad := o.data.map fun d => capMake d.1 d.2 (pLD + pGLOBAL) o.colour 0

/-- Rope `k` of a new party, with its agent number and age stamp (R72, R309). An entry offset that is no multiple of 4, for which the
spec gives no effect, loses its low two bits (log 110). -/
def State.newRope (s : State) (x : Launch) (r : ContRec) (e : EntryRec) (o : ObjRec) (core i k : Nat) (slots : List Nat) : State × Rope :=
  let a := s.newAgent (dieOf core) x.colour
  let t := a.1.stamp core
  let pc := codeAddr (BitVec.ofNat 64 (capBase x.code + x.offsets.getD r.entry 0))
  let rope := Rope.blank pc (lfsrInit x.seed i k) (drawKeyInit x.drawkey i k) (gangInit e.gangs k) a.2 t.2 (slots.getD k 0) r.know
  let f := r.frame.cap x.colour i
  let rope := rope.setAll 0 f.1 (s.tagFor f.1 f.2)
  let rope := match o.dataCap with
    | none => rope
    | some q => rope.setAll 4 q (s.tagFor q true)
  (t.1, rope)

/-- The ropes of a new party, in order. -/
def State.newRopes (s : State) (x : Launch) (r : ContRec) (e : EntryRec) (o : ObjRec) (core i : Nat) : State × List Rope :=
  (List.range e.ropes).foldl (fun (y : State × List Rope) k =>
    let z := y.1.newRope x r e o core i k (s.freeSlots core)
    (z.1, y.2 ++ [z.2])) (s, [])

/-- The cairns of an entry in fresh scratch (R21, R160); of two words for one cairn the last stands (log 117). -/
def Party.initCairns (p : Party) (l : List (Nat × Nat)) : Party :=
  l.foldl (fun (p : Party) c => p.setSbytes (8 * c.1) (leBytes 8 (Cairn.word ⟨c.2, 0, 0, 0⟩))) p

/-- Places party `i` of a record on a core, in one step (R71): none when firmware has no room for its areas (R360). -/
def State.placeParty (s : State) (x : Launch) (r : ContRec) (e : EntryRec) (o : ObjRec) (core i : Nat) : Option State :=
  (s.allot (partyArea e.ropes e.regs e.scratch e.cstack)).map fun at' =>
    let y := s.newRopes x r e o core i
    let p : Party :=
      { uid := s.partyCtr, launch := x.id, record := r.id, index := i, queue := x.queue, colour := x.colour, core := core
        pslot := s.freePslot core, regs := e.regs, scratchSize := e.scratch, capacity := 2 + 256 * e.cstack, status := .placed
        ropes := y.2, teams := e.teams.foldl (fun m t => SMap.set 0#32 m t.1 t.2) [], scratch := [], stag := [], spoison := []
        pages := [], backed := [], present := [], dirty := [], bars := [(0, some (BarRec.fresh true 0 e.ropes))], cairns := []
        ssync := [], code := x.code, codeTag := s.tagFor x.code true, frame := (r.frame.cap x.colour i).1, cstackAt := at'
        backingAt := at' + e.ropes * 4096 * e.cstack, saveAt := at' + e.ropes * 4096 * e.cstack + e.scratch, killed := false
        holds := [], replay := [] }
    { y.1 with parties := y.1.parties ++ [p.initCairns e.cairns], partyCtr := s.partyCtr + 1 }

/-! ### Who comes next (R326 to R328) -/

/-- The party of a record that is offered to a core, with the record once it is taken: bound parties that wait for the core first, then
those that wait unbound, then the range in order, parties bound elsewhere set aside (R328). -/
def ContRec.take (place : List Nat) (core : Nat) : Nat → ContRec → Option (Nat × ContRec)
  | 0, _ => none
  | n + 1, r =>
    let low (l : List Nat) : Option Nat := match l with
      | [] => none
      | a :: t => some (t.foldl min a)
    let waits := low (r.back.filter fun i => place[i]? == some core)
    let loose := low (r.back.filter fun i => place[i]? == none)
    match waits, loose with
    | some i, _ => some (i, { r with back := r.back.filter fun j => j != i })
    | none, some i => some (i, { r with back := r.back.filter fun j => j != i })
    | none, none =>
      if r.hi ≤ r.next then none
      else
        match place[r.next]? with
        | some c =>
          if c = core then some (r.next, { r with next := r.next + 1 })
          else ContRec.take place core n { r with next := r.next + 1, back := r.back ++ [r.next] }
        | none => some (r.next, { r with next := r.next + 1 })

/-- What a launch offers to a core: from the first record of its list that has a party for it (R326). -/
def Launch.offer (x : Launch) (core : Nat) : Option (ContRec × Nat) :=
  (x.records.filter fun r => !r.held).findSome? fun r =>
    let place := x.place.getD r.entry []
    (ContRec.take place core (place.length + 2) r).map fun y => (y.2, y.1)

/-- A launch with one of its records replaced. -/
def Launch.setRecord (x : Launch) (r : ContRec) : Launch := { x with records := x.records.map fun y => if y.id = r.id then r else y }

/-- Places what a launch offers to a core, if the core has room for it. -/
def State.placeOffer (s : State) (x : Launch) (core : Nat) : Option State :=
  match x.offer core, s.objects.find? fun o => o.handle == x.object with
  | some y, some o =>
    match o.entries[y.1.entry]? with
    | none => none
    | some e =>
      if s.room core e.need then
        (s.placeParty x y.1 e o core y.2).map fun s => s.setLaunch (x.setRecord { y.1 with live := y.1.live + 1 })
      else none
  | _, _ => none

/-! ### Saved parties first (R327, R357) -/

/-- Whether any page of a list is not RESIDENT. -/
def State.anyOut (s : State) (l : List Nat) : Bool := l.any fun q => !((s.page? q).any fun r => r.st == .resident)

/-- Whether a saved party is eligible for restore (R357). -/
def State.eligibleSaved (s : State) (p : Party) : Bool :=
  match p.status with
  | .saved .bucket => !((s.bucket (s.queue p.queue).bucket).dry)
  | .saved .park => !(s.anyOut (p.ropes.flatMap fun r => (r.park.map Park.pages).getD []))
  | .saved .barRecord => (s.partition p.queue).any fun n => decide (s.barRecords n < 96)
  | _ => false

/-- The core to which `.place` binds a party (R328). -/
def State.boundCore (s : State) (p : Party) : Option Nat :=
  (s.launch? p.launch).bind fun x => ((x.records.find? fun r => r.id == p.record).bind fun r => (x.place.getD r.entry [])[p.index]?)

/-- Whether a change that waits for a safe point keeps a queue's launches and restores from starting (R412). -/
def State.safeHolds (s : State) (q : Nat) : Bool :=
  match s.fw.safe with
  | none => false
  | some w => w.cores.any fun n => (s.queue q).part.testBit n

/-- Whether a saved party may be restored on a core now (R366). -/
def State.mayRestore (s : State) (p : Party) (core : Nat) : Bool :=
  s.eligibleSaved p && s.placeable p.queue && !(s.safeHolds p.queue) && (s.partition p.queue).elem core
    && (s.boundCore p).all (fun n => n == core) && s.room core p.need

/-- Whether a saved party waits that would go to a core before any party never placed. -/
def State.savedFor (s : State) (core : Nat) : Bool := s.parties.any fun p => s.mayRestore p core

/-! ### PARTY_PLACEMENT (R327) -/

/-- The launches in the order in which an offer goes to them: higher PRIO, then the one that started first. -/
def State.byPrio (s : State) : List Launch :=
  (List.range 8).flatMap fun i => s.launches.filter fun x => (s.queue x.queue).prio == 7 - i

/-- The launches that wait for a core. -/
def State.waiting (s : State) (core : Nat) : List Launch :=
  s.byPrio.filter fun x => !x.dieLost && s.placeable x.queue && (s.partition x.queue).elem core && (x.offer core).isSome

/-- A step of the refill: a core whose resources were released takes the first party that waits for it; once one does not fit the offer
lapses (R327). -/
def State.refill : Nat → State → Option State × State
  | 0, s => (none, s)
  | n + 1, s =>
    match s.offers with
    | [] => (none, s)
    | c :: t =>
      if s.savedFor c then (some s, s)
      else
        match (s.waiting c).head?.bind fun x => s.placeOffer x c with
        | some s' => (some s', s)
        | none => State.refill n { s with offers := t }

/-- One placement of a launch's first wave: the first core of the partition that has not yet taken a party in the round. -/
def State.waveCore (s : State) (x : Launch) (taken : List Nat) : Option (State × Nat) :=
  (s.partition x.queue).findSome? fun n =>
    if taken.elem n || s.savedFor n then none else (s.placeOffer x n).map fun s' => (s', n)

/-- A launch's next placement in its wave; none, with the wave over, when a round places nothing. -/
def State.waveStep (s : State) (x : Launch) : Option State × State :=
  let mark (s : State) (w : Option (List Nat)) : State :=
    { s with launches := s.launches.map fun (y : Launch) => if y.id = x.id then { y with wave := w } else y }
  match x.wave with
  | none => (none, s)
  | some taken =>
    match s.waveCore x taken with
    | some y => (some (mark y.1 (some (y.2 :: taken))), s)
    | none =>
      match (if taken = [] then none else s.waveCore x []) with
      | some y => (some (mark y.1 (some [y.2])), s)
      | none => (none, mark s none)

/-- The waves of some launches, in order, until one places. -/
def State.waves (s : State) : List Launch → State
  | [] => s
  | x :: t =>
    if s.placeable x.queue then
      match s.waveStep x with
      | (some s', _) => s'
      | (none, s') => s'.waves t
    else s.waves t

/-- PARTY_PLACEMENT (R327): one party is placed. -/
def execPartyPlacement (s : State) : Out :=
  .next <|
    match State.refill (s.offers.length + 1) s with
    | (some s', _) => s'
    | (none, s') => s'.waves s'.byPrio

/-! ### RESOURCE_RELEASE (R71) -/

/-- What an ended party's ropes release to its launch's completion (R325). -/
def Party.knows (p : Party) : Know := p.ropes.foldl (fun (k : Know) r => k.join (r.know.learn r.agent (r.rel + 1))) Know.none

/-- Whether an `mmf` partial of a party is on its way (R261). -/
def State.partsBy (s : State) (uid : Nat) : Bool :=
  (s.parts.any fun (x : FarPart) => x.uid == uid) || s.peerOut.any fun r => match r.src with
    | .part u _ => u == uid
    | _ => false

/-- Whether a party still has a job or a gang instruction in flight (R71, R349), an access or a partial that has not performed (R298,
R325), or a record of its own that waits to be posted, while its binding stands (R276). -/
def State.busyParty (s : State) (uid : Nat) : Bool :=
  (s.jobs.any fun j => j.uid? == some uid) || (s.gangs.any fun (g : Gang) => g.uid == uid) || s.partsBy uid || s.accessesOut uid
    || s.posts.any fun x => match x.dest with
      | .rope u _ => u == uid
      | .queue _ => false

/-- Takes a party out of the machine, and counts its end for its launch. -/
def State.dropParty (s : State) (p : Party) : State :=
  let offers := match p.status with
    | .saved _ => s.offers
    | _ => s.offers ++ [p.core]
  { s with
    parties := s.parties.filter fun q => q.uid != p.uid
    offers := offers
    launches := s.launches.map fun x =>
      if x.id = p.launch then
        { x with killed := x.killed + (if p.killed then 1 else 0), know := x.know.join p.knows }
      else x }

/-- RESOURCE_RELEASE (R71): a party whose ropes have ended and whose jobs have completed leaves its core. -/
def execResourceRelease (uid : Nat) (s : State) : Out :=
  .next <|
    match s.party? uid with
    | none => s
    | some p => if p.status = .ended ∧ s.busyParty uid = false then s.dropParty p else s

/-! ### LAUNCH_COMPLETE (R325) -/

/-- A node of a graph's run has ended its payload. -/
def State.nodeFin (s : State) (g node : Nat) (x : Record) (k : Know) : State :=
  { s with graphs := s.graphs.map fun y =>
      if y.handle = g then
        { y with run := y.run.map fun r =>
            { r with outs := SMap.set Know.none r.outs node k
                     running := r.running.map fun w => if w.1 = node then (node, .fin x.status x.fault x.bytes x.detail) else w } }
      else y }

/-- What a starter started has ended: its command completes, or its node waits for its completion. -/
def State.starterEnd (s : State) (b : Starter) (x : Record) (k : Know) : State :=
  match b with
  | .command q seq =>
    match s.cmd? q seq with
    | none => s
    | some c => s.cmdEnd c x k
  | .node g n => s.nodeFin g n x k

/-- A launch leaves the machine: its pin records and its route card go (R292, R297). -/
def State.dropLaunch (s : State) (id : Nat) : State :=
  let s := s.dropCard id
  { s with launches := s.launches.filter (fun x => x.id != id), pins := s.pins.filter fun p => p.launch != id }

/-- Whether a party of a launch still holds resources, or a partial of a party that has left is on its way (R325, R329). -/
def State.launchBusy (s : State) (id : Nat) : Bool :=
  (s.parties.any fun p => p.launch == id) || (s.parts.any fun (x : FarPart) => (s.party? x.uid).isNone)
    || s.peerOut.any fun r => match r.src with
      | .part u _ | .posted u _ => (s.party? u).isNone
      | _ => false

/-- LAUNCH_COMPLETE (R325, R329): every party placed and ended, no record left, no job left; a launch that a drain has cut
ends with the drain (R339). -/
def execLaunchComplete (id : Nat) (s : State) : Out :=
  .next <|
    match s.launch? id with
    | none => s
    | some x =>
      if x.records ≠ [] ∨ x.first ≠ none ∨ s.stopped x.queue = true ∨ s.launchBusy id = true then s
      else
        (s.dropLaunch id).starterEnd x.by' (if x.dieLost then .of 0x0102 x.lost else .of stOK x.killed) x.know

end Sys2Proof.Machine
end

