-- ==== Sys2Proof/Machine/Payloads.lean ====
section
/-!
DEFINITION. What commands and graph nodes of the same OP do (R336, R388): COPY, SIGNAL, WAIT, REPLAY; for each, the capabilities that
firmware makes and the start.
-/
namespace Sys2Proof.Machine

/-- Whether the bytes of a payload from an offset on are zero (R318). -/
def restZero (b : List Byte) (off : Nat) : Bool := (b.drop off).all (· == 0#8)

/-! ### COPY (R336) -/

/-- The block that a COPY payload describes over two capabilities. -/
def copyBlock (b : List Byte) (src dst : Quad) : CmdBlock :=
  CmdBlock.make src dst (numAt b 0x18 4 * 2 ^ 384 + numAt b 0x1C 4 * 2 ^ 416 + numAt b 0x20 4 * 2 ^ 448 + numAt b 0x24 4 * 2 ^ 480)

/-- A COPY payload over capabilities that begin at its addresses, whatever they cover. -/
def copyProbe (b : List Byte) : CmdBlock :=
  copyBlock b (capMake (numAt b 8 8) 0 0 0 0) (capMake (numAt b 0x10 8) 0 0 0 0)

/-- The capabilities of a COPY payload, source then destination, or none for BAD_COMMAND (R317, R336). -/
def State.copyCaps (s : State) (colour : Nat) (b : List Byte) : Option (List Quad) :=
  let x := copyProbe b
  let sa := numAt b 8 8
  let da := numAt b 0x10 8
  let perm := if x.view then pVIEW else pLD
  if x.bad || !(restZero b 0x28) || decide (2 ^ 48 ≤ sa) || da % x.align != 0 || (!x.zero && sa % x.align != 0)
      || namesView da x.dstSpan || (!x.zero && !x.view && namesView sa x.srcSpan) then none
  else
    match (if x.zero then some 0 else s.makeCap colour sa x.srcSpan perm), s.makeCap colour da x.dstSpan pST with
    | some p, some q => some [p, q]
    | _, _ => none

/-- The die that runs a COPY: the one whose HBM holds the destination, die 0 for other tiers (R336). -/
def copyDie (b : List Byte) : Nat := if isHbm (numAt b 0x10 8) then numAt b 0x10 8 / 2 ^ 36 / 3 else 0

/-- Whether a die's job table is full (R266). -/
def State.dieFull (s : State) (die : Nat) : Bool := decide (1024 ≤ (s.jobs.filter fun j => j.card && j.die == die).length)

/-- Hands a COPY to the scheduler of its die; the state and the job's id. -/
def State.startCopy (s : State) (by' : JobBy) (colour : Nat) (b : List Byte) (caps : List Quad) (k : Know) : State × Nat :=
  let x := copyBlock b (caps.getD 0 0) (caps.getD 1 0)
  s.accept (copyDie b) (52 * copyDie b) by' colour none k (x.issue none false)

/-! ### SIGNAL and WAIT (R336) -/

/-- Whether an address is 8-aligned and granted for 8 bytes. -/
def State.wordOk (s : State) (colour a : Nat) : Bool := a % 8 == 0 && s.granted colour a 8 && !(namesView a 8)

/-- Writes a SIGNAL's value, a release at system scope of what its predecessors released, then sends its vector. -/
def State.signal (s : State) (colour : Nat) (b : List Byte) (k : Know) : State :=
  let a := numAt b 8 8
  let v := (b.drop 0x10).take 8
  let y := s.publish baseAgent k
  let pub : Pub := ⟨.signal, baseAgent, none, .sys, y.2⟩
  let s :=
    if isPeer a then (y.1.sendPeer a (.store v (some false)) .nobody colour a 4).tell (peerOf a) y.2
    else if y.1.backedAt a then (y.1.store ⟨baseAgent, s.devCount baseAgent, false, [pub]⟩ a v).touchPage true a 8
    else y.1.countError 4 5 1
  if numAt b 0x18 2 = 0xFFFF then s else s.sendMsix (numAt b 0x18 2)

/-- What an acquire read at system scope by the host or by base camp observes at a word (R301, R336): releases at `.sys`, and those of
agents of the package at `.pkg` for base camp, which stands in it. -/
def State.waitKnow (s : State) (a : Nat) : Know :=
  (syncRead s.sync a 8).foldl (fun (k : Know) p =>
    if p.scope == .sys || p.scope == .pkg then k.join p.know else k) Know.none

/-- Whether a WAIT's word now holds its value or more; a word that carries poison does not (log 29). -/
def State.waitMet (s : State) (a v : Nat) : Bool := !(s.poisoned a 8) && decide (v ≤ s.num a 8)

/-! ### REPLAY (R386, R388) -/

/-- A loaded plan of a colour, by its handle. -/
def State.plan? (s : State) (colour handle : Nat) : Option Plan := s.plans.find? fun p => p.handle == handle && p.colour == colour

/-- Whether capabilities serve a plan's bases: extent, LD and ST, no view byte (R222, R387). -/
def Plan.capsOk (p : Plan) (caps : List Quad) : Bool :=
  caps.length == p.bases.length && (p.bases.zip caps).all fun x =>
    decide (x.1.1 ≤ capLen x.2) && !(namesView (capBase x.2) x.1.1) && (!x.1.2.1 || capHas x.2 pLD) && (!x.1.2.2 || capHas x.2 pST)

/-- The capabilities of a REPLAY payload, or none for BAD_COMMAND. -/
def State.replayCaps (s : State) (colour : Nat) (b : List Byte) : Option (List Quad) :=
  if numAt b 0x0C 4 ≠ 0 ∨ restZero b 0x28 = false then none
  else
    (s.plan? colour (numAt b 8 4)).bind fun p =>
      (s.listCaps colour (numAt b 0x10 8) p.bases.length).bind fun l => if p.capsOk l then some l else none

/-- A replay as it is issued: it waits for its buffers (R386). -/
def ReplayRec.mk' (id seq : Nat) (p : Plan) (job : Option Nat) (by' : Option Starter) (queue : Nat) (caps : List Quad) (die : Nat)
    (key ctr : DWord) (agent : Nat) (k : Know) : ReplayRec :=
  { id := id, plan := p.handle, seq := seq, started := false, job := job, by' := by', queue := queue, caps := caps, colour := p.colour
    die := die, key := key, ctr := ctr, bufs := [], ops := p.ops.map fun o => .waiting o.npred, dropped := 0, written := 0, order := none, lost := []
    waits := [], got := [], agent := agent, know := k }

/-- Issues a replay of a plan; the state, its number and its sequence number (R389, R392). -/
def State.issueReplay (s : State) (p : Plan) (job : Option Nat) (by' : Option Starter) (queue : Nat) (caps : List Quad) (die : Nat)
    (key ctr : DWord) (k : Know) : State × Nat × Nat :=
  let a := s.newAgent die p.colour
  let r := ReplayRec.mk' s.replayCtr p.next p job by' queue caps die key ctr a.2 k
  let plans := s.plans.map fun (x : Plan) => if x.handle = p.handle then { x with next := (x.next + 1) % 2 ^ 31 } else x
  ({ a.1 with replays := a.1.replays ++ [r], replayCtr := s.replayCtr + 1, plans := plans }, s.replayCtr, p.next)

/-- Starts a REPLAY payload for a queue; none where its plan is gone. -/
def State.startReplay (s : State) (colour queue : Nat) (by' : Starter) (b : List Byte) (caps : List Quad) (k : Know) :
    Option (State × Nat) :=
  (s.plan? colour (numAt b 8 4)).bind fun p =>
    if p.capsOk caps then
      let y := s.issueReplay p none (some by') queue caps 0 (BitVec.ofNat 64 (numAt b 0x18 8)) (BitVec.ofNat 64 (numAt b 0x20 8)) k
      some (y.1, y.2.1)
    else none

end Sys2Proof.Machine
end

