-- ==== Sys2Proof/Machine/Graphs.lean ====
section
/-!
DEFINITION. Graph tables (R333 to R337): the checks of an image, a run's fires and completions, WAITEXT polls, `gcond`.
-/
namespace Sys2Proof.Machine

/-! ### The image (R333) -/

/-- KIND of a node by its number. -/
def nodeKind (k : Nat) : Option NodeKind :=
  match k with
  | 1 => some .launch
  | 2 => some .copy
  | 3 => some .collective
  | 4 => some .cond
  | 5 => some .signal
  | 6 => some .wait
  | _ => none

/-- The OP of a node's payload. -/
def NodeKind.op : NodeKind → Nat
  | .launch => 0x02
  | .copy => 0x0A
  | .collective => 0x0B
  | .cond => 0
  | .signal => 0x08
  | .wait => 0x09

/-- The first `n` node indices of a list (R333). -/
def nodeList (b : List Byte) (off n : Nat) : List Nat := (List.range n).map fun i => numAt b (off + 2 * i) 2

/-- A node of `n` from its 128 bytes, without its capabilities: none where a field breaks its limits. -/
def NodeRec.ofBytes (n : Nat) (b : List Byte) : Option NodeRec :=
  match nodeKind (numAt b 0 1) with
  | none => none
  | some k =>
    let cond := k == .cond
    let ns := numAt b 1 1
    let nb := numAt b 4 1
    let succ := nodeList b 0x10 (min ns 8)
    let body := nodeList b 0x20 (min nb 8)
    let pay := (b.drop 0x40).take 64
    let ok := decide (ns ≤ 8) && (if cond then decide (nb ≤ 8) else nb == 0) && numAt b 6 2 == 0 && numAt b 0x0C 4 == 0
      && numAt b 0x30 16 == 0 && (succ ++ body).all (fun i => decide (i < n)) && distinct succ && distinct body
      && (if cond then decide (numAt b 8 2 ≤ numAt b 0x0A 2) && decide (numAt b 0x0A 2 < n) && pay.all (· == 0#8)
          else numAt pay 0 1 == k.op)
    if ok then
      some ⟨k, numAt b 2 2, succ, body, numAt b 5 1, numAt b 8 2, numAt b 0x0A 2, pay, []⟩
    else none

/-- The nodes of an image, or none for GRAPH_BAD (R333). -/
def graphOf (b : List Byte) : Option (List NodeRec) :=
  let n := numAt b 4 2
  if b.take 4 == [0x46#8, 0x43#8, 0x47#8, 0x52#8] && decide (1 ≤ n) && decide (n ≤ 4096) && ((b.drop 6).take 58).all (· == 0#8)
      && decide (64 + 128 * n ≤ b.length) then
    ((List.range n).mapM fun i => NodeRec.ofBytes n ((b.drop (64 + 128 * i)).take 128)).bind fun l =>
      let preds (i : Nat) : Nat := (l.filter fun x => x.succ.elem i).length
      if (l.mapIdx fun i x => x.npred == preds i).all id && l.all (fun x => x.body.all fun j => preds j == 0) then some l else none
  else none

/-! ### The memory of a payload (R317, R333) -/

/-- Whether the FLAGS and ARG of a payload are ones that its OP may carry (R316). -/
def headOk (b : List Byte) (arg : Nat) : Bool := decide (numAt b 1 1 < 2) && numAt b 2 2 == arg

/-- The capabilities of a LAUNCH node; none where the node may not be loaded. -/
def State.launchNodeCaps (s : State) (colour : Nat) (b : List Byte) : Option (List Quad) :=
  let r := LaunchReq.of b
  match s.object? colour r.object with
  | none => none
  | some o =>
    if r.ok && decide (r.entry < o.entries.length) && s.framesOk colour r then s.listCaps colour r.args r.nargs else none

/-- Whether a SIGNAL payload keeps its limits. -/
def State.signalOk (s : State) (colour : Nat) (b : List Byte) : Bool := s.wordOk colour (numAt b 8 8) && restZero b 0x1A

/-- Whether a WAIT payload keeps its limits. -/
def State.waitOk (s : State) (colour : Nat) (b : List Byte) : Bool := s.wordOk colour (numAt b 8 8) && restZero b 0x18

/-- The capabilities that firmware makes for a node at its load; none for GRAPH_BAD. -/
def State.nodeCaps (s : State) (colour : Nat) (x : NodeRec) : Option (List Quad) :=
  match x.kind with
  | .launch => s.launchNodeCaps colour x.payload
  | .copy => if headOk x.payload 0 then s.copyCaps colour x.payload else none
  | .collective => if headOk x.payload 1 then s.replayCaps colour x.payload else none
  | .cond => some []
  | .signal => if headOk x.payload 0 && s.signalOk colour x.payload then some [] else none
  | .wait => if headOk x.payload 0 && s.waitOk colour x.payload then some [] else none

/-- Installs a graph table from an image's bytes; the state and the handle, or none for GRAPH_BAD. -/
def State.loadGraph (s : State) (colour : Nat) (b : List Byte) : Option (State × Nat) :=
  if 1024 ≤ s.graphs.length then none
  else
    (graphOf b).bind fun l =>
      (l.mapM fun x => (s.nodeCaps colour x).map fun c => { x with caps := c.map fun q => (q, s.tagFor q (q != 0)) }).map fun l =>
        let h := s.freeHandle
        ({ s with graphs := s.graphs ++ [⟨h, colour, l, none⟩] }, h)

/-! ### Runs (R334) -/

/-- The graph table with this handle. -/
def State.graph? (s : State) (h : Nat) : Option GraphRec := s.graphs.find? fun x => x.handle == h

/-- Changes the run of a graph table. -/
def State.withRun (s : State) (h : Nat) (f : RunRec → RunRec) : State :=
  { s with graphs := s.graphs.map fun x => if x.handle = h then { x with run := x.run.map f } else x }

/-- The queue of a run's GRAPH command. -/
def RunRec.queue (r : RunRec) : Nat :=
  match r.cmd with
  | .command q _ => q
  | .node _ _ => 0

/-- What a node that fires acquires. -/
def RunRec.at (r : RunRec) (node : Nat) : Know := r.know.join (SMap.get Know.none r.got node)

/-- A node runs. -/
def RunRec.begin (r : RunRec) (node : Nat) (w : Work) : RunRec := { r with running := r.running ++ [(node, w)] }

/-- A node has ended its payload as it fired. -/
def RunRec.ended (r : RunRec) (node : Nat) (x : Record) (k : Know) : RunRec :=
  { r.begin node (.fin x.status x.fault x.bytes x.detail) with outs := SMap.set Know.none r.outs node k }

/-- Executes a node's payload (R334 step 2, R336). -/
def State.fireNode (s : State) (h node : Nat) (x : NodeRec) (r : RunRec) : State :=
  let q := r.queue
  let k := r.at node
  let colour := (s.queue q).colour
  let whole := x.caps.all fun c => c.2 || c.1 == 0
  let bad (s : State) : State := s.withRun h fun r => r.ended node (.of stBAD 0) k
  match x.kind with
  | .launch =>
    match s.startLaunchNode q (.node h node) x.payload x.caps k with
    | (t, some e) => t.withRun h fun r => r.ended node e k
    | (t, none) => t.withRun h fun r => r.begin node (.launch s.launchCtr)
  | .copy =>
    if whole then
      let y := s.startCopy (.node h node) colour x.payload (x.caps.map Prod.fst) k
      y.1.withRun h fun r => r.begin node (.job y.2)
    else bad s
  | .collective =>
    if whole then
      match s.startReplay colour q (.node h node) x.payload (x.caps.map Prod.fst) k with
      | none => bad s
      | some y => y.1.withRun h fun r => r.begin node (.replay y.2)
    else bad s
  | .cond =>
    s.withRun h fun r =>
      { (r.begin node (.cond (SMap.get 0 r.words x.word != 0))) with
        words := SMap.set 0 r.words x.word 0, outs := SMap.set Know.none r.outs node k }
  | .signal => (s.signal colour x.payload k).withRun h fun r => r.ended node (.of stOK 0) k
  | .wait => s.withRun h fun r => r.begin node (.poll (numAt x.payload 8 8) (numAt x.payload 0x10 8))

/-- The far pages that a SIGNAL node waits for (R283). -/
def State.nodeShut (s : State) (x : NodeRec) : List Nat :=
  match x.kind with
  | .signal => s.shutPages true (numAt x.payload 8 8) 8
  | .launch | .copy | .collective | .cond | .wait => []

/-- Whether a node's payload has to wait before it starts: a change that waits for a safe point, a die without a job card, a far page
(R266, R283, R412). -/
def State.nodeWaits (s : State) (q : Nat) (x : NodeRec) : Bool :=
  match x.kind with
  | .launch =>
    s.safeHolds q || s.fw.lead.isNone
      || (s.object? (s.queue q).colour (LaunchReq.of x.payload).object).any fun o => s.noCodeRoom o
  | .copy => s.dieFull (copyDie x.payload)
  | .collective => false
  | .cond => false
  | .signal => s.nodeShut x != []
  | .wait => false

/-- A node's far pages are asked for. -/
def State.askNode (s : State) (q : Nat) (x : NodeRec) : State := s.askAll true (s.queue q).colour (s.nodeShut x)

/-- A fire of a node: it runs, or it is pending while the node runs or waits (R334 step 2). -/
def State.fire (s : State) (h node : Nat) : State :=
  match s.graph? h with
  | none => s
  | some g =>
    match g.run, g.nodes[node]? with
    | some r, some x =>
      if (r.running.any fun w => w.1 == node) || s.nodeWaits r.queue x then
        (s.askNode r.queue x).withRun h fun r => { r with pending := r.pending ++ [node] }
      else s.fireNode h node x r
    | _, _ => s

/-- Fires of some nodes, in order. -/
def State.fireAll (s : State) (h : Nat) (l : List Nat) : State := l.foldl (fun (s : State) n => s.fire h n) s

/-- Starts a run of a table for a GRAPH command (R334 step 1). -/
def State.openRun (s : State) (h : Nat) (c : Starter) (k : Know) : State :=
  match s.graph? h with
  | none => s
  | some g =>
    let ctrs : SMap Int := (List.range g.nodes.length).foldl (fun m i =>
      SMap.set 0 m i (((g.nodes[i]?).map fun (x : NodeRec) => (x.npred : Int)).getD 0)) []
    let r : RunRec :=
      { cmd := c, counters := ctrs, words := [], running := [], pending := [], failed := 0, rearms := 0, know := k, got := []
        outs := [], ends := k }
    let s := { s with graphs := s.graphs.map fun (x : GraphRec) => if x.handle = h then { x with run := some r } else x }
    s.fireAll h ((List.range g.nodes.length).filter fun i => (g.nodes[i]?).any fun (x : NodeRec) => x.npred == 0)

/-- The oldest GRAPH command that waits for a table. -/
def State.nextGraph (s : State) (h : Nat) : Option Cmd := s.cmds.find? fun c => c.work == .graphWait h && !(s.stopped c.queue)

/-- A command does other work from now on. -/
def State.setWork (s : State) (q seq : Nat) (w : Work) : State :=
  { s with cmds := s.cmds.map fun c => if c.queue = q ∧ c.seq = seq then { c with work := w } else c }

/-- The end of a run, when no node runs and no fire is pending; then the GRAPH command that waits for the table runs it (R334
step 5). -/
def State.closeRun (h : Nat) : Nat → State → State
  | 0, s => s
  | n + 1, s =>
    match (s.graph? h).bind GraphRec.run with
    | none => s
    | some r =>
      if r.running ≠ [] ∨ r.pending ≠ [] then s
      else
        let s := { s with graphs := s.graphs.map fun (x : GraphRec) => if x.handle = h then { x with run := none } else x }
        let s := s.starterEnd r.cmd (.of stOK (r.failed % 2 ^ 32 + r.rearms % 2 ^ 32 * 2 ^ 32)) r.ends
        match s.nextGraph h with
        | none => s
        | some c => State.closeRun h n ((s.setWork c.queue c.seq (.graph h)).openRun h (.command c.queue c.seq) (s.queue c.queue).know)

/-- Runs a table for a GRAPH command. -/
def State.startRun (s : State) (h : Nat) (c : Starter) (k : Know) : State :=
  State.closeRun h (s.cmds.length + 2) (s.openRun h c k)

/-! ### GRAPH_NODE_COMPLETE (R334, R335) -/

/-- A node has completed toward its successors: their counters fall, and those that reach zero are to fire. -/
def RunRec.pass (r : RunRec) (succ : List Nat) (k : Know) : RunRec × List Nat :=
  let r := { r with got := succ.foldl (fun m i => SMap.set Know.none m i ((SMap.get Know.none m i).join k)) r.got
                    counters := succ.foldl (fun m i => SMap.set 0 m i (SMap.get 0 m i - 1)) r.counters }
  (r, succ.filter fun i => SMap.get 0 r.counters i == 0)

/-- A COND node re-arms its range and fires its body. -/
def RunRec.rearm (r : RunRec) (l : List NodeRec) (x : NodeRec) (k : Know) : RunRec × List Nat :=
  let range := (List.range l.length).filter fun i => decide (x.rfirst ≤ i) && decide (i ≤ x.rlast)
  ({ r with
      counters := range.foldl (fun m i => SMap.set 0 m i (((l[i]?).map fun (y : NodeRec) => (y.npred : Int)).getD 0)) r.counters
      got := x.body.foldl (fun m i => SMap.set Know.none m i ((SMap.get Know.none m i).join k)) r.got
      rearms := r.rearms + 1 }, x.body)

/-- Removes the first of some pending fires. -/
def RunRec.unpend (r : RunRec) (node : Nat) : RunRec := { r with pending := r.pending.erase node }

/-- A node's current run completes, as one step: its record, the counters of its successors, their fires, its own pending fire. -/
def State.completeNode (s : State) (h node : Nat) (g : GraphRec) (r : RunRec) (x : NodeRec) (w : Work) : State :=
  let k := SMap.get Know.none r.outs node
  let r := { r with running := r.running.filter fun y => y.1 != node, ends := r.ends.join k }
  let again := r.pending.elem node
  let r := if again then r.unpend node else r
  let put (s : State) (y : RunRec × List Nat) : State :=
    (s.withRun h fun _ => y.1).fireAll h (y.2 ++ (if again then [node] else []))
  let s :=
    match w with
    | .fin st f b d =>
      if st = stOK then put s (r.pass x.succ k)
      else
        let s := s.postLater r.queue ⟨st, f, 0x00010000 + node, b, d⟩ k
        put s ({ r with failed := r.failed + 1 }.pass x.succ k)
    | .cond true => put s (r.rearm g.nodes x k)
    | _ => put s (r.pass x.succ k)
  State.closeRun h (s.cmds.length + 2) s

/-- Whether the payload of a node has ended. -/
def Work.ceased : Work → Bool
  | .fin _ _ _ _ => true
  | .cond _ => true
  | _ => false

/-- GRAPH_NODE_COMPLETE (R334, R335): a node whose payload has ended completes; a fire that waited for room goes on. -/
def execGraphNodeComplete (h node : Nat) (s : State) : Out :=
  .next <|
    match s.graph? h with
    | none => s
    | some g =>
      match g.run, g.nodes[node]? with
      | some r, some x =>
        if s.stopped r.queue then s
        else
          match r.running.find? fun y => y.1 == node with
          | some y => if y.2.ceased then s.completeNode h node g r x y.2 else s
          | none =>
            if !(r.pending.elem node) then s
            else if s.nodeWaits r.queue x then s.askNode r.queue x else (s.withRun h fun r => r.unpend node).fire h node
      | _, _ => s

/-! ### WAITEXT_POLL (R336) -/

/-- What a WAIT command or a WAITEXT node in execution reads: its queue, address and value, and what it has acquired. -/
def State.polled (s : State) (node : Bool) (a b : Nat) : Option (Nat × Nat × Nat × Know) :=
  if node then
    (((s.graph? a).bind GraphRec.run).bind fun (r : RunRec) => (r.running.find? fun y => y.1 == b).bind fun y => match y.2 with
      | .poll x v => if s.stopped r.queue then none else some (r.queue, x, v, r.at b)
      | _ => none)
  else
    (s.cmd? a b).bind fun c => match c.work with
      | .poll x v => if s.stopped a then none else some (a, x, v, (s.queue a).know)
      | _ => none

/-- A WAIT command or node has met its value. -/
def State.pollMet (s : State) (node : Bool) (a b : Nat) (k : Know) : State :=
  s.starterEnd (if node then .node a b else .command a b) (.of stOK 0) k

/-- WAITEXT_POLL (R336): the word at the address is read; a peer's word is asked for, and its answer is compared when it comes. -/
def execWaitextPoll (node : Bool) (a b : Nat) (s : State) : Out :=
  .next <|
    match s.polled node a b with
    | none => s
    | some (q, x, v, k) =>
      if isPeer x then
        if s.peerOut.any fun r => r.src == .poll node a b then s
        else if s.routed (peerOf x) then s.sendPeer x (.load 8) (.poll node a b) (s.queue q).colour x 4 else s
      else if s.shutPages false x 8 ≠ [] then s.askAll false (s.queue q).colour (s.shutPages false x 8)
      else if s.waitMet x v then s.pollMet node a b (k.join (s.waitKnow x)) else s

/-! ### gcond (R337) -/

/-- The graph and node that started the launch of a party. -/
def State.nodeOf (s : State) (p : Party) : Option (Nat × Nat) :=
  (s.launch? p.launch).bind fun x => match x.by' with
    | .node h n => some (h, n)
    | .command _ _ => none

/-- `gcond` (R337). -/
def execGcond (or : Bool) (n : BitVec 8) (d a : BitVec 8) (s : State) : Out :=
  s.issue fun c =>
    match c.s.nodeOf c.party with
    | none => c.done (c.rope.setK d.toNat false) 8
    | some (h, _) =>
      let v := (c.rope.s a.toNat).toNat
      let s := (c.done (c.rope.setK d.toNat true) 8).withRun h fun r =>
        { r with words := SMap.set 0 r.words n.toNat (if or then Nat.lor (SMap.get 0 r.words n.toNat) v else v) }
      s

end Sys2Proof.Machine
end

