-- ==== Sys2Proof/Machine/Gangs.lean ====
section
/-!
DEFINITION. Gang instructions after the latch (R240 to R245, R254 to R260, R264): the join, the read phase, the accumulate phase, the
near-cache adders.
-/
namespace Sys2Proof.Machine

/-! ### The instruction's fields -/

/-- The fields of the gang mould; `mmb` has no plane counts. -/
def gangOp : Instr → GangOp
  | .mma o => o
  | .mmas o _ => o
  | .mmf o _ _ => o
  | .mmb z _ d a b => ⟨z, 0, 0, 0, 0, true, false, d, a, b⟩
  | _ => ⟨false, 0, 0, 0, 0, false, false, 0, 0, 0⟩

/-- Whether an instruction is `mmf`. -/
def isMmf : Instr → Bool
  | .mmf _ _ _ => true
  | _ => false

/-- N of `mmas` (R257). -/
def sparseN : Instr → Option Nat
  | .mmas _ ns => some (16 * ns.toNat)
  | _ => none

/-- Blocks of a sparse row (R243). -/
def sparseBlocks (n : Nat) : Nat := if n = 48 then 2 else 1

/-- Bytes of a block with S planes (R243). -/
def blockBytes (s : Nat) : Nat := 4 + 4 * s

/-- Bytes of a member's A tile and of the B tile (R243). -/
def tileSizes (i : Instr) : Nat × Nat :=
  let o := gangOp i
  let dense (s : Nat) : Nat := 256 * (1 + s)
  match i with
  | .mmb _ _ _ _ _ => (4096, 4096)
  | .mmas _ ns =>
    (32 * (8 + sparseBlocks (16 * ns.toNat) * blockBytes (o.sam1.toNat + 1)), dense (o.sbm1.toNat + 1))
  | _ => (dense (o.sam1.toNat + 1), dense (o.sbm1.toNat + 1))

/-- Cycles of occupancy (R264). -/
def gangCycles (i : Instr) (g : Nat) : Nat :=
  let o := gangOp i
  let pp := g * (o.pam1.toNat + 1) * (o.pbm1.toNat + 1)
  match i with
  | .mmb _ _ _ _ _ => g
  | .mmas _ ns => (pp * (16 * ns.toNat) + 511) / 512
  | _ => (pp + 7) / 8

/-- What the members of a join must agree on besides their lists (R240). -/
def gangKey (i : Instr) (r : Rope) : List Nat :=
  let bits := encodeBits i
  let o := gangOp i
  [fieldOf bits 2 8, fieldOf bits 42 21, fieldOf bits 96 32, (r.s o.b.toNat).toNat]
    ++ (if isMmf i then [(r.s64 o.d.toNat).toNat] else [])

/-! ### The join (R240, R359) -/

/-- The instruction in a rope's latch, with the place of its slot. -/
def Rope.latched (r : Rope) : Option (Nat × Instr) :=
  (r.stack.mapIdx fun p e => (p, e.wait)).findSome? fun x =>
    match x.2 with
    | some (.latch i) => some (x.1, i)
    | _ => none

/-- Delivers a cause to every member that is latched or joined, each at its own instruction (R240, R241). -/
def State.trapMembers (s : State) (uid : Nat) (at' : Rope → Option Nat) (cause : Cause) (tinfo : Nat) (l : List Nat) : State :=
  l.foldl (fun (s : State) k =>
    match (s.party? uid).bind fun p => (p.ropes[k]?).bind at' with
    | none => s
    | some pos =>
      match s.ctxAt uid k pos with
      | none => s
      | some c => c.trapWith true cause fullMask tinfo) s

/-- Cycles of occupancy that a core's array has still to run (R359). -/
def State.occupancy (s : State) (core : Nat) : Nat :=
  ((s.gangs.filter fun g => g.core == core).map fun g => g.left).foldl (· + ·) 0

/-- A member as it joins: it waits in its read phase, and the block that it will write is in flight (R254). -/
def Rope.joinGang (r : Rope) (pos g : Nat) (i : Instr) : Rope :=
  let r := r.setWait pos (some (.gang g))
  if isMmf i then r else { r with accInfl := r.accInfl ||| blockMask (gangOp i).d.toNat 1 }

/-- The members of a list join (R240). -/
def State.joinMembers (s : State) (p : Party) (l : List (Nat × Nat × Instr)) (cycles : Nat) : State :=
  let g := s.gangCtr
  let p' := l.foldl (fun (p : Party) x => { p with ropes := p.ropes.modify x.1 fun r => r.joinGang x.2.1 g x.2.2 }) p
  { s.setParty p' with
    gangs := s.gangs ++ [⟨g, p.core, p.uid, l.map fun x => ⟨x.1, x.2.2, [], 0, 0⟩, true, cycles, []⟩]
    gangCtr := g + 1 }

/-- GANG_JOIN (R240): the gang of a latched rope, once every rope that it lists is latched or has ended. -/
def execGangJoin (uid k : Nat) (s : State) : Out :=
  .next <|
    match s.party? uid with
    | none => s
    | some p =>
      match p.ropes[k]? with
      | none => s
      | some r =>
        match r.latched with
        | none => s
        | some me =>
          let l := r.gangList k
          let rope (j : Nat) : Option Rope := p.ropes[j]?
          let miss (s : State) : State := s.trapMembers uid (fun r => r.latched.map Prod.fst) .gangMismatch 0 l
          if l.any fun j => (rope j).all fun r => r.ended then miss s
          else
            match l.mapM fun j => (rope j).bind fun r => r.latched.map fun x => (j, x.1, x.2) with
            | none => s
            | some ms =>
              let agrees (x : Nat × Nat × Instr) : Bool :=
                match rope x.1 with
                | none => false
                | some q => gangG q.gangReg == l.length && q.gangList x.1 == l && gangKey x.2.2 q == gangKey me.2 r
              if !(ms.all agrees) then miss s
              else
                let cycles := gangCycles me.2 l.length
                if 592 < s.occupancy p.core + cycles then s else s.joinMembers p ms cycles

/-! ### The read phase (R241, R245) -/

/-- A check of the read phase: its place in the order of R245, whether it fails, the cause, the offset formed. -/
abbrev ReadCheck := Nat × Bool × Cause × Int

/-- The checks of one tile. -/
def Party.tileChecks (p : Party) (off n : Nat) : List ReadCheck :=
  [(0, decide (p.scratchSize < off + n) || decide (2 ^ 20 ≤ off), .capBounds, off), (1, off % 4 != 0, .misaligned, off),
   (2, (blocksOf 4096 off n).any fun q => !(isPriv (p.pageAt (q * 4096))), .capPerm, off), (20, p.spoisoned off n, .poisonConsumed, off)]

/-- The offset of row `r` of member `m` of an `mmf`, from a base offset (R259). -/
def mmfOff (base ld m r : Nat) : Nat := base + 4 * ld * (32 * m + r)

/-- The capability checks of an `mmf` member (R259). -/
def State.mmfChecks (s : State) (p : Party) (r : Rope) (m : Nat) (i : Instr) : List ReadCheck :=
  match i with
  | .mmf o x ld =>
    let q := r.quad 0 x.r.toNat
    let base := (r.s64 o.d.toNat).toNat
    let offs := (List.range 32).map (mmfOff base ld.toNat m)
    let first (f : Nat → Bool) : Bool × Int := (offs.any f, ((offs.find? f).getD (offs.headD 0) : Nat))
    let row0 : Int := (offs.headD 0 : Nat)
    let use := (s.useSteps p.colour q (r.tag 0 x.r.toNat)).mapIdx fun n e => (3 + n, e.1, e.2, row0)
    let perm := first fun a => !(capHas q (pLD + pST)) || namesView ((capBase q : Int) + a) 128
    let bnds := first fun a => decide (capLen q < a + 128)
    let algn := first fun a => (capBase q + a) % 4 != 0
    use ++ [(10, perm.1, .capPerm, perm.2), (11, bnds.1, .capBounds, bnds.2), (12, algn.1, .misaligned, algn.2)]
  | _ => []

/-- The first check that fails, by place. -/
def firstRead (l : List ReadCheck) : Option ReadCheck :=
  (l.filter fun x => x.2.1).foldl (fun (b : Option ReadCheck) x => match b with
    | none => some x
    | some y => if x.1 < y.1 then some x else b) none

/-- The offsets of a member's tiles. -/
def tileOffs (r : Rope) (i : Instr) : Nat × Nat :=
  ((r.s (gangOp i).a.toNat).toNat, (r.s (gangOp i).b.toNat).toNat)

/-- The lines of a gang's tiles that stand in the backing (R136). -/
def Party.gangMissing (p : Party) (g : Gang) : List Nat :=
  g.members.flatMap fun m =>
    match p.ropes[m.rope]? with
    | none => []
    | some r =>
      let o := tileOffs r m.instr
      let z := tileSizes m.instr
      p.missing o.1 z.1 ++ p.missing o.2 z.2

/-- A member with what the read phase reads: its A tile, and for `mmf` its capability and first row. -/
def Party.readMember (p : Party) (m : Nat) (x : GangMember) : GangMember :=
  match p.ropes[x.rope]? with
  | none => x
  | some r =>
    let a := p.sbytes (tileOffs r x.instr).1 (tileSizes x.instr).1
    match x.instr with
    | .mmf o c ld =>
      let q := r.quad 0 c.r.toNat
      { x with aTile := a, cap := q, base := capBase q + mmfOff (r.s64 o.d.toNat).toNat ld.toNat m 0 }
    | _ => { x with aTile := a }

/-- The place of a rope's slot that waits in gang `g`. -/
def Rope.gangPos (g : Nat) (r : Rope) : Option Nat :=
  (r.stack.mapIdx fun p e => (p, e.wait)).findSome? fun x => if x.2 = some (.gang g) then some x.1 else none

/-- What the end of the read phase does to a member: its slot runs on, but for `mmf`, which goes on once its partials have left. -/
def Rope.readDone (r : Rope) (g : Nat) (i : Instr) : Rope :=
  match r.gangPos g with
  | none => r
  | some pos => if isMmf i then r else r.stepOn pos 16

/-- Whether another gang instruction that writes the block at `d` of a rope is in flight (R254). -/
def State.blockBusy (s : State) (g : Gang) (k d : Nat) : Bool :=
  s.gangs.any fun x => x.id != g.id && x.uid == g.uid && x.members.any fun (m : GangMember) =>
    m.rope == k && !(isMmf m.instr) && (gangOp m.instr).d.toNat == d

/-- INFL after gang instruction `g` has left the array (R254). -/
def State.inflAfter (s : State) (g : Gang) (k d : Nat) (infl : BitVec 8) : BitVec 8 :=
  if s.blockBusy g k d then infl else infl &&& ~~~(blockMask d 1)

/-- Takes a gang out of the table, its members' blocks no longer in flight. -/
def State.dropGang (s : State) (g : Gang) : State :=
  { s with gangs := s.gangs.filter fun x => x.id != g.id }.withParty g.uid fun p => Party.wake (f := fun (w : Wait) => w == Wait.block) <|
    { p with ropes := p.ropes.mapIdx fun k r =>
        match g.members.find? fun (m : GangMember) => m.rope == k with
        | none => r
        | some m => if isMmf m.instr then r else { r with accInfl := s.inflAfter g k (gangOp m.instr).d.toNat r.accInfl } }

/-- READ_PHASE_COMPLETE (R241): every operand byte has been read and checked. -/
def execReadPhaseComplete (id : Nat) (s : State) : Out :=
  .next <|
    match s.gangs.find? fun g => g.id == id && g.reading with
    | none => s
    | some g =>
      match s.party? g.uid with
      | none => s.dropGang g
      | some p =>
        let checks := (g.members.mapIdx fun m x =>
          match p.ropes[x.rope]? with
          | none => []
          | some r =>
            let o := tileOffs r x.instr
            let z := tileSizes x.instr
            p.tileChecks o.1 z.1 ++ p.tileChecks o.2 z.2 ++ s.mmfChecks p r m x.instr).flatten
        match firstRead (checks.filter fun x => decide (x.1 < 20)) with
        | some e =>
          (s.dropGang g).trapMembers g.uid (Rope.gangPos id) e.2.2.1 (e.2.2.2 % 2 ^ 64).toNat (g.members.map GangMember.rope)
        | none =>
          if p.gangMissing g ≠ [] then s
          else
            match firstRead checks with
            | some e =>
              (s.dropGang g).trapMembers g.uid (Rope.gangPos id) e.2.2.1 (e.2.2.2 % 2 ^ 64).toNat (g.members.map GangMember.rope)
            | none =>
              let ms := g.members.mapIdx fun m x => p.readMember m x
              let b := match g.members.head? with
                | none => []
                | some x => ((p.ropes[x.rope]?).map fun r => p.sbytes (tileOffs r x.instr).2 (tileSizes x.instr).2).getD []
              let p' := g.members.foldl (fun (p : Party) x => { p with ropes := p.ropes.modify x.rope fun r => r.readDone id x.instr }) p
              { s.setParty p' with gangs := s.gangs.map fun y => if y.id = id then { y with reading := false, members := ms, bTile := b } else y }

/-! ### The products (R256 to R259) -/

/-- Word `k` of a tile. -/
def tileWord (t : List Byte) (off : Nat) : Nat := leNat ((t.drop off).take 4)

/-- A block of a tile read with `p` planes: its significands and exponent (R58, R244). -/
def tileBlock (t : List Byte) (off p : Nat) : List Int × Int :=
  let planes := (List.range p).map fun k => tileWord t (off + 4 + 4 * k)
  ((List.range 32).map (planeElem planes), blockExp (tileWord t off % 256) p)

/-- A list of products, each with its exponent, summed exactly (R256, R257). -/
def exactSum (l : List (Int × Int)) : FVal :=
  match l with
  | [] => .fin false 0 0
  | x :: t =>
    let e := t.foldl (fun m y => min m y.2) x.2
    let v : Int := (x :: t).foldl (fun (a : Int) (y : Int × Int) => a + y.1 * ((2 ^ (y.2 - e).toNat : Nat) : Int)) 0
    .fin (decide (v < 0)) v.natAbs e

/-- One accumulation step of R256: integer or FP32. -/
def accStep (int sat : Bool) (acc : FRes) (l : List (Int × Int)) : FRes :=
  if int then
    let v := readInt 32 false acc.bits + (l.map Prod.fst).foldl (· + ·) 0
    ⟨lowBits 32 (if sat then clampInt 32 false v else v), acc.flags⟩
  else
    let r := roundX fmtF32 .rn (xAdd .rn (fmtF32.read acc.bits) (exactSum l))
    ⟨r.bits, acc.flags ||| r.flags⟩

/-- The products of row `l` with every column, block by block of K: for each column the terms of K-block 0 and of K-block 1. -/
def rowTerms (i : Instr) (a b : List Byte) (l : Nat) : List (List (List (Int × Int))) :=
  let o := gangOp i
  let ba := blockBytes (o.sam1.toNat + 1)
  let bb := blockBytes (o.sbm1.toNat + 1)
  let pa := o.pam1.toNat + 1
  let col (j kb : Nat) : List Int × Int := tileBlock b ((2 * j + kb) * bb) (o.pbm1.toNat + 1)
  match sparseN i with
  | none =>
    let row (kb : Nat) : List Int × Int := tileBlock a ((2 * l + kb) * ba) pa
    let r0 := row 0
    let r1 := row 1
    let dot (x y : List Int × Int) : List (Int × Int) := [(((x.1.zip y.1).map fun t => t.1 * t.2).foldl (· + ·) 0, x.2 + y.2)]
    (List.range 32).map fun j => [dot r0 (col j 0), dot r1 (col j 1)]
  | some n =>
    let at' := l * (8 + sparseBlocks n * ba)
    let mask := leNat ((a.drop at').take 8)
    let ks := ((List.range 64).filter fun k => bitOf mask k).take n
    let bl := (List.range (sparseBlocks n)).map fun x => tileBlock a (at' + 8 + x * ba) pa
    let val (x : Nat) : Int × Int := let y := bl.getD (x / 32) ([], 0); (y.1.getD (x % 32) 0, y.2)
    (List.range 32).map fun j =>
      let c0 := col j 0
      let c1 := col j 1
      let terms (kb : Nat) (c : List Int × Int) : List (Int × Int) :=
        (ks.mapIdx fun x k => (x, k)).filterMap fun y =>
          if y.2 / 32 = kb then some ((val y.1).1 * c.1.getD (y.2 % 32) 0, (val y.1).2 + c.2) else none
      [terms 0 c0, terms 1 c1]

/-- The population count of a 32-bit number. -/
def popNat (v : Nat) : Nat := ((List.range 32).filter fun j => bitOf v j).length

/-- The sum that `mmb` adds for row `l` and column `j` (R258): the plane word follows each block's header. -/
def mmbSum (opx : Bool) (a b : List Byte) (l j : Nat) : Nat :=
  ((List.range 16).map fun w =>
    let x := tileWord a ((16 * l + w) * 8 + 4)
    let y := tileWord b ((16 * j + w) * 8 + 4)
    popNat (if opx then Nat.land x y else Nat.xor x y)).foldl (· + ·) 0

/-- The 32 results of row `l`, from the accumulators given by column. -/
def gangRow (i : Instr) (a b : List Byte) (acc : Nat → Nat) (l : Nat) : List FRes :=
  let o := gangOp i
  match i with
  | .mmb _ opx _ _ _ => (List.range 32).map fun j => ⟨(acc j + mmbSum opx a b l j) % 2 ^ 32, 0⟩
  | _ => (rowTerms i a b l).mapIdx fun j t => t.foldl (accStep o.int o.sat) ⟨acc j, 0⟩

/-- A member's results: row by row, with the flags of all (R256). -/
def gangResult (i : Instr) (a b : List Byte) (r : Rope) : List (List FRes) :=
  let o := gangOp i
  (List.range 32).map fun l => gangRow i a b (fun j => if o.z || isMmf i then 0 else (r.x l (o.d.toNat + j)).toNat) l

/-- The flags of a member's results. -/
def resultFlags (x : List (List FRes)) : FFlags := x.foldl (fun f row => row.foldl (fun f y => f ||| y.flags) f) 0

/-- A member's accumulator writes and flags (R254, R256). -/
def Rope.land (r : Rope) (i : Instr) (x : List (List FRes)) : Rope :=
  let d := (gangOp i).d.toNat
  let y := (x.mapIdx fun l row => (l, row)).foldl (fun (r : Rope) t =>
    (t.2.mapIdx fun j v => (j, v)).foldl (fun (r : Rope) u => r.setX t.1 (d + u.1) (BitVec.ofNat 32 u.2.bits)) r) r
  { y with accDirty := y.accDirty ||| blockMask d 1 }.orFpst (resultFlags x)

/-- A member's partials, sent on their way (R259). -/
def mmfParts (p : Party) (m : GangMember) (r : Rope) (x : List (List FRes)) : List FarPart :=
  let ld := match m.instr with
    | .mmf _ _ ld => ld.toNat
    | _ => 0
  (x.mapIdx fun l row => row.mapIdx fun j v =>
    ({ uid := p.uid, k := m.rope, die := dieOf p.core, colour := p.colour, base := capBase m.cap, addr := m.base + 4 * ld * l + 4 * j
       val := BitVec.ofNat 32 v.bits, agent := r.agent, gen := r.rel, pubs := r.fenced, waits := false } : FarPart)).flatten

/-- A member's accumulate phase completes. -/
def State.landMember (g : Gang) (s : State) (m : GangMember) : State :=
  match s.party? g.uid with
  | none => s
  | some p =>
    match p.ropes[m.rope]? with
    | none => s
    | some r =>
      let x := gangResult m.instr m.aTile g.bTile r
      match m.instr with
      | .mmf _ c _ =>
        let l := mmfParts p m r x
        let r' := (r.useAll fullMask [(c, 4)]).orFpst (resultFlags x)
        let r' := { r' with farOut := r'.farOut + l.length }
        let r' := match r'.gangPos g.id with
          | none => r'
          | some pos => r'.stepOn pos 16
        { s.setParty (p.setRope m.rope r') with parts := s.parts ++ l }
      | _ =>
        let r' := r.land m.instr x
        s.setParty (p.setRope m.rope { r' with accInfl := s.inflAfter g m.rope (gangOp m.instr).d.toNat r'.accInfl })

/-- ACCUMULATE_PHASE_COMPLETE (R254): the core's oldest gang instruction, its occupancy over; instructions that wait on its blocks are
issued again. -/
def execAccumulatePhaseComplete (core : Nat) (s : State) : Out :=
  .next <|
    match s.gangs.find? fun g => g.core == core with
    | none => s
    | some g =>
      if g.reading || g.left != 0 then s
      else
        let s := g.members.foldl (State.landMember g) s
        { s with gangs := s.gangs.filter fun x => x.id != g.id }.withParty g.uid fun p => p.wake fun (w : Wait) => w == Wait.block

/-! ### Near-cache adders (R259, R260) -/

/-- Applies a partial at its home slice: one atomic update, recorded for its rope (R259, R309); `early` says that it was on its way
when a snapshot was issued (R280). -/
def State.addPart (s : State) (x : FarPart) (early : Bool) : State :=
  let gen := (((s.party? x.uid).bind fun p => p.ropes[x.k]?).map fun r => r.rel).getD x.gen
  let v := roundX fmtF32 .rn (xAdd .rn (fmtF32.read (s.num x.addr 4)) (fmtF32.read x.val.toNat))
  let w : Writer := ⟨x.agent, gen, true, x.pubs⟩
  let s := if early then (s.storeIn w x.addr (leBytes 4 v.bits)).snapThrough x.addr 4 else s.store w x.addr (leBytes 4 v.bits)
  (s.touchPage true x.addr 4).withRope x.uid x.k fun r => r.partDone 0

/-- A partial leaves the list; a snapshot that waits for it counts it off. -/
def State.takePart (s : State) (n : Nat) : State :=
  { s with parts := s.parts.eraseIdx n, snap := s.snap.map fun x => if n < x.ahead then { x with ahead := x.ahead - 1 } else x }

/-- NEAR_CACHE_ADD (R259): the partial at place `n`; two of one rope for one element stay in order (R260). One for a peer's line is applied
there, and is done when the peer has answered (R261, R375). -/
def execNearCacheAdd (n : Nat) (s : State) : Out :=
  .next <|
    match s.parts[n]? with
    | none => s
    | some x =>
      if (s.parts.take n).any fun y => y.uid == x.uid && y.k == x.k && y.addr == x.addr then s
      else
        let early := s.snap.any fun x => !x.cut && decide (n < x.ahead)
        let out := s.takePart n
        let shut := s.shutPages true x.addr 4
        if shut ≠ [] then
          shut.foldl (fun (s : State) q => s.ask ⟨q, .engine, true, x.colour, none⟩)
            { s with parts := s.parts.modify n fun (y : FarPart) => { y with waits := true } }
        else if isPeer x.addr then
          if s.routed (peerOf x.addr) then
            out.sendPeer x.addr (.atomic .fadd false false .relaxed .rope x.val.toNat 0) (.part x.uid x.k) x.colour x.base x.die
          else out.dropPart x
        else if !early && s.cowFull (s.cowPages x.addr 4) then s
        else if s.poisoned x.addr 4 then out.dropPart x
        else out.addPart x early

end Sys2Proof.Machine
end

