-- ==== Sys2Proof/Machine/SpanCards.lean ====
section
/-!
DEFINITION. The span cards (R226 to R236): loads, stores, atomics, MX blocks, prefetch, fence, write-back, code synchronisation.
-/
namespace Sys2Proof.Machine

/-! ### Element sizes (R143, R226) -/

/-- Bytes of an element. -/
def szBytes : Sz → Nat
  | .n8 | .i8 => 1
  | .n16 | .i16 => 2
  | .b32 => 4
  | .b64 => 8
  | .b128 | .c => 16

/-- What a load gives a lane (R51, R226): its bytes extended; the tag is kept for `.c` alone. -/
def loadFx (sz : Sz) (d : BitVec 8) (v : Nat) (tag : Bool) : Fx :=
  match sz with
  | .n8 | .n16 | .b32 => Fx.word d v
  | .i8 => Fx.word d (lowBits 32 (readInt 8 false v))
  | .i16 => Fx.word d (lowBits 32 (readInt 16 false v))
  | .b64 => Fx.pair d v
  | .b128 => { quads := [(d.toNat, BitVec.ofNat 128 v, false)] }
  | .c => { quads := [(d.toNat, BitVec.ofNat 128 v, tag)] }

/-- Registers of an element's data. -/
def szRegs : Sz → Nat
  | .n8 | .i8 | .n16 | .i16 | .b32 => 1
  | .b64 => 2
  | .b128 | .c => 4

/-- The bytes that lane `l` stores from register `r` (R227). -/
def Rope.storeBytes (p : Rope) (sz : Sz) (l r : Nat) : List Byte := leBytes (szBytes sz) (p.quad l r).toNat

/-! ### ld, st, ldc, stc -/

/-- The hinted sources of the mould used up. -/
def Rope.spanUse (p : Rope) (active : Word) (m : SpanOp) (more : List (RSrc × Nat)) : Rope :=
  p.useAll active (spanUsed m.a m.off ++ more)

/-- `ld` behind the gate (R226). -/
def Ctx.ldFinish (c : Ctx) (m : SpanOp) (sz : Sz) (d : BitVec 8) (accs : List Acc) : State :=
  let r := c.rope.spanUse (accMask accs) m []
  let r := accs.foldl (fun (r : Rope) a => r.writeLane a.lane (loadFx sz d (leNat (c.read a)) false)) r
  c.done (r.sees (c.s.shown accs)) 12

/-- `ld` (R226). -/
def execLd (m : SpanOp) (sz : Sz) (d : BitVec 8) (s : State) : Out :=
  s.issue fun c =>
    c.spanAccess (.ld m sz d) (c.active m.g) m.a (c.rope.spanOff m.off m.imm.toInt) (szBytes sz) pLD (fun _ => []) false true
      false true (fun a => .load a.n) fun c accs => c.ldFinish m sz d accs

/-- `st` (R227): the highest lane's bytes stand where lanes clash (R225). -/
def execSt (m : SpanOp) (sz : Sz) (x : RSrc) (s : State) : Out :=
  s.issue fun c =>
    c.spanAccess (.st m sz x) (c.active m.g) m.a (c.rope.spanOff m.off m.imm.toInt) (szBytes sz) pST (fun _ => []) true false
      false false (fun a => .store (c.rope.storeBytes sz a.lane x.r.toNat) none) fun c accs =>
        let s := accs.foldl (fun (s : State) a =>
          s.laneStore (dieOf c.party.core) c.rope.writer a.addr (c.rope.storeBytes sz a.lane x.r.toNat)) c.s
        (c.stored s).done (c.rope.spanUse (accMask accs) m [(x, szRegs sz)]) 12

/-- `ldc` behind the gate (R228): a tagged capability that matches the map traps at the load (R199). A peer's answer carries no tag
(R375). -/
def Ctx.ldcFinish (c : Ctx) (m : SpanOp) (d : BitVec 8) (accs : List Acc) : State :=
  let val (a : Acc) : Quad := BitVec.ofNat 128 (leNat (c.read a))
  let tag (a : Acc) : Bool := !a.peer && c.s.tagAt a.addr
  let bad := accs.filter fun a => tag a && c.s.revoked (val a)
  if bad ≠ [] then c.trapAcc .revoked bad
  else
    let r := c.rope.spanUse (accMask accs) m []
    let r := accs.foldl (fun (r : Rope) a => r.setQuad a.lane d.toNat (val a) (c.s.tagFor (val a) (tag a))) r
    c.done (r.sees (c.s.shown accs)) 12

/-- `ldc` (R228). -/
def execLdc (m : SpanOp) (d : BitVec 8) (s : State) : Out :=
  s.issue fun c =>
    c.spanAccess (.ldc m d) (c.active m.g) m.a (c.rope.spanOff m.off m.imm.toInt) 16 (pLD + pLDCAP) (fun _ => []) false true
      false true (fun a => .load a.n) fun c accs => c.ldcFinish m d accs

/-- The two further steps of a capability store (R229). -/
def Ctx.stcSteps (c : Ctx) (x : RSrc) (l : Nat) : List (Bool × Cause) :=
  let q := c.rope.quad l x.r.toNat
  let t := c.rope.tag l x.r.toNat
  [(t && c.s.revoked q, .revoked), (t && !(capHas q pGLOBAL), .capPerm)]

/-- A capability stored by a lane: the bytes, then the granule's tag (R229, R207). -/
def State.storeQuad (s : State) (die : Nat) (w : Writer) (a : Nat) (q : Quad) (t : Bool) : State :=
  let s := s.laneStore die w a (leBytes 16 q.toNat)
  if isPeer a || !(s.backedAt a) then s else s.setTagAt a (s.tagFor q t)

/-- `stc` (R229). -/
def execStc (m : SpanOp) (x : RSrc) (s : State) : Out :=
  s.issue fun c =>
    c.spanAccess (.stc m x) (c.active m.g) m.a (c.rope.spanOff m.off m.imm.toInt) 16 (pST + pSTCAP) (c.stcSteps x) true false
      false false (fun a => .store (c.rope.storeBytes .c a.lane x.r.toNat) none) fun c accs =>
        let s := accs.foldl (fun (s : State) a =>
          s.storeQuad (dieOf c.party.core) c.rope.writer a.addr (c.rope.quad a.lane x.r.toNat) (c.rope.tag a.lane x.r.toNat)) c.s
        (c.stored s).done (c.rope.spanUse (accMask accs) m [(x, 4)]) 12

/-! ### Atomics (R144, R230) -/

/-- The new value of an atomic on `n` bits (R144, R230): for `.cas`, `cmp` is compared and `new` stored. -/
def atomValue (op : AtomOp) (n old v cmp new : Nat) : FRes :=
  match op with
  | .add => ⟨(old + v) % 2 ^ n, 0⟩
  | .minI => ⟨intMinMax false n false old v, 0⟩
  | .minN => ⟨intMinMax false n true old v, 0⟩
  | .maxI => ⟨intMinMax true n false old v, 0⟩
  | .maxN => ⟨intMinMax true n true old v, 0⟩
  | .and => ⟨Nat.land old v, 0⟩
  | .or => ⟨Nat.lor old v, 0⟩
  | .xor => ⟨Nat.xor old v, 0⟩
  | .exch => ⟨v, 0⟩
  | .cas => ⟨if old = cmp then new else old, 0⟩
  | .fadd =>
    let f := if n = 64 then fmtF64 else fmtF32
    roundX f .rn (xAdd .rn (f.read old) (f.read v))

/-- The rope that issues an atomic: a release counts (R309); what it publishes. -/
def Ctx.atomRelease (c : Ctx) (ord : MemOrd) (sc : Scope) : Rope × List Pub :=
  if ordRel ord then
    let x := c.rope.release
    (x.1, [⟨.atomic, x.1.agent, some c.home, sc, x.2⟩])
  else (c.rope, [])

/-- What an atomic's reads bring: acquired now at its scope, and kept for a later fence, whose scope may be wider (R231, R302). -/
def Ctx.atomAcquire (c : Ctx) (r : Rope) (ord : MemOrd) (sc : Scope) (pubs : List Pub) : Rope :=
  (if ordAcq ord then r.acquireAt c.home sc (pubs.filter fun p => p.serves sc) else r).sees pubs

/-- One lane's update at the home slice: the old value, the flags, and the releases that it observed (R230). -/
def State.atomLane (s : State) (die : Nat) (w : Writer) (o : AtomOpnd) (r : Rope) (a : Acc) (old : Nat) : State × FFlags × List Pub :=
  let v := r.laneVal o.w a.lane o.c.r
  let new := r.laneVal o.w a.lane o.e.r
  let y := atomValue o.op (8 * a.n) old v v new
  if a.peer then (s, y.flags, [])
  else (s.laneStore die w a.addr (leBytes a.n y.bits), y.flags, syncRead s.sync a.addr a.n)

/-- What an atomic does lane by lane: the state, the old values by key, the flags, what was observed. -/
structure AtomRun where
  s : State
  old : List (Acc × Nat)
  flags : FFlags
  seen : List Pub

/-- What an acquiring atomic at `.sys` learns from the peer devices of its accesses (R375). -/
def Ctx.atomPeers (c : Ctx) (r : Rope) (o : AtomOpnd) (accs : List Acc) : Rope :=
  if ordAcq o.ord && o.scope == .sys then
    (accs.filter Acc.peer).foldl (fun (r : Rope) a => r.acquire (c.s.told (peerOf a.addr))) r
  else r

/-- `atom` and `atomn` behind the gate (R230, R231). -/
def Ctx.atomFinish (c : Ctx) (o : AtomOpnd) (ret : Bool) (accs : List Acc) : State :=
  let x := c.atomRelease o.ord o.scope
  let w : Writer := ⟨c.rope.agent, c.rope.rel, true, x.2 ++ c.rope.fenced⟩
  let run := accs.foldl (fun (t : AtomRun) a =>
    let old := if a.peer then leNat (c.read a) else t.s.num a.addr a.n
    let y := t.s.atomLane (dieOf c.party.core) w o c.rope a old
    ⟨y.1, t.old ++ [(a, old)], t.flags ||| y.2.1, y.2.2 ++ t.seen⟩) ⟨c.s, [], 0, []⟩
  let r := c.atomPeers (c.atomAcquire x.1 o.ord o.scope run.seen) o accs
  let more := (o.c, width o.w) :: (if o.op = .cas then [(o.e, width o.w)] else [])
  let r := r.useAll (accMask accs) (spanUsed o.a o.off ++ more)
  let r := if ret then (run.old.foldl (fun (r : Rope) y => r.writeLane y.1.lane (Fx.out o.w o.d y.2)) r).orFpst run.flags else r
  (c.stored run.s).done r 16

/-- What a peer is asked to do for a lane of an atomic (R375). -/
def Rope.peerAtom (r : Rope) (o : AtomOpnd) (ret : Bool) (a : Acc) : PeerOp :=
  .atomic o.op o.w ret o.ord o.scope (r.laneVal o.w a.lane o.c.r) (r.laneVal o.w a.lane o.e.r)

/-- Bytes of an atomic's element. -/
def atomBytes (w : Bool) : Nat := if w then 8 else 4

/-- `atom` and `atomn` (R230): an empty mask does nothing. -/
def Ctx.atomic (c : Ctx) (i : Instr) (o : AtomOpnd) (ret : Bool) : State :=
  if c.active o.g = 0 then c.done c.rope 16
  else
    c.spanAccess i (c.active o.g) o.a (c.rope.spanOff o.off o.imm.toInt) (atomBytes o.w) (pATOM + pLD + pST) (fun _ => []) true
      true true ret (c.rope.peerAtom o ret) fun c accs => c.atomFinish o ret accs

/-- `atom` (R230). -/
def execAtom (o : AtomOpnd) (s : State) : Out := s.issue fun c => c.atomic (.atom o) o true

/-- `atomn` (R230). -/
def execAtomn (o : AtomOpnd) (s : State) : Out := s.issue fun c => c.atomic (.atomn o) o false

/-! ### MX blocks (R232) -/

/-- Packed words of a block (R232). -/
def mxWords (fmt : Elem) : Nat := if fmt.bits = 4 then 4 else 8

/-- Bits of a packed word that hold elements. -/
def mxWordBits (fmt : Elem) : Nat := if fmt.bits = 6 then 24 else 32

/-- Bytes of a block's elements. -/
def mxBytes (fmt : Elem) : Nat := 4 * fmt.bits

/-- The two accesses of an MX card: the elements and the scale, by lane `l`. -/
def Ctx.mxAccs (c : Ctx) (m : SpanOp) (fmt : Elem) (sc : RSrc) (l : Nat) : List Acc :=
  let q := c.rope.quad l m.a.r.toNat
  [accOf l q (c.rope.spanOff m.off m.imm.toInt l) (mxBytes fmt), accOf (32 + l) q (c.rope.x l sc.r.toNat).toNat 1]

/-- The checks of an MX card in lane `l`: R224 for the elements, then for the scale (R232). -/
def Ctx.mxSteps (c : Ctx) (m : SpanOp) (fmt : Elem) (sc : RSrc) (perm l : Nat) : List (Bool × Cause) :=
  let q := c.rope.quad l m.a.r.toNat
  let t := c.rope.tag l m.a.r.toNat
  c.spanSteps q t (capHas q perm) (c.rope.spanOff m.off m.imm.toInt l) (mxBytes fmt) 8
    ++ c.spanSteps q t (capHas q perm) ((c.rope.x l sc.r.toNat).toNat : Int) 1 1

/-- The offset that TINFO shows for a failing check of an MX card: of the scale when the elements passed. -/
def Ctx.mxOff (c : Ctx) (m : SpanOp) (fmt : Elem) (sc : RSrc) (perm l : Nat) : Int :=
  let q := c.rope.quad l m.a.r.toNat
  let off := c.rope.spanOff m.off m.imm.toInt l
  if firstCause (c.spanSteps q (c.rope.tag l m.a.r.toNat) (capHas q perm) off (mxBytes fmt) 8) = none
  then ((c.rope.x l sc.r.toNat).toNat : Int) else off

/-- `ldmx` behind the gate (R232). -/
def Ctx.ldmxFinish (c : Ctx) (m : SpanOp) (fmt : Elem) (d : BitVec 8) (sc : RSrc) (accs : List Acc) : State :=
  let active := c.active m.g
  let v := leNat (((accs.head?).map c.read).getD [])
  let scale := leNat (((accs[1]?).map c.read).getD [])
  let w := mxWordBits fmt
  let r := c.rope.useAll active (spanUsed m.a m.off ++ [(sc, 1)])
  let r := r.writeEach active fun l =>
    Fx.pair d ((if l < mxWords fmt then fieldOf v (w * l) w else 0) + scale * 2 ^ 32)
  c.done (r.sees (c.s.shown accs)) 12

/-- `ldmx` (R232). -/
def execLdmx (m : SpanOp) (fmt : Elem) (d : BitVec 8) (sc : RSrc) (s : State) : Out :=
  s.issue fun c =>
    let active := c.active m.g
    if active = 0 then c.done c.rope 12
    else
      let l := lowLane active
      match if c.checked then none else firstCause (c.mxSteps m fmt sc pLD l) with
      | some cause => c.trapOff cause (withBit 0 l true) (c.mxOff m fmt sc pLD)
      | none => c.gate (.ldmx m fmt d sc) (c.mxAccs m fmt sc l) false true false true (fun a => .load a.n) fun c =>
          c.ldmxFinish m fmt d sc (c.mxAccs m fmt sc l)

/-- The element bytes that `stmx` writes, from the words of its lanes (R232). -/
def Rope.mxData (p : Rope) (fmt : Elem) (d : BitVec 8) : List Byte :=
  let w := mxWordBits fmt
  leBytes (mxBytes fmt) ((List.range (mxWords fmt)).foldl (fun v l => v + (p.x l d.toNat).toNat % 2 ^ w * 2 ^ (w * l)) 0)

/-- The scale byte that `stmx` writes: lane 0's (R232). -/
def Rope.mxScale (p : Rope) (d : BitVec 8) : List Byte := [(p.x 0 (d.toNat + 1)).extractLsb' 0 8]

/-- `stmx` (R232): every lane that holds a word must be active, else PARTIAL_MASK. -/
def execStmx (m : SpanOp) (fmt : Elem) (d : BitVec 8) (sc : RSrc) (s : State) : Out :=
  s.issue fun c =>
    let active := c.active m.g
    if active = 0 then c.done c.rope 12
    else
      let l := lowLane active
      match firstCause (c.mxSteps m fmt sc pST l) with
      | some cause => c.trapOff cause (withBit 0 l true) (c.mxOff m fmt sc pST)
      | none =>
        if (List.range (mxWords fmt)).any fun j => !(active.getLsbD j) then c.trap .partialMask c.entry.mask c.entry.mask.toNat
        else
          let data (a : Acc) : List Byte := if a.key < 32 then c.rope.mxData fmt d else c.rope.mxScale d
          c.gate (.stmx m fmt d sc) (c.mxAccs m fmt sc l) true false false false (fun a => .store (data a) none) fun c =>
            let s := (c.mxAccs m fmt sc l).foldl (fun (s : State) a =>
              s.laneStore (dieOf c.party.core) c.rope.writer a.addr (data a)) c.s
            (c.stored s).done (c.rope.useAll active (spanUsed m.a m.off ++ [(sc, 1)])) 12

/-! ### Prefetch, fence, write-back, code (R233 to R236) -/

/-- The lines that `pref` considers in a lane: of `n` from the one that holds the offset, those with a byte inside the bounds
(R233). -/
def prefLines (cap : Quad) (off : Nat) (n : Nat) : List Nat :=
  ((List.range n).map (((capBase cap + off) / 128) + ·)).filter fun ln => decide (ln * 128 < capBase cap + capLen cap)

/-- Whether a lane's `pref` passes its checks (R233). -/
def Ctx.prefOk (c : Ctx) (m : SpanOp) (l : Nat) : Bool :=
  let q := c.rope.quad l m.a.r.toNat
  let off := c.rope.spanOff m.off m.imm.toInt l
  firstCause (c.s.useSteps c.party.colour q (c.rope.tag l m.a.r.toNat)) == none
    && (capHas q pLD || capHas q pVIEW) && decide (0 ≤ off) && decide (off < capLen q)

/-- `pref` (R233): far pages that are not resident are asked for; nothing else changes. -/
def execPref (m : SpanOp) (nm1 : BitVec 6) (s : State) : Out :=
  s.issue fun c =>
    let active := c.active m.g
    let lanes := (lanesOf active).filter (c.prefOk m)
    let pages := lanes.flatMap fun l =>
      (prefLines (c.rope.quad l m.a.r.toNat) (c.rope.spanOff m.off m.imm.toInt l).toNat (nm1.toNat + 1)).flatMap fun ln =>
        c.s.shutPages false (ln * 128) 128
    let s := c.s.askAll false c.party.colour pages.eraseDups
    { c with s := s }.done (c.rope.useAll active (spanUsed m.a m.off)) 12

/-- Scopes that act as one (R230). -/
def sameScope (a b : Scope) : Bool :=
  match a, b with
  | .team, .party => true
  | .party, .team => true
  | _, _ => a == b

/-- `fence` (R234, R302): an acquire of what the rope's reads have shown and of the scope's earlier fences, then a release for the
rope's later accesses and for later fences. The pipe holds it back while a store or `atomn` of the rope at a peer has not performed
(Ctx.blocked). -/
def execFence (sc : Scope) (s : State) : Out :=
  s.issue fun c =>
    let r := c.rope.acquireAt c.home sc
      ((c.rope.seen.filter fun p => p.servesFence sc) ++ c.s.fences.filter fun p => sameScope p.scope sc)
    let x := r.release
    let pub : Pub := ⟨.fence, x.1.agent, some c.home, sc, x.2⟩
    let r := { x.1 with fenced := pub :: x.1.fenced.filter fun p => !(sameScope p.scope sc) }
    let older := c.s.fences.filter fun p => !(p.agent == pub.agent && sameScope p.scope sc)
    { c with s := { c.s with fences := pub :: older } }.done r 8

/-- The range that `iinv` or `clwb` names by lane `l`: the address and the length. -/
def Ctx.rangeOf (c : Ctx) (m : SpanOp) (x : RSrc) (l : Nat) : Nat × Nat :=
  (((capBase (c.rope.quad l m.a.r.toNat) : Int) + c.rope.spanOff m.off m.imm.toInt l).toNat, (c.rope.x l x.r.toNat).toNat)

/-- The checks of `iinv` and `clwb` by lane `l`: R198 steps 1 to 6, without step 6 for a length of 0 (R235, R236). -/
def Ctx.rangeCheck (c : Ctx) (m : SpanOp) (x : RSrc) (p1 p2 l : Nat) : Option Cause :=
  let q := c.rope.quad l m.a.r.toNat
  let n := (c.rope.x l x.r.toNat).toNat
  let off := c.rope.spanOff m.off m.imm.toInt l
  let steps := c.spanSteps q (c.rope.tag l m.a.r.toNat) (capHas q p1 || capHas q p2) off n 1
  firstCause (if n = 0 then steps.take 5 else steps)

/-- Runs `iinv` or `clwb`: once for the rope, on lane L's range (R235, R236). -/
def Ctx.onRange (c : Ctx) (m : SpanOp) (x : RSrc) (p1 p2 : Nat) (f : State → Nat → Nat → State) : State :=
  let active := c.active m.g
  if active = 0 then c.done c.rope 12
  else
    let l := lowLane active
    match c.rangeCheck m x p1 p2 l with
    | some cause => c.trapOff cause (withBit 0 l true) (c.rope.spanOff m.off m.imm.toInt)
    | none =>
      let r := c.rangeOf m x l
      let s := c.done (c.rope.useAll active (spanUsed m.a m.off ++ [(x, 1)])) 12
      if r.2 = 0 then s else f s r.1 r.2

/-- Drops a range of code from the instruction caches and fetch buffers of a die, or of every healthy die (R236, R408). -/
def State.dropCode (s : State) (dies : List Nat) (a n : Nat) : State :=
  let dies := dies.filter fun d => !((s.die d).fenced)
  let hit (x : Nat) : Bool := decide (a ≤ x + 3) && decide (x < a + n)
  { s with
    icache := s.icache.filter fun e => !(dies.elem (e.1 / 2 ^ 48) && hit (e.1 % 2 ^ 48))
    parties := s.parties.map fun p =>
      if dies.elem (dieOf p.core) then
        { p with ropes := p.ropes.map fun r => { r with fbuf := r.fbuf.filter fun e => !(hit e.1) } }
      else p }

/-- `iinv` (R236). -/
def execIinv (m : SpanOp) (x : RSrc) (pkg : Bool) (s : State) : Out :=
  s.issue fun c =>
    c.onRange m x pEXEC pST fun s a n => s.dropCode (if pkg then [0, 1, 2, 3] else [dieOf c.party.core]) a n

/-- `isync` (R236). -/
def execIsync (s : State) : Out := s.issue fun c => c.done { c.rope with fbuf := [] } 8

/-- Writes the dirty lines of a range back to their home tier; with `inv` the lines leave L2 and lose their race records, but for a
line that a stash holds (R138, R235, R310). -/
def State.writeBack (s : State) (inv : Bool) (a n : Nat) : State :=
  let hit (ln : Nat) : Bool := decide (a < ln * 128 + 128) && decide (ln * 128 < a + n)
  let clean (r : PageRec) : PageRec := r.sendHome s.poison hit
  { s with
    pages := s.pages.map fun e => (e.1, e.2.map clean)
    race := if inv then s.race.filter fun e => !(hit (e.1 / 8)) || s.inStash (e.1 / 8) else s.race }

/-- `clwb` (R235). -/
def execClwb (m : SpanOp) (x : RSrc) (inv : Bool) (s : State) : Out :=
  s.issue fun c => c.onRange m x pLD pST fun s a n => s.writeBack inv a n

end Sys2Proof.Machine
end

