-- ==== Sys2Proof/Machine/ScratchCards.lean ====
section
/-!
DEFINITION. The scratch cards (R142 to R146): `lds`, `sts`, `atms` on private and stash pages, `smap`, `sunmap`, `sflush`.
-/
namespace Sys2Proof.Machine

/-! ### Offsets and checks -/

/-- The exact scratch offset of lane `l` (file 06, Cards). -/
def Rope.scrOff (r : Rope) (o : ScrOff) (l : Nat) : Int :=
  (match o.a with
   | none => 0
   | some s => ((r.x l s.r.toNat).toNat : Int)) + o.imm.toInt

/-- The checks that a page makes of an access (R139): `wr` for a write, `need` a permission that a capability access needs. -/
def State.pageSteps (s : State) (p : Page) (wr : Bool) (need : Nat) : List (Bool × Cause) :=
  match p with
  | .priv => [(false, .capPerm), (false, .capPerm), (false, .revoked), (false, .revoked)]
  | .stash cap ro _ => [(wr && ro, .capPerm), (!(capHas cap need), .capPerm), (s.sweeping cap, .revoked), (false, .revoked)]
  | .dead cap ro _ => [(wr && ro, .capPerm), (!(capHas cap need), .capPerm), (false, .revoked), (true, .revoked)]

/-- Steps 1 to 3 of R142 in lane `l`. -/
def Ctx.scrSteps (c : Ctx) (o : ScrOff) (z : Nat) (wr : Bool) (need l : Nat) : List (Bool × Cause) :=
  let off := c.rope.scrOff o l
  [(decide (off < 0) || decide ((c.party.scratchSize : Int) < off + z), .capBounds), (off % z != 0, .misaligned)]
    ++ c.s.pageSteps (c.party.pageAt off.toNat) wr need

/-- The span access that a stash page makes of a scratch access (R138), or none in a private page. -/
def Party.stashAcc (p : Party) (l off z : Nat) : Option Acc :=
  match p.pageAt off with
  | .stash cap _ a => some ⟨l, (off : Int), a + off % 4096, z, capHas cap pCHECKED⟩
  | _ => none

/-- A lane and its scratch offset. -/
abbrev LaneOff := Nat × Nat

/-- The lanes of a mask with their offsets. -/
def Rope.laneOffs (r : Rope) (m : Word) (o : ScrOff) : List LaneOff := (lanesOf m).map fun l => (l, (r.scrOff o l).toNat)

/-- The span accesses of a scratch card. -/
def Party.stashAccs (p : Party) (z : Nat) (l : List LaneOff) : List Acc := l.filterMap fun x => p.stashAcc x.1 x.2 z

/-- The private accesses that carry poison (R142 step 5). -/
def Party.poisonAccs (p : Party) (z : Nat) (l : List LaneOff) : List Acc :=
  (l.filter fun x => isPriv (p.pageAt x.2) && p.spoisoned x.2 z).map fun x => ⟨x.1, (x.2 : Int), 0, z, false⟩

/-- A scratch access of `z` bytes in each active lane (R142): the checks, the gate of the stash lanes, then `k`. -/
def Ctx.scrAccess (c : Ctx) (i : Instr) (active : Word) (o : ScrOff) (z need : Nat) (extra : Nat → List (Bool × Cause))
    (wr rd atomic ret : Bool) (op : Acc → PeerOp) (k : Ctx → List LaneOff → State) : State :=
  let lanes := lanesOf active
  match if c.checked then none else checkLanes lanes fun l => c.scrSteps o z wr need l ++ extra l with
  | some x => c.trapOff x.1 x.2 (c.rope.scrOff o)
  | none =>
    let offs := c.rope.laneOffs active o
    let lines := offs.flatMap fun x => c.party.missing x.2 z
    let bad := if rd then c.party.poisonAccs z offs else []
    c.gateWith ⟨lines, bad⟩ i (c.party.stashAccs z offs) wr rd atomic ret op fun c => k c offs

/-! ### lds and sts -/

/-- The bytes that a lane reads: private, or the span's behind a stash page. Of the values that R141 lets an unsynchronised read of
another rope's byte return it is the last one written (log 2). -/
def Ctx.scrRead (c : Ctx) (x : LaneOff) (z : Nat) : List Byte :=
  match c.party.stashAcc x.1 x.2 z with
  | none => c.party.sbytes x.2 z
  | some a => c.read a

/-- The tag that a lane's capability load finds. -/
def Ctx.scrTag (c : Ctx) (x : LaneOff) : Bool :=
  match c.party.stashAcc x.1 x.2 16 with
  | none => NSet.has c.party.stag (x.2 / 16)
  | some a => !a.peer && c.s.tagAt a.addr

/-- The releases that a scratch read observes: in private scratch, and in the span behind stash pages. -/
def Ctx.scrShown (c : Ctx) (z : Nat) (offs : List LaneOff) : List Pub :=
  c.s.shown (c.party.stashAccs z offs) ++
    (offs.filter fun x => isPriv (c.party.pageAt x.2)).flatMap fun x => syncRead c.party.ssync x.2 z

/-- The hinted offset register of a scratch card. -/
def scrUsed (o : ScrOff) : List (RSrc × Nat) := o.a.toList.map fun s => (s, 1)

/-- `lds` behind the gate (R143); `.c` checks the capability loaded (R199). -/
def Ctx.ldsFinish (c : Ctx) (sz : Sz) (d : BitVec 8) (o : ScrOff) (offs : List LaneOff) : State :=
  let z := szBytes sz
  let val (x : LaneOff) : Nat := leNat (c.scrRead x z)
  let tag (x : LaneOff) : Bool := sz == .c && c.scrTag x
  let bad := offs.filter fun x => tag x && c.s.revoked (BitVec.ofNat 128 (val x))
  let mask (l : List LaneOff) : Word := l.foldl (fun m x => withBit m x.1 true) 0
  if bad ≠ [] then c.trapOff .revoked (mask bad) (c.rope.scrOff o)
  else
    let r := c.rope.useAll (mask offs) (scrUsed o)
    let r := offs.foldl (fun (r : Rope) x =>
      r.writeLane x.1 (loadFx sz d (val x) (c.s.tagFor (BitVec.ofNat 128 (val x)) (tag x)))) r
    c.done (r.sees (c.scrShown z offs)) 8

/-- `lds` (R143). -/
def execLds (sz : Sz) (g : Guard) (d : BitVec 8) (off : ScrOff) (s : State) : Out :=
  s.issue fun c =>
    c.scrAccess (.lds sz g d off) (c.active g) off (szBytes sz) (if sz = .c then pLDCAP else 0) (fun _ => []) false true false true
      (fun a => .load a.n) fun c offs => c.ldsFinish sz d off offs

/-- A lane's write: private bytes, or a store to the span behind a stash page, whose line becomes dirty. The tag of the granule is as
given. -/
def Ctx.scrWrite (c : Ctx) (w : Writer) (x : LaneOff) (bs : List Byte) (tag : Bool) : Ctx :=
  match c.party.stashAcc x.1 x.2 bs.length with
  | none =>
    let p := c.party.swrite w.atom w.pubs x.2 bs
    { c with party := { p with stag := if tag then NSet.set p.stag (x.2 / 16) true else p.stag } }
  | some a =>
    let s := c.s.laneStore (dieOf c.party.core) w a.addr bs
    { c with
      s := if tag && !a.peer && s.backedAt a.addr then s.setTagAt a.addr true else s
      party := { c.party with dirty := NSet.set c.party.dirty (x.2 / 128) true } }

/-- The further steps of `sts.c` (R195, R199). -/
def Ctx.stsSteps (c : Ctx) (sz : Sz) (o : ScrOff) (b : RSrc) (l : Nat) : List (Bool × Cause) :=
  let q := c.rope.quad l b.r.toNat
  let t := sz == .c && c.rope.tag l b.r.toNat
  [(t && c.s.revoked q, .revoked),
   (t && !(capHas q pGLOBAL) && !(isPriv (c.party.pageAt (c.rope.scrOff o l).toNat)), .capPerm)]

/-- `sts` (R143): the highest lane's bytes stand where lanes clash (R141). -/
def execSts (sz : Sz) (g : Guard) (off : ScrOff) (b : RSrc) (s : State) : Out :=
  s.issue fun c =>
    let active := c.active g
    c.scrAccess (.sts sz g off b) active off (szBytes sz) (if sz = .c then pSTCAP else 0) (c.stsSteps sz off b) true false false
      false (fun a => .store (c.rope.storeBytes sz a.lane b.r.toNat) none) fun c offs =>
        let c' := offs.foldl (fun (t : Ctx) x =>
          let q := c.rope.quad x.1 b.r.toNat
          t.scrWrite c.rope.writer x (c.rope.storeBytes sz x.1 b.r.toNat)
            (c.s.tagFor q (sz == .c && c.rope.tag x.1 b.r.toNat))) c
        (c'.done (c.rope.useAll active (scrUsed off ++ [(b, szRegs sz)])) 8).withParty c.uid Party.wakeCairns

/-! ### atms (R144) -/

/-- What `atms` does lane by lane: the context, the old values, the flags, the releases observed. -/
structure AtmsRun where
  c : Ctx
  old : List (Nat × Nat)
  flags : FFlags
  seen : List Pub

/-- One lane's update. -/
def AtmsRun.lane (t : AtmsRun) (o : AtmsOp) (w : Writer) (x : LaneOff) : AtmsRun :=
  let z := atomBytes o.w
  let r := t.c.rope
  let old := leNat (t.c.scrRead x z)
  let b := r.laneVal o.w x.1 o.b.r
  let y := atomValue o.op (8 * z) old b (r.laneVal o.w x.1 o.c.r) b
  ⟨t.c.scrWrite w x (leBytes z y.bits) false, t.old ++ [(x.1, old)], t.flags ||| y.flags, t.c.scrShown z [x] ++ t.seen⟩

/-- `atms` behind the gate: in ascending lane order, each lane sees the results of those before it (R144). -/
def Ctx.atmsFinish (c : Ctx) (o : AtmsOp) (offs : List LaneOff) : State :=
  let x := c.atomRelease o.ord .party
  let w : Writer := ⟨c.rope.agent, c.rope.rel, true, x.2 ++ c.rope.fenced⟩
  let run := offs.foldl (fun t x => AtmsRun.lane t o w x) ⟨c, [], 0, []⟩
  let r := c.atomAcquire x.1 o.ord .party run.seen
  let more := (o.b, width o.w) :: (if o.op = .cas then [(o.c, width o.w)] else [])
  let r := r.useAll (c.active o.g) (scrUsed o.off ++ more)
  let r := (run.old.foldl (fun (r : Rope) y => r.writeLane y.1 (Fx.out o.w o.d y.2)) r).orFpst run.flags
  (run.c.done r 12).withParty c.uid Party.wakeCairns

/-- `atms` (R144): an empty mask does nothing. -/
def execAtms (o : AtmsOp) (s : State) : Out :=
  s.issue fun c =>
    if c.active o.g = 0 then c.done c.rope 12
    else
      c.scrAccess (.atms o) (c.active o.g) o.off (atomBytes o.w) 0 (fun _ => []) true true true true
        (fun a => .atomic o.op o.w true o.ord .party (c.rope.laneVal o.w a.lane (if o.op = .cas then o.c.r else o.b.r))
          (c.rope.laneVal o.w a.lane o.b.r))
        fun c offs => c.atmsFinish o offs

/-! ### smap, sunmap, sflush (R145, R146) -/

/-- Where a job delivers into scratch: its destination, and its cairn word (R140). -/
def Job.into (j : Job) : List Foot := j.writes ++ j.cairn.toList.map fun c => ⟨some c.uid, 8 * c.idx, 8 * c.idx + 8⟩

/-- Whether a job of the party still delivers into a range of its scratch (R140). -/
def State.jobsInto (s : State) (uid lo hi : Nat) : Bool := s.jobs.any fun j => j.into.any fun f => f.meets ⟨some uid, lo, hi⟩

/-- Whether a line, half-line or granule number of `z` bytes lies in pages `q` to `q + n − 1`. -/
def inPages (q n z x : Nat) : Bool := decide (q * 4096 ≤ x * z) && decide (x * z < (q + n) * 4096)

/-- The private contents of some pages are discarded: zero, untagged, without poison or backing (R135, R137). -/
def Party.discard (p : Party) (q n : Nat) : Party :=
  { p with
    scratch := p.scratch.filter fun e => !(inPages q n 1 e.1)
    stag := p.stag.filter fun g => !(inPages q n 16 g)
    spoison := p.spoison.filter fun h => !(inPages q n 64 h)
    backed := p.backed.filter fun ln => !(inPages q n 128 ln)
    ssync := p.ssync.filter fun e => !(inPages q n 128 e.1) }

/-- Dirty lines of stash pages are written back (R146): the span holds their bytes already, so they are dirty no longer. -/
def Party.flushPages (p : Party) (q n : Nat) : Party := { p with dirty := p.dirty.filter fun ln => !(inPages q n 128 ln) }

/-- Stash pages, live or dead, among some pages are unbound: private, zero, untagged (R146). -/
def Party.unmap (p : Party) (q n : Nat) : Party :=
  let p := p.flushPages q n
  { p with
    pages := p.pages.filter fun e => !(decide (q ≤ e.1) && decide (e.1 < q + n))
    present := p.present.filter fun ln => !(inPages q n 128 ln) }

/-- Pages are bound to a capability and an address, no line present (R145). -/
def Party.bindPages (p : Party) (cap : Quad) (ro : Bool) (a : Nat) (q n : Nat) : Party :=
  let p := (p.unmap q n).discard q n
  { p with pages := (List.range n).foldl (fun m k => SMap.set .priv m (q + k) (.stash cap ro (a + 4096 * k))) p.pages }

/-- The check of a scratch range of `n` pages at an offset (R145, R146). -/
def Party.pagesBad (p : Party) (off n : Nat) : Bool := off % 4096 != 0 || decide (p.scratchSize < off + 4096 * n)

/-- The checks of `smap` on the capability, by lane L (R145). -/
def Ctx.smapSteps (c : Ctx) (o : SmapOp) (l : Nat) : List (Bool × Cause) :=
  let n := 4096 * (o.nm1.toNat + 1)
  let cap := c.rope.quad l o.a.r.toNat
  let off := (c.rope.x64 l o.b.r.toNat).toNat
  c.s.useSteps c.party.colour cap (c.rope.tag l o.a.r.toNat) ++
    [(!(capHas cap pLD) || (!o.ro && !(capHas cap pST)) || namesView (capBase cap) (capLen cap), .capPerm),
     (decide (capLen cap < off + n), .capBounds), ((capBase cap + off) % 128 != 0, .misaligned)]

/-- `smap` (R145). -/
def execSmap (o : SmapOp) (s : State) : Out :=
  s.issue fun c =>
    let active := c.active o.g
    if active = 0 then c.done c.rope 12
    else
      let l := lowLane active
      let n := o.nm1.toNat + 1
      let off := (c.rope.x l o.c.r.toNat).toNat
      let so := (c.rope.x64 l o.b.r.toNat).toNat
      let cap := c.rope.quad l o.a.r.toNat
      if c.party.pagesBad off n then c.trap .capBounds (withBit 0 l true) off
      else
        match firstCause (c.smapSteps o l) with
        | some cause => c.trap cause (withBit 0 l true) so
        | none =>
          if c.s.jobsInto c.uid off (off + 4096 * n) then c.wait .pages
          else
            let p := c.party.bindPages cap o.ro (capBase cap + so) (off / 4096) n
            { c with party := p }.done (c.rope.useAll active [(o.a, 4), (o.b, 2), (o.c, 1)]) 12

/-- Runs `sunmap` or `sflush` on the pages that lane L names (R146). -/
def Ctx.onPages (c : Ctx) (nm1 : BitVec 4) (g : Guard) (a : RSrc) (f : Party → Nat → Nat → Party) : State :=
  let active := c.active g
  if active = 0 then c.done c.rope 8
  else
    let l := lowLane active
    let n := nm1.toNat + 1
    let off := (c.rope.x l a.r.toNat).toNat
    if c.party.pagesBad off n then c.trap .capBounds (withBit 0 l true) off
    else if c.s.jobsInto c.uid off (off + 4096 * n) then c.wait .pages
    else { c with party := f c.party (off / 4096) n }.done (c.rope.useAll active [(a, 1)]) 8

/-- `sunmap` (R146): private pages among the N are untouched. -/
def execSunmap (nm1 : BitVec 4) (g : Guard) (a : RSrc) (s : State) : Out :=
  s.issue fun c => c.onPages nm1 g a Party.unmap

/-- `sflush` (R146). -/
def execSflush (nm1 : BitVec 4) (g : Guard) (a : RSrc) (s : State) : Out :=
  s.issue fun c => c.onPages nm1 g a Party.flushPages

end Sys2Proof.Machine
end

