-- ==== Sys2Proof/Machine/Spawns.lean ====
section
/-!
DEFINITION. Work that device code starts (R330 to R332, R338): `spawn`, `joinc`, `qpush`, and the record slots that they wait for.
-/
namespace Sys2Proof.Machine

/-! ### Join words (R330) -/

/-- COUNT and HOLD of a join word after `joinc` (R332). -/
def joinWord (v : Nat) : Nat :=
  let c := v % 2 ^ 32
  let h := v / 2 ^ 32
  if c = 0 then v else if c = 1 then 0 else h * 2 ^ 32 + (c - 1)

/-- The record that `joinc` releases from a join word, or none. -/
def joinRelease (v : Nat) : Option Nat := if v % 2 ^ 32 = 1 ∧ v / 2 ^ 32 ≠ 0 then some (v / 2 ^ 32 - 1) else none

/-- What `spawn.hold` finds at a join word: no join is awaited; another record is held; or the word is free. -/
inductive HoldAt where
  | ready
  | busy
  | held
deriving DecidableEq, Repr

/-- What a word that reads `v` is to a `spawn.hold`. -/
def holdAt (v : Nat) : HoldAt := if v % 2 ^ 32 = 0 then .ready else if v / 2 ^ 32 ≠ 0 then .busy else .held

/-- HOLD set to a record's id. -/
def holdWord (v id : Nat) : Nat := v % 2 ^ 32 + (id + 1) * 2 ^ 32

/-! ### Records (R326, R331) -/

/-- Changes a launch. -/
def State.withLaunch (s : State) (id : Nat) (f : Launch → Launch) : State :=
  { s with launches := s.launches.map fun (x : Launch) => if x.id = id then f x else x }

/-- A record joins the tail of its launch's list; placement offers it to every core (log 28). A launch that has lost parties with a die
places no further party, and takes no record (R329). -/
def State.appendRecord (s : State) (launch : Nat) (r : ContRec) : State :=
  let s := s.withLaunch launch fun x => if x.dieLost then x else { x with records := x.records ++ [r] }
  s.rewave fun q => (s.launch? launch).any fun (x : Launch) => x.queue == q

/-- The launch of a record that is held on a join word (R332). -/
def State.heldOn (s : State) (id join : Nat) : Option (Launch × ContRec) :=
  s.launches.findSome? fun (x : Launch) => (x.records.find? fun r => r.id == id && r.held && r.join == some join).map fun r => (x, r)

/-- The record held on a join word joins its launch's list; its parties acquire what released it (R332). -/
def State.releaseHeld (s : State) (id join : Nat) (k : Know) : State :=
  match s.heldOn id join with
  | none => s
  | some (x, r) =>
    let s := s.withLaunch x.id fun x => { x with records := x.records.filter fun y => y.id != id }
    s.appendRecord x.id { r with held := false, know := r.know.join k }

/-- Takes a record out of the table. -/
def State.freeRec (s : State) (launch id : Nat) : State :=
  s.withLaunch launch fun x => { x with records := x.records.filter fun y => y.id != id }

/-! ### spawn (R331) -/

/-- The span address of the join word. -/
def Ctx.joinAddr (c : Ctx) (o : SpawnOp) (l : Nat) : Nat := capBase (c.rope.quad l o.b.r.toNat) + (c.rope.s64 (o.c.toNat + 2)).toNat

/-- Whether the descriptor is one of the bad ones: an entry that does not exist or could not be placed, a party count out of range. -/
def Ctx.spawnBad (c : Ctx) (o : SpawnOp) : Bool :=
  let d := (c.rope.s o.c.toNat).toNat
  let n := (c.rope.s (o.c.toNat + 1)).toNat
  match c.s.launch? c.party.launch with
  | none => true
  | some x =>
    match (c.s.objects.find? fun (y : ObjRec) => y.handle == x.object).bind fun (y : ObjRec) => y.entries[d % 65536]? with
    | none => true
    | some e => d / 65536 != 0 || n == 0 || decide (65535 < n) || !(c.s.placeableEntry x.queue e (x.place.getD (d % 65536) []))

/-- A mark for a record whose join word lies at a peer that has not yet answered: no address, and another for every instruction in
flight. -/
def Ctx.joinMark (c : Ctx) : Nat := 2 ^ 48 * (1 + c.uid * 32 + c.k) + c.entry.pc.toNat

/-- The record that a `spawn` makes (R331). -/
def Ctx.spawned (c : Ctx) (o : SpawnOp) (l id : Nat) (join : Option Nat) (held : Bool) (k : Know) : ContRec :=
  ContRec.mk' id ((c.rope.s o.c.toNat).toNat % 65536) (c.rope.s (o.c.toNat + 1)).toNat (.captured (c.rope.quad l o.a.r.toNat) true) join
    held k

/-- `spawn` ends with a status in D, its hinted sources used. -/
def Ctx.spawnEnd (c : Ctx) (o : SpawnOp) (r : Rope) (status : Nat) : State :=
  c.done ((r.useAll (c.active o.g) [(o.a, 4), (o.b, 4)]).setS o.d.toNat (BitVec.ofNat 32 status)) 12

/-- `spawn.hold` at a join word that read `v`: the record is ready, is refused, or is held there. -/
def Ctx.spawnHold (c : Ctx) (o : SpawnOp) (l id v : Nat) : State :=
  let x := c.rope.release
  let a := c.joinAddr o l
  let k := x.2
  match holdAt v with
  | .ready => ({ c with s := c.s.appendRecord c.party.launch (c.spawned o l id none false k) }).spawnEnd o x.1 id
  | .busy => c.spawnEnd o x.1 0xFFFFFFFC
  | .held =>
    let s := c.s.appendRecord c.party.launch (c.spawned o l id (some a) true k)
    let w : Writer := ⟨c.rope.agent, c.rope.rel, true, c.rope.fenced⟩
    (c.stored (s.laneStore (dieOf c.party.core) w a (leBytes 8 (holdWord v id)))).spawnEnd o x.1 id

/-- `spawn` behind the gate: the descriptor, the table, the record; a `hold` at a peer that met a full table begins again. -/
def Ctx.spawnFinish (c : Ctx) (o : SpawnOp) (l : Nat) : State :=
  let a := c.joinAddr o l
  if c.spawnBad o then c.spawnEnd o c.rope.release.1 0xFFFFFFFD
  else
    match c.s.freeRecord with
    | none => if o.nw then c.spawnEnd o c.rope.release.1 0xFFFFFFFF else c.wait .recordSlot
    | some id =>
      if o.hold ∧ isPeer a = true then c.wait .recordSlot
      else if o.hold then ({ c with rope := c.rope.sees (syncRead c.s.sync a 8) }).spawnHold o l id (c.s.num a 8)
      else
        let x := c.rope.release
        ({ c with s := c.s.appendRecord c.party.launch (c.spawned o l id none false x.2) }).spawnEnd o x.1 id

/-- The checks of `spawn` in lane `l`: of the frame quad. -/
def Ctx.spawnFrame (c : Ctx) (o : SpawnOp) (l : Nat) : Option Cause :=
  let q := c.rope.quad l o.a.r.toNat
  firstCause (c.s.useSteps c.party.colour q (c.rope.tag l o.a.r.toNat) ++ [(!(capHas q (pLD + pLDCAP + pGLOBAL)), .capPerm)])

/-- The checks of `spawn` in lane `l`: of the join quad at its offset. -/
def Ctx.spawnJoin (c : Ctx) (o : SpawnOp) (l : Nat) : Option Cause :=
  let q := c.rope.quad l o.b.r.toNat
  firstCause (c.spanSteps q (c.rope.tag l o.b.r.toNat) (capHas q (pATOM + pGLOBAL)) (c.rope.s64 (o.c.toNat + 2)).toNat 8 8)

/-- The record that stands in the table for a `spawn.hold` whose peer is to answer. -/
def Ctx.spawnMark (c : Ctx) : Option ContRec :=
  (c.s.launch? c.party.launch).bind fun (x : Launch) => x.records.find? fun r => r.join == some c.joinMark

/-- The access of `spawn` to its join word: for `hold`, an update with the record that is then to be held. A record that stands for an
update at a peer leaves the table when the answer has come, so that a trap leaves the table unchanged. -/
def Ctx.spawnGate (c : Ctx) (o : SpawnOp) (l : Nat) : State :=
  let acc := accOf l (c.rope.quad l o.b.r.toNat) (c.rope.s64 (o.c.toNat + 2)).toNat 8
  match c.spawnMark with
  | some r =>
    ({ c with s := c.s.freeRec c.party.launch r.id }).gate (.spawn o) [acc] true true true true (fun _ => .hold r.id) fun c =>
      c.spawnHold o l r.id (leNat (c.read acc))
  | none =>
  match (if o.hold && !(c.spawnBad o) then c.s.freeRecord else none) with
  | none => c.gate (.spawn o) [acc] false true false true (fun a => .load a.n) fun c => c.spawnFinish o l
  | some id =>
    let c :=
      if acc.peer && c.s.routed (peerOf acc.addr) && !c.resumed then
        { c with s := c.s.withLaunch c.party.launch fun y =>
            { y with records := y.records ++ [c.spawned o l id (some c.joinMark) true Know.none] } }
      else c
    c.gate (.spawn o) [acc] true true true true (fun _ => .hold id) fun c => c.spawnFinish o l

/-- `spawn` (R331). -/
def execSpawn (o : SpawnOp) (s : State) : Out :=
  s.issue fun c =>
    let active := c.active o.g
    if active = 0 then c.done (c.rope.setS o.d.toNat 0xFFFFFFFE#32) 12
    else
      let l := lowLane active
      if c.resumed then c.spawnGate o l
      else
        match c.spawnFrame o l with
        | some e => c.trapFree e (withBit 0 l true)
        | none =>
          match c.spawnJoin o l with
          | some e => c.trapOff e (withBit 0 l true) fun _ => ((c.rope.s64 (o.c.toNat + 2)).toNat : Int)
          | none => c.spawnGate o l

/-- RECORD_SLOT_FREE (R331, R324): a slot of the record table is free; a launch that waits makes its record, or a rope that waits in
`spawn` issues it again. -/
def execRecordSlotFree (forLaunch : Bool) (a k pos : Nat) (s : State) : Out :=
  .next <|
    match s.freeRecord with
    | none => s
    | some id =>
      if forLaunch then
        match s.launch? a with
        | none => s
        | some x =>
          match x.first with
          | none => s
          | some r => ({ s with launches := s.launches.map fun (y : Launch) => if y.id = a then { y with first := none } else y }).appendRecord a
              { r with id := id }
      else s.wakeSlot a k pos fun w => w == .recordSlot

/-! ### joinc (R332) -/

/-- The offset of `joinc` in lane `l`. -/
def Ctx.joincOff (c : Ctx) (o : JoincOp) (l : Nat) : Int :=
  (match o.b with
   | none => 0
   | some b => ((c.rope.x l b.r.toNat).toNat : Int)) + 8 * o.imm.toNat

/-- `joinc` at a word that read `v`, an `.ar` atomic at package scope. -/
def Ctx.joincFinish (c : Ctx) (o : JoincOp) (a : Acc) : State :=
  let active := c.active o.g
  let v := if a.peer then leNat (c.read a) else c.s.num a.addr 8
  let x := c.atomRelease .ar .pkg
  let w : Writer := ⟨c.rope.agent, c.rope.rel, true, x.2 ++ c.rope.fenced⟩
  let r := c.atomAcquire x.1 .ar .pkg (if a.peer then [] else syncRead c.s.sync a.addr 8)
  let s := if a.peer then c.s else c.s.laneStore (dieOf c.party.core) w a.addr (leBytes 8 (joinWord v))
  let s := match joinRelease v with
    | none => s
    | some id => s.releaseHeld id a.addr (r.know.learn r.agent r.rel)
  let r := r.useAll active ((o.a, 4) :: (o.b.toList.map fun b => (b, 1)))
  (c.stored s).done (r.writeEach active fun _ => Fx.word o.d (v % 2 ^ 32)) 8

/-- `joinc` (R332). -/
def execJoinc (o : JoincOp) (s : State) : Out :=
  s.issue fun c =>
    let active := c.active o.g
    if active = 0 then c.done c.rope 8
    else
      let l := lowLane active
      let q := c.rope.quad l o.a.r.toNat
      let off := c.joincOff o l
      match if c.checked then none else
        firstCause (c.spanSteps q (c.rope.tag l o.a.r.toNat) (capHas q (pATOM + pLD + pST)) off 8 8) with
      | some e => c.trapOff e (withBit 0 l true) fun _ => off
      | none =>
        let a := accOf l q off 8
        c.gate (.joinc o) [a] true true true true (fun _ => .join) fun c => c.joincFinish o a

/-! ### qpush (R338) -/

/-- Whether a rope of a colour may push into a queue (R338). -/
def State.pushOk (s : State) (q colour : Nat) : Bool :=
  let r := s.queue q
  decide (q < 65536) && r.colour == colour && bitOf r.flags 1 && r.st != .free && r.st != .lost

/-- The far pages of the slot that a push into a queue writes (R284). -/
def State.pushShut (s : State) (q : Nat) : List Nat :=
  let r := s.queue q
  s.shutPages true (r.ring + 64 * (r.tail % 2 ^ r.rsize)) 64

/-- Whether the issuing `qpush` meets its queue's slot in a lost page (R286). -/
def Ctx.pushLost (c : Ctx) (o : QpushOp) : Bool :=
  (c.s.pushShut (c.rope.s o.a.toNat).toNat).any fun p => c.rope.lostPages.elem (c.entry.pc, p)

/-- `qpush` with its command's bytes read; `lost` gives what it does where the slot's page is lost. -/
def Ctx.qpushFinish (c : Ctx) (o : QpushOp) (b : List Byte) (lost : Option State) : State :=
  let q := (c.rope.s o.a.toNat).toNat
  let x := c.rope.release
  let fin (c : Ctx) (status : Nat) : Rope :=
    (c.rope.useAll (c.active o.g) (o.c.toList.map fun x => (x, 4))).setS o.d.toNat (BitVec.ofNat 32 status)
  if !(c.s.pushOk q c.party.colour) then c.done (fin { c with rope := x.1 } 2) 12
  else
    let r := c.s.queue q
    if r.head + 2 ^ r.rsize ≤ r.tail then c.done (fin { c with rope := x.1 } 1) 12
    else
      if c.s.pushShut q ≠ [] then lost.getD (c.parkOn (c.s.pushShut q) true false false)
      else
      let s := c.s.devStore (r.ring + 64 * (r.tail % 2 ^ r.rsize)) b
      let s := (s.setQueue q { r with tail := r.tail + 1, know := r.know.join x.2 }).refresh q
      (c.stored s).done (fin { c with rope := x.1 } 0) 12

/-- `qpush` from private scratch. -/
def Ctx.qpushScratch (c : Ctx) (o : QpushOp) (l : Nat) : State :=
  let m := withBit 0 l true
  let off := (c.rope.s64 o.b.toNat).toNat
  let at' (e : Cause) : State := c.trapOff e m fun _ => (off : Int)
  match firstCause [(decide (2 ^ 32 ≤ off), .capBounds), (decide (c.party.scratchSize < off + 64), .capBounds),
      (off % 64 != 0, .misaligned), (!(isPriv (c.party.pageAt off)), .capPerm)] with
  | some e => at' e
  | none =>
    match c.party.missing off 64 with
    | ln :: _ => c.wait (.refill ln)
    | [] => if c.party.spoisoned off 64 then at' .poisonConsumed else c.clearLost.qpushFinish o (c.party.sbytes off 64) (if c.pushLost o then some (at' .poisonConsumed) else none)

/-- `qpush` (R338). -/
def execQpush (o : QpushOp) (s : State) : Out :=
  s.issue fun c =>
    let active := c.active o.g
    if active = 0 then c.done (c.rope.setS o.d.toNat 3) 12
    else
      let l := lowLane active
      match o.c with
      | none => c.qpushScratch o l
      | some a =>
        let q := c.rope.quad l a.r.toNat
        let off : Int := (c.rope.s64 o.b.toNat).toNat
        match if c.checked then none else firstCause (c.spanSteps q (c.rope.tag l a.r.toNat) (capHas q pLD) off 64 64) with
        | some e => c.trapOff e (withBit 0 l true) fun _ => off
        | none =>
          let lost := if c.pushLost o then some (c.trapOff .poisonConsumed (withBit 0 l true) fun _ => off) else none
          c.readRec (.qpush o) l q off 64 fun c b => c.qpushFinish o b lost

end Sys2Proof.Machine
end

