-- ==== Sys2Proof/Machine/Parties.lean ====
section
/-!
DEFINITION. Saving and restoring a party (R357 to R367): who asks for a save, the save area's bytes, what a save keeps, and the restore.
-/
namespace Sys2Proof.Machine

/-! ### Requests for a save (R152, R285, R357) -/

/-- PARKLIM of a queue, in nanoseconds; none for no limit (R285). -/
def State.parkLimit (s : State) (q : Nat) : Option Nat :=
  let n := (s.queue q).parklim % 2 ^ 20
  if n = 0 then none else some (1000 * n)

/-- Whether a time since which something waits is past a queue's park limit. -/
def State.pastLimit (s : State) (q since : Nat) : Bool := (s.parkLimit q).any fun n => decide (since + n ≤ s.timer)

/-- Asks for the save of a placed party. -/
def State.askSave (s : State) (uid : Nat) (why : SaveReason) : State :=
  s.withParty uid fun p => if p.status = .placed then { p with status := .saving why } else p

/-- PARK_LIMIT_EXPIRY (R285): a rope's park has reached the limit. -/
def execParkLimitExpiry (uid rope : Nat) (s : State) : Out :=
  .next <|
    match s.party? uid with
    | none => s
    | some p =>
      if ((p.ropes[rope]?).bind Rope.park).any fun k => s.pastLimit p.queue k.since then s.askSave uid .park else s

/-- BARRIER_RECORD_WAIT_END (R152): a record is free for a `barinit` that waits, or it has waited past the park limit. -/
def execBarrierRecordWaitEnd (uid rope pos : Nat) (s : State) : Out :=
  .next <|
    match s.party? uid with
    | none => s
    | some p =>
      if s.barRecords p.core < 96 then s.wakeSlot uid rope pos fun w => match w with
        | .barRecord _ => true
        | _ => false
      else
        match ((p.ropes[rope]?).bind fun r => r.stack[pos]?).bind Entry.wait with
        | some (.barRecord t) => if s.pastLimit p.queue t then s.askSave uid .barRecord else s
        | _ => s

/-! ### The control stack in memory (R75, R78) -/

/-- An entry in R75's form. -/
def Entry.bits (e : Entry) : Nat :=
  (match e.kind with
   | .side => 0
   | .join => 2 ^ 127) + (if e.noRpc then 2 ^ 126 else e.rpc.toNat / 4 * 2 ^ 78) + e.pc.toNat / 4 * 2 ^ 32 + e.mask.toNat

/-- The entries of a rope below the top two, the deepest first, at 16 bytes each (R78). -/
def Rope.spilled (r : Rope) : List Byte := (r.stack.drop 2).reverse.flatMap fun e => leBytes 16 e.bits

/-- The control stack region of rope `k` of a party: 4 KiB × u (R78). -/
def Party.cstackOf (p : Party) (k : Nat) : Nat := p.cstackAt + k * (16 * (p.capacity - 2))

/-- The deeper entries of a party's ropes written to their regions. -/
def State.spillParty (s : State) (p : Party) : State :=
  (p.ropes.mapIdx fun k r => (p.cstackOf k, r.spilled)).foldl (fun (s : State) x => s.setBytes x.1 x.2) s

/-- What stands below the top two entries of every rope on a core, in its control stack region (R78): the regions follow every step. -/
def State.spill (s : State) : State :=
  s.parties.foldl (fun (s : State) p => match p.status with
    | .placed | .saving _ => s.spillParty p
    | _ => s) s

/-- The end of a step that leads from one state to another: an event whose writes would need more copy-on-write frames than there are has
not yet happened (R280); L2 holds no more than its size (R5), and the control stacks follow (R78). -/
def State.close (s t : State) : State := (if t.reserveOk || !s.reserveOk then t else { s with issuing := none }).fitL2.spill

/-! ### The save area (R363 to R365) -/

/-- KIND of a barrier entry (R364). -/
def BarKind.bits : BarKind → Nat
  | .unset => 0
  | .plain => 0
  | .red op ty => 1 + op.code * 2 ^ 4 + ty.code * 2 ^ 8
  | .drawt f o => 2 + f * 2 ^ 12 + o / 32 * 2 ^ 14

/-- The 16 bytes of barrier `b`'s entry (R364). -/
def Party.barBytes (p : Party) (b : Nat) : List Byte :=
  match p.bar? b with
  | none => List.replicate 16 0#8
  | some r => leBytes 4 (barStatus (some r)) ++ leBytes 4 r.mask.toNat ++ leBytes 4 r.kind.bits ++ leBytes 4 r.pending

/-- The stash pages of a party: the page, the mapping, whether it is dead. -/
def Party.stashPages (p : Party) : List (Nat × Quad × Bool × Nat × Bool) :=
  p.pages.filterMap fun e => match e.2 with
    | .priv => none
    | .stash q ro a => some (e.1, q, ro, a, false)
    | .dead q ro a => some (e.1, q, ro, a, true)

/-- The 32 bytes of a stash entry (R364). -/
def stashBytes (x : Nat × Quad × Bool × Nat × Bool) : List Byte :=
  leBytes 16 x.2.1.toNat ++ leBytes 8 x.2.2.2.1 ++ leBytes 2 x.1
    ++ leBytes 1 ((if x.2.2.1 then 1 else 0) + (if x.2.2.2.2 then 2 else 0)) ++ leBytes 5 0

/-- REASON (R363). -/
def SaveReason.code : SaveReason → Nat
  | .bucket => 1
  | .park => 2
  | .barRecord => 3

/-- The party header, barriers and stash entries (R363). -/
def Party.headBytes (p : Party) (why : SaveReason) : List Byte :=
  let st := p.stashPages
  leBytes 2 3 ++ leBytes 1 p.ropes.length ++ leBytes 1 why.code ++ leBytes 2 p.colour ++ leBytes 2 p.regs ++ leBytes 4 p.scratchSize
    ++ leBytes 4 p.index ++ leBytes 4 p.launch ++ leBytes 2 p.queue ++ leBytes 2 st.length ++ leBytes 8 p.cstackAt
    ++ leBytes 16 p.code.toNat ++ leBytes 8 p.backingAt ++ leBytes 72 0 ++ (List.range 96).flatMap p.barBytes ++ st.flatMap stashBytes

/-- The barrier and phase that a rope waits for after its arrival (R358). -/
def Rope.arrived (r : Rope) : Option (Nat × Nat) :=
  match r.stack.findSome? (fun e => match e.wait with
    | some (.phase b ph _ _) => some (b, ph)
    | _ => none) with
  | some x => some x
  | none => (r.drawtWait.head?).map fun w => (w.bar, w.ph)

/-- The teams of rope `k`, in ascending order (R147). -/
def Party.teamsOf (p : Party) (k : Nat) : List Nat := (p.teams.filter fun t => t.2.getLsbD k).map Prod.fst

/-- The RING field of a rope record (R365). -/
def ringBytes (b : Option RingBind) : List Byte :=
  match b with
  | none => List.replicate 64 0#8
  | some b => leBytes 16 b.desc.toNat ++ leBytes 16 b.slots.toNat ++ leBytes 4 b.geom.toNat ++ leBytes 1 (b.cairn.getD 0)
      ++ leBytes 1 b.inc ++ leBytes 1 (1 + (if b.cairn.isNone then 2 else 0)) ++ leBytes 25 0

/-- The partial that a waiting team-scope `red` of rope `k` carries (R365). -/
def Party.partialOf (p : Party) (k : Nat) (w : Option (Nat × Nat)) : Nat :=
  match w.bind fun x => p.bar? x.1 with
  | none => 0
  | some b => ((SMap.get none b.partials k).map BitVec.toNat).getD 0

/-- The first 512 bytes of rope `k`'s record (R365). -/
def Party.ropeHead (p : Party) (k : Nat) (r : Rope) : List Byte :=
  let w := r.arrived
  let teams := p.teamsOf k
  leBytes 16 (((r.stack[0]?).map Entry.bits).getD 0) ++ leBytes 16 (((r.stack[1]?).map Entry.bits).getD 0) ++ leBytes 4 r.stack.length
    ++ leBytes 4 ((if r.ended then 1 else 0) + (if r.hm then 2 else 0) + (if w.isSome then 4 else 0) + teams.length * 2 ^ 8)
    ++ leBytes 4 r.lfsr.toNat ++ leBytes 4 r.gangReg.toNat ++ leBytes 8 r.dkey.toNat ++ leBytes 8 r.dctr.toNat ++ leBytes 4 r.fpst.toNat
    ++ leBytes 4 (r.accDirty.toNat * 2 ^ 8 + r.accValid.toNat) ++ leBytes 4 r.flags.toNat
    ++ leBytes 4 (leNat ((teams.take 4).map fun t => BitVec.ofNat 8 t)) ++ leBytes 8 r.trapvec.toNat ++ leBytes 8 r.tpc.toNat
    ++ leBytes 4 r.tcause.toNat ++ leBytes 4 r.tmask.toNat ++ leBytes 8 r.tinfo.toNat ++ leBytes 4 r.hdepth
    ++ leBytes 4 (w.elim 0 fun x => x.1 + x.2 * 2 ^ 8) ++ leBytes 8 (p.partialOf k w) ++ leBytes 8 r.wptmiss.toNat ++ leBytes 4 r.agent
    ++ leBytes 4 0 ++ ringBytes r.ring ++ (List.range 7).flatMap (fun i => leBytes 4 (r.pmask i).toNat) ++ leBytes 20 0
    ++ (List.range 64).flatMap fun i => leBytes 4 (r.s i).toNat

/-- The 128 bytes of register `i` (R365). -/
def Rope.regBytes (r : Rope) (i : Nat) : List Byte := (List.range 32).flatMap fun l => leBytes 4 (r.x l i).toNat

/-- The mask of the lanes in which quad `j` is tagged. -/
def Rope.tagMask (r : Rope) (j : Nat) : Word := (List.range 32).foldl (fun m l => withBit m l (r.tag l (4 * j))) 0

/-- The TAGS field of a rope record. -/
def Rope.tagBytes (r : Rope) (a : Nat) : List Byte := (List.range (a / 4)).flatMap fun j => leBytes 4 (r.tagMask j).toNat

/-- Where the rope records of a party's save area begin (R363). -/
def Party.ropesAt (p : Party) : Nat := p.saveAt + (0x680 + 32 * p.stashPages.length + 255) / 256 * 256

/-- Writes rope `k`'s record; the words of a block with VALID clear are not written (R365). -/
def State.writeRope (s : State) (p : Party) (k : Nat) (r : Rope) : State :=
  let at' := p.ropesAt + k * saveStride p.regs
  let s := s.devStore at' (p.ropeHead k r)
  let regs := (List.range p.regs).filter fun i => r.accValid.getLsbD (i / 32)
  let s := regs.foldl (fun (s : State) i => s.devStore (at' + 0x200 + 128 * i) (r.regBytes i)) s
  let s := s.devStore (at' + 0x200 + 128 * p.regs) (r.tagBytes p.regs)
  match r.ring with
  | none => s
  | some b => (s.setTagAt (at' + 0x90) (s.tagFor b.desc true)).setTagAt (at' + 0xA0) (s.tagFor b.slots true)

/-- Writes a party's save area (R360, R363). -/
def State.writeSave (s : State) (p : Party) (why : SaveReason) : State :=
  let s := s.devStore p.saveAt (p.headBytes why)
  let s := s.setTagAt (p.saveAt + 0x20) (s.tagFor p.code p.codeTag)
  let s := (p.stashPages.zip (List.range p.stashPages.length)).foldl (fun (s : State) x =>
    s.setTagAt (p.saveAt + 0x680 + 32 * x.2) (s.tagFor x.1.2.1 (!x.1.2.2.2.2))) s
  (p.ropes.zip (List.range p.ropes.length)).foldl (fun (s : State) x => s.writeRope p x.2 x.1) s

/-! ### PARTY_SAVE (R358, R360, R361) -/

/-- Whether a rope's slot still has an instruction in flight that a save waits for. -/
def Wait.inFlight : Wait → Bool
  | .gang _ => true
  | .peer _ _ => true
  | .delg _ => true
  | _ => false

/-- Whether a wait outlives a save: only an arrival that has been made (R358). -/
def Wait.kept : Wait → Bool
  | .phase _ _ _ _ => true
  | _ => false

/-- An entry as it is saved: no wait but an arrival, no remainder of a `rest`, no wait counter (R358, R361). -/
def Entry.saved (e : Entry) : Entry :=
  { e with wait := if e.wait.any Wait.kept then e.wait else none, rest := none, counter := 0, boost := false }

/-- The lane registers of blocks whose VALID is clear are not saved (R96, R254). -/
def Rope.dropBlocks (r : Rope) : Rope :=
  { r with regs := r.regs.filter fun e => r.accValid.getLsbD (e.1 % 256 / 32)
           qtag := r.qtag.filter fun q => r.accValid.getLsbD (q % 64 / 8) }

/-- The quads of a rope that match the running pass lose their tags as they are written (R362). -/
def Rope.checkTags (r : Rope) (s : State) : Rope :=
  { r with qtag := r.qtag.filter fun e => s.tagFor (r.quad (e / 64) (4 * (e % 64))) true }

/-- A rope as it is saved. -/
def Rope.saved (r : Rope) : Rope := { r.dropBlocks with stack := r.stack.map Entry.saved, fbuf := [], accInfl := 0 }

/-- The private lines of an allotment: unpinned, they stand in the backing (R136, R137). -/
def Party.privLines (p : Party) : List Nat := (List.range (p.scratchSize / 128)).filter fun ln => isPriv (p.pageAt (ln * 128))

/-- The pages for which a party's ropes are parked, and the parked instructions (R285). -/
def Party.parks (p : Party) : List Nat × List (Nat × BitVec 48) :=
  let l := (p.ropes.zip (List.range p.ropes.length)).filterMap fun x => x.1.park.map fun k => (x.2, k)
  ((l.flatMap fun x => x.2.pages).eraseDups, l.map fun x => (x.1, x.2.pc))

/-- A party as it stands after its save. -/
def Party.saved (p : Party) (why : SaveReason) : Party :=
  { p with status := .saved why, ropes := p.ropes.map Rope.saved, backed := p.privLines, present := [], dirty := []
           holds := p.parks.1, replay := p.parks.2 }

/-- Whether a rope has still to take answers of peers for an instruction that it completes with them; a parked one replays later. -/
def Rope.toFinish (r : Rope) : Bool := r.park.isNone && !r.ended && r.peerData != []

/-- Whether a save has still to wait: a gang instruction, an access at a peer, a delegation (R358, R359). -/
def State.saveWaits (s : State) (p : Party) : Bool :=
  (s.gangs.any fun (g : Gang) => g.uid == p.uid) || s.accessesOut p.uid
    || (s.delgWaits.any fun w => w.uid == p.uid && w.answer.isSome)
    || p.ropes.any fun r => r.toFinish || r.stack.any fun e => e.wait.any Wait.inFlight

/-- The ropes of a party with the tags of their quads checked (R362). -/
def Party.checkTags (p : Party) (s : State) : Party := { p with ropes := p.ropes.map fun r => r.checkTags s }

/-- PARTY_SAVE (R360): every rope has stopped; the save area is written, and the core's resources are released. -/
def execPartySave (uid : Nat) (s : State) : Out :=
  .next <|
    match s.party? uid with
    | none => s
    | some p =>
      match p.status with
      | .saving why =>
        if s.saveWaits p then s
        else
          let p := p.checkTags s
          { (s.writeSave p why).setParty (p.saved why) with offers := s.offers ++ [p.core] }
      | _ => s

/-! ### PARTY_RESTORE (R366) -/

/-- A rope as it is restored into a slot: its parked instruction replays; a fresh age stamp (R366). -/
def Rope.restored (r : Rope) (age slot : Nat) : Rope := { r with age := age, slot := slot, park := none }

/-- The ropes of a party, restored on a core. -/
def State.restoreRopes (s : State) (p : Party) (core : Nat) : State × List Rope :=
  let slots := s.freeSlots core
  (p.ropes.zip (List.range p.ropes.length)).foldl (fun (y : State × List Rope) x =>
    let t := y.1.stamp core
    (t.1, y.2 ++ [x.1.restored t.2 (slots.getD x.2 0)])) (s, [])

/-- PARTY_RESTORE (R366): an eligible saved party goes on, on a core that has room for it, its tags checked again (R362); holds without a
replay drop at once. -/
def execPartyRestore (uid core : Nat) (s : State) : Out :=
  .next <|
    match s.party? uid with
    | none => s
    | some p =>
      if s.mayRestore p core then
        let p := p.checkTags s
        let y := s.restoreRopes p core
        y.1.setParty { p with status := .placed, core := core, pslot := s.freePslot core, ropes := y.2
                              holds := if p.replay = [] then [] else p.holds }
      else s

end Sys2Proof.Machine
end

