-- ==== Sys2Proof/Machine/Drains.lean ====
section
/-!
DEFINITION. The end of jobs (R251, R307, R336, R384), the watchdog and its drain (R339, R340), fencing a die (R329).
-/
namespace Sys2Proof.Machine

/-! ### Jobs of commands, nodes and peers -/

/-- The bytes that a job moves when nothing stops it. -/
def Job.total (j : Job) : Nat :=
  match j.kind with
  | .copy p => p.total
  | .stream p _ _ => p.total
  | .ldm x => x.total
  | .snap => 0
  | .handle _ _ _ => 0
  | .replay _ => 0

/-- Whether a job has done all that it will (R270, R307). -/
def Job.finished (j : Job) : Bool := j.ceased || (j.running && decide (j.total ≤ j.moved))

/-- The one record of a COPY command or node: CMD_OK, or FAULT with the code and the bytes written (R336). -/
def Job.record (j : Job) : Record := if j.fault = 0 then .of stOK 0 else ⟨0x0002, j.fault, 0, j.written, 0⟩

/-- The command in execution that a job serves. -/
def State.jobCmd (s : State) (q id : Nat) : Option Cmd := s.cmds.find? fun c => c.queue == q && c.work == .job id

/-- Whether a node of a running graph waits for a job. -/
def State.nodeJob (s : State) (g node id : Nat) : Bool :=
  ((s.graph? g).bind GraphRec.run).any fun (r : RunRec) => r.running.any fun y => y == (node, .job id)

/-- What a launch's jobs have done is part of what its completion releases (R325). -/
def State.learnLaunch (s : State) (uid : Nat) (k : Know) : State :=
  match s.party? uid with
  | none => s
  | some p => s.withLaunch p.launch fun x => { x with know := x.know.join k }

/-- The end of a job, with what follows for who issued it (R307, R336, R384). -/
def State.finishJob (s : State) (j : Job) : State :=
  let k := j.knows
  let s := s.endJob j
  match j.by' with
  | .rope uid _ => s.learnLaunch uid k
  | .command q _ =>
    match s.jobCmd q j.id with
    | none => s
    | some c => s.cmdEnd c j.record k
  | .node g n => if s.nodeJob g n j.id then s.nodeFin g n j.record k else s
  | .peer dev inv => { s with wire := .report dev inv j.fault j.written :: s.wire }.tell dev k

/-- Whether accesses of a job are still on their way to a peer (R307, R384). -/
def State.jobAway (s : State) (id : Nat) : Bool := s.peerOut.any fun r => r.src == .job id

/-- Whether a stream's record can follow the commit of its slot at once (R278): every earlier slot of the ring is committed. -/
def State.slotNext (s : State) (j : Job) : Bool :=
  match j.kind with
  | .stream _ ring (some k) => (!j.post && j.fault == 0) || s.ringCommit ring.desc == k
  | _ => true

/-- The far pages of the ring that a rope's job posts its record to (R266, R283). -/
def State.recordShut (s : State) (j : Job) : List Nat :=
  match j.by' with
  | .rope uid k => if j.post || j.fault != 0 then ((s.ropeRing uid k).map fun r => s.ringShut r.1).getD [] else []
  | _ => []

/-- Completes a job once its ring's pages are resident (R266: the record, then the card). -/
def State.complete (s : State) (j : Job) : State :=
  match s.recordShut j with
  | [] => s.finishJob j
  | l => s.askAll true j.colour l

/-- COPY_JOB_COMPLETE (R307): every access has performed; the record, then the card. -/
def execCopyJobComplete (id : Nat) (s : State) : Out :=
  .next <|
    match s.job? id with
    | none => s
    | some j => if j.card && j.local' && (j.kind != .snap || j.ceased) && j.finished && !(s.jobAway id) && s.slotNext j then s.complete j else s

/-- LDM_JOB_COMPLETE (R251). -/
def execLdmJobComplete (id : Nat) (s : State) : Out :=
  .next <|
    match s.job? id with
    | none => s
    | some j =>
      match j.kind with
      | .ldm x => if j.ceased ∨ x.total ≤ j.moved then s.complete j else s
      | _ => s

/-! ### Cancelling (R270, R339) -/

/-- A replay stops at once, and its buffers are free (R391). -/
def State.dropReplay (s : State) (id : Nat) : State :=
  match s.replays.find? fun (r : ReplayRec) => r.id == id with
  | none => s
  | some r =>
    let n := if r.started then ((s.plans.find? fun (p : Plan) => p.handle == r.plan).map Plan.nbuf).getD 0 else 0
    { s with replays := s.replays.filter (fun (x : ReplayRec) => x.id != id), bufUsed := s.bufUsed - n }

/-- Cancels a job: its CANCELLED record goes to the rope's ring, or to the queue's with the job's id; a replay's card stops the replay. -/
def State.cutJob (s : State) (j : Job) : State :=
  let s := match j.by' with
    | .rope _ _ => s
    | .peer _ _ => s
    | .command _ _ | .node _ _ =>
      match s.jobQueue j with
      | none => s
      | some q => s.postLater q ⟨0x0004, 0, j.id, j.written, 0⟩ j.knows
  let s := match j.kind with
    | .replay n => s.dropReplay n
    | _ => s
  s.cancelJob j

/-- Cancels every job that a test picks. -/
def State.cutJobs (s : State) (f : Job → Bool) : State := (s.jobs.filter f).foldl State.cutJob s

/-! ### The drain (R339) -/

/-- Whether a party has not ended. -/
def Party.alive (p : Party) : Bool :=
  match p.status with
  | .ended => false
  | .placed | .saving _ | .saved _ => true

/-- A rope that stops for good. -/
def Rope.stopped (r : Rope) : Rope := { r with ended := true, stack := [], park := none }

/-- The parties that a drain discards of a launch. -/
def State.discards (s : State) (launch : Nat) : Nat := (s.parties.filter fun p => p.launch == launch && p.alive).length

/-- Steps 1 to 4 of a drain (R339): the queue keeps its slot unless it is lost (R319); ropes stop, saved parties and records are discarded, jobs and replays are cancelled. -/
def State.drain (s : State) (q : Nat) (st : QueueSt) : State :=
  let r := s.queue q
  let s := s.setQueue q { r with st := st, slot := if st = .lost then none else r.slot, ending := true }
  let launches := s.launches.map fun (x : Launch) =>
    if x.queue = q then { x with records := [], first := none, wave := none, cut := x.cut + s.discards x.id } else x
  let s := { s with launches := launches }
  let s := s.cutJobs fun j => s.jobQueue j == some q
  let s := (s.replays.filter fun (r : ReplayRec) => r.job.isNone && r.queue == q).foldl (fun (s : State) r => s.dropReplay r.id) s
  let stay (p : Party) : Bool := p.queue != q || !(match p.status with
    | .saved _ => true
    | _ => false)
  { s with parties := (s.parties.filter stay).map fun p =>
      if p.queue = q then { p with status := .ended, ropes := p.ropes.map Rope.stopped } else p }

/-- WATCHDOG_EXPIRY (R339): the timer of an ACTIVE queue with a command in execution has reached WDOG. -/
def execWatchdogExpiry (q : Nat) (s : State) : Out :=
  .next <|
    let r := s.queue q
    if r.st = .active ∧ s.working q = true ∧ r.wdog ≠ 0 ∧ 1000 * r.wdog ≤ r.timer then s.drain q .draining else s

/-- The parties discarded for one command: those of its launch, or of the launches that its graph's nodes started (R339 step 5). -/
def State.cutFor (s : State) (c : Cmd) : Nat :=
  let own (x : Launch) : Bool := match x.by', c.work with
    | .command q seq, _ => q == c.queue && seq == c.seq
    | .node g _, .graph h => g == h
    | .node _ _, _ => false
  ((s.launches.filter own).map Launch.cut).foldl (· + ·) 0

/-- The run of a graph table ends without a record; the command that waits for the table runs it. -/
def State.cutRun (s : State) (h : Nat) : State :=
  let s := { s with graphs := s.graphs.map fun (x : GraphRec) => if x.handle = h then { x with run := none } else x }
  match s.nextGraph h with
  | none => s
  | some c => (s.setWork c.queue c.seq (.graph h)).startRun h (.command c.queue c.seq) (s.queue c.queue).know

/-- The tables whose run belongs to a queue. -/
def State.runsOf (s : State) (q : Nat) : List Nat :=
  (s.graphs.filter fun (x : GraphRec) => x.run.any fun r => r.queue == q).map GraphRec.handle

/-- Steps 5 and 6: records for the commands, pins and route cards released, the queue goes on; a LOST queue stays so (R369). -/
def State.endDrain (s : State) (q : Nat) : State :=
  let lost := (s.queue q).st == .lost
  let cs := s.cmds.filter fun c => c.queue == q
  let s' := cs.foldl (fun (t : State) c =>
    t.postLater q ⟨if lost then 0x0105 else 0x0005, 0, c.tag, 0, s.cutFor c⟩ Know.none) s
  let s' := (s.launches.filter fun (x : Launch) => x.queue == q).foldl (fun (t : State) x => t.dropLaunch x.id) s'
  let s' := { s' with cmds := s'.cmds.filter fun c => c.queue != q }
  let s' := (s.runsOf q).foldl State.cutRun s'
  let r := s'.queue q
  if lost then s'.setQueue q { r with timer := 0, ending := false }
  else (s'.setQueue q { r with timer := 0, st := .idle, ending := false }).refresh q

/-- Whether a partial on its way belongs to a party of a queue, or to one that has left (R339 step 4). -/
def State.partsOf (s : State) (q : Nat) : Bool :=
  let mine (uid : Nat) : Bool := (s.party? uid).all fun p => p.queue == q
  (s.parts.any fun (x : FarPart) => mine x.uid) || s.peerOut.any fun r => match r.src with
    | .part uid _ => mine uid
    | _ => false

/-- DRAIN_COMPLETE (R339): every resource of the discarded parties has been released, and their partials have been applied. -/
def execDrainComplete (q : Nat) (s : State) : Out :=
  .next <|
    let st := (s.queue q).st
    if (st = .draining ∨ st = .lost) ∧ (s.queue q).ending = true ∧ (s.parties.all fun p => p.queue != q) = true
        ∧ (s.jobs.all fun j => s.jobQueue j != some q) = true ∧ s.partsOf q = false then s.endDrain q
    else s

/-! ### DIE_FENCE (R329) -/

/-- The lowest die that is not fenced. -/
def State.lowestDie (s : State) : Nat := ((List.range 4).find? fun d => !((s.die d).fenced)).getD 0

/-- Whether a launch's parties of a fenced die run again: REISSUE_OK, an enabled core left, and none of them bound there (R328,
R329). -/
def State.reissues (s : State) (x : Launch) (l : List Party) : Bool :=
  x.reissue && s.partition x.queue != [] && l.all fun p => (s.boundCore p).isNone

/-- A launch that loses parties with a die, `more` of them not yet placed: no further party of it is placed (R329). -/
def Launch.loseParties (x : Launch) (l : List Party) (more : Nat) : Launch :=
  let cut (r : ContRec) : ContRec :=
    { r with next := r.hi, back := [], held := false, live := r.live - (l.filter fun p => p.record == r.id).length }
  { x with records := (x.records.map cut).filter (fun r => decide (0 < r.live)), first := none, wave := none
           lost := x.lost + l.length + more, dieLost := true }

/-- A launch whose parties of a fenced die return to the head of their record's range. -/
def Launch.returnParties (x : Launch) (l : List Party) : Launch :=
  let back (r : ContRec) : ContRec :=
    let mine := (l.filter fun p => p.record == r.id).map Party.index
    { r with back := mine ++ r.back, live := r.live - mine.length }
  { x with records := x.records.map back }

/-- The parties of a launch that are bound to cores of a die and have still to be placed: they count as lost with it (R328). -/
def Launch.boundLeft (x : Launch) (die : Nat) : Nat :=
  (x.records.map fun r =>
    let place := x.place.getD r.entry []
    ((List.range (min r.hi place.length)).filter fun i =>
      (decide (r.next ≤ i) || r.back.elem i) && (place[i]?).any fun n => dieOf n == die).length).foldl (· + ·) 0

/-- What a fence does to a launch that had parties on the die; what they have written is part of what its completion releases (R325,
R334). -/
def State.fenceLaunch (s : State) (die : Nat) (gone : List Party) (x : Launch) : Launch :=
  let l := gone.filter fun p => p.launch == x.id && p.alive
  let x : Launch := { x with know := (gone.filter fun p => p.launch == x.id).foldl (fun (k : Know) p => k.join p.knows) x.know }
  if x.boundLeft die ≠ 0 then x.loseParties l (x.boundLeft die)
  else if l = [] then x
  else if s.reissues x l then x.returnParties l
  else x.loseParties l 0

/-- A job of a fenced die is cancelled (R329): a rope's posts CANCELLED, and its launch releases what it has done; a COPY command or node
ends with CANCELLED as its record; a collective's card stops its replay. -/
def State.loseJob (s : State) (j : Job) : State :=
  let x : Record := ⟨0x0004, 0, j.id, j.written, 0⟩
  match j.by' with
  | .rope uid _ => (s.cutJob j).learnLaunch uid j.knows
  | .peer _ _ => s.cutJob j
  | .command q _ =>
    let s := s.cancelJob j
    match s.jobCmd q j.id with
    | none => s
    | some c => s.cmdEnd c x j.knows
  | .node g n => if s.nodeJob g n j.id then (s.cancelJob j).nodeFin g n x j.knows else s.cancelJob j

/-- DIE_FENCE (R329): the die's jobs are cancelled, its parties leave, the lowest healthy die's distributor is master. -/
def execDieFence (die : Nat) (s : State) : Out :=
  .next <|
    if 4 ≤ die ∨ (s.die die).fenced = true then s
    else
      let s := { s with dies := SMap.set DieRec.zero s.dies die { s.die die with fenced := true } }
      let s := (s.jobs.filter fun j => j.die == die).foldl State.loseJob s
      let gone := s.parties.filter fun p => dieOf p.core == die
      let s := { s with
        launches := s.launches.map (s.fenceLaunch die gone)
        parties := s.parties.filter fun p => dieOf p.core != die
        gangs := s.gangs.filter fun (g : Gang) => dieOf g.core != die
        offers := s.offers.filter fun n => dieOf n != die
        master := s.lowestDie }
      let s := (gone.filter fun p => !p.alive && p.killed).foldl (fun (s : State) p =>
        s.withLaunch p.launch fun x => { x with killed := x.killed + 1 }) s
      s.rewave fun q => s.placeable q

end Sys2Proof.Machine
end

