-- ==== Sys2Proof/Machine/Sweeps.lean ====
section
/-!
DEFINITION. Sweep passes (R202, R205 to R209): the visit of each kind of place, the start and the completion of a pass, and a die that
is brought back.
-/
namespace Sys2Proof.Machine

/-! ### Visits (R207) -/

/-- Fault code REVOKED (R276). -/
def fREVOKED : Nat := Cause.revoked.code

/-- The capability that stands in a granule of the span. -/
def State.capAt (s : State) (g : Nat) : Quad := BitVec.ofNat 128 (s.num (g * 16) 16)

/-- A 4 KiB page of the span: the tags of its matching granules are cleared, and its tag-summary bit when none is left. -/
def State.sweepMemory (s : State) (page : Nat) : State :=
  let left := s.tags.filter fun g => !(g / 256 == page && s.sweeping (s.capAt g))
  { s with tags := left, tagPages := if left.any fun g => g / 256 == page then s.tagPages else NSet.set s.tagPages page false }

/-- The capability that stands in a granule of private scratch. -/
def Party.scapAt (p : Party) (g : Nat) : Quad := BitVec.ofNat 128 (leNat (p.sbytes (g * 16) 16))

/-- A page of a party's scratch. -/
def State.sweepScratch (s : State) (uid page : Nat) : State :=
  s.withParty uid fun p => { p with stag := p.stag.filter fun g => !(g / 256 == page && s.sweeping (p.scapAt g)) }

/-- A quad of a rope, in every lane. -/
def State.sweepQuad (s : State) (uid k q : Nat) : State :=
  s.withRope uid k fun r => { r with qtag := r.qtag.filter fun e => !(e % 64 == q && s.sweeping (r.quad (e / 64) (4 * q))) }

/-- A party's code capability (R200). -/
def State.sweepCode (s : State) (uid : Nat) : State :=
  s.withParty uid fun p => { p with codeTag := s.tagFor p.code p.codeTag }

/-- A stash page: it becomes a dead one, its dirty lines written back (R139). -/
def State.sweepStash (s : State) (uid page : Nat) : State :=
  s.withParty uid fun p =>
    match SMap.get .priv p.pages page with
    | .stash q ro a =>
      if s.sweeping q then
        let other (ln : Nat) : Bool := ln / 32 != page
        { p with pages := SMap.set .priv p.pages page (.dead q ro a), present := p.present.filter other, dirty := p.dirty.filter other }
      else p
    | _ => p

/-- What a rope has bound as its ring; without it the rope has none (R277). -/
def State.sweepBinding (s : State) (uid k : Nat) : State :=
  s.withRope uid k fun r => { r with ring := r.ring.filter fun (b : RingBind) => !(s.sweeping b.desc || s.sweeping b.slots) }

/-- A snapshot ends without its copy; stores that wait for a frame go on. -/
def State.dropSnap (s : State) : State :=
  { s with snap := none, parties := s.parties.map fun (p : Party) => p.wake isCow }

/-- A job whose capability matches ends with REVOKED; its completion follows, at once for an invocation or a replay (R207, R270). -/
def State.revokeJob (s : State) (j : Job) : State :=
  match j.kind with
  | .handle _ _ _ => s.finishJob { j with fault := fREVOKED }
  | .replay n => (s.dropReplay n).finishJob { j with fault := fREVOKED }
  | .snap => (s.overJob j.id fREVOKED).dropSnap
  | .copy _ | .stream _ _ _ | .ldm _ => s.overJob j.id fREVOKED

/-- An engine job's card. -/
def State.sweepJob (s : State) (id : Nat) : State :=
  match s.job? id with
  | none => s
  | some j => if !j.ceased && j.caps.any s.sweeping then s.revokeJob j else s

/-- A delegation record is cancelled, its generation one more (R207, R378). -/
def State.freeDelg (s : State) (e : Nat) : State :=
  let x := SMap.get ⟨0, none⟩ s.delgs e
  { s with delgs := SMap.set ⟨0, none⟩ s.delgs e ⟨(x.gen + 1) % 16, none⟩ }

/-- A delegation record. -/
def State.sweepDelg (s : State) (e : Nat) : State :=
  match (SMap.get ⟨0, none⟩ s.delgs e).body with
  | none => s
  | some d => if s.sweeping d.cap then s.freeDelg e else s

/-- A page that the running snapshot has saved. -/
def State.sweepImage (s : State) (page : Nat) : State :=
  let cap (x : PageImage) (g : Nat) : Quad := BitVec.ofNat 128 (leNat ((x.bytes.drop (g % 256 * 16)).take 16))
  let clean (x : PageImage) : PageImage := { x with tags := x.tags.filter fun g => !(s.sweeping (cap x g)) }
  { s with snap := s.snap.map fun (y : Snap) =>
      { y with saved := y.saved.map fun e => if e.1 = page then (e.1, e.2.map clean) else e } }

/-- The capability in a queue's record. -/
def State.sweepQueue (s : State) (q : Nat) : State :=
  let r := s.queue q
  s.setQueue q { r with compTag := s.tagFor r.compring r.compTag }

/-- A frame rule that captured a capability. -/
def FrameRule.swept (s : State) : FrameRule → FrameRule
  | .captured q t => .captured q (s.tagFor q t)
  | .strided b l d p => .strided b l d p

/-- A continuation record. -/
def State.sweepRecord (s : State) (launch id : Nat) : State :=
  s.withLaunch launch fun x =>
    { x with records := x.records.map fun r => if r.id = id then { r with frame := r.frame.swept s } else r }

/-- The capabilities that firmware has made for a graph node. -/
def State.sweepNode (s : State) (h n : Nat) : State :=
  { s with graphs := s.graphs.map fun (g : GraphRec) =>
      if g.handle = h then
        { g with nodes := g.nodes.modify n fun x => { x with caps := x.caps.map fun c => (c.1, s.tagFor c.1 c.2) } }
      else g }

/-- One place is visited. -/
def State.visit (s : State) : Place → State
  | .memory p => s.sweepMemory p
  | .scratch u p => s.sweepScratch u p
  | .quad u k q => s.sweepQuad u k q
  | .code u => s.sweepCode u
  | .stash u p => s.sweepStash u p
  | .binding u k => s.sweepBinding u k
  | .job id => s.sweepJob id
  | .delegation e => s.sweepDelg e
  | .image p => s.sweepImage p
  | .queue q => s.sweepQueue q
  | .record l i => s.sweepRecord l i
  | .node g n => s.sweepNode g n

/-- SWEEP_VISIT (R207): while a pass runs, one place is visited. -/
def execSweepVisit (place : Place) (s : State) : Out := .next (if s.passRunning then s.visit place else s)

/-! ### The places where a match still stands (R208 step 1) -/

/-- Whether a match still stands in the span, on a healthy die. -/
def State.tagsLeft (s : State) : Bool :=
  s.tags.any fun g => s.sweeping (s.capAt g) && !((s.die (homeDie (g * 16))).fenced)

/-- Whether a match still stands in a rope. -/
def Rope.left (r : Rope) (s : State) : Bool :=
  (r.qtag.any fun e => s.sweeping (r.quad (e / 64) (4 * (e % 64)))) || r.ring.any fun b => s.sweeping b.desc || s.sweeping b.slots

/-- Whether a match still stands in a party. -/
def Party.left (p : Party) (s : State) : Bool :=
  (p.stag.any fun g => s.sweeping (p.scapAt g)) || (p.codeTag && s.sweeping p.code)
    || (p.pages.any fun e => match e.2 with
      | .stash q _ _ => s.sweeping q
      | _ => false) || p.ropes.any fun r => r.left s

/-- Whether a match still stands in what firmware holds. -/
def State.heldLeft (s : State) : Bool :=
  (s.queues.any fun e => e.2.compTag && s.sweeping e.2.compring)
    || (s.launches.any fun (x : Launch) => x.records.any fun r => match r.frame with
      | .captured q t => t && s.sweeping q
      | .strided _ _ _ _ => false)
    || (s.graphs.any fun (g : GraphRec) => g.nodes.any fun n => n.caps.any fun c => c.2 && s.sweeping c.1)
    || (s.delgs.any fun e => e.2.body.any fun (d : DelgRec) => s.sweeping d.cap)
    || s.snap.any fun (y : Snap) => y.saved.any fun e => e.2.any fun x => x.tags.any fun g =>
        s.sweeping (BitVec.ofNat 128 (leNat ((x.bytes.drop (g % 256 * 16)).take 16)))

/-- Whether every visit of the running pass has been made. -/
def State.visited (s : State) : Bool := !s.tagsLeft && !(s.parties.any fun p => p.left s) && !s.heldLeft

/-! ### Accesses that the pass waits for (R208 steps 2 and 3) -/

/-- The entries of the running pass. -/
def State.passEntries (s : State) : List RevEntry := s.revMap.filter fun e => e.pass == s.passDone + 1

/-- Whether an entry of the running pass names capabilities of a colour with a base. -/
def State.passNames (s : State) (colour base : Nat) : Bool := s.passEntries.any fun e => e.names colour base

/-- Whether an access that passed its checks through a capability of the pass may still have to perform: a partial, a gang's destination,
a request at a peer, a job, a replay (R208; log 31). -/
def State.inFlight (s : State) : Bool :=
  (s.parts.any fun (x : FarPart) => s.passNames x.colour x.base)
    || (s.gangs.any fun (g : Gang) => !g.reading && g.members.any fun m => s.sweeping m.cap)
    || (s.peerOut.any fun r => s.passNames r.colour r.base)
    || (s.jobs.any fun j => j.caps.any s.sweeping)
    || s.replays.any fun (r : ReplayRec) => r.caps.any s.sweeping

/-! ### Passes (R206, R208) -/

/-- SWEEP_PASS_START (R206). -/
def execSweepPassStart (s : State) : Out := .next (if s.revMap = [] then s else { s with passRunning := true })

/-- The tags of unreachable HBM that match: they are cleared when its die is swept, before anything can use it (R208). -/
def State.sweepFenced (s : State) : State :=
  let left := s.tags.filter fun g => !(s.sweeping (s.capAt g))
  { s with tags := left, tagPages := s.tagPages.filter fun q => left.any fun g => g / 256 == q }

/-- Whether a write to a granule by an agent may have been made through a capability that an entry names: of its colour, and at or above
the range's first byte, where the capability's base lies (R205; log 31). -/
def RevEntry.wrote (e : RevEntry) (colour granule : Nat) : Bool :=
  colour == e.colour && e.range.all fun x => decide (x.1 < granule * 16 + 16)

/-- What an acquire of the pass learns: every write that stands and that a capability of the pass may have made (R208, R215). -/
def State.passPubs (s : State) : List PartKnow :=
  s.race.filterMap fun y => y.2.bind fun w =>
    if s.passEntries.any fun e => e.wrote (SMap.get 0 s.agentColour w.agent.toNat) y.1 then
      some ⟨w.agent.toNat, w.gen.toNat + 1, y.1 * 16, y.1 * 16 + 16⟩
    else none

/-- Every rope's later writes are told apart from those that the pass has waited for. -/
def State.bumpRopes (s : State) : State :=
  { s with parties := s.parties.map fun p => { p with ropes := p.ropes.map fun r => { r with rel := r.rel + 1 } } }

/-- The colours that the pass frees (R202). -/
def State.freeColours (s : State) : State :=
  { s with colours := (s.passEntries.filter fun e => e.range.isNone).foldl (fun (m : SMap ColourSt) e =>
      if SMap.get .free m e.colour = .retiring then SMap.set .free m e.colour .free else m) s.colours }

/-- The handle-table entries that are reused after the pass (R382). -/
def State.freeHandles (s : State) : State :=
  { s with handles := s.handles.filter fun e => !(e.2.any fun h => h.freeAfter.any fun p => decide (p ≤ s.passDone)) }

/-- SWEEP_PASS_COMPLETE (R202, R206, R208): W advances, its entries leave the map, the next pass starts at once if any remain. -/
def execSweepPassComplete (s : State) : Out :=
  .next <|
    if s.passRunning && s.visited && !s.inFlight then
      let k : Know := ⟨[], s.passPubs⟩
      let s := s.sweepFenced.freeColours.bumpRopes
      let left := s.revMap.filter fun e => e.pass != s.passDone + 1
      { s with revMap := left, passDone := s.passDone + 1, passRunning := left != [], passKnow := s.passKnow.join k }.freeHandles
    else s

/-- REVOCATION_MAP_ROOM (R214): a `revk` that sleeps on a full map repeats the test of the map alone; with room it adds its entry and
completes. -/
def execRevocationMapRoom (uid rope pos : Nat) (s : State) : Out :=
  .next <|
    match s.ctxAt uid rope pos with
    | none => s
    | some c =>
      match c.entry.wait with
      | some (.mapRoom a cap active d) =>
        if s.mapFull then s
        else
          { c with s := s.addEntry (some (capBase cap, capBase cap + capLen cap)) (capColour cap) }.done
            (c.rope.revkDone a active d s.nextPass) 12
      | _ => s

/-! ### A die brought back (R208, R408) -/

/-- The HBM of a die is swept in full for the pass that runs; what earlier passes matched is untagged already (State.sweepFenced). -/
def State.sweepDie (s : State) (die : Nat) : State :=
  let left := s.tags.filter fun g => !(homeDie (g * 16) == die && s.sweeping (s.capAt g))
  { s with tags := left, tagPages := s.tagPages.filter fun q => homeDie (q * 4096) != die || left.any fun g => g / 256 == q }

/-- DIE_BROUGHT_BACK (R208, R408): swept in full, with empty instruction caches; its cores take parties again. -/
def execDieBroughtBack (die : Nat) (s : State) : Out :=
  .next <|
    if die < 4 ∧ (s.die die).fenced = true then
      let s := (s.sweepDie die).withDie die fun d => { d with fenced := false }
      { s with icache := s.icache.filter fun e => e.1 / 2 ^ 48 != die }.rewave fun q => s.placeable q
    else s

end Sys2Proof.Machine
end

