-- ==== Sys2Proof/Machine/Firmware.lean ====
section
/-!
DEFINITION. Firmware (R404 to R414): the lease, halted cores, errors in tables, safe points and spares, error counters, clocks, package
reset.
-/
namespace Sys2Proof.Machine

/-! ### The lead (R404, R405) -/

/-- Changes what firmware holds of itself. -/
def State.withFw (s : State) (f : Firmware → Firmware) : State := { s with fw := f s.fw }

/-- Whether a firmware core is healthy: not halted, and not on a fenced die. -/
def State.fwHealthy (s : State) (core : Nat) : Bool := !(NSet.has s.fw.halted core) && !(decide (core < 4) && (s.die core).fenced)

/-- LEASE_RENEWAL (R404): every millisecond, before the expiry. -/
def execLeaseRenewal (s : State) : Out :=
  .next <|
    if s.fw.lead.any s.fwHealthy ∧ s.fw.expiry ≤ s.timer + 3000000 ∧ s.timer < s.fw.expiry then
      s.withFw fun f => { f with expiry := s.timer + 4000000 }
    else s

/-- The firmware cores that ask for the lead: every healthy one. -/
def State.followers (s : State) : NSet := (List.range 5).filter s.fwHealthy

/-- LEASE_EXPIRY (R404): the expiry has passed without a renewal. -/
def execLeaseExpiry (s : State) : Out :=
  .next <|
    if s.fw.expiry ≤ s.timer ∧ s.fw.collect = none then
      s.withFw fun f => { f with lead := none, asking := s.followers, collect := some s.timer }
    else s

/-- ARBITER_GRANT (R404): 10 µs after the first request the lowest core that asked leads; it rebuilds its state from HBM. -/
def execArbiterGrant (s : State) : Out :=
  .next <|
    match s.fw.collect, s.fw.asking with
    | some t, l :: _ =>
      if t + 10000 ≤ s.timer then s.withFw fun f => { f with lead := some l, expiry := s.timer + 4000000, asking := [], collect := none }
      else s
    | _, _ => s

/-! ### Errors in firmware memories (R406) -/

/-- FIRMWARE_ECC_ERROR (R406): the core halts and begins to reload; if it held the lead, no core does until the lease has lapsed. -/
def execFirmwareEccError (core : Nat) (s : State) : Out :=
  .next <|
    if 5 ≤ core then s
    else
      (s.countError core 4 1).withFw fun f =>
        { f with halted := NSet.set f.halted core true, asking := NSet.set f.asking core false
                 lead := if f.lead = some core then none else f.lead }

/-- Whether both signatures of a firmware image verify (R10, R368). -/
def imageVerifies (image : List Byte) : Bool :=
  Crypto.signaturesHold Config.imageKeys (Config.imageSignatures image) (Config.imageBody image)

/-- IMAGE_RELOAD_COMPLETE (R406): with both signatures verified the core rejoins as a follower; else it stays halted. -/
def execImageReloadComplete (core : Nat) (s : State) : Out :=
  .next <|
    if NSet.has s.fw.halted core ∧ imageVerifies s.fw.image = true then
      s.withFw fun f =>
        let f := { f with halted := NSet.set f.halted core false }
        if f.collect.isSome then
          { f with asking := NSet.set f.asking core true, collect := if f.asking = [] then some s.timer else f.collect }
        else f
    else s

/-! ### Errors in scheduler tables (R407) -/

/-- TABLE_ECC_ERROR (R407): the entry is rebuilt from HBM, or its work ends. -/
def execTableEccError (t : TableError) (s : State) : Out :=
  .next <|
    match t with
    | .queue q both =>
      let s := s.countError 4 4 1
      if both && (s.queue q).st != .free then s.drain q .lost else s
    | .record n both =>
      let s := s.countError s.master 4 1
      if both then s.withLaunch n fun x => x.loseParties [] 0 else s
    | .job id =>
      match s.job? id with
      | none => s
      | some j =>
        let s := s.countError j.die 4 1
        match j.kind with
        | .handle _ _ _ => s.finishJob { j with fault := fPOISON }
        | .replay n => (s.dropReplay n).finishJob { j with fault := fPOISON }
        | .snap => (s.overJob id fPOISON).dropSnap
        | .copy _ | .stream _ _ _ | .ldm _ => s.overJob id fPOISON
    | .page q =>
      let s := s.countError 4 4 1
      if (s.page? q).isSome then s.losePage q else s

/-! ### Errors in memories (R219, R414) -/

/-- UNCORRECTABLE_ERROR (R219, R414): a half-line is poisoned. -/
def execUncorrectableError (addr : Nat) (s : State) : Out :=
  .next (if s.backedAt addr then (s.addPoison addr 1).countError (homeDie addr) 3 1 else s)

/-- The key of a unit (R413). -/
def unitKey (kind unit : Nat) : Nat := kind * 65536 + unit

/-- A change falls due, once (R413). -/
def Firmware.mark (f : Firmware) (x : SpareDue) : Firmware :=
  if f.due.elem x || NSet.has f.retired (unitKey x.kind x.unit) then f else { f with due := f.due ++ [x] }

/-- The units of a kind that have reached its threshold are due for a spare (R413); a threshold of 0 is none. -/
def Firmware.markWorn (f : Firmware) (kind : Nat) : Firmware :=
  let n := SMap.get 0 f.thresholds kind
  if n = 0 then f
  else (f.worn.filter fun e => e.1 / 65536 == kind && decide (n ≤ e.2)).foldl (fun (f : Firmware) e => f.mark ⟨kind, e.1 % 65536⟩) f

/-- CORRECTED_ERROR (R411, R413, R414): counted in CE_HBM, CE_L2 or CE_SRAM; a unit that reaches its threshold is due for a spare. Kind
6 is wear in a matrix-array half, and names the plane cap that remains. -/
def execCorrectedError (die counter kind unit : Nat) (s : State) : Out :=
  .next <|
    if 5 ≤ die ∨ 3 ≤ counter ∨ 7 ≤ kind ∨ 65536 ≤ unit then s
    else
      (s.countError die counter 1).withFw fun f =>
        if kind = 6 then (if unit < f.pcap then f.mark ⟨6, unit⟩ else f)
        else
          { f with worn := SMap.set 0 f.worn (unitKey kind unit) (SMap.get 0 f.worn (unitKey kind unit) + 1) }.markWorn kind

/-! ### Spares (R413) -/

/-- A number with one bit changed. -/
def setBit (v i : Nat) (b : Bool) : Nat :=
  let m := v % 2 ^ i + v / 2 ^ (i + 1) * 2 ^ (i + 1)
  if b then m + 2 ^ i else m

/-- The lowest unit of some that is not enabled and has not been replaced. -/
def Firmware.spareOf (f : Firmware) (kind : Nat) (key : Nat → Nat) (enabled : Nat → Bool) (l : List Nat) : Option Nat :=
  l.find? fun i => !(enabled i) && !(NSet.has f.retired (unitKey kind (key i)))

/-- A spare core of the same die: the map, and PART of every queue that named the worn core. -/
def State.spareCore (s : State) (n : Nat) : State :=
  match s.fw.spareOf 0 id (fun i => s.enmap.cores.testBit i) ((List.range 52).map (n / 52 * 52 + ·)) with
  | none => s
  | some m =>
    let part (v : Nat) : Nat := if v.testBit n then setBit (setBit v n false) m true else v
    { s with
      enmap := ⟨setBit (setBit s.enmap.cores n false) m true, s.enmap.slices, SMap.erase s.enmap.words n⟩
      queues := s.queues.map fun e => (e.1, { e.2 with part := part e.2.part }) }

/-- A spare L2 slice of the same die: the hash changes, and the race records of the worn slice are lost (R217, R310). -/
def State.spareSlice (s : State) (die k : Nat) : State :=
  match s.fw.spareOf 1 (fun i => die * 256 + i) (fun i => s.enmap.slices.testBit (50 * die + i)) (List.range 50) with
  | none => s
  | some m =>
    let here (g : Nat) : Bool := Config.homeSlice s.enmap.slices (g / 8) == 50 * die + k
    { s with
      enmap := { s.enmap with slices := setBit (setBit s.enmap.slices (50 * die + k) false) (50 * die + m) true }
      race := s.race.filter fun e => !(here e.1) }

/-- A spare bank (bits 9 to 25 of a core's word) or lane group (bits 0 to 8) of the same core. -/
def State.sparePart (s : State) (kind core k lo n : Nat) : State :=
  let w := (s.enmap.word core).toNat
  match s.fw.spareOf kind (fun i => core * 256 + i) (fun i => w.testBit (lo + i)) (List.range n) with
  | none => s
  | some m =>
    let w' : Word := BitVec.ofNat 32 (setBit (setBit w (lo + k) false) (lo + m) true)
    { s with enmap := { s.enmap with words := SMap.set wholeWord s.enmap.words core w' } }

/-- The eight lowest good lanes of a port (R370, R371). -/
def PortRec.goodLanes (r : PortRec) : List Nat := (List.range 10).filter fun i => !(NSet.has r.failed i)

/-- LANEMAP of some lanes. -/
def laneMap (l : List Nat) : Nat := l.foldl (fun n i => n + 2 ^ i) 0

/-- Replaces a port's record. -/
def State.setPort (s : State) (p : Nat) (r : PortRec) : State := { s with ports := SMap.set PortRec.zero s.ports p r }

/-- A port's record. -/
def State.port (s : State) (p : Nat) : PortRec := SMap.get PortRec.zero s.ports p

/-- A spare replaces a lane of a port (R371, R413): the port is UP again, or comes UP when it has trained; without a spare the lane
stays. -/
def State.spareLane (s : State) (p lane : Nat) : State :=
  let r := s.port p
  let r' := { r with failed := NSet.set r.failed lane true }
  if 16 ≤ p ∨ r'.goodLanes.length < 8 then s
  else
    let r' := { r' with lanemap := laneMap (r'.goodLanes.take 8) }
    match r.st with
    | .up | .narrow => s.setPort p { r' with st := .up }
    | .training => s.setPort p r'
    | .down | .fenced => s.setPort p { r' with lanemap := r.lanemap }

/-- A change is made (R411, R413). -/
def State.bringIn (s : State) (x : SpareDue) : State :=
  let hi := x.unit / 256
  let lo := x.unit % 256
  let s := match x.kind with
    | 0 => if s.enmap.cores.testBit x.unit then s.spareCore x.unit else s
    | 1 => if hi < 4 ∧ lo < 50 ∧ s.enmap.slices.testBit (50 * hi + lo) = true then s.spareSlice hi lo else s
    | 2 => if hi < 208 ∧ lo < 17 ∧ (s.enmap.word hi).getLsbD (9 + lo) = true then s.sparePart 2 hi lo 9 17 else s
    | 3 => if hi < 208 ∧ lo < 9 ∧ (s.enmap.word hi).getLsbD lo = true then s.sparePart 3 hi lo 0 9 else s
    | 5 => s.spareLane hi lo
    | 6 => s.withFw fun f => { f with pcap := min f.pcap x.unit }
    | _ => s
  s.withFw fun f => { f with retired := NSet.set f.retired (unitKey x.kind x.unit) (x.kind != 6) }

/-! ### Safe points (R412) -/

/-- The cores that a change affects: those of the unit, or every core. -/
def SpareDue.cores (x : SpareDue) : List Nat :=
  match x.kind with
  | 0 => [x.unit]
  | 2 => [x.unit / 256]
  | 3 => [x.unit / 256]
  | _ => List.range 208

/-- Whether a launch that has been started runs on some core of a list. -/
def State.runsOn (s : State) (l : List Nat) : Bool :=
  s.launches.any fun (x : Launch) => l.any fun n => (s.queue x.queue).part.testBit n

/-- Placement goes on for every queue that may place (log 28). -/
def State.resume (s : State) : State := s.rewave fun q => s.placeable q

/-- SAFE_POINT (R412): step 1 begins for the next change that is due; or steps 3 and 4, once the launches of its cores have completed. -/
def execSafePoint (s : State) : Out :=
  .next <|
    match s.fw.safe with
    | none =>
      match s.fw.due with
      | [] => s
      | x :: _ => s.withFw fun f => { f with safe := some ⟨x, x.cores, s.timer⟩ }
    | some w =>
      if s.runsOn w.cores then s
      else ((s.bringIn w.due).withFw fun f => { f with safe := none, due := f.due.filter fun y => y != w.due }).resume

/-- SAFE_POINT_TIMEOUT (R412): after 100 ms the change is abandoned, and tried again after the others. -/
def execSafePointTimeout (s : State) : Out :=
  .next <|
    match s.fw.safe with
    | none => s
    | some w =>
      if w.since + 100000000 < s.timer then
        (s.withFw fun f => { f with safe := none, due := (f.due.filter fun y => y != w.due) ++ [w.due] }).resume
      else s

/-! ### Clocks and reset (R329, R410, R411) -/

/-- ISLAND_CLOCK_CHANGE (R410, R411): it alters timing alone; firmware may lower CLKMAX. -/
def execIslandClockChange (island : Nat) (clkmax : Option Nat) (s : State) : Out :=
  .next <|
    match clkmax with
    | some n => if island < 1024 then s.withFw fun f => { f with clkmax := min f.clkmax n } else s
    | none => s

/-- PACKAGE_RESET (R329): the reset state, with what lies outside the package as it was: the pool and host memory, the partners and the
route of the fabric are set up anew; fuses and the worn units stay. The lowest healthy die's distributor is master. -/
def execPackageReset (s : State) : Out :=
  .next <|
    let far (a : Nat) : Bool := isPool a || isHost a
    { State.reset with
      agenda := s.agenda, tick := s.tick, fresh := s.fresh
      mem := s.mem.filter fun e => far e.1
      poison := s.poison.filter fun h => far (h * 64)
      device := s.device, poolBytes := s.poolBytes, msix := s.msix, wire := s.wire
      enmap := s.enmap, dies := s.dies.filterMap fun e => if e.2.fenced then some (e.1, { DieRec.zero with fenced := true }) else none
      fw := { Firmware.zero with image := s.fw.image, minSec := s.fw.minSec, worn := s.fw.worn, retired := s.fw.retired }
      master := s.lowestDie }

end Sys2Proof.Machine
end

