-- ==== Sys2Proof/Machine/Ports.lean ====
section
/-!
DEFINITION. Fabric ports (R370 to R373) and accesses between devices (R374 to R376): flit retries, lanes, reroutes, what a peer's access
does here, the answers to this device's own.
-/
namespace Sys2Proof.Machine

/-! ### Status (R372) -/

/-- STATE of a status word. -/
def PortSt.code : PortSt → Nat
  | .down => 0
  | .training => 1
  | .up => 2
  | .narrow => 3
  | .fenced => 4

/-- The status word of a port. -/
def PortRec.status (r : PortRec) : Nat := r.partner % 256 * 2 ^ 48 + r.lanemap % 1024 * 2 ^ 38 + r.retries % 65536 * 2 ^ 16 + r.st.code

/-! ### Links (R370, R371) -/

/-- A port that carries nothing. -/
def PortRec.goDown (r : PortRec) : PortRec := { r with st := .down, lanemap := 0, streak := 0 }

/-- A retry of a flit: RETRIES saturates; the eighth retry of one flit takes the port DOWN (R370). -/
def PortRec.retry (r : PortRec) (again : Bool) : PortRec :=
  let n := if again then r.streak + 1 else 1
  let r := { r with retries := min (r.retries + 1) 65535, streak := n }
  if 8 ≤ n then r.goDown else r

/-- FLIT_CRC_FAILURE (R370, R414): `again` says that the flit is the one that failed before. -/
def execFlitCrcFailure (port : Nat) (again : Bool) (s : State) : Out :=
  .next (if port < 16 ∧ s.portUp port = true then (s.setPort port ((s.port port).retry again)).countError 4 9 1 else s)

/-- A lane of a port has failed (R371): the port retrains to four good lanes, or is DOWN with fewer. -/
def PortRec.loseLane (r : PortRec) (lane : Nat) : PortRec :=
  let r' := { r with failed := NSet.set r.failed lane true }
  let used := r.lanemap.testBit lane && (r.st == .up || r.st == .narrow || r.st == .training)
  if !used then r'
  else if r'.goodLanes.length < 4 then r'.goDown
  else { r' with st := .training, lanemap := laneMap (r'.goodLanes.take 4) }

/-- LANE_FAILURE (R371, R413): with a spare left, it falls due at a safe point. -/
def execLaneFailure (port lane : Nat) (s : State) : Out :=
  .next <|
    if 16 ≤ port ∨ 10 ≤ lane ∨ NSet.has (s.port port).failed lane then s
    else
      let r := (s.port port).loseLane lane
      let s := s.setPort port r
      if 8 ≤ r.goodLanes.length ∧ r.st = .training then s.withFw fun f => f.mark ⟨5, port * 256 + lane⟩ else s

/-- A port that has been trained for the first time, or again (R371). -/
def PortRec.trainedUp (r : PortRec) (partner : Nat) : PortRec :=
  match r.st with
  | .training => { r with st := if r.lanemap = laneMap (r.goodLanes.take 8) ∧ 8 ≤ r.goodLanes.length then .up else .narrow }
  | .down =>
    if r.trained then r
    else if 8 ≤ r.goodLanes.length then
      { r with st := .up, partner := partner % 256, lanemap := laneMap (r.goodLanes.take 8), trained := true }
    else if 4 ≤ r.goodLanes.length then
      { r with st := .narrow, partner := partner % 256, lanemap := laneMap (r.goodLanes.take 4), trained := true }
    else r
  | .up => r
  | .narrow => r
  | .fenced => r

/-- Traffic that has no port, or whose port is DOWN, leaves by the next port of its route (R373). -/
def State.reroute (s : State) : State :=
  { s with peerOut := s.peerOut.map fun (r : PeerReq) =>
      match r.port with
      | some p => if (s.port p).st == .down || (s.port p).st == .fenced then { r with port := s.portFor r.dev } else r
      | none => { r with port := s.portFor r.dev } }

/-! ### Answers (R376) -/

/-- The answer to a lane's access: the instruction is issued again once all have come. -/
def Rope.hear (r : Rope) (d : PeerData) : Rope :=
  let note (e : Entry) : Entry :=
    match e.wait with
    | some (.peer i n) =>
      if e.pc = d.pc ∧ e.mask.getLsbD (d.key % 32) then { e with wait := if n ≤ 1 then none else some (.peer i (n - 1)) } else e
    | _ => e
  { r with peerData := r.peerData ++ [d], stack := r.stack.map note }

/-- The answer to a job's read. -/
def Job.hear (j : Job) (a : Nat) (bytes : List Byte) (lost : Bool) : Job := { j with got := (a, bytes, lost) :: j.got }

/-- Whether a request is an atomic that acquires at `.sys`. -/
def peerAcquires : PeerOp → Bool
  | .atomic _ _ _ ord sc _ _ => ordAcq ord && sc == .sys
  | _ => false

/-- A request is answered: with its bytes, or as refused or unreachable (R376). An `atomn` that acquires at `.sys` does so when it has
performed (R231, R375); an `mmf` partial is then done, dropped where the answer is a poisoned line (R259, R261). -/
def State.answerPeer (s : State) (r : PeerReq) (bytes : List Byte) (lost : Bool) : State :=
  let s := { s with peerOut := s.peerOut.filter fun (x : PeerReq) => x.seq != r.seq }
  match r.src with
  | .nobody => s
  | .posted uid k => if !lost && peerAcquires r.op then s.withRope uid k fun x => x.acquire (s.told r.dev) else s
  | .part uid k =>
    (if lost then s.countError r.die 6 1 else s).withRope uid k fun x => x.partDone (if lost then 1 else 0)
  | .lane uid k key pc => s.withRope uid k fun x => x.hear ⟨pc, key, bytes, lost, false⟩
  | .job id =>
    match r.op with
    | .load n => { s with jobs := s.jobs.map fun j => if j.id = id then j.hear r.addr (if lost then List.replicate n memInit else bytes) lost else j }
    | _ => s
  | .replay id op => { s with replays := s.replays.map fun (x : ReplayRec) => if x.id = id then { x with got := (op, bytes, lost) :: x.got } else x }
  | .poll node a b =>
    match s.polled node a b with
    | none => s
    | some (_, _, v, k) => if !lost && decide (v ≤ leNat bytes) then s.pollMet node a b k else s

/-- The bytes that an answer to a request holds. -/
def peerReplyBytes : PeerOp → Nat
  | .load n => n
  | .store _ _ => 0
  | .atomic _ w ret _ _ _ _ => if ret then (if w then 8 else 4) else 0
  | .join => 8
  | .hold _ => 8

/-- Whether a request changes memory and answers nothing. -/
def peerSilent : PeerOp → Bool
  | .store _ _ => true
  | .atomic _ _ ret _ _ _ _ => !ret
  | .load _ => false
  | .join => false
  | .hold _ => false

/-- PEER_REPLY (R376): the answer of the owner; a refused store or `atomn` is counted there. -/
def execPeerReply (seq : Nat) (ok : Bool) (bytes : List Byte) (s : State) : Out :=
  .next <|
    match s.peerOut.find? fun (r : PeerReq) => r.seq == seq with
    | none => s
    | some r => if ok && bytes.length != peerReplyBytes r.op then s else s.answerPeer r bytes (!ok)

/-- Whether a request that never reaches its owner counts as a dropped write: a partial counts as a dropped add (R259, R376, R414). -/
def PeerReq.dropsWrite (r : PeerReq) : Bool :=
  match r.src with
  | .part _ _ => false
  | _ => peerSilent r.op

/-- UNREACHABLE_TIMEOUT (R373, R376): 10 ms without a port or an answer; a dropped store or `atomn` is counted here. -/
def execUnreachableTimeout (seq : Nat) (s : State) : Out :=
  .next <|
    match s.peerOut.find? fun (r : PeerReq) => r.seq == seq with
    | none => s
    | some r =>
      if s.timer < r.since + 10000000 then s
      else (if r.dropsWrite then s.countError r.die 5 1 else s).answerPeer r [] true

/-- PORT_DOWN_REROUTE (R373). -/
def execPortDownReroute (port : Nat) (s : State) : Out :=
  .next (if port < 16 ∧ s.portUp port = false then s.reroute else s)

/-! ### A peer's access here (R374, R375) -/

/-- Whether an entry admits an access: the flags of a mask, every byte of a range. -/
def Admit.allows (x : Admit) (dev colour flags a n : Nat) : Bool :=
  x.peer == dev && x.rcolour == colour && Nat.land x.flags flags == flags && decide (x.base ≤ a) && decide (a + n ≤ x.base + x.len)

/-- The entries in use. -/
def State.admitted (s : State) : List Admit := s.admits.filterMap Prod.snd

/-- The flags that an access needs, and its length. -/
def peerNeeds : PeerOp → Nat × Nat
  | .load n => (1, n)
  | .store b _ => (2, b.length)
  | .atomic _ w _ _ _ _ _ => (7, if w then 8 else 4)
  | .join => (7, 8)
  | .hold _ => (7, 8)

/-- An agent of another device, among the releases at a line (R298): a number that no agent of the package has. -/
def peerAgent (dev : Nat) : Nat := 2 ^ 32 + dev

/-- A store from another device: an engine's single write poisons its half-lines or heals those that it covers whole, a lane's leaves
poison standing (R219, R390); an unbacked one is dropped and counted (R216, R414). -/
def State.peerStore (s : State) (a : Nat) (b : List Byte) (engine : Option Bool) : State :=
  if s.backedAt a && s.backedAt (a + b.length - 1) then
    let t := s.foreignStore a b
    match engine with
    | none => t
    | some true => t.addPoison a b.length
    | some false => t.healPoison a b.length
  else s.countError 4 5 1

/-- What a device acquires by an atomic at `.sys`: the releases at that scope that its read observes (R231, R375). -/
def State.peerAcquire (s : State) (dev : Nat) (ord : MemOrd) (sc : Scope) (a n : Nat) : State :=
  if ordAcq ord && sc == .sys then
    ((syncRead s.sync a n).filter fun p => p.scope == .sys && p.serves .sys).foldl (fun (s : State) p => s.tell dev p.know) s
  else s

/-- What a device releases by an atomic at `.sys` (R231, R375). -/
def State.peerPubs (s : State) (dev : Nat) (ord : MemOrd) (sc : Scope) : List Pub :=
  if ordRel ord && sc == .sys then [⟨.atomic, peerAgent dev, none, .sys, s.told dev⟩] else []

/-- What an admitted access of a device does, the bytes of its answer, and whether they carry poison. -/
def State.peerEffect (s : State) (dev a : Nat) (op : PeerOp) : State × List Byte × Bool :=
  let n := (peerNeeds op).2
  let old := s.num a n
  let bad := s.poisoned a n
  let update (s : State) (pubs : List Pub) (v : Nat) : State := s.foreignWrite true pubs a (leBytes n v)
  match op with
  | .load n => (s, s.bytes a n, bad)
  | .store b engine => (s.peerStore a b engine, [], false)
  | .atomic o _ ret ord sc c e =>
    if bad then (s, [], true)
    else
      let s := s.peerAcquire dev ord sc a n
      (update s (s.peerPubs dev ord sc) (atomValue o (8 * n) old c c e).bits, if ret then leBytes n old else [], false)
  | .join => if bad then (s, [], true) else (update s [] (joinWord old), leBytes 8 old, false)
  | .hold id => if bad then (s, [], true) else ((if holdAt old = .held then update s [] (holdWord old id) else s), leBytes 8 old, false)

/-- The mark of a sequence number that has arrived from a device. -/
def seenMark (dev seq : Nat) : Nat := dev * 2 ^ 64 + seq

/-- PEER_ACCESS (R373 to R376): a duplicate is discarded; the access is admitted, or refused and a refused write counted. -/
def execPeerAccess (dev seq addr colour : Nat) (op : PeerOp) (s : State) : Out :=
  .next <|
    if NSet.has s.peerSeen (seenMark dev seq) then s
    else
      let s := { s with peerSeen := NSet.set s.peerSeen (seenMark dev seq) true }
      let x := peerNeeds op
      if addr + x.2 ≤ 2 ^ 40 ∧ (s.admitted.any fun e => e.allows dev colour x.1 addr x.2) = true then
        let y := s.peerEffect dev addr op
        { y.1 with wire := .peerAnswer dev seq y.2.1 (!y.2.2) :: y.1.wire }
      else
        let s := if peerSilent op then s.countError 4 5 1 else s
        { s with wire := .peerAnswer dev seq [] false :: s.wire }

end Sys2Proof.Machine
end

