-- ==== Sys2Proof/Machine/Delegation.lean ====
section
/-!
DEFINITION. Delegation (R377 to R385): the seal of a capability, `delg` and its answer, an arriving handle, an invocation at the owner
and its report at the invoker; a port that has been trained.
-/
namespace Sys2Proof.Machine

/-! ### The wire form (R379, R380) -/

/-- The nonce of a port and a counter value. -/
def nonceOf (port ctr : Nat) : BitVec 96 := BitVec.ofNat 96 (port * 2 ^ 88 + ctr)

/-- HDR of a delegated capability. -/
def wireHdr (owner port : Nat) (cap : Quad) : Nat := owner * 2 ^ 56 + port * 2 ^ 52 + capPerms cap * 2 ^ 40 + capLen cap

/-- The 12 bytes of plaintext, as a number. -/
def sealPlain (cap : Quad) (id : Nat) : BitVec 96 := BitVec.ofNat 96 (capBase cap + capColour cap * 2 ^ 48 + id * 2 ^ 64)

/-- The additional data: HDR and the receiving device's number. -/
def sealData (hdr dev : Nat) : List Byte := leBytes 8 hdr ++ leBytes 1 dev

/-- Key number `key` as bytes (R379). -/
def keyBytes (key : Nat) : List Nat := (leBytes 32 (Config.portKey key).toNat).map BitVec.toNat

/-- The IV of a nonce: its bytes in stored order (R380). -/
def ivBytes (n : BitVec 96) : List Nat := (leBytes 12 n.toNat).map BitVec.toNat

/-- What AES-256-GCM adds to the 12 bytes of plaintext, as a little-endian number (R380). -/
def gcmStream (key : Nat) (n : BitVec 96) : BitVec 96 :=
  BitVec.ofNat 96 (leNat (((Crypto.gcmStream (keyBytes key) (ivBytes n)).take 12).map (BitVec.ofNat 8)))

/-- The GCM tag over additional data and 12 bytes of ciphertext, as a little-endian number (R380). -/
def gcmTag (key : Nat) (n : BitVec 96) (data : List Byte) (c : BitVec 96) : BitVec 128 :=
  BitVec.ofNat 128 (leNat ((Crypto.gcmTag (keyBytes key) (ivBytes n) (data.map BitVec.toNat) ((leBytes 12 c.toNat).map BitVec.toNat)).map
    (BitVec.ofNat 8)))

/-- The 48 bytes of a capability sealed under a key for a device (R380). -/
def sealWire (key owner port ctr dev : Nat) (cap : Quad) (id : Nat) : List Byte :=
  let n := nonceOf port ctr
  let h := wireHdr owner port cap
  let c := sealPlain cap id ^^^ gcmStream key n
  leBytes 8 h ++ leBytes 12 n.toNat ++ leBytes 12 c.toNat ++ leBytes 16 (gcmTag key n (sealData h dev) c).toNat

/-! ### Records and keys (R378, R379) -/

/-- The record of an index, with its generation. -/
def State.delgSlot (s : State) (e : Nat) : DelgSlot := SMap.get ⟨0, none⟩ s.delgs e

/-- The lowest free record. -/
def State.freeDelgIndex (s : State) : Option Nat := (List.range 4096).find? fun e => (s.delgSlot e).body.isNone

/-- The id of a record. -/
def State.delgId (s : State) (e : Nat) : Nat := (s.delgSlot e).gen * 4096 + e

/-- Whether the record with an id is live. -/
def State.delgLive (s : State) (id : Nat) : Bool := (s.delgSlot (id % 4096)).body.isSome && (s.delgSlot (id % 4096)).gen == id / 4096

/-- The key of a port and a device, made when the pair first needs one; the state and the key. -/
def State.keyOf (s : State) (port dev : Nat) : State × Nat :=
  let k := SMap.get 0 s.portKeys (port * 128 + dev)
  if k = 0 then ({ s with portKeys := SMap.set 0 s.portKeys (port * 128 + dev) (s.fresh + 1), fresh := s.fresh + 1 }, s.fresh + 1)
  else (s, k)

/-- Replaces the `delg` that waits on the same record. -/
def State.setWait (s : State) (w : DelgWait) : State :=
  { s with delgWaits := s.delgWaits.map fun (x : DelgWait) => if x.id = w.id then w else x }

/-- Seals and sends the capability of a `delg` that waits, if its device has a port (R381). -/
def State.sendDelg (s : State) (w : DelgWait) : State :=
  match (s.delgSlot w.entry).body, s.delgLive w.id with
  | some d, true =>
    match s.portFor d.peer with
    | none => s
    | some port =>
      let x := s.keyOf port d.peer
      let r := x.1.port port
      let s := x.1.setPort port { r with sealCtr := r.sealCtr + 1 }
      let wire := sealWire x.2 s.device port r.sealCtr d.peer d.cap w.id
      let slot := s.delgSlot w.entry
      let s := { s with
        delgs := SMap.set ⟨0, none⟩ s.delgs w.entry { slot with body := some { d with port := port, ctr := r.sealCtr } }
        wire := .deleg d.peer wire (capColour d.cap) w.id :: s.wire }
      s.setWait { w with sent := true, since := s.timer }
  | _, _ => s

/-- RETRAIN_COMPLETE (R371, R373): the port carries traffic; requests and delegations that waited for one leave. -/
def execRetrainComplete (port partner : Nat) (s : State) : Out :=
  .next <|
    if 16 ≤ port then s
    else
      let s := (s.setPort port ((s.port port).trainedUp partner)).reroute
      (s.delgWaits.filter fun (w : DelgWait) => !w.sent && w.answer.isNone).foldl State.sendDelg s

/-! ### delg (R381) -/

/-- `delg` ends with a status in D. -/
def Ctx.delgEnd (c : Ctx) (g : Guard) (d : BitVec 8) (a : RSrc) (status : Nat) : State :=
  c.done ((c.rope.useAll (c.active g) [(a, 4)]).setS d.toNat (BitVec.ofNat 32 status)) 12

/-- The answer that the issuing `delg` has received. -/
def Ctx.delgAnswer (c : Ctx) : Option (DelgWait × Nat) :=
  c.s.delgWaits.findSome? fun (w : DelgWait) =>
    if w.uid = c.uid ∧ w.k = c.k ∧ w.pc = c.entry.pc then w.answer.map fun v => (w, v) else none

/-- Takes a record, releases the rope's earlier accesses to the peer at system scope, sends the capability if a port is at hand, and
waits. -/
def Ctx.delgStart (c : Ctx) (cap : Quad) (p e : Nat) : State :=
  let w : DelgWait := ⟨e, c.s.delgId e, c.uid, c.k, c.entry.pc, c.s.timer, false, none⟩
  let slot := c.s.delgSlot e
  let s := { c.s with delgs := SMap.set ⟨0, none⟩ c.s.delgs e { slot with body := some ⟨cap, p, 0, 0⟩ }, delgWaits := c.s.delgWaits ++ [w] }
  let x := c.rope.release
  { c with s := (s.sendDelg w).tell p x.2, rope := x.1 }.wait (.delg e)

/-- `delg` (R381). -/
def execDelg (g : Guard) (d : BitVec 8) (a : RSrc) (b : BitVec 8) (s : State) : Out :=
  s.issue fun c =>
    let active := c.active g
    if active = 0 then c.delgEnd g d a 0xFFFFFFFD
    else
      match c.delgAnswer with
      | some x =>
        let s := { c.s with delgWaits := c.s.delgWaits.filter fun (w : DelgWait) => w.id != x.1.id }
        { c with s := s }.delgEnd g d a x.2
      | none =>
        let l := lowLane active
        let cap := c.rope.quad l a.r.toNat
        let p := (c.rope.s b.toNat).toNat
        let steps := [(!(c.rope.tag l a.r.toNat), .capTag), (capOtype cap != 1, .capSealed), (capColour cap != c.party.colour, .capColour),
          (c.s.revoked cap, .revoked), (!(capHas cap (pCMD + pDELEG + pGLOBAL)), .capPerm)]
        match firstCause steps with
        | some cause => c.trapFree cause (withBit 0 l true)
        | none =>
          if 127 < p ∨ p = c.s.device then c.delgEnd g d a 0xFFFFFFFE
          else
            match c.s.freeDelgIndex with
            | none => c.delgEnd g d a 0xFFFFFFFF
            | some e => if c.s.routed p then c.delgStart cap p e else c.delgEnd g d a 0xFFFFFFFE

/-- A `delg` that waits has its status: its slot issues again; without a rope that waits the entry goes. -/
def State.delgSettle (s : State) (w : DelgWait) (status : Nat) : State :=
  let waits : Bool := ((s.party? w.uid).bind fun p => p.ropes[w.k]?).any fun r => r.stack.any fun e => e.wait == some (Wait.delg w.entry)
  if waits then
    (s.setWait { w with answer := some status }).withRope w.uid w.k fun r =>
      { r with stack := r.stack.map fun e => if e.wait = some (.delg w.entry) then { e with wait := none } else e }
  else { s with delgWaits := s.delgWaits.filter fun (x : DelgWait) => x.id != w.id }

/-- DELG_ANSWER (R381): the peer's answer, or 10 ms without a port or an answer. -/
def execDelgAnswer (entry : Nat) (arrived accepted : Bool) (s : State) : Out :=
  .next <|
    match s.delgWaits.find? fun (w : DelgWait) => w.entry == entry && w.answer.isNone with
    | none => s
    | some w =>
      let refuse (s : State) : State := (if s.delgLive w.id then s.freeDelg w.entry else s).delgSettle w 0xFFFFFFFE
      if arrived then (if !w.sent then s else if accepted then s.delgSettle w w.id else refuse s)
      else if w.since + 10000000 ≤ s.timer then refuse s else s

/-! ### A handle arrives (R382) -/

/-- The lowest free slot of an inbox, one whose granule is untagged. -/
def State.inboxSlot (s : State) (x : Admit) : Option Nat :=
  (List.range (2 ^ fieldOf x.inbox 48 4)).find? fun i => !(s.tagAt (fieldOf x.inbox 0 48 + 16 * i))

/-- The lowest free entry of the handle table. -/
def State.freeHandleEntry (s : State) : Option Nat := (List.range 4096).find? fun n => (SMap.get none s.handles n).isNone

/-- The first admission entry that takes a handle from a device's colour, its inbox slot with it. -/
def State.inboxFor (s : State) (dev colour : Nat) : Option (Admit × Nat) :=
  s.admitted.findSome? fun (x : Admit) =>
    let st := (s.queue x.inqueue).st
    if x.peer = dev ∧ x.rcolour = colour ∧ bitOf x.flags 4 = true ∧ st ≠ .free ∧ st ≠ .lost then (s.inboxSlot x).map fun i => (x, i) else none

/-- HANDLE_IN (R382): the wire form is accepted, or refused at once; the record carries what the device has released (R381). -/
def execHandleIn (dev colour id : Nat) (wire : List Byte) (s : State) : Out :=
  .next <|
    match s.inboxFor dev colour, s.freeHandleEntry, decide (wire.length = 48) with
    | some (x, i), some n, true =>
      let cap := capMake (s.handleAt + 64 * n) 64 (pCMD + pGLOBAL) x.lcolour 2
      let s := { s with handles := SMap.set none s.handles n (some ⟨wire, x.lcolour, none⟩) }
      let s := s.devCap (fieldOf x.inbox 0 48 + 16 * i) cap true
      let s := s.postLater x.inqueue ⟨0x0008, 0, 0, 0, i + dev * 2 ^ 8 + id % 2 ^ 16 * 2 ^ 32⟩ (s.told dev)
      { s with wire := .delegAnswer dev true :: s.wire }
    | _, _, _ => { s with wire := .delegAnswer dev false :: s.wire }

/-! ### An invocation at the owner (R383) -/

/-- What the check of an invocation gives: a fault code, or the block, the colour of its job and the record's capability. -/
abbrev Invoked := Nat ⊕ (CmdBlock × Nat × Quad)

/-- Step 5: R274 on the record's capability, as of a colour. -/
def State.blockOf (s : State) (cap : Quad) (colour : Nat) : Invoked :=
  let base := capBase cap
  let steps := [(capOtype cap != 1, .capSealed), (capColour cap != colour, .capColour), (s.revoked cap, .revoked),
    (!(capHas cap pCMD), .capPerm), (decide (capLen cap < 64), .capBounds), (base % 64 != 0, .misaligned),
    (s.poisoned base 64, .poisonConsumed)]
  match firstCause steps with
  | some x => .inl x.code
  | none =>
    let x := CmdBlock.ofBytes (s.bytes base 64)
    if x.bad then .inl Cause.formatCombination.code
    else
      match s.blockCheck colour x (s.tagAt base) (s.tagAt (base + 16)) with
      | some e => .inl e.1.code
      | none => .inr (x, colour, cap)

/-- Steps 1 to 5 of R383 for a wire form that a device invokes under a colour. -/
def State.checkInvoke (s : State) (dev colour : Nat) (wire : List Byte) : Invoked :=
  let h := numAt wire 0 8
  let port := fieldOf h 52 4
  let n : BitVec 96 := BitVec.ofNat 96 (numAt wire 8 12)
  let c : BitVec 96 := BitVec.ofNat 96 (numAt wire 0x14 12)
  let key := SMap.get 0 s.portKeys (port * 128 + dev)
  let tag := (gcmTag key n (sealData h dev) c).toNat
  if key = 0 ∨ wire.length ≠ 48 ∨ tag ≠ numAt wire 0x20 16 then .inl Cause.capTag.code
  else
    let p := (c ^^^ gcmStream key n).toNat
    let id := fieldOf p 64 16
    match (if s.delgLive id then (s.delgSlot (id % 4096)).body else none) with
    | none => .inl Cause.revoked.code
    | some d =>
      if n ≠ nonceOf d.port d.ctr ∨ capBase d.cap ≠ fieldOf p 0 48 ∨ capColour d.cap ≠ fieldOf p 48 16 then .inl Cause.revoked.code
      else if d.peer ≠ dev then .inl Cause.capPerm.code
      else if !(s.admitted.any fun (x : Admit) => x.peer == dev && x.rcolour == colour && bitOf x.flags 3 && x.lcolour == capColour d.cap) then
        .inl Cause.capColour.code
      else s.blockOf d.cap (capColour d.cap)

/-- What the job of an invocation is issued with: its block's capability is captured too, so that a revocation over the block ends it
(R385). -/
def CmdBlock.invoked (x : CmdBlock) (cap : Quad) : Issue :=
  let i := x.issue none false
  { i with caps := cap :: i.caps }

/-- HANDLE_INVOCATION (R383): the owner checks the invocation and runs its job on the die that holds the block; with no card free there
it waits. The job starts with what the device has released to this one. -/
def execHandleInvocation (dev inv colour : Nat) (wire : List Byte) (s : State) : Out :=
  .next <|
    match s.checkInvoke dev colour wire with
    | .inl f => { s with wire := .report dev inv f 0 :: s.wire }
    | .inr (x, lcolour, cap) =>
      let die := homeDie (capBase cap)
      if s.dieFull die then s
      else (s.accept die (52 * die) (.peer dev inv) lcolour none (s.told dev) (x.invoked cap)).1

/-! ### The report at the invoker (R384) -/

/-- The job of an invocation that runs elsewhere. -/
def State.invocation (s : State) (id : Nat) : Option (Job × Nat) :=
  (s.job? id).bind fun j => match j.kind with
    | .handle _ _ t => some (j, t)
    | _ => none

/-- The device that a job's invocation runs at. -/
def Job.owner (j : Job) : Nat :=
  match j.kind with
  | .handle dev _ _ => dev
  | _ => 0

/-- INVOCATION_REPORT (R384): a clean end gives the arrival, then DONE; a fault gives its record alone. Both release what the owner's
job has done. -/
def execInvocationReport (job fault bytes : Nat) (s : State) : Out :=
  .next <|
    match s.invocation job with
    | none => s
    | some (j, _) =>
      let j := { j with fault := fault, written := bytes, know := j.know.join (s.told j.owner) }
      if fault = 0 then (s.jobArrive j bytes).finishJob j.release else s.finishJob j

/-- INVOCATION_REPORT_TIMEOUT (R384): no report for 10 ms. -/
def execInvocationReportTimeout (job : Nat) (s : State) : Out :=
  .next <|
    match s.invocation job with
    | none => s
    | some (j, t) => if t + 10000000 ≤ s.timer then s.finishJob { j with fault := fUNBACKED, written := 0 } else s

end Sys2Proof.Machine
end

