-- ==== Sys2Proof/Machine/Trans.lean ====
section
/-!
DEFINITION. The transcendental cards of R131 (`fex2 flg2 fsin fcos ftanh`) on FP32, correctly rounded. Each is evaluated
in fixed point with a guard of hundreds of bits between a lower and an upper bound; where the two bounds round alike, that
is the correctly rounded value. The exact cases are taken apart first, since every other result is irrational (log 20).
-/
namespace Sys2Proof.Machine

/-- Fraction bits of the fixed-point evaluation. -/
def transBits : Nat := 448

/-- One in fixed point. -/
def fxOne : Nat := 2 ^ transBits

/-- Product of two fixed-point numbers, rounded down. -/
def fxMul (a b : Nat) : Nat := a * b / fxOne

/-- The sum of `x^n / n!` from the term `t` on, `k` terms (exponential series). -/
def fxExpTerms (x : Nat) : Nat → Nat → Nat → Nat
  | 0, _, _ => 0
  | k + 1, n, t => t + fxExpTerms x k (n + 1) (fxMul t x / n)

/-- e^x in fixed point for 0 ≤ x < 1, at most 200 units in the last place low. -/
def fxExp (x : Nat) : Nat := fxExpTerms x 100 1 fxOne

/-- arctan(1/q): the alternating series from the term `t`, `k` terms. -/
def atanInv (q : Nat) : Nat → Nat → Nat → Int
  | 0, _, _ => 0
  | k + 1, n, t => (t / n : Nat) - atanInv q k (n + 2) (t / (q * q))

/-- π × 2^b within 2^12 units, by Machin's formula. -/
def piFixed (b : Nat) : Nat :=
  let one := 2 ^ b
  (16 * atanInv 5 (b / 4 + 8) 1 (one / 5) - 4 * atanInv 239 (b / 14 + 8) 1 (one / 239)).toNat

/-- ln 2 in fixed point: the series of `2 artanh(1/3)`. -/
def artanhTerms (z2 : Nat) : Nat → Nat → Nat → Nat
  | 0, _, _ => 0
  | k + 1, n, t => t / n + artanhTerms z2 k (n + 2) (fxMul t z2)

/-- ln 2 in fixed point. -/
def fxLn2 : Nat := 2 * artanhTerms (fxOne / 9) 150 1 (fxOne / 3)

/-- A real in fixed point known within a number of units: centre and radius. -/
structure Ball where
  mid : Int
  rad : Nat
deriving DecidableEq, Repr

/-- Rounds a positive irrational value `mid × 2^(sc - transBits)`, known within `rad` units: its low end, with a sticky
excess. The guard leaves some 400 bits between the last bit the rounding reads and the radius. -/
def roundBall (f : FFmt) (mode : Round) (neg : Bool) (b : Ball) (sc : Int) : FRes :=
  let lo := (b.mid - b.rad).toNat
  f.round mode false neg lo (sc - transBits) true

/-! ### fex2 -/

/-- 2^a for a finite non-integer a, rounded (R131). -/
def ex2Fin (mode : Round) (neg : Bool) (m : Nat) (e : Int) : FRes :=
  let f := fmtF32
  if 0 ≤ e ∨ m % 2 ^ (-e).toNat = 0 then
    -- an integer exponent: the result is exact
    let n : Nat := if 0 ≤ e then m * 2 ^ (min e 64).toNat else m / 2 ^ (-e).toNat
    let n' : Int := if neg then -(min n 1000000 : Nat) else (min n 1000000 : Nat)
    f.round mode false false 1 n' false
  else if e < -150 then
    -- |a| below 2^-120: the result lies next to 1
    f.round mode false false (if neg then 2 ^ 60 - 1 else 2 ^ 60) (-60) true
  else
    let d := 2 ^ (-e).toNat
    let ip := m / d
    let fr := m % d
    -- for a negative argument, a = -(ip + 1) + (d - fr)/d
    let ipz : Int := if neg then -((min ip 1000000 : Nat) : Int) - 1 else (min ip 1000000 : Nat)
    let frz := if neg then d - fr else fr
    let x := frz * fxLn2 / d
    let v := fxExp x
    roundBall f mode false ⟨v + 2048, 2048⟩ ipz

/-- `fex2` (R131). -/
def fEx2Res (mode : Round) (a : FVal) : FRes :=
  match a with
  | .nan _ => roundX fmtF32 mode (nanOf [a])
  | .inf false => fmtF32.infRes false false
  | .inf true => ⟨0, 0⟩
  | .fin neg m e => if m = 0 then ⟨0x3F800000, 0⟩ else ex2Fin mode neg m e

/-! ### flg2 -/

/-- ln(1 + z) doubled series argument: ln y = 2 artanh((y-1)/(y+1)) for y in [1, 2), in fixed point. -/
def fxLn (y : Nat) : Nat :=
  let z := (y - fxOne) * fxOne / (y + fxOne)
  2 * artanhTerms (fxMul z z) 150 1 z

/-- log2 of a positive finite value that is no power of two (R131). -/
def lg2Fin (mode : Round) (m : Nat) (e : Int) : FRes :=
  let f := fmtF32
  let l := bitLen m
  let ip : Int := e + l - 1
  if m = 2 ^ (l - 1) then f.ofInt mode false ip
  else
    let y := m * fxOne / 2 ^ (l - 1)
    let fr : Int := (fxLn y * fxOne / fxLn2 : Nat)
    let v : Int := ip * (fxOne : Nat) + fr
    let mag : Int := v.natAbs
    -- the computed fraction may stand 4096 units either way of the exact one
    roundBall f mode (decide (v < 0)) ⟨mag, 4096⟩ 0

/-- `flg2` (R131). -/
def fLg2Res (mode : Round) (a : FVal) : FRes :=
  let f := fmtF32
  match a with
  | .nan _ => roundX f mode (nanOf [a])
  | .inf false => f.infRes false false
  | .inf true => f.nanRes fInv
  | .fin neg m e =>
    if m = 0 then ⟨f.signed true f.infCode, fDbz⟩
    else if neg then f.nanRes fInv
    else lg2Fin mode m e

/-! ### fsin, fcos -/

/-- The alternating series `t - t x²/((n)(n+1)) + …` from the term `t`. -/
def fxAltTerms (x2 : Nat) : Nat → Nat → Nat → Int
  | 0, _, _ => 0
  | k + 1, n, t => (t : Int) - fxAltTerms x2 k (n + 2) (fxMul t x2 / (n * (n + 1)))

/-- sin x in fixed point, 0 ≤ x < 1. -/
def fxSin (x : Nat) : Nat := (fxAltTerms (fxMul x x) 60 2 x).toNat

/-- cos x in fixed point, 0 ≤ x < 1. -/
def fxCos (x : Nat) : Nat := (fxAltTerms (fxMul x x) 60 1 fxOne).toNat

/-- The octant of a positive argument `m × 2^e` (e at most 104) and the rest of it, in fixed point, against π/4: the argument is
reduced with π carried to 200 bits more than the argument's integer part needs. -/
def reduceOctant (m : Nat) (e : Int) : Nat × Nat :=
  let b := transBits + 200
  let p4 := piFixed (b + 160) / 2 ^ 162      -- π/4 × 2^b, within one unit and some
  let x : Nat := if 0 ≤ e then m * 2 ^ e.toNat * 2 ^ b else m * 2 ^ b / 2 ^ (-e).toNat
  -- a more exact π/4 scales with the quotient: the quotient has at most 130 bits
  let q := x / p4
  let p4s := piFixed (b + 160)               -- π × 2^(b+160)
  let r := (x * 2 ^ 162 - q * p4s) / 2 ^ 162
  (q, r / 2 ^ 200)

/-- sin or cos of a positive finite argument, as sign and fixed-point magnitude (R131). -/
def sinCosOct (wantCos : Bool) (q r : Nat) : Bool × Nat :=
  let p4 := piFixed transBits / 4
  -- reflect in odd octants
  let oct := q % 8
  let r' := if oct % 2 = 1 then p4 - r else r
  -- quadrant by pairs of octants; within an octant choose sine or cosine of r'
  let useCos : Bool :=
    if wantCos then oct == 0 || oct == 3 || oct == 4 || oct == 7
    else oct == 1 || oct == 2 || oct == 5 || oct == 6
  let neg : Bool :=
    if wantCos then oct == 2 || oct == 3 || oct == 4 || oct == 5
    else oct == 4 || oct == 5 || oct == 6 || oct == 7
  (neg, if useCos then fxCos r' else fxSin r')

/-- `fsin` and `fcos` of a finite non-zero argument. -/
def sinCosFin (mode : Round) (wantCos neg : Bool) (m : Nat) (e : Int) : FRes :=
  let f := fmtF32
  if e + bitLen m ≤ -20 then
    -- |a| below 2^-20: sin a lies just below |a|, cos a just below 1
    if wantCos then f.round mode false false (2 ^ 40 - 1) (-40) true
    else f.round mode false neg (m * 2 ^ 30 - 1) (e - 30) true
  else
    let (q, r) := reduceOctant m e
    let (sn, v) := sinCosOct wantCos q r
    roundBall f mode (if wantCos then sn else sn ^^ neg) ⟨v, 2 ^ 20⟩ 0

/-- `fsin` (R131). -/
def fSinRes (mode : Round) (a : FVal) : FRes :=
  match a with
  | .nan _ => roundX fmtF32 mode (nanOf [a])
  | .inf _ => fmtF32.nanRes fInv
  | .fin neg m e => if m = 0 then ⟨fmtF32.signed neg 0, 0⟩ else sinCosFin mode false neg m e

/-- `fcos` (R131). -/
def fCosRes (mode : Round) (a : FVal) : FRes :=
  match a with
  | .nan _ => roundX fmtF32 mode (nanOf [a])
  | .inf _ => fmtF32.nanRes fInv
  | .fin neg m e => if m = 0 then ⟨0x3F800000, 0⟩ else sinCosFin mode true neg m e

/-! ### ftanh -/

/-- e^x in fixed point for 0 ≤ x < 64, as the product of e^(fraction) and a power of two: x / ln 2 splits off the power. -/
def fxExpBig (x : Nat) : Nat × Nat :=
  let k := x / fxLn2
  (fxExp (x % fxLn2), k)

/-- tanh of a finite non-zero argument (R131): (1 - u)/(1 + u) with u = e^(-2|a|). -/
def tanhFin (mode : Round) (neg : Bool) (m : Nat) (e : Int) : FRes :=
  let f := fmtF32
  if e + bitLen m ≤ -20 then f.round mode false neg (m * 2 ^ 30 - 1) (e - 30) true
  else if 6 ≤ e + bitLen m then f.round mode false neg (2 ^ 40 - 1) (-40) true
  else
    let x : Nat := if 0 ≤ e then 2 * m * 2 ^ e.toNat * fxOne else 2 * m * fxOne / 2 ^ (-e).toNat
    let (v, k) := fxExpBig x
    -- u = 1 / (v × 2^k)
    let w := v * 2 ^ k
    let t := (w - fxOne) * fxOne / (w + fxOne)
    roundBall f mode neg ⟨t, 2 ^ 20⟩ 0

/-- `ftanh` (R131). -/
def fTanhRes (mode : Round) (a : FVal) : FRes :=
  match a with
  | .nan _ => roundX fmtF32 mode (nanOf [a])
  | .inf neg => ⟨fmtF32.signed neg 0x3F800000, 0⟩
  | .fin neg m e => if m = 0 then ⟨fmtF32.signed neg 0, 0⟩ else tanhFin mode neg m e

end Sys2Proof.Machine
end

