-- ==== Sys2Proof/Machine/DrawTree.lean ====
section
/-!
DEFINITION. Draws as pure functions (R181 to R187): carried pairs, the nodes of the three forms, the generator, the tree of a rope.
-/
namespace Sys2Proof.Machine

/-- A carried pair (R181): index and FP32 mass, as bits. -/
structure DPair where
  idx : Nat
  mass : Nat
deriving DecidableEq, Repr

/-- The three forms of a mass (R181); argmax of R187 carries maxima. -/
inductive DForm where
  | weight | logit | maxi
deriving DecidableEq, Repr

/-- No index. -/
def noIdx : Nat := 0xFFFFFFFF

/-- The NaN pair. -/
def DPair.nan : DPair := ⟨noIdx, 0x7FC00000⟩

/-- −∞ as FP32. -/
def f32NegInf : Nat := 0xFF800000

/-- +∞ as FP32. -/
def f32Inf : Nat := 0x7F800000

/-- Zero mass as the form writes it. -/
def DForm.zero : DForm → Nat
  | .weight => 0
  | .logit | .maxi => f32NegInf

/-- The empty pair of a form. -/
def DPair.empty (f : DForm) : DPair := ⟨noIdx, f.zero⟩

/-- A mass that is a NaN. -/
def massNaN (m : Nat) : Bool := isNaN (fmtF32.read m)

/-- Makes a value fit (R182): the mass, or none for a NaN, and the flags; `leaf` says whether a quiet NaN raises INV too. -/
def fitMass (f : DForm) (leaf : Bool) (m : Nat) : Option Nat × FFlags :=
  match fmtF32.read m with
  | .nan sig => (none, if leaf || sig then fInv else 0)
  | .inf neg =>
    match f with
    | .weight => if neg then (some 0, fInv) else (some f32Inf, 0)
    | .logit | .maxi => (some m, 0)
  | .fin neg k _ =>
    if k = 0 then (some 0, 0)
    else match f with
      | .weight => if neg then (some 0, fInv) else (some m, 0)
      | .logit | .maxi => (some m, 0)

/-- A pair made fit (R182). -/
def fitPair (f : DForm) (leaf : Bool) (p : DPair) : DPair × FFlags :=
  match fitMass f leaf p.mass with
  | (none, fl) => (DPair.nan, fl)
  | (some m, fl) => (⟨p.idx, m⟩, fl)

/-- Whether the coin value `v` takes the right side: `v × (wa + wb) < wb × 2^24`, exactly (R183). -/
def coinRight (v wa wb : Nat) : Bool :=
  match fmtF32.read wa, fmtF32.read wb with
  | .fin n1 m1 e1, .fin n2 m2 e2 =>
    let e := min e1 e2
    let a := signedAt n1 m1 e1 e
    let b := signedAt n2 m2 e2 e
    decide ((v : Int) * (a + b) < b * 2 ^ 24)
  | _, _ => false

/-- FP32 one. -/
def f32One : Nat := 0x3F800000

/-- Nearest-even FP32 sum, as bits. -/
def f32Add (a b : Nat) : FRes := roundX fmtF32 .rn (xAdd .rn (fmtF32.read a) (fmtF32.read b))

/-- Nearest-even FP32 difference, as bits. -/
def f32Sub (a b : Nat) : FRes := roundX fmtF32 .rn (xAdd .rn (fmtF32.read a) (fmtF32.read b).negate)

/-- The infinite branch of a node (R183). -/
def infNode (a b : DPair) (v : Nat) : DPair :=
  let w (m : Nat) : Nat := if m = f32Inf then f32One else 0
  ⟨if coinRight v (w a.mass) (w b.mass) then b.idx else a.idx, f32Inf⟩

/-- The weight node (R183). -/
def wnode (v : Nat) (a b : DPair) : DPair × FFlags :=
  if massNaN a.mass || massNaN b.mass then (DPair.nan, 0)
  else if a.mass = f32Inf || b.mass = f32Inf then (infNode a b v, 0)
  else
    let m := f32Add a.mass b.mass
    (⟨if coinRight v a.mass b.mass then b.idx else a.idx, m.bits⟩, if m.bits = f32Inf then fOfl ||| fInx else 0)

/-- The logit node (R183); its roundings raise no flag. -/
def lnode (v : Nat) (a b : DPair) : DPair × FFlags :=
  if massNaN a.mass || massNaN b.mass then (DPair.nan, 0)
  else if a.mass = f32Inf || b.mass = f32Inf then (infNode a b v, 0)
  else
    let mx := if fLess false (fmtF32.read a.mass) (fmtF32.read b.mass) then b.mass else a.mass
    if mx = f32NegInf then (⟨a.idx, f32NegInf⟩, 0)
    else
      let wt (m : Nat) : Nat := (fEx2Res .rn (fmtF32.read (f32Sub m mx).bits)).bits
      let wa := wt a.mass
      let wb := wt b.mass
      let lg := (fLg2Res .rn (fmtF32.read (f32Add wa wb).bits)).bits
      (⟨if coinRight v wa wb then b.idx else a.idx, (f32Add mx lg).bits⟩, 0)

/-- The maximum node (R183): a tie keeps the left side. -/
def xnode (a b : DPair) : DPair × FFlags :=
  if massNaN a.mass || massNaN b.mass then (DPair.nan, 0)
  else (if fLess false (fmtF32.read a.mass) (fmtF32.read b.mass) then b else a, 0)

/-- The node of a form. -/
def DForm.node (f : DForm) (v : Nat) (a b : DPair) : DPair × FFlags :=
  match f with
  | .weight => wnode v a b
  | .logit => lnode v a b
  | .maxi => xnode a b

/-- 64-bit right shift and xor, then a product, of the generator. -/
def mix (z : DWord) (k : Nat) (c : DWord) : DWord := (z ^^^ (z >>> k)) * c

/-- The coin value at counter `c` (R184). -/
def gen (key c : DWord) : Nat :=
  let z := key + (c + 1) * 0x9E3779B97F4A7C15#64
  let z := mix z 30 0xBF58476D1CE4E5B9#64
  let z := mix z 27 0x94D049BB133111EB#64
  let z := z ^^^ (z >>> 31)
  let z := z ^^^ key.rotateRight 29
  let z := mix z 32 0xD6E8FEB86659FD93#64
  let z := z ^^^ (z >>> 32)
  (z.extractLsb' 40 24).toNat

/-- The tree of a draw over 32 positions: node `j` takes `gen(key, c + j)` (R186). -/
def drawTree (f : DForm) (key c : DWord) (v : List (Option DPair)) : Option DPair × FFlags :=
  tree (fun j a b => f.node (gen key (c + BitVec.ofNat 64 j)) a b) v

/-- Whether a pair has zero mass in its form. -/
def DPair.isZero (f : DForm) (p : DPair) : Bool := p.mass == f.zero || (f == .weight && p.mass == 0x80000000)

/-- A pair, or the empty pair for no position or zero mass; whether it is empty (R188). -/
def orEmpty (f : DForm) (p : Option DPair) : DPair × Bool :=
  match p with
  | none => (DPair.empty f, true)
  | some p => if p.isZero f then (DPair.empty f, true) else (p, false)

/-- The weight form over leaves (R182, R188). -/
def drawWeights (key c : DWord) (leaf : List (Option DPair)) : Option DPair × FFlags :=
  let fit := leaf.map (Option.map (fitPair .weight true))
  let t := drawTree .weight key c (fit.map (Option.map Prod.fst))
  (t.1, fit.foldl (fun f x => f ||| (x.elim 0 Prod.snd)) t.2)

/-- K, the nearest FP32 to log2 e (R187). -/
def logK : FVal := fmtF32.read 0x3FB8AA3B

/-- `x × K / T` of finite `x`, rounded once to FP32; with T = +∞ it is a zero (R187). -/
def scaleLogit (x : FVal) (t : FVal) : FRes :=
  match x, logK, t with
  | .fin n1 m1 e1, .fin _ m2 e2, .fin n3 m3 e3 =>
    if m1 = 0 then fmtF32.round .rn false n1 0 0 false
    else
      let q := divMag 40 (m1 * m2) (e1 + e2) m3 e3
      fmtF32.round .rn false (n1 ^^ n3) q.1 q.2.1 q.2.2
  | .fin n1 _ _, _, _ => ⟨fmtF32.signed n1 0, 0⟩
  | .inf n, _, _ => ⟨fmtF32.signed n fmtF32.infCode, 0⟩
  | .nan _, _, _ => ⟨0x7FC00000, 0⟩

/-- Exact difference of two FP32 values as a value. -/
def exactSub (a b : Nat) : FVal := (xAdd .rn (fmtF32.read a) (fmtF32.read b).negate).val

/-- Which form a logit draw at temperature `t` takes: argmax for T ≤ 0 (R187, R192). -/
def isArgmax (t : Nat) : Bool :=
  match fmtF32.read t with
  | .fin neg m _ => m == 0 || neg
  | .inf neg => neg
  | .nan _ => false

/-- The logits as one draw (R187), before EMPTY: the pair, or none for no lane; its flags. -/
def drawLogits (key c : DWord) (t : Nat) (leaf : List (Option DPair)) : Option DPair × FFlags :=
  let leaf := leaf.map (Option.map fun p => ⟨p.idx, ((fitMass .logit true p.mass).1).getD p.mass⟩)
  let present : List DPair := leaf.filterMap id
  if present = [] then (none, 0)
  else if massNaN t || present.any (fun p => massNaN p.mass) then (some DPair.nan, fInv)
  else
    let top := present.foldl (fun m p => if fLess false (fmtF32.read m) (fmtF32.read p.mass) then p.mass else m) f32NegInf
    if isArgmax t then
      if top = f32NegInf then (some ⟨noIdx, f32NegInf⟩, 0)
      else
        let best := present.find? fun p => !(fLess false (fmtF32.read p.mass) (fmtF32.read top))
        (some ⟨(best.getD DPair.nan).idx, top⟩, 0)
    else
      let tv := fmtF32.read t
      let weight (x : Nat) : Nat :=
        if top = f32Inf then (if x = f32Inf then f32Inf else 0)
        else if top = f32NegInf then 0
        else match fmtF32.read x with
          | .inf _ => 0
          | _ => (fEx2Res .rn (fmtF32.read (scaleLogit (exactSub x top) tv).bits)).bits
      let r := drawTree .weight key c (leaf.map (Option.map fun p => ⟨p.idx, weight p.mass⟩))
      match r.1 with
      | none => (none, r.2)
      | some p =>
        if p.isZero .weight then (some ⟨noIdx, f32NegInf⟩, r.2)
        else if p.mass = f32Inf then (some ⟨p.idx, f32Inf⟩, r.2)
        else
          let base := scaleLogit (fmtF32.read top) tv
          let lg := (fLg2Res .rn (fmtF32.read p.mass)).bits
          let ovf := base.flags &&& fOfl
          (some ⟨p.idx, (f32Add base.bits lg).bits⟩, r.2 ||| (if ovf = 0 then 0 else fOfl ||| fInx))

end Sys2Proof.Machine
end

