-- ==== Sys2Proof/Machine/Draws.lean ====
section
/-!
DEFINITION. The draw cards (R188, R189, R191 to R193).
-/
namespace Sys2Proof.Machine

/-! ### draw -/

/-- The leaves of a rope's draw: index and value of each active lane (R188). -/
def Rope.drawLeaves (p : Rope) (active : Word) (a : BitVec 8) (ib : Option RSrc) : List (Option DPair) :=
  (List.range 32).map fun l =>
    if active.getLsbD l then some ⟨ib.elim l fun b => (p.x l b.r.toNat).toNat, (p.x l a.toNat).toNat⟩ else none

/-- The rope's own result before EMPTY, from weights or, at temperature `t`, from logits (R188). -/
def Rope.ownDraw (p : Rope) (active : Word) (a : BitVec 8) (ib : Option RSrc) (t : Option Nat) : Option DPair × FFlags :=
  match t with
  | none => drawWeights p.dkey p.dctr (p.drawLeaves active a ib)
  | some t => drawLogits p.dkey p.dctr t (p.drawLeaves active a ib)

/-- The form of the result: weights, or a log mass (R188). -/
def drawForm (logits : Bool) : DForm := if logits then .logit else .weight

/-- Writes a draw's result (R188): EMPTY, the flag destination, the pair. -/
def Rope.drawWrite (p : Rope) (active : Word) (f : DForm) (k : Option (BitVec 2)) (d : Dst) (r : Option DPair) (fl : FFlags) :
    Rope :=
  let e := orEmpty f r
  let p := match k with
    | none => p
    | some k => p.setK k.toNat (e.2 || massNaN e.1.mass)
  let v := e.1.idx + e.1.mass * 2 ^ 32
  let p := match d with
    | .unif d => p.writeUnif (Fx.pair d v)
    | .lane d => p.writeEach active fun _ => Fx.pair d v
  p.orFpst (fl ||| (if e.2 then fEmpty else 0))

/-- The last-use hints of a draw's value and index. -/
def Rope.drawUsed (p : Rope) (active : Word) (a : RSrc) (ib : Option RSrc) : Rope :=
  p.useAll active ((a, 1) :: ib.toList.map fun b => (b, 1))

/-- The temperature of `draw.l`: a uniform, or the register of the lowest active lane (R188). -/
def Rope.temperature (p : Rope) (active : Word) : CSrc → Nat
  | .unif r => (p.s r.toNat).toNat
  | .reg s => (p.x (lowLane active) s.r.toNat).toNat

/-- `draw` on a rope (R188). -/
def Rope.draw (p : Rope) (active : Word) (o : DrawOp) : Rope :=
  let r := p.ownDraw active o.a.r o.ib (o.l.map (p.temperature active))
  let q := p.drawUsed active o.a o.ib
  let q := match o.l with
    | some (.reg s) => q.useUp active s 1
    | _ => q
  { q.drawWrite active (drawForm o.l.isSome) o.k o.d r.1 r.2 with dctr := p.dctr + 31 }

/-- `draw` (R188). -/
def execDraw (o : DrawOp) (s : State) : Out := s.issue fun c => c.done (c.rope.draw (c.active o.g) o) 12

/-! ### drawm -/

/-- The form of a merge (R189). -/
def mergeForm : DrawMode → DForm
  | .w => .weight
  | .l => .logit
  | .mx => .maxi

/-- A pair of registers as a carried pair (R181). -/
def pairOf (v : DWord) : DPair := ⟨(v.extractLsb' 0 32).toNat, (v.extractLsb' 32 32).toNat⟩

/-- A merge of two carried pairs at a coin value (R182, R183, R189): the pair, EMPTY where it has no mass, the flags. -/
def mergePairs (f : DForm) (v : Nat) (a b : DPair) : DPair × FFlags :=
  let x := fitPair f false a
  let y := fitPair f false b
  let r := f.node v x.1 y.1
  let e := orEmpty f (some r.1)
  (e.1, x.2 ||| y.2 ||| r.2 ||| (if e.2 then fEmpty else 0))

/-- What `drawm` gives lane `l` (R189). -/
def Rope.drawmLane (p : Rope) (o : DrawmOp) (l : Nat) : DPair × FFlags :=
  let b := match o.b with
    | .reg s => p.x64 l s.r.toNat
    | .unif r => p.s64 r.toNat
  let v := match o.coin with
    | some c => (p.x l c.r.toNat).toNat % 2 ^ 24
    | none => gen p.dkey (p.dctr + BitVec.ofNat 64 l)
  mergePairs (mergeForm o.mode) v (pairOf (p.x64 l o.a.r.toNat)) (pairOf b)

/-- `drawm` on a rope (R189). -/
def Rope.drawm (p : Rope) (active : Word) (o : DrawmOp) : Rope :=
  let used := (o.a, 2) :: (o.b.used 2 ++ o.coin.toList.map fun c => (c, 1))
  let q := (p.useAll active used).writeEach active fun l =>
    let r := (p.drawmLane o l).1
    Fx.pair o.d (r.idx + r.mass * 2 ^ 32)
  let q := q.orFpst ((lanesOf active).foldl (fun f l => f ||| (p.drawmLane o l).2) 0)
  if o.coin.isSome then q else { q with dctr := p.dctr + 32 }

/-- `drawm` (R189). -/
def execDrawm (o : DrawmOp) (s : State) : Out := s.issue fun c => c.done (c.rope.drawm (c.active o.g) o) 12

/-! ### drawk -/

/-- `drawk` on a rope (R191). -/
def Rope.drawk (p : Rope) : DrawkForm → Rope
  | .set a b => { p with dkey := p.s64 a.toNat, dctr := p.s64 b.toNat }
  | .ctr b => { p with dctr := p.s64 b.toNat }
  | .get d => (p.setS64 d.toNat p.dkey).setS64 (d.toNat + 2) p.dctr

/-- `drawk` (R191). -/
def execDrawk (form : DrawkForm) (s : State) : Out := s.issue fun c => c.done (c.rope.drawk form) 8

/-! ### drawt -/

/-- The form of a `drawt` phase: 0 weights, 1 logits, 2 argmax (R192). -/
def drawtForm : Option Nat → Nat
  | none => 0
  | some t => if isArgmax t then 2 else 1

/-- The form of the team tree. -/
def teamForm (f : Nat) : DForm := if f = 0 then .weight else if f = 1 then .logit else .maxi

/-- The check of the exchange area at scratch offset `o` (R192). -/
def Party.areaCheck (p : Party) (o : Nat) : Option Cause :=
  if p.scratchSize < o + 1024 then some .capBounds
  else if o % 32 ≠ 0 then some .misaligned
  else if (blocksOf 4096 o 1024).any (fun g => p.pageAt (g * 4096) != .priv) then some .capPerm
  else none

/-- The 32 bytes of a slot of the exchange area (R193). -/
def slotBytes (p : DPair) (key ctr : DWord) : List Byte :=
  leBytes 4 p.idx ++ leBytes 4 p.mass ++ leBytes 8 key.toNat ++ leBytes 8 ctr.toNat ++ leBytes 8 0

/-- A `drawt` up to its arrival (R192). -/
def Ctx.drawtArrive (c : Ctx) (o : DrawtOp) : State :=
  let area := (c.rope.s o.area.toNat).toNat
  let t := o.l.map fun u => (c.rope.s u.toNat).toNat
  let b := o.bar.toNat
  let kind := BarKind.drawt (drawtForm t) area
  let at' := area + 32 * c.k
  match c.party.areaCheck area with
  | some cause => c.trap cause c.entry.mask area
  | none =>
    if c.party.arrivalBad b c.k kind then c.misuse b
    else
      match c.party.missing at' 32 with
      | ln :: _ => c.wait (.refill ln)
      | [] =>
        let r := c.rope.ownDraw (c.active o.g) o.a.r o.ib t
        let own := r.1.getD (DPair.empty (drawForm o.l.isSome))
        let c := { c with party := c.party.swrite false c.rope.fenced at' (slotBytes own c.rope.dkey (c.rope.dctr + 31)) }
        (c.arriveWait { c.rope with dctr := c.rope.dctr + 31 } b kind none (.drawt o) r.2).withParty c.uid Party.wakeCairns

/-- The pair in slot `k` of an exchange area, made fit (R182, R193). -/
def Party.slotPair (p : Party) (f : DForm) (area k : Nat) : DPair × FFlags :=
  fitPair f false ⟨leNat (p.sbytes (area + 32 * k) 4), leNat (p.sbytes (area + 32 * k + 4) 4)⟩

/-- The team tree of a completed phase: the pair and the flags (R192). -/
def Party.teamDraw (p : Party) (w : DrawtWait) : Option DPair × FFlags :=
  let f := teamForm w.form
  let low := w.area + 32 * lowLane w.arrived
  let key := BitVec.ofNat 64 (leNat (p.sbytes (low + 8) 8))
  let ctr := BitVec.ofNat 64 (leNat (p.sbytes (low + 16) 8))
  let fit := (List.range 32).map fun k => if w.arrived.getLsbD k then some (p.slotPair f w.area k) else none
  let t := drawTree f key ctr (fit.map (Option.map Prod.fst))
  (t.1, fit.foldl (fun a x => a ||| (x.elim 0 Prod.snd)) t.2)

/-- A `drawt` whose phase has completed: reads the slots and delivers the team's pair (R192). -/
def Ctx.drawtFinish (c : Ctx) (o : DrawtOp) (w : DrawtWait) : State :=
  let slots := (lanesOf w.arrived).map fun k => w.area + 32 * k
  match slots.flatMap fun a => c.party.missing a 32 with
  | ln :: _ => c.wait (.refill ln)
  | [] =>
    match slots.find? fun a => c.party.spoisoned a 32 with
    | some a => c.trap .poisonConsumed c.entry.mask a
    | none =>
      let t := c.party.teamDraw w
      let active := c.active o.g
      let r := (c.rope.drawUsed active o.a o.ib).drawWrite active (teamForm w.form) o.k o.d t.1 (t.2 ||| w.own)
      let r := { r with
        drawtWait := r.drawtWait.erase w
        dctr := if lowLane w.arrived = c.k then c.rope.dctr + 31 else c.rope.dctr }
      c.done r 12

/-- `drawt` (R192): a rope that has arrived in a phase of this barrier at this address goes on from its arrival. -/
def execDrawt (o : DrawtOp) (s : State) : Out :=
  s.issue fun c =>
    match c.rope.drawtWait.find? fun w => w.pc == c.entry.pc && w.bar == o.bar.toNat with
    | some w => c.drawtFinish o w
    | none => c.drawtArrive o

end Sys2Proof.Machine
end

