-- ==== Sys2Proof/Machine/Plans.lean ====
section
/-!
DEFINITION. Collective plans (R387, R388): reading an image and its limits.
-/
namespace Sys2Proof.Machine

/-- The bytes of an element of a plan operation's TYPE, none for a TYPE that its KIND does not take (R387). -/
def planWidth (kind ty : Nat) : Option Nat :=
  if kind = 4 then (if [0x03, 0x07, 0x11, 0x12, 0x13].elem ty then (elemOf ty).map fun e => e.bits / 8 else none)
  else if kind = 5 then (if ty = 0x0A then some 8 else none)
  else if ty = 0x05 then some 1 else none

/-- An operation from its 32 bytes (R387). -/
def PlanOp.ofBytes (b : List Byte) : PlanOp :=
  ⟨numAt b 0 1, numAt b 1 1, numAt b 2 1, numAt b 4 2, numAt b 6 2, numAt b 8 2, numAt b 0x0A 2, numAt b 0x0C 1, numAt b 0x0D 1 % 128,
   bitOf (numAt b 0x0D 1) 7, numAt b 0x0E 2, numAt b 0x10 8, (List.range (min 4 (numAt b 3 1))).map fun i => numAt b (0x18 + 2 * i) 2⟩

/-- Whether operation `j` of `n` keeps its limits, but for what the rest of the plan says. -/
def PlanOp.ok (o : PlanOp) (j n nsucc : Nat) (p : Plan) (myBase : Nat → Option (Nat × Bool × Bool)) : Bool :=
  let mem := o.kind == 1 || o.kind == 6
  let wire := o.kind == 2 || o.kind == 3
  let two := o.kind == 4 || o.kind == 5
  decide (1 ≤ o.kind) && decide (o.kind ≤ 6) && decide (nsucc ≤ 4)
    && ((planWidth o.kind o.ty).any fun w => o.bytes % w == 0)
    && decide (1 ≤ o.bytes) && decide (o.bytes ≤ 16384) && (if two then decide (o.opr ≤ 2) else o.opr == 0)
    && decide (o.bufa < p.nbuf) && (if two then decide (o.bufb < p.nbuf) else o.bufb == 0)
    && (o.succ.all fun i => decide (j < i) && decide (i < n)) && distinct o.succ
    && (!mem || (myBase o.base).any fun x => decide (o.off + o.bytes ≤ x.1) && (if o.kind = 1 then x.2.1 else x.2.2))
    && (!wire || (decide (o.peer < p.ranks) && o.peer != p.rank))

/-- Reads a plan image for a colour, or none for PLAN_BAD (R387, R388); `device` is this device's number. -/
def planOf (device handle colour : Nat) (b : List Byte) : Option Plan :=
  let n := numAt b 4 2
  let ranks := numAt b 6 1
  let nbase := numAt b 0x12 1
  let bases := (List.range 8).map fun i => numAt b (0x20 + 8 * i) 8
  let map := (List.range 64).map fun k => numAt b (0x60 + k) 1
  let ops := (List.range n).map fun j => PlanOp.ofBytes ((b.drop (0xA0 + 32 * j)).take 32)
  let nsucc (j : Nat) : Nat := numAt b (0xA0 + 32 * j + 3) 1
  let p : Plan :=
    { handle := handle, colour := colour, planid := numAt b 8 8, ranks := ranks, rank := numAt b 7 1, nbuf := numAt b 0x10 2
      slotwait := numAt b 0x14 4, dbytes := numAt b 0x18 8
      bases := (bases.take nbase).map fun x => (fieldOf x 0 40, bitOf x 40, bitOf x 41), rankmap := map.take ranks, ops := ops, next := 0 }
  let head := b.take 4 == [0x46#8, 0x43#8, 0x43#8, 0x50#8] && decide (1 ≤ n) && decide (n ≤ 4096) && decide (2 ≤ ranks)
    && decide (ranks ≤ 64) && decide (p.rank < ranks) && decide (1 ≤ p.nbuf) && decide (p.nbuf ≤ 1024) && decide (1 ≤ nbase)
    && decide (nbase ≤ 8) && numAt b 0x13 1 == 0 && decide (1 ≤ p.slotwait) && decide (p.slotwait ≤ 1000000)
    && decide (0xA0 + 32 * n ≤ b.length)
  let tables := ((bases.take nbase).all fun x => decide (1 ≤ fieldOf x 0 40) && fieldOf x 42 22 == 0)
    && ((bases.drop nbase).all fun x => x == 0) && ((map.take ranks).all fun x => decide (x < 128))
    && ((map.drop ranks).all fun x => x == 0)
    && ((map.take ranks).mapIdx fun k x => k == p.rank || x != device).all id
  let delivered := ((ops.filter fun o => o.kind == 6).map PlanOp.bytes).foldl (· + ·) 0
  let preds (i : Nat) : Nat := (ops.filter fun o => o.succ.elem i).length
  let each := (ops.mapIdx fun j o => o.ok j n (nsucc j) p (fun i => p.bases[i]?) && o.npred == preds j).all id
  if head && tables && delivered == p.dbytes && each then some p else none

/-- The lowest handle that no plan has (R318). -/
def State.freePlan (s : State) : Nat :=
  let used := s.plans.map fun (p : Plan) => p.handle
  (((List.range (used.length + 1)).map (· + 1)).find? fun h => !(used.elem h)).getD 0

/-- Installs a plan; the state and its handle, or none for PLAN_BAD (R388). -/
def State.loadPlan (s : State) (colour : Nat) (b : List Byte) : Option (State × Nat) :=
  let h := s.freePlan
  (planOf s.device h colour b).bind fun p =>
    let held := (s.plans.map fun (x : Plan) => x.ops.length).foldl (· + ·) 0
    if 256 ≤ s.plans.length ∨ 262144 < held + p.ops.length then none else some ({ s with plans := s.plans ++ [p] }, h)

end Sys2Proof.Machine
end

