-- ==== Sys2Proof/Machine/Collectives.lean ====
section
/-!
DEFINITION. Collective replays (R386 to R395): the start of a replay, its operations, chunks that come and go, its completion, `coll`.
-/
namespace Sys2Proof.Machine

/-! ### A replay and its operations -/

/-- The replay with this number. -/
def State.replay? (s : State) (id : Nat) : Option ReplayRec := s.replays.find? fun (r : ReplayRec) => r.id == id

/-- Replaces the replay with the same number. -/
def State.putReplay (s : State) (r : ReplayRec) : State :=
  { s with replays := s.replays.map fun (x : ReplayRec) => if x.id = r.id then r else x }

/-- The plan that a replay runs. -/
def State.planOf (s : State) (r : ReplayRec) : Option Plan := s.plans.find? fun (p : Plan) => p.handle == r.plan

/-- An operation of a replay that has started. -/
structure OpAt where
  r : ReplayRec
  p : Plan
  o : PlanOp
  st : OpSt

/-- Operation `op` of replay `id`, of a kind (R387). -/
def State.opAt (s : State) (id op kind : Nat) : Option OpAt :=
  match s.replay? id with
  | none => none
  | some r =>
    match s.planOf r with
    | none => none
    | some p =>
      match p.ops[op]?, r.ops[op]? with
      | some o, some st => if r.started && o.kind == kind then some ⟨r, p, o, st⟩ else none
      | _, _ => none

/-- An operation completes: the counters of its successors fall (R390). -/
def ReplayRec.finish (r : ReplayRec) (o : PlanOp) (op : Nat) : ReplayRec :=
  { r with ops := r.ops.mapIdx fun i st =>
      if i = op then OpSt.done
      else match st with
        | .waiting n => if o.succ.elem i then .waiting (n - 1) else st
        | _ => st }

/-- The state of an operation changes. -/
def ReplayRec.setOp (r : ReplayRec) (op : Nat) (st : OpSt) : ReplayRec := { r with ops := r.ops.set op st }

/-- A buffer's contents. -/
def ReplayRec.buf (r : ReplayRec) (i : Nat) : Chunk := SMap.get Chunk.empty r.bufs i

/-- Writes a buffer from its beginning on; bytes beyond stay. -/
def ReplayRec.setBuf (r : ReplayRec) (i : Nat) (c : Chunk) : ReplayRec :=
  { r with bufs := SMap.set Chunk.empty r.bufs i { c with bytes := c.bytes ++ (r.buf i).bytes.drop c.bytes.length } }

/-- `k` free bytes. -/
def freeBytes (fresh k : Nat) : List Byte := (List.range k).map fun i => (Config.freeBits (fresh + i)).extractLsb' 0 8

/-- The first `n` bytes of a buffer; those that nothing has written are free values. -/
def State.bufBytes (s : State) (b : List Byte) (n : Nat) : State × List Byte :=
  ({ s with fresh := s.fresh + (n - b.length) }, b.take n ++ freeBytes s.fresh (n - b.length))

/-- A buffer's first `n` bytes with its bitmap and mark. -/
def State.bufChunk (s : State) (r : ReplayRec) (i n : Nat) : State × Chunk :=
  let x := s.bufBytes (r.buf i).bytes n
  (x.1, { r.buf i with bytes := x.2 })

/-! ### The start (R386, R390, R395) -/

/-- Firmware records what the switch slots of a plan expect when the plan is first replayed (R395). -/
def State.recordSlots (s : State) (p : Plan) : State :=
  (p.ops.filter fun o => o.kind == 3 && o.sw).foldl (fun (s : State) o =>
    if s.switches.any fun (x : SwitchSlot) => x.planid == p.planid && x.chunk == o.chunk then s
    else { s with switches := s.switches ++ [⟨p.planid, o.chunk, Config.slotExpects p.planid o.chunk⟩] }) s

/-- The ranks that a slot expects. -/
def State.expects (s : State) (planid chunk : Nat) : DWord :=
  ((s.switches.find? fun (x : SwitchSlot) => x.planid == planid && x.chunk == chunk).map SwitchSlot.expects).getD 0

/-- REPLAY_START (R386): the oldest replay that waits takes its buffers, if they are free. -/
def execReplayStart (s : State) : Out :=
  .next <|
    match s.replays.find? fun (r : ReplayRec) => !r.started with
    | none => s
    | some r =>
      match s.planOf r with
      | none => s
      | some p =>
        if 4096 < s.bufUsed + p.nbuf then s
        else { s.putReplay { r with started := true } with bufUsed := s.bufUsed + p.nbuf }.recordSlots p

/-! ### FETCH (R390, R417) -/

/-- Where an operation's bytes lie in its base. -/
def OpAt.addr (x : OpAt) : Nat := capBase (x.r.caps.getD x.o.base 0) + x.o.off

/-- The key of a page at which an operation of a replay waits. -/
def opPage (op q : Nat) : Nat := op * 2 ^ 27 + q

/-- The far pages that operation `op` waits for, but those that it has met lost. -/
def OpAt.shut (x : OpAt) (op : Nat) (s : State) (wr : Bool) : List Nat :=
  (s.shutPages wr x.addr x.o.bytes).filter fun q => !(NSet.has x.r.lost (opPage op q))

/-- Whether bytes of a range lie in a page that the operation has met lost. -/
def OpAt.lostAt (x : OpAt) (op a n : Nat) : Bool := (blocksOf (2 ^ 21) a n).any fun q => NSet.has x.r.lost (opPage op q)

/-- An operation waits for pages, and asks for them in the engines' class (R287). -/
def State.awaitPages (s : State) (wr : Bool) (x : OpAt) (op : Nat) (l : List Nat) : State :=
  let r := { x.r with waits := l.foldl (fun m q => NSet.set m (opPage op q) true) x.r.waits }
  (s.putReplay r).askAll wr x.r.colour l

/-- A FETCH ends with its bytes. -/
def State.fetched (s : State) (x : OpAt) (op : Nat) (bytes : List Byte) (bad : Bool) : State :=
  let c : Chunk := ⟨bytes, BitVec.ofNat 64 (2 ^ x.p.rank), bad, x.r.know⟩
  s.putReplay (({ x.r with got := x.r.got.filter fun y => y.1 != op }.setBuf x.o.bufa c).finish x.o op)

/-- A FETCH at a peer: it asks, then takes the answer; a device without a route answers at once (R373, R376). -/
def State.fetchPeer (s : State) (x : OpAt) (id op : Nat) : State :=
  match x.r.got.find? fun y => y.1 == op with
  | some y => if y.2.2 then s.fetched x op (List.replicate x.o.bytes memInit) true else s.fetched x op y.2.1 false
  | none =>
    if s.peerOut.any fun (r : PeerReq) => r.src == .replay id op then s
    else if s.routed (peerOf x.addr) then s.sendPeer x.addr (.load x.o.bytes) (.replay id op) x.r.colour (x.addr - x.o.off) 4
    else s.fetched x op (List.replicate x.o.bytes memInit) true

/-- FETCH (R390). -/
def execFetch (id op : Nat) (s : State) : Out :=
  .next <|
    match s.opAt id op 1 with
    | none => s
    | some x =>
      if x.st ≠ .waiting 0 then s
      else if isPeer x.addr then s.fetchPeer x id op
      else if x.shut op s false ≠ [] then s.awaitPages false x op (x.shut op s false)
      else
        (s.touchPage false x.addr x.o.bytes).fetched x op (s.bytes x.addr x.o.bytes)
          (s.poisoned x.addr x.o.bytes || x.lostAt op x.addr x.o.bytes)

/-! ### SEND (R389, R390, R394) -/

/-- Sends a SEND's chunk toward rank PEER, by a port that carries traffic; its device is told what the chunk carries (R393). -/
def State.sendChunk (s : State) (x : OpAt) (op : Nat) : State :=
  let dev := x.p.rankmap.getD x.o.peer 0
  match s.portFor dev with
  | none => s
  | some _ =>
    let y := s.bufChunk x.r x.o.bufa x.o.bytes
    let r := x.r.setBuf x.o.bufa y.2
    let s := y.1.putReplay (r.setOp op (.sent s.timer false))
    { s with wire := .chunk dev x.p.planid x.r.seq x.p.rank x.o.chunk x.o.sw y.2 :: s.wire }.tell dev y.2.know

/-- SEND (R390): the chunk leaves; without a port that carries traffic it waits for one (R373). -/
def execSend (id op : Nat) (s : State) : Out :=
  .next <|
    match s.opAt id op 2 with
    | none => s
    | some x => if x.st = .waiting 0 then s.sendChunk x op else s

/-- CHUNK_ACKNOWLEDGEMENT (R389, R390): the SEND completes; a refused chunk waits to be sent again. -/
def execChunkAcknowledgement (id op : Nat) (accepted : Bool) (s : State) : Out :=
  .next <|
    match s.opAt id op 2 with
    | none => s
    | some x =>
      match x.st with
      | .sent t false => s.putReplay (if accepted then x.r.finish x.o op else x.r.setOp op (.sent t true))
      | _ => s

/-- CHUNK_RESEND (R389): 100 µs after it was sent, a refused chunk is sent again. -/
def execChunkResend (id op : Nat) (s : State) : Out :=
  .next <|
    match s.opAt id op 2 with
    | none => s
    | some x =>
      match x.st with
      | .sent t true => if t + 100000 ≤ s.timer then s.sendChunk x op else s
      | _ => s

/-! ### REDUCE and MERGE (R390) -/

/-- The elements of some bytes, `w` bytes each. -/
def elemsOf (w : Nat) (b : List Byte) : List Nat := (List.range (b.length / w)).map fun e => numAt b (e * w) w

/-- The node of R150 for a TYPE and OPR. -/
def chunkNode (ty opr a b : Nat) : Nat :=
  let op : RedOp := if opr = 0 then .add else if opr = 1 then .min else .max
  let bf : Nat := match op with
    | .add => (roundX fmtBF16 .rn (xAdd .rn (fmtBF16.read a) (fmtBF16.read b))).bits
    | _ => (fMinMax fmtBF16 (op == .max) a b).bits
  match elemOf ty with
  | some .i32 => (redNode op .i32 a b).bits
  | some .n32 => (redNode op .n32 a b).bits
  | some .f32 => (redNode op .f32 a b).bits
  | some .f64 => (redNode op .f64 a b).bits
  | some .bf16 => bf
  | _ => a

/-- The bytes of an element of a TYPE. -/
def elemBytes (ty : Nat) : Nat := (planWidth 4 ty).getD 1

/-- Joins two sides element by element, `w` bytes each; `f` is given the element's number. -/
def joinSides (w : Nat) (f : Nat → Nat → Nat → Nat) (a b : List Byte) : List Byte :=
  (((elemsOf w a).zip (elemsOf w b)).mapIdx fun e x => leBytes w (f e x.1 x.2)).flatten

/-- Two sides of a REDUCE or MERGE: a poisoned side is absent, and its contributions are dropped; both poisoned, the mark stays and
nothing is dropped. The result and what is dropped (R390). -/
def joinChunks (f : List Byte → List Byte → List Byte) (a b : Chunk) : Chunk × DWord :=
  let both : Chunk := { a with bitmap := a.bitmap ||| b.bitmap, know := a.know.join b.know }
  match a.poison, b.poison with
  | false, false => ({ both with bytes := f a.bytes b.bytes }, 0)
  | true, true => (both, 0)
  | false, true => (a, b.bitmap)
  | true, false => (b, a.bitmap)

/-- The dropped set grows, and a dropped side is counted (R390, R414). -/
def State.dropSide (s : State) (a b : Chunk) : State := if a.poison != b.poison then s.countError 4 7 1 else s

/-- An operation that joins BUFA and BUFB into BUFA. -/
def State.joinBufs (s : State) (x : OpAt) (op : Nat) (f : List Byte → List Byte → List Byte) : State :=
  let y := s.bufChunk x.r x.o.bufa x.o.bytes
  let z := y.1.bufChunk x.r x.o.bufb x.o.bytes
  let c := joinChunks f y.2 z.2
  let r := (x.r.setBuf x.o.bufa c.1).finish x.o op
  (z.1.dropSide y.2 z.2).putReplay { r with dropped := r.dropped ||| c.2 }

/-- REDUCE (R390). -/
def execReduce (id op : Nat) (s : State) : Out :=
  .next <|
    match s.opAt id op 4 with
    | none => s
    | some x =>
      if x.st = .waiting 0 then s.joinBufs x op (joinSides (elemBytes x.o.ty) fun _ a b => chunkNode x.o.ty x.o.opr a b) else s

/-- The form of a MERGE (R387). -/
def mergeOpr (opr : Nat) : DForm := if opr = 0 then .weight else if opr = 1 then .logit else .maxi

/-- The node of a MERGE on pairs as numbers, operation `j`, pair `e` (R182 to R184, R390). -/
def mergeNode (f : DForm) (key ctr : DWord) (j e a b : Nat) : Nat :=
  let pair (v : Nat) : DPair := (fitPair f false ⟨v % 2 ^ 32, v / 2 ^ 32⟩).1
  let r := (f.node (gen key (ctr + BitVec.ofNat 64 (65536 * j + e))) (pair a) (pair b)).1
  r.idx + r.mass * 2 ^ 32

/-- MERGE (R390). -/
def execMerge (id op : Nat) (s : State) : Out :=
  .next <|
    match s.opAt id op 5 with
    | none => s
    | some x =>
      if x.st = .waiting 0 then s.joinBufs x op (joinSides 8 fun e a b => mergeNode (mergeOpr x.o.opr) x.r.key x.r.ctr op e a b) else s

/-! ### Chunks that arrive (R389, R394, R395) -/

/-- The rank that marks a chunk of a switch. -/
def switchRank : Nat := 255

/-- The replay that a chunk names, with its plan. -/
def State.chunkReplay (s : State) (planid seq : Nat) : Option (ReplayRec × Plan) :=
  s.replays.findSome? fun (r : ReplayRec) =>
    match s.planOf r with
    | some p => if p.planid = planid ∧ r.seq = seq then some (r, p) else none
    | none => none

/-- Whether a replay's RECV still waits for a chunk: one that takes it whole, or one that has taken a switch's partial. -/
def recvWaits (r : ReplayRec) (p : Plan) (from' chunk : Nat) (late : Bool) : Bool :=
  (p.ops.zip r.ops).any fun x =>
    x.1.kind == 3 && x.1.chunk == chunk && (if late || from' == switchRank then x.1.sw else !x.1.sw && x.1.peer == from')
      && (match x.2 with
        | .waiting _ => true
        | .held => late
        | .sent _ _ => false
        | .done => false)

/-- What a chunk that arrives carries of its senders' releases: of its device, or of every rank's when a switch has summed it (R393). -/
def State.chunkKnow (s : State) (p : Plan) (c : ChunkIn) : Know :=
  if c.sw then p.rankmap.foldl (fun (k : Know) d => k.join (s.told d)) Know.none else s.told c.dev

/-- A chunk arrives: acknowledged once its replay has started, refused before; a duplicate is discarded (R373, R389). -/
def State.takeChunk (s : State) (c : ChunkIn) (late : Bool) : State :=
  let from' := if c.sw && !late then switchRank else c.rank
  let say (s : State) (ok : Bool) : State := { s with wire := .chunkAnswer c.dev c.planid c.seq c.chunk ok :: s.wire }
  match s.chunkReplay c.planid c.seq with
  | some (r, p) =>
    if !r.started then say s false
    else if recvWaits r p from' c.chunk late && !(s.inbound.any fun (x : Inbound) =>
        x.planid == c.planid && x.seq == c.seq && x.from' == from' && x.chunk == c.chunk && x.late == late) then
      say { s with inbound := s.inbound ++ [⟨c.planid, c.seq, from', c.chunk, late, ⟨c.bytes, c.bitmap, c.poison, s.chunkKnow p c⟩⟩] } true
    else say s true
  | none => say s (s.plans.any fun (p : Plan) => p.planid == c.planid && decide (c.seq < p.next))

/-- CHUNK_ARRIVAL (R389). -/
def execChunkArrival (c : ChunkIn) (s : State) : Out := .next (s.takeChunk c false)

/-- The arrived chunk that a RECV waits for. -/
def State.inboundFor (s : State) (x : OpAt) (from' : Nat) (late : Bool) : Option Inbound :=
  s.inbound.find? fun (y : Inbound) =>
    y.planid == x.p.planid && y.seq == x.r.seq && y.from' == from' && y.chunk == x.o.chunk && y.late == late

/-- An arrived chunk has been taken. -/
def State.dropInbound (s : State) (y : Inbound) : State := { s with inbound := s.inbound.erase y }

/-- Adds the late contributions that have come, in ascending rank, and completes the RECV when its slot is covered (R395). -/
def State.addLate (id op : Nat) : Nat → State → State
  | 0, s => s
  | n + 1, s =>
    match s.opAt id op 3 with
    | none => s
    | some x =>
      if x.st ≠ .held then s
      else
        let have' := (x.r.buf x.o.bufa).bitmap ||| x.r.dropped
        let missing := (List.range 64).filter fun k => (s.expects x.p.planid x.o.chunk).getLsbD k && !(have'.getLsbD k)
        match missing with
        | [] => s.putReplay (x.r.finish x.o op)
        | k :: _ =>
          match s.inboundFor x k true with
          | none => s
          | some y =>
            let ty := Config.slotElem x.p.planid x.o.chunk
            let m := s.bufChunk x.r x.o.bufa x.o.bytes
            let z := m.1.bufBytes y.body.bytes x.o.bytes
            let late : Chunk := { y.body with bytes := z.2 }
            let c := joinChunks (joinSides (elemBytes ty) fun _ a b => chunkNode ty 0 a b) m.2 late
            let r := x.r.setBuf x.o.bufa c.1
            State.addLate id op n
              (((z.1.dropSide m.2 late).dropInbound y).putReplay { r with dropped := r.dropped ||| c.2 })

/-- A RECV takes its chunk; a switch's partial leaves it to wait for the rest (R395). -/
def State.recvChunk (s : State) (x : OpAt) (id op : Nat) (y : Inbound) : State :=
  let r := x.r.setBuf x.o.bufa y.body
  let e := s.expects x.p.planid x.o.chunk
  if x.o.sw && e &&& ~~~y.body.bitmap != 0 then
    let r := { r.setOp op .held with order := some (r.order.getD y.body.bitmap) }
    State.addLate id op 65 ((s.dropInbound y).putReplay r)
  else (s.dropInbound y).putReplay (r.finish x.o op)

/-- RECV (R390, R395). -/
def execRecv (id op : Nat) (s : State) : Out :=
  .next <|
    match s.opAt id op 3 with
    | none => s
    | some x =>
      if x.st ≠ .waiting 0 then s
      else
        match s.inboundFor x (if x.o.sw then switchRank else x.o.peer) false with
        | none => s
        | some y => s.recvChunk x id op y

/-- The held RECV of a chunk. -/
def heldOp (r : ReplayRec) (p : Plan) (chunk : Nat) : Option Nat :=
  (List.range p.ops.length).find? fun i =>
    (p.ops[i]?).any fun (o : PlanOp) => o.kind == 3 && o.sw && o.chunk == chunk && r.ops[i]? == some OpSt.held

/-- LATE_CONTRIBUTION (R395): it arrives as any chunk, and is added once every lower rank that is missing has been. -/
def execLateContribution (c : ChunkIn) (s : State) : Out :=
  .next <|
    let s := s.takeChunk c true
    match s.chunkReplay c.planid c.seq with
    | none => s
    | some (r, p) =>
      match heldOp r p c.chunk with
      | none => s
      | some op => State.addLate r.id op 65 s

/-! ### DELIVER (R390, R417) -/

/-- Bytes cut at multiples of 64 of their addresses. -/
def halfPieces (a : Nat) (b : List Byte) : List (Nat × List Byte) :=
  (blocksOf 64 a b.length).map fun h =>
    let lo := max a (h * 64)
    (lo, (b.drop (lo - a)).take (min (a + b.length) (h * 64 + 64) - lo))

/-- Writes one piece of a DELIVER: dropped and counted where the span does not back it or its page is lost; poison travels, and a
half-line written whole with none is healed (R219, R414, R417). The state and the bytes written. -/
def State.deliverPiece (s : State) (x : OpAt) (op : Nat) (bad : Bool) (a : Nat) (b : List Byte) : State × Nat :=
  let n := b.length
  if s.backedAt a && s.backedAt (a + n - 1) && !(x.lostAt op a n) then
    let s := (s.store (.plain x.r.agent 0) a b).touchPage true a n
    (if bad then s.addPoison a n else s.healPoison a n, n)
  else (s.countError 4 5 n, 0)

/-- Writes a DELIVER's bytes. -/
def State.deliver (s : State) (x : OpAt) (op : Nat) (c : Chunk) : State :=
  let w := (halfPieces x.addr c.bytes).foldl (fun (t : State × Nat) e =>
    let u := t.1.deliverPiece x op c.poison e.1 e.2
    (u.1, t.2 + u.2)) (s, 0)
  let r := (x.r.setBuf x.o.bufa c).finish x.o op
  w.1.putReplay { r with written := r.written + w.2 }

/-- A DELIVER to a peer: it is sent with its poison mark, and ends when it has been answered (R375, R376, R390). -/
def State.deliverPeer (s : State) (x : OpAt) (id op : Nat) (c : Chunk) : State :=
  match x.st with
  | .waiting _ =>
    let r := x.r.setBuf x.o.bufa c
    if s.routed (peerOf x.addr) then
      ((s.sendPeer x.addr (.store c.bytes (some c.poison)) (.replay id op) x.r.colour (x.addr - x.o.off) 4).tell (peerOf x.addr) c.know).putReplay (r.setOp op (.sent s.timer false))
    else (s.countError 4 5 1).putReplay (r.finish x.o op)
  | _ =>
    if s.peerOut.any fun (r : PeerReq) => r.src == .replay id op then s
    else
      let ok := (x.r.got.find? fun y => y.1 == op).any fun y => !y.2.2
      let r := x.r.finish x.o op
      s.putReplay { r with got := r.got.filter fun y => y.1 != op, written := r.written + (if ok then x.o.bytes else 0) }

/-- DELIVER (R390). -/
def execDeliver (id op : Nat) (s : State) : Out :=
  .next <|
    match s.opAt id op 6 with
    | none => s
    | some x =>
      let ready := match x.st with
        | .waiting n => n == 0
        | .sent _ _ => true
        | .held => false
        | .done => false
      if !ready then s
      else
        let y := s.bufChunk x.r x.o.bufa x.o.bytes
        if isPeer x.addr then y.1.deliverPeer x id op y.2
        else if x.shut op s true ≠ [] then s.awaitPages true x op (x.shut op s true)
        else if s.cowFull (s.cowPages x.addr x.o.bytes) then s
        else y.1.deliver x op y.2

/-! ### REPLAY_COMPLETE (R391, R395) -/

/-- The records of a completion: FAULT for a dropped set, ORDER_CHANGED, DONE if REC was set and neither of them. -/
def ReplayRec.records (r : ReplayRec) (job : Nat) (post : Bool) : List Record :=
  let a : List Record := if r.dropped = 0 then [] else [⟨0x0002, fPOISON, job, r.written, r.dropped.toNat⟩]
  let b : List Record := match r.order with
    | none => []
    | some m => [⟨0x0006, 0, job, r.written, m.toNat⟩]
  if post && a.isEmpty && b.isEmpty then [⟨0x0001, 0, job, r.written, 0⟩] else a ++ b

/-- What a replay's completion releases. -/
def ReplayRec.knows (r : ReplayRec) : Know := r.know.learn r.agent 1

/-- The completion of a `coll`'s replay: its arrival, its records, then its card. -/
def State.collDone (s : State) (r : ReplayRec) (p : Plan) (j : Job) : State :=
  let j := { j with written := r.written, know := j.know.join r.knows }
  let s := (s.setJob j).jobArrive j p.dbytes
  let k := j.release.knows
  match j.by' with
  | .rope uid n =>
    let s := (r.records j.id j.post).foldl (fun (s : State) x => s.postRope uid n x k) s
    (s.dropJob j.id).learnLaunch uid k
  | _ => s.dropJob j.id

/-- The JOB field of a starter's records (R276, R334). -/
def State.starterJob (s : State) : Starter → Nat
  | .command q seq => ((s.cmd? q seq).map Cmd.tag).getD 0
  | .node _ n => 0x00010000 + n

/-- The completion of a REPLAY command's or node's replay: its records, then its own completion. -/
def State.replayCmdDone (s : State) (r : ReplayRec) (b : Starter) : State :=
  let s := (r.records (s.starterJob b) false).foldl (fun (s : State) x => s.postLater r.queue x r.knows) s
  s.starterEnd b (.of stOK 0) r.knows

/-- REPLAY_COMPLETE (R391): every operation has completed; the buffers and the chunks that nothing took go. -/
def execReplayComplete (id : Nat) (s : State) : Out :=
  .next <|
    match s.replay? id with
    | none => s
    | some r =>
      match s.planOf r with
      | none => s
      | some p =>
        if r.started && r.ops.all (fun o => o == .done) then
          let s := s.dropReplay id
          let s := { s with inbound := s.inbound.filter fun (x : Inbound) => !(x.planid == p.planid && x.seq == r.seq) }
          match r.job.bind s.job?, r.by' with
          | some j, _ => s.collDone r p j
          | none, some b => s.replayCmdDone r b
          | none, none => s
        else s

/-! ### coll (R392) -/

/-- The first check that a base quad fails, base after base. -/
def Ctx.baseSteps (c : Ctx) (p : Plan) (b : Nat) : List (Bool × Cause) :=
  (p.bases.mapIdx fun i x =>
    c.zeroSteps (b + 4 * i) ((if x.2.1 then pLD else 0) + (if x.2.2 then pST else 0)) 0 x.1 1).flatten

/-- `coll`, its checks made (R392): the job card, the replay, its number in D. -/
def Ctx.collStart (c : Ctx) (o : CollOp) (p : Plan) (quads : List Quad) : State :=
  let die := dieOf c.party.core
  if c.s.cardsFull c.uid die then c.waitCard (o.cairn.map BitVec.toNat)
  else
    let x := { c.rope with capt := none }.release
    let cairn := c.captured (o.cairn.map BitVec.toNat)
    let a := c.s.accept die c.party.core (.rope c.uid c.k) c.party.colour cairn x.2 ⟨.replay c.s.replayCtr, [], [], quads, none, o.post, false⟩
    let y := a.1.issueReplay p (some a.2) none c.party.queue quads die (c.rope.s64 o.c.toNat) (c.rope.s64 (o.c.toNat + 2)) x.2
    { c with s := y.1 }.done (x.1.setS o.d.toNat (BitVec.ofNat 32 y.2.2)) 16

/-- `coll` (R392). -/
def execColl (o : CollOp) (s : State) : Out :=
  s.issue fun c => c.whole <|
    let n := o.nm1.toNat + 1
    match c.s.plan? c.party.colour (c.rope.s o.a.toNat).toNat with
    | none => c.done (c.rope.setS o.d.toNat 0xFFFFFFFF#32) 16
    | some p =>
      if p.bases.length ≠ n then c.done (c.rope.setS o.d.toNat 0xFFFFFFFF#32) 16
      else
        match firstCause (c.baseSteps p o.b.toNat) with
        | some e => c.trapZero e 0
        | none =>
          match c.party.cairnStep (o.cairn.map BitVec.toNat) with
          | some e => c.trapZero e.1 e.2
          | none => c.collStart o p ((List.range n).map fun i => c.rope.quad 0 (o.b.toNat + 4 * i))

end Sys2Proof.Machine
end

