-- ==== Sys2Proof/Machine/Commands.lean ====
section
/-!
DEFINITION. Commands (R316 to R318, R322, R333, R336, R377, R388): how a queue takes one from its ring, and what each does.
-/
namespace Sys2Proof.Machine

/-! ### Taking a command (R316) -/

/-- The next command of a queue, when it may start: mapped, ACTIVE, and the previous command completed, or started when the command
carries NOWAIT. The number, the bytes, and what its start acquires. -/
def State.cmdAt (s : State) (q : Nat) : Option (Nat × List Byte × Know) :=
  let r := s.queue q
  let b := s.bytes (r.ring + 64 * (r.head % 2 ^ r.rsize)) 64
  if r.st == .active && r.slot.isSome && decide (r.head < r.tail)
      && (bitOf (numAt b 1 1) 0 || r.head == 0 || (s.cmd? q (r.head - 1)).isNone) then
    some (r.head, b, r.know)
  else none

/-- The ranges of the span that a command is read from and that it names, with those that it writes marked, where they are granted
(R317, R318). -/
def State.cmdSpans (s : State) (q : Nat) (b : List Byte) : List (Bool × Nat × Nat) :=
  let r := s.queue q
  let own : List (Bool × Nat × Nat) := match numAt b 0 1 with
    | 0x01 | 0x03 => [(false, numAt b 8 8, numAt b 0x10 8)]
    | 0x02 => [(false, numAt b 0x20 8, 16 * numAt b 0x28 1)]
    | 0x07 => [(false, numAt b 0x10 8, 32)]
    | 0x08 => [(true, numAt b 8 8, 8)]
    | 0x0B =>
      if numAt b 2 2 = 0 then [(false, numAt b 8 8, numAt b 0x10 8)]
      else ((s.plan? r.colour (numAt b 8 4)).map fun p => (false, numAt b 0x10 8, 16 * p.bases.length)).toList
    | _ => []
  (false, r.ring + 64 * (r.head % 2 ^ r.rsize), 64) :: own.filter fun x => s.granted r.colour x.2.1 x.2.2

/-- The far pages at which a queue's next command waits (R283). -/
def State.cmdShut (s : State) (q : Nat) (b : List Byte) : List (Bool × Nat) :=
  ((s.cmdSpans q b).flatMap fun x => (s.shutPages x.1 x.2.1 x.2.2).map fun p => (x.1, p)).eraseDups

/-- HEAD advances past a command that has been taken. -/
def State.takeCmd (s : State) (q : Nat) : State := s.setQueue q { s.queue q with head := (s.queue q).head + 1 }

/-- A queue's next command waits at far pages (R283). -/
def State.askCmd (s : State) (q : Nat) (l : List (Bool × Nat)) : State :=
  l.foldl (fun (s : State) x => s.ask ⟨x.2, .engine, x.1, (s.queue q).colour, none⟩) s

/-- Runs a queue's next command, if `pick` takes it and nothing holds it back. -/
def State.onCmd (s : State) (q : Nat) (pick : List Byte → Bool) (f : State → Nat → List Byte → Know → State) : Out :=
  .next <|
    match s.cmdAt q with
    | none => s
    | some x =>
      match s.cmdShut q x.2.1 with
      | [] => if pick x.2.1 then f (s.takeCmd q) x.1 x.2.1 x.2.2 else s
      | l => s.askCmd q l

/-- OP of a command. -/
def opOf (b : List Byte) : Nat := numAt b 0 1

/-- TAG of a command. -/
def tagOf (b : List Byte) : Nat := numAt b 4 4

/-- A command completes at once. -/
def State.endNow (s : State) (q : Nat) (b : List Byte) (x : Record) (k : Know) : State := s.cmdDone q (tagOf b) x k

/-- A command completes at once with a status and a DETAIL. -/
def State.endWith (s : State) (q : Nat) (b : List Byte) (status detail : Nat) (k : Know) : State :=
  s.endNow q b (.of status detail) k

/-- A command is in execution from now on. -/
def State.keep (s : State) (q seq : Nat) (b : List Byte) (w : Work) : State := { s with cmds := s.cmds ++ [⟨q, seq, tagOf b, w⟩] }

/-- Whether a firmware core holds the lead (R404, R405). -/
def State.led (s : State) : Bool := s.fw.lead.isSome

/-- The bytes that a command names by an address at 0x08 and a length at 0x10, or none where they are not granted (R317). -/
def State.image (s : State) (colour : Nat) (b : List Byte) : Option (List Byte) :=
  let a := numAt b 8 8
  let n := numAt b 0x10 8
  if s.granted colour a n then some (s.bytes a n) else none

/-! ### LOAD (R46 to R50, R318) -/

/-- An OP that R318 does not list. -/
def unlisted (op : Nat) : Bool := op == 0 || decide (0x0C < op)

/-- LOAD of an object's bytes. Without room for its texts firmware leaves the command in the ring (log 8). -/
def State.loadCmd (s : State) (q : Nat) (b : List Byte) (k : Know) : Option State :=
  let r := s.queue q
  if headOk b 0 && restZero b 0x18 then
    match s.image r.colour b with
    | none => some (s.endWith q b stBAD 0 k)
    | some obj =>
      match s.judge r.colour (bitOf r.flags 0) obj with
      | .inl e => some (s.endWith q b 0x0104 (e.1 * 2 ^ 32 + e.2 % 2 ^ 32) k)
      | .inr p => (s.installObject r.colour p).map fun x => x.1.endWith q b stOK x.2 k
  else some (s.endWith q b stBAD 0 k)

/-- LOAD (R318); a command whose OP is not listed is taken here, and completes with BAD_COMMAND. -/
def execLoad (q : Nat) (s : State) : Out :=
  .next <|
    match s.cmdAt q with
    | none => s
    | some x =>
      match s.cmdShut q x.2.1 with
      | [] =>
        if unlisted (opOf x.2.1) then (s.takeCmd q).endWith q x.2.1 stBAD 0 x.2.2
        else if opOf x.2.1 = 0x01 ∧ s.led = true then ((s.takeCmd q).loadCmd q x.2.1 x.2.2).getD s
        else s
      | l => s.askCmd q l

/-! ### LAUNCH (R322, R324) -/

/-- LAUNCH (R324): it waits for the lead's code selection (R405), for a change that waits for a safe point (R412), and for room for a
translation (log 8). -/
def execLaunch (q : Nat) (s : State) : Out :=
  s.onCmd q (fun b => opOf b == 0x02 && s.led && !(s.safeHolds q) && !(s.launchHeld (s.queue q).colour b)) fun t seq b k =>
    match t.startLaunch q (.command q seq) b k with
    | (t, some x) => t.endNow q b x k
    | (t, none) => t.keep q seq b (.launch s.launchCtr)

/-! ### GRAPHLOAD, GRAPH, UNLOAD (R318, R333, R334) -/

/-- GRAPHLOAD (R333). -/
def execGraphload (q : Nat) (s : State) : Out :=
  s.onCmd q (fun b => opOf b == 0x03 && s.led) fun t _ b k =>
    let colour := (t.queue q).colour
    if headOk b 0 && restZero b 0x18 then
      match t.image colour b with
      | none => t.endWith q b stBAD 0 k
      | some img =>
        match t.loadGraph colour img with
        | none => t.endWith q b 0x0106 0 k
        | some x => x.1.endWith q b stOK x.2 k
    else t.endWith q b stBAD 0 k

/-- GRAPH (R334): a table that runs keeps the command waiting. -/
def execGraph (q : Nat) (s : State) : Out :=
  s.onCmd q (fun b => opOf b == 0x04) fun t seq b k =>
    let h := numAt b 8 4
    match t.graphs.find? fun (x : GraphRec) => x.handle == h && x.colour == (t.queue q).colour with
    | none => t.endWith q b stBAD 0 k
    | some g =>
      if headOk b 0 && restZero b 0x0C then
        if g.run.isSome then t.keep q seq b (.graphWait h) else (t.keep q seq b (.graph h)).startRun h (.command q seq) k
      else t.endWith q b stBAD 0 k

/-- Whether an object is in use: by a running launch, or by an installed graph table (R318). -/
def State.objectUsed (s : State) (h : Nat) : Bool :=
  (s.launches.any fun (x : Launch) => x.object == h) ||
    s.graphs.any fun (g : GraphRec) => g.nodes.any fun (x : NodeRec) => x.kind == .launch && (LaunchReq.of x.payload).object == h

/-- UNLOAD (R318). -/
def execUnload (q : Nat) (s : State) : Out :=
  s.onCmd q (fun b => opOf b == 0x05) fun t _ b k =>
    let h := numAt b 8 4
    let colour := (t.queue q).colour
    if headOk b 0 && restZero b 0x0C then
      if (t.object? colour h).isSome && !(t.objectUsed h) then
        { t with objects := t.objects.filter fun (x : ObjRec) => x.handle != h }.endWith q b stOK 0 k
      else if t.graphs.any fun (x : GraphRec) => x.handle == h && x.colour == colour && x.run.isNone then
        { t with graphs := t.graphs.filter fun (x : GraphRec) => x.handle != h }.endWith q b stOK 0 k
      else t.endWith q b stBAD 0 k
    else t.endWith q b stBAD 0 k

/-! ### CMDBLK (R273, R377) -/

/-- Makes a command block at its request address, and writes its capability; none for BAD_COMMAND. -/
def State.makeBlock (s : State) (colour : Nat) (b : List Byte) : Option State :=
  let req := numAt b 8 8
  let res := numAt b 0x10 8
  if decide (numAt b 1 1 < 2) && decide (numAt b 2 2 < 2) && restZero b 0x18 && req % 64 == 0 && res % 16 == 0
      && s.grantedHbm colour req 64 && s.grantedHbm colour res 16 then
    match s.listCap colour (s.num req 16), s.listCap colour (s.num (req + 16) 16) with
    | some x, some y =>
      let perms := pCMD + pGLOBAL + (if numAt b 2 2 = 1 then pDELEG else 0)
      some (((s.devCap req x true).devCap (req + 16) y true).devCap res (capMake req 64 perms colour 1) true)
    | _, _ => none
  else none

/-- CMDBLK (R318). -/
def execCmdblk (q : Nat) (s : State) : Out :=
  s.onCmd q (fun b => opOf b == 0x06 && s.led) fun t _ b k =>
    match t.makeBlock (t.queue q).colour b with
    | none => t.endWith q b stBAD 0 k
    | some t =>
      let y := t.publish t.fwAgent k
      y.1.endWith q b stOK 0 y.2

/-! ### FWIN (R220) -/

/-- The bytes of a window's raw data and of its scales: elements are the view's bytes (R221). -/
def Window.spans (w : Window) : Nat × Nat :=
  let n := 4096 * w.vpages
  if w.fmt = 0x28 then (n / 2, n / 16384 * 260 + (if n % 16384 = 0 then 0 else 4 + n % 16384 / 64))
  else (n / 32 * (4 * ((elemOf w.fmt).map Elem.bits).getD 8), n / 32)

/-- Whether a range lies in the HBM of a stack. -/
def inStack (k base len : Nat) : Bool := decide (k * 2 ^ 36 ≤ base) && decide (base + len ≤ (k + 1) * 2 ^ 36)

/-- Whether a descriptor may fill window `j` of stack `k` for a colour (R220). -/
def State.windowOk (s : State) (colour k j d : Nat) : Bool :=
  let w := Window.ofBits d
  let view := 0x080000000000 + k * 2 ^ 37
  let z := w.spans
  fieldOf d 248 8 == 0 && fieldOf d 177 1 == 0 && fieldOf d 48 48 == 0 && [0x20, 0x21, 0x22, 0x23, 0x24, 0x28].elem w.fmt
    && w.colour == colour && decide (1 ≤ w.vpages) && decide (w.vpages ≤ 2 ^ 25) && w.vbase % 4096 == 0
    && decide (view ≤ w.vbase) && decide (w.vbase + 4096 * w.vpages ≤ view + 2 ^ 37)
    && inStack k w.rbase z.1 && inStack k w.sbase z.2 && s.granted colour w.rbase z.1 && s.granted colour w.sbase z.2
    && (List.range 8).all fun i =>
      let x := s.window k i
      i == j || !x.en || decide (x.vbase + 4096 * x.vpages ≤ w.vbase) || decide (w.vbase + 4096 * w.vpages ≤ x.vbase)

/-- FWIN (R220, R318). -/
def execFwin (q : Nat) (s : State) : Out :=
  s.onCmd q (fun b => opOf b == 0x07 && s.led) fun t _ b k =>
    let colour := (t.queue q).colour
    let st := numAt b 8 1
    let j := numAt b 9 1
    let a := numAt b 0x10 8
    if headOk b 0 && restZero b 0x18 && numAt b 0x0A 6 == 0 && decide (st < 12) && decide (j < 8) && t.granted colour a 32 then
      let d := t.num a 32
      if t.windowOk colour st j d then { t with windows := SMap.set 0 t.windows (8 * st + j) d }.endWith q b stOK 0 k
      else t.endWith q b 0x0108 0 k
    else t.endWith q b stBAD 0 k

/-! ### SIGNAL, WAIT, COPY (R336) -/

/-- SIGNAL (R336). -/
def execSignal (q : Nat) (s : State) : Out :=
  s.onCmd q (fun b => opOf b == 0x08) fun t _ b k =>
    let colour := (t.queue q).colour
    if headOk b 0 && t.signalOk colour b then (t.signal colour b k).endWith q b stOK 0 k else t.endWith q b stBAD 0 k

/-- WAIT (R336): WAITEXT_POLL reads the word. -/
def execWait (q : Nat) (s : State) : Out :=
  s.onCmd q (fun b => opOf b == 0x09) fun t seq b k =>
    if headOk b 0 && t.waitOk (t.queue q).colour b then t.keep q seq b (.poll (numAt b 8 8) (numAt b 0x10 8))
    else t.endWith q b stBAD 0 k

/-- COPY (R336): it waits for a job card of its die (R266). -/
def execCopy (q : Nat) (s : State) : Out :=
  s.onCmd q (fun b => opOf b == 0x0A && !(s.dieFull (copyDie b))) fun t seq b k =>
    let colour := (t.queue q).colour
    match (if headOk b 0 then t.copyCaps colour b else none) with
    | none => t.endWith q b stBAD 0 k
    | some caps =>
      let y := t.startCopy (.command q (tagOf b)) colour b caps k
      y.1.keep q seq b (.job y.2)

/-! ### COLLECTIVE (R388) -/

/-- The form of a COLLECTIVE command, when it is one. -/
def collForm (b : List Byte) : Option Nat := if opOf b = 0x0B then some (numAt b 2 2) else none

/-- COLLECTIVE LOAD (R388); a form that R388 does not list is taken here, and completes with BAD_COMMAND. -/
def execCollectiveLoad (q : Nat) (s : State) : Out :=
  s.onCmd q (fun b => (collForm b).any fun f => decide (2 < f) || (f == 0 && s.led)) fun t _ b k =>
    let colour := (t.queue q).colour
    if headOk b 0 && restZero b 0x18 then
      match t.image colour b with
      | none => t.endWith q b stBAD 0 k
      | some img =>
        match t.loadPlan colour img with
        | none => t.endWith q b 0x0107 0 k
        | some x => x.1.endWith q b stOK x.2 k
    else t.endWith q b stBAD 0 k

/-- COLLECTIVE REPLAY (R388). -/
def execCollectiveReplay (q : Nat) (s : State) : Out :=
  s.onCmd q (fun b => collForm b == some 1) fun t seq b k =>
    let colour := (t.queue q).colour
    match (if headOk b 1 then t.replayCaps colour b else none) with
    | none => t.endWith q b stBAD 0 k
    | some caps =>
      match t.startReplay colour q (.command q seq) b caps k with
      | none => t.endWith q b stBAD 0 k
      | some y => y.1.keep q seq b (.replay y.2)

/-- COLLECTIVE UNLOAD (R388). -/
def execCollectiveUnload (q : Nat) (s : State) : Out :=
  s.onCmd q (fun b => collForm b == some 2) fun t _ b k =>
    let h := numAt b 8 4
    if headOk b 2 && restZero b 0x0C && (t.plan? (t.queue q).colour h).isSome
        && !(t.replays.any fun (r : ReplayRec) => r.plan == h) then
      { t with plans := t.plans.filter fun (p : Plan) => p.handle != h }.endWith q b stOK 0 k
    else t.endWith q b stBAD 0 k

/-! ### CODE_SYNC (R236) -/

/-- CODE_SYNC (R318): as `iinv.pkg`. -/
def execCodeSync (q : Nat) (s : State) : Out :=
  s.onCmd q (fun b => opOf b == 0x0C) fun t _ b k =>
    let a := numAt b 8 8
    let n := numAt b 0x10 8
    if headOk b 0 && restZero b 0x18 && (n == 0 || t.granted (t.queue q).colour a n) then
      (if n = 0 then t else t.dropCode [0, 1, 2, 3] a n).endWith q b stOK 0 k
    else t.endWith q b stBAD 0 k

end Sys2Proof.Machine
end

