-- ==== Sys2Proof/Machine/Control.lean ====
section
/-!
DEFINITION. The twelve control instructions (R84 to R93).
-/
namespace Sys2Proof.Machine

/-- A signed byte offset from the transferring instruction (R85). -/
def codeOffset {n : Nat} (o : BitVec n) : BitVec 48 := o.signExtend 48

/-- The reconvergence point that RCV names: E's own for 0 (R85). -/
def Ctx.rcvPoint (c : Ctx) (rcv : BitVec 22) : Option (BitVec 48) :=
  if rcv = 0 then c.entry.point else some (c.entry.pc + codeOffset rcv)

/-- A group of lanes sent to a target, if there are any. -/
def groupIf (tgt : BitVec 48) (m : Word) : List (BitVec 48 × Word) := if m = 0 then [] else [(tgt, m)]

/-- A direct branch (R85); `opens` for `brc`. -/
def Ctx.branch (c : Ctx) (g : Guard) (tgt : BitVec 32) (rcv : BitVec 22) (opens : Bool) : State :=
  let taken := c.active g
  c.go (groupIf (c.entry.pc + codeOffset tgt) taken ++ groupIf (c.entry.pc + 16) (c.entry.mask &&& ~~~taken))
    (c.rcvPoint rcv) opens id

/-- The lanes whose 64-bit target is no code address (R34, R86). -/
def Ctx.badTargets (c : Ctx) (active : Word) (a : BitVec 8) : Word :=
  (lanesOf active).foldl (fun m l =>
    let t := (c.rope.x64 l a.toNat).toNat
    if t % 4 = 0 ∧ t < 2 ^ 48 then m else withBit m l true) 0

/-- An indirect transfer (R86 to R88): the check of every active lane's target, then one group per distinct target, the
guard-false lanes falling through. -/
def Ctx.indirect (c : Ctx) (g : Guard) (a : RSrc) (bytes : Nat) (point : Option (BitVec 48)) (opens : Bool)
    (f : Rope → Rope) : State :=
  let active := c.active g
  let bad := c.badTargets active a.r
  if bad ≠ 0 then c.trap .fetchPlacement bad (c.rope.x64 (lowLane bad) a.r.toNat).toNat
  else
    let groups := groupTargets (fun l => BitVec.ofNat 48 (c.rope.x64 l a.r.toNat).toNat) (lanesOf active)
    c.go (groups ++ groupIf (c.entry.pc + BitVec.ofNat 48 bytes) (c.entry.mask &&& ~~~active)) point opens
      fun r => f (r.useUp active a 2)

/-- Writes the link pair in the active lanes (R87). -/
def linkWrite (active : Word) (d : BitVec 8) (ra : BitVec 48) (r : Rope) : Rope :=
  (lanesOf active).foldl (fun (r : Rope) l => r.setX64 l d.toNat (ra.setWidth 64)) r

/-- `nop` (R84). -/
def execNop (_g : Guard) (s : State) : Out := s.issue fun c => c.done c.rope 8

/-- `bra` (R85). -/
def execBra (g : Guard) (tgt : BitVec 32) (rcv : BitVec 22) (s : State) : Out := s.issue fun c => c.branch g tgt rcv false

/-- `brc` (R85). -/
def execBrc (g : Guard) (tgt : BitVec 32) (rcv : BitVec 22) (s : State) : Out := s.issue fun c => c.branch g tgt rcv true

/-- `brx` (R86). -/
def execBrx (g : Guard) (a : RSrc) (rcv : BitVec 22) (s : State) : Out :=
  s.issue fun c => c.indirect g a 12 (c.rcvPoint rcv) false id

/-- `call` (R87). -/
def execCall (g : Guard) (d : BitVec 8) (tgt : BitVec 32) (s : State) : Out :=
  s.issue fun c =>
    let active := c.active g
    let ra := c.entry.pc + 16
    c.go (groupIf (c.entry.pc + codeOffset tgt) active ++ groupIf ra (c.entry.mask &&& ~~~active)) (some ra) true
      (linkWrite active d ra)

/-- `callx` (R87). -/
def execCallx (g : Guard) (d : BitVec 8) (a : RSrc) (s : State) : Out :=
  s.issue fun c =>
    let ra := c.entry.pc + 12
    c.indirect g a 12 (some ra) true (linkWrite (c.active g) d ra)

/-- `ret` (R88). -/
def execRet (g : Guard) (a : RSrc) (s : State) : Out := s.issue fun c => c.indirect g a 8 c.entry.point false id

/-- The places in the stack of the join entries strictly below a place, innermost first (R82). -/
def joinsBelow (st : List Entry) (pos : Nat) : List Nat :=
  (List.range st.length).filter fun j => decide (pos < j) && ((st[j]?).any fun e => e.kind == .join)

/-- `brk` on a stack (R82, R89): the active lanes leave every entry above the join at place `j` and enter that join; the entry
at `pos` moves on; empty entries above the join are discarded. -/
def brkStack (st : List Entry) (pos j : Nat) (active : Word) : List Entry :=
  let st := st.modify pos fun e => { e with pc := e.pc + 8 }
  dropEmpty (stripMask active (st.take j)) ++ (st.drop j).modify 0 fun e => { e with mask := e.mask ||| active }

/-- `brk` (R89, R348). -/
def execBrk (g : Guard) (n : BitVec 4) (s : State) : Out :=
  s.issue fun c =>
    let active := c.active g
    if active = 0 then c.done c.rope 8
    else
      let st := c.rope.stack
      match (joinsBelow st c.pos)[n.toNat - 1]? with
      | none => c.controlStack
      | some j =>
        if c.rope.hm ∧ st.length - j ≤ c.rope.hdepth then c.controlStack
        else c.put { c.rope with stack := brkStack st c.pos j active }

/-- `exit` (R90, R348). -/
def execExit (g : Guard) (s : State) : Out :=
  s.issue fun c =>
    let active := c.active g
    if active = 0 then c.done c.rope 8
    else if c.rope.hm then c.controlStack
    else
      let r := c.rope.stepOn c.pos 8
      let st := dropEmpty (stripMask active r.stack)
      let s := c.put { r with stack := st }
      if st.isEmpty then s.endRope c.uid c.k else s

/-- An entry whose slot has lost its counter and its boost (R73). -/
def Entry.calm (e : Entry) : Entry := { e with counter := 0, boost := false }

/-- `yield` (R91). -/
def execYield (g : Guard) (s : State) : Out :=
  s.issue fun c =>
    if c.active g = 0 then c.done c.rope 8
    else
      let (s, a) := c.s.stamp c.party.core
      let r := { c.rope with age := a, stack := (c.rope.stack.modify 0 Entry.calm).modify 1 Entry.calm }
      s.setParty (c.party.setRope c.k (r.stepOn c.pos 8))

/-- `rest` (R92). -/
def execRest (g : Guard) (count : BitVec 16) (s : State) : Out :=
  s.issue fun c =>
    let r := c.rope.stepOn c.pos 8
    if c.active g = 0 then c.put r
    else c.put { r with stack := r.stack.modify c.pos fun e => { e with rest := some (max count.toNat 1) } }

/-- `seed` (R93). -/
def execSeed (a : BitVec 8) (s : State) : Out :=
  s.issue fun c =>
    let v := c.rope.s a.toNat
    c.done { c.rope with lfsr := if v = 0 then 1 else v } 8

end Sys2Proof.Machine
end

