-- ==== Sys2Proof/Machine/Float.lean ====
section
/-!
DEFINITION. Floating arithmetic (R126 to R133): FP32, packed half precision, FP64.
-/
namespace Sys2Proof.Machine

/-! ### The procedure of R126 -/

/-- A binary operation on prepared patterns, with the flags of preparing them and of flushing the result (R126). -/
def flt2 (f : FFmt) (ftz : Bool) (a b : FRes) (op : Nat → Nat → FRes) : FRes :=
  let r := f.result ftz (op a.bits b.bits)
  ⟨r.bits, a.flags ||| b.flags ||| r.flags⟩

/-- A card of the floating mould at a format: 32 bits or, when `w`, 64. -/
def fltCard (m : FltOp) (f : FFmt) (imm : ImmKind) (w : Bool) (op : Nat → Nat → FRes) : Card where
  u := m.u
  g := m.g
  used := (m.a, width w) :: m.b.used (width w)
  fx := fun e =>
    let a := f.source m.ftz m.aa m.na (e.val w m.a.r)
    let b := f.source m.ftz m.ab m.nb (e.bval imm w m.b)
    let r := flt2 f m.ftz a b op
    { Fx.out w m.d r.bits with fpst := r.flags }

/-- A unary card of the floating mould at FP32. -/
def fltUnCard (m : FltUn) (op : FVal → FRes) : Card where
  u := m.u
  g := m.g
  used := [(m.a, 1)]
  fx := fun e =>
    let a := fmtF32.source m.ftz m.aa m.na (e.val false m.a.r)
    let r := fmtF32.result m.ftz (op (fmtF32.read a.bits))
    { Fx.word m.d r.bits with fpst := a.flags ||| r.flags }

/-- A fused multiply-add at a format (R127). -/
def fltTriCard (m : FltTri) (f : FFmt) (w : Bool) : Card where
  u := m.u
  g := m.g
  used := (m.a, width w) :: (m.b.used (width w) ++ m.c.used (width w))
  fx := fun e =>
    let a := f.source m.ftz m.aa m.na (e.val w m.a.r)
    let b := f.source m.ftz m.ab m.nb (e.cval w m.b)
    let c := f.source m.ftz m.ac m.nc (e.cval w m.c)
    let r := f.result m.ftz (roundX f m.rm (xFma m.rm (f.read a.bits) (f.read b.bits) (f.read c.bits)))
    { Fx.out w m.d r.bits with fpst := a.flags ||| b.flags ||| c.flags ||| r.flags }

/-- The sum at a format (R127). -/
def addBits (f : FFmt) (rnd : Round) (a b : Nat) : FRes := roundX f rnd (xAdd rnd (f.read a) (f.read b))

/-- The difference at a format (R127). -/
def subBits (f : FFmt) (rnd : Round) (a b : Nat) : FRes := roundX f rnd (xAdd rnd (f.read a) (f.read b).negate)

/-- The product at a format (R127). -/
def mulBits (f : FFmt) (rnd : Round) (a b : Nat) : FRes := roundX f rnd (xMul (f.read a) (f.read b))

/-! ### FP32 -/

/-- `fadd` (R127). -/
def execFadd (m : FltOp) (s : State) : Out := s.runCard 8 (fltCard m fmtF32 .f32 false (addBits fmtF32 m.rm))

/-- `fsub` (R127). -/
def execFsub (m : FltOp) (s : State) : Out := s.runCard 8 (fltCard m fmtF32 .f32 false (subBits fmtF32 m.rm))

/-- `fmul` (R127). -/
def execFmul (m : FltOp) (s : State) : Out := s.runCard 8 (fltCard m fmtF32 .f32 false (mulBits fmtF32 m.rm))

/-- `fma` (R127). -/
def execFma (m : FltTri) (s : State) : Out := s.runCard 12 (fltTriCard m fmtF32 false)

/-- The format and the immediate kind that W selects (R128 to R130). -/
def wFmt (w : Bool) : FFmt := if w then fmtF64 else fmtF32
/-- The immediate kind that W selects (R29). -/
def wImm (w : Bool) : ImmKind := if w then .f64 else .f32

/-- `fmin` and `fmax` flush their sources only: the result is a present source as read (R128). -/
def minMaxCard (m : FltOp) (f : FFmt) (imm : ImmKind) (w mx : Bool) : Card where
  u := m.u
  g := m.g
  used := (m.a, width w) :: m.b.used (width w)
  fx := fun e =>
    let a := f.source m.ftz m.aa m.na (e.val w m.a.r)
    let b := f.source m.ftz m.ab m.nb (e.bval imm w m.b)
    let r := fMinMax f mx a.bits b.bits
    { Fx.out w m.d r.bits with fpst := a.flags ||| b.flags ||| r.flags }

/-- `fmin` (R128). -/
def execFmin (m : FltOp) (w : Bool) (s : State) : Out := s.runCard 8 (minMaxCard m (wFmt w) (wImm w) w false)

/-- `fmax` (R128). -/
def execFmax (m : FltOp) (w : Bool) (s : State) : Out := s.runCard 8 (minMaxCard m (wFmt w) (wImm w) w true)

/-- CMB of `fcmp`, as `icmp` (R129). -/
def fcombined (cmb : Combine) (t p : Bool) : Bool :=
  match cmb with
  | .none => t
  | .and => t && p
  | .or => t || p

/-- `fcmp` (R129). -/
def fcmpFx (o : FcmpOp) (e : Env) : Fx :=
  let f := wFmt o.w
  let a := f.flush o.ftz (e.val o.w o.a.r)
  let b := f.flush o.ftz (e.bval (wImm o.w) o.w o.b)
  let t := fCompare o.cond (f.read a.bits) (f.read b.bits)
  { preds := [(o.d.toNat, fcombined o.cmb t.1 (e.pred o.cp.toNat))], fpst := a.flags ||| b.flags ||| t.2 }

/-- `fcmp` (R129). -/
def execFcmp (o : FcmpOp) (s : State) : Out :=
  s.runCard 8 { u := o.u, g := o.g, used := (o.a, width o.w) :: o.b.used (width o.w), fx := fcmpFx o }

/-- `fclass` (R130): no flag; in the uniform class D takes 1 or 0. -/
def fclassFx (u ftz w : Bool) (d : BitVec 8) (a : RSrc) (cls : BitVec 10) (e : Env) : Fx :=
  let f := wFmt w
  let v := (f.flush ftz (e.val w a.r)).bits
  let t := cls.getLsbD (f.classOf v)
  if u then Fx.word d (if t then 1 else 0) else { preds := [(d.toNat, t)] }

/-- `fclass` (R130). -/
def execFclass (u ftz w : Bool) (g : Guard) (d : BitVec 8) (a : RSrc) (cls : BitVec 10) (s : State) : Out :=
  s.runCard 8 { u := u, g := g, used := [(a, width w)], fx := fclassFx u ftz w d a cls }

/-- `frcp` (R131). -/
def execFrcp (m : FltUn) (s : State) : Out := s.runCard 8 (fltUnCard m (fRcpRes fmtF32 m.rm))

/-- `fdiv` (R131). -/
def execFdiv (m : FltOp) (s : State) : Out :=
  s.runCard 8 (fltCard m fmtF32 .f32 false fun a b => fDivRes fmtF32 m.rm (fmtF32.read a) (fmtF32.read b))

/-- `fsqrt` (R131). -/
def execFsqrt (m : FltUn) (s : State) : Out := s.runCard 8 (fltUnCard m (fSqrtRes fmtF32 m.rm))

/-- `frsq` (R131). -/
def execFrsq (m : FltUn) (s : State) : Out := s.runCard 8 (fltUnCard m (fRsqRes fmtF32 m.rm))

/-- `fex2` (R131). -/
def execFex2 (m : FltUn) (s : State) : Out := s.runCard 8 (fltUnCard m (fEx2Res m.rm))

/-- `flg2` (R131). -/
def execFlg2 (m : FltUn) (s : State) : Out := s.runCard 8 (fltUnCard m (fLg2Res m.rm))

/-- `fsin` (R131). -/
def execFsin (m : FltUn) (s : State) : Out := s.runCard 8 (fltUnCard m (fSinRes m.rm))

/-- `fcos` (R131). -/
def execFcos (m : FltUn) (s : State) : Out := s.runCard 8 (fltUnCard m (fCosRes m.rm))

/-- `ftanh` (R131). -/
def execFtanh (m : FltUn) (s : State) : Out := s.runCard 8 (fltUnCard m (fTanhRes m.rm))

/-- `a × 2^b` with b an integer (R127). -/
def fscaleBits (rnd : Round) (a b : Nat) : FRes :=
  match fmtF32.read a with
  | .fin n m e => if m = 0 then ⟨a, 0⟩ else fmtF32.round rnd false n m (e + readInt 32 false b) false
  | .inf _ => ⟨a, 0⟩
  | .nan sig => fmtF32.nanRes (if sig then fInv else 0)

/-- `fscale` (R127): B is an integer, which is not flushed. -/
def fscaleCard (m : FltOp) : Card where
  u := m.u
  g := m.g
  used := (m.a, 1) :: m.b.used 1
  fx := fun e =>
    let a := fmtF32.source m.ftz m.aa m.na (e.val false m.a.r)
    let r := fmtF32.result m.ftz (fscaleBits m.rm a.bits (e.bval .int false m.b))
    { Fx.word m.d r.bits with fpst := a.flags ||| r.flags }

/-- `fscale` (R127). -/
def execFscale (m : FltOp) (s : State) : Out := s.runCard 8 (fscaleCard m)

/-! ### Packed half precision (R132) -/

/-- The format that BF selects. -/
def halfFmt (bf : Bool) : FFmt := if bf then fmtBF16 else fmtF16

/-- An operation on the two halves, independently; their flags are ORed (R132). -/
def halves2 (op : Nat → Nat → FRes) (a b : Nat) : FRes :=
  let l := op (a % 2 ^ 16) (b % 2 ^ 16)
  let h := op (a / 2 ^ 16 % 2 ^ 16) (b / 2 ^ 16 % 2 ^ 16)
  ⟨h.bits * 2 ^ 16 + l.bits, l.flags ||| h.flags⟩

/-- Both halves modified (R132). A half 0x7FA5 read as `.f16` is a quiet NaN by R52, so it raises no invalid, though R100 says that
packed cards meet a signalling one (log 114). -/
def halfSource (f : FFmt) (aa na : Bool) (w : Nat) : Nat :=
  f.modify aa na (w / 2 ^ 16 % 2 ^ 16) * 2 ^ 16 + f.modify aa na (w % 2 ^ 16)

/-- A packed card with two sources. -/
def halfCard (m : FltOp) (bf : Bool) (op : FFmt → Nat → Nat → FRes) : Card where
  u := false
  g := m.g
  used := (m.a, 1) :: m.b.used 1
  fx := fun e =>
    let f := halfFmt bf
    let r := halves2 (op f) (halfSource f m.aa m.na (e.val false m.a.r)) (halfSource f m.ab m.nb (e.bval .packed false m.b))
    { Fx.word m.d r.bits with fpst := r.flags }

/-- `hadd2` (R132). -/
def execHadd2 (m : FltOp) (bf : Bool) (s : State) : Out := s.runCard 8 (halfCard m bf fun f => addBits f m.rm)

/-- `hmul2` (R132). -/
def execHmul2 (m : FltOp) (bf : Bool) (s : State) : Out := s.runCard 8 (halfCard m bf fun f => mulBits f m.rm)

/-- `hmin2` (R132). -/
def execHmin2 (m : FltOp) (bf : Bool) (s : State) : Out := s.runCard 8 (halfCard m bf fun f => fMinMax f false)

/-- `hmax2` (R132). -/
def execHmax2 (m : FltOp) (bf : Bool) (s : State) : Out := s.runCard 8 (halfCard m bf fun f => fMinMax f true)

/-- One half of `hfma2`. -/
def halfFma (f : FFmt) (rnd : Round) (a b c : Nat) : FRes := roundX f rnd (xFma rnd (f.read a) (f.read b) (f.read c))

/-- `hfma2` (R132). -/
def hfma2Fx (m : FltTri) (bf : Bool) (e : Env) : Fx :=
  let f := halfFmt bf
  let a := halfSource f m.aa m.na (e.val false m.a.r)
  let b := halfSource f m.ab m.nb (e.cval false m.b)
  let c := halfSource f m.ac m.nc (e.cval false m.c)
  let l := halfFma f m.rm (a % 2 ^ 16) (b % 2 ^ 16) (c % 2 ^ 16)
  let h := halfFma f m.rm (a / 2 ^ 16) (b / 2 ^ 16) (c / 2 ^ 16)
  { Fx.word m.d (h.bits * 2 ^ 16 + l.bits) with fpst := l.flags ||| h.flags }

/-- `hfma2` (R132). -/
def execHfma2 (m : FltTri) (bf : Bool) (s : State) : Out :=
  s.runCard 12 { u := false, g := m.g, used := (m.a, 1) :: (m.b.used 1 ++ m.c.used 1), fx := hfma2Fx m bf }

/-! ### FP64 (R133) -/

/-- `dadd` (R133). -/
def execDadd (m : FltOp) (s : State) : Out := s.runCard 8 (fltCard m fmtF64 .f64 true (addBits fmtF64 m.rm))

/-- `dmul` (R133). -/
def execDmul (m : FltOp) (s : State) : Out := s.runCard 8 (fltCard m fmtF64 .f64 true (mulBits fmtF64 m.rm))

/-- `dfma` (R133). -/
def execDfma (m : FltTri) (s : State) : Out := s.runCard 12 (fltTriCard m fmtF64 true)

end Sys2Proof.Machine
end

