-- ==== Sys2Proof/Machine/Int.lean ====
section
/-!
DEFINITION. Integer arithmetic, logic, shifts, bit fields, comparison and selection (R112 to R125).
-/
namespace Sys2Proof.Machine

/-- Operand width of a card: 64 bits with W, else 32. -/
def nbits (w : Bool) : Nat := if w then 64 else 32

/-- A binary card of the integer mould: `f` takes the two sources as bits and gives the result's bits and flags. -/
def intCard (m : IntOp) (bw : Bool) (f : Nat → Nat → FRes) : Card where
  u := m.u
  g := m.g
  used := (m.a, width m.w) :: m.b.used (width bw)
  fx := fun e =>
    let r := f (e.val m.w m.a.r) (e.bval .int bw m.b)
    { Fx.out m.w m.d r.bits with fpst := r.flags }

/-- A unary card of the integer mould, with a destination of 64 bits when `dw`. -/
def intUnCard (m : IntUn) (dw : Bool) (f : Nat → Nat) : Card where
  u := m.u
  g := m.g
  used := [(m.a, width m.w)]
  fx := fun e => Fx.out dw m.d (f (e.val m.w m.a.r))

/-- A card of the 96-bit integer mould; the widths of D, A, B and C. -/
def intTriCard (m : IntTri) (dw aw bw cw : Bool) (f : Nat → Nat → Nat → Nat) : Card where
  u := m.u
  g := m.g
  used := (m.a, width aw) :: (m.b.used (width bw) ++ m.c.used (width cw))
  fx := fun e => Fx.out dw m.d (f (e.val aw m.a.r) (e.cval bw m.b) (e.cval cw m.c))

/-- Fits an exact result to `n` bits: clamped with SAT, then its low bits (R112). -/
def fitInt (sat : Bool) (n : Nat) (uns : Bool) (v : Int) : Nat := lowBits n (if sat then clampInt n uns v else v)

/-- The procedure of R112 for an exact result. -/
def exactBits (m : IntOp) (sat : Bool) (f : Int → Int → Int) (a b : Nat) : FRes :=
  ⟨fitInt sat (nbits m.w) m.s (f (readInt (nbits m.w) m.s a) (readInt (nbits m.w) m.s b)), 0⟩

/-- `iadd` (R112). -/
def execIadd (m : IntOp) (sat : Bool) (s : State) : Out := s.runCard 8 (intCard m m.w (exactBits m sat (· + ·)))

/-- `isub` (R112). -/
def execIsub (m : IntOp) (sat : Bool) (s : State) : Out := s.runCard 8 (intCard m m.w (exactBits m sat (· - ·)))

/-- `imul` (R112). -/
def execImul (m : IntOp) (sat : Bool) (s : State) : Out := s.runCard 8 (intCard m m.w (exactBits m sat (· * ·)))

/-- `imulh` (R112): the high half of the product. -/
def execImulh (m : IntOp) (s : State) : Out :=
  s.runCard 8 (intCard m m.w (exactBits m false fun a b => (a * b) / (2 ^ nbits m.w : Nat)))

/-- `imin` (R112). -/
def execImin (m : IntOp) (s : State) : Out := s.runCard 8 (intCard m m.w (exactBits m false min))

/-- `imax` (R112). -/
def execImax (m : IntOp) (s : State) : Out := s.runCard 8 (intCard m m.w (exactBits m false max))

/-- `iabs` (R112). -/
def execIabs (m : IntUn) (sat : Bool) (s : State) : Out :=
  s.runCard 8 (intUnCard m m.w fun a => fitInt sat (nbits m.w) false (readInt (nbits m.w) false a).natAbs)

/-- `ineg` (R112). -/
def execIneg (m : IntUn) (sat : Bool) (s : State) : Out :=
  s.runCard 8 (intUnCard m m.w fun a => fitInt sat (nbits m.w) false (-(readInt (nbits m.w) false a)))

/-- `iaddc` (R113): the sum of n bits, and its carry out. -/
def iaddcFx (m : IntOp) (cie : Bool) (ci co : BitVec 3) (sub : Bool) (e : Env) : Fx :=
  let n := nbits m.w
  let a := e.val m.w m.a.r
  let b := e.bval .int m.w m.b
  let c := if cie then e.pred ci.toNat else sub
  let t := a + (if sub then 2 ^ n - 1 - b else b) + (if c then 1 else 0)
  { Fx.out m.w m.d (t % 2 ^ n) with preds := [(co.toNat, decide (2 ^ n ≤ t))] }

/-- `iaddc` (R113). -/
def iaddcCard (m : IntOp) (cie : Bool) (ci co : BitVec 3) (sub : Bool) : Card where
  u := m.u
  g := m.g
  used := (m.a, width m.w) :: m.b.used (width m.w)
  fx := iaddcFx m cie ci co sub

/-- `iaddc` (R113). -/
def execIaddc (m : IntOp) (cie : Bool) (ci co : BitVec 3) (sub : Bool) (s : State) : Out :=
  s.runCard 8 (iaddcCard m cie ci co sub)

/-- `imad` (R114). -/
def execImad (m : IntTri) (sat : Bool) (s : State) : Out :=
  let n := nbits m.w
  s.runCard 12 (intTriCard m m.w m.w m.w m.w fun a b c =>
    fitInt sat n m.s (readInt n m.s a * readInt n m.s b + readInt n m.s c))

/-- `imadw` (R114): 32-bit factors, a 64-bit addend and result. -/
def execImadw (m : IntTri) (sat : Bool) (s : State) : Out :=
  s.runCard 12 (intTriCard m true false false true fun a b c =>
    fitInt sat 64 m.s (readInt 32 m.s a * readInt 32 m.s b + readInt 64 m.s c))

/-- The quotient of R115: truncated toward zero; all ones with DBZ for a zero divisor. -/
def idivBits (n : Nat) (uns : Bool) (a b : Nat) : FRes :=
  if b = 0 then ⟨2 ^ n - 1, fDbz⟩
  else ⟨lowBits n (Int.tdiv (readInt n uns a) (readInt n uns b)), 0⟩

/-- The remainder of R115: the sign of a; a with DBZ for a zero divisor. -/
def iremBits (n : Nat) (uns : Bool) (a b : Nat) : FRes :=
  if b = 0 then ⟨a, fDbz⟩
  else ⟨lowBits n (Int.tmod (readInt n uns a) (readInt n uns b)), 0⟩

/-- `idiv` (R115). -/
def execIdiv (m : IntOp) (s : State) : Out := s.runCard 8 (intCard m m.w (idivBits (nbits m.w) m.s))

/-- `irem` (R115). -/
def execIrem (m : IntOp) (s : State) : Out := s.runCard 8 (intCard m m.w (iremBits (nbits m.w) m.s))

/-- A logic card: no flag. -/
def logicBits (f : Nat → Nat → Nat) (a b : Nat) : FRes := ⟨f a b, 0⟩

/-- `and` (R116). -/
def execAnd (m : IntOp) (s : State) : Out := s.runCard 8 (intCard m m.w (logicBits Nat.land))

/-- `or` (R116). -/
def execOr (m : IntOp) (s : State) : Out := s.runCard 8 (intCard m m.w (logicBits Nat.lor))

/-- `xor` (R116). -/
def execXor (m : IntOp) (s : State) : Out := s.runCard 8 (intCard m m.w (logicBits Nat.xor))

/-- `not` (R116). -/
def execNot (m : IntUn) (s : State) : Out := s.runCard 8 (intUnCard m m.w fun a => 2 ^ nbits m.w - 1 - a)

/-- A number of `n` bits given bit by bit. -/
def ofBits (n : Nat) (f : Nat → Bool) : Nat := (List.range n).foldl (fun v i => if f i then v + 2 ^ i else v) 0

/-- `bool3` (R117). -/
def bool3Bits (n : Nat) (lut : BitVec 8) (a b c : Nat) : Nat :=
  ofBits n fun i => lut.getLsbD ((if bitOf a i then 4 else 0) + (if bitOf b i then 2 else 0) + (if bitOf c i then 1 else 0))

/-- `bool3` (R117). -/
def execBool3 (m : IntTri) (lut : BitVec 8) (s : State) : Out :=
  s.runCard 12 (intTriCard m m.w m.w m.w m.w (bool3Bits (nbits m.w) lut))

/-- `shl` (R118): the count is bits [7:0] of a single register or immediate. -/
def shlBits (n a b : Nat) : Nat := if b % 256 < n then a * 2 ^ (b % 256) % 2 ^ n else 0

/-- `shr` (R118). -/
def shrBits (n a b : Nat) : Nat := if b % 256 < n then a / 2 ^ (b % 256) else 0

/-- `sra` (R118). -/
def sraBits (n a b : Nat) : Nat := lowBits n (readInt n false a / (2 ^ min (b % 256) (n - 1) : Nat))

/-- `shl` (R118). -/
def execShl (m : IntOp) (s : State) : Out := s.runCard 8 (intCard m false (logicBits (shlBits (nbits m.w))))

/-- `shr` (R118). -/
def execShr (m : IntOp) (s : State) : Out := s.runCard 8 (intCard m false (logicBits (shrBits (nbits m.w))))

/-- `sra` (R118). -/
def execSra (m : IntOp) (s : State) : Out := s.runCard 8 (intCard m false (logicBits (sraBits (nbits m.w))))

/-- `fsh` (R119). -/
def fshBits (left : Bool) (a b c : Nat) : Nat :=
  let t := b * 2 ^ 32 + a
  if left then t * 2 ^ (c % 32) / 2 ^ 32 % 2 ^ 32 else t / 2 ^ (c % 32) % 2 ^ 32

/-- `fsh` (R119). -/
def execFsh (m : IntTri) (left : Bool) (s : State) : Out :=
  s.runCard 12 (intTriCard m false false false false (fshBits left))

/-- Number of ones (R120). -/
def popBits (n a : Nat) : Nat := ((List.range n).filter fun i => bitOf a i).length

/-- Leading zeros (R120). -/
def clzBits (n a : Nat) : Nat := n - bitLen a

/-- Trailing zeros (R120). -/
def ctzBits (n a : Nat) : Nat := ((List.range n).find? fun i => bitOf a i).getD n

/-- `popc` (R120). -/
def execPopc (m : IntUn) (s : State) : Out := s.runCard 8 (intUnCard m false (popBits (nbits m.w)))

/-- `clz` (R120). -/
def execClz (m : IntUn) (s : State) : Out := s.runCard 8 (intUnCard m false (clzBits (nbits m.w)))

/-- `ctz` (R120). -/
def execCtz (m : IntUn) (s : State) : Out := s.runCard 8 (intUnCard m false (ctzBits (nbits m.w)))

/-- `brev` (R120). -/
def execBrev (m : IntUn) (s : State) : Out :=
  s.runCard 8 (intUnCard m m.w fun a => ofBits (nbits m.w) fun i => bitOf a (nbits m.w - 1 - i))

/-- `bfx` (R121). -/
def bfxBits (n : Nat) (uns : Bool) (a b c : Nat) : Nat :=
  let p := b % 256
  let k := min (c % 256) n
  let bit (i : Nat) : Bool := if i < n then bitOf a i else (!uns && bitOf a (n - 1))
  if k = 0 then 0 else ofBits n fun i => if i < k then bit (p + i) else (!uns && bit (p + k - 1))

/-- `bfx` (R121). -/
def execBfx (m : IntTri) (s : State) : Out :=
  s.runCard 12 (intTriCard m m.w m.w false false (bfxBits (nbits m.w) m.s))

/-- `bfi` (R121). -/
def bfiBits (n a b c : Nat) : Nat :=
  let p := c % 256
  let k := min (c / 256 % 256) n
  ofBits n fun j => if p ≤ j ∧ j < p + k then bitOf b (j - p) else bitOf a j

/-- `bfi` (R121). -/
def execBfi (m : IntTri) (s : State) : Out := s.runCard 12 (intTriCard m m.w m.w m.w false (bfiBits (nbits m.w)))

/-- One byte of `perm` (R122). -/
def permByte (a b sel : Nat) : Nat :=
  let v := fieldOf (b * 2 ^ 32 + a) (8 * (sel % 8)) 8
  if 8 ≤ sel then (if 128 ≤ v then 0xFF else 0x00) else v

/-- `perm` (R122). -/
def permBits (a b c : Nat) : Nat :=
  permByte a b (fieldOf c 0 4) + permByte a b (fieldOf c 4 4) * 2 ^ 8 + permByte a b (fieldOf c 8 4) * 2 ^ 16
    + permByte a b (fieldOf c 12 4) * 2 ^ 24

/-- `perm` (R122). -/
def execPerm (m : IntTri) (s : State) : Out := s.runCard 12 (intTriCard m false false false false permBits)

/-- A condition of `icmp` (R123). -/
def icondHolds (c : ICond) (a b : Int) : Bool :=
  match c with
  | .eq => decide (a = b)
  | .ne => decide (a ≠ b)
  | .lt => decide (a < b)
  | .le => decide (a ≤ b)
  | .gt => decide (b < a)
  | .ge => decide (b ≤ a)

/-- CMB: the compare combined with a predicate, or with a flag in the uniform class (R123). -/
def combined (cmb : Combine) (t p : Bool) : Bool :=
  match cmb with
  | .none => t
  | .and => t && p
  | .or => t || p

/-- `icmp` (R123). -/
def icmpFx (m : IntOp) (cond : ICond) (cmb : Combine) (cp : BitVec 3) (e : Env) : Fx :=
  let n := nbits m.w
  let t := icondHolds cond (readInt n m.s (e.val m.w m.a.r)) (readInt n m.s (e.bval .int m.w m.b))
  { preds := [(m.d.toNat, combined cmb t (e.pred cp.toNat))] }

/-- `icmp` (R123). -/
def icmpCard (m : IntOp) (cond : ICond) (cmb : Combine) (cp : BitVec 3) : Card where
  u := m.u
  g := m.g
  used := (m.a, width m.w) :: m.b.used (width m.w)
  fx := icmpFx m cond cmb cp

/-- `icmp` (R123). -/
def execIcmp (m : IntOp) (cond : ICond) (cmb : Combine) (cp : BitVec 3) (s : State) : Out :=
  s.runCard 8 (icmpCard m cond cmb cp)

/-- `isel` (R124). -/
def iselCard (u w : Bool) (g : Guard) (d : BitVec 8) (a : RSrc) (b : CSrc) (c : BitVec 8) : Card where
  u := u
  g := g
  used := (a, width w) :: b.used (width w)
  fx := fun e => Fx.out w d (if e.pred c.toNat then e.val w a.r else e.cval w b)

/-- `isel` (R124). -/
def execIsel (u w : Bool) (g : Guard) (d : BitVec 8) (a : RSrc) (b : CSrc) (c : BitVec 8) (s : State) : Out :=
  s.runCard 12 (iselCard u w g d a b c)

/-- `pset` (R125): with FA, A names a flag; in the uniform class D is a uniform register that takes 1 or 0. -/
def psetFx (u : Bool) (d a b : BitVec 8) (fa : Bool) (lut : BitVec 4) (e : Env) : Fx :=
  let av := if fa then e.rope.k a.toNat else e.pred a.toNat
  let v := lut.getLsbD ((if av then 1 else 0) + (if e.pred b.toNat then 2 else 0))
  if u then Fx.word d (if v then 1 else 0) else { preds := [(d.toNat, v)] }

/-- `pset` (R125). -/
def psetCard (u : Bool) (g : Guard) (d a b : BitVec 8) (fa : Bool) (lut : BitVec 4) : Card where
  u := u
  g := g
  used := []
  fx := psetFx u d a b fa lut

/-- `pset` (R125). -/
def execPset (u : Bool) (g : Guard) (d a b : BitVec 8) (fa : Bool) (lut : BitVec 4) (s : State) : Out :=
  s.runCard 8 (psetCard u g d a b fa lut)

end Sys2Proof.Machine
end

