-- ==== Sys2Proof/Machine/Mailbox.lean ====
section
/-!
DEFINITION. The management interface (R312 to R315): the registers of MGMTWIN, the mailbox, what each request does.
-/
namespace Sys2Proof.Machine

/-! ### The mailbox (R313) -/

/-- Changes the mailbox. -/
def State.withMail (s : State) (f : Mailbox → Mailbox) : State := { s with mailbox := f s.mailbox }

/-- `n` bytes of the request buffer. -/
def State.reqBytes (s : State) (off n : Nat) : List Byte := (List.range n).map fun i => SMap.get 0#8 s.mailbox.req (off + i)

/-- MBDB_WRITE (R313): a request is submitted, or the write is ignored and counted in BAD_DOORBELL. -/
def execMbdbWrite (size val : Nat) (s : State) : Out :=
  .next <|
    if size ≠ 8 ∨ s.mailbox.busy = true ∨ val ≠ s.mailbox.answered + 1 then s.countError 4 8 1
    else s.withMail fun m => { m with busy := true }

/-- One byte that the host writes to MGMTWIN: MBVEC, MBREQ; others ignore it. -/
def Mailbox.poke (m : Mailbox) (off : Nat) (b : Byte) : Mailbox :=
  if off = 0x18 then { m with vec := m.vec / 256 * 256 + b.toNat }
  else if off = 0x19 then { m with vec := m.vec % 256 + 256 * b.toNat }
  else if 0x1000 ≤ off ∧ off < 0x2000 then { m with req := SMap.set 0#8 m.req (off - 0x1000) b }
  else m

/-- REGISTER_WRITE (R313): a write of MGMTWIN that does not submit; one that meets MBDB in another way than R313 gives is counted. -/
def execRegisterWrite (off : Nat) (bytes : List (BitVec 8)) (s : State) : Out :=
  if off < 0x10 ∧ 0x08 < off + bytes.length then
    if off = 0x08 ∧ bytes.length = 8 then execMbdbWrite 8 (leNat bytes) s else .next (s.countError 4 8 1)
  else
    .next <| s.withMail fun m => (List.range bytes.length).foldl (fun (m : Mailbox) i => m.poke (off + i) (bytes.getD i 0#8)) m

/-- What a read of `n` bytes of MGMTWIN gives (R313): MBVER, MBSTAT, MBVEC, TIMER and the two buffers; every other byte reads zero. -/
def State.mgmtRead (s : State) (off n : Nat) : List Byte :=
  let word (base len v : Nat) (o : Nat) : Option Byte :=
    if base ≤ o ∧ o < base + len then some ((leBytes len v).getD (o - base) 0#8) else none
  (List.range n).map fun i =>
    let o := off + i
    ((word 0x00 4 1 o).orElse fun _ => (word 0x10 8 (2 * s.mailbox.answered + if s.mailbox.busy then 1 else 0) o).orElse fun _ =>
      (word 0x18 2 s.mailbox.vec o).orElse fun _ => word 0x20 8 s.timer o).getD
      (if 0x1000 ≤ o ∧ o < 0x2000 then SMap.get 0#8 s.mailbox.req (o - 0x1000)
       else if 0x2000 ≤ o ∧ o < 0x3000 then SMap.get 0#8 s.mailbox.rsp (o - 0x2000) else 0#8)

/-- What a read of a doorbell gives: the queue's TAIL (R312). -/
def State.bellRead (s : State) (q : Nat) : Nat := (s.queue q).tail

/-- What a read of `n` bytes of VECWIN gives (R312). -/
def State.vecRead (s : State) (off n : Nat) : List Byte := (List.range n).map fun i => SMap.get 0#8 s.vecwin (off + i)

/-- The answer to a request: the state that it leaves, STATUS, RESULT and the payload of the response. -/
structure Reply where
  s : State
  status : Nat
  result : Nat
  payload : List Byte

/-- MGMT_OK with a RESULT. -/
def replyOk (s : State) (result : Nat) : Reply := ⟨s, 0, result, []⟩

/-- A status with nothing changed. -/
def replyBad (s : State) (status : Nat) : Reply := ⟨s, status, 0, []⟩

/-- Writes a response, then MBSTAT, then sends MBVEC (R313). -/
def Reply.write (r : Reply) (seq : Nat) : State :=
  let head := leBytes 2 r.status ++ leBytes 2 0 ++ leBytes 4 r.payload.length ++ leBytes 8 seq ++ leBytes 8 r.result ++ leBytes 40 0
  let all := head ++ r.payload
  let s := r.s.withMail fun m =>
    { m with rsp := (List.range all.length).foldl (fun t i => SMap.set 0#8 t i (all.getD i 0#8)) m.rsp, answered := seq, busy := false }
  if s.mailbox.vec = 0xFFFF then s else s.sendMsix s.mailbox.vec

/-- The payload of the request that waits, when its head keeps its limits (R313). -/
def State.payload (s : State) : Option (List Byte) :=
  let h := s.reqBytes 0 64
  let len := numAt h 4 4
  if numAt h 2 2 = 0 ∧ len ≤ 4032 ∧ numAt h 8 8 = s.mailbox.answered + 1 ∧ (h.drop 0x10).all (· == 0#8) = true then
    some (s.reqBytes 64 len)
  else none

/-- The lead carries out the request that waits: a head that breaks its limits is malformed (R313, R314). -/
def State.carryOut (s : State) (f : List Byte → Reply) : State :=
  ((s.payload).elim (replyBad s 1) f).write (s.mailbox.answered + 1)

/-- The CODE of the request that waits for the lead, if one does and a core leads (R313, R405). -/
def State.mailCode (s : State) : Option Nat :=
  if s.mailbox.busy && s.fw.lead.isSome then some (leNat (s.reqBytes 0 2)) else none

/-- Carries out the request that waits if it is one of a CODE. -/
def State.request (s : State) (code : Nat) (f : List Byte → Reply) : Out :=
  .next (if s.mailCode = some code then s.carryOut f else s)

/-! ### Queues and buckets (R311, R314, R320) -/

/-- The bytes of a record from 0x01 on, at their offsets. -/
def recordOf (p : List Byte) : List Byte := 0#8 :: p.drop 8

/-- Whether a QUEUE_SET keeps its limits. -/
def State.queueSetOk (s : State) (p : List Byte) : Bool :=
  let r := recordOf p
  let colour := numAt r 4 2
  let part := numAt r 0x30 32
  let desc := numAt r 0x50 8
  p.length == 103 && numAt p 2 6 == 0 && decide (numAt r 1 1 ≤ 7) && decide (numAt r 2 2 < 4) && decide (1 ≤ colour)
    && decide (colour ≤ 16383) && s.live colour && decide (numAt r 6 2 < 4096) && numAt r 8 8 % 64 == 0 && decide (numAt r 8 8 < 2 ^ 48)
    && decide (4 ≤ numAt r 0x10 1) && decide (numAt r 0x10 1 ≤ 16) && numAt r 0x11 3 == 0 && numAt r 0x18 16 == 0
    && decide (numAt r 0x28 4 < 2 ^ 20) && numAt r 0x2C 4 == 0
    && Nat.land part s.enmap.cores == part && desc % 64 == 0 && numAt r 0x58 8 == 0 && s.grantedHbm colour desc 64

/-- QUEUE_SET. -/
def State.queueSet (s : State) (p : List Byte) : Reply :=
  let q := numAt p 0 2
  let x := s.queue q
  let r := recordOf p
  if !(s.queueSetOk p) then replyBad s 1
  else if x.st ≠ .free ∧ x.st ≠ .idle then replyBad s 2
  else
    let fresh := x.st == .free
    let cap := capMake (numAt r 0x50 8) 64 (pLD + pST + pGLOBAL) (numAt r 4 2) 0
    let y : QueueRec :=
      { st := .idle, prio := numAt r 1 1, flags := numAt r 2 2, colour := numAt r 4 2, bucket := numAt r 6 2, ring := numAt r 8 8
        rsize := numAt r 0x10 1, wdog := numAt r 0x14 4, head := if fresh then 0 else x.head, tail := if fresh then 0 else x.tail
        parklim := numAt r 0x28 4, slot := none, part := numAt r 0x30 32, compring := cap, compTag := s.tagFor cap true, timer := 0
        elig := x.elig, mapped := x.mapped, know := x.know, ending := x.ending }
    replyOk ((s.setQueue q y).refresh q) 0

/-- QUEUE_FREE: an IDLE or LOST queue; the records that the drain of a LOST queue has still to post are posted first (R369). -/
def State.queueFree (s : State) (p : List Byte) : Reply :=
  let q := numAt p 0 2
  let x := s.queue q
  if p.length ≠ 2 then replyBad s 1
  else if x.st = .idle ∨ x.st = .lost then
    let s := if x.ending then s.endDrain q else s
    replyOk (s.setQueue q { s.queue q with st := .free, slot := none }) 0
  else replyBad s 2

/-- BUCKET_SET. -/
def State.bucketSet (s : State) (p : List Byte) : Reply :=
  let b := numAt p 0 2
  let cap := numAt p 8 8
  let resume := numAt p 0x18 8
  if p.length ≠ 32 ∨ 4096 ≤ b ∨ numAt p 2 6 ≠ 0 ∨ numAt p 0x14 4 ≠ 0 ∨ cap = 0 ∨ 2 ^ 62 < cap ∨ resume = 0 ∨ cap < resume then replyBad s 1
  else
    let y : Bucket := ⟨8 * cap, cap, numAt p 0x10 4, false, resume, s.timer / 1000 * 1000, (s.bucket b).ran⟩
    replyOk ({ s with buckets := SMap.set Bucket.zero s.buckets b y }.refreshBucket b) 0

/-! ### Colours and grants (R202, R205, R297, R314) -/

/-- COLOUR_NEW: the lowest FREE colour. -/
def State.colourNew (s : State) (p : List Byte) : Reply :=
  if p ≠ [] then replyBad s 1
  else
    match ((List.range 16383).map (· + 1)).find? fun c => SMap.get .free s.colours c == .free with
    | none => replyBad s 3
    | some c => replyOk { s with colours := SMap.set .free s.colours c .live, quota := SMap.set 0 s.quota c 0 } c

/-- The delegation records of a colour are freed (R378). -/
def State.freeDelgs (s : State) (colour : Nat) : State :=
  (s.delgs.filter fun e => e.2.body.any fun (d : DelgRec) => capColour d.cap == colour).foldl (fun (s : State) e => s.freeDelg e.1) s

/-- A colour leaves LIVE: its entry in the map, and what lapses with it. -/
def State.retireColour (s : State) (c : Nat) : State :=
  let s := (s.addEntry none c).freeDelgs c
  { s with
    colours := SMap.set .free s.colours c .retiring
    grants := s.grants.filter fun (g : GrantRec) => g.colour != c
    quota := SMap.set 0 s.quota c 0
    admits := s.admits.filter fun e => !(e.2.any fun (x : Admit) => x.lcolour == c) }

/-- COLOUR_RETIRE. -/
def State.colourRetire (s : State) (p : List Byte) : Reply :=
  let c := numAt p 0 2
  if p.length ≠ 2 ∨ s.live c = false then replyBad s 1
  else if s.queues.any fun e => e.2.colour == c && e.2.st != .free then replyBad s 2
  else if s.mapFull then replyBad s 8
  else replyOk (s.retireColour c) s.nextPass

/-- The windows of a kind of grant (R216, R314). -/
def grantWindows (kind : Nat) : List (Nat × Nat) :=
  match kind with
  | 0 => [(0, 0x00C000000000), (0x080000000000, 0x098000000000)]
  | 1 => [(0x100000000000, 0x500000000000)]
  | 2 => [(0x500000000000, 0x800000000000)]
  | 3 => [(0x800000000000, 0x1000000000000)]
  | _ => []

/-- Whether a GRANT or UNGRANT payload keeps its limits; HBM that firmware keeps is granted to no tenant (R22, R282, log 8). -/
def State.grantOk (s : State) (p : List Byte) : Bool :=
  let base := numAt p 8 8
  let len := numAt p 0x10 8
  p.length == 24 && numAt p 3 5 == 0 && s.live (numAt p 0 2) && decide (0 < len) && !(s.meetsAside base len)
    && (grantWindows (numAt p 2 1)).any fun w => decide (w.1 ≤ base) && decide (base + len ≤ w.2)

/-- The grant that a payload names. -/
def grantOf (p : List Byte) : GrantRec := ⟨numAt p 0 2, numAt p 2 1, numAt p 8 8, numAt p 0x10 8⟩

/-- GRANT. -/
def State.grant (s : State) (p : List Byte) : Reply :=
  if !(s.grantOk p) then replyBad s 1
  else if s.grants.elem (grantOf p) then replyOk s 0 else replyOk { s with grants := s.grants ++ [grantOf p] } 0

/-- What is left of a grant without a range. -/
def GrantRec.without (g : GrantRec) (x : GrantRec) : List GrantRec :=
  if g.colour ≠ x.colour ∨ x.base + x.len ≤ g.base ∨ g.base + g.len ≤ x.base then [g]
  else
    (if g.base < x.base then [{ g with len := x.base - g.base }] else []) ++
      (if x.base + x.len < g.base + g.len then [{ g with base := x.base + x.len, len := g.base + g.len - (x.base + x.len) }] else [])

/-- UNGRANT. -/
def State.ungrant (s : State) (p : List Byte) : Reply :=
  let x := grantOf p
  if !(s.grantOk p) then replyBad s 1
  else if s.mapFull then replyBad s 8
  else
    replyOk ({ s with grants := s.grants.flatMap fun (g : GrantRec) => g.without x }.addEntry (some (x.base, x.base + x.len)) x.colour)
      s.nextPass

/-- PINQUOTA_SET. -/
def State.pinquotaSet (s : State) (p : List Byte) : Reply :=
  if p.length ≠ 12 ∨ numAt p 2 6 ≠ 0 ∨ s.live (numAt p 0 2) = false then replyBad s 1
  else replyOk { s with quota := SMap.set 0 s.quota (numAt p 0 2) (numAt p 8 4) } 0

/-! ### The fabric's and the pool's tables (R373, R374, R382, R397) -/

/-- An admission entry from its 32 bytes. -/
def Admit.ofBytes (b : List Byte) : Admit :=
  ⟨numAt b 0 1 % 128, numAt b 1 1, numAt b 2 2, numAt b 4 2, numAt b 6 2, numAt b 8 8, numAt b 0x10 8, numAt b 0x18 8⟩

/-- Whether an admission entry keeps its limits (R374). -/
def State.admitOk (s : State) (x : Admit) : Bool :=
  decide (x.flags < 32) && decide (1 ≤ x.rcolour) && decide (x.rcolour ≤ 16383) && s.live x.lcolour && decide (x.base < 2 ^ 48)
    && decide (x.len < 2 ^ 40) && decide (x.inbox < 2 ^ 52) && decide (fieldOf x.inbox 48 4 ≤ 8) && fieldOf x.inbox 0 48 % 16 == 0
    && (!(bitOf x.flags 4) || inHbm (fieldOf x.inbox 0 48) (16 * 2 ^ fieldOf x.inbox 48 4))

/-- ADMIT. -/
def State.admitPeer (s : State) (p : List Byte) : Reply :=
  let i := numAt p 0 2
  let x := Admit.ofBytes (p.drop 8)
  if p.length ≠ 40 ∨ 1024 ≤ i ∨ numAt p 2 6 ≠ 0 then replyBad s 1
  else if !(bitOf (numAt p 8 1) 7) then replyOk { s with admits := SMap.set none s.admits i none } 0
  else if s.admitOk x then replyOk { s with admits := SMap.set none s.admits i (some x) } 0
  else replyBad s 1

/-- A region record from its 64 bytes (R397). -/
def Region.ofBytes (b : List Byte) : Region :=
  ⟨numAt b 0 8, numAt b 8 8, numAt b 0x10 1 == 2, numAt b 0x11 1 == 2, numAt b 0x18 8,
   (List.range (min 16 (numAt b 0x12 2))).map fun i => numAt b (0x20 + 2 * i) 2, []⟩

/-- Whether a region record keeps its limits. -/
def regionOk (b : List Byte) : Bool :=
  let r := Region.ofBytes b
  let n := numAt b 0x12 2
  r.base % 2 ^ 21 == 0 && r.len % 2 ^ 21 == 0 && decide (0x100000000000 ≤ r.base) && decide (r.base + r.len ≤ 0x500000000000)
    && decide (1 ≤ numAt b 0x10 1) && decide (numAt b 0x10 1 ≤ 2) && decide (1 ≤ numAt b 0x11 1) && decide (numAt b 0x11 1 ≤ 2)
    && decide (1 ≤ n) && decide (n ≤ 16) && numAt b 0x14 4 == 0
    && (if r.versioned then r.ctrl % 64 == 0 && isPool r.ctrl else r.ctrl == 0)
    && (r.colours.all fun c => decide (1 ≤ c) && decide (c ≤ 16383)) && (b.drop (0x20 + 2 * n)).all (· == 0#8)

/-- REGION_SET. -/
def State.regionSet (s : State) (p : List Byte) : Reply :=
  let i := numAt p 0 2
  if p.length ≠ 72 ∨ 1024 ≤ i ∨ numAt p 2 6 ≠ 0 ∨ regionOk (p.drop 8) = false then replyBad s 1
  else replyOk { s with regions := SMap.set none s.regions i (some (Region.ofBytes (p.drop 8))) } 0

/-- ROUTE_SET. -/
def State.routeSet (s : State) (p : List Byte) : Reply :=
  let dev := numAt p 0 1
  let ports := (List.range 4).map fun i => numAt p (8 + i) 1
  if p.length ≠ 16 ∨ 128 ≤ dev ∨ numAt p 1 7 ≠ 0 ∨ numAt p 12 4 ≠ 0 ∨ !(ports.all fun x => decide (x < 16) || x == 0xFF) then replyBad s 1
  else replyOk { s with routes := SMap.set [] s.routes dev (ports.filter fun x => x != 0xFF) } 0

/-- HANDLE_FREE. -/
def State.handleFree (s : State) (p : List Byte) : Reply :=
  let e := numAt p 0 2
  if p.length ≠ 2 ∨ 4096 ≤ e then replyBad s 1
  else
    match SMap.get none s.handles e with
    | none => replyBad s 1
    | some h =>
      if h.freeAfter.isSome then replyBad s 1
      else if s.mapFull then replyBad s 8
      else
        let a := s.handleAt + 64 * e
        let n := s.nextPass
        let s := s.addEntry (some (a, a + 64)) h.colour
        replyOk { s with handles := SMap.set none s.handles e (some { h with freeAfter := some n }) } n

/-- PORT_STATUS. -/
def State.portStatus (s : State) (p : List Byte) : Reply :=
  if p ≠ [] then replyBad s 1
  else ⟨s, 0, 0, (List.range 16).flatMap fun i => leBytes 8 (s.port i).status⟩

/-! ### Firmware, keys, counters (R49, R368, R369, R409, R413, R414) -/

/-- KEYS_SET. -/
def State.keysSet (s : State) (p : List Byte) : Reply :=
  let c := numAt p 0 2
  if p.length < 141 ∨ p.length ≠ 141 + numAt p 137 4 ∨ numAt p 2 6 ≠ 0 ∨ c = 0 ∨ 16383 < c then replyBad s 1
  else replyOk { s with keys := SMap.set [] s.keys c (p.drop 8) } 0

/-- The save layout of this model's firmware (R363). -/
def saveLayout : Nat := 3

/-- The saved parties whose layout an image does not declare (R368). -/
def State.heldParties (s : State) (layouts : List Nat) : List Party :=
  if layouts.elem saveLayout then [] else s.parties.filter fun p => match p.status with
    | .saved _ => true
    | _ => false

/-- FW_ACTIVATE (R368, R369, R409), once a forced activation has drained what it must. -/
def State.fwActivate (s : State) (p : List Byte) : Reply :=
  let image := s.bytes (numAt p 0 8) (numAt p 8 8)
  let layouts := Config.imageLayouts image
  let held := s.heldParties layouts
  if p.length ≠ 24 ∨ 1 < numAt p 0x10 8 then replyBad s 1
  else if imageVerifies image = false then replyBad s 4
  else if Config.imageVersion image < s.fw.minSec then replyBad s 7
  else if held ≠ [] then ⟨s, 5, held.length, []⟩
  else ⟨s.withFw fun f => { f with image := image, layouts := layouts }, 6, 0, []⟩

/-- What a forced activation does first (R369): the queues that hold a party of an undeclared layout are lost and drained, and the request
waits until their drains have ended; none when nothing is left to wait for. -/
def State.forceFirst (s : State) (p : List Byte) : Option State :=
  let image := s.bytes (numAt p 0 8) (numAt p 8 8)
  let held := s.heldParties (Config.imageLayouts image)
  if p.length = 24 ∧ numAt p 0x10 8 = 1 ∧ imageVerifies image = true ∧ s.fw.minSec ≤ Config.imageVersion image then
    if held ≠ [] then some (((held.map Party.queue).eraseDups).foldl (fun (s : State) q => s.drain q .lost) s)
    else if s.queues.any fun e => e.2.st == .lost && e.2.ending then some s
    else none
  else none

/-- What an attestation report says: the digest of the active image, DMSIG, the nonce (R409; the order is log 12). -/
def reportBody (image : List Byte) (sig : Nat) (nonce : List Byte) : List Byte :=
  (Crypto.sha384 (image.map BitVec.toNat)).map (BitVec.ofNat 8) ++ leBytes 8 sig ++ nonce

/-- An attestation report: its body under both identity keys (R409). -/
def report (image : List Byte) (sig : Nat) (nonce : List Byte) : List Byte :=
  let b := reportBody image sig nonce
  let d := (Crypto.sha384 (b.map BitVec.toNat)).map (BitVec.ofNat 8)
  b ++ Config.identityEcdsa d ++ Config.identityLms d

/-- ATTEST (R409). -/
def State.attest (s : State) (p : List Byte) : Reply :=
  let a := numAt p 32 8
  let r := report s.fw.image s.enmap.sig (p.take 32)
  if p.length ≠ 40 ∨ isHost a = false ∨ 0x800000000000 < a + r.length then replyBad s 1
  else replyOk (s.foreignStore a r) r.length

/-- COUNTERS (R414). -/
def State.counters (s : State) (p : List Byte) : Reply :=
  let d := numAt p 0 1
  if p.length ≠ 8 ∨ 4 < d ∨ 1 < numAt p 1 1 ∨ numAt p 2 6 ≠ 0 then replyBad s 1
  else
    let out := (List.range 10).flatMap fun i => leBytes 4 (SMap.get 0 (s.die d).errors i)
    ⟨if numAt p 1 1 = 1 then s.withDie d fun x => { x with errors := [] } else s, 0, 0, out⟩

/-- SPARE_THRESHOLD (R413). -/
def State.spareThreshold (s : State) (p : List Byte) : Reply :=
  let k := numAt p 0 1
  if p.length ≠ 12 ∨ 5 < k ∨ numAt p 1 7 ≠ 0 then replyBad s 1
  else replyOk (s.withFw fun f => { f with thresholds := SMap.set 0 f.thresholds k (numAt p 8 4) }.markWorn k) 0

/-! ### The requests (R314) -/

/-- QUEUE_SET (R314). -/
def execQueueSet (s : State) : Out := s.request 0x0001 s.queueSet
/-- QUEUE_FREE (R314). -/
def execQueueFree (s : State) : Out := s.request 0x0002 s.queueFree
/-- BUCKET_SET (R314). -/
def execBucketSet (s : State) : Out := s.request 0x0003 s.bucketSet
/-- COLOUR_NEW (R314). -/
def execColourNew (s : State) : Out := s.request 0x0004 s.colourNew
/-- COLOUR_RETIRE (R314). -/
def execColourRetire (s : State) : Out := s.request 0x0005 s.colourRetire
/-- GRANT (R314). -/
def execGrant (s : State) : Out := s.request 0x0006 s.grant
/-- UNGRANT (R314). -/
def execUngrant (s : State) : Out := s.request 0x0007 s.ungrant
/-- ADMIT (R314). -/
def execAdmit (s : State) : Out := s.request 0x0008 s.admitPeer
/-- REGION_SET (R314). -/
def execRegionSet (s : State) : Out := s.request 0x0009 s.regionSet
/-- ROUTE_SET (R314). -/
def execRouteSet (s : State) : Out := s.request 0x000A s.routeSet
/-- KEYS_SET (R314). -/
def execKeysSet (s : State) : Out := s.request 0x000B s.keysSet
/-- What the lead does of a request of a CODE before it can carry it out: the far pages that it names are fetched (R283), and a forced
activation drains (R369); none when the request can be carried out. -/
def State.requestFirst (s : State) (code : Nat) : Option State :=
  match s.payload with
  | none => none
  | some p =>
    match code with
    | 0x000C =>
      match s.shutPages false (numAt p 0 8) (numAt p 8 8) with
      | [] => s.forceFirst p
      | l => some (s.askAll false 0 l)
    | 0x000D =>
      let a := numAt p 32 8
      let n := (report s.fw.image s.enmap.sig (p.take 32)).length
      match if p.length = 40 ∧ isHost a = true ∧ a + n ≤ 0x800000000000 then s.shutPages true a n else [] with
      | [] => none
      | l => some (s.askAll true 0 l)
    | _ => none

/-- Carries out a request of a CODE, or what comes before it. -/
def State.requestStep (s : State) (code : Nat) (f : List Byte → Reply) : State := (s.requestFirst code).getD (s.carryOut f)

/-- FW_ACTIVATE (R368, R369). -/
def execFwActivate (s : State) : Out := .next (if s.mailCode = some 0x000C then s.requestStep 0x000C s.fwActivate else s)
/-- ATTEST (R409). -/
def execAttest (s : State) : Out := .next (if s.mailCode = some 0x000D then s.requestStep 0x000D s.attest else s)
/-- COUNTERS (R414). -/
def execCounters (s : State) : Out := s.request 0x000E s.counters
/-- PORT_STATUS (R372). -/
def execPortStatus (s : State) : Out := s.request 0x000F s.portStatus
/-- SPARE_THRESHOLD (R413). -/
def execSpareThreshold (s : State) : Out := s.request 0x0010 s.spareThreshold
/-- HANDLE_FREE (R382). -/
def execHandleFree (s : State) : Out := s.request 0x0011 s.handleFree
/-- PINQUOTA_SET (R314). -/
def execPinquotaSet (s : State) : Out := s.request 0x0012 s.pinquotaSet

/-- The reply to a request of a CODE; one not listed is malformed (R314). -/
def State.reply (s : State) (code : Nat) (p : List Byte) : Reply :=
  match code with
  | 0x0001 => s.queueSet p
  | 0x0002 => s.queueFree p
  | 0x0003 => s.bucketSet p
  | 0x0004 => s.colourNew p
  | 0x0005 => s.colourRetire p
  | 0x0006 => s.grant p
  | 0x0007 => s.ungrant p
  | 0x0008 => s.admitPeer p
  | 0x0009 => s.regionSet p
  | 0x000A => s.routeSet p
  | 0x000B => s.keysSet p
  | 0x000C => s.fwActivate p
  | 0x000D => s.attest p
  | 0x000E => s.counters p
  | 0x000F => s.portStatus p
  | 0x0010 => s.spareThreshold p
  | 0x0011 => s.handleFree p
  | 0x0012 => s.pinquotaSet p
  | _ => replyBad s 1

/-- MAILBOX_REQUEST_EXECUTION (R313, R405): the lead carries out the request that waits, whatever its CODE. -/
def execMailboxRequestExecution (s : State) : Out :=
  .next <|
    match s.mailCode with
    | none => s
    | some code => s.requestStep code (s.reply code)

end Sys2Proof.Machine
end

