-- ==== Sys2Proof/Machine/Moves.lean ====
section
/-!
DEFINITION. The five moves (R108 to R111).
-/
namespace Sys2Proof.Machine

/-- `mov.c`: the quad and its tag, lane by lane; a capability that the running pass matches goes untagged (R108, R207). -/
def movQuadFx (s : State) (d : BitVec 8) (b : BSrc) (e : Env) : Fx :=
  match e.lane, b with
  | some l, .reg r =>
    let q := e.rope.quad l r.r.toNat
    { quads := [(d.toNat, q, s.tagFor q (e.rope.tag l r.r.toNat))] }
  | _, _ => {}

/-- `mov` (R108). -/
def movCard (s : State) (u w c : Bool) (g : Guard) (d : BitVec 8) (b : BSrc) : Card where
  u := u
  g := g
  used := b.used (if c then 4 else width w)
  fx := fun e => if c then movQuadFx s d b e else Fx.out w d (e.bval .int w b)

/-- `mov` (R108). -/
def execMov (u w c : Bool) (g : Guard) (d : BitVec 8) (b : BSrc) (s : State) : Out := s.runCard 8 (movCard s u w c g d b)

/-- `movi` (R109). -/
def moviCard (u w : Bool) (g : Guard) (d : BitVec 8) (imm : BitVec 32) : Card where
  u := u
  g := g
  used := []
  fx := fun _ => Fx.out w d (if w then (imm.signExtend 64).toNat else imm.toNat)

/-- `movi` (R109). -/
def execMovi (u w : Bool) (g : Guard) (d : BitVec 8) (imm : BitVec 32) (s : State) : Out :=
  s.runCard 16 (moviCard u w g d imm)

/-- `movs` (R110): `%clock` is the one special register of 64 bits. -/
def movsCard (u : Bool) (g : Guard) (d a : BitVec 8) : Card where
  u := u
  g := g
  used := []
  fx := fun e => Fx.out (a == 0x05) d (e.special a.toNat)

/-- `movs` (R110). -/
def execMovs (u : Bool) (g : Guard) (d a : BitVec 8) (s : State) : Out := s.runCard 8 (movsCard u g d a)

/-- The limit of an indexed move: the allotment, or 64 uniforms (R111). -/
def Env.indexLimit (e : Env) : Nat := if e.lane.isSome then e.allot else 64

/-- `movl` (R111). -/
def movlFx (d : BitVec 8) (a : RSrc) (b : BSrc) (e : Env) : Fx :=
  let m := a.r.toNat + e.bval .int false b
  Fx.word d (if m < e.indexLimit then (e.reg (BitVec.ofNat 8 m)).toNat else regPoison.toNat)

/-- `movl` (R111). -/
def movlCard (u : Bool) (g : Guard) (d : BitVec 8) (a : RSrc) (b : BSrc) : Card where
  u := u
  g := g
  used := (a, 1) :: b.used 1
  fx := movlFx d a b

/-- `movl` (R111). -/
def execMovl (u : Bool) (g : Guard) (d : BitVec 8) (a : RSrc) (b : BSrc) (s : State) : Out := s.runCard 8 (movlCard u g d a b)

/-- `movu` (R111). -/
def movuFx (d : BitVec 8) (a : RSrc) (b : BSrc) (e : Env) : Fx :=
  let m := d.toNat + e.bval .int false b
  if m < e.indexLimit then { regs := [(m, e.reg a.r)] } else {}

/-- `movu` (R111). -/
def movuCard (u : Bool) (g : Guard) (d : BitVec 8) (a : RSrc) (b : BSrc) : Card where
  u := u
  g := g
  used := (a, 1) :: b.used 1
  fx := movuFx d a b

/-- `movu` (R111). -/
def execMovu (u : Bool) (g : Guard) (d : BitVec 8) (a : RSrc) (b : BSrc) (s : State) : Out := s.runCard 8 (movuCard u g d a b)

end Sys2Proof.Machine
end

