-- ==== Sys2Proof/Machine/Pipes.lean ====
section
/-!
DEFINITION. Events of fetch, issue and scratch lines: the emulation of retired majors (R38), block-skip words (R31), boosts (R73), the end
of a `rest` (R92), lines of the backing and of the stash (R136, R138).
-/
namespace Sys2Proof.Machine

/-! ### Fetch (R31, R38) -/

/-- The words of the instruction at the issuing slot, as far as its length takes. -/
def Ctx.rawWords (c : Ctx) (bytes : Nat) : Nat :=
  match c.s.fetchMore c.party c.rope c.entry.pc c.entry.pc.toNat (bytes / 4) with
  | .ok n => n
  | _ => 0

/-- What an emulation reads of the rope. -/
def Ctx.emuIn (c : Ctx) (bytes : Nat) : EmuIn := ⟨c.rawWords bytes, c.entry.mask, c.rope.regs, c.rope.preds, c.rope.unif⟩

/-- Bytes of an access of an emulation: 1 to 16. -/
def EmuAcc.bytes (a : EmuAcc) : Nat := a.n.toNat + 1

/-- What a store of an emulation writes. -/
def EmuAcc.stored (a : EmuAcc) : List Byte := (a.data ++ List.replicate a.bytes 0).take a.bytes

/-- The guard-active lanes of an emulation, live ones alone (R38). -/
def Emulation.lanes (e : Emulation) (live : Word) : Word := e.active &&& live

/-- The accesses of an emulation in its active lanes, in order, each with a key of its own. -/
def Emulation.keyed (e : Emulation) (live : Word) : List (Nat × EmuAcc) :=
  ((e.accs.filter fun a => decide (a.lane < 32) && (e.lanes live).getLsbD a.lane).mapIdx fun i a => (32 * i + a.lane, a))

/-- The checks of one access of an emulation, through the rope's own capability (R38 step 2). -/
def Ctx.emuSteps (c : Ctx) (wr : Bool) (a : EmuAcc) : List (Bool × Cause) :=
  let q := c.rope.quad a.lane (4 * a.quad.toNat)
  c.spanSteps q (c.rope.tag a.lane (4 * a.quad.toNat)) (capHas q (if wr then pST else pLD)) a.off a.bytes (max 1 a.align)

/-- The offset of a lane's first access that fails a check. -/
def Ctx.emuOff (c : Ctx) (wr : Bool) (l : List (Nat × EmuAcc)) (lane : Nat) : Int :=
  ((l.find? fun x => x.2.lane == lane && (firstCause (c.emuSteps wr x.2)).isSome).map fun x => x.2.off).getD 0

/-- The registers, predicates, uniform registers and flags that an emulation writes: lane state in its active lanes alone. -/
def Rope.emulate (r : Rope) (regs : Nat) (active : Word) (e : EmuEffect) : Rope :=
  let r := r.useAll active (e.used.filter fun x => decide (x.1.r.toNat + x.2 ≤ regs))
  let r := e.regs.foldl (fun (r : Rope) x =>
    if x.1 / 256 < 32 ∧ x.1 % 256 < regs ∧ active.getLsbD (x.1 / 256) = true then r.setX (x.1 / 256) (x.1 % 256) x.2 else r) r
  let r := e.preds.foldl (fun (r : Rope) x =>
    if x.1 < 7 then { r with preds := SMap.set 0 r.preds x.1 ((r.pmask x.1 &&& ~~~active) ||| (x.2 &&& active)) } else r) r
  let r := e.unif.foldl (fun (r : Rope) x => if x.1 < 64 then r.setS x.1 x.2 else r) r
  { r with fpst := r.fpst ||| e.fpst }

/-- An emulation behind the gate: its stores or what its reads give, then its effect; the rope resumes past the instruction as by
`tret.skip` (R38 steps 3 and 4, R40). -/
def Ctx.emulate (c : Ctx) (x : EmuIn) (e : Emulation) (l : List (Nat × EmuAcc)) (accs : List Acc) (bytes : Nat) : State :=
  let die := dieOf c.party.core
  let s := if e.write then (accs.zip l).foldl (fun (s : State) y => s.laneStore die c.rope.writer y.1.addr y.2.2.stored) c.s else c.s
  let read := if e.write then [] else accs.map c.read
  let r := (c.rope.consume c.entry.pc.toNat bytes).emulate c.party.regs (e.lanes c.entry.mask) (Config.emulated x read)
  (c.stored s).done (if e.write then r else r.sees (c.s.shown accs)) bytes

/-- The store that an emulation sends to a peer for an access. -/
def emuOp (wr : Bool) (l : List (Nat × EmuAcc)) (a : Acc) : PeerOp :=
  if wr then .store (((l.find? fun x => x.1 == a.key).map fun x => x.2.stored).getD []) none else .load a.n

/-- The emulation of a retired instruction: a cause of its own, then every capability that it uses in every active lane, then the gate of
an ordinary access (R38, R39). Which accesses it makes and what it writes are free values (log 11). -/
def Ctx.emulation (c : Ctx) (bytes : Nat) : State :=
  let x := c.emuIn bytes
  let e := Config.emulation x
  let l := e.keyed c.entry.mask
  match e.cause with
  | some y => c.trap y.1 (y.2.1 &&& c.entry.mask) y.2.2.toNat
  | none =>
    match if c.checked then none
        else checkLanes (lanesOf (e.lanes c.entry.mask)) (fun n => (l.filter fun y => y.2.lane == n).flatMap fun y => c.emuSteps e.write y.2) with
    | some z => c.trapOff z.1 z.2 (c.emuOff e.write l)
    | none =>
      let accs := l.map fun y => accOf y.1 (c.rope.quad y.2.lane (4 * y.2.quad.toNat)) y.2.off y.2.bytes
      c.gate (.retiredOpcodeEmulation bytes) accs e.write (!e.write) false (!e.write) (emuOp e.write l) fun c =>
        c.emulate x e l accs bytes

/-- RETIRED_OPCODE_EMULATION (R38): the issuing slot has met a retired major of this length; a cause of the emulation goes to the rope's
own handler, and then nothing has been written. -/
def execRetiredOpcodeEmulation (bytes : Nat) (s : State) : Out :=
  .next <|
    match s.ctx? with
    | none => s
    | some c =>
      match s.fetchInstr c.party c.rope c.entry.pc with
      | .retired n => if n = bytes then c.emulation bytes else s
      | _ => s

/-- The first byte of the next fetch block (R31). -/
def nextBlock (pc : BitVec 48) : BitVec 48 := (pc ||| 0x1F) + 1

/-- BLOCK_SKIP_WORD (R31): the issuing slot has met an all-zero word. -/
def execBlockSkipWord (s : State) : Out :=
  .next <|
    match s.ctx? with
    | none => s
    | some c =>
      match s.fetchInstr c.party c.rope c.entry.pc with
      | .skip => c.put { c.rope with stack := c.rope.stack.modify c.pos fun e => { e with pc := nextBlock e.pc } }
      | _ => s

/-! ### Issue (R73, R92) -/

/-- A pair whose counter has reached 64 is boosted (R73). -/
def Entry.boosted (e : Entry) : Entry := if 64 ≤ e.counter then { e with boost := true } else e

/-- A `rest` whose cycles have run out has ended (R92). -/
def Entry.rested (e : Entry) : Entry := if e.rest = some 0 then { e with rest := none } else e

/-- WAIT_COUNTER_BOOST (R73). -/
def execWaitCounterBoost (uid rope pos : Nat) (s : State) : Out :=
  .next <| s.withRope uid rope fun r => { r with stack := r.stack.modify pos Entry.boosted }

/-- REST_END (R92). -/
def execRestEnd (uid rope pos : Nat) (s : State) : Out :=
  .next <| s.withRope uid rope fun r => { r with stack := r.stack.modify pos Entry.rested }

/-! ### Scratch lines (R136, R138) -/

/-- The half-lines of a scratch line whose place in the backing is poisoned in HBM (R136, R219). -/
def State.backingPoison (s : State) (p : Party) (line : Nat) : List Nat :=
  [2 * line, 2 * line + 1].filter fun h => NSet.has s.poison ((p.backingAt + 64 * h) / 64)

/-- PAGE_REFILL (R136): a line comes from the backing, with its tags and poison; the slot that waits for it goes on. -/
def execPageRefill (uid line : Nat) (s : State) : Out :=
  .next <| s.withParty uid fun p =>
    if NSet.has p.backed line then
      { p with backed := NSet.set p.backed line false
               spoison := (s.backingPoison p line).foldl (fun m h => NSet.set m h true) p.spoison }.wake
        fun (w : Wait) => (w == Wait.refill line)
    else p

/-- The span address that a line of a party's scratch shows, if it lies in a stash page. -/
def Party.stashAddr (p : Party) (line : Nat) : Option Nat :=
  match p.pageAt (line * 128) with
  | .stash _ _ a => some (a + line * 128 % 4096)
  | _ => none

/-- STASH_LINE_FILL (R138, R284): a line that is not present is filled from L2; where its far page is no longer resident, the slots that
wait issue their instruction again, which parks the rope on the page. -/
def execStashLineFill (uid line : Nat) (s : State) : Out :=
  .next <|
    match s.party? uid with
    | none => s
    | some p =>
      match p.stashAddr line with
      | none => s
      | some a =>
        let wake (p : Party) : Party := p.wake fun (w : Wait) => (w == Wait.refill line)
        if NSet.has p.present line then s
        else if s.shutPages false a 128 ≠ [] then s.setParty (wake p)
        else s.setParty (wake { p with present := NSet.set p.present line true })

/-- STASH_FOREIGN_ACCESS (R138): a read by another agent takes the dirty bytes; a write writes them back and drops the copy. The bytes
themselves stand in the span. -/
def execStashForeignAccess (uid line : Nat) (write : Bool) (s : State) : Out :=
  .next <| s.withParty uid fun p =>
    if NSet.has p.present line then
      { p with dirty := NSet.set p.dirty line false, present := if write then NSet.set p.present line false else p.present }
    else p

end Sys2Proof.Machine
end

