-- ==== Sys2Proof/Machine/Pool.lean ====
section
/-!
DEFINITION. The shared pool from outside (R396 to R400): snoops, the failure of a host, the loss of a module, a port that goes down.
-/
namespace Sys2Proof.Machine

/-- A line of a far page is no longer dirty. -/
def State.cleanLine (s : State) (line : Nat) : State :=
  match s.page? (line * 128 / 2 ^ 21) with
  | none => s
  | some r => { s with pages := SMap.set none s.pages (line * 128 / 2 ^ 21) (some (r.sendHome s.poison fun x => x == line)) }

/-- POOL_SNOOP (R399): the line and its stash copy are written back and dropped, with the line's tags (R196) and race records (R310); what is fetched
again from a region that has lost its modules is poisoned (R398). -/
def execPoolSnoop (line : Nat) (s : State) : Out :=
  .next <|
    let a := line * 128
    if !(isPool a) || !(s.backedAt a) then s
    else
      let s := (((s.dropStash a (a + 128)).cleanLine line).dropLine line).clearTags a 128
      if s.poolGone a then s.poisonSpan a 128 else s

/-- POOL_HOST_FAILURE (R400): the pool lines of 64 bytes that a failed host held modified are poisoned. -/
def execPoolHostFailure (lines : List Nat) (s : State) : Out :=
  .next { s with poison := (lines.filter fun h => isPool (h * 64) && s.backedAt (h * 64)).foldl (fun p h => NSet.set p h true) s.poison }

/-- The modules of a region (R398). -/
def Region.modules (r : Region) : Nat := if r.parity then 5 else 2

/-- POOL_MODULE_LOSS (R398). -/
def execPoolModuleLoss (region module : Nat) (s : State) : Out :=
  .next <|
    match SMap.get none s.regions region with
    | none => s
    | some r =>
      if r.versioned ∨ r.modules ≤ module then s
      else { s with regions := SMap.set none s.regions region (some { r with lostModules := NSet.set r.lostModules module true }) }

/-- POOL_PORT_DOWN (R396): the remaining ports reach the whole window. -/
def execPoolPortDown (port : Nat) (s : State) : Out := .next { s with poolPorts := NSet.del s.poolPorts port }

end Sys2Proof.Machine
end

