-- ==== Sys2Proof/Machine/Dispatch.lean ====
section
/-!
DEFINITION. exec: each row of the opcode table with its meaning.
-/
namespace Sys2Proof.Machine

def exec (i : Instr) (s : State) : Host.Outcome State Fault Refusal :=
  match i with
  | .nop g => Sys2Proof.Machine.execNop g s
  | .bra g tgt rcv => Sys2Proof.Machine.execBra g tgt rcv s
  | .brc g tgt rcv => Sys2Proof.Machine.execBrc g tgt rcv s
  | .brx g a rcv => Sys2Proof.Machine.execBrx g a rcv s
  | .call g d tgt => Sys2Proof.Machine.execCall g d tgt s
  | .callx g d a => Sys2Proof.Machine.execCallx g d a s
  | .ret g a => Sys2Proof.Machine.execRet g a s
  | .brk g n => Sys2Proof.Machine.execBrk g n s
  | .exit g => Sys2Proof.Machine.execExit g s
  | .yield g => Sys2Proof.Machine.execYield g s
  | .rest g count => Sys2Proof.Machine.execRest g count s
  | .seed a => Sys2Proof.Machine.execSeed a s
  | .mov u w c g d b => Sys2Proof.Machine.execMov u w c g d b s
  | .movi u w g d imm => Sys2Proof.Machine.execMovi u w g d imm s
  | .movs u g d a => Sys2Proof.Machine.execMovs u g d a s
  | .movu u g d a b => Sys2Proof.Machine.execMovu u g d a b s
  | .movl u g d a b => Sys2Proof.Machine.execMovl u g d a b s
  | .cvt o => Sys2Proof.Machine.execCvt o s
  | .cvtp o => Sys2Proof.Machine.execCvtp o s
  | .cvtb g rnd d a form => Sys2Proof.Machine.execCvtb g rnd d a form s
  | .rint o => Sys2Proof.Machine.execRint o s
  | .iadd m sat => Sys2Proof.Machine.execIadd m sat s
  | .isub m sat => Sys2Proof.Machine.execIsub m sat s
  | .iaddc m cie ci co sub => Sys2Proof.Machine.execIaddc m cie ci co sub s
  | .imul m sat => Sys2Proof.Machine.execImul m sat s
  | .imulh m => Sys2Proof.Machine.execImulh m s
  | .imad m sat => Sys2Proof.Machine.execImad m sat s
  | .imadw m sat => Sys2Proof.Machine.execImadw m sat s
  | .idiv m => Sys2Proof.Machine.execIdiv m s
  | .irem m => Sys2Proof.Machine.execIrem m s
  | .iabs m sat => Sys2Proof.Machine.execIabs m sat s
  | .ineg m sat => Sys2Proof.Machine.execIneg m sat s
  | .imin m => Sys2Proof.Machine.execImin m s
  | .imax m => Sys2Proof.Machine.execImax m s
  | .icmp m cond cmb cp => Sys2Proof.Machine.execIcmp m cond cmb cp s
  | .isel u w g d a b c => Sys2Proof.Machine.execIsel u w g d a b c s
  | .and m => Sys2Proof.Machine.execAnd m s
  | .or m => Sys2Proof.Machine.execOr m s
  | .xor m => Sys2Proof.Machine.execXor m s
  | .not m => Sys2Proof.Machine.execNot m s
  | .bool3 m lut => Sys2Proof.Machine.execBool3 m lut s
  | .shl m => Sys2Proof.Machine.execShl m s
  | .shr m => Sys2Proof.Machine.execShr m s
  | .sra m => Sys2Proof.Machine.execSra m s
  | .fsh m left => Sys2Proof.Machine.execFsh m left s
  | .popc m => Sys2Proof.Machine.execPopc m s
  | .clz m => Sys2Proof.Machine.execClz m s
  | .ctz m => Sys2Proof.Machine.execCtz m s
  | .brev m => Sys2Proof.Machine.execBrev m s
  | .bfx m => Sys2Proof.Machine.execBfx m s
  | .bfi m => Sys2Proof.Machine.execBfi m s
  | .perm m => Sys2Proof.Machine.execPerm m s
  | .pset u g d a b fa lut => Sys2Proof.Machine.execPset u g d a b fa lut s
  | .fadd m => Sys2Proof.Machine.execFadd m s
  | .fsub m => Sys2Proof.Machine.execFsub m s
  | .fmul m => Sys2Proof.Machine.execFmul m s
  | .fma m => Sys2Proof.Machine.execFma m s
  | .fmin m w => Sys2Proof.Machine.execFmin m w s
  | .fmax m w => Sys2Proof.Machine.execFmax m w s
  | .fcmp o => Sys2Proof.Machine.execFcmp o s
  | .fclass u ftz w g d a cls => Sys2Proof.Machine.execFclass u ftz w g d a cls s
  | .frcp m => Sys2Proof.Machine.execFrcp m s
  | .fdiv m => Sys2Proof.Machine.execFdiv m s
  | .fsqrt m => Sys2Proof.Machine.execFsqrt m s
  | .frsq m => Sys2Proof.Machine.execFrsq m s
  | .fex2 m => Sys2Proof.Machine.execFex2 m s
  | .flg2 m => Sys2Proof.Machine.execFlg2 m s
  | .fsin m => Sys2Proof.Machine.execFsin m s
  | .fcos m => Sys2Proof.Machine.execFcos m s
  | .ftanh m => Sys2Proof.Machine.execFtanh m s
  | .fscale m => Sys2Proof.Machine.execFscale m s
  | .hadd2 m bf => Sys2Proof.Machine.execHadd2 m bf s
  | .hmul2 m bf => Sys2Proof.Machine.execHmul2 m bf s
  | .hfma2 m bf => Sys2Proof.Machine.execHfma2 m bf s
  | .hmin2 m bf => Sys2Proof.Machine.execHmin2 m bf s
  | .hmax2 m bf => Sys2Proof.Machine.execHmax2 m bf s
  | .dadd m => Sys2Proof.Machine.execDadd m s
  | .dmul m => Sys2Proof.Machine.execDmul m s
  | .dfma m => Sys2Proof.Machine.execDfma m s
  | .vote g test fd na k d a => Sys2Proof.Machine.execVote g test fd na k d a s
  | .ballot g mode na d a => Sys2Proof.Machine.execBallot g mode na d a s
  | .shfl o => Sys2Proof.Machine.execShfl o s
  | .red g op ty bar k d a => Sys2Proof.Machine.execRed g op ty bar k d a s
  | .scan g op ty ex k d a => Sys2Proof.Machine.execScan g op ty ex k d a s
  | .matchLanes g w mode d a => Sys2Proof.Machine.execMatchLanes g w mode d a s
  | .elect g mode su d => Sys2Proof.Machine.execElect g mode su d s
  | .tmask g src d => Sys2Proof.Machine.execTmask g src d s
  | .barinit bar count team => Sys2Proof.Machine.execBarinit bar count team s
  | .barrive bar pd => Sys2Proof.Machine.execBarrive bar pd s
  | .barwait bar pd => Sys2Proof.Machine.execBarwait bar pd s
  | .bartest bar form => Sys2Proof.Machine.execBartest bar form s
  | .cinit c target => Sys2Proof.Machine.execCinit c target s
  | .carrive c n => Sys2Proof.Machine.execCarrive c n s
  | .cwait c gen => Sys2Proof.Machine.execCwait c gen s
  | .ctest k c gen => Sys2Proof.Machine.execCtest k c gen s
  | .draw o => Sys2Proof.Machine.execDraw o s
  | .drawm o => Sys2Proof.Machine.execDrawm o s
  | .drawk form => Sys2Proof.Machine.execDrawk form s
  | .drawt o => Sys2Proof.Machine.execDrawt o s
  | .lds sz g d off => Sys2Proof.Machine.execLds sz g d off s
  | .sts sz g off b => Sys2Proof.Machine.execSts sz g off b s
  | .atms o => Sys2Proof.Machine.execAtms o s
  | .smap o => Sys2Proof.Machine.execSmap o s
  | .sunmap nm1 g a => Sys2Proof.Machine.execSunmap nm1 g a s
  | .sflush nm1 g a => Sys2Proof.Machine.execSflush nm1 g a s
  | .cbnd g d a b c => Sys2Proof.Machine.execCbnd g d a b c s
  | .cperm g d a keep => Sys2Proof.Machine.execCperm g d a keep s
  | .cseal g d a b => Sys2Proof.Machine.execCseal g d a b s
  | .cunseal g d a b => Sys2Proof.Machine.execCunseal g d a b s
  | .cfield g f d a => Sys2Proof.Machine.execCfield g f d a s
  | .ctag g use d a => Sys2Proof.Machine.execCtag g use d a s
  | .cclr g d => Sys2Proof.Machine.execCclr g d s
  | .revk g nw d a => Sys2Proof.Machine.execRevk g nw d a s
  | .swpq g d => Sys2Proof.Machine.execSwpq g d s
  | .ld m sz d => Sys2Proof.Machine.execLd m sz d s
  | .st m sz c => Sys2Proof.Machine.execSt m sz c s
  | .ldc m d => Sys2Proof.Machine.execLdc m d s
  | .stc m c => Sys2Proof.Machine.execStc m c s
  | .atom o => Sys2Proof.Machine.execAtom o s
  | .atomn o => Sys2Proof.Machine.execAtomn o s
  | .ldmx m fmt d c => Sys2Proof.Machine.execLdmx m fmt d c s
  | .stmx m fmt d c => Sys2Proof.Machine.execStmx m fmt d c s
  | .pref m nm1 => Sys2Proof.Machine.execPref m nm1 s
  | .fence scope => Sys2Proof.Machine.execFence scope s
  | .iinv m c pkg => Sys2Proof.Machine.execIinv m c pkg s
  | .isync => Sys2Proof.Machine.execIsync s
  | .clwb m c inv => Sys2Proof.Machine.execClwb m c inv s
  | .gang n a => Sys2Proof.Machine.execGang n a s
  | .ldm capok a b => Sys2Proof.Machine.execLdm capok a b s
  | .mma o => Sys2Proof.Machine.execMma o s
  | .mmas o ns => Sys2Proof.Machine.execMmas o ns s
  | .mmb z opx d a b => Sys2Proof.Machine.execMmb z opx d a b s
  | .mmf o c stride => Sys2Proof.Machine.execMmf o c stride s
  | .accz rel nm1 d => Sys2Proof.Machine.execAccz rel nm1 d s
  | .accw o => Sys2Proof.Machine.execAccw o s
  | .accq d => Sys2Proof.Machine.execAccq d s
  | .cpy o => Sys2Proof.Machine.execCpy o s
  | .cpyc o => Sys2Proof.Machine.execCpyc o s
  | .cpyh o => Sys2Proof.Machine.execCpyh o s
  | .snap o => Sys2Proof.Machine.execSnap o s
  | .cring form => Sys2Proof.Machine.execCring form s
  | .rcard form d => Sys2Proof.Machine.execRcard form d s
  | .wpt n => Sys2Proof.Machine.execWpt n s
  | .resq m d => Sys2Proof.Machine.execResq m d s
  | .rpin op m d c => Sys2Proof.Machine.execRpin op m d c s
  | .spawn o => Sys2Proof.Machine.execSpawn o s
  | .joinc o => Sys2Proof.Machine.execJoinc o s
  | .qpush o => Sys2Proof.Machine.execQpush o s
  | .gcond or n d a => Sys2Proof.Machine.execGcond or n d a s
  | .trap g code => Sys2Proof.Machine.execTrap g code s
  | .tret op => Sys2Proof.Machine.execTret op s
  | .rdsr srn d => Sys2Proof.Machine.execRdsr srn d s
  | .wrsr srn a => Sys2Proof.Machine.execWrsr srn a s
  | .bkpt g code => Sys2Proof.Machine.execBkpt g code s
  | .delg g d a b => Sys2Proof.Machine.execDelg g d a b s
  | .coll o => Sys2Proof.Machine.execColl o s
  | .retiredOpcodeEmulation bytes => Sys2Proof.Machine.execRetiredOpcodeEmulation bytes s
  | .blockSkipWord => Sys2Proof.Machine.execBlockSkipWord s
  | .waitCounterBoost uid rope pos => Sys2Proof.Machine.execWaitCounterBoost uid rope pos s
  | .restEnd uid rope pos => Sys2Proof.Machine.execRestEnd uid rope pos s
  | .cairnArrival job n => Sys2Proof.Machine.execCairnArrival job n s
  | .pageRefill uid line => Sys2Proof.Machine.execPageRefill uid line s
  | .stashLineFill uid line => Sys2Proof.Machine.execStashLineFill uid line s
  | .stashForeignAccess uid line write => Sys2Proof.Machine.execStashForeignAccess uid line write s
  | .partyPlacement => Sys2Proof.Machine.execPartyPlacement s
  | .resourceRelease uid => Sys2Proof.Machine.execResourceRelease uid s
  | .parkLimitExpiry uid rope => Sys2Proof.Machine.execParkLimitExpiry uid rope s
  | .partySave uid => Sys2Proof.Machine.execPartySave uid s
  | .partyRestore uid core => Sys2Proof.Machine.execPartyRestore uid core s
  | .barrierRecordWaitEnd uid rope pos => Sys2Proof.Machine.execBarrierRecordWaitEnd uid rope pos s
  | .jobCardWaitEnd uid rope pos => Sys2Proof.Machine.execJobCardWaitEnd uid rope pos s
  | .revocationMapRoom uid rope pos => Sys2Proof.Machine.execRevocationMapRoom uid rope pos s
  | .recordSlotFree forLaunch a rope pos => Sys2Proof.Machine.execRecordSlotFree forLaunch a rope pos s
  | .tierFetch => Sys2Proof.Machine.execTierFetch s
  | .pageResident page readOnly => Sys2Proof.Machine.execPageResident page readOnly s
  | .eviction page => Sys2Proof.Machine.execEviction page s
  | .pageLost page => Sys2Proof.Machine.execPageLost page s
  | .pageRequestResponse page success => Sys2Proof.Machine.execPageRequestResponse page success s
  | .atsInvalidateRequest lo hi => Sys2Proof.Machine.execAtsInvalidateRequest lo hi s
  | .sweepPassStart => Sys2Proof.Machine.execSweepPassStart s
  | .sweepVisit place => Sys2Proof.Machine.execSweepVisit place s
  | .sweepPassComplete => Sys2Proof.Machine.execSweepPassComplete s
  | .copyJobDispatch die => Sys2Proof.Machine.execCopyJobDispatch die s
  | .copyJobComplete id => Sys2Proof.Machine.execCopyJobComplete id s
  | .ldmJobComplete id => Sys2Proof.Machine.execLdmJobComplete id s
  | .ringPost => Sys2Proof.Machine.execRingPost s
  | .ringSlotWaitEnd job => Sys2Proof.Machine.execRingSlotWaitEnd job s
  | .ringCtimeExpiry desc => Sys2Proof.Machine.execRingCtimeExpiry desc s
  | .gangJoin uid rope => Sys2Proof.Machine.execGangJoin uid rope s
  | .readPhaseComplete id => Sys2Proof.Machine.execReadPhaseComplete id s
  | .accumulatePhaseComplete core => Sys2Proof.Machine.execAccumulatePhaseComplete core s
  | .nearCacheAdd n => Sys2Proof.Machine.execNearCacheAdd n s
  | .snapshotCut => Sys2Proof.Machine.execSnapshotCut s
  | .snapshotCopyComplete => Sys2Proof.Machine.execSnapshotCopyComplete s
  | .queueDoorbell off size val => Sys2Proof.Machine.execQueueDoorbell off size val s
  | .registerWrite off bytes => Sys2Proof.Machine.execRegisterWrite off bytes s
  | .queueSlotMapping => Sys2Proof.Machine.execQueueSlotMapping s
  | .bucketSettlement b => Sys2Proof.Machine.execBucketSettlement b s
  | .watchdogExpiry q => Sys2Proof.Machine.execWatchdogExpiry q s
  | .drainComplete q => Sys2Proof.Machine.execDrainComplete q s
  | .launchComplete id => Sys2Proof.Machine.execLaunchComplete id s
  | .graphNodeComplete graph node => Sys2Proof.Machine.execGraphNodeComplete graph node s
  | .waitextPoll node a b => Sys2Proof.Machine.execWaitextPoll node a b s
  | .load q => Sys2Proof.Machine.execLoad q s
  | .launch q => Sys2Proof.Machine.execLaunch q s
  | .graphload q => Sys2Proof.Machine.execGraphload q s
  | .graph q => Sys2Proof.Machine.execGraph q s
  | .unload q => Sys2Proof.Machine.execUnload q s
  | .cmdblk q => Sys2Proof.Machine.execCmdblk q s
  | .fwin q => Sys2Proof.Machine.execFwin q s
  | .signal q => Sys2Proof.Machine.execSignal q s
  | .wait q => Sys2Proof.Machine.execWait q s
  | .copy q => Sys2Proof.Machine.execCopy q s
  | .collectiveLoad q => Sys2Proof.Machine.execCollectiveLoad q s
  | .collectiveReplay q => Sys2Proof.Machine.execCollectiveReplay q s
  | .collectiveUnload q => Sys2Proof.Machine.execCollectiveUnload q s
  | .codeSync q => Sys2Proof.Machine.execCodeSync q s
  | .queueSet => Sys2Proof.Machine.execQueueSet s
  | .queueFree => Sys2Proof.Machine.execQueueFree s
  | .bucketSet => Sys2Proof.Machine.execBucketSet s
  | .colourNew => Sys2Proof.Machine.execColourNew s
  | .colourRetire => Sys2Proof.Machine.execColourRetire s
  | .grant => Sys2Proof.Machine.execGrant s
  | .ungrant => Sys2Proof.Machine.execUngrant s
  | .admitSet => Sys2Proof.Machine.execAdmit s
  | .regionSet => Sys2Proof.Machine.execRegionSet s
  | .routeSet => Sys2Proof.Machine.execRouteSet s
  | .keysSet => Sys2Proof.Machine.execKeysSet s
  | .fwActivate => Sys2Proof.Machine.execFwActivate s
  | .attest => Sys2Proof.Machine.execAttest s
  | .counters => Sys2Proof.Machine.execCounters s
  | .portStatus => Sys2Proof.Machine.execPortStatus s
  | .spareThreshold => Sys2Proof.Machine.execSpareThreshold s
  | .handleFree => Sys2Proof.Machine.execHandleFree s
  | .pinquotaSet => Sys2Proof.Machine.execPinquotaSet s
  | .replayStart => Sys2Proof.Machine.execReplayStart s
  | .fetch id op => Sys2Proof.Machine.execFetch id op s
  | .send id op => Sys2Proof.Machine.execSend id op s
  | .recv id op => Sys2Proof.Machine.execRecv id op s
  | .reduce id op => Sys2Proof.Machine.execReduce id op s
  | .merge id op => Sys2Proof.Machine.execMerge id op s
  | .deliver id op => Sys2Proof.Machine.execDeliver id op s
  | .chunkArrival c => Sys2Proof.Machine.execChunkArrival c s
  | .chunkResend id op => Sys2Proof.Machine.execChunkResend id op s
  | .lateContribution c => Sys2Proof.Machine.execLateContribution c s
  | .replayComplete id => Sys2Proof.Machine.execReplayComplete id s
  | .flitCrcFailure port again => Sys2Proof.Machine.execFlitCrcFailure port again s
  | .laneFailure port lane => Sys2Proof.Machine.execLaneFailure port lane s
  | .retrainComplete port partner => Sys2Proof.Machine.execRetrainComplete port partner s
  | .portDownReroute port => Sys2Proof.Machine.execPortDownReroute port s
  | .unreachableTimeout seq => Sys2Proof.Machine.execUnreachableTimeout seq s
  | .peerAccess dev seq addr colour op => Sys2Proof.Machine.execPeerAccess dev seq addr colour op s
  | .peerReply seq ok bytes => Sys2Proof.Machine.execPeerReply seq ok bytes s
  | .handleIn dev colour id wire => Sys2Proof.Machine.execHandleIn dev colour id wire s
  | .delgAnswer entry arrived accepted => Sys2Proof.Machine.execDelgAnswer entry arrived accepted s
  | .handleInvocation dev inv colour wire => Sys2Proof.Machine.execHandleInvocation dev inv colour wire s
  | .invocationReport job fault bytes => Sys2Proof.Machine.execInvocationReport job fault bytes s
  | .invocationReportTimeout job => Sys2Proof.Machine.execInvocationReportTimeout job s
  | .poolSnoop line => Sys2Proof.Machine.execPoolSnoop line s
  | .poolHostFailure lines => Sys2Proof.Machine.execPoolHostFailure lines s
  | .uncorrectableError addr => Sys2Proof.Machine.execUncorrectableError addr s
  | .mailboxRequestExecution => Sys2Proof.Machine.execMailboxRequestExecution s
  | .leaseRenewal => Sys2Proof.Machine.execLeaseRenewal s
  | .leaseExpiry => Sys2Proof.Machine.execLeaseExpiry s
  | .arbiterGrant => Sys2Proof.Machine.execArbiterGrant s
  | .firmwareEccError core => Sys2Proof.Machine.execFirmwareEccError core s
  | .imageReloadComplete core => Sys2Proof.Machine.execImageReloadComplete core s
  | .tableEccError t => Sys2Proof.Machine.execTableEccError t s
  | .dieFence die => Sys2Proof.Machine.execDieFence die s
  | .safePoint => Sys2Proof.Machine.execSafePoint s
  | .safePointTimeout => Sys2Proof.Machine.execSafePointTimeout s
  | .islandClockChange island clkmax => Sys2Proof.Machine.execIslandClockChange island clkmax s
  | .packageReset => Sys2Proof.Machine.execPackageReset s
  | .correctedError die counter kind unit => Sys2Proof.Machine.execCorrectedError die counter kind unit s
  | .mbdbWrite size val => Sys2Proof.Machine.execMbdbWrite size val s
  | .writePermissionUpgrade page granted => Sys2Proof.Machine.execWritePermissionUpgrade page granted s
  | .chunkAcknowledgement id op accepted => Sys2Proof.Machine.execChunkAcknowledgement id op accepted s
  | .poolModuleLoss region module => Sys2Proof.Machine.execPoolModuleLoss region module s
  | .poolPortDown port => Sys2Proof.Machine.execPoolPortDown port s
  | .dieBroughtBack die => Sys2Proof.Machine.execDieBroughtBack die s
  | .copyOnWritePageCopied page => Sys2Proof.Machine.execCopyOnWritePageCopied page s

end Sys2Proof.Machine
end

