-- ==== Sys2Proof/Machine/Issue.lean ====
section
/-!
DEFINITION. What an issue pipe does before an instruction's own meaning (R72, R73, R79, R97, R254): which lane registers an instruction
names, who is ready, who is chosen, fetch, the checks that depend on the rope, and the bookkeeping after the instruction.
-/
namespace Sys2Proof

/-! ### The lane registers that an instruction names (R97): runs of a first register and a count -/

/-- The run of a register source. -/
def RSrc.run (s : RSrc) (n : Nat) : List (Nat × Nat) := [(s.r.toNat, n)]

/-- The run of a B source. -/
def BSrc.run (n : Nat) : BSrc → List (Nat × Nat)
  | .reg s => s.run n
  | _ => []

/-- The run of a C source. -/
def CSrc.run (n : Nat) : CSrc → List (Nat × Nat)
  | .reg s => s.run n
  | _ => []

/-- The run of a destination. -/
def Dst.run (n : Nat) : Dst → List (Nat × Nat)
  | .lane d => [(d.toNat, n)]
  | .unif _ => []

/-- The run of a source that may be absent. -/
def optRun (n : Nat) : Option RSrc → List (Nat × Nat)
  | some s => s.run n
  | none => []

/-- The runs of an offset. -/
def OffSrc.run : OffSrc → List (Nat × Nat)
  | .none => []
  | .reg s => s.run 1
  | .pair s => s.run 2

/-- The runs of the span mould: the quad and the offset. -/
def SpanOp.runs (m : SpanOp) : List (Nat × Nat) := m.a.run 4 ++ m.off.run

/-- Lane registers of a data operand, by size. -/
def Sz.regs : Sz → Nat
  | .b64 => 2
  | .b128 | .c => 4
  | _ => 1

/-- One register, or a pair. -/
def wide (w : Bool) : Nat := if w then 2 else 1

/-- Runs that a form of the lane class names; the uniform class names none. -/
def laneForm (u : Bool) (l : List (Nat × Nat)) : List (Nat × Nat) := if u then [] else l

/-- The integer mould, by the counts of D, A and B. -/
def IntOp.runs (m : IntOp) (d a b : Nat) : List (Nat × Nat) := laneForm m.u ((m.d.toNat, d) :: (m.a.run a ++ m.b.run b))

/-- The integer mould with every operand of the card's width. -/
def IntOp.runsW (m : IntOp) : List (Nat × Nat) := m.runs (wide m.w) (wide m.w) (wide m.w)

/-- The unary integer mould. -/
def IntUn.runs (m : IntUn) (d : Nat) : List (Nat × Nat) := laneForm m.u ((m.d.toNat, d) :: m.a.run (wide m.w))

/-- The 96-bit integer mould. -/
def IntTri.runs (m : IntTri) (d a b c : Nat) : List (Nat × Nat) :=
  laneForm m.u ((m.d.toNat, d) :: (m.a.run a ++ m.b.run b ++ m.c.run c))

/-- The floating mould. -/
def FltOp.runs (m : FltOp) (n : Nat) : List (Nat × Nat) := laneForm m.u ((m.d.toNat, n) :: (m.a.run n ++ m.b.run n))

/-- The unary floating mould. -/
def FltUn.runs (m : FltUn) : List (Nat × Nat) := laneForm m.u ((m.d.toNat, 1) :: m.a.run 1)

/-- The 96-bit floating mould. -/
def FltTri.runs (m : FltTri) (n : Nat) : List (Nat × Nat) :=
  laneForm m.u ((m.d.toNat, n) :: (m.a.run n ++ m.b.run n ++ m.c.run n))

/-- The B and C operands of `cvtp`, by format (R67). -/
def CvtpOp.extras (o : CvtpOp) : List (Nat × Nat) :=
  match o.fmt with
  | .f16 | .bf16 => []
  | .nq4 => o.b.run 1 ++ o.c.run 1
  | _ => o.b.run 1

/-- The runs of `cvtp` (R67). -/
def CvtpOp.runs (o : CvtpOp) : List (Nat × Nat) :=
  (if o.xp then [(o.d.toNat, o.fmt.packed), (o.a.r.toNat, 1)] else [(o.d.toNat, 1), (o.a.r.toNat, o.fmt.packed)]) ++ o.extras

/-- A scratch offset. -/
def ScrOff.run (o : ScrOff) : List (Nat × Nat) := optRun 1 o.a

/-- The runs of `atom` and `atomn` but D. -/
def AtomOpnd.runs (o : AtomOpnd) : List (Nat × Nat) :=
  o.a.run 4 ++ o.off.run ++ o.c.run (wide o.w) ++ (if o.op == .cas then o.e.run (wide o.w) else [])

/-- The lane registers that an instruction names in its fields, an accumulator block that a gang instruction writes apart (R97). -/
def Instr.fieldRuns : Instr → List (Nat × Nat)
  | .brx _ a _ | .ret _ a => a.run 2
  | .call _ d _ => [(d.toNat, 2)]
  | .callx _ d a => (d.toNat, 2) :: a.run 2
  | .mov u w c _ d b => let n := if c then 4 else wide w; laneForm u ((d.toNat, n) :: b.run n)
  | .movi u w _ d _ => laneForm u [(d.toNat, wide w)]
  | .movs u _ d a => laneForm u [(d.toNat, wide (a == 0x05))]
  | .movu u _ d a b | .movl u _ d a b => laneForm u ((d.toNat, 1) :: (a.run 1 ++ b.run 1))
  | .cvt o => laneForm o.u ((o.d.toNat, wide o.dst.wide) :: o.a.run (wide o.src.wide))
  | .cvtp o => o.runs
  | .cvtb _ _ d a form => (d.toNat, 1) :: (a.run 1 ++ match form with
      | .pk _ c => optRun 1 c
      | .xp => [])
  | .rint o => laneForm o.u ((o.d.toNat, wide o.fmt.wide) :: o.a.run (wide o.fmt.wide))
  | .iadd m _ | .isub m _ | .iaddc m _ _ _ _ | .imul m _ | .imulh m | .idiv m | .irem m | .imin m | .imax m
  | .and m | .or m | .xor m => m.runsW
  | .imad m _ | .bool3 m _ => m.runs (wide m.w) (wide m.w) (wide m.w) (wide m.w)
  | .imadw m _ => m.runs 2 1 1 2
  | .iabs m _ | .ineg m _ | .not m | .brev m => m.runs (wide m.w)
  | .popc m | .clz m | .ctz m => m.runs 1
  | .icmp m _ _ _ => laneForm m.u (m.a.run (wide m.w) ++ m.b.run (wide m.w))
  | .isel u w _ d a b _ => laneForm u ((d.toNat, wide w) :: (a.run (wide w) ++ b.run (wide w)))
  | .shl m | .shr m | .sra m => m.runs (wide m.w) (wide m.w) 1
  | .fsh m _ | .perm m => m.runs 1 1 1 1
  | .bfx m => m.runs (wide m.w) (wide m.w) 1 1
  | .bfi m => m.runs (wide m.w) (wide m.w) (wide m.w) 1
  | .fadd m | .fsub m | .fmul m | .fdiv m | .fscale m | .hadd2 m _ | .hmul2 m _ | .hmin2 m _ | .hmax2 m _ => m.runs 1
  | .fma m | .hfma2 m _ => m.runs 1
  | .fmin m w | .fmax m w => m.runs (wide w)
  | .fcmp o => laneForm o.u (o.a.run (wide o.w) ++ o.b.run (wide o.w))
  | .fclass u _ w _ _ a _ => laneForm u (a.run (wide w))
  | .frcp m | .fsqrt m | .frsq m | .fex2 m | .flg2 m | .fsin m | .fcos m | .ftanh m => m.runs
  | .dadd m | .dmul m => m.runs 2
  | .dfma m => m.runs 2
  | .ballot _ _ _ d _ => d.run 1
  | .shfl o => (o.d.toNat, wide o.w) :: (o.a.run (wide o.w) ++ match o.mode, o.b with
      | .rev, _ => []
      | _, .reg s => s.run 1
      | _, _ => [])
  | .red _ _ ty _ _ d a => d.run (wide ty.wide) ++ a.run (wide ty.wide)
  | .scan _ _ ty _ _ d a => (d.toNat, wide ty.wide) :: a.run (wide ty.wide)
  | .matchLanes _ w _ d a => (d.toNat, 1) :: a.run (wide w)
  | .draw o => o.d.run 2 ++ o.a.run 1 ++ optRun 1 o.ib ++ (match o.l with
      | some c => c.run 1
      | none => [])
  | .drawm o => (o.d.toNat, 2) :: (o.a.run 2 ++ o.b.run 2 ++ optRun 1 o.coin)
  | .drawt o => o.d.run 2 ++ o.a.run 1 ++ optRun 1 o.ib
  | .lds sz _ d off => (d.toNat, sz.regs) :: off.run
  | .sts sz _ off b => b.run sz.regs ++ off.run
  | .atms o =>
    (o.d.toNat, wide o.w) :: (o.off.run ++ o.b.run (wide o.w) ++ (if o.op == .cas then o.c.run (wide o.w) else []))
  | .smap o => o.a.run 4 ++ o.b.run 2 ++ o.c.run 1
  | .sunmap _ _ a | .sflush _ _ a => a.run 1
  | .cbnd _ d a b c => (d.toNat, 4) :: (a.run 4 ++ b.run 2 ++ c.run 2)
  | .cperm _ d a keep => (d.toNat, 4) :: (a.run 4 ++ match keep with
      | .imm _ => []
      | .reg s => s.run 1)
  | .cseal _ d a b | .cunseal _ d a b => (d.toNat, 4) :: (a.run 4 ++ b.run 4)
  | .cfield _ _ d a => (d.toNat, 1) :: a.run 4
  | .ctag _ _ _ a => a.run 4
  | .cclr _ d => [(d.toNat, 4)]
  | .revk _ _ d a => (d.toNat, 2) :: a.run 4
  | .swpq _ d => d.run 2
  | .ld m sz d => (d.toNat, sz.regs) :: m.runs
  | .st m sz c => c.run sz.regs ++ m.runs
  | .ldc m d => (d.toNat, 4) :: m.runs
  | .stc m c => c.run 4 ++ m.runs
  | .atom o => (o.d.toNat, wide o.w) :: o.runs
  | .atomn o => o.runs
  | .ldmx m _ d c | .stmx m _ d c => (d.toNat, 2) :: (m.runs ++ c.run 1)
  | .pref m _ => m.runs
  | .iinv m c _ | .clwb m c _ => m.runs ++ c.run 1
  | .ldm _ _ b => b.run 4
  | .mmf _ c _ => c.run 4
  | .accz _ nm1 d => [(d.toNat, 32 * (nm1.toNat + 1))]
  | .accw o => (o.d.toNat, 32) :: o.a.run 4
  | .cpy o => o.b.run 4
  | .cpyc o => o.a.run 4
  | .cpyh o => (o.d.toNat, 4) :: optRun 4 o.a
  | .snap o => (o.d.toNat, 4) :: o.a.run 4
  | .cring (.bind a _) => a.run 4
  | .rcard (.install a _) _ => a.run 4
  | .resq m d => (d.toNat, 1) :: m.runs
  | .rpin _ m d c => (d.toNat, 1) :: (m.runs ++ c.run 1)
  | .spawn o => o.a.run 4 ++ o.b.run 4
  | .joinc o => (o.d.toNat, 1) :: (o.a.run 4 ++ optRun 1 o.b)
  | .qpush o => optRun 4 o.c
  | .rdsr _ d => d.run 2
  | .wrsr _ (.lane s) => s.run 2
  | .delg _ _ a _ => a.run 4
  | .coll o => [(o.b.toNat, 4 * (o.nm1.toNat + 1))]
  | _ => []

/-- The block that a gang instruction writes. -/
def Instr.blockRun : Instr → List (Nat × Nat)
  | .mma o | .mmas o _ => [(o.d.toNat, 32)]
  | .mmb _ _ d _ _ => [(d.toNat, 32)]
  | _ => []

/-- Whether an instruction names a lane register at or above the allotment (R97). -/
def Instr.pastAllotment (i : Instr) (allot : Nat) : Bool := (i.fieldRuns ++ i.blockRun).any fun x => decide (allot < x.1 + x.2)

/-- The rows of the opcode table that a rope issues: instructions, and what fetch meets in place of one (R31, R38). -/
def Instr.atRope (i : Instr) : Bool :=
  match i with
  | .retiredOpcodeEmulation _ | .blockSkipWord => true
  | i => i.coded

/-- Whether an instruction orders the earlier accesses of its rope: it releases them (R157, R163, R231, R268, R294, R331, R332, R338, R393),
fences them (R234), or wants their stores held at their homes (R235, R236). -/
def Instr.ordersEarlier : Instr → Bool
  | .fence _ | .clwb _ _ _ | .iinv _ _ _ | .barrive _ _ | .barwait _ _ | .red _ _ _ (some _) _ _ _ | .drawt _ | .carrive _ _ | .spawn _
  | .joinc _ | .qpush _ | .ldm _ _ _ | .cpy _ | .cpyc _ | .cpyh _ | .snap _ | .coll _ | .rcard _ _ | .delg _ _ _ _ => true
  | .atom o | .atomn o => o.ord == .rel || o.ord == .ar
  | .atms o => o.ord == .rel || o.ord == .ar
  | _ => false

end Sys2Proof

namespace Sys2Proof.Machine

/-! ### Waits before execution (R65, R231, R254, R344) -/

/-- The registers that an indexed move computes in the active lanes (R111). -/
def Ctx.indexed (c : Ctx) (g : Guard) (base : BitVec 8) (b : BSrc) : List (Nat × Nat) :=
  (lanesOf (c.active g)).filterMap fun l =>
    let m := base.toNat + ({ c.env 0 with lane := some l }).bval .int false b
    if m < c.party.regs then some (m, 1) else none

/-- The lane registers that an instruction reads or writes. -/
def Ctx.touched (c : Ctx) (i : Instr) : List (Nat × Nat) :=
  match i with
  | .movl false g _ a b => i.fieldRuns ++ c.indexed g a.r b
  | .movu false g d _ b => i.fieldRuns ++ c.indexed g d b
  | _ => i.fieldRuns

/-- Whether a run of registers meets a block of a mask. -/
def inBlocks (m : BitVec 8) (x : Nat × Nat) : Bool :=
  (List.range 8).any fun b => m.getLsbD b && decide (x.1 < 32 * b + 32) && decide (32 * b < x.1 + x.2)

/-- In a handler, the place of the slot that trapped (R347): its instruction is over, the other slot's may be in flight (R350). -/
def Rope.trapped (r : Rope) : Option Nat :=
  if r.hm then some (r.stack.length - r.hdepth + (if r.tcause.getLsbD 8 then 1 else 0)) else none

/-- Whether the `drawt` of a slot has arrived and has still to read the slots of its phase (R192). -/
def Rope.drawing (r : Rope) (e : Entry) : Bool := r.drawtWait.any fun d => d.pc == e.pc

/-- Whether flags of an earlier instruction of the rope have still to enter `%fpst` (R65, R356): a gang instruction in flight; a
team-scope `red` or a `drawt` of the other slot that has not completed. -/
def Ctx.flagsDue (c : Ctx) : Bool :=
  c.s.inGang c.uid c.k || (c.rope.stack.mapIdx fun p e => (p, e)).any fun x => x.1 != c.pos && some x.1 != c.rope.trapped &&
    (match x.2.wait with
     | some (.phase _ _ (.red _ _ _ _ _ _ _) _) | some (.phase _ _ (.drawt _) _) => true
     | _ => c.rope.drawing x.2)

/-- The stores and `atomn` updates of a rope at peers that have still to perform (R375). -/
def State.postedBy (s : State) (uid k : Nat) : List PeerReq := s.peerOut.filter fun r => r.src == .posted uid k

/-- Whether an instruction waits for the rope's accesses at peers: one that orders them for all of them, every one for an `atomn` that
acquires (R231, R234). -/
def Ctx.accessesDue (c : Ctx) (i : Instr) : Bool :=
  let l := c.s.postedBy c.uid c.k
  (i.ordersEarlier && l != []) || l.any fun r => match r.op with
    | .atomic _ _ _ ord _ _ _ => ordAcq ord
    | _ => false

/-- Whether an instruction waits on an accumulator block, on accesses at peers or on flags before it executes (R231, R254, R356). -/
def Ctx.blocked (c : Ctx) (i : Instr) : Bool :=
  (c.rope.accInfl != 0 && (c.touched i).any (inBlocks c.rope.accInfl)) || c.accessesDue i ||
  match i with
  | .movs _ _ _ a => (a == 0x07 && c.s.inGang c.uid c.k) || (a == 0x0A && c.rope.accInfl != 0)
  | .rdsr srn _ => srn == 0 && c.flagsDue
  | .wrsr srn _ => srn == 0 && c.flagsDue
  | _ => false

/-! ### Readiness and choice (R72, R73) -/

/-- A live slot of a rope as the pipe sees it. -/
structure Pair where
  uid : Nat
  k : Nat
  pos : Nat
  age : Nat
  boost : Bool
deriving DecidableEq, Repr

/-- Whether an access of a rope at a peer is in flight, for which its slots wait (R344): nothing that the rope issues afterwards can then
be left standing by a cause that the access raises (log 105). -/
def Rope.atPeer (r : Rope) : Bool := r.stack.any fun e => match e.wait with
  | some (.peer _ _) => true
  | _ => false

/-- Whether a slot's instruction has been answered from outside, by peers or by the peer of a `delg`, and has still to complete. -/
def State.answered (s : State) (uid k : Nat) (r : Rope) (e : Entry) : Bool :=
  (r.peerData.any fun d => d.pc == e.pc && e.mask.getLsbD (d.key % 32))
    || s.delgWaits.any fun w => w.uid == uid && w.k == k && w.pc == e.pc && w.answer.isSome

/-- Whether a slot is eligible and awake, its rope not parked, and nothing outside the model's own state keeps its operands or unit
away (R72). In a handler the other slot's `drawt` completes although it is frozen (R350). -/
def Rope.ready (r : Rope) (unavailable : List (Nat × Bool)) (pos : Nat) : Bool :=
  !r.ended && r.park.isNone && !r.atPeer &&
    (match r.stack[pos]? with
     | none => false
     | some e => e.free && (r.eligible pos || (r.hm && some pos != r.trapped && r.drawing e)) && !(unavailable.elem (r.slot, pos != 0)))

/-- Whether a party's ropes issue on a core: it is placed, or its save waits for what they have in flight (R358). -/
def Party.issuesOn (core : Nat) (p : Party) : Bool :=
  p.core == core && (match p.status with
    | .placed | .saving _ => true
    | .saved _ | .ended => false)

/-- Whether a slot may issue as its party stands: while a save waits, only an instruction that has been answered (R358). -/
def State.mayIssue (s : State) (p : Party) (k : Nat) (r : Rope) (pos : Nat) : Bool :=
  p.status == .placed || (r.stack[pos]?).any (s.answered p.uid k r)

/-- The pairs of a pipe that `Rope.ready` admits. -/
def State.awakePairs (s : State) (core pipe : Nat) (unavailable : List (Nat × Bool)) : List Pair :=
  (s.parties.filter (Party.issuesOn core)).flatMap fun p =>
    (p.ropes.mapIdx fun k r =>
      if r.slot % 4 = pipe then
        ((List.range r.stack.length).filter fun pos => r.ready unavailable pos && s.mayIssue p k r pos).map fun pos =>
          (⟨p.uid, k, pos, r.age, (r.stack[pos]?).any fun e => e.boost⟩ : Pair)
      else []).flatten

/-- Whether the next instruction of a slot has still to wait for an accumulator block, for accesses at peers or for flags (R72, R254,
R356). The emulation of a retired one may use any register (log 11). -/
def State.stalled (s : State) (x : Pair) : Bool :=
  match s.ctxAt x.uid x.k x.pos with
  | none => false
  | some c =>
    match s.fetchInstr c.party c.rope c.entry.pc with
    | .ok (i, _) => !(i.pastAllotment c.party.regs) && c.blocked i
    | .retired _ => c.rope.accInfl != 0
    | _ => false

/-- The ready pairs of a pipe (R72). -/
def State.readyPairs (s : State) (core pipe : Nat) (unavailable : List (Nat × Bool)) : List Pair :=
  (s.awakePairs core pipe unavailable).filter fun x => !(s.stalled x)

/-- Whether a pair goes before another (R72): boosted first, then the older stamp, then slot A. -/
def Pair.before (a b : Pair) : Bool :=
  (a.boost && !b.boost) ||
    (a.boost == b.boost && (decide (a.age < b.age) || (a.age == b.age && decide (a.pos < b.pos))))

/-- The pair that the pipe chooses. -/
def choose (l : List Pair) : Option Pair :=
  l.foldl (fun (b : Option Pair) x => match b with
    | none => some x
    | some y => if x.before y then some x else b) none

/-- One cycle of a slot that does not issue (R73, R92): a ready slot's counter rises, and at 64 it is boosted; a slot that is not ready
and not boosted loses its counter; a rest runs on. -/
def Entry.idle (ready : Bool) (e : Entry) : Entry :=
  let e := if ready then { e with counter := e.counter + 1 }.boosted else if e.boost then e else { e with counter := 0 }
  { e with rest := e.rest.map fun n => n - 1 }

/-- Whether a pair is slot `pos` of a rope. -/
def Pair.slotOf (uid k pos : Nat) (x : Pair) : Bool := x.uid == uid && x.k == k && x.pos == pos

/-- One cycle of a rope whose slots are among the `ready`; `chosen` issues. Counter and boost stand in the entry: they stay with it when
slot B becomes slot A, and an entry below the top two has neither (log 104). -/
def Rope.tick (uid k : Nat) (ready : List Pair) (chosen : Option Pair) (r : Rope) : Rope :=
  { r with stack := r.stack.mapIdx fun pos e =>
      if 2 ≤ pos then { e.calm with rest := e.rest.map fun n => n - 1 }
      else if chosen.any (Pair.slotOf uid k pos) then { e.calm with rest := none } else e.idle (ready.any (Pair.slotOf uid k pos)) }

/-- The ropes of a pipe changed one by one. -/
def State.mapPipe (s : State) (core pipe : Nat) (f : Nat → Nat → Rope → Rope) : State :=
  { s with parties := s.parties.map fun p =>
      if p.issuesOn core then { p with ropes := p.ropes.mapIdx fun k r => if r.slot % 4 = pipe then f p.uid k r else r } else p }

/-- One cycle of a pipe's ropes. -/
def State.tickPipe (s : State) (core pipe : Nat) (ready : List Pair) (chosen : Option Pair) : State :=
  s.mapPipe core pipe fun uid k r => r.tick uid k ready chosen

/-! ### Issue -/

/-- What the machine does next: executes a row of the opcode table, or something that no row names. -/
inductive Doing where
  | run (i : Instr) (s : State)
  | done (s : State)

/-- The chosen pair issues: the instruction is fetched and decoded (R33, R200), the check that depends on the rope is made (R97), and the
instruction is to be executed. -/
def State.issuePair (s : State) (x : Pair) : Doing :=
  match s.ctxAt x.uid x.k x.pos with
  | none => .done s
  | some c =>
    let me (s : State) : State := { s with issuing := some ⟨x.uid, x.k, x.pos⟩ }
    match s.fetchInstr c.party c.rope c.entry.pc with
    | .cause e t => .done (c.trap e c.entry.mask t)
    | .park q => .done (c.parkOn [q] false true false)
    | .retired b => .run (.retiredOpcodeEmulation b) (me s)
    | .skip => .run .blockSkipWord (me s)
    | .ok (i, b) =>
      if i.pastAllotment c.party.regs then .done (c.illegal i) else .run i (me (c.put (c.rope.consume c.entry.pc.toNat b)))

/-- One cycle of an issue pipe: entries at their reconvergence points leave (R79), the pipe chooses among the ready pairs (R72), counters
and rests run on (R73, R92), and the chosen pair issues. -/
def State.cycle (s : State) (core pipe : Nat) (unavailable : List (Nat × Bool)) : Doing :=
  let s := s.mapPipe core pipe fun _ _ r => r.settlePoints
  let ready := s.readyPairs core pipe unavailable
  let chosen := choose ready
  let s := s.tickPipe core pipe ready chosen
  match chosen with
  | none => .done s
  | some x => s.issuePair x

/-! ### After an instruction -/

/-- The parked instructions of a restored party that have not yet passed their residency check (R285): `x` has just been issued. -/
def Party.stillHeld (p : Party) (x : Issuer) (pc : BitVec 48) (y : Nat × BitVec 48) : Bool :=
  match p.ropes[y.1]? with
  | none => false
  | some r =>
    !r.ended && (r.stack.any fun e => e.pc == y.2) && !(y.1 == x.rope && y.2 == pc && r.park.isNone)

/-- The holds of a restored party drop when every replayed instruction has passed its residency check (R285). -/
def Party.settleReplay (p : Party) (x : Issuer) (pc : BitVec 48) : Party :=
  if p.replay = [] then p
  else
    let l := p.replay.filter (p.stillHeld x pc)
    { p with replay := l, holds := if l = [] then [] else p.holds }

/-- After a row has been executed: nothing issues any more; a slot that waited for the flags of a `drawt` goes on, and the party's holds are seen to.
`before` is the state in which the row was executed. -/
def State.settle (before after : State) : State :=
  match before.issuing with
  | none => after
  | some x =>
    let after := { after with issuing := none }
    match before.ctx? with
    | none => after
    | some c =>
      let read := c.rope.drawtWait.any fun d => d.pc == c.entry.pc
      let s := if read then after.withRope x.uid x.rope Rope.unblock else after
      s.withParty x.uid fun p => p.settleReplay x c.entry.pc

end Sys2Proof.Machine
end

