-- ==== Sys2Proof/Machine/Turns.lean ====
section
/-!
DEFINITION. The steps of the machine that are no row of the opcode table (log 1): time, caches, the host's writes; what comes next; and
a party set up to run one instruction.
-/
namespace Sys2Proof.Machine

/-! ### Time (R105, R264, R276, R339) -/

/-- The watchdog timer of an ACTIVE queue runs while a command of it is in execution (R339). -/
def State.watch (s : State) (ns : Nat) (q : Nat) (r : QueueRec) : QueueRec :=
  if r.st == .active && s.working q then { r with timer := r.timer + ns } else r

/-- The package timer runs on, and the watchdog timers with it. -/
def State.elapse (s : State) (ns : Nat) : State :=
  { s with timer := s.timer + ns, queues := s.queues.map fun e => (e.1, s.watch ns e.1 e.2) }

/-- Cycles of a core's array go to its joined gang instructions in join order; one in its read phase holds up those behind it (R264). -/
def spendCycles (core : Nat) : Nat → List Gang → List Gang
  | _, [] => []
  | n, g :: t =>
    if g.core = core then
      if g.reading then g :: t else { g with left := g.left - n } :: spendCycles core (n - g.left) t
    else g :: spendCycles core n t

/-- The clock of a core runs on (R105). -/
def State.runClock (s : State) (core cycles : Nat) : State :=
  { s.withCore core fun c => { c with clock := c.clock + BitVec.ofNat 64 cycles } with gangs := spendCycles core cycles s.gangs }

/-! ### Caches (R138, R236, R310) -/

/-- A line leaves L2 by capacity, its race records lost; a line held in a stash stays (R310). -/
def State.evictLine (s : State) (line : Nat) : State :=
  if s.inStash line then s else s.dropLine line

/-- Whether a code word may be read: a backed word whose page, if far, is resident. -/
def State.readable (s : State) (a : Nat) : Bool := a % 4 == 0 && s.backedAt a && (!(s.farAt a) || s.pageOpen false (pageOf a))

/-- A die's instruction cache takes a code word (R236). -/
def State.cacheCode (s : State) (die a : Nat) : State :=
  if s.readable a then { s with icache := SMap.set none s.icache (icacheKey die a) (some (s.codeWord a)) } else s

/-- A die's instruction cache drops a code word. -/
def State.uncacheCode (s : State) (die a : Nat) : State := { s with icache := SMap.set none s.icache (icacheKey die a) none }

/-- The code word at an address as a die's cores see it: from its instruction cache, or from L2 (R236). -/
def State.codeSeen (s : State) (die a : Nat) : Word := (SMap.get none s.icache (icacheKey die a)).getD (s.codeWord a)

/-- A rope's fetch buffer takes the words of a fetch block that it does not hold (R30, R236). -/
def State.bufferCode (s : State) (uid k a : Nat) : State :=
  let at' := a / 32 * 32
  if s.readable at' then
    s.withParty uid fun p =>
      { p with ropes := p.ropes.modify k fun r =>
          (List.range 8).foldl (fun (r : Rope) j =>
            let x := at' + 4 * j
            match SMap.get none r.fbuf x with
            | some _ => r
            | none => { r with fbuf := SMap.set none r.fbuf x (some (s.codeSeen (dieOf p.core) x)) }) r }
  else s

/-- A dirty stash line goes back to L2 (R138). -/
def State.cleanStash (s : State) (uid line : Nat) : State :=
  s.withParty uid fun p => { p with dirty := NSet.set p.dirty line false }

/-! ### Writes from outside (R309, R399, R400) -/

/-- Whether a host can write at an address: in host memory, or in a pool region that has storage of its own (R401). -/
def State.outside (s : State) (a : Nat) : Bool := (isHost a || isPool a) && s.backedAt a && !((s.regionAt a).any fun r => r.versioned)

/-- A host, among the releases at a line (R298): a number that no agent of the package has. -/
def hostAgent : Nat := 2 ^ 33

/-- A single write of whole half-lines at the home clears their poison, in a frame that holds the page too (R219, R400). -/
def State.healHome (s : State) (a n : Nat) : State :=
  let s := s.healPoison a n
  { s with pages := s.pages.map fun e => (e.1, e.2.map fun (r : PageRec) =>
      { r with home := r.home.filter fun h => !((wholeHalves a n).elem h) }) }

/-- A host writes its memory or the pool: stash copies go first (R138, R399), race records are cleared (R309); a whole 64 bytes of the
pool in one write lose their poison (R400). A WAITEXT that reads the word acquires what the host has acquired (R336). -/
def State.hostStore (s : State) (a : Nat) (bs : List Byte) : State :=
  if bs ≠ [] ∧ s.outside a = true ∧ s.outside (a + bs.length - 1) = true then
    let s := s.foreignWrite false [⟨.signal, hostAgent, none, .sys, s.hostKnow⟩] a bs
    if isPool a then s.healHome a bs.length else s
  else s

/-- The host makes an acquire read at system scope: it observes what was released at that scope (R301, R336). -/
def State.hostAcquire (s : State) (a : Nat) : State :=
  { s with hostKnow := (syncRead s.sync a 8).foldl (fun (k : Know) p => if p.scope == .sys then k.join p.know else k) s.hostKnow }

/-- The host writes bytes of VECWIN, the MSI-X table and the pending bits (R312). The spec gives them no form and no effect (log 91). -/
def State.vecWrite (s : State) (off : Nat) (bs : List Byte) : State :=
  { s with vecwin := (bs.mapIdx fun i b => (off + i, b)).foldl (fun m x => if x.1 < 2 ^ 16 then SMap.set 0 m x.1 x.2 else m) s.vecwin }

/-! ### What comes next (log 1) -/

/-- The turn that comes next, and the state once it has been taken off. -/
def State.takeTurn (s : State) : Turn × State :=
  match s.agenda with
  | t :: rest => (t, { s with agenda := rest })
  | [] => (Config.environment s.tick, { s with tick := s.tick + 1 })

/-- What a turn does. -/
def State.doTurn (s : State) : Turn → Doing
  | .cycle core pipe unavailable => s.cycle core pipe unavailable
  | .event i => if i.atRope then .done s else .run i s
  | .elapse ns => .done (s.elapse ns)
  | .clock core cycles => .done (s.runClock core cycles)
  | .evictLine line => .done (s.evictLine line)
  | .cacheWord die a => .done (s.cacheCode die a)
  | .uncacheWord die a => .done (s.uncacheCode die a)
  | .bufferBlock uid rope a => .done (s.bufferCode uid rope a)
  | .hostAcquire a => .done (s.hostAcquire a)
  | .vecWrite off bs => .done (s.vecWrite off bs)
  | .hostWrite a bs => .done (s.hostStore a bs)
  | .stashWriteBack uid line => .done (s.cleanStash uid line)

/-- What the machine does next. -/
def State.doing (s : State) : Doing :=
  let x := { s with issuing := none }.takeTurn
  x.2.doTurn x.1

/-! ### One instruction set up to run -/

/-- Where the bytes of a placed instruction stand. -/
def benchAt : Nat := 0x1000

/-- The code capability of the party that runs a placed instruction (R200). -/
def benchCode : Quad := capMake benchAt 4096 pEXEC 1 0

/-- A party of one rope on core 0 that stands at the placed instruction, as a launch of colour 1 would leave it (R13, R76). -/
def benchParty (uid : Nat) : Party :=
  { uid := uid, launch := 0, record := 0, index := 0, queue := 0, colour := 1, core := 0, pslot := 0, regs := 256
    scratchSize := 65536, capacity := 258, status := .placed
    ropes := [Rope.blank (BitVec.ofNat 48 benchAt) 1 0 0 0 0 0 Know.none], teams := [], scratch := [], stag := [], spoison := []
    pages := [], backed := [], present := [], dirty := [], bars := [(0, some (BarRec.fresh true 0 1))], cairns := [], ssync := []
    code := benchCode, codeTag := true, frame := 0, cstackAt := 0x00BE00000000, backingAt := 0x00BE00100000
    saveAt := 0x00BE00200000, killed := false, holds := [], replay := [] }

/-- An instruction's bits stored at the bench, zero up to the length of the longest instruction, and a party on core 0 that stands there;
the next turn is a cycle of its pipe. -/
def State.bench (s : State) (nbits w : Nat) : State :=
  { s.setBytes benchAt (leBytes 16 (w % 2 ^ nbits)) with
    parties := (s.parties.filter fun p => p.core != 0) ++ [benchParty s.partyCtr]
    partyCtr := s.partyCtr + 1
    icache := s.icache.filter fun e => !(decide (benchAt ≤ e.1) && decide (e.1 < benchAt + 16))
    agenda := [.cycle 0 0 []] }

end Sys2Proof.Machine
end

