-- ==== Sys2Proof/Machine/Step.lean ====
section
/-!
DEFINITION. One step of the machine: what comes next is taken from the agenda, or from Config.environment (log 1), and executed.
-/
namespace Sys2Proof.Machine

/-- The outcome of a row that has been executed in a state. -/
def settled (s : State) : Out → Out
  | .next t => .next (s.close (s.settle t))
  | .fault f => .fault f
  | .refused r => .refused r

/-- One step. -/
def step (s : State) : Out :=
  match s.doing with
  | .done t => .next (s.close t)
  | .run i t => settled t (exec i t)

/-- The state with an instruction stored where the next step fetches it: in a party of one rope on core 0, whose pipe has the next
turn. -/
def State.withFetchWord (s : State) (nbits w : Nat) : State := s.bench nbits w

end Sys2Proof.Machine
end

