-- ==== Sys2Proof/Safety.lean ====
section
/-!
DEFINITION. The words that claims are stated in: what a card does to the rope that issues it and to nothing else, the cards of the
register families with the results that files 03 and 05 give them, and what stays as it was outside the issuing rope.
-/
namespace Sys2Proof.Machine

/-! ### What a card writes -/

/-- Word `j` of a quad (R98). -/
def wordOf (q : Quad) (j : Nat) : Word := q.extractLsb' (32 * j) 32

/-- The value that an effect leaves in register `n`, when it writes it: a quad is written after single registers. -/
def Fx.wrote (x : Fx) (n : Nat) : Option Word :=
  match x.quads.reverse.find? fun q => decide (q.1 ≤ n) && decide (n < q.1 + 4) with
  | some q => some (wordOf q.2.1 (n - q.1))
  | none => (x.regs.reverse.find? fun r => r.1 == n).map Prod.snd

/-- The tag that an effect leaves on quad `q`, when it changes it (R99). -/
def Fx.tagged (x : Fx) (q : Nat) : Option Bool :=
  match x.tags.reverse.find? fun t => t.1 / 4 == q with
  | some t => some t.2
  | none =>
    match x.quads.reverse.find? fun y => y.1 / 4 == q with
    | some y => some y.2.2
    | none => if x.regs.any fun r => r.1 / 4 == q then some false else none

/-- The value that an effect leaves in predicate or flag `n`, when it writes it. -/
def Fx.decided (x : Fx) (n : Nat) : Option Bool := (x.preds.reverse.find? fun p => p.1 == n).map Prod.snd

/-- Whether an effect writes block `b` of 32 registers. -/
def Fx.touches (x : Fx) (b : Nat) : Bool :=
  (x.regs.any fun r => r.1 / 32 == b) || (x.quads.any fun q => q.1 / 32 == b)

/-- Whether a last-use hint among these poisons register `n` (R15, R101). -/
def usedUp (used : List (RSrc × Nat)) (n : Nat) : Bool :=
  used.any fun s => decide (s.1.h = .last) && decide (s.1.r.toNat ≤ n) && decide (n < s.1.r.toNat + s.2)

/-! ### What an instruction does to its rope -/

/-- The effect of an instruction on the registers of its rope: the lanes that execute it, the hinted sources, what it writes in each
of these lanes, what it writes once for the rope, the flags it raises, the stack it leaves, and the rope with whatever else it
changes. -/
structure RopeEffect where
  active : Word
  used : List (RSrc × Nat)
  lane : Nat → Fx
  once : Fx
  fpst : BitVec 6
  stack : List Entry
  base : Rope

/-- The stack when the issuing slot goes on past an instruction of some bytes, waiting for nothing. -/
def Ctx.past (c : Ctx) (bytes : Nat) : List Entry :=
  c.rope.stack.modify c.pos fun e => { e with pc := e.pc + BitVec.ofNat 48 bytes, wait := none }

/-- A rope as another one but for registers, tags, predicates, flags, status bits, VALID and the stack. -/
def Rope.sameBut (r old : Rope) : Prop :=
  { r with regs := old.regs, qtag := old.qtag, unif := old.unif, preds := old.preds, flags := old.flags, fpst := old.fpst
           stack := old.stack, accValid := old.accValid } = old

/-- What an instruction with an effect leaves in the issuing rope: every lane register, tag, predicate, uniform, flag
and status bit (R24). -/
structure EffectRope (c : Ctx) (x : RopeEffect) (r : Rope) : Prop where
  /-- Nothing else of the rope changes, but what the effect's own rope says. -/
  same : r.sameBut x.base
  stack : r.stack = x.stack
  /-- An executing lane holds what was written, then what last use poisoned; everything else stays (R15, R24, R101). -/
  lanes : ∀ l n, l < 32 → n < 256 → r.x l n =
    if x.active.getLsbD l then ((x.lane l).wrote n).getD (if usedUp x.used n then regPoison else c.rope.x l n)
    else c.rope.x l n
  /-- A tag changes only where its quad is written (R99). -/
  tags : ∀ l q, l < 32 → q < 64 → r.tag l (4 * q) =
    if x.active.getLsbD l then ((x.lane l).tagged q).getD
      (if (List.range 4).any fun j => usedUp x.used (4 * q + j) then false else c.rope.tag l (4 * q))
    else c.rope.tag l (4 * q)
  /-- Predicates are written in executing lanes only (R104). -/
  preds : ∀ l n, l < 32 → n < 7 → r.p n l =
    if x.active.getLsbD l then ((x.lane l).decided n).getD (c.rope.p n l) else c.rope.p n l
  /-- Uniforms and flags are written once for the rope (R103, R104). -/
  unif : ∀ n, n < 64 → r.s n = (x.once.wrote n).getD (c.rope.s n)
  flags : ∀ n, n < 4 → r.k n = (x.once.decided n).getD (c.rope.k n)
  /-- Status bits accumulate (R65). -/
  fpst : r.fpst = c.rope.fpst ||| x.fpst
  /-- VALID of a block is set by any write to it, last use included, and cleared by none of these (R254). -/
  valid : ∀ b, b < 8 → r.accValid.getLsbD b = (c.rope.accValid.getLsbD b ||
    (List.range 32).any fun l => x.active.getLsbD l &&
      ((x.lane l).touches b || (List.range 32).any fun j => usedUp x.used (32 * b + j)))

/-- An instruction answers with an effect on its rope, and changes nothing outside the rope: no register of another rope, no byte,
tag or poison mark of memory or scratch, no table. -/
def Does (c : Ctx) (i : Instr) (x : RopeEffect) : Prop := ∃ r, exec i c.s = .next (c.put r) ∧ EffectRope c x r

/-! ### Cards -/

/-- What an executing card gives lane `l`, or the rope as a whole in the uniform class. -/
def Ctx.fx (c : Ctx) (k : Card) (lane : Option Nat) : Fx := k.fx { c.env (c.active k.g) with lane := lane }

/-- The flags that the lanes of a mask raise. -/
def flagsOver (m : Word) (f : Nat → BitVec 6) : BitVec 6 := (lanesOf m).foldl (fun v l => v ||| f l) 0

/-- The effect of a card (R24, R107): in each active lane, or once for the rope in the uniform class. -/
def cardEffect (c : Ctx) (bytes : Nat) (k : Card) : RopeEffect where
  active := if k.u then 0 else c.active k.g
  used := k.used
  lane := fun l => c.fx k (some l)
  once := if k.u then { c.fx k none with fpst := 0 } else {}
  fpst := if k.u then (c.fx k none).fpst else flagsOver (c.active k.g) fun l => (c.fx k (some l)).fpst
  stack := c.past bytes
  base := c.rope

/-- An instruction answers with a card's effect. -/
def Answers (c : Ctx) (i : Instr) (bytes : Nat) (k : Card) : Prop := Does c i (cardEffect c bytes k)

/-! ### Cards with one result -/

/-- A card that writes one result of 32 bits, or of 64 when `w`. -/
def resultCard (u : Bool) (g : Guard) (used : List (RSrc × Nat)) (w : Bool) (d : BitVec 8) (v : Env → Nat) : Card :=
  ⟨u, g, used, fun e => Fx.out w d (v e)⟩

/-- The width n of R112. -/
def cardBits (w : Bool) : Nat := if w then 64 else 32

/-- A source read as n bits, unsigned when S is set (R112). -/
def asInt (n : Nat) (uns : Bool) (v : Nat) : Int := if uns then ((v % 2 ^ n : Nat) : Int) else (BitVec.ofNat n v).toInt

/-- The lowest and the highest number of n bits (R112). -/
def lowest (n : Nat) (uns : Bool) : Int := if uns then 0 else -(2 ^ (n - 1) : Nat)
/-- The highest number of n bits (R112). -/
def highest (n : Nat) (uns : Bool) : Int := if uns then (2 ^ n - 1 : Nat) else (2 ^ (n - 1) - 1 : Nat)

/-- The last lines of R112: SAT holds the result to the range; it is written modulo 2^n. -/
def fitted (sat : Bool) (n : Nat) (uns : Bool) (v : Int) : Nat :=
  (BitVec.ofInt n (if sat then min (max v (lowest n uns)) (highest n uns) else v)).toNat

/-- A two-source card of the integer mould with an exact result (R112). -/
def exactCard (m : IntOp) (sat : Bool) (f : Int → Int → Int) : Card :=
  resultCard m.u m.g ((m.a, width m.w) :: m.b.used (width m.w)) m.w m.d fun e =>
    fitted sat (cardBits m.w) m.s
      (f (asInt (cardBits m.w) m.s (e.val m.w m.a.r)) (asInt (cardBits m.w) m.s (e.bval .int m.w m.b)))

/-- A one-source card of the integer mould with an exact result, signed (R112). -/
def exactUnCard (m : IntUn) (sat : Bool) (f : Int → Int) : Card :=
  resultCard m.u m.g [(m.a, width m.w)] m.w m.d fun e =>
    fitted sat (cardBits m.w) false (f (asInt (cardBits m.w) false (e.val m.w m.a.r)))

/-- The exact results of R112. -/
def exactRule : Instr → Option Card
  | .iadd m sat => some (exactCard m sat (· + ·))
  | .isub m sat => some (exactCard m sat (· - ·))
  | .imul m sat => some (exactCard m sat (· * ·))
  | .imulh m => some (exactCard m false fun a b => (a * b).fdiv (2 ^ cardBits m.w : Nat))
  | .imin m => some (exactCard m false fun a b => if a ≤ b then a else b)
  | .imax m => some (exactCard m false fun a b => if a ≤ b then b else a)
  | .iabs m sat => some (exactUnCard m sat fun a => if a < 0 then -a else a)
  | .ineg m sat => some (exactUnCard m sat fun a => -a)
  | _ => none

/-- The sum with carry of R113, n + 1 bits wide. -/
def carrySum (n : Nat) (sub : Bool) (a b : Nat) (c : Bool) : BitVec (n + 1) :=
  let bb : BitVec n := if sub then ~~~(BitVec.ofNat n b) else BitVec.ofNat n b
  (BitVec.ofNat n a).zeroExtend (n + 1) + bb.zeroExtend (n + 1) + (if c then 1 else 0)

/-- `iaddc` (R113). -/
def carryCard (m : IntOp) (cie : Bool) (ci co : BitVec 3) (sub : Bool) : Card :=
  ⟨m.u, m.g, (m.a, width m.w) :: m.b.used (width m.w), fun e =>
    let t := carrySum (cardBits m.w) sub (e.val m.w m.a.r) (e.bval .int m.w m.b) (if cie then e.pred ci.toNat else sub)
    { Fx.out m.w m.d (t.toNat % 2 ^ cardBits m.w) with preds := [(co.toNat, t.getLsbD (cardBits m.w))] }⟩

/-- `imad` and, with a 64-bit addend and result over 32-bit factors, `imadw` (R114). -/
def madCard (m : IntTri) (sat wide : Bool) : Card :=
  let w := m.w || wide
  resultCard m.u m.g ((m.a, width m.w) :: (m.b.used (width m.w) ++ m.c.used (width w))) w m.d fun e =>
    fitted sat (cardBits w) m.s (asInt (cardBits m.w) m.s (e.val m.w m.a.r) * asInt (cardBits m.w) m.s (e.cval m.w m.b)
      + asInt (cardBits w) m.s (e.cval w m.c))

/-- `idiv` and `irem`: the quotient truncated toward zero and the rest; with divisor 0 all ones and a, and DBZ (R115). -/
def divCard (m : IntOp) (rem : Bool) : Card :=
  let n := cardBits m.w
  ⟨m.u, m.g, (m.a, width m.w) :: m.b.used (width m.w), fun e =>
    let a := e.val m.w m.a.r
    let b := e.bval .int m.w m.b
    if b = 0 then { Fx.out m.w m.d (if rem then a else 2 ^ n - 1) with fpst := fDbz }
    else
      let q := Int.tdiv (asInt n m.s a) (asInt n m.s b)
      Fx.out m.w m.d (BitVec.ofInt n (if rem then asInt n m.s a - asInt n m.s b * q else q)).toNat⟩

/-- The cards of R113 to R115, with their bytes. -/
def wideRule : Instr → Option (Nat × Card)
  | .iaddc m cie ci co sub => some (8, carryCard m cie ci co sub)
  | .imad m sat => some (12, madCard m sat false)
  | .imadw m sat => some (12, madCard m sat true)
  | .idiv m => some (8, divCard m false)
  | .irem m => some (8, divCard m true)
  | _ => none

/-- A two-source card of the integer mould whose sources are bits; B is 32 bits wide for a shift count (R116, R118). -/
def bitsCard (m : IntOp) (bw : Bool) (f : (n : Nat) → BitVec n → Nat → BitVec n) : Card :=
  resultCard m.u m.g ((m.a, width m.w) :: m.b.used (width bw)) m.w m.d fun e =>
    (f (cardBits m.w) (BitVec.ofNat (cardBits m.w) (e.val m.w m.a.r)) (e.bval .int bw m.b)).toNat

/-- A one-source card of the integer mould whose source is bits; the result is 64 bits wide when `dw`. -/
def bitsUnCard (m : IntUn) (dw : Bool) (f : (n : Nat) → BitVec n → Nat) : Card :=
  resultCard m.u m.g [(m.a, width m.w)] dw m.d fun e =>
    f (cardBits m.w) (BitVec.ofNat (cardBits m.w) (e.val m.w m.a.r))

/-- Logic and shifts (R116, R118). -/
def logicRule : Instr → Option Card
  | .and m => some (bitsCard m m.w fun n a b => a &&& BitVec.ofNat n b)
  | .or m => some (bitsCard m m.w fun n a b => a ||| BitVec.ofNat n b)
  | .xor m => some (bitsCard m m.w fun n a b => a ^^^ BitVec.ofNat n b)
  | .not m => some (bitsUnCard m m.w fun _ a => (~~~a).toNat)
  | .shl m => some (bitsCard m false fun _ a b => a <<< (b % 256))
  | .shr m => some (bitsCard m false fun _ a b => a >>> (b % 256))
  | .sra m => some (bitsCard m false fun _ a b => a.sshiftRight (b % 256))
  | _ => none

/-- A three-source card of the integer mould, the widths of B and C. -/
def triCard (m : IntTri) (bw cw : Bool) (f : Nat → Nat → Nat → Nat) : Card :=
  resultCard m.u m.g ((m.a, width m.w) :: (m.b.used (width bw) ++ m.c.used (width cw))) m.w m.d fun e =>
    f (e.val m.w m.a.r) (e.cval bw m.b) (e.cval cw m.c)

/-- Bit counting, bit fields, bytes and bitwise functions of three sources (R117, R119 to R122), with their bytes. -/
def bitRule : Instr → Option (Nat × Card)
  | .bool3 m lut => some (12, triCard m m.w m.w (bool3Bits (cardBits m.w) lut))
  | .fsh m left => some (12, triCard m false false fun a b c =>
      let t : BitVec 64 := BitVec.ofNat 32 b ++ BitVec.ofNat 32 a
      if left then ((t <<< (c % 32)).extractLsb' 32 32).toNat else ((t >>> (c % 32)).extractLsb' 0 32).toNat)
  | .popc m => some (8, bitsUnCard m false fun n a => (List.range n).countP fun i => a.getLsbD i)
  | .clz m => some (8, bitsUnCard m false fun n a => ((List.range n).find? fun i => a.getMsbD i).getD n)
  | .ctz m => some (8, bitsUnCard m false fun n a => ((List.range n).find? fun i => a.getLsbD i).getD n)
  | .brev m => some (8, bitsUnCard m m.w fun _ a => a.reverse.toNat)
  | .bfx m => some (12, triCard m false false (bfxBits (cardBits m.w) m.s))
  | .bfi m => some (12, triCard m m.w false (bfiBits (cardBits m.w)))
  | .perm m => some (12, triCard m false false permBits)
  | _ => none

/-! ### Comparison, selection, moves -/

/-- A condition on two numbers (R123). -/
def condTrue (c : ICond) (a b : Int) : Bool :=
  match c with
  | .eq => a == b
  | .ne => a != b
  | .lt => decide (a < b)
  | .le => decide (a < b) || a == b
  | .gt => decide (b < a)
  | .ge => decide (b < a) || a == b

/-- CMB (R123). -/
def combine (c : Combine) (t p : Bool) : Bool :=
  match c with
  | .none => t
  | .and => if p then t else false
  | .or => if p then true else t

/-- Comparison, selection and predicate logic (R123 to R125, R129, R130), with their bytes. -/
def selectRule : Instr → Option (Nat × Card)
  | .icmp m cond cmb cp => some (8, ⟨m.u, m.g, (m.a, width m.w) :: m.b.used (width m.w), fun e =>
      let n := cardBits m.w
      { preds := [(m.d.toNat, combine cmb
          (condTrue cond (asInt n m.s (e.val m.w m.a.r)) (asInt n m.s (e.bval .int m.w m.b))) (e.pred cp.toNat))] }⟩)
  | .isel u w g d a b c => some (12, resultCard u g ((a, width w) :: b.used (width w)) w d fun e =>
      if e.pred c.toNat then e.val w a.r else e.cval w b)
  | .pset u g d a b fa lut => some (8, ⟨u, g, [], fun e =>
      let x := if fa then e.rope.k a.toNat else e.pred a.toNat
      let v := lut.getLsbD (x.toNat + 2 * (e.pred b.toNat).toNat)
      if u then Fx.word d v.toNat else { preds := [(d.toNat, v)] }⟩)
  | .fcmp o => some (8, ⟨o.u, o.g, (o.a, width o.w) :: o.b.used (width o.w), fun e =>
      let f := if o.w then fmtF64 else fmtF32
      let a := f.flush o.ftz (e.val o.w o.a.r)
      let b := f.flush o.ftz (e.bval (if o.w then .f64 else .f32) o.w o.b)
      let t := fCompare o.cond (f.read a.bits) (f.read b.bits)
      { preds := [(o.d.toNat, combine o.cmb t.1 (e.pred o.cp.toNat))], fpst := a.flags ||| b.flags ||| t.2 }⟩)
  | .fclass u ftz w g d a cls => some (8, ⟨u, g, [(a, width w)], fun e =>
      let f := if w then fmtF64 else fmtF32
      let t := cls.getLsbD (f.classOf (f.flush ftz (e.val w a.r)).bits)
      if u then Fx.word d t.toNat else { preds := [(d.toNat, t)] }⟩)
  | _ => none

/-- The moves (R108 to R111), with their bytes. -/
def moveRule (s : State) : Instr → Option (Nat × Card)
  | .mov u w false g d b => some (8, resultCard u g (b.used (width w)) w d fun e => e.bval .int w b)
  | .mov u _ true g d b => some (8, ⟨u, g, b.used 4, fun e =>
      match e.lane, b with
      | some l, .reg r => { quads := [(d.toNat, e.rope.quad l r.r.toNat,
          s.tagFor (e.rope.quad l r.r.toNat) (e.rope.tag l r.r.toNat))] }
      | _, _ => {}⟩)
  | .movi u w g d imm => some (16, resultCard u g [] w d fun _ => if w then (imm.signExtend 64).toNat else imm.toNat)
  | .movs u g d a => some (8, resultCard u g [] (decide (a.toNat = 5)) d fun e => e.special a.toNat)
  | .movl u g d a b => some (8, resultCard u g ((a, 1) :: b.used 1) false d fun e =>
      let m := a.r.toNat + e.bval .int false b
      (if m < (if u then 64 else e.allot) then
        match e.lane with
        | some l => e.rope.x l (m % 256)
        | none => e.rope.s (m % 256)
      else regPoison).toNat)
  | .movu u g d a b => some (8, ⟨u, g, (a, 1) :: b.used 1, fun e =>
      let m := d.toNat + e.bval .int false b
      if m < (if u then 64 else e.allot) then { regs := [(m, e.reg a.r)] } else {}⟩)
  | _ => none

/-! ### Floating point and conversions -/

/-- FP32 arithmetic, minimum and maximum (R126 to R128): bytes and card. -/
def floatRule : Instr → Option (Nat × Card)
  | .fadd m => some (8, fltCard m fmtF32 .f32 false (addBits fmtF32 m.rm))
  | .fsub m => some (8, fltCard m fmtF32 .f32 false (subBits fmtF32 m.rm))
  | .fmul m => some (8, fltCard m fmtF32 .f32 false (mulBits fmtF32 m.rm))
  | .fma m => some (12, fltTriCard m fmtF32 false)
  | .fscale m => some (8, fscaleCard m)
  | .fmin m w => some (8, minMaxCard m (if w then fmtF64 else fmtF32) (if w then .f64 else .f32) w false)
  | .fmax m w => some (8, minMaxCard m (if w then fmtF64 else fmtF32) (if w then .f64 else .f32) w true)
  | _ => none

/-- The functions of R131: bytes and card. -/
def functionRule : Instr → Option (Nat × Card)
  | .frcp m => some (8, fltUnCard m (fRcpRes fmtF32 m.rm))
  | .fdiv m => some (8, fltCard m fmtF32 .f32 false fun a b => fDivRes fmtF32 m.rm (fmtF32.read a) (fmtF32.read b))
  | .fsqrt m => some (8, fltUnCard m (fSqrtRes fmtF32 m.rm))
  | .frsq m => some (8, fltUnCard m (fRsqRes fmtF32 m.rm))
  | .fex2 m => some (8, fltUnCard m (fEx2Res m.rm))
  | .flg2 m => some (8, fltUnCard m (fLg2Res m.rm))
  | .fsin m => some (8, fltUnCard m (fSinRes m.rm))
  | .fcos m => some (8, fltUnCard m (fCosRes m.rm))
  | .ftanh m => some (8, fltUnCard m (fTanhRes m.rm))
  | _ => none

/-- Packed half precision and FP64 (R132, R133): bytes and card. -/
def halfRule : Instr → Option (Nat × Card)
  | .hadd2 m bf => some (8, halfCard m bf fun f => addBits f m.rm)
  | .hmul2 m bf => some (8, halfCard m bf fun f => mulBits f m.rm)
  | .hmin2 m bf => some (8, halfCard m bf fun f => fMinMax f false)
  | .hmax2 m bf => some (8, halfCard m bf fun f => fMinMax f true)
  | .hfma2 m bf => some (12, ⟨false, m.g, (m.a, 1) :: (m.b.used 1 ++ m.c.used 1), hfma2Fx m bf⟩)
  | .dadd m => some (8, fltCard m fmtF64 .f64 true (addBits fmtF64 m.rm))
  | .dmul m => some (8, fltCard m fmtF64 .f64 true (mulBits fmtF64 m.rm))
  | .dfma m => some (12, fltTriCard m fmtF64 true)
  | _ => none

/-- The conversions `cvt`, `cvtp` and `rint` (R66, R67, R69): bytes and card. -/
def convertRule : Instr → Option (Nat × Card)
  | .cvt o => some (8, ⟨o.u, o.g, [(o.a, width o.src.wide)], cvtFx o⟩)
  | .cvtp o => some (12, ⟨false, o.g, [(o.a, if o.xp then 1 else o.fmt.packed), (o.b, 1), (o.c, 1)], cvtpFx o⟩)
  | .rint o => some (8, ⟨o.u, o.g, [(o.a, width o.fmt.wide)], rintFx o⟩)
  | _ => none

/-! ### Rounding against its definition (R52, R60, R62) -/

/-- The floating formats of R52. -/
def formats : List FFmt := [fmtF64, fmtF32, fmtBF16, fmtF16, fmtE5M2, fmtE4M3, fmtE3M2, fmtE2M3, fmtE2M1]

/-- A finite pattern's value as a multiple of `2^e0`, for an exponent not above its own. -/
def FFmt.at (f : FFmt) (w : Nat) (e0 : Int) : Option Int :=
  match f.read w with
  | .fin n m e => some (signedAt n m e e0)
  | _ => none

/-- `r` stands for the exact value `x` in a mode (R60), among candidates: none lies nearer, a tie is even, or the greater away from
zero; or none lies between. -/
def standsFor (mode : Round) (x r : Int) (even : Bool) (candidate : Int → Prop) : Prop :=
  ∀ y, candidate y → match mode with
    | .rn => (x - r).natAbs ≤ (x - y).natAbs ∧ (y ≠ r → (x - r).natAbs = (x - y).natAbs → even = true)
    | .rz => r.natAbs ≤ x.natAbs ∧ (y.natAbs ≤ x.natAbs → y.natAbs ≤ r.natAbs)
    | .rp => x ≤ r ∧ (x ≤ y → r ≤ y)
    | .rm => r ≤ x ∧ (y ≤ x → y ≤ r)
    | .rna => (x - r).natAbs ≤ (x - y).natAbs ∧ ((x - r).natAbs = (x - y).natAbs → y.natAbs ≤ r.natAbs)

/-- What an overflow delivers (R62), as a code without its sign. -/
def overflowed (f : FFmt) (mode : Round) (sat neg : Bool) : Nat :=
  if sat || !f.hasInf || mode = .rz || (mode = .rp && neg) || (mode = .rm && !neg) then f.maxCode else f.infCode

/-- The result of rounding `(-1)^neg × m × 2^e` to a format: of its sign; up to the largest finite magnitude it stands for the value,
inexact when it differs; from one unit above it on it is R62's overflow; beyond the largest magnitude, with saturation or without
infinities, it is that magnitude. -/
def RoundsTo (f : FFmt) (mode : Round) (sat neg : Bool) (m : Nat) (e : Int) (r : FRes) : Prop :=
  let e0 := min e (1 - (f.bias : Int) - f.mbits)
  let x := signedAt neg m e e0
  let top := ((f.at f.maxCode e0).getD 0).natAbs
  let unit := top - ((f.at (f.maxCode - 1) e0).getD 0).natAbs
  bitOf r.bits (f.ebits + f.mbits) = neg
  ∧ (x.natAbs ≤ top → ∃ y, f.at r.bits e0 = some y
    ∧ standsFor mode x y (decide (r.bits % 2 = 0)) (fun z => ∃ w, w < 2 ^ f.width ∧ f.at w e0 = some z)
    ∧ (r.flags &&& fInx ≠ 0 ↔ y ≠ x) ∧ r.flags &&& fOfl = 0)
  ∧ (top + unit ≤ x.natAbs → r = ⟨f.signed neg (overflowed f mode sat neg), fOfl ||| fInx⟩)
  ∧ (top < x.natAbs → (sat = true ∨ f.hasInf = false) → r.bits = f.signed neg f.maxCode)

/-- The finite sum of two finite values is exact; an exact zero has the sign of R127. -/
def SumIsExact : Prop :=
  ∀ (mode : Round) (n1 : Bool) (m1 : Nat) (e1 : Int) (n2 : Bool) (m2 : Nat) (e2 : Int), ∃ n m e,
    xAdd mode (.fin n1 m1 e1) (.fin n2 m2 e2) = ⟨.fin n m e, 0⟩
    ∧ (∀ e0, e0 ≤ e → e0 ≤ e1 → e0 ≤ e2 → signedAt n m e e0 = signedAt n1 m1 e1 e0 + signedAt n2 m2 e2 e0)
    ∧ (m = 0 → n = if m1 = 0 ∧ m2 = 0 ∧ n1 = n2 then n1 else decide (mode = .rm))

/-- The finite product of two finite values is exact. -/
def ProductIsExact : Prop :=
  ∀ (n1 : Bool) (m1 : Nat) (e1 : Int) (n2 : Bool) (m2 : Nat) (e2 : Int), ∃ n m e,
    xMul (.fin n1 m1 e1) (.fin n2 m2 e2) = ⟨.fin n m e, 0⟩ ∧ n = (n1 ^^ n2)
    ∧ ∀ a b, a ≤ e1 → b ≤ e2 → a + b ≤ e ∧ signedAt n m e (a + b) = signedAt n1 m1 e1 a * signedAt n2 m2 e2 b

/-- A finite value becomes an integer of a type (R66): the integer that stands for it, inexact when it differs; outside the type's
range the nearer end, with invalid alone. -/
def IntegerOf (t : Elem) (mode : Round) (n : Bool) (m : Nat) (e : Int) (r : FRes) : Prop :=
  let e0 := min e 0
  let x := signedAt n m e e0
  let one : Int := (2 ^ (0 - e0).toNat : Nat)
  ∃ y, standsFor mode x (y * one) (decide (y % 2 = 0)) (fun z => ∃ k : Int, z = k * one)
    ∧ (lowest t.bits t.unsigned ≤ y → y ≤ highest t.bits t.unsigned → r = ⟨extendInt t y, if y * one = x then 0 else fInx⟩)
    ∧ (y < lowest t.bits t.unsigned → r = ⟨extendInt t (lowest t.bits t.unsigned), fInv⟩)
    ∧ (highest t.bits t.unsigned < y → r = ⟨extendInt t (highest t.bits t.unsigned), fInv⟩)

/-- The NQ4 code of a finite value under a usable scale (R67): its level times the scale lies nearest, a tie is even, inexact unless
it is the value. -/
def Nq4CodeOf (sup c : Nat) (n : Bool) (m : Nat) (e : Int) (r : FRes) : Prop :=
  ∀ ns ms es, fmtF32.read sup = .fin ns ms es → c * ms ≠ 0 →
    let e0 := min e (es - 30)
    let x := signedAt n (255 * m) e e0
    let level (k : Nat) : Int := match fmtF32.read (nq4Level k) with
      | .fin nl ml el => signedAt (nl ^^ ns) (ml * (c * ms)) (el + es) e0
      | _ => 0
    r.bits < 16 ∧ (∀ k, k < 16 → (x - level r.bits).natAbs ≤ (x - level k).natAbs
      ∧ (k ≠ r.bits → (x - level r.bits).natAbs = (x - level k).natAbs → r.bits % 2 = 0))
    ∧ r.flags = if level r.bits = x then 0 else fInx

/-! ### Cross-lane work and draws -/

/-- How many lanes of a mask pass a test. -/
def laneCount (m : Word) (f : Nat → Bool) : Nat := (List.range 32).countP fun l => m.getLsbD l && f l

/-- The lanes that pass a test, as a mask. -/
def laneSet (f : Nat → Bool) : Word := (List.range 32).foldl (fun w l => if f l then w ||| (1#32 <<< l) else w) 0

/-- The lowest lane that passes a test, or 0. -/
def firstLane (f : Nat → Bool) : Nat := ((List.range 32).find? f).getD 0

/-- The highest lane that passes a test, or 0. -/
def lastLane (f : Nat → Bool) : Nat := ((List.range 32).reverse.find? f).getD 0

/-- No effect but that the instruction has been executed. -/
def RopeEffect.idle (c : Ctx) (bytes : Nat) : RopeEffect := ⟨0, [], fun _ => {}, {}, 0, c.past bytes, c.rope⟩

/-- EMPTY where no lane is active (R151). -/
def emptyFlag (m : Word) : BitVec 6 := if m = 0 then fEmpty else 0

/-- A lane destination in every active lane, or a uniform destination once: the same result (R107). -/
def toDst (c : Ctx) (bytes : Nat) (active : Word) (used : List (RSrc × Nat)) (d : Dst) (x : BitVec 8 → Fx) (flag : List (Nat × Bool))
    (fpst : BitVec 6) : RopeEffect :=
  match d with
  | .lane d => ⟨active, used, fun _ => x d, { preds := flag }, fpst, c.past bytes, c.rope⟩
  | .unif d => ⟨active, used, fun _ => {}, { x d with preds := flag }, fpst, c.past bytes, c.rope⟩

/-- `vote` (R165). -/
def voteEffect (c : Ctx) (g : Guard) (test : VoteTest) (fd na : Bool) (k : BitVec 6) (d a : BitVec 8) : RopeEffect :=
  let t := laneCount (c.active g) fun l => if na then !(c.rope.p a.toNat l) else c.rope.p a.toNat l
  let n := laneCount (c.active g) fun _ => true
  let r := match test with
    | .ge => decide (k.toNat ≤ t)
    | .le => decide (t ≤ k.toNat)
    | .maj => decide (n < 2 * t)
    | .agree => decide (t = 0 ∨ t = n)
  if fd then ⟨0, [], fun _ => {}, { preds := [(d.toNat, r)] }, emptyFlag (c.active g), c.past 8, c.rope⟩
  else ⟨c.active g, [], fun _ => { preds := [(d.toNat, r)] }, {}, emptyFlag (c.active g), c.past 8, c.rope⟩

/-- `ballot` (R166). -/
def ballotEffect (c : Ctx) (g : Guard) (mode : BallotMode) (na : Bool) (d : Dst) (a : BitVec 8) : RopeEffect :=
  let yes (l : Nat) : Bool := (c.active g).getLsbD l && if na then !(c.rope.p a.toNat l) else c.rope.p a.toNat l
  let v (l : Nat) : Word := match mode with
    | .mask => laneSet yes
    | .count => BitVec.ofNat 32 (laneCount (c.active g) yes)
    | .rank => BitVec.ofNat 32 (laneCount (c.active g) fun j => yes j && decide (j < l))
  match d with
  | .lane d => ⟨c.active g, [], fun l => { regs := [(d.toNat, v l)] }, {}, emptyFlag (c.active g), c.past 8, c.rope⟩
  | .unif d => ⟨0, [], fun _ => {}, { regs := [(d.toNat, v 0)] }, emptyFlag (c.active g), c.past 8, c.rope⟩

/-- `shfl` (R167): a lane whose source lane is not active keeps its own value, and its validity predicate is false. -/
def shflEffect (c : Ctx) (o : ShflOp) : RopeEffect where
  active := c.active o.g
  used := (o.a, width o.w) :: shflUsed o.b
  lane := fun l =>
    let src := shflLane o.mode (segWidth o.seg) (match o.b with
      | .imm i => i.toNat
      | .unif r => (c.rope.s r.toNat).toNat
      | .reg s => (c.rope.x l s.r.toNat).toNat) l
    let ok := (c.active o.g).getLsbD src
    let from' := if ok then src else l
    { Fx.out o.w o.d (if o.w then (c.rope.x64 from' o.a.r.toNat).toNat else (c.rope.x from' o.a.r.toNat).toNat) with
      preds := o.cv.toList.map fun p => (p.toNat, ok) }
  once := {}
  fpst := 0
  stack := c.past 12
  base := c.rope

/-- What the positions of a tree hold: the source of an active lane, else nothing (R149, R168). -/
def treeInput (c : Ctx) (g : Guard) (w : Bool) (a : BitVec 8) : List (Option Nat) :=
  (List.range 32).map fun l =>
    if (c.active g).getLsbD l then some (if w then (c.rope.x64 l a.toNat).toNat else (c.rope.x l a.toNat).toNat) else none

/-- `red` within the rope (R168): one result for all, the identity with EMPTY over no lane. -/
def redEffect (c : Ctx) (g : Guard) (op : RedOp) (ty : RedTy) (k : Option (BitVec 2)) (d : Dst) (a : RSrc) : RopeEffect :=
  let t := redTree op ty (treeInput c g ty.wide a.r)
  toDst c 8 (c.active g) [(a, width ty.wide)] d (fun d => Fx.out ty.wide d (t.1.getD (redIdentity op ty)))
    (k.toList.map fun k => (k.toNat, t.1.isNone)) (t.2 ||| if t.1.isNone then fEmpty else 0)

/-- `scan` (R169): each active lane takes the tree over the positions before it, its own included unless EX. -/
def scanEffect (c : Ctx) (g : Guard) (op : RedOp) (ty : RedTy) (ex : Bool) (k : Option (BitVec 2)) (d : BitVec 8) (a : RSrc) :
    RopeEffect :=
  let v := treeInput c g ty.wide a.r
  let at' (l : Nat) : Option Nat × FFlags :=
    redTree op ty (v.mapIdx fun j x => if j < l ∨ (j = l ∧ ex = false) then x else none)
  ⟨c.active g, [(a, width ty.wide)], fun l => Fx.out ty.wide d ((at' l).1.getD (redIdentity op ty)),
    { preds := k.toList.map fun k => (k.toNat, decide (c.active g = 0)) },
    emptyFlag (c.active g) ||| flagsOver (c.active g) fun l => (at' l).2,
    c.past 8, c.rope⟩

/-- `match` (R170). -/
def matchEffect (c : Ctx) (g : Guard) (w : Bool) (mode : MatchMode) (d : BitVec 8) (a : RSrc) : RopeEffect :=
  let v (l : Nat) : Nat := if w then (c.rope.x64 l a.r.toNat).toNat else (c.rope.x l a.r.toNat).toNat
  let same (l j : Nat) : Bool := (c.active g).getLsbD j && v j == v l
  ⟨c.active g, [(a, width w)], fun l => { regs := [(d.toNat, match mode with
      | .grp => laneSet (same l)
      | .lead => BitVec.ofNat 32 (firstLane (same l))
      | .cnt => BitVec.ofNat 32 (laneCount (c.active g) (same l)))] }, {}, 0, c.past 8, c.rope⟩

/-- `elect` (R171): the elected lane, or all ones in the uniform when no lane is active. -/
def electEffect (c : Ctx) (g : Guard) (mode : ElectMode) (su : Option (BitVec 8)) (d : BitVec 8) : RopeEffect :=
  let m := c.active g
  let e := match mode with
    | .low => firstLane m.getLsbD
    | .high => lastLane m.getLsbD
    | .from a =>
      let from' := (c.rope.s a.toNat).toNat % 32
      ((List.range 32).find? fun l => m.getLsbD l && decide (from' ≤ l)).getD (firstLane m.getLsbD)
  ⟨m, [], fun l => { preds := [(d.toNat, decide (l = e))] },
    { regs := su.toList.map fun b => (b.toNat, if m = 0 then 0xFFFFFFFF#32 else BitVec.ofNat 32 e) }, 0, c.past 8,
    c.rope⟩

/-- The cross-lane cards inside one rope (R165 to R172). -/
def crossRule (c : Ctx) : Instr → Option RopeEffect
  | .vote g test fd na k d a => some (voteEffect c g test fd na k d a)
  | .ballot g mode na d a => some (ballotEffect c g mode na d a)
  | .shfl o => some (shflEffect c o)
  | .red g op ty none k d a => some (redEffect c g op ty k d a)
  | .scan g op ty ex k d a => some (scanEffect c g op ty ex k d a)
  | .matchLanes g w mode d a => some (matchEffect c g w mode d a)
  | .elect g mode su d => some (electEffect c g mode su d)
  | .tmask _ src d =>
    let t := match src with
      | .imm i => i.toNat
      | .unif r => (c.rope.s r.toNat).toNat % 256
    some { RopeEffect.idle c 8 with once := { regs := [(d.toNat, c.party.team t)] } }
  | _ => none

/-- `draw` (R188): the tree over the active lanes' pairs; the counter moves by 31. -/
def drawEffect (c : Ctx) (o : DrawOp) : RopeEffect :=
  let m := c.active o.g
  let t := o.l.map fun
    | CSrc.unif r => (c.rope.s r.toNat).toNat
    | CSrc.reg s => (c.rope.x (firstLane m.getLsbD) s.r.toNat).toNat
  let r := c.rope.ownDraw m o.a.r o.ib t
  let e := orEmpty (if o.l.isSome then .logit else .weight) r.1
  let used := (o.a, 1) :: ((o.ib.toList.map fun b => (b, 1)) ++ (match o.l with
    | some (.reg s) => [(s, 1)]
    | _ => []))
  { toDst c 12 m used o.d (fun d => Fx.pair d (e.1.idx + e.1.mass * 2 ^ 32))
      (o.k.toList.map fun k => (k.toNat, e.2 || massNaN e.1.mass)) (r.2 ||| if e.2 then fEmpty else 0) with
    base := { c.rope with dctr := c.rope.dctr + 31 } }

/-- `drawm` (R189): a merge in each active lane; the counter moves by 32 unless the coin is given. -/
def drawmEffect (c : Ctx) (o : DrawmOp) : RopeEffect where
  active := c.active o.g
  used := (o.a, 2) :: (o.b.used 2 ++ o.coin.toList.map fun x => (x, 1))
  lane := fun l =>
    let r := (c.rope.drawmLane o l).1
    Fx.pair o.d (r.idx + r.mass * 2 ^ 32)
  once := {}
  fpst := flagsOver (c.active o.g) fun l => (c.rope.drawmLane o l).2
  stack := c.past 12
  base := { c.rope with dctr := if o.coin.isSome then c.rope.dctr else c.rope.dctr + 32 }

/-- The draw cards inside one rope (R188, R189, R191). -/
def drawRule (c : Ctx) : Instr → Option RopeEffect
  | .draw o => some (drawEffect c o)
  | .drawm o => some (drawmEffect c o)
  | .drawk (.set a b) => some { RopeEffect.idle c 8 with
      base := { c.rope with dkey := c.rope.s64 a.toNat, dctr := c.rope.s64 b.toNat } }
  | .drawk (.ctr b) => some { RopeEffect.idle c 8 with base := { c.rope with dctr := c.rope.s64 b.toNat } }
  | .drawk (.get d) => some { RopeEffect.idle c 8 with once := { regs :=
      [(d.toNat, c.rope.dkey.extractLsb' 0 32), (d.toNat + 1, c.rope.dkey.extractLsb' 32 32),
        (d.toNat + 2, c.rope.dctr.extractLsb' 0 32), (d.toNat + 3, c.rope.dctr.extractLsb' 32 32)] } }
  | _ => none

/-- `cvtb` (R68): the block of 32 lanes packed, with C the elements as stored; or expanded. -/
def blockEffect (c : Ctx) (g : Guard) (rnd : Round) (d : BitVec 8) (a : RSrc) : CvtbForm → RopeEffect
  | .pk pm1 z =>
    let m := c.active g
    let p := pm1.toNat + 1
    let b := toFix rnd p ((List.range 32).map fun l => fmtF32.read (if m.getLsbD l then (c.rope.x l a.r.toNat).toNat else 0))
    let el (l : Nat) : FRes := fixToF32 .rn (b.q.getD l 0) (blockExp b.xcode p)
    ⟨m, (a, 1) :: z.toList.map fun s => (s, 1),
      fun l => { regs := (d.toNat, BitVec.ofNat 32 ((fixWords p b).getD l 0)) ::
        z.toList.map fun s => (s.r.toNat, BitVec.ofNat 32 (el l).bits) }, {},
      (if m = 0 then 0 else b.flags) ||| (if z.isSome then flagsOver m fun l => (el l).flags else 0),
      c.past 12, c.rope⟩
  | .xp =>
    let m := c.active g
    let h := (c.rope.x 0 a.r.toNat).toNat
    let p := fieldOf h 8 8
    let planes := (List.range p).map fun k => (c.rope.x (k + 1) a.r.toNat).toNat
    let el (l : Nat) : FRes := if fieldOf h 18 14 ≠ 0 ∨ p = 0 ∨ 16 < p then ⟨0x7FC00000, fInv⟩
      else fixToF32 rnd (planeElem planes l) (blockExp (fieldOf h 0 8) p)
    ⟨m, [(a, 1)], fun l => { regs := [(d.toNat, BitVec.ofNat 32 (el l).bits)] }, {}, flagsOver m fun l => (el l).flags,
      c.past 12, c.rope⟩

/-! ### Control -/

/-- Where the live lanes go: an active lane to its target, another to the next instruction; one pair per distinct target, active
lanes' targets first, by lowest lane (R81, R85 to R88). -/
def Ctx.sent (c : Ctx) (g : Guard) (to' : Nat → BitVec 48) (fall : BitVec 48) : List (BitVec 48 × Word) :=
  let target (l : Nat) : BitVec 48 := if (c.active g).getLsbD l then to' l else fall
  ((lanesOf (c.active g) ++ lanesOf (c.entry.mask &&& ~~~(c.active g))).map target).eraseDups.map fun t =>
    (t, laneSet fun l => c.entry.mask.getLsbD l && target l == t)

/-- A transfer of control: its groups, its reconvergence point, whether it opens a region, the pair that it reads, what it links. -/
structure Jump where
  g : Guard
  groups : List (BitVec 48 × Word)
  point : Option (BitVec 48)
  opens : Bool
  reads : Option RSrc
  link : Fx

/-- A point named by RCV: an offset from the instruction, or the entry's own (R85). -/
def Ctx.rejoin (c : Ctx) (rcv : BitVec 22) : Option (BitVec 48) :=
  if rcv = 0 then (if c.entry.noRpc then none else some c.entry.rpc) else some (c.entry.pc + rcv.signExtend 48)

/-- The transfers of R85 to R88. -/
def jumpRule (c : Ctx) : Instr → Option Jump
  | .bra g tgt rcv => some ⟨g, c.sent g (fun _ => c.entry.pc + tgt.signExtend 48) (c.entry.pc + 16), c.rejoin rcv, false, none, {}⟩
  | .brc g tgt rcv => some ⟨g, c.sent g (fun _ => c.entry.pc + tgt.signExtend 48) (c.entry.pc + 16), c.rejoin rcv, true, none, {}⟩
  | .brx g a rcv =>
    some ⟨g, c.sent g (fun l => (c.rope.x64 l a.r.toNat).setWidth 48) (c.entry.pc + 12), c.rejoin rcv, false, some a, {}⟩
  | .call g d tgt =>
    some ⟨g, c.sent g (fun _ => c.entry.pc + tgt.signExtend 48) (c.entry.pc + 16), some (c.entry.pc + 16), true, none,
      Fx.pair d (c.entry.pc + 16).toNat⟩
  | .callx g d a =>
    some ⟨g, c.sent g (fun l => (c.rope.x64 l a.r.toNat).setWidth 48) (c.entry.pc + 12), some (c.entry.pc + 12), true, some a,
      Fx.pair d (c.entry.pc + 12).toNat⟩
  | .ret g a =>
    some ⟨g, c.sent g (fun l => (c.rope.x64 l a.r.toNat).setWidth 48) (c.entry.pc + 8), c.rejoin 0, false, some a, {}⟩
  | _ => none

/-- The active lanes whose pair holds no code address (R34, R86). -/
def Ctx.strays (c : Ctx) (j : Jump) : Word :=
  match j.reads with
  | none => 0
  | some a => laneSet fun l => (c.active j.g).getLsbD l &&
      decide ((c.rope.x64 l a.r.toNat).toNat % 4 ≠ 0 ∨ 2 ^ 48 ≤ (c.rope.x64 l a.r.toNat).toNat)

/-- The effect of a transfer that leaves the stack of a rope (R81, R87). -/
def jumpEffect (c : Ctx) (j : Jump) (r : Rope) : RopeEffect :=
  ⟨c.active j.g, j.reads.toList.map fun a => (a, 2), fun _ => j.link, {}, 0, r.stack, { c.rope with lfsr := r.lfsr }⟩

/-- The entry of the issuing slot moved on past an instruction (R77). -/
def Ctx.moved (c : Ctx) (bytes : Nat) : Entry := { c.entry with pc := c.entry.pc + BitVec.ofNat 48 bytes, wait := none }

/-- The instructions of R84, and of R91 to R93 when no lane is active, which only advance the PC; `seed`. -/
def plainRule (c : Ctx) : Instr → Option RopeEffect
  | .nop _ => some (RopeEffect.idle c 8)
  | .seed a => some { RopeEffect.idle c 8 with
      base := { c.rope with lfsr := if c.rope.s a.toNat = 0 then 1 else c.rope.s a.toNat } }
  | .rest g n =>
    if c.active g = 0 then some (RopeEffect.idle c 8)
    else some { RopeEffect.idle c 8 with
      stack := (c.past 8).modify c.pos fun e => { e with rest := some (if n.toNat = 0 then 1 else n.toNat) } }
  | .yield g => if c.active g = 0 then some (RopeEffect.idle c 8) else none
  | .exit g => if c.active g = 0 then some (RopeEffect.idle c 8) else none
  | .brk g _ => if c.active g = 0 then some (RopeEffect.idle c 8) else none
  | _ => none

/-- The stack without the lanes of a mask; entries left empty are gone (R82, R83). -/
def withoutLanes (m : Word) (st : List Entry) : List Entry :=
  (st.map fun e => { e with mask := e.mask &&& ~~~m }).filter fun e => decide (e.mask ≠ 0)

/-- The place of the n-th join entry strictly below the issuing slot's, innermost first (R82). -/
def Ctx.joinAt (c : Ctx) (n : Nat) : Option Nat :=
  ((List.range c.rope.stack.length).filter fun j =>
    decide (c.pos < j) && ((c.rope.stack[j]?).any fun e => decide (e.kind = .join)))[n - 1]?

/-! ### Access to the span -/

/-- The first steps of R198 on a quad of lane `l`: tagged, not sealed, of the party's colour, not revoked. -/
def Ctx.usable (c : Ctx) (a : RSrc) (l : Nat) : Bool :=
  c.rope.tag l a.r.toNat && decide (capOtype (c.rope.quad l a.r.toNat) = 0)
    && decide (capColour (c.rope.quad l a.r.toNat) = c.party.colour) && !(c.s.revoked (c.rope.quad l a.r.toNat))

/-- R198 in lane `l` for `z` bytes at an exact offset: the permissions, no view byte, the bounds, the alignment (R222, R224). -/
def Ctx.laneMay (c : Ctx) (a : RSrc) (perms z align : Nat) (off : Int) (l : Nat) : Bool :=
  let q := c.rope.quad l a.r.toNat
  c.usable a l && capHas q perms && !(namesView ((capBase q : Int) + off) z) && decide (0 ≤ off)
    && decide (off + z ≤ (capLen q : Int)) && decide (((capBase q : Int) + off) % align = 0)

/-- The address of an access: BASE plus the offset (R224). -/
def Ctx.reach (c : Ctx) (a : RSrc) (off : Int) (l : Nat) : Nat := ((capBase (c.rope.quad l a.r.toNat) : Int) + off).toNat

/-- Nothing stands in the way of an access to this package's own memory behind the capability checks: its far pages may be accessed
(R284, R288), none was reported lost to this instruction (R286), no unordered write by another agent where the capability is checked
(R308), for a read no poison (R219), for a write a byte to hold it (R216). -/
def Ctx.clear (c : Ctx) (wr rd atomic : Bool) (a : Acc) : Bool :=
  !a.peer && (c.s.shutPages wr a.addr a.n).isEmpty && !(c.isLost a)
    && !(a.checked && c.s.races c.rope.agent c.rope.know atomic a.addr a.n)
    && (!rd || !(c.s.poisoned a.addr a.n)) && (!wr || (c.s.backedAt a.addr && c.s.backedAt (a.addr + a.n - 1)))

/-- No copy-on-write frame is wanting for some writes (R280). -/
def Ctx.frames (c : Ctx) (l : List Acc) : Bool := !(c.s.cowFull (l.flatMap fun a => c.s.cowPages a.addr a.n))

/-- The accesses of a card through the span mould, lane by lane (R223, R224). -/
def Ctx.accs (c : Ctx) (m : Word) (a : RSrc) (off : Nat → Int) (z : Nat) : List Acc :=
  (lanesOf m).map fun l => ⟨l, off l, c.reach a (off l) l, z, capHas (c.rope.quad l a.r.toNat) pCHECKED⟩

/-- What an access to memory may change outside the rope besides bytes and tags: what it records for ordering, races and residency
(R289, R301, R309), the summary of tagged pages (R207), and a snapshot's saved pages (R280). -/
def State.asideMem (t s : State) : Prop :=
  { t with parties := s.parties, mem := s.mem, tags := s.tags, tagPages := s.tagPages, race := s.race, sync := s.sync
           pages := s.pages, accesses := s.accesses, snap := s.snap } = s

/-- A line of a stash shows a byte of a line that stores reach: first byte and length of each (R138). -/
def Party.reached (p : Party) (l : List (Nat × Nat)) (line : Nat) : Bool :=
  match p.pageAt (line * 128) with
  | .stash _ _ a => p.present.elem line && l.any fun x =>
      decide (x.1 / 128 ≤ (a + line * 128 % 4096) / 128) && decide (a + line * 128 % 4096 < x.1 + x.2)
  | _ => false

/-- A party whose stash copies of the lines that stores reach have been written back and dropped (R138). -/
def Party.after (p : Party) (l : List (Nat × Nat)) : Party :=
  { p with present := p.present.filter fun n => !(p.reached l n), dirty := p.dirty.filter fun n => !(p.reached l n) }

/-- The next state of an instruction that accesses memory: an effect on its rope, whose record of releases seen and pages lost may
change; of every stash only the lines that its stores reach; the memory as `bytes` and `tags` say at every address, and no poison
changed; nothing else. -/
structure SpanEffect (c : Ctx) (x : RopeEffect) (lines : List (Nat × Nat)) (bytes : Nat → Byte) (tags : Nat → Bool) (t : State) :
    Prop where
  rope : ∃ r b, t.parties = (c.put r).parties.map (fun p => p.after lines) ∧ EffectRope c { x with base := b } r
    ∧ { b with seen := x.base.seen, lostPages := x.base.lostPages, know := x.base.know, rel := x.base.rel
               fenced := x.base.fenced } = x.base
  bytes : ∀ a, t.byte a = bytes a
  tags : ∀ a, t.tagAt a = tags a
  poison : t.poison = c.s.poison
  rest : t.asideMem c.s

/-- First byte and length of each store. -/
def extents (l : List (Nat × List Byte)) : List (Nat × Nat) := l.map fun x => (x.1, x.2.length)

/-- The bytes of memory after stores, the last to cover an address standing (R225): address and bytes of each. -/
def storedBytes (old : Nat → Byte) (l : List (Nat × List Byte)) (a : Nat) : Byte :=
  match l.reverse.find? fun x => decide (x.1 ≤ a) && decide (a < x.1 + x.2.length) with
  | some x => x.2.getD (a - x.1) 0
  | none => old a

/-- The tags after plain stores: cleared in every granule that one of them touches (R196). -/
def storedTags (old : Nat → Bool) (l : List (Nat × List Byte)) (a : Nat) : Bool :=
  old a && !(l.any fun x => decide (x.1 / 16 ≤ a / 16) && decide (a / 16 ≤ (x.1 + x.2.length - 1) / 16))

/-- Bytes of an element (R143, R226). -/
def sizeOf' : Sz → Nat
  | .n8 => 1 | .i8 => 1 | .n16 => 2 | .i16 => 2 | .b32 => 4 | .b64 => 8 | .b128 => 16 | .c => 16

/-- What a load leaves in its destination (R51, R143, R226): zero- or sign-extended, or the pair or quad. -/
def loaded (sz : Sz) (d : BitVec 8) (v : Nat) (tag : Bool) : Fx :=
  match sz with
  | .n8 | .n16 | .b32 => { regs := [(d.toNat, BitVec.ofNat 32 v)] }
  | .i8 => { regs := [(d.toNat, (BitVec.ofNat 8 v).signExtend 32)] }
  | .i16 => { regs := [(d.toNat, (BitVec.ofNat 16 v).signExtend 32)] }
  | .b64 => { regs := [(d.toNat, BitVec.ofNat 32 v), (d.toNat + 1, BitVec.ofNat 32 (v / 2 ^ 32))] }
  | .b128 => { quads := [(d.toNat, BitVec.ofNat 128 v, false)] }
  | .c => { quads := [(d.toNat, BitVec.ofNat 128 v, tag)] }

/-- Registers of an element's data. -/
def dataRegs : Sz → Nat
  | .b64 => 2
  | .b128 | .c => 4
  | _ => 1

/-- The offset of a span operand in lane `l` (R224). -/
def Ctx.offset (c : Ctx) (m : SpanOp) (l : Nat) : Int :=
  (match m.off with
   | .none => 0
   | .reg s => ((c.rope.x l s.r.toNat).toNat : Int)
   | .pair s => (c.rope.x64 l s.r.toNat).toInt) + m.imm.toInt

/-- Every lane of a mask passes the checks of R198 and R224 and nothing stands in the way of its access. -/
def Ctx.may (c : Ctx) (m : Word) (a : RSrc) (off : Nat → Int) (perms z : Nat) (wr rd atomic : Bool) : Bool :=
  !c.resumed && ((lanesOf m).all fun l => c.laneMay a perms z z (off l) l)
    && ((c.accs m a off z).all fun x => c.clear wr rd atomic x) && (!wr || c.frames (c.accs m a off z))

/-- The same for a card with a span operand. -/
def Ctx.mayAccess (c : Ctx) (m : SpanOp) (perms z : Nat) (wr rd : Bool) : Bool :=
  c.may (c.active m.g) m.a (c.offset m) perms z wr rd false

/-- The stores of a card with a span operand: address and bytes by lane. -/
def Ctx.stores (c : Ctx) (m : SpanOp) (sz : Sz) (x : RSrc) : List (Nat × List Byte) :=
  (lanesOf (c.active m.g)).map fun l => (c.reach m.a (c.offset m l) l, leBytes (sizeOf' sz) (c.rope.quad l x.r.toNat).toNat)

/-- Memory and old values while the lanes of an atomic update it in ascending order (R230). -/
structure AtomSeq where
  mem : Nat → Byte
  old : List (Nat × Nat)
  flags : FFlags

/-- The `n` bytes at an address, as a number (R216). -/
def bytesAt (m : Nat → Byte) (a : Nat) : Nat → Nat
  | 0 => 0
  | n + 1 => (m a).toNat + 256 * bytesAt m (a + 1) n

/-- Memory with the `n` bytes of a number at an address. -/
def putAt (m : Nat → Byte) (a n v : Nat) (x : Nat) : Byte :=
  if a ≤ x ∧ x < a + n then BitVec.ofNat 8 (v / 256 ^ (x - a)) else m x

/-- One lane's update. -/
def AtomSeq.lane (op : AtomOp) (z : Nat) (v new : Nat → Nat) (t : AtomSeq) (x : Nat × Nat) : AtomSeq :=
  let old := bytesAt t.mem x.2 z
  let y := atomValue op (8 * z) old (v x.1) (v x.1) (new x.1)
  ⟨putAt t.mem x.2 z y.bits, t.old ++ [(x.1, old)], t.flags ||| y.flags⟩

/-- An atomic over lanes and addresses (R144, R230). -/
def atomSeq (op : AtomOp) (z : Nat) (v new : Nat → Nat) (m : Nat → Byte) (l : List (Nat × Nat)) : AtomSeq :=
  l.foldl (AtomSeq.lane op z v new) ⟨m, [], 0⟩

/-- The offset of an atomic in lane `l` (R230). -/
def Ctx.atomOffset (c : Ctx) (o : AtomOpnd) (l : Nat) : Int :=
  (match o.off with
   | .none => 0
   | .reg s => ((c.rope.x l s.r.toNat).toNat : Int)
   | .pair s => (c.rope.x64 l s.r.toNat).toInt) + o.imm.toInt

/-- A source of 32 bits, or of 64 with W, in lane `l`. -/
def Ctx.source (c : Ctx) (w : Bool) (r : BitVec 8) (l : Nat) : Nat :=
  if w then (c.rope.x64 l r.toNat).toNat else (c.rope.x l r.toNat).toNat

/-- What the lanes of an atomic on the span do, in ascending order (R230). -/
def Ctx.atomRun (c : Ctx) (o : AtomOpnd) : AtomSeq :=
  atomSeq o.op (if o.w then 8 else 4) (c.source o.w o.c.r) (c.source o.w o.e.r) c.s.byte
    ((lanesOf (c.active o.g)).map fun l => (l, c.reach o.a (c.atomOffset o l) l))

/-- What the lanes of `atms` do in private scratch, in ascending order (R144). -/
def Ctx.atmsRun (c : Ctx) (o : AtmsOp) : AtomSeq :=
  (c.rope.laneOffs (c.active o.g) o.off).foldl (fun t x =>
    let z := if o.w then 8 else 4
    let old := bytesAt t.mem x.2 z
    let y := atomValue o.op (8 * z) old (c.source o.w o.b.r x.1) (c.source o.w o.c.r x.1) (c.source o.w o.b.r x.1)
    ⟨putAt t.mem x.2 z y.bits, t.old ++ [(x.1, old)], t.flags ||| y.flags⟩) ⟨c.party.sbyte, [], 0⟩

/-- The old value that a lane read. -/
def AtomSeq.got (t : AtomSeq) (l : Nat) : Nat := ((t.old.find? fun x => x.1 == l).map Prod.snd).getD 0

/-! ### Emulation (R38) -/

/-- The register operand that holds the quad of an emulation's access. -/
def EmuAcc.operand (a : EmuAcc) : RSrc := ⟨BitVec.ofNat 8 (4 * a.quad.toNat), .none⟩

/-- The accesses of an emulation in its active lanes, as the gate sees them. -/
def Ctx.emuAccs (c : Ctx) (e : Emulation) : List Acc :=
  (e.keyed c.entry.mask).map fun y =>
    ⟨y.1, y.2.off, c.reach y.2.operand y.2.off y.2.lane, y.2.bytes, capHas (c.rope.quad y.2.lane (4 * y.2.quad.toNat)) pCHECKED⟩

/-- Every access of an emulation passes the checks of R198, and nothing stands in its way. -/
def Ctx.emuMay (c : Ctx) (e : Emulation) : Bool :=
  !c.resumed && ((e.keyed c.entry.mask).all fun y =>
      c.laneMay y.2.operand (if e.write then pST else pLD) y.2.bytes (max 1 y.2.align) y.2.off y.2.lane)
    && ((c.emuAccs e).all fun a => c.clear e.write (!e.write) false a) && (!e.write || c.frames (c.emuAccs e))

/-- What an emulation stores: address and bytes, in order. -/
def Ctx.emuStores (c : Ctx) (e : Emulation) : List (Nat × List Byte) :=
  if e.write then (e.keyed c.entry.mask).map fun y => (c.reach y.2.operand y.2.off y.2.lane, y.2.stored) else []

/-- What an emulation leaves in its rope: lane state in its active lanes alone, below the party's allotment (R38). -/
def emuEffect (c : Ctx) (bytes : Nat) (e : Emulation) (y : EmuEffect) : RopeEffect where
  active := e.active &&& c.entry.mask
  used := y.used.filter fun x => decide (x.1.r.toNat + x.2 ≤ c.party.regs)
  lane := fun l =>
    { regs := (y.regs.filter fun x => decide (x.1 / 256 = l) && decide (x.1 % 256 < c.party.regs)).map fun x => (x.1 % 256, x.2)
      preds := (y.preds.filter fun x => decide (x.1 < 7)).map fun x => (x.1, x.2.getLsbD l) }
  once := { regs := y.unif.filter fun x => decide (x.1 < 64) }
  fpst := y.fpst
  stack := c.past bytes
  base := c.rope.consume c.entry.pc.toNat bytes

/-! ### Access to a peer's memory (R375, R376) -/

/-- Every lane of a mask passes the checks of R198 and R224, and its bytes lie in the windows of devices that a route names. -/
def Ctx.peerMay (c : Ctx) (m : Word) (a : RSrc) (off : Nat → Int) (perms z : Nat) : Bool :=
  decide (m ≠ 0) && (lanesOf m).all fun l =>
    c.laneMay a perms z z (off l) l && isPeer (c.reach a (off l) l) && c.s.routed (peerOf (c.reach a (off l) l))

/-- The requests of the lanes of a mask, in ascending order, for what each asks and whom the answer goes to. -/
def Ctx.requests (c : Ctx) (m : Word) (a : RSrc) (off : Nat → Int) (op : Nat → PeerOp) (src : Nat → PeerFrom) : List PeerReq :=
  (lanesOf m).mapIdx fun j l =>
    ⟨c.s.peerSeq + j, peerOf (c.reach a (off l) l), c.reach a (off l) l, op l, src l, c.party.colour, capBase (c.rope.quad l a.r.toNat),
      dieOf c.party.core, c.s.timer, c.s.portFor (peerOf (c.reach a (off l) l))⟩

/-- Requests have been sent, and but for the parties and what has been released to devices nothing else has changed. -/
def State.sent (t s : State) (l : List PeerReq) : Prop :=
  t.peerOut = s.peerOut ++ l ∧ t.peerSeq = s.peerSeq + l.length
    ∧ { t with parties := s.parties, peerOut := s.peerOut, peerSeq := s.peerSeq, peerKnow := s.peerKnow } = s

/-- The answer to the access of lane `l`. -/
def Ctx.heardBy (c : Ctx) (l : Nat) : Option PeerData := c.rope.peerData.find? fun d => d.pc == c.entry.pc && d.key == l

/-- Peers have answered every lane of a mask, with the checks standing; whether an answer is a poisoned or unreachable line. -/
def Ctx.heardAll (c : Ctx) (m : Word) (a : RSrc) (off : Nat → Int) : Bool :=
  c.checked && decide (m ≠ 0) && (lanesOf m).all fun l => isPeer (c.reach a (off l) l) && (c.heardBy l).isSome

/-- The lanes whose answer is a poisoned or unreachable line. -/
def Ctx.unheard (c : Ctx) (m : Word) : Word := laneSet fun l => m.getLsbD l && (c.heardBy l).any fun d => d.lost

/-- The bytes of a lane's answer, as a number. -/
def Ctx.answered (c : Ctx) (l : Nat) : Nat := leNat (((c.heardBy l).map PeerData.bytes).getD [])

/-- The issuing slot waits for answers. -/
def Ctx.awaits (c : Ctx) (i : Instr) (n : Nat) : Rope :=
  { c.clearLost.rope with stack := c.rope.stack.modify c.pos fun e => { e with wait := some (.peer i n) } }

/-- The next state of an instruction whose answers have come: an effect on its rope, the answers used up, what the rope records for
ordering aside; nothing outside the rope. -/
def Ctx.uses (c : Ctx) (x : RopeEffect) (t : State) : Prop :=
  ∃ r b, t = c.put r ∧ EffectRope c { x with base := b } r ∧ r.peerData = c.rope.peerData.filter (fun d => !(c.mine d))
    ∧ { b with seen := c.rope.seen, lostPages := c.rope.lostPages, know := c.rope.know, rel := c.rope.rel
               fenced := c.rope.fenced, peerData := c.rope.peerData } = c.rope

/-! ### Scratch -/

/-- The private bytes of a party after a card: as `bytes` and `tags` say, nothing else of the party changed but its rope and what is
recorded for ordering. -/
structure ScratchEffect (c : Ctx) (x : RopeEffect) (writes : Bool) (bytes : Nat → Byte) (tags : Nat → Bool) (t : State) :
    Prop where
  /-- A write lets every slot that waits on a cairn whose generation has moved test it again (R179). -/
  party : ∃ p r b, t = c.s.setParty p
    ∧ p.ropes = (if writes then (Party.wakeCairns { c.party with scratch := p.scratch }).ropes else c.party.ropes).set c.k r
    ∧ EffectRope c { x with base := b } r
    ∧ { b with seen := x.base.seen, lostPages := x.base.lostPages, know := x.base.know, rel := x.base.rel
               fenced := x.base.fenced } = x.base
    ∧ (∀ o, p.sbyte o = bytes o) ∧ (∀ o, NSet.has p.stag (o / 16) = tags o)
    ∧ { p with ropes := c.party.ropes, scratch := c.party.scratch, stag := c.party.stag, ssync := c.party.ssync } = c.party

/-- A private scratch access of `z` bytes may go on (R142): inside the allotment, aligned, in a private page, its line in SRAM, for a
read without poison. -/
def Ctx.privMay (c : Ctx) (o : ScrOff) (z : Nat) (rd : Bool) (l : Nat) : Bool :=
  let off := (match o.a with
    | none => 0
    | some s => ((c.rope.x l s.r.toNat).toNat : Int)) + o.imm.toInt
  decide (0 ≤ off) && decide (off + z ≤ (c.party.scratchSize : Int)) && decide (off % z = 0)
    && isPriv (c.party.pageAt off.toNat) && (c.party.missing off.toNat z).isEmpty
    && (!rd || !(c.party.spoisoned off.toNat z))

/-- The hinted offset of a scratch operand. -/
def scrHinted (o : ScrOff) : List (RSrc × Nat) := o.a.toList.map fun s => (s, 1)

/-- The stores of a scratch card: offset and bytes by lane. -/
def Ctx.scrStores (c : Ctx) (m : Word) (o : ScrOff) (sz : Sz) (x : RSrc) : List (Nat × List Byte) :=
  (c.rope.laneOffs m o).map fun y => (y.2, leBytes (sizeOf' sz) (c.rope.quad y.1 x.r.toNat).toNat)

/-- The tags of private scratch after `sts`: cleared where a plain write touches a granule, the quad's own where `.c` writes one, the
last lane standing (R143, R196). -/
def Ctx.scrTags (c : Ctx) (m : Word) (o : ScrOff) (sz : Sz) (x : RSrc) (off : Nat) : Bool :=
  (c.rope.laneOffs m o).foldl (fun t y =>
    if y.2 / 16 ≤ off / 16 ∧ off / 16 ≤ (y.2 + sizeOf' sz - 1) / 16 then
      sz == .c && c.s.tagFor (c.rope.quad y.1 x.r.toNat) (c.rope.tag y.1 x.r.toNat)
    else t) (NSet.has c.party.stag (off / 16))

/-! ### Capabilities -/

/-- A derivation card: bytes, guard, destination, hinted sources, the lanes' condition and what each gets. -/
structure Derive where
  bytes : Nat
  g : Guard
  d : BitVec 8
  used : List (RSrc × Nat)
  ok : Nat → Bool
  q : Nat → Quad

/-- A capability with other fields (R194). -/
def capWith (q : Quad) (base len perms otype : Nat) : Quad := capMake base len perms (capColour q) otype

/-- The derivation cards (R210 to R212). -/
def deriveRule (c : Ctx) : Instr → Option Derive
  | .cbnd g d a b x =>
    let q (l : Nat) := c.rope.quad l a.r.toNat
    let off (l : Nat) := (c.rope.x64 l b.r.toNat).toNat
    let len (l : Nat) := (c.rope.x64 l x.r.toNat).toNat
    some ⟨12, g, d, [(a, 4), (b, 2), (x, 2)],
      fun l => c.usable a l && decide (len l < 2 ^ 40) && decide (off l + len l ≤ capLen (q l)),
      fun l => capWith (q l) (capBase (q l) + off l) (len l) (capPerms (q l)) (capOtype (q l))⟩
  | .cperm g d a keep =>
    let q (l : Nat) := c.rope.quad l a.r.toNat
    some ⟨8, g, d, (a, 4) :: (match keep with
        | .imm _ => []
        | .reg s => [(s, 1)]), c.usable a,
      fun l => capWith (q l) (capBase (q l)) (capLen (q l)) (Nat.land (capPerms (q l)) (match keep with
        | .imm k => k.toNat
        | .reg s => (c.rope.x l s.r.toNat).toNat % 2 ^ 12)) (capOtype (q l))⟩
  | .cseal g d a b =>
    let q (l : Nat) := c.rope.quad l a.r.toNat
    let y (l : Nat) := c.rope.quad l b.r.toNat
    some ⟨8, g, d, [(a, 4), (b, 4)],
      fun l => c.usable a l && c.usable b l && capHas (y l) pSEAL && decide (16 ≤ capBase (y l))
        && decide (capBase (y l) ≤ 16383) && decide (capLen (y l) ≠ 0),
      fun l => capWith (q l) (capBase (q l)) (capLen (q l)) (capPerms (q l)) (capBase (y l))⟩
  | .cunseal g d a b =>
    let q (l : Nat) := c.rope.quad l a.r.toNat
    let y (l : Nat) := c.rope.quad l b.r.toNat
    some ⟨8, g, d, [(a, 4), (b, 4)],
      fun l => c.rope.tag l a.r.toNat && decide (16 ≤ capOtype (q l)) && decide (capColour (q l) = c.party.colour)
        && !(c.s.revoked (q l)) && c.usable b l && capHas (y l) pSEAL && decide (capBase (y l) ≤ capOtype (q l))
        && decide (capOtype (q l) < capBase (y l) + capLen (y l)),
      fun l => capWith (q l) (capBase (q l)) (capLen (q l)) (capPerms (q l)) 0⟩
  | _ => none

/-- The effect of a derivation: the quad in each active lane, tagged unless the running pass matches it (R207). -/
def deriveEffect (c : Ctx) (x : Derive) : RopeEffect :=
  ⟨c.active x.g, x.used, fun l => { quads := [(x.d.toNat, x.q l, !(c.s.sweeping (x.q l)))] }, {}, 0, c.past x.bytes, c.rope⟩

/-- The cards that read capabilities as data or clear tags (R213), and `swpq` (R215). -/
def capRule (c : Ctx) : Instr → Option RopeEffect
  | .cfield g f d a => some ⟨c.active g, [(a, 4)], fun l =>
      let q := c.rope.quad l a.r.toNat
      { regs := [(d.toNat, match f with
        | .base => (q.extractLsb' 0 32)
        | .baseh => (q.extractLsb' 32 16).setWidth 32
        | .len => (q.extractLsb' 48 32)
        | .lenh => (q.extractLsb' 80 8).setWidth 32
        | .perm => (q.extractLsb' 88 12).setWidth 32
        | .colour => (q.extractLsb' 100 14).setWidth 32
        | .otype => (q.extractLsb' 114 14).setWidth 32)] }, {}, 0, c.past 8, c.rope⟩
  | .ctag g use d a => some ⟨c.active g, [(a, 4)], fun l =>
      { preds := [(d.toNat, if use then c.usable a l else c.rope.tag l a.r.toNat)] }, {}, 0, c.past 8, c.rope⟩
  | .cclr g d => some ⟨c.active g, [], fun _ => { tags := [(d.toNat, false)] }, {}, 0, c.past 8, c.rope⟩
  | .swpq g d => some
      { toDst c 8 (c.active g) [] d (fun d => Fx.pair d c.s.passDone) [] 0 with base := c.rope.acquire c.s.passKnow }
  | _ => none

/-! ### Barriers and cairns -/

/-- `barinit` is misuse (R155): the barrier is live with arrivals, the count exceeds 32, or a count above 0 meets an empty scope or one
of fewer ropes. -/
def Ctx.initWrong (c : Ctx) (b n : Nat) (team : Option (BitVec 8)) : Bool :=
  let scope := match team with
    | none => BitVec.ofNat 32 (2 ^ c.party.ropes.length - 1)
    | some t => c.party.team t.toNat
  ((c.party.bar? b).any fun r => decide (r.arrived ≠ 0)) || decide (32 < n)
    || (decide (n ≠ 0) && (decide (scope = 0) || decide (laneCount scope (fun _ => true) < n)))

/-- An arrival is misuse (R155): the barrier is not live, the rope is outside its scope or has arrived, or the kind differs. -/
def Ctx.arriveWrong (c : Ctx) (b : Nat) (kind : BarKind) : Bool :=
  match c.party.bar? b with
  | none => true
  | some r => !((c.party.scopeOf r).getLsbD c.k) || r.mask.getLsbD c.k || (decide (r.kind ≠ .unset) && decide (r.kind ≠ kind))

/-- The next state differs from this one in the issuing rope's party only, whose scratch, pages, cairns and barriers but `b` stand. -/
def Ctx.barFrame (c : Ctx) (b : Nat) (p : Party) : Prop :=
  { p with ropes := c.party.ropes, bars := c.party.bars } = c.party ∧ ∀ j, j ≠ b → p.bar? j = c.party.bar? j

/-- No slot of the rope but the issuing one waits on a barrier phase. -/
def Ctx.alone (c : Ctx) : Bool :=
  (c.rope.stack.mapIdx fun j e => decide (j = c.pos) || match e.wait with
    | some (.phase _ _ _ _) => false
    | _ => true).all id

/-- The value of an immediate or of the low byte of a uniform (R172 to R180). -/
def Ctx.small (c : Ctx) : ISrc → Nat
  | .imm i => i.toNat
  | .unif r => (c.rope.s r.toNat).toNat % 256

/-- A cairn word can be used (R159): inside the allotment, in a private page, its line in SRAM. -/
def Ctx.cairnMay (c : Ctx) (i : Nat) : Bool :=
  decide (8 * i + 8 ≤ c.party.scratchSize) && isPriv (c.party.pageAt (8 * i)) && (c.party.missing (8 * i) 8).isEmpty

/-- The fields of cairn `i` (R160). -/
def Party.cairn (p : Party) (i : Nat) : Cairn := Cairn.ofWord (p.cairnWord i)

/-- A cairn card's next state: cairn `i` has these fields, every private byte outside its word stands, the rope has moved on. -/
def Ctx.cairnNext (c : Ctx) (i : Nat) (w : Cairn) (bytes : Nat) (t : State) : Prop :=
  ∃ p, t = c.s.setParty p ∧ p.cairn i = w ∧ (∀ o, (o < 8 * i ∨ 8 * i + 8 ≤ o) → p.sbyte o = c.party.sbyte o)
    ∧ (∃ r, p.ropes[c.k]? = some r ∧ r.stack[c.pos]? = some (c.moved bytes) ∧ r.regs = c.rope.regs ∧ r.unif = c.rope.unif
      ∧ r.preds = c.rope.preds ∧ r.flags = c.rope.flags)
    ∧ p.bars = c.party.bars ∧ p.pages = c.party.pages ∧ p.teams = c.party.teams

/-- The byte count of `carrive` (R178). -/
def Ctx.count (c : Ctx) : NSrc → Nat
  | .imm n => n.toNat
  | .unif r => (c.rope.s r.toNat).toNat % 2 ^ 24

/-! ### Scratch and span cards: forms and the order of their checks -/

/-- An effect in the active lanes of a mask, with the hinted sources, that advances the PC by some bytes. -/
def laneEffect (c : Ctx) (bytes : Nat) (m : Word) (used : List (RSrc × Nat)) (lane : Nat → Fx) : RopeEffect :=
  ⟨m, used, lane, {}, 0, c.past bytes, c.rope⟩

/-- The private bytes of a lane's scratch access as a number. -/
def Ctx.scrNum (c : Ctx) (o : ScrOff) (z l : Nat) : Nat := bytesAt c.party.sbyte (c.rope.scrOff o l).toNat z

/-- The tag that a scratch capability load finds in lane `l`. -/
def Ctx.scrHas (c : Ctx) (o : ScrOff) (l : Nat) : Bool := NSet.has c.party.stag ((c.rope.scrOff o l).toNat / 16)

/-- A scratch card: its guard, its operand, the bytes of an element (R142). -/
def scratchForm : Instr → Option (Guard × ScrOff × Nat)
  | .lds sz g _ o => some (g, o, sizeOf' sz)
  | .sts sz g o _ => some (g, o, sizeOf' sz)
  | .atms o => some (o.g, o.off, if o.w then 8 else 4)
  | _ => none

/-- A trap of some lanes whose TINFO is the offset of the lowest of them (R345). -/
def Ctx.trapsAt (c : Ctx) (cause : Cause) (m : Word) (off : Nat → Int) : State :=
  c.trap cause m ((off (firstLane m.getLsbD)) % 2 ^ 64).toNat

/-- A card through the span mould: guard, quad, offset by lane, bytes, alignment, permissions. -/
structure SpanForm where
  g : Guard
  a : RSrc
  off : Nat → Int
  z : Nat
  perms : Nat
  wr : Bool
  rd : Bool
  atomic : Bool

/-- The cards of R226 to R230. -/
def spanForm (c : Ctx) : Instr → Option SpanForm
  | .ld m sz _ => some ⟨m.g, m.a, c.offset m, sizeOf' sz, pLD, false, true, false⟩
  | .st m sz _ => some ⟨m.g, m.a, c.offset m, sizeOf' sz, pST, true, false, false⟩
  | .ldc m _ => some ⟨m.g, m.a, c.offset m, 16, pLD + pLDCAP, false, true, false⟩
  | .stc m _ => some ⟨m.g, m.a, c.offset m, 16, pST + pSTCAP, true, false, false⟩
  | .atom o => some ⟨o.g, o.a, c.atomOffset o, if o.w then 8 else 4, pATOM + pLD + pST, true, true, true⟩
  | .atomn o => some ⟨o.g, o.a, c.atomOffset o, if o.w then 8 else 4, pATOM + pLD + pST, true, true, true⟩
  | _ => none

/-- Steps 1 to 7 of R198 for a lane: whether each fails, with its cause (R222: a view byte fails step 5). -/
def Ctx.faults (c : Ctx) (x : SpanForm) (l : Nat) : List (Bool × Cause) :=
  let q := c.rope.quad l x.a.r.toNat
  [(!(c.rope.tag l x.a.r.toNat), .capTag), (decide (capOtype q ≠ 0), .capSealed), (decide (capColour q ≠ c.party.colour), .capColour),
   (c.s.revoked q, .revoked), (!(capHas q x.perms) || namesView ((capBase q : Int) + x.off l) x.z, .capPerm),
   (decide (x.off l < 0) || decide ((capLen q : Int) < x.off l + x.z), .capBounds),
   (decide (((capBase q : Int) + x.off l) % x.z ≠ 0), .misaligned)]

/-- The active lanes that fail a list of conditions at step `n` and at none before it. -/
def failsAt (m : Word) (f : Nat → List (Bool × Cause)) (n : Nat) : Word :=
  laneSet fun l => m.getLsbD l && ((f l)[n]?).any Prod.fst && !(((f l).take n).any Prod.fst)

/-- No lane of a mask fails before step `n`. -/
def noneBefore (m : Word) (f : Nat → List (Bool × Cause)) (n : Nat) : Prop :=
  ∀ l ∈ lanesOf m, ((f l).take n).any Prod.fst = false

/-- The accesses of a form. -/
def Ctx.accsOf (c : Ctx) (x : SpanForm) : List Acc := c.accs (c.active x.g) x.a x.off x.z

/-- The far pages that a form's accesses wait for. -/
def Ctx.shutOf (c : Ctx) (x : SpanForm) : List Nat := (c.accsOf x).flatMap fun a => c.s.shutPages x.wr a.addr a.n

/-- The tags after `stc`: each lane leaves its quad's own tag in its granule, untagged where the running pass matches it (R207, R229). -/
def Ctx.stcTags (c : Ctx) (m : SpanOp) (x : RSrc) (a : Nat) : Bool :=
  match (lanesOf (c.active m.g)).reverse.find? fun l => c.reach m.a (c.offset m l) l / 16 == a / 16 with
  | some l => c.s.tagFor (c.rope.quad l x.r.toNat) (c.rope.tag l x.r.toNat)
  | none => c.s.tagAt a

/-- A lane may take both accesses of an MX card: its elements, its scale byte (R232). -/
def Ctx.mxMay (c : Ctx) (m : SpanOp) (fmt : Elem) (sc : RSrc) (perm l : Nat) (wr rd : Bool) : Bool :=
  let q := c.rope.quad l m.a.r.toNat
  let soff : Int := ((c.rope.x l sc.r.toNat).toNat : Int)
  let accs : List Acc := [⟨l, c.offset m l, c.reach m.a (c.offset m l) l, 4 * fmt.bits, capHas q pCHECKED⟩,
    ⟨32 + l, soff, c.reach m.a soff l, 1, capHas q pCHECKED⟩]
  !c.resumed && c.laneMay m.a perm (4 * fmt.bits) 8 (c.offset m l) l && c.laneMay m.a perm 1 1 soff l
    && (accs.all fun a => c.clear wr rd false a) && (!wr || c.frames accs)

/-- Bits of a word of an MX block, and words of a block (R232). -/
def mxGeom (fmt : Elem) : Nat × Nat := if fmt.bits = 4 then (32, 4) else if fmt.bits = 6 then (24, 8) else (32, 8)

/-- The hinted sources of a span operand. -/
def hintedSpan (m : SpanOp) : List (RSrc × Nat) :=
  (m.a, 4) :: (match m.off with
   | .none => []
   | .reg s => [(s, 1)]
   | .pair s => [(s, 2)])

/-- The hinted sources of an atomic. -/
def hintedAtom (o : AtomOpnd) : List (RSrc × Nat) :=
  (o.a, 4) :: ((match o.off with
   | .none => []
   | .reg s => [(s, 1)]
   | .pair s => [(s, 2)]) ++ (o.c, width o.w) :: (if o.op = .cas then [(o.e, width o.w)] else []))

/-- A party without what its ropes have fetched ahead (R236). -/
def Party.unfetched (p : Party) : Party := { p with ropes := p.ropes.map fun r => { r with fbuf := [] } }

/-- The range that `iinv` or `clwb` names by its lowest active lane, and whether it passes its checks (R235, R236). -/
def Ctx.rangeMay (c : Ctx) (m : SpanOp) (x : RSrc) (p1 p2 : Nat) : Bool :=
  let l := firstLane (c.active m.g).getLsbD
  let q := c.rope.quad l m.a.r.toNat
  let n := (c.rope.x l x.r.toNat).toNat
  let off := c.offset m l
  c.usable m.a l && (capHas q p1 || capHas q p2) && !(namesView ((capBase q : Int) + off) n)
    && (decide (n = 0) || (decide (0 ≤ off) && decide (off + n ≤ (capLen q : Int))))

/-! ### Cards that act once for the rope -/

/-- A rope as another one but for what it has released, acquired, seen and met lost (R286, R302, R309). -/
def Rope.orderOnly (b old : Rope) : Prop :=
  { b with seen := old.seen, lostPages := old.lostPages, know := old.know, rel := old.rel, fenced := old.fenced } = old

/-- Memory of the package as it was: bytes, tags, poison, race records. -/
def State.sameMemory (t s : State) : Prop := t.mem = s.mem ∧ t.tags = s.tags ∧ t.poison = s.poison ∧ t.race = s.race

/-- A record of `n` bytes at an offset of a quad may be read: nothing stands in the way, no answer is awaited (R224). -/
def Ctx.readable (c : Ctx) (key : Nat) (q : Quad) (off n : Nat) : Bool :=
  !c.resumed && c.clear false true false ⟨key, off, capBase q + off, n, capHas q pCHECKED⟩

/-- The issuing rope holds an effect in a state, whatever it has recorded for ordering. -/
def Ctx.holds (c : Ctx) (x : RopeEffect) (t : State) : Prop :=
  ∃ r b, t.parties = (c.put r).parties ∧ EffectRope c { x with base := b } r ∧ b.orderOnly x.base

/-- A cairn as an operation names it, with the INC that its word holds now (R162). -/
def Ctx.cairnNow (c : Ctx) (i : Option Nat) : Option CairnRef := i.map fun i => ⟨c.uid, i, (c.party.cairn i).inc, c.party.core⟩

/-- The issuing instruction waits for a job card, its cairn captured (R266, R269). -/
def Ctx.awaitsCard (c : Ctx) (i : Option Nat) (t : State) : Prop :=
  ∃ z, t = c.put { c.rope with capt := z, stack := c.rope.stack.modify c.pos fun e => { e with wait := some .jobCard } }
    ∧ (c.rope.capt = none → z = (c.cairnNow i).map fun x => (c.entry.pc, x))
    ∧ ∀ y, c.rope.capt = some (c.entry.pc, y) → i = some y.idx → z = some (c.entry.pc, y)

/-- The issuing rope holds an effect in a state, whatever it has recorded for ordering, and stashes have given up the lines that stores
reach (R138). -/
def Ctx.holdsPast (c : Ctx) (lines : List (Nat × Nat)) (x : RopeEffect) (t : State) : Prop :=
  ∃ r b, t.parties = (c.put r).parties.map (fun p => p.after lines) ∧ EffectRope c { x with base := b } r ∧ b.orderOnly x.base

/-- An instruction has started an engine job (R265, R268): one job is appended, not running, with this work, these footprints,
capabilities and cairn (as captured when its checks first passed, R269), and the next id of its die, which JD takes; the rope has
released what it wrote; memory stands. -/
structure Starts (c : Ctx) (bytes : Nat) (used : List (RSrc × Nat)) (jd : Option (BitVec 8)) (x : Issue) (t : State) : Prop where
  job : ∃ j, t.jobs = c.s.jobs ++ [j]
    ∧ j.id = dieOf c.party.core * 2 ^ 30 + (c.s.die (dieOf c.party.core)).jobCtr ∧ j.die = dieOf c.party.core
    ∧ j.by' = .rope c.uid c.k ∧ j.colour = c.party.colour ∧ j.kind = x.kind ∧ j.reads = x.reads ∧ j.writes = x.writes
    ∧ j.caps = x.caps ∧ j.post = x.post ∧ j.low = x.low ∧ j.running = false ∧ j.moved = 0
    ∧ (c.rope.capt = none → j.cairn = c.cairnNow x.cairn)
    ∧ ∀ y, c.rope.capt = some (c.entry.pc, y) → x.cairn = some y.idx → (∀ p, x.kind ≠ .ldm p) → j.cairn = some y
  rope : ∃ z, (z = none ∨ z = c.rope.capt) ∧ c.holds { laneEffect c bytes c.entry.mask used (fun _ => {}) with
    once := { regs := jd.toList.map fun d =>
      (d.toNat, BitVec.ofNat 32 (dieOf c.party.core * 2 ^ 30 + (c.s.die (dieOf c.party.core)).jobCtr)) }
    base := { c.rope with capt := z } } t
  memory : t.sameMemory c.s

/-- A card that acts once for the rope leaves an effect and memory as it was. -/
def Ctx.quiet (c : Ctx) (x : RopeEffect) (t : State) : Prop := c.holds x t ∧ t.sameMemory c.s

/-- No condition of a list fails. -/
def passes (l : List (Bool × Cause)) : Prop := firstCause l = none

/-- Word 0x00 to 0x1F of a page's status, bit by bit (R296): RESIDENT, FETCHING, EVICTING, HELD, DIRTY, TIER, PINS. -/
def State.pageBits (s : State) (a : Nat) : BitVec 16 :=
  let q := pageOf a
  let near := !(isFar a)
  let is (f : PageRec → Bool) : BitVec 1 := BitVec.ofBool ((s.page? q).any f)
  let tier : BitVec 2 := if isPool a then 1 else if isHost a then 2 else if isPeer a then 3 else 0
  BitVec.ofNat 8 (min ((s.pins.filter fun p => p.page == q).length) 255) ++ tier ++ 0#1 ++ is (fun r => r.dirty != [])
    ++ BitVec.ofBool (s.held q) ++ is (fun r => r.st == .evicting) ++ is (fun r => r.st == .fetching)
    ++ BitVec.ofBool (near || (s.page? q).any fun r => r.st == .resident)

/-- A quad of a lane names a page as `resq` and `rpin` need it (R296). -/
def Ctx.pageMay (c : Ctx) (m : SpanOp) (l : Nat) : Bool :=
  let q := c.rope.quad l m.a.r.toNat
  c.usable m.a l && (capHas q pLD || capHas q pST || capHas q pVIEW) && decide (0 ≤ c.offset m l)
    && decide (c.offset m l + 1 ≤ (capLen q : Int))

/-- The accumulator block registers of lanes after a card fills `n` blocks from register `d` with a value. -/
def blockFilled (old : Rope) (d n : Nat) (v : Word) (r : Rope) : Prop :=
  ∀ l j, l < 32 → j < 256 → r.x l j = if d ≤ j ∧ j < d + 32 * n then v else old.x l j

/-- The elements of `accw`: the conversion of accumulator register `d + j` of lane `l` (R263). -/
def accElement (o : AccwOp) (r : Rope) (l j : Nat) : FRes := accwCvt o (r.x l (o.d.toNat + j))

/-- The rows that `accw` stores: lane `l`'s 32 elements at its stride (R263). -/
def Ctx.accRows (c : Ctx) (o : AccwOp) : List (Nat × List Byte) :=
  (List.range 32).map fun l =>
    (capBase (c.rope.quad 0 o.a.r.toNat) + ((c.rope.s64 o.b.toNat).toNat + l * (c.rope.s o.c.toNat).toNat),
     (List.range 32).flatMap fun j => leBytes (o.fmt.bits / 8) (accElement o c.rope l j).bits)

/-- The accesses of `accw` pass their checks and nothing stands in their way. -/
def Ctx.accMay (c : Ctx) (o : AccwOp) : Bool :=
  let q := c.rope.quad 0 o.a.r.toNat
  let z := 32 * (o.fmt.bits / 8)
  let off (l : Nat) : Nat := (c.rope.s64 o.b.toNat).toNat + l * (c.rope.s o.c.toNat).toNat
  let accs : List Acc := (List.range 32).map fun l => ⟨l, (off l : Int), capBase q + off l, z, capHas q pCHECKED⟩
  !c.resumed && c.usable o.a 0 && capHas q pST && c.frames accs && (List.range 32).all fun l =>
    !(namesView ((capBase q + off l : Nat) : Int) z) && decide (off l + z ≤ capLen q) && decide ((capBase q + off l) % (o.fmt.bits / 8) = 0)
      && c.clear true false false ⟨l, (off l : Int), capBase q + off l, z, capHas q pCHECKED⟩

/-- The address of the join word that `spawn` names, in lane `l` (R331). -/
def Ctx.joinWordAt (c : Ctx) (o : SpawnOp) (l : Nat) : Nat := capBase (c.rope.quad l o.b.r.toNat) + (c.rope.s64 (o.c.toNat + 2)).toNat

/-- The checks of `spawn` in lane `l` pass, its join word lies in this package's memory, nothing stands in the way (R331). -/
def Ctx.spawnMay (c : Ctx) (o : SpawnOp) (l : Nat) (atomic : Bool) : Bool :=
  let f := c.rope.quad l o.a.r.toNat
  let q := c.rope.quad l o.b.r.toNat
  let off : Int := ((c.rope.s64 (o.c.toNat + 2)).toNat : Int)
  let a : Acc := ⟨l, off, c.joinWordAt o l, 8, capHas q pCHECKED⟩
  !c.resumed && c.usable o.a l && capHas f (pLD + pLDCAP + pGLOBAL) && c.laneMay o.b (pATOM + pGLOBAL) 8 8 off l
    && c.clear atomic true atomic a && (!atomic || c.frames [a])

/-- No record of the rope's launch stands for a join word whose peer has not answered this instruction. -/
def Ctx.unmarked (c : Ctx) : Prop := ∀ x r, c.s.launch? c.party.launch = some x → r ∈ x.records → r.join ≠ some c.joinMark

/-- Where `joinc` finds its word, in lane `l` (R332). -/
def Ctx.joincAt (c : Ctx) (o : JoincOp) (l : Nat) : Int :=
  (match o.b with
   | none => 0
   | some b => ((c.rope.x l b.r.toNat).toNat : Int)) + 8 * o.imm.toNat

/-- The 64 bytes that `qpush` pushes, when it may read them: from private scratch, or from the span (R338). -/
def Ctx.pushBytes (c : Ctx) (o : QpushOp) : Option (List Byte) :=
  let l := firstLane (c.active o.g).getLsbD
  let off := (c.rope.s64 o.b.toNat).toNat
  match o.c with
  | none =>
    if off + 64 ≤ c.party.scratchSize ∧ off < 2 ^ 32 ∧ off % 64 = 0 ∧ isPriv (c.party.pageAt off) = true
        ∧ (c.party.missing off 64).isEmpty = true ∧ c.party.spoisoned off 64 = false then some (c.party.sbytes off 64) else none
  | some a =>
    let q := c.rope.quad l a.r.toNat
    if c.laneMay a pLD 64 64 (off : Int) l = true ∧ c.readable l q off 64 = true then some (c.s.bytes (capBase q + off) 64) else none

/-- A delegated capability's checks in lane `l` (R381). -/
def Ctx.delgMay (c : Ctx) (a : RSrc) (l : Nat) : Bool :=
  let q := c.rope.quad l a.r.toNat
  c.rope.tag l a.r.toNat && decide (capOtype q = 1) && decide (capColour q = c.party.colour) && !(c.s.revoked q)
    && capHas q (pCMD + pDELEG + pGLOBAL)

/-! ### Events -/

/-- Two states differ in the parties of one number only. -/
def State.onlyParty (t s : State) (uid : Nat) : Prop := { t with parties := s.parties } = s ∧ ∀ u, u ≠ uid → t.party? u = s.party? u

/-- A rope has become another one, and nothing else of the machine has changed. -/
def Ctx.becomes (c : Ctx) (t : State) (r : Rope) : Prop := t.onlyParty c.s c.uid ∧ t.party? c.uid = some (c.party.setRope c.k r)

/-- The rope when its slot waits no longer, and issues its instruction again. -/
def Ctx.goesOn (c : Ctx) : Rope := { c.rope with stack := c.rope.stack.modify c.pos fun e => { e with wait := none } }

/-- A cairn after an arrival of `n` bytes (R161). -/
def Cairn.after (w : Cairn) (n : Nat) : Cairn :=
  if w.target = 0 then ⟨0, w.count, (w.gen + 1) % 256, w.inc⟩
  else ⟨w.target, (w.count + n) % w.target, (w.gen + (w.count + n) / w.target) % 256, w.inc⟩

/-- A cairn that an operation named has counted `n` bytes, when it is still of the incarnation named (R161). -/
def State.arrivedAt (t s : State) (cairn : Option CairnRef) (n : Nat) : Prop :=
  ∀ c p, cairn = some c → s.party? c.uid = some p → (p.cairn c.idx).inc = c.inc →
    ∃ q, t.party? c.uid = some q ∧ q.cairn c.idx = (p.cairn c.idx).after n

/-- The byte that elements `t0` to `t1 - 1` of a copy leave at an address: of the last of them that covers it (R270, R271). -/
def State.movedTo (s : State) (j : Job) (p : CopyPlan) (t0 t1 a : Nat) : Option Byte :=
  (((List.range (t1 - t0)).map (t0 + ·)).reverse.find? fun t => decide (p.dst.at p t ≤ a) && decide (a < p.dst.at p t + p.w)).map
    fun t => (s.readElem ((s.jobParty j).getD Party.nobody) j p t).1.getD (a - p.dst.at p t) 0

/-- Bytes of HBM that are backed (R216). -/
def State.near (s : State) (a n : Nat) : Bool := decide (a + n ≤ 0x00C000000000) && (List.range n).all fun i => s.backedAt (a + i)

/-- A ring whose next slot is free and whose committed slots reach up to it; descriptor and slot lie in HBM, apart (R275). -/
def State.ringIdle (s : State) (r : RingAt) : Bool :=
  let a := r.slot (s.ringProd r.desc)
  s.ringFree r && s.near (r.slot (s.ringProd r.desc)) 32 && s.near r.desc 64
    && (decide (a + 32 ≤ r.desc) || decide (r.desc + 64 ≤ a)) && (s.ringDone.all fun e => e.desc != r.desc)
    && decide (s.ringCommit r.desc = s.ringProd r.desc) && decide (s.ringProd r.desc < 2 ^ 63)

/-- A record has been posted to a ring: it stands in the next slot, PROD and COMMIT have moved on, no other byte has changed
(R275, R276). -/
def State.postedTo (t s : State) (r : RingAt) (x : Record) : Prop :=
  let k := s.ringProd r.desc
  t.bytes (r.slot k) 32 = x.bytes32 s.timer ∧ t.ringProd r.desc = k + 1 ∧ t.ringCommit r.desc = k + 1 ∧ t.ringCons r.desc = s.ringCons r.desc
    ∧ ∀ a, (a < r.slot k ∨ r.slot k + 32 ≤ a) → (a < r.desc + 0x20 ∨ r.desc + 0x38 ≤ a) → t.byte a = s.byte a

/-- Entries of a party after those that wait as said wait no longer. -/
def Party.resumed (p : Party) (f : Wait → Bool) : List (List Entry) :=
  p.ropes.map fun r => r.stack.map fun e => if e.wait.any f then { e with wait := none } else e

/-- A tile may be read (R245): whole words inside the allotment, in private pages, in SRAM, free of poison. -/
def Party.tileMay (p : Party) (off n : Nat) : Bool :=
  decide (off + n ≤ p.scratchSize) && decide (off < 2 ^ 20) && decide (off % 4 = 0)
    && ((blocksOf 4096 off n).all fun q => isPriv (p.pageAt (q * 4096))) && (p.missing off n).isEmpty && !(p.spoisoned off n)

/-- A queue's command has been taken and has completed with one record; the other queues and commands stand (R316). -/
def State.completed (t s : State) (q : Nat) (b : List Byte) (status detail : Nat) : Prop :=
  (t.queue q).head = (s.queue q).head + 1 ∧ t.cmds = s.cmds ∧ (∀ y, y ≠ q → t.queue y = s.queue y)
    ∧ ∃ k, t.posts = s.posts ++ [⟨.queue q, ⟨status, 0, numAt b 4 4, 0, detail⟩, k, []⟩]

/-- A queue's command has been taken and is in execution with this work (R316). -/
def State.begun (t s : State) (q seq : Nat) (b : List Byte) (w : Work) : Prop :=
  (t.queue q).head = (s.queue q).head + 1 ∧ t.cmds = s.cmds ++ [⟨q, seq, numAt b 4 4, w⟩] ∧ ∀ y, y ≠ q → t.queue y = s.queue y

/-- FLAGS and ARG as an OP takes them, the bytes from an offset on zero, and the named image granted to the queue's colour (R317, R318). -/
def State.imageOk (s : State) (q : Nat) (b : List Byte) : Bool :=
  headOk b 0 && restZero b 0x18 && s.granted (s.queue q).colour (numAt b 8 8) (numAt b 0x10 8)

/-- The image's bytes. -/
def State.imageBytes (s : State) (b : List Byte) : List Byte := s.bytes (numAt b 8 8) (numAt b 0x10 8)

/-! ### Handlers (R347, R349) -/

/-- The issuing rope in its handler, after a trap with a code (R347); what its instruction has gathered is dropped (R286, R344). -/
def Ctx.entered (c : Ctx) (gang : Bool) (code : Nat) (m : Word) (v : Nat) : Rope :=
  { c.over with
    tpc := c.entry.pc, tcause := BitVec.ofNat 32 (code + (if c.pos = 0 then 0 else 256) + if gang then 512 else 0)
    tmask := m, tinfo := BitVec.ofNat 64 v, hm := true, hdepth := c.rope.stack.length
    stack := ⟨.side, true, 0, c.rope.trapvec, c.entry.mask, none, none, 0, false⟩ ::
      c.rope.stack.modify c.pos fun e => { e with wait := none } }

/-- The rope may enter its handler: it is in none, has one, and its stack has room (R347). -/
def Ctx.mayEnter (c : Ctx) : Bool :=
  !c.rope.hm && decide (c.rope.trapvec ≠ 0) && decide (c.rope.stack.length ≠ c.party.capacity)

/-- The issuing rope's party has been ended (R349): every rope has, with no entry left, jobs and other parties stand; without a ring no
byte changes, into an idle ring of the rope goes one PARTY_ENDED record with TPC, the two bits and the code. -/
def Ctx.ends (c : Ctx) (t : State) (nested byTret : Bool) (tpc : BitVec 48) (code : Nat) : Prop :=
  (∃ p, t.party? c.uid = some p ∧ p.status = .ended ∧ p.killed = true ∧ p.ropes.length = c.party.ropes.length
    ∧ ∀ r ∈ p.ropes, r.ended = true ∧ r.stack = [])
  ∧ (c.rope.ring = none → t.sameMemory c.s ∧ t.jobs = c.s.jobs ∧ ∀ u, u ≠ c.uid → t.party? u = c.s.party? u)
  ∧ ∀ b, c.rope.ring = some b → c.s.ringIdle (b.at c.uid) = true →
    t.postedTo c.s (b.at c.uid) ⟨7, 0, 0, 0, tpc.toNat * 2 ^ 16 + (if nested then 512 else 0) + (if byTret then 256 else 0) + code⟩
    ∧ t.jobs = c.s.jobs ∧ ∀ u, u ≠ c.uid → t.party? u = c.s.party? u

/-! ### Requests (R313, R314) -/

/-- CODE of a request (R314). -/
def requestCode : Instr → Option Nat
  | .queueSet => some 1 | .queueFree => some 2 | .bucketSet => some 3 | .colourNew => some 4 | .colourRetire => some 5
  | .grant => some 6 | .ungrant => some 7 | .admitSet => some 8 | .regionSet => some 9 | .routeSet => some 10 | .keysSet => some 11
  | .fwActivate => some 12 | .attest => some 13 | .counters => some 14 | .portStatus => some 15 | .spareThreshold => some 16
  | .handleFree => some 17 | .pinquotaSet => some 18
  | _ => none

/-- The head of the request that waits is sound (R313). -/
def State.headSound (s : State) : Bool :=
  let h := s.reqBytes 0 64
  numAt h 2 2 == 0 && decide (numAt h 4 4 ≤ 4032) && numAt h 8 8 == s.mailbox.answered + 1 && (h.drop 16).all (· == 0#8)

/-- A request of a CODE, its head sound, waits for the lead with this payload (R313, R314). -/
def State.requested (s : State) (code : Nat) (p : List Byte) : Prop :=
  s.mailCode = some code ∧ s.headSound = true ∧ numAt (s.reqBytes 0 64) 4 4 = p.length ∧ s.reqBytes 64 p.length = p

/-- A request leaves a state `s'`, but for the mailbox, which holds the answer: STATUS, RESULT and the payload stand in the response
buffer, the request is answered, and MBVEC is sent if it names a vector (R313). -/
def Replies (i : Instr) (s s' : State) (status result : Nat) (payload : List Byte) : Prop :=
  let all := leBytes 2 status ++ leBytes 2 0 ++ leBytes 4 payload.length ++ leBytes 8 (s.mailbox.answered + 1) ++ leBytes 8 result
    ++ leBytes 40 0 ++ payload
  ∃ t, exec i s = .next t ∧ { t with mailbox := s.mailbox, msix := s.msix } = s'
    ∧ (∀ n, n < all.length → SMap.get 0#8 t.mailbox.rsp n = all.getD n 0#8) ∧ t.mailbox.answered = s.mailbox.answered + 1
    ∧ t.mailbox.busy = false ∧ t.mailbox.req = s.mailbox.req ∧ t.mailbox.vec = s.mailbox.vec
    ∧ t.msix = if s.mailbox.vec = 0xFFFF then s.msix else s.mailbox.vec :: s.msix

/-- Whether some grant of a colour covers a byte (R314). -/
def coversByte (l : List GrantRec) (colour a : Nat) : Bool :=
  l.any fun (g : GrantRec) => g.colour == colour && decide (g.base ≤ a) && decide (a < g.base + g.len)

/-- A range is outside the HBM that firmware keeps: its own areas at the end, and the residency frames of each stack (R22, R282). -/
def State.tenantRange (s : State) (base len : Nat) : Prop :=
  ∀ a, base ≤ a → a < base + len → ¬(s.handleAt - 4096 * s.cowFrames ≤ a ∧ a < 0x00C000000000)
    ∧ ∀ k, k < 12 → ¬((k + 1) * 2 ^ 36 - s.resFrames * 2 ^ 21 ≤ a ∧ a < (k + 1) * 2 ^ 36)

/-- A range lies in a window that a kind of grant names (R216, R314). -/
def inKind (kind base len : Nat) : Prop :=
  (kind = 0 ∧ (base + len ≤ 0x00C000000000 ∨ (0x080000000000 ≤ base ∧ base + len ≤ 0x098000000000)))
    ∨ (kind = 1 ∧ 0x100000000000 ≤ base ∧ base + len ≤ 0x500000000000)
    ∨ (kind = 2 ∧ 0x500000000000 ≤ base ∧ base + len ≤ 0x800000000000)
    ∨ (kind = 3 ∧ 0x800000000000 ≤ base ∧ base + len ≤ 0x1000000000000)

/-! ### Ports, peers and collectives -/

/-- A port's lanes that have not failed, without one more (R371). -/
def PortRec.others (r : PortRec) (lane : Nat) : List Nat := r.goodLanes.filter fun i => i != lane

/-- Requests that have no port, or whose port is DOWN or FENCED, have the first port of their device's route that carries traffic
(R373). -/
def State.rerouted (s : State) : List PeerReq :=
  s.peerOut.map fun (r : PeerReq) =>
    if r.port.all fun p => decide ((s.port p).st = .down ∨ (s.port p).st = .fenced) then { r with port := s.portFor r.dev } else r

/-- A rope after the answer to a lane's access (R376): it has the answer, and its slot waits for one answer less. -/
def Rope.heard (r : Rope) (d : PeerData) (y : Rope) : Prop :=
  y = { r with
    peerData := r.peerData ++ [d]
    stack := r.stack.map fun e =>
      match e.wait with
      | some (.peer i n) =>
        if e.pc = d.pc ∧ e.mask.getLsbD (d.key % 32) = true then { e with wait := if 2 ≤ n then some (.peer i (n - 1)) else none } else e
      | _ => e }

/-- An operation of a replay has completed: it is done, the counters of its successors have fallen by one (R390). -/
def OpAt.ended (x : OpAt) (op : Nat) (l : List OpSt) : Prop :=
  l.length = x.r.ops.length ∧ ∀ i st, x.r.ops[i]? = some st →
    l[i]? = some (if i = op then .done else match st with
      | .waiting n => if i ∈ x.o.succ then .waiting (n - 1) else st
      | _ => st)

/-- A job's completion at its rope: one record in the rope's ring if it has a fault or posts, else none (R276, R384). -/
def State.jobRecord (t s : State) (j : Job) (fault bytes : Nat) : Prop :=
  ∀ uid k, j.by' = .rope uid k →
    ((s.ropeRing uid k = none ∨ (fault = 0 ∧ j.post = false)) → t.sameMemory s)
    ∧ ∀ r, s.ropeRing uid k = some r → s.ringShut r.1 = [] → s.ringIdle r.1 = true → (fault ≠ 0 ∨ j.post = true) →
      t.postedTo s r.1 (if fault = 0 then ⟨1, 0, j.id, bytes, 0⟩ else ⟨2, fault, j.id, bytes, 0⟩)

end Sys2Proof.Machine
end

