-- ==== Sys2Proof/Certificates/Slice0/Obligations.lean ====
section
/-!
DEFINITION. The statements about the machine that are to be proved, in the words of Sys2Proof/Safety.lean.
-/
section Statements

open Sys2Proof Sys2Proof.Machine

/-- Every well-formed iadd, isub, imul, imulh, imin, imax, iabs or ineg, in every state in which a rope issues, answers a next
state: in each active lane (once for the rope in the uniform class) the destination holds the exact result, clamped with SAT,
modulo 2^n; last use poisons its sources; every other register, tag, predicate, flag and status bit of the rope, and everything
outside the rope, is unchanged; the PC moves past the instruction. Every well-formed iaddc, imad, imadw, idiv or irem answers a
next state with the result of R113, R114 or R115, the carry or the flag DBZ, and nothing else of the machine changed.
(05_lane_registers.md R112, 01_reading_the_listings.md R24, 05_lane_registers.md R101, 05_lane_registers.md R113,
05_lane_registers.md R114, 05_lane_registers.md R115) -/
def Obligations.IntegerArithmetic : Prop :=
  (∀ (c : Ctx) (i : Instr) (k : Card), c.s.ctx? = some c → i.wf = true → exactRule i = some k → Answers c i 8 k)
    ∧ (∀ (c : Ctx) (i : Instr) (n : Nat) (k : Card), c.s.ctx? = some c → i.wf = true → wideRule i = some (n, k) → Answers c i n k)

/-- Every well-formed and, or, xor, not, shl, shr or sra answers a next state with the bitwise result, a shift count of the
width or more giving zeros or copies of the sign, and nothing else of the machine changed. Every well-formed bool3, fsh, popc,
clz, ctz, brev, bfx, bfi or perm answers a next state with the result of R117 and R119 to R122 and nothing else of the machine
changed. The shifts have 64 bits, majors 0x34 to 0x36, S and OPF zero, both classes, and B a single register.
(05_lane_registers.md R118) -/
def Obligations.LogicShiftsBitsFields : Prop :=
  (∀ (c : Ctx) (i : Instr) (k : Card), c.s.ctx? = some c → i.wf = true → logicRule i = some k → Answers c i 8 k)
    ∧ (∀ (c : Ctx) (i : Instr) (n : Nat) (k : Card), c.s.ctx? = some c → i.wf = true → bitRule i = some (n, k) → Answers c i n k)
    ∧ ∀ (m : IntOp), ∀ x ∈ [(0x34, Instr.shl m), (0x35, .shr m), (0x36, .sra m)],
      (Instr.wf x.2 = true → m.s = false ∧ (
        let n := encodeBits x.2
        n < 2 ^ 64 ∧ n % 4 = 1 ∧ n / 4 % 256 = x.1 ∧ n / 2 ^ 50 % 2 ^ 10 = 0 ∧ n.testBit 63 = m.u ∧ n.testBit 60 = m.w ∧ decode 0 n = .ok x.2 8))
      ∧ (∀ (u : Bool) (d a b : BitVec 8), d.toNat < 64 → a.toNat < 64 → b.toNat < 64 → m = ⟨u, false, false, ⟨false, 7⟩, d, ⟨a, .none⟩, .reg ⟨b, .none⟩⟩ →
        Instr.wf x.2 = true)
      ∧ ∀ (g : Guard) (d a b : BitVec 8), d.toNat % 2 = 0 → a.toNat % 2 = 0 → m = ⟨false, true, false, g, d, ⟨a, .none⟩, .reg ⟨b, .none⟩⟩ →
        Instr.wf x.2 = true

/-- Every well-formed icmp, fcmp, fclass, isel or pset answers a next state: the predicate, flag or register takes the result of
R123 to R125, R129 or R130, combined as CMB says, and nothing else of the machine changes. (05_lane_registers.md R123,
05_lane_registers.md R124, 05_lane_registers.md R125, 05_lane_registers.md R129, 05_lane_registers.md R130) -/
def Obligations.ComparisonsAndSelection : Prop :=
  ∀ (c : Ctx) (i : Instr) (n : Nat) (k : Card), c.s.ctx? = some c → i.wf = true → selectRule i = some (n, k) → Answers c i n k

/-- Every well-formed mov (the quad move included), movi, movs, movl or movu, for a party of an allotment of at most 256
registers, answers a next state with the moved value, and for an index past the limit the poison value or no write; nothing else
of the machine changes. (05_lane_registers.md R108, 05_lane_registers.md R109, 05_lane_registers.md R110, 05_lane_registers.md
R111) -/
def Obligations.Moves : Prop :=
  ∀ (c : Ctx) (i : Instr) (n : Nat) (k : Card), c.s.ctx? = some c → c.party.regs ≤ 256 → i.wf = true →
    moveRule c.s i = some (n, k) → Answers c i n k

/-- Every well-formed fadd, fsub, fmul, fma, fscale, fmin or fmax answers a next state with the result of R126 to R128 and its
sticky flags, and nothing else of the machine changed. The rounding that these cards use gives, in every format and mode, a
value for which the exact one stands nearest (ties to even or away) or the neighbour toward zero, up or down; beyond the largest
magnitude R62's overflow or, with saturation, that magnitude. The sums and products that it rounds are exact. Every well-formed
frcp, fdiv, fsqrt, frsq, fex2, flg2, fsin, fcos or ftanh answers a next state with the result of R131 and its sticky flags, and
nothing else of the machine changed. Every well-formed packed half-precision or FP64 card answers a next state with the result
of R132 or R133 and its sticky flags, and nothing else of the machine changed. Of the model's choices it uses logs 20, 114.
(05_lane_registers.md R126, 05_lane_registers.md R127, 05_lane_registers.md R128, 03_numbers.md R60, 03_numbers.md R62,
05_lane_registers.md R131, 05_lane_registers.md R132, 05_lane_registers.md R133) -/
def Obligations.FloatingPoint : Prop :=
  ((∀ (c : Ctx) (i : Instr) (n : Nat) (k : Card), c.s.ctx? = some c → i.wf = true → floatRule i = some (n, k) → Answers c i n k)
    ∧ (∀ f, f ∈ formats → ∀ mode sat neg m e, RoundsTo f mode sat neg m e (f.round mode sat neg m e false))
    ∧ SumIsExact ∧ ProductIsExact)
    ∧ (∀ (c : Ctx) (i : Instr) (n : Nat) (k : Card), c.s.ctx? = some c → i.wf = true → functionRule i = some (n, k) → Answers c i n k)
    ∧ (∀ (c : Ctx) (i : Instr) (n : Nat) (k : Card), c.s.ctx? = some c → i.wf = true → halfRule i = some (n, k) → Answers c i n k)

/-- Every well-formed cvt, cvtp, rint or cvtb answers a next state with the converted elements of R66 to R69 and their sticky
flags, and nothing else of the machine changed. A value delivered to any format is rounded as R60 and R62 say, saturating where
they say; to an integer type it becomes the integer that stands for it in the mode, clamped with invalid outside the type; an
NQ4 code is the one whose level times the scale lies nearest, ties to the even code. Of the model's choices it uses logs 111,
112, 113. (03_numbers.md R66, 03_numbers.md R67, 03_numbers.md R68, 03_numbers.md R69, 03_numbers.md R60, 03_numbers.md R62) -/
def Obligations.Conversions : Prop :=
  (∀ (c : Ctx) (i : Instr) (n : Nat) (k : Card), c.s.ctx? = some c → i.wf = true → convertRule i = some (n, k) → Answers c i n k)
  ∧ (∀ (c : Ctx) (g : Guard) (rnd : Round) (d : BitVec 8) (a : RSrc) (f : CvtbForm), c.s.ctx? = some c →
    Instr.wf (.cvtb g rnd d a f) = true → Does c (.cvtb g rnd d a f) (blockEffect c g rnd d a f))
  ∧ (∀ f, f ∈ formats → ∀ mode sat neg m e, RoundsTo f mode sat neg m e (f.deliver mode sat (.fin neg m e)))
  ∧ (∀ t mode n m e, IntegerOf t mode n m e (toInteger t mode (.fin n m e)))
  ∧ ∀ sup c n m e, c < 256 → Nq4CodeOf sup c n m e (nq4Encode sup c (.fin n m e))

/-- Every well-formed vote, ballot, shfl, red without a barrier, scan, match, elect or tmask answers a next state with the
result of R165 to R172 in its active lanes, or once in its uniform or flag destination even when no lane is active, EMPTY raised
as the card says, and nothing else of the machine changed. Of the model's choices it uses log 115. (07_teams_barriers_cairns.md
R165, 07_teams_barriers_cairns.md R166, 07_teams_barriers_cairns.md R167, 07_teams_barriers_cairns.md R168,
07_teams_barriers_cairns.md R169, 07_teams_barriers_cairns.md R170, 07_teams_barriers_cairns.md R171,
07_teams_barriers_cairns.md R172) -/
def Obligations.CrossLaneCards : Prop :=
  ∀ (c : Ctx) (i : Instr) (x : RopeEffect), c.s.ctx? = some c → i.wf = true → crossRule c i = some x → Does c i x

/-- Every well-formed draw, drawm or drawk answers a next state: the pair that the tree or the merge gives, the draw counter
moved by 31, by 32 or not at all, the key and counter read or written, and nothing else of the machine changed. Of the model's
choices it uses log 20. (08_draws.md R188, 08_draws.md R189, 08_draws.md R191) -/
def Obligations.DrawCards : Prop :=
  ∀ (c : Ctx) (i : Instr) (x : RopeEffect), c.s.ctx? = some c → i.wf = true → drawRule c i = some x → Does c i x

/-- A bra, brc, brx, call, callx or ret whose targets are code addresses and whose regions fit the control stack answers a next
state: the lanes stand where the transfer procedure sends them, the link pair is written in the active lanes of a call, last use
poisons the target pair, and nothing else of the machine changes. A brx, callx or ret with an active lane whose target is no
code address traps FETCH_PLACEMENT with exactly those lanes in TMASK and the lowest one's target in TINFO; any transfer for
which the control stack has no room traps CONTROL_STACK with every live lane in TMASK and the depth in TINFO. Of the model's
choices it uses logs 22, 23, 33. (04_ropes_and_control.md R85, 04_ropes_and_control.md R86, 04_ropes_and_control.md R87,
04_ropes_and_control.md R88, 04_ropes_and_control.md R81, 04_ropes_and_control.md R78, 17_traps_and_preemption.md R345) -/
def Obligations.ControlTransfers : Prop :=
  (∀ (c : Ctx) (i : Instr) (j : Jump) (r : Rope), c.s.ctx? = some c → i.wf = true → jumpRule c i = some j → c.strays j = 0 →
    c.rope.transfer c.pos c.party.capacity c.entry j.groups j.point j.opens = some r → Does c i (jumpEffect c j r))
    ∧ (∀ (c : Ctx) (i : Instr) (j : Jump), c.s.ctx? = some c → i.wf = true → jumpRule c i = some j →
    (∀ a, j.reads = some a → c.strays j ≠ 0 → exec i c.s = .next (c.trap .fetchPlacement (c.strays j)
      (c.rope.x64 (firstLane (c.strays j).getLsbD) a.r.toNat).toNat))
    ∧ (c.strays j = 0 → c.rope.transfer c.pos c.party.capacity c.entry j.groups j.point j.opens = none →
      exec i c.s = .next (c.trap .controlStack c.entry.mask c.rope.stack.length)))

/-- With one group and no region to open, the transfer changes the issuing entry's PC and nothing else. Otherwise, when the
depth less one plus the join and the sides is within capacity, the entry is replaced in its own place by the sides (groups not
sent to the reconvergence point) above a join entry, which is left out when the point is the entry's own; with two groups or
more the LFSR steps once, and bit 0 clear reverses the sides; otherwise there is no transfer. Of the model's choices it uses
logs 23, 33. (04_ropes_and_control.md R80, 04_ropes_and_control.md R81) -/
def Obligations.TransferProcedure : Prop :=
  ∀ (r : Rope) (pos cap : Nat) (e : Entry) (groups : List (BitVec 48 × Word)) (point : Option (BitVec 48)) (opens : Bool),
    (∀ g, groups = [g] → opens = false → r.transfer pos cap e groups point opens
      = some { r with stack := r.stack.modify pos fun e => { e with pc := g.1, wait := none } })
    ∧ (¬(groups.length = 1 ∧ opens = false) →
      let own := if e.noRpc then none else some e.rpc
      let joins := if point = own then 0 else 1
      let sides := groups.filter fun g => decide (some g.1 ≠ point)
      (cap < r.stack.length - 1 + joins + sides.length → r.transfer pos cap e groups point opens = none)
      ∧ (r.stack.length - 1 + joins + sides.length ≤ cap → ∃ q, r.transfer pos cap e groups point opens = some q
        ∧ q.lfsr = (if 2 ≤ groups.length then
            (r.lfsr <<< 1) ||| (BitVec.ofBool (r.lfsr.getLsbD 31 ^^ r.lfsr.getLsbD 21 ^^ r.lfsr.getLsbD 1
              ^^ r.lfsr.getLsbD 0)).setWidth 32
            else r.lfsr)
        ∧ { q with lfsr := r.lfsr, stack := r.stack } = r
        ∧ ∃ new, q.stack = r.stack.take pos ++ new ++ r.stack.drop (pos + 1)
          ∧ new.map (fun e => (e.kind, e.pc, e.mask))
            = ((if 2 ≤ groups.length ∧ q.lfsr.getLsbD 0 = false then sides.reverse else sides).map fun g => (EntryKind.side, g.1, g.2))
              ++ (if joins = 1 then [(EntryKind.join, point.getD 0, e.mask)] else [])
          ∧ ∀ x ∈ new, x.wait = none ∧ (x.kind = .side → (if x.noRpc then none else some x.rpc) = point)
            ∧ (x.kind = .join → (if x.noRpc then none else some x.rpc) = own)))

/-- nop advances the PC; seed sets the LFSR from the uniform, or to 1 for zero; rest stops its slot for max(n, 1) cycles when a
lane is active; yield, exit and brk with no active lane only advance the PC. With an active lane, yield answers a next state in
which the rope has the next age stamp of its core, the counters and boosts of the two top entries are cleared, the core's
counter has risen by one, the PC has advanced by 8, and nothing else has changed. nop with every guard is 64 bits, major 0x01
and the guard, every other field zero; whatever the guard it advances the PC, and nothing else changes. (04_ropes_and_control.md
R84) -/
def Obligations.PlainControlAndYield : Prop :=
  (∀ (c : Ctx) (i : Instr) (x : RopeEffect), c.s.ctx? = some c → i.wf = true → plainRule c i = some x → Does c i x)
    ∧ (∀ (c : Ctx) (g : Guard), c.s.ctx? = some c → Instr.wf (.yield g) = true → c.active g ≠ 0 →
    ∃ r, exec (.yield g) c.s = .next ((c.s.withCore c.party.core fun k => { k with ageCtr := k.ageCtr + 1 }).setParty
        (c.party.setRope c.k r))
      ∧ r = { c.rope with
          age := (c.s.core c.party.core).ageCtr
          stack := (c.rope.stack.mapIdx fun j e => if j < 2 then { e with counter := 0, boost := false } else e).modify c.pos
            fun e => { e with pc := e.pc + 8, wait := none } })
    ∧ ∀ (c : Ctx) (g : Guard), c.s.ctx? = some c →
      exec (.nop g) c.s = .next (c.put { c.rope with stack := c.past 8 })
      ∧ encodeBits (.nop g) = 5 + 1024 * (g.p.toNat + 8 * (if g.neg then 1 else 0))
      ∧ ∀ q, q ≤ 6 → decode q (encodeBits (.nop g)) = .ok (.nop g) 8

/-- With an active lane and an n-th join entry below the issuing slot, brk removes the active lanes from every entry above that
join, discards entries left empty, ORs the lanes into the join's mask and moves the issuing entry on; with fewer joins, or in a
handler where that join is not above HDEPTH, it traps CONTROL_STACK. With an active lane outside a handler, exit removes the
active lanes from every entry of the stack and discards the empty ones; when an entry is left nothing outside the rope changes;
when none is left the rope has ended, and when every rope of its party has ended, the party, which its launch's record counts as
live no longer. In a handler it traps CONTROL_STACK. Of the model's choices it uses logs 22, 93. (04_ropes_and_control.md R82,
04_ropes_and_control.md R89, 17_traps_and_preemption.md R348, 04_ropes_and_control.md R83, 04_ropes_and_control.md R90) -/
def Obligations.LeavingRegionsAndLanes : Prop :=
  (∀ (c : Ctx) (g : Guard) (n : BitVec 4), c.s.ctx? = some c → Instr.wf (.brk g n) = true → c.active g ≠ 0 →
    (∀ j, c.joinAt n.toNat = some j → (c.rope.hm = true → c.rope.hdepth < c.rope.stack.length - j) →
      exec (.brk g n) c.s = .next (c.put { c.rope with
        stack := withoutLanes (c.active g) ((c.rope.stack.modify c.pos fun e => { e with pc := e.pc + 8 }).take j)
          ++ (c.rope.stack.drop j).modify 0 fun e => { e with mask := e.mask ||| c.active g } }))
    ∧ (∀ j, c.joinAt n.toNat = some j → c.rope.hm = true → c.rope.stack.length - j ≤ c.rope.hdepth →
      exec (.brk g n) c.s = .next (c.trap .controlStack c.entry.mask c.rope.stack.length))
    ∧ (c.joinAt n.toNat = none → exec (.brk g n) c.s = .next (c.trap .controlStack c.entry.mask c.rope.stack.length)))
    ∧ (∀ (c : Ctx) (g : Guard), c.s.ctx? = some c → Instr.wf (.exit g) = true → c.active g ≠ 0 →
    (c.rope.hm = true → exec (.exit g) c.s = .next (c.trap .controlStack c.entry.mask c.rope.stack.length))
    ∧ (c.rope.hm = false → withoutLanes (c.active g) (c.past 8) ≠ [] →
      exec (.exit g) c.s = .next (c.put { c.rope with stack := withoutLanes (c.active g) (c.past 8) }))
    ∧ (c.rope.hm = false → withoutLanes (c.active g) (c.past 8) = [] →
      ∃ t p, exec (.exit g) c.s = .next t ∧ { t with launches := c.s.launches } = c.s.setParty p
        ∧ (t.launches = if p.ropes.all (fun r => r.ended) then
            c.s.launches.map fun x => if x.id = c.party.launch then x.partyEnded c.party.record else x else c.s.launches)
        ∧ (∃ r, p.ropes[c.k]? = some r ∧ r.ended = true ∧ r.stack = [])
        ∧ ((∀ r ∈ p.ropes, r.ended = true) → p.status = .ended)
        ∧ p.scratch = c.party.scratch ∧ p.cairns = c.party.cairns))

/-- A barinit that is no misuse answers a next state: with count 0 the barrier is retired; else it is live with this scope and
count and no arrivals, phase 0 when bound afresh and its own phase when rebound, and every other barrier stands; with no record
free on the core the slot waits and nothing is bound. bartest.st writes the status word of R154 (zero for a barrier that is not
live) to its uniform; the flag form on a live barrier sets its flag exactly when PHASE differs from the low byte of the uniform;
nothing else of the machine but what the rope has acquired changes. Of the model's choices it uses log 22.
(07_teams_barriers_cairns.md R152, 07_teams_barriers_cairns.md R154, 07_teams_barriers_cairns.md R155,
07_teams_barriers_cairns.md R174, 07_teams_barriers_cairns.md R157, 07_teams_barriers_cairns.md R176) -/
def Obligations.BarrierRecordsAndTests : Prop :=
  (∀ (c : Ctx) (bar : BitVec 7) (count : CountSrc) (team : Option (BitVec 8)), c.s.ctx? = some c →
    Instr.wf (.barinit bar count team) = true →
    let n := match count with
      | .imm i => i.toNat
      | .unif r => (c.rope.s r.toNat).toNat
    let b := bar.toNat
    c.initWrong b n team = false →
    (n = 0 → ∃ p, exec (.barinit bar count team) c.s = .next (c.s.setParty p) ∧ c.barFrame b p ∧ p.bar? b = none
      ∧ p.ropes = c.party.ropes.set c.k { c.rope with stack := c.past 8 })
    ∧ (n ≠ 0 → (c.party.bar? b ≠ none ∨ c.s.barRecords c.party.core < 96) →
      ∃ p r, exec (.barinit bar count team) c.s = .next (c.s.setParty p) ∧ c.barFrame b p ∧ p.bar? b = some r
        ∧ r.expect = n ∧ r.arrived = 0 ∧ r.psc = team.isNone ∧ r.team = team.elim 0 BitVec.toNat
        ∧ r.phase = (c.party.bar? b).elim 0 BarRec.phase ∧ p.ropes = c.party.ropes.set c.k { c.rope with stack := c.past 8 })
    ∧ (n ≠ 0 → c.party.bar? b = none → 96 ≤ c.s.barRecords c.party.core →
      exec (.barinit bar count team) c.s = .next (c.wait (.barRecord c.s.timer))))
    ∧ (∀ (c : Ctx) (bar : BitVec 7), c.s.ctx? = some c →
    (∀ d, Instr.wf (.bartest bar (.status d)) = true →
      Does c (.bartest bar (.status d)) { RopeEffect.idle c 8 with once := { regs := [(d.toNat, BitVec.ofNat 32
        (match c.party.bar? bar.toNat with
         | none => 0
         | some r => r.phase * 2 ^ 24 + r.team * 2 ^ 16 + 2 ^ 15 + (if r.psc then 2 ^ 14 else 0) + r.expect * 2 ^ 6
            + r.arrived))] } })
    ∧ ∀ k a r, Instr.wf (.bartest bar (.flag k a)) = true → c.party.bar? bar.toNat = some r →
      let changed := decide (r.phase ≠ (c.rope.s a.toNat).toNat % 256)
      Does c (.bartest bar (.flag k a)) { RopeEffect.idle c 8 with
        once := { preds := [(k.toNat, changed)] }
        base := if changed then c.rope.acquire (r.since ((c.rope.s a.toNat).toNat % 256)) else c.rope })

/-- A barrive or barwait that is no misuse answers a next state. When arrivals are still missing, ARRIVED rises by one and the
rope is in the arrived mask; barrive goes on and barwait waits on the phase. With the last one expected, in one step PHASE
advances modulo 256, ARRIVED, the mask and the kind are cleared, pending ends of ropes are taken from EXPECT (a barrier whose
EXPECT is then 0 is retired), and the slot goes on. PD takes the phase number arrived in. A barinit, barrive, barwait, team-
scope red or flag-form bartest in one of the conditions of R155 traps BARRIER_MISUSE with every live lane in TMASK and the
barrier number in TINFO, from a state in which it has changed nothing. Of the model's choices it uses log 22.
(07_teams_barriers_cairns.md R154, 07_teams_barriers_cairns.md R155, 07_teams_barriers_cairns.md R156,
07_teams_barriers_cairns.md R175, 17_traps_and_preemption.md R345) -/
def Obligations.BarrierArrivals : Prop :=
  (∀ (c : Ctx) (bar : BitVec 7) (pd : Option (BitVec 8)) (waits : Bool) (r : BarRec),
    let i : Instr := if waits then .barwait bar pd else .barrive bar pd
    let b := bar.toNat
    c.s.ctx? = some c → i.wf = true → c.arriveWrong b .plain = false → c.alone = true → c.party.bar? b = some r →
    ∃ p q, exec i c.s = .next (c.s.setParty p) ∧ c.barFrame b p ∧ p.ropes[c.k]? = some q
      ∧ (∀ d, pd = some d → q.s d.toNat = BitVec.ofNat 32 r.phase)
      ∧ (∀ n, (∀ d, pd = some d → n ≠ d.toNat) → q.s n = c.rope.s n)
      ∧ q.regs = c.rope.regs ∧ q.qtag = c.rope.qtag ∧ q.preds = c.rope.preds ∧ q.flags = c.rope.flags ∧ q.fpst = c.rope.fpst
      ∧ (r.arrived + 1 ≠ r.expect →
        (∃ r', p.bar? b = some r' ∧ r'.arrived = r.arrived + 1 ∧ r'.phase = r.phase ∧ r'.expect = r.expect ∧ r'.kind = .plain
          ∧ ∀ j, j < 32 → r'.mask.getLsbD j = (r.mask.getLsbD j || decide (j = c.k)))
        ∧ (q.stack[c.pos]?).map (fun e => (e.pc, e.wait)) = some (if waits then (c.entry.pc, some (.phase b r.phase i 0))
            else (c.entry.pc + 8, none)))
      ∧ (r.arrived + 1 = r.expect →
        (if r.expect = r.pending then p.bar? b = none
          else ∃ r', p.bar? b = some r' ∧ r'.arrived = 0 ∧ r'.mask = 0 ∧ r'.kind = .unset ∧ r'.phase = (r.phase + 1) % 256
            ∧ r'.expect = r.expect - r.pending ∧ r'.pending = 0)
        ∧ (q.stack[c.pos]?).map (fun e => (e.pc, e.wait)) = some (c.entry.pc + 8, none)))
    ∧ (∀ (c : Ctx) (b : BitVec 8), c.s.ctx? = some c → b.toNat < 96 →
    let trapped := Host.Outcome.next (c.trap .barrierMisuse c.entry.mask b.toNat)
    let bar : BitVec 7 := b.setWidth 7
    (∀ count team, c.initWrong b.toNat (match count with
        | CountSrc.imm i => i.toNat
        | CountSrc.unif r => (c.rope.s r.toNat).toNat) team = true → exec (.barinit bar count team) c.s = trapped)
    ∧ (c.arriveWrong b.toNat .plain = true → ∀ pd, exec (.barrive bar pd) c.s = trapped ∧ exec (.barwait bar pd) c.s = trapped)
    ∧ (∀ g op ty k d a, c.arriveWrong b.toNat (.red op ty) = true → exec (.red g op ty (some b) k d a) c.s = trapped)
    ∧ (c.party.bar? b.toNat = none → ∀ k a, exec (.bartest bar (.flag k a)) c.s = trapped))

/-- A red over a team that is no misuse answers a next state. With arrivals still missing its slot waits, the barrier holding
its partial. With the last one expected the phase completes in the step: every slot that waits in it, the issuing one included,
goes on with the tree over the partials in rope order in its destination, 32 or 64 bits wide, the identity when none carried
one, its flag saying so and the sticky bits of the rope's own tree and of the team's; nothing else of its rope changes but what
it has recorded for ordering and the other slot's wait on a block. A drawt with a sound exchange area and no misuse answers a
next state in which its rope has arrived, its slot in the area holds its own pair, key and counter, its counter has moved by 31,
and, with arrivals missing, the slot waits. With the last arrival the phase completes in the same step, and the slot is free to
read the area. A drawt whose phase has completed, with every slot of the area in SRAM and free of poison, answers a next state
in which the destination holds the team's pair and the instruction is past; nothing outside the rope changes. Of the model's
choices it uses logs 22, 34, 48. (07_teams_barriers_cairns.md R168, 07_teams_barriers_cairns.md R154, 05_lane_registers.md R107,
08_draws.md R192, 08_draws.md R193) -/
def Obligations.TeamReductionsAndDraws : Prop :=
  (∀ (c : Ctx) (g : Guard) (op : RedOp) (ty : RedTy) (b : BitVec 8) (k : Option (BitVec 2)) (d : Dst) (a : RSrc) (r : BarRec),
    let i : Instr := .red g op ty (some b) k d a
    c.s.ctx? = some c → i.wf = true → c.arriveWrong b.toNat (.red op ty) = false → c.alone = true →
    c.party.bar? b.toNat = some r →
    let tree := redTree op ty (treeInput c g ty.wide a.r)
    let own := tree.1.map (BitVec.ofNat 64)
    let team := redTree op ty ((List.range 32).map fun j =>
      (if j = c.k then own else SMap.get none r.partials j).map BitVec.toNat)
    ∃ p q, exec i c.s = .next (c.s.setParty p) ∧ c.barFrame b.toNat p ∧ p.ropes[c.k]? = some q
      ∧ (r.arrived + 1 ≠ r.expect → (∃ r', p.bar? b.toNat = some r' ∧ r'.arrived = r.arrived + 1 ∧ r'.kind = .red op ty
          ∧ SMap.get none r'.partials c.k = own)
        ∧ (q.stack[c.pos]?).map (fun e => (e.pc, e.wait)) = some (c.entry.pc, some (.phase b.toNat r.phase i tree.2))
        ∧ q.regs = c.rope.regs ∧ q.unif = c.rope.unif ∧ q.preds = c.rope.preds ∧ q.flags = c.rope.flags ∧ q.fpst = c.rope.fpst
        ∧ ∀ j, j ≠ c.k → p.ropes[j]? = c.party.ropes[j]?)
      ∧ (r.arrived + 1 = r.expect → ∀ (x : Ctx) (g' : Guard) (k' : Option (BitVec 2)) (d' : Dst) (a' : RSrc) (fl : FFlags),
        (x = c ∧ g' = g ∧ k' = k ∧ d' = d ∧ a' = a ∧ fl = tree.2
          ∨ c.s.ctxAt c.uid x.k x.pos = some x ∧ x.k ≠ c.k
            ∧ x.entry.wait = some (.phase b.toNat r.phase (.red g' op ty (some b) k' d' a') fl)) →
        Instr.wf (.red g' op ty (some b) k' d' a') = true → x.alone = true →
        ∃ y z, p.ropes[x.k]? = some y ∧ z.orderOnly x.rope ∧ EffectRope x { toDst x 8 (x.active g') [(a', width ty.wide)] d'
            (fun d => Fx.out ty.wide d (team.1.getD (redIdentity op ty))) (k'.toList.map fun k => (k.toNat, team.1.isNone))
            (fl ||| team.2 ||| if team.1.isNone then fEmpty else 0) with
          base := z
          stack := (x.past 8).map fun e => if e.wait = some .block then { e with wait := none } else e } y))
    ∧ (∀ (c : Ctx) (o : DrawtOp), c.s.ctx? = some c → Instr.wf (.drawt o) = true →
    let area := (c.rope.s o.area.toNat).toNat
    (∀ r, c.rope.drawtWait.find? (fun w => w.pc == c.entry.pc && w.bar == o.bar.toNat) = none →
      c.party.areaCheck area = none → (c.party.missing (area + 32 * c.k) 32).isEmpty = true →
      c.party.bar? o.bar.toNat = some r → c.alone = true →
      c.arriveWrong o.bar.toNat (.drawt (drawtForm (o.l.map fun u => (c.rope.s u.toNat).toNat)) area) = false →
      let own := (c.rope.ownDraw (c.active o.g) o.a.r o.ib (o.l.map fun u => (c.rope.s u.toNat).toNat)).1.getD
        (DPair.empty (if o.l.isSome then .logit else .weight))
      ∃ p q, exec (.drawt o) c.s = .next (c.s.setParty p) ∧ p.ropes[c.k]? = some q ∧ q.dctr = c.rope.dctr + 31
        ∧ q.regs = c.rope.regs ∧ q.unif = c.rope.unif ∧ q.preds = c.rope.preds ∧ q.flags = c.rope.flags
        ∧ (r.arrived + 1 ≠ r.expect → (q.stack[c.pos]?).any (fun e => e.wait.isSome) = true
          ∧ ∃ r', p.bar? o.bar.toNat = some r' ∧ r'.arrived = r.arrived + 1)
        ∧ (r.arrived + 1 = r.expect → (q.stack[c.pos]?).map (fun e => e.wait) = some none
          ∧ ∃ w, q.drawtWait.find? (fun w => w.pc == c.entry.pc && w.bar == o.bar.toNat) = some w ∧ w.area = area
            ∧ w.form = drawtForm (o.l.map fun u => (c.rope.s u.toNat).toNat)
            ∧ ∀ j, j < 32 → w.arrived.getLsbD j = (r.mask.getLsbD j || decide (j = c.k)))
        ∧ p.sbytes (area + 32 * c.k) 32 = leBytes 4 own.idx ++ leBytes 4 own.mass ++ leBytes 8 c.rope.dkey.toNat
          ++ leBytes 8 (c.rope.dctr + 31).toNat ++ leBytes 8 0
        ∧ (∀ x, (x < area + 32 * c.k ∨ area + 32 * c.k + 32 ≤ x) → p.sbyte x = c.party.sbyte x)
        ∧ (q.stack[c.pos]?).map (fun e => e.pc) = some c.entry.pc)
    ∧ ∀ w, c.rope.drawtWait.find? (fun w => w.pc == c.entry.pc && w.bar == o.bar.toNat) = some w →
      ((lanesOf w.arrived).all fun k => (c.party.missing (w.area + 32 * k) 32).isEmpty
        && !(c.party.spoisoned (w.area + 32 * k) 32)) = true →
      let t := c.party.teamDraw w
      let e := orEmpty (teamForm w.form) t.1
      ∃ q, exec (.drawt o) c.s = .next (c.put q) ∧ EffectRope c { toDst c 12 (c.active o.g) ((o.a, 1) :: o.ib.toList.map fun b => (b, 1)) o.d
          (fun d => Fx.pair d (e.1.idx + e.1.mass * 2 ^ 32)) (o.k.toList.map fun k => (k.toNat, e.2 || massNaN e.1.mass))
          (t.2 ||| w.own ||| if e.2 then fEmpty else 0) with
        base := { c.rope with
          drawtWait := c.rope.drawtWait.erase w
          dctr := if firstLane w.arrived.getLsbD = c.k then c.rope.dctr + 31 else c.rope.dctr } } q)

/-- A cinit on a usable cairn word answers a next state in which the word holds the target, count 0, the same generation and the
next incarnation number modulo 256, every other private byte stands, and the PC has advanced by 12. A carrive of n on a usable
cairn word with a target above 0 answers a next state with count (COUNT + n) mod TARGET and the generation advanced by (COUNT +
n) / TARGET modulo 256; with target 0 only the generation moves, by one; TARGET and INC stand, as does every other private byte.
On a usable cairn word without poison, cwait whose generation differs from g only advances the PC (and acquires what the
completed phases released); equal to g, its slot waits. ctest sets its flag exactly when the generation differs from g. Of the
model's choices it uses log 22. (07_teams_barriers_cairns.md R160, 07_teams_barriers_cairns.md R177, 07_teams_barriers_cairns.md
R161, 07_teams_barriers_cairns.md R178, 07_teams_barriers_cairns.md R179, 07_teams_barriers_cairns.md R180,
07_teams_barriers_cairns.md R163) -/
def Obligations.CairnCards : Prop :=
  (∀ (c : Ctx) (i : ISrc) (target : TargetSrc), c.s.ctx? = some c → Instr.wf (.cinit i target) = true →
    c.cairnMay (c.small i) = true →
    ∃ t, exec (.cinit i target) c.s = .next t ∧ c.cairnNext (c.small i)
      ⟨match target with
        | .imm x => x.toNat
        | .unif r => (c.rope.s r.toNat).toNat % 2 ^ 24, 0, (c.party.cairn (c.small i)).gen,
        ((c.party.cairn (c.small i)).inc + 1) % 256⟩ 12 t)
    ∧ (∀ (c : Ctx) (i : ISrc) (n : NSrc), c.s.ctx? = some c → Instr.wf (.carrive i n) = true → c.cairnMay (c.small i) = true →
    let w := c.party.cairn (c.small i)
    ∃ t, exec (.carrive i n) c.s = .next t ∧ c.cairnNext (c.small i)
      (if w.target = 0 then ⟨0, w.count, (w.gen + 1) % 256, w.inc⟩
       else ⟨w.target, (w.count + c.count n) % w.target, (w.gen + (w.count + c.count n) / w.target) % 256, w.inc⟩) 8 t)
    ∧ (∀ (c : Ctx) (i gen : ISrc), c.s.ctx? = some c → c.cairnMay (c.small i) = true →
    c.party.spoisoned (8 * c.small i) 8 = false →
    let changed := decide ((c.party.cairn (c.small i)).gen ≠ c.small gen)
    let seen := if changed then c.rope.acquire (c.party.cairnSync (c.small i)).done else c.rope
    (Instr.wf (.cwait i gen) = true → changed = true → Does c (.cwait i gen) { RopeEffect.idle c 8 with base := seen })
    ∧ (changed = false → exec (.cwait i gen) c.s = .next (c.wait (.cairn (c.small i) (c.small gen))))
    ∧ ∀ k, Instr.wf (.ctest k i gen) = true →
      Does c (.ctest k i gen) { RopeEffect.idle c 8 with once := { preds := [(k.toNat, changed)] }, base := seen })

/-- An lds or sts whose active lanes name aligned private bytes inside the allotment, in SRAM, free of poison for lds, answers a
next state: lds leaves each lane its bytes, extended, with the granule's tag for .c only; sts leaves the lanes' bytes, the
highest lane standing, tags cleared where a plain write touches a granule; last use poisons the hinted sources; every other
byte, tag, register, flag and table is unchanged. An atms whose active lanes name aligned private words inside the allotment, in
SRAM and free of poison, answers a next state in which the lanes have updated scratch in ascending order, each seeing the
results before it; each lane's destination holds what it read; the flags of .fadd accumulate; the granules touched are untagged;
nothing else but the record of releases changes. With no active lane it only advances the PC. Of the model's choices it uses
logs 2, 41, 57. (06_scratchpad.md R143, 06_scratchpad.md R142, 06_scratchpad.md R141, 09_capabilities.md R196, 06_scratchpad.md
R144) -/
def Obligations.ScratchAccesses : Prop :=
  (∀ (c : Ctx) (sz : Sz) (g : Guard) (d : BitVec 8) (o : ScrOff) (b : RSrc), c.s.ctx? = some c → c.resumed = false →
    let z := sizeOf' sz
    (Instr.wf (.lds sz g d o) = true → (∀ l ∈ lanesOf (c.active g), c.privMay o z true l = true) →
      (sz = .c → ∀ l ∈ lanesOf (c.active g), c.scrHas o l = true → c.s.revoked (BitVec.ofNat 128 (c.scrNum o z l)) = false) →
      ∃ t, exec (.lds sz g d o) c.s = .next t ∧ ScratchEffect c (laneEffect c 8 (c.active g) (scrHinted o) fun l =>
          loaded sz d (c.scrNum o z l) (c.s.tagFor (BitVec.ofNat 128 (c.scrNum o z l)) (c.scrHas o l)))
        false c.party.sbyte (fun off => NSet.has c.party.stag (off / 16)) t)
    ∧ (Instr.wf (.sts sz g o b) = true → (∀ l ∈ lanesOf (c.active g), c.privMay o z false l = true) →
      (sz = .c → ∀ l ∈ lanesOf (c.active g), c.rope.tag l b.r.toNat = true → c.s.revoked (c.rope.quad l b.r.toNat) = false) →
      ∃ t, exec (.sts sz g o b) c.s = .next t
        ∧ ScratchEffect c (laneEffect c 8 (c.active g) (scrHinted o ++ [(b, dataRegs sz)]) fun _ => {})
          true (storedBytes c.party.sbyte (c.scrStores (c.active g) o sz b)) (c.scrTags (c.active g) o sz b) t))
    ∧ (∀ (c : Ctx) (o : AtmsOp), c.s.ctx? = some c → Instr.wf (.atms o) = true →
    (c.active o.g = 0 → Does c (.atms o) (RopeEffect.idle c 12))
    ∧ (c.active o.g ≠ 0 → c.resumed = false → (∀ l ∈ lanesOf (c.active o.g), c.privMay o.off (if o.w then 8 else 4) true l = true) →
      ∃ t, exec (.atms o) c.s = .next t ∧ ScratchEffect c { laneEffect c 12 (c.active o.g)
            (scrHinted o.off ++ (o.b, width o.w) :: if o.op = .cas then [(o.c, width o.w)] else [])
            (fun l => Fx.out o.w o.d ((c.atmsRun o).got l)) with fpst := (c.atmsRun o).flags }
        true (c.atmsRun o).mem
        (fun off => NSet.has c.party.stag (off / 16) && !((c.rope.laneOffs (c.active o.g) o.off).any fun y => y.2 / 16 == off / 16)) t))

/-- When an active lane of lds, sts or atms names a byte outside the allotment, the instruction traps CAP_BOUNDS with exactly
those lanes in TMASK and the lowest one's offset in TINFO; when none does and an active lane's offset is no multiple of the
element's bytes, it traps MISALIGNED with those lanes. Of the model's choices it uses logs 22, 26. (06_scratchpad.md R142,
17_traps_and_preemption.md R345) -/
def Obligations.ScratchTraps : Prop :=
  ∀ (c : Ctx) (i : Instr) (g : Guard) (o : ScrOff) (z : Nat), c.s.ctx? = some c → c.resumed = false → i.wf = true →
    scratchForm i = some (g, o, z) →
    let out := laneSet fun l => (c.active g).getLsbD l &&
      (decide (c.rope.scrOff o l < 0) || decide ((c.party.scratchSize : Int) < c.rope.scrOff o l + z))
    let odd := laneSet fun l => (c.active g).getLsbD l && decide (c.rope.scrOff o l % z ≠ 0)
    (out ≠ 0 → exec i c.s = .next (c.trapsAt .capBounds out (c.rope.scrOff o)))
    ∧ (out = 0 → odd ≠ 0 → exec i c.s = .next (c.trapsAt .misaligned odd (c.rope.scrOff o)))

/-- With no active lane smap, sunmap and sflush only advance the PC. Otherwise, for aligned pages inside the allotment: a job of
the party that delivers into them makes the slot wait; else smap with a sound capability binds exactly its N pages to
consecutive 4 KiB of the span and leaves their bytes zero and untagged, sunmap leaves exactly its N pages private, sflush leaves
exactly their lines clean; every other page, byte and tag of scratch stands. Pages that do not lie in the allotment, or do not
begin at a page, trap CAP_BOUNDS with the lowest active lane. Of the model's choices it uses logs 24, 41. (06_scratchpad.md
R145, 06_scratchpad.md R146, 06_scratchpad.md R140) -/
def Obligations.ScratchPages : Prop :=
  ∀ (c : Ctx), c.s.ctx? = some c →
    (∀ o, Instr.wf (.smap o) = true → c.active o.g = 0 → Does c (.smap o) (RopeEffect.idle c 12))
    ∧ (∀ o, Instr.wf (.smap o) = true → c.active o.g ≠ 0 →
      let off := (c.rope.x (firstLane (c.active o.g).getLsbD) o.c.r.toNat).toNat
      (off % 4096 ≠ 0 ∨ c.party.scratchSize < off + 4096 * (o.nm1.toNat + 1)) →
      exec (.smap o) c.s = .next (c.trap .capBounds (withBit 0 (firstLane (c.active o.g).getLsbD) true) off))
    ∧ (∀ o, Instr.wf (.smap o) = true → c.active o.g ≠ 0 →
      let l := firstLane (c.active o.g).getLsbD
      let n := o.nm1.toNat + 1
      let off := (c.rope.x l o.c.r.toNat).toNat
      let so := (c.rope.x64 l o.b.r.toNat).toNat
      let q := c.rope.quad l o.a.r.toNat
      off % 4096 = 0 → off + 4096 * n ≤ c.party.scratchSize → c.usable o.a l = true → capHas q pLD = true →
      (o.ro = true ∨ capHas q pST = true) → namesView (capBase q) (capLen q) = false → so + 4096 * n ≤ capLen q →
      (capBase q + so) % 128 = 0 →
      (c.s.jobsInto c.uid off (off + 4096 * n) = true → exec (.smap o) c.s = .next (c.wait .pages))
      ∧ (c.s.jobsInto c.uid off (off + 4096 * n) = false → ∃ p r, exec (.smap o) c.s = .next (c.s.setParty p)
        ∧ p.ropes = c.party.ropes.set c.k r
        ∧ EffectRope c (laneEffect c 12 (c.active o.g) [(o.a, 4), (o.b, 2), (o.c, 1)] fun _ => {}) r
        ∧ (∀ x, p.pageAt x = if off ≤ x ∧ x < off + 4096 * n then .stash q o.ro (capBase q + so + 4096 * ((x - off) / 4096))
            else c.party.pageAt x)
        ∧ (∀ x, p.sbyte x = if off ≤ x ∧ x < off + 4096 * n then 0 else c.party.sbyte x)
        ∧ (∀ x, NSet.has p.stag (x / 16) = (NSet.has c.party.stag (x / 16) && !(decide (off ≤ x) && decide (x < off + 4096 * n))))
        ∧ p.bars = c.party.bars ∧ p.cairns = c.party.cairns))
    ∧ (∀ nm1 g a, c.active g ≠ 0 →
      let n := nm1.toNat + 1
      let off := (c.rope.x (firstLane (c.active g).getLsbD) a.r.toNat).toNat
      let used := laneEffect c 8 (c.active g) [(a, 1)] fun _ => {}
      ((off % 4096 ≠ 0 ∨ c.party.scratchSize < off + 4096 * n) →
        let t := Host.Outcome.next (c.trap .capBounds (withBit 0 (firstLane (c.active g).getLsbD) true) off)
        exec (.sunmap nm1 g a) c.s = t ∧ exec (.sflush nm1 g a) c.s = t)
      ∧ (off % 4096 = 0 → off + 4096 * n ≤ c.party.scratchSize → c.s.jobsInto c.uid off (off + 4096 * n) = true →
        exec (.sunmap nm1 g a) c.s = .next (c.wait .pages) ∧ exec (.sflush nm1 g a) c.s = .next (c.wait .pages))
      ∧ (off % 4096 = 0 → off + 4096 * n ≤ c.party.scratchSize → c.s.jobsInto c.uid off (off + 4096 * n) = false →
        (Instr.wf (.sunmap nm1 g a) = true → ∃ p r, exec (.sunmap nm1 g a) c.s = .next (c.s.setParty p)
          ∧ p.ropes = c.party.ropes.set c.k r ∧ EffectRope c used r
          ∧ (∀ x, p.pageAt x = if off ≤ x ∧ x < off + 4096 * n then .priv else c.party.pageAt x)
          ∧ p.scratch = c.party.scratch ∧ p.stag = c.party.stag)
        ∧ (Instr.wf (.sflush nm1 g a) = true → ∃ p r, exec (.sflush nm1 g a) c.s = .next (c.s.setParty p)
          ∧ p.ropes = c.party.ropes.set c.k r ∧ EffectRope c used r
          ∧ (∀ ln, ln ∈ p.dirty ↔ ln ∈ c.party.dirty ∧ ¬(off ≤ ln * 128 ∧ ln * 128 < off + 4096 * n))
          ∧ { p with ropes := c.party.ropes, dirty := c.party.dirty } = c.party)))
    ∧ ∀ nm1 g a, c.active g = 0 → (Instr.wf (.sunmap nm1 g a) = true → Does c (.sunmap nm1 g a) (RopeEffect.idle c 8))
      ∧ (Instr.wf (.sflush nm1 g a) = true → Does c (.sflush nm1 g a) (RopeEffect.idle c 8))

/-- A well-formed cbnd, cperm, cseal or cunseal whose active lanes pass its checks answers a next state: each active lane's
destination quad holds the capability with the bounds, permissions or object type that the card gives and every other field as
before, tagged unless the running pass matches it; nothing else of the machine changes. A well-formed cfield, ctag, cclr or swpq
answers a next state: the field as an unsigned number, the tag or whether the use checks would pass, the tag cleared and the
bits kept, or W with an acquire of what the completed passes release; nothing else of the machine changes. With no active lane
revk only advances the PC. With a usable capability holding LD and ST in the lowest active lane and room in the map, it appends
the entry for [BASE, BASE + LENGTH) and the colour, assigned to the next pass, writes that pass number in every active lane, and
changes nothing else; with 1,024 entries it waits, or with .nw writes all ones. Of the model's choices it uses logs 24, 36, 37.
(09_capabilities.md R210, 09_capabilities.md R211, 09_capabilities.md R212, 09_capabilities.md R207, 09_capabilities.md R213,
09_capabilities.md R215, 09_capabilities.md R208, 09_capabilities.md R214, 09_capabilities.md R205, 09_capabilities.md R206) -/
def Obligations.CapabilityCards : Prop :=
  (∀ (c : Ctx) (i : Instr) (x : Derive), c.s.ctx? = some c → i.wf = true → deriveRule c i = some x →
    (∀ l ∈ lanesOf (c.active x.g), x.ok l = true) → Does c i (deriveEffect c x))
    ∧ (∀ (c : Ctx) (i : Instr) (x : RopeEffect), c.s.ctx? = some c → i.wf = true → capRule c i = some x → Does c i x)
    ∧ (∀ (c : Ctx) (g : Guard) (nw : Bool) (d : BitVec 8) (a : RSrc), c.s.ctx? = some c → Instr.wf (.revk g nw d a) = true →
    let i : Instr := .revk g nw d a
    let l := firstLane (c.active g).getLsbD
    let q := c.rope.quad l a.r.toNat
    let pass := if c.s.passRunning then c.s.passDone + 2 else c.s.passDone + 1
    (c.active g = 0 → Does c i (RopeEffect.idle c 12))
    ∧ (c.active g ≠ 0 → c.usable a l = true → capHas q (pLD + pST) = true →
      (c.s.revMap.length < 1024 → ∃ r, exec i c.s = .next { c.put r with
            revMap := c.s.revMap ++ [⟨some (capBase q, capBase q + capLen q), capColour q, pass⟩] }
        ∧ EffectRope c (laneEffect c 12 (c.active g) [(a, 4)] fun _ => Fx.pair d pass) r)
      ∧ (1024 ≤ c.s.revMap.length → nw = true → Does c i (laneEffect c 12 (c.active g) [(a, 4)] fun _ => Fx.pair d (2 ^ 64 - 1)))
      ∧ (1024 ≤ c.s.revMap.length → nw = false → exec i c.s = .next (c.wait (.mapRoom a q (c.active g) d)))))

/-- An ld or ldc whose active lanes pass the checks of R224 in this package's memory, with nothing in the way, answers a next
state: each active lane's destination holds its bytes, extended as its size says, or the quad with its granule's tag; no byte,
tag or poison mark of memory changes, nor anything else but residency and ordering records. In the windows of routed peers every
active lane sends its request and the slot waits for as many answers; with all of them, none a poisoned line, the destinations
hold their bytes, without tags, and the answers are used up; a poisoned or unreachable line traps POISON_CONSUMED with its
lanes. An st or stc whose active lanes pass the checks of R224 (and, for stc, of R229) in this package's memory, with nothing in
the way, answers a next state in which exactly the bytes that the lanes name hold the lanes' data, the highest lane standing
where they clash; st clears the tag of every granule that it touches, stc leaves each granule its quad's tag; every other byte
and tag, and every register but those that last use poisons, is unchanged; a stash gives up its copies of the lines stored to.
In the windows of routed peers each active lane of st posts its bytes in a request, for which the slot does not wait, and no
byte here changes. Of the model's choices it uses logs 2, 24, 26, 42, 105. (10_span_memory.md R226, 10_span_memory.md R228,
10_span_memory.md R224, 09_capabilities.md R199, 18_fabric_collectives_pool.md R375, 18_fabric_collectives_pool.md R376,
10_span_memory.md R227, 10_span_memory.md R229, 10_span_memory.md R225, 09_capabilities.md R196, 06_scratchpad.md R138) -/
def Obligations.LoadsAndStores : Prop :=
  (∀ (c : Ctx) (m : SpanOp) (sz : Sz) (d : BitVec 8), c.s.ctx? = some c →
    let num (z l : Nat) : Nat := bytesAt c.s.byte (c.reach m.a (c.offset m l) l) z
    let quad (l : Nat) : Quad := BitVec.ofNat 128 (num 16 l)
    let tag (l : Nat) : Bool := c.s.tagAt (c.reach m.a (c.offset m l) l)
    (Instr.wf (.ld m sz d) = true → c.mayAccess m pLD (sizeOf' sz) false true = true →
      ∃ t, exec (.ld m sz d) c.s = .next t ∧ SpanEffect c (laneEffect c 12 (c.active m.g) (hintedSpan m) fun l =>
        loaded sz d (num (sizeOf' sz) l) false) [] c.s.byte c.s.tagAt t)
    ∧ (Instr.wf (.ldc m d) = true → c.mayAccess m (pLD + pLDCAP) 16 false true = true →
      (∀ l ∈ lanesOf (c.active m.g), tag l = true → c.s.revoked (quad l) = false) →
      ∃ t, exec (.ldc m d) c.s = .next t ∧ SpanEffect c (laneEffect c 12 (c.active m.g) (hintedSpan m) fun l =>
        { quads := [(d.toNat, quad l, c.s.tagFor (quad l) (tag l))] }) [] c.s.byte c.s.tagAt t)
    ∧ (∀ (i : Instr) (z : Nat) (perms : Nat) (fx : Nat → Fx), i.wf = true →
      (i = .ld m sz d ∧ z = sizeOf' sz ∧ perms = pLD ∧ fx = (fun l => loaded sz d (c.answered l) false)
        ∨ i = .ldc m d ∧ z = 16 ∧ perms = pLD + pLDCAP ∧ fx = (fun l => { quads := [(d.toNat, BitVec.ofNat 128 (c.answered l), false)] })) →
      (c.resumed = false → c.peerMay (c.active m.g) m.a (c.offset m) perms z = true → ∃ t, exec i c.s = .next t
        ∧ t.sent c.s (c.requests (c.active m.g) m.a (c.offset m) (fun _ => .load z) (fun l => .lane c.uid c.k l c.entry.pc))
        ∧ t.peerKnow = c.s.peerKnow ∧ t.parties = (c.put (c.awaits i (lanesOf (c.active m.g)).length)).parties)
      ∧ (c.heardAll (c.active m.g) m.a (c.offset m) = true →
        (c.unheard (c.active m.g) = 0 → ∃ t, exec i c.s = .next t ∧ c.uses (laneEffect c 12 (c.active m.g) (hintedSpan m) fx) t)
        ∧ (c.unheard (c.active m.g) ≠ 0 →
          exec i c.s = .next (c.clearLost.trapsAt .poisonConsumed (c.unheard (c.active m.g)) (c.offset m))))))
    ∧ (∀ (c : Ctx) (m : SpanOp) (sz : Sz) (x : RSrc), c.s.ctx? = some c →
    (Instr.wf (.st m sz x) = true → c.mayAccess m pST (sizeOf' sz) true false = true →
      ∃ t, exec (.st m sz x) c.s = .next t
        ∧ SpanEffect c (laneEffect c 12 (c.active m.g) (hintedSpan m ++ [(x, dataRegs sz)]) fun _ => {})
          (extents (c.stores m sz x)) (storedBytes c.s.byte (c.stores m sz x)) (storedTags c.s.tagAt (c.stores m sz x)) t)
    ∧ (Instr.wf (.stc m x) = true → c.mayAccess m (pST + pSTCAP) 16 true false = true →
      (∀ l ∈ lanesOf (c.active m.g), c.rope.tag l x.r.toNat = true →
        c.s.revoked (c.rope.quad l x.r.toNat) = false ∧ capHas (c.rope.quad l x.r.toNat) pGLOBAL = true) →
      ∃ t, exec (.stc m x) c.s = .next t
        ∧ SpanEffect c (laneEffect c 12 (c.active m.g) (hintedSpan m ++ [(x, 4)]) fun _ => {})
          (extents (c.stores m .c x)) (storedBytes c.s.byte (c.stores m .c x)) (c.stcTags m x) t)
    ∧ (Instr.wf (.st m sz x) = true → c.resumed = false → c.peerMay (c.active m.g) m.a (c.offset m) pST (sizeOf' sz) = true →
      ∃ t r b, exec (.st m sz x) c.s = .next t ∧ t.parties = (c.put r).parties ∧ b.orderOnly c.rope
        ∧ EffectRope c { laneEffect c 12 (c.active m.g) (hintedSpan m ++ [(x, dataRegs sz)]) (fun _ => {}) with base := b } r
        ∧ t.sent c.s (c.requests (c.active m.g) m.a (c.offset m)
          (fun l => .store (leBytes (sizeOf' sz) (c.rope.quad l x.r.toNat).toNat) none) (fun _ => .posted c.uid c.k))))

/-- An atom or atomn whose active lanes pass the checks of R224 in this package's memory, with nothing in the way, answers a
next state in which the lanes have updated memory in ascending order; for atom each active lane holds what it read there and the
flags accumulate; every granule touched is untagged; nothing else changes but ordering and residency records. In the windows of
routed peers each active lane's update is sent with its ordering and scope: atom waits for the old values, which its
destinations then hold, atomn goes on. With no active lane it only advances the PC. Of the model's choices it uses logs 2, 42,
102, 105, 118. (10_span_memory.md R230, 10_span_memory.md R225, 09_capabilities.md R196, 06_scratchpad.md R138,
18_fabric_collectives_pool.md R375, 18_fabric_collectives_pool.md R376) -/
def Obligations.Atomics : Prop :=
  ∀ (c : Ctx) (o : AtomOpnd) (ret : Bool), c.s.ctx? = some c →
    let i : Instr := if ret then .atom o else .atomn o
    i.wf = true →
    (c.active o.g = 0 → Does c i (RopeEffect.idle c 16))
    ∧ (c.active o.g ≠ 0 →
      c.may (c.active o.g) o.a (c.atomOffset o) (pATOM + pLD + pST) (if o.w then 8 else 4) true true true = true →
      ∃ t, exec i c.s = .next t
        ∧ SpanEffect c { laneEffect c 16 (c.active o.g) (hintedAtom o) (fun l =>
              if ret then Fx.out o.w o.d ((c.atomRun o).got l) else {}) with fpst := if ret then (c.atomRun o).flags else 0 }
          ((lanesOf (c.active o.g)).map fun l => (c.reach o.a (c.atomOffset o l) l, if o.w then 8 else 4))
          (c.atomRun o).mem
          (storedTags c.s.tagAt ((lanesOf (c.active o.g)).map fun l =>
            (c.reach o.a (c.atomOffset o l) l, List.replicate (if o.w then 8 else 4) 0#8))) t)
    ∧ (c.resumed = false → c.peerMay (c.active o.g) o.a (c.atomOffset o) (pATOM + pLD + pST) (if o.w then 8 else 4) = true →
      ∃ t, exec i c.s = .next t
        ∧ t.sent c.s (c.requests (c.active o.g) o.a (c.atomOffset o)
          (fun l => .atomic o.op o.w ret o.ord o.scope (c.source o.w o.c.r l) (c.source o.w o.e.r l))
          (fun l => if ret then .lane c.uid c.k l c.entry.pc else .posted c.uid c.k))
        ∧ (ret = true → t.parties = (c.put (c.awaits i (lanesOf (c.active o.g)).length)).parties)
        ∧ (ret = false → ∃ r b, t.parties = (c.put r).parties ∧ b.orderOnly c.rope
          ∧ EffectRope c { laneEffect c 16 (c.active o.g) (hintedAtom o) (fun _ => {}) with base := b } r))
    ∧ (ret = true → c.heardAll (c.active o.g) o.a (c.atomOffset o) = true →
      (c.unheard (c.active o.g) = 0 → ∃ t, exec i c.s = .next t ∧ c.uses { laneEffect c 16 (c.active o.g) (hintedAtom o)
          (fun l => Fx.out o.w o.d (c.answered l)) with
        fpst := flagsOver (c.active o.g) fun l => (atomValue o.op (if o.w then 64 else 32) (c.answered l) (c.source o.w o.c.r l)
          (c.source o.w o.c.r l) (c.source o.w o.e.r l)).flags } t)
      ∧ (c.unheard (c.active o.g) ≠ 0 →
        exec i c.s = .next (c.clearLost.trapsAt .poisonConsumed (c.unheard (c.active o.g)) (c.atomOffset o))))

/-- With no active lane ldmx and stmx only advance the PC. Otherwise, with the lowest active lane's two accesses free to go:
ldmx leaves in every active lane its packed word of the block (zero past the last) and the scale; stmx, when every lane that
holds a word is active, stores the packed words and lane 0's scale byte and changes no other byte; a lane with a word that is
not active traps PARTIAL_MASK. Of the model's choices it uses logs 2, 24. (10_span_memory.md R232, 09_capabilities.md R196) -/
def Obligations.BlockLoadsAndStores : Prop :=
  ∀ (c : Ctx) (m : SpanOp) (fmt : Elem) (d : BitVec 8) (sc : RSrc), c.s.ctx? = some c →
    let l := firstLane (c.active m.g).getLsbD
    let w := (mxGeom fmt).1
    let words := (mxGeom fmt).2
    let a := c.reach m.a (c.offset m l) l
    let sa := c.reach m.a ((c.rope.x l sc.r.toNat).toNat : Int) l
    let used := hintedSpan m ++ [(sc, 1)]
    let v := (List.range words).foldl (fun v j => v + (c.rope.x j d.toNat).toNat % 2 ^ w * 2 ^ (w * j)) 0
    let data : List (Nat × List Byte) := [(a, leBytes (4 * fmt.bits) v), (sa, leBytes 1 ((c.rope.x 0 (d.toNat + 1)).toNat % 256))]
    (c.active m.g = 0 → (Instr.wf (.ldmx m fmt d sc) = true → Does c (.ldmx m fmt d sc) (RopeEffect.idle c 12))
      ∧ (Instr.wf (.stmx m fmt d sc) = true → Does c (.stmx m fmt d sc) (RopeEffect.idle c 12)))
    ∧ (c.active m.g ≠ 0 → Instr.wf (.ldmx m fmt d sc) = true → c.mxMay m fmt sc pLD l false true = true →
      ∃ t, exec (.ldmx m fmt d sc) c.s = .next t ∧ SpanEffect c (laneEffect c 12 (c.active m.g) used fun j =>
          Fx.pair d ((if j < words then bytesAt c.s.byte a (4 * fmt.bits) / 2 ^ (w * j) % 2 ^ w else 0)
            + (c.s.byte sa).toNat * 2 ^ 32)) [] c.s.byte c.s.tagAt t)
    ∧ (c.active m.g ≠ 0 → Instr.wf (.stmx m fmt d sc) = true → c.mxMay m fmt sc pST l true false = true →
      ((∀ j, j < words → (c.active m.g).getLsbD j = true) →
        ∃ t, exec (.stmx m fmt d sc) c.s = .next t
          ∧ SpanEffect c (laneEffect c 12 (c.active m.g) used fun _ => {}) (extents data) (storedBytes c.s.byte data) (storedTags c.s.tagAt data) t)
      ∧ ((∃ j, j < words ∧ (c.active m.g).getLsbD j = false) →
        exec (.stmx m fmt d sc) c.s = .next (c.trap .partialMask c.entry.mask c.entry.mask.toNat)))

/-- For ld, st, ldc, stc, atom and atomn: when no active lane fails before step n of R198 and some active lane fails at step n,
the instruction traps that step's cause with exactly the lanes that fail at it in TMASK and the lowest one's offset in TINFO,
before any effect. For ld, st, ldc, atom and atomn whose active lanes pass R198 and meet no lost page: with a far page that may
not be accessed the rope parks on exactly those pages and memory is unchanged; else, with no frame wanting, an access whose
capability holds CHECKED and that an unordered earlier write by another agent races traps RACE with those lanes; else, for a
read, a poisoned byte traps POISON_CONSUMED with those lanes. Of the model's choices it uses logs 24, 38, 43, 59.
(09_capabilities.md R198, 10_span_memory.md R224, 10_span_memory.md R222, 17_traps_and_preemption.md R345,
13_tiers_and_route_cards.md R284, 14_memory_model.md R308, 10_span_memory.md R219) -/
def Obligations.SpanTrapsAndParks : Prop :=
  (∀ (c : Ctx) (i : Instr) (x : SpanForm) (n : Nat) (cause : Cause), c.s.ctx? = some c → c.resumed = false → i.wf = true →
    spanForm c i = some x → n < 7 → noneBefore (c.active x.g) (c.faults x) n →
    (∃ l ∈ lanesOf (c.active x.g), (c.faults x l)[n]? = some (true, cause)) →
    exec i c.s = .next (c.trapsAt cause (failsAt (c.active x.g) (c.faults x) n) x.off))
    ∧ (∀ (c : Ctx) (i : Instr) (x : SpanForm), c.s.ctx? = some c → c.resumed = false → i.wf = true → spanForm c i = some x →
    (∀ m x, i ≠ .stc m x) → noneBefore (c.active x.g) (c.faults x) 7 → (c.accsOf x).any c.isLost = false →
    let raced := laneSet fun l => (c.active x.g).getLsbD l && (c.accsOf x).any fun a =>
      a.key == l && !a.peer && a.checked && c.s.races c.rope.agent c.rope.know x.atomic a.addr a.n
    let bad := laneSet fun l => (c.active x.g).getLsbD l && (c.accsOf x).any fun a => a.key == l && !a.peer && c.s.poisoned a.addr a.n
    (c.shutOf x ≠ [] → ∃ t, exec i c.s = .next t
      ∧ t.parties = (c.put { c.rope with park := some ⟨c.entry.pc, (c.shutOf x).eraseDups, false, false, c.s.timer⟩ }).parties
      ∧ t.mem = c.s.mem ∧ t.tags = c.s.tags ∧ t.poison = c.s.poison ∧ t.race = c.s.race)
    ∧ (c.shutOf x = [] → (x.wr = true → c.frames (c.accsOf x) = true) → raced ≠ 0 →
      exec i c.s = .next (c.clearLost.trapsAt .race raced x.off))
    ∧ (c.shutOf x = [] → (x.wr = true → c.frames (c.accsOf x) = true) → raced = 0 → x.rd = true → bad ≠ 0 →
      exec i c.s = .next (c.clearLost.trapsAt .poisonConsumed bad x.off)))

/-- Every well-formed pref answers a next state in which only its last-use hints, the PC and requests of the engine class
without write permission have been added; every fence one in which only the rope's and the package's ordering records have
changed, its release count has risen by one and the PC has advanced; every isync one in which the rope's fetch buffer is empty
and the PC has advanced. With no active lane iinv and clwb only advance the PC. With the lowest active lane's range sound, iinv
leaves no word of the range in the instruction cache of any healthy die that it covers and every other word as before; clwb
leaves memory, tags and poison as they are, with .inv forgets the race records of the range's lines, those that a stash holds
apart, and no others; neither changes a register but for last use. Of the model's choices it uses logs 19, 37, 98, 118.
(10_span_memory.md R233, 10_span_memory.md R234, 10_span_memory.md R236, 14_memory_model.md R302, 10_span_memory.md R235,
14_memory_model.md R310) -/
def Obligations.FencesAndRanges : Prop :=
  (∀ (c : Ctx), c.s.ctx? = some c →
    (∀ m n, Instr.wf (.pref m n) = true → ∃ t r more, exec (.pref m n) c.s = .next t ∧ t.parties = (c.put r).parties
      ∧ EffectRope c (laneEffect c 12 (c.active m.g) (hintedSpan m) fun _ => {}) r ∧ t.asks = c.s.asks ++ more
      ∧ (∀ x ∈ more, x.cls = .engine ∧ x.write = false ∧ c.s.pageOpen false x.page = false)
      ∧ { t with parties := c.s.parties, asks := c.s.asks } = c.s)
    ∧ (∀ sc, Instr.wf (.fence sc) = true → ∃ t r b, exec (.fence sc) c.s = .next t ∧ t.parties = (c.put r).parties
      ∧ EffectRope c { RopeEffect.idle c 8 with base := b } r ∧ r.rel = c.rope.rel + 1
      ∧ { b with know := c.rope.know, rel := c.rope.rel, fenced := c.rope.fenced } = c.rope
      ∧ { t with parties := c.s.parties, fences := c.s.fences } = c.s)
    ∧ exec .isync c.s = .next (c.put { c.rope with fbuf := [], stack := c.past 8 }))
    ∧ (∀ (c : Ctx) (m : SpanOp) (x : RSrc) (f : Bool), c.s.ctx? = some c →
    let l := firstLane (c.active m.g).getLsbD
    let a := c.reach m.a (c.offset m l) l
    let n := (c.rope.x l x.r.toNat).toNat
    let used := laneEffect c 12 (c.active m.g) (hintedSpan m ++ [(x, 1)]) fun _ => {}
    (c.active m.g = 0 → (Instr.wf (.iinv m x f) = true → Does c (.iinv m x f) (RopeEffect.idle c 12))
      ∧ (Instr.wf (.clwb m x f) = true → Does c (.clwb m x f) (RopeEffect.idle c 12)))
    ∧ (c.active m.g ≠ 0 → Instr.wf (.iinv m x f) = true → c.rangeMay m x pEXEC pST = true →
      ∃ t r, exec (.iinv m x f) c.s = .next t ∧ EffectRope c used r
        ∧ t.parties.map Party.unfetched = (c.put r).parties.map Party.unfetched ∧ (n = 0 → t = c.put r)
        ∧ (n ≠ 0 → ∀ die y, y < 2 ^ 48 → SMap.get none t.icache (die * 2 ^ 48 + y) =
            if (if f then die < 4 else die = dieOf c.party.core) ∧ (c.s.die die).fenced = false ∧ a ≤ y + 3 ∧ y < a + n then none
            else SMap.get none c.s.icache (die * 2 ^ 48 + y))
        ∧ { t with parties := c.s.parties, icache := c.s.icache } = c.s)
    ∧ (c.active m.g ≠ 0 → Instr.wf (.clwb m x f) = true → c.rangeMay m x pLD pST = true →
      ∃ t r, exec (.clwb m x f) c.s = .next t ∧ t.parties = (c.put r).parties ∧ EffectRope c used r
        ∧ (∀ g, t.raceAt g = if f ∧ n ≠ 0 ∧ a < g / 8 * 128 + 128 ∧ g / 8 * 128 < a + n ∧ c.s.inStash (g / 8) = false then none else c.s.raceAt g)
        ∧ { t with parties := c.s.parties, pages := c.s.pages, race := c.s.race } = c.s))

/-- A gang with n = 0 clears the gang register; with a sound list of n members in its uniform (no bits above, none twice, each a
rope of the party, the rope itself among them) the register holds n and reads back as that list for this rope; a bad list traps
GANG_MISMATCH; while the rope has a gang instruction in flight its slot waits. Nothing else changes. A gang instruction whose
slot holds all 32 lanes, of a rope with a gang, whose plane counts are within the cap, is latched: its slot waits with the
instruction and nothing else changes. With a lane missing it traps PARTIAL_MASK with the mask in TINFO; without a gang
GANG_MISMATCH; with a plane count above the cap (mmb has none) PRECISION_CAPPED with the cap in TINFO. Of the model's choices it
uses logs 34, 62. (11_matrix_engine.md R239, 11_matrix_engine.md R237, 11_matrix_engine.md R240, 11_matrix_engine.md R249,
11_matrix_engine.md R255) -/
def Obligations.GangInstructions : Prop :=
  (∀ (c : Ctx) (n : BitVec 3) (a : BitVec 8), c.s.ctx? = some c → Instr.wf (.gang n a) = true →
    let w := (c.rope.s a.toNat).toNat
    let l := (List.range n.toNat).map fun j => w / 32 ^ j % 32
    (c.s.inGang c.uid c.k = true → exec (.gang n a) c.s = .next (c.wait .block))
    ∧ (c.s.inGang c.uid c.k = false → n = 0 →
      exec (.gang n a) c.s = .next (c.put { c.rope with gangReg := 0, stack := c.past 8 }))
    ∧ (c.s.inGang c.uid c.k = false → n ≠ 0 →
      (w < 32 ^ n.toNat → l.Nodup → c.k ∈ l → (∀ x ∈ l, x < c.party.ropes.length) →
        ∃ g, exec (.gang n a) c.s = .next (c.put { c.rope with gangReg := g, stack := c.past 8 })
          ∧ g.toNat / 2 ^ 29 = n.toNat ∧ Rope.gangList { c.rope with gangReg := g } c.k = l)
      ∧ ((32 ^ n.toNat ≤ w ∨ ¬l.Nodup ∨ c.k ∉ l ∨ ∃ x ∈ l, c.party.ropes.length ≤ x) →
        exec (.gang n a) c.s = .next (c.trap .gangMismatch c.entry.mask 0))))
    ∧ (∀ (c : Ctx) (i : Instr), c.s.ctx? = some c → i.wf = true →
    ((∃ o, i = .mma o) ∨ (∃ o ns, i = .mmas o ns) ∨ (∃ z x d a b, i = .mmb z x d a b) ∨ (∃ o x st, i = .mmf o x st)) →
    let ceased := decide (c.s.fw.pcap < (gangOp i).pam1.toNat + 1 ∨ c.s.fw.pcap < (gangOp i).pbm1.toNat + 1)
      && (match i with
        | .mmb _ _ _ _ _ => false
        | _ => true)
    (c.entry.mask ≠ 0xFFFFFFFF → exec i c.s = .next (c.trap .partialMask c.entry.mask c.entry.mask.toNat))
    ∧ (c.entry.mask = 0xFFFFFFFF → c.rope.gangReg.toNat / 2 ^ 29 = 0 → exec i c.s = .next (c.trap .gangMismatch c.entry.mask 0))
    ∧ (c.entry.mask = 0xFFFFFFFF → c.rope.gangReg.toNat / 2 ^ 29 ≠ 0 → ceased = true →
      exec i c.s = .next (c.trap .precisionCapped c.entry.mask c.s.fw.pcap))
    ∧ (c.entry.mask = 0xFFFFFFFF → c.rope.gangReg.toNat / 2 ^ 29 ≠ 0 → ceased = false → exec i c.s = .next (c.wait (.latch i))))

/-- With all 32 lanes in the slot, accz leaves every register of its blocks zero and not DIRTY, or released: poisoned, not
VALID, not DIRTY; every other register stands. accq, with no block in flight and no partial on its way, leaves the number of
dropped partials in its uniform and starts it afresh; it waits for either. accw, its 32 row accesses free to go, stores each
lane's 32 converted elements at its row and no other byte, ORs the conversions' flags, and clears DIRTY of the block, or
releases it: poisoned, neither VALID nor DIRTY. Of the model's choices it uses log 66. (11_matrix_engine.md R261,
11_matrix_engine.md R262, 11_matrix_engine.md R263, 11_matrix_engine.md R254) -/
def Obligations.Accumulators : Prop :=
  ∀ (c : Ctx), c.s.ctx? = some c →
    (∀ rel nm1 d, Instr.wf (.accz rel nm1 d) = true → c.entry.mask = 0xFFFFFFFF →
      ∃ r, exec (.accz rel nm1 d) c.s = .next (c.put r) ∧ blockFilled c.rope d.toNat (nm1.toNat + 1) (if rel then regPoison else 0) r
        ∧ (∀ b, b < 8 → r.accDirty.getLsbD b = (c.rope.accDirty.getLsbD b && !(decide (d.toNat ≤ 32 * b) && decide (32 * b ≤ d.toNat + 32 * nm1.toNat))))
        ∧ (∀ b, b < 8 → r.accValid.getLsbD b = if d.toNat ≤ 32 * b ∧ 32 * b ≤ d.toNat + 32 * nm1.toNat then !rel else c.rope.accValid.getLsbD b)
        ∧ r.stack = c.past 8 ∧ r.unif = c.rope.unif ∧ r.preds = c.rope.preds ∧ r.flags = c.rope.flags ∧ r.fpst = c.rope.fpst
        ∧ r.accInfl = c.rope.accInfl)
    ∧ (∀ d, Instr.wf (.accq d) = true →
      (c.rope.accInfl ≠ 0 → exec (.accq d) c.s = .next (c.wait .block))
      ∧ (c.rope.accInfl = 0 → c.rope.farOut ≠ 0 → exec (.accq d) c.s = .next (c.wait .accq))
      ∧ (c.rope.accInfl = 0 → c.rope.farOut = 0 → Does c (.accq d) { RopeEffect.idle c 8 with
          once := { regs := [(d.toNat, BitVec.ofNat 32 (min c.rope.farDropped (2 ^ 32 - 1)))] }, base := { c.rope with farDropped := 0 } }))
    ∧ ∀ o, Instr.wf (.accw o) = true → c.entry.mask = 0xFFFFFFFF → c.accMay o = true →
      ∃ t r, exec (.accw o) c.s = .next t ∧ t.parties = (c.put r).parties.map (fun p => p.after (extents (c.accRows o)))
        ∧ (∀ a, t.byte a = storedBytes c.s.byte (c.accRows o) a) ∧ (∀ a, t.tagAt a = storedTags c.s.tagAt (c.accRows o) a)
        ∧ t.poison = c.s.poison ∧ t.asideMem c.s
        ∧ r.fpst = c.rope.fpst ||| flagsOver 0xFFFFFFFF (fun l => (List.range 32).foldl (fun f j => f ||| (accElement o c.rope l j).flags) 0)
        ∧ (∀ l j, l < 32 → j < 256 → r.x l j =
            if (o.rel = true ∧ o.d.toNat ≤ j ∧ j < o.d.toNat + 32) ∨ usedUp [(o.a, 4)] j = true then regPoison else c.rope.x l j)
        ∧ (∀ b, b < 8 → r.accDirty.getLsbD b = (c.rope.accDirty.getLsbD b && decide (b ≠ o.d.toNat / 32)))
        ∧ (o.rel = true → r.accValid.getLsbD (o.d.toNat / 32) = false)
        ∧ (∀ b, b < 8 → (o.a.h ≠ .last ∨ o.a.r.toNat / 32 ≠ b) → (o.rel = false ∨ b ≠ o.d.toNat / 32) →
            r.accValid.getLsbD b = c.rope.accValid.getLsbD b)
        ∧ r.stack = c.past 12 ∧ r.unif = c.rope.unif ∧ r.preds = c.rope.preds ∧ r.flags = c.rope.flags ∧ r.accInfl = c.rope.accInfl

/-- With all 32 lanes in the slot and every check of the card passed, cpy, cpyc of a command block that can be read, and ldm
append exactly one job of the die, with the copy or tile that the operands describe, its footprints, captured capabilities and
cairn incarnation, write its id where JD asks, release the rope's writes to it and advance the PC; memory is unchanged. With no
card free for the party or on its die cpy and cpyc wait with the cairn captured, which the job then names, and ldm waits while
its core's unit holds 16. Of the model's choices it uses logs 24, 25, 40, 63. (12_copy_engine.md R265, 12_copy_engine.md R266,
12_copy_engine.md R268, 12_copy_engine.md R269, 12_copy_engine.md R271, 12_copy_engine.md R274, 11_matrix_engine.md R250,
11_matrix_engine.md R251) -/
def Obligations.CopyAndLoadJobs : Prop :=
  ∀ (c : Ctx), c.s.ctx? = some c → c.entry.mask = 0xFFFFFFFF →
    let die := dieOf c.party.core
    (∀ o, Instr.wf (.cpy o) = true →
      let l := c.rope.layout o.a.toNat
      let q := c.rope.quad 0 o.b.r.toNat
      let view := !o.st && isView (capBase q + l.off)
      let w := (copyWidth l.fmt l.planes).getD 1
      let z := ((l.rows - 1) * l.stride + l.cols) * (if view then 32 else w)
      let span : Foot := ⟨none, capBase q + l.off, capBase q + l.off + z⟩
      let scr : Foot := ⟨some c.uid, l.dst, l.dst + l.rows * l.cols * w⟩
      l.copyBad view = false → passes (c.zeroSteps o.b.r.toNat (if o.st then pST else if view then pVIEW else pLD) l.off z
        (if l.fmt = 0x30 then 4 else w)) → passes (c.party.scratchSteps l.dst (l.rows * l.cols * w)) → c.party.cairnCheck l.cairn = none →
      (c.s.cardsFull c.uid die = true → ∃ t, exec (.cpy o) c.s = .next t ∧ c.awaitsCard (some l.cairn) t)
      ∧ (c.s.cardsFull c.uid die = false → ∃ t, exec (.cpy o) c.s = .next t ∧ Starts c 8 [(o.b, 4)] o.jd
          ⟨.copy (l.plan o.st view w (if view then 32 else w) (capBase q + l.off) q), if o.st then [scr] else [span],
            if o.st then [span] else [scr], [q], some l.cairn, o.post, false⟩ t))
    ∧ (∀ o, Instr.wf (.cpyc o) = true →
      let q := c.rope.quad 0 o.a.r.toNat
      let x := CmdBlock.ofBytes (c.s.bytes (capBase q) 64)
      let cairn := o.cairn.map BitVec.toNat
      passes (c.cmdSteps o.a.r.toNat) → capOtype q = 1 → c.readable 0 q 0 64 = true → x.bad = false →
      c.s.blockCheck c.party.colour x (c.s.tagAt (capBase q)) (c.s.tagAt (capBase q + 16)) = none → c.party.cairnStep cairn = none →
      (c.s.cardsFull c.uid die = true → ∃ t r, exec (.cpyc o) c.s = .next t ∧ t.parties = (c.put r).parties ∧ t.jobs = c.s.jobs
        ∧ (r.stack[c.pos]?).map (fun e => (e.pc, e.wait)) = some (c.entry.pc, some .jobCard) ∧ r.regs = c.rope.regs ∧ r.unif = c.rope.unif
        ∧ (c.rope.capt = none → r.capt = (c.cairnNow cairn).map fun y => (c.entry.pc, y)) ∧ t.sameMemory c.s)
      ∧ (c.s.cardsFull c.uid die = false → ∃ t, exec (.cpyc o) c.s = .next t ∧ Starts c 8 [(o.a, 4)] o.jd (x.issue cairn o.post) t))
    ∧ ∀ capok a b e, Instr.wf (.ldm capok a b) = true →
      let l := c.rope.layout a.toNat
      let q := c.rope.quad 0 b.r.toNat
      let view := isView (capBase q + l.off)
      let x := l.ldmPlan e (min l.planes c.s.fw.pcap) (capBase q + l.off) view q
      elemOf l.fmt = some e → l.ldmBadAs e view = false → (l.planes ≤ c.s.fw.pcap ∨ (capok = true ∧ e ≠ .plane)) →
      (c.ldmSteps b.r.toNat l x).all (fun y => !y.1) = true → passes (c.party.scratchSteps l.dst x.total) →
      c.party.cairnCheck l.cairn = none →
      (16 ≤ c.s.ldmJobs c.party.core → exec (.ldm capok a b) c.s = .next (c.wait .ldmSlot))
      ∧ (c.s.ldmJobs c.party.core < 16 → ∃ t, exec (.ldm capok a b) c.s = .next t ∧ Starts c 8 [(b, 4)] none
          ⟨.ldm x, ⟨none, x.base, x.base + x.span⟩ :: (if x.scaleSpan = 0 then [] else [⟨none, x.sbase, x.sbase + x.scaleSpan⟩]),
            [⟨some c.uid, l.dst, l.dst + x.total⟩], [q], some l.cairn, false, false⟩ t)

/-- With all 32 lanes in the slot: cring.off leaves the rope without a ring; cring with a sound descriptor, slot area and
geometry leaves it bound to them with the cairn's incarnation as it stands. cpyh with a sound ring and payload starts a low job
whose footprints are the payload, the whole slot area, PROD and COMMIT. snap with sound capabilities starts a job on the
package's one snapshot, not cut; while one runs it waits. Memory is unchanged. Of the model's choices it uses logs 24, 64.
(12_copy_engine.md R277, 12_copy_engine.md R278, 12_copy_engine.md R279, 12_copy_engine.md R280, 12_copy_engine.md R268) -/
def Obligations.RingsStreamsSnapshots : Prop :=
  ∀ (c : Ctx), c.s.ctx? = some c → c.entry.mask = 0xFFFFFFFF →
    let ring (d most : Nat) (x : RingRead) : Prop :=
      let q := c.rope.quad 0 d
      x = RingRead.ofBytes (c.s.bytes (capBase q) 64) (c.s.tagAt (capBase q)) ∧ passes (c.zeroSteps d (pLD + pST) 0 64 64)
        ∧ c.readable 0 q 0 64 = true ∧ passes (c.s.useSteps c.party.colour x.slots x.tag) ∧ capHas x.slots pST = true ∧ x.bad most = false
    exec (.cring .off) c.s = .next (c.put { c.rope with ring := none, stack := c.past 12 })
    ∧ (∀ a cairn x, Instr.wf (.cring (.bind a cairn)) = true → ring a.r.toNat 5 x → c.party.cairnStep (cairn.map BitVec.toNat) = none →
      ∃ t, exec (.cring (.bind a cairn)) c.s = .next t ∧ c.quiet { laneEffect c 12 c.entry.mask [(a, 4)] (fun _ => {}) with
        base := { c.rope with ring := some ⟨c.rope.quad 0 a.r.toNat, x.slots, BitVec.ofNat 32 x.geom, cairn.map BitVec.toNat,
          (cairn.map fun i => (c.party.cairn i.toNat).inc).getD 0, c.party.core⟩ } } t)
    ∧ (∀ o x, Instr.wf (.cpyh o) = true → ring o.d.toNat 20 x → c.party.cairnStep (o.cairn.map BitVec.toNat) = none →
      c.s.cardsFull c.uid (dieOf c.party.core) = false →
      let n := (c.rope.s o.c.toNat).toNat
      let off := (c.rope.s64 o.b.toNat).toNat
      let desc := c.rope.quad 0 o.d.toNat
      let cairn := o.cairn.map BitVec.toNat
      0 < n → n ≤ 2 ^ (x.geom % 256) →
      (∀ a, o.a = some a → passes (c.zeroSteps a.r.toNat pLD off n 1) →
        let q := c.rope.quad 0 a.r.toNat
        ∃ t, exec (.cpyh o) c.s = .next t ∧ Starts c 12 [(a, 4)] none (streamIssue ⟨false, capBase q + off, n, 1, q⟩
          ⟨none, capBase q + off, capBase q + off + n⟩ n x (capBase desc) [desc, x.slots, q] cairn o.post) t)
      ∧ (o.a = none → c.rope.s (o.b.toNat + 1) = 0 → passes (c.party.scratchSteps off n) →
        ∃ t, exec (.cpyh o) c.s = .next t ∧ Starts c 12 [] none (streamIssue ⟨true, off, n, 1, 0⟩ ⟨some c.uid, off, off + n⟩ n x
          (capBase desc) [desc, x.slots] cairn o.post) t))
    ∧ ∀ o, Instr.wf (.snap o) = true → passes (c.snapSteps o.a.r.toNat o.d.toNat) → c.party.cairnStep (o.cairn.map BitVec.toNat) = none →
      let qa := c.rope.quad 0 o.a.r.toNat
      let qd := c.rope.quad 0 o.d.toNat
      (c.s.snap ≠ none → ∃ t, exec (.snap o) c.s = .next t ∧ c.awaitsCard (o.cairn.map BitVec.toNat) t)
      ∧ (c.s.snap = none → c.s.cardsFull c.uid (dieOf c.party.core) = false → ∃ t, exec (.snap o) c.s = .next t
        ∧ Starts c 12 [(o.a, 4)] none ⟨.snap, [⟨none, capBase qa, capBase qa + capLen qa⟩], [⟨none, capBase qd, capBase qd + capLen qa⟩],
          [qa, qd], o.cairn.map BitVec.toNat, o.post, false⟩ t
        ∧ ∃ x, t.snap = some x ∧ x.cut = false ∧ x.src = capBase qa ∧ x.len = capLen qa ∧ x.dst = capBase qd ∧ x.saved = []
          ∧ x.copied = [] ∧ x.ahead = c.s.parts.length)

/-- rcard.off leaves no card of the launch and returns 1. rcard of a card that can be read returns 0 and leaves exactly that
card installed for the launch, 2 for bytes that are no card of R291, 3 without room, with the store as it was. wpt without a
card, or past its waypoints, only advances the PC; otherwise it records the waypoint and advances when every NEED entry of it is
resident, else it traps WAYPOINT_MISS with the first such entry in WPTMISS. Of the model's choices it uses logs 24, 65.
(13_tiers_and_route_cards.md R291, 13_tiers_and_route_cards.md R293, 13_tiers_and_route_cards.md R294,
13_tiers_and_route_cards.md R295) -/
def Obligations.RouteCards : Prop :=
  ∀ (c : Ctx), c.s.ctx? = some c →
    let mine : RouteCard → Bool := fun x => x.launch != c.party.launch
    let status (d : BitVec 8) (used : List (RSrc × Nat)) (v : Nat) (t : State) : Prop := ∃ p r b, t.party? c.uid = some p
      ∧ p.ropes[c.k]? = some r ∧ b.orderOnly { c.rope with lastWpt := b.lastWpt }
      ∧ EffectRope c { laneEffect c 12 c.entry.mask used (fun _ => {}) with once := { regs := [(d.toNat, BitVec.ofNat 32 v)] }, base := b } r
    (∀ d, Instr.wf (.rcard .off d) = true → ∃ t, exec (.rcard .off d) c.s = .next t ∧ t.cards = c.s.cards.filter mine ∧ status d [] 1 t
      ∧ t.sameMemory c.s)
    ∧ (∀ a b d, Instr.wf (.rcard (.install a b) d) = true → c.entry.mask ≠ 0 →
      let l := firstLane c.entry.mask.getLsbD
      let q := c.rope.quad l a.r.toNat
      let off := (c.rope.s64 b.toNat).toNat
      let hdr := c.s.bytes (capBase q + off) 32
      let z := hdrBytes hdr
      c.laneMay a pLD 32 32 (off : Int) l = true → c.readable l q off 32 = true →
      (headerOk hdr = false → ∃ t, exec (.rcard (.install a b) d) c.s = .next t ∧ status d [(a, 4)] 2 t ∧ t.cards = c.s.cards
        ∧ t.sameMemory c.s)
      ∧ (headerOk hdr = true → off + z ≤ capLen q → c.readable (32 + l) q off z = true →
        ∃ t, exec (.rcard (.install a b) d) c.s = .next t ∧ t.sameMemory c.s
          ∧ match cardOf c.party.launch c.party.colour (c.s.bytes (capBase q + off) z) with
            | none => status d [(a, 4)] 2 t ∧ t.cards = c.s.cards
            | some x =>
              if c.s.cardRoom x then status d [(a, 4)] 0 t ∧ t.cards = c.s.cards.filter mine ++ [x]
              else status d [(a, 4)] 3 t ∧ t.cards = c.s.cards))
    ∧ ∀ w, Instr.wf (.wpt w) = true →
      let n := match w with
        | .imm n => n.toNat
        | .unif r => (c.rope.s r.toNat).toNat % 2 ^ 16
      ((c.s.card? c.party.launch).all (fun x => decide (x.w ≤ n)) = true → Does c (.wpt w) (RopeEffect.idle c 8))
      ∧ ∀ x, c.s.card? c.party.launch = some x → n < x.w →
        let r := { c.rope with lastWpt := some n }
        match (x.at n).find? (fun e => decide (e.2.act = 0) && !(c.s.entryResident e.2)) with
        | none => ∃ t, exec (.wpt w) c.s = .next t ∧ t.parties = (c.put { r with stack := c.past 8 }).parties
            ∧ { t with parties := c.s.parties, asks := c.s.asks } = c.s
        | some e => ∃ s', exec (.wpt w) c.s = .next ({ c with s := s', rope := { r with
              wptmiss := BitVec.ofNat 64 (n * 2 ^ 48 + e.2.page * 2 ^ 21 + e.1 * 8) } }.trap .waypointMiss c.entry.mask n)
            ∧ { s' with parties := c.s.parties, asks := c.s.asks } = c.s

/-- resq whose active lanes pass its checks leaves in each the status word of its page and changes nothing else. rpin with no
active lane only advances the PC. Otherwise, for n pages from the lowest active lane's: unpin drops exactly the launch's records
of them and returns their number; pin and try, with the colour's quota exceeded, return all ones and change nothing; else with
every page accessible they add a record for each far page without one and return the pages that are pinned or near, and for try
0. Of the model's choices it uses logs 37, 38, 58. (13_tiers_and_route_cards.md R296, 13_tiers_and_route_cards.md R297) -/
def Obligations.PageQueriesAndPins : Prop :=
  ∀ (c : Ctx) (m : SpanOp) (d : BitVec 8), c.s.ctx? = some c →
    (Instr.wf (.resq m d) = true → (∀ l ∈ lanesOf (c.active m.g), c.pageMay m l = true) →
      Does c (.resq m d) (laneEffect c 12 (c.active m.g) (hintedSpan m) fun l =>
        { regs := [(d.toNat, (c.s.pageBits (c.reach m.a (c.offset m l) l)).setWidth 32)] }))
    ∧ ∀ op x, Instr.wf (.rpin op m d x) = true →
      let l := firstLane (c.active m.g).getLsbD
      let q := c.rope.quad l m.a.r.toNat
      let n := (c.rope.x l x.r.toNat).toNat
      let first := c.reach m.a (c.offset m l) l / 2 ^ 21
      let pages := (List.range n).map (first + ·)
      let new := pages.filter fun q => c.s.farPage q && !(c.s.pinned c.party.launch q)
      let held := c.s.pins.countP fun p => p.colour == c.party.colour
      let out (v : Nat) : RopeEffect := laneEffect c 12 (c.active m.g) (hintedSpan m ++ [(x, 1)]) fun _ => { regs := [(d.toNat, BitVec.ofNat 32 v)] }
      (c.active m.g = 0 → Does c (.rpin op m d x) (RopeEffect.idle c 12))
      ∧ (c.active m.g ≠ 0 → c.pageMay m l = true → 0 < n → n ≤ 512 → first * 2 ^ 21 + (n - 1) * 2 ^ 21 < capBase q + capLen q →
        (∀ q ∈ pages, (c.entry.pc, q) ∉ c.rope.lostPages) →
        (op = .unpin → ∃ t, exec (.rpin op m d x) c.s = .next t
          ∧ c.quiet (out (c.s.pins.countP fun p => p.launch == c.party.launch && pages.elem p.page)) t
          ∧ t.pins = c.s.pins.filter fun p => !(p.launch == c.party.launch && pages.elem p.page))
        ∧ (op ≠ .unpin → new ≠ [] → SMap.get 0 c.s.quota c.party.colour < held + new.length →
          ∃ t, exec (.rpin op m d x) c.s = .next t ∧ c.quiet (out (2 ^ 32 - 1)) t ∧ t.pins = c.s.pins)
        ∧ (op ≠ .unpin → (new = [] ∨ held + new.length ≤ SMap.get 0 c.s.quota c.party.colour) → (∀ q ∈ pages, c.s.pageHere q = true) →
          ∃ t, exec (.rpin op m d x) c.s = .next t ∧ c.quiet (out (if op = .pin then n else 0)) t
            ∧ t.pins = c.s.pins ++ new.map fun q => ⟨c.party.launch, c.party.colour, q⟩))

/-- spawn with no active lane returns 0xFFFFFFFE. With sound frame and join quads in this package's memory: a bad descriptor
returns 0xFFFFFFFD and a full table with .nw 0xFFFFFFFF, the launch's records as they were; without .nw the slot waits. A plain
spawn appends to the launch a record with the lowest free id, the entry, all its parties still to place and the frame quad, and
returns that id; spawn.hold does so when the join word awaits nothing, returns 0xFFFFFFFC when another record is held there, and
else appends the record held on that word and puts the id in HOLD. A launch that has lost parties with a die takes no record
(log 108). joinc with no active lane only advances the PC. With a sound quad in this package's memory it returns in every active
lane the COUNT that it read; COUNT 0 leaves the word, 1 leaves it zero, more leaves COUNT less one and HOLD; no other byte
changes; when COUNT was 1 and HOLD named a record held on this word, that record joins its launch's list, held no more (or is
gone, when the launch has lost parties with a die); else every launch keeps its records. Of the model's choices it uses log 70.
(15_queues_graphs_launch.md R331, 15_queues_graphs_launch.md R330, 15_queues_graphs_launch.md R326, 15_queues_graphs_launch.md
R332) -/
def Obligations.SpawnsAndJoins : Prop :=
  (∀ (c : Ctx) (o : SpawnOp), c.s.ctx? = some c → Instr.wf (.spawn o) = true →
    let i : Instr := .spawn o
    let l := firstLane (c.active o.g).getLsbD
    let at' := c.joinWordAt o l
    let v := bytesAt c.s.byte at' 8
    let put (status : Nat) (t : State) : Prop := c.holds { laneEffect c 12 (c.active o.g) [(o.a, 4), (o.b, 4)] (fun _ => {}) with
      once := { regs := [(o.d.toNat, BitVec.ofNat 32 status)] } } t
    let gone := (c.s.launch? c.party.launch).any Launch.dieLost
    let records (s : State) : List ContRec := ((s.launch? c.party.launch).map Launch.records).getD []
    let made (id : Nat) (held : Bool) (t : State) : Prop := ∃ r, records t = records c.s ++ (if gone then [] else [r]) ∧ r.id = id
      ∧ r.entry = (c.rope.s o.c.toNat).toNat % 65536 ∧ r.next = 0 ∧ r.hi = (c.rope.s (o.c.toNat + 1)).toNat
      ∧ r.frame = .captured (c.rope.quad l o.a.r.toNat) true ∧ r.held = held ∧ r.join = if held then some at' else none
    (c.active o.g = 0 → Does c i { RopeEffect.idle c 12 with once := { regs := [(o.d.toNat, 0xFFFFFFFE)] } })
    ∧ (c.active o.g ≠ 0 → c.unmarked →
      (c.spawnBad o = true → c.spawnMay o l false = true →
        ∃ t, exec i c.s = .next t ∧ put 0xFFFFFFFD t ∧ records t = records c.s ∧ t.sameMemory c.s)
      ∧ (c.spawnBad o = false → c.s.freeRecord = none → c.spawnMay o l false = true →
        (o.nw = true → ∃ t, exec i c.s = .next t ∧ put 0xFFFFFFFF t ∧ records t = records c.s ∧ t.sameMemory c.s)
        ∧ (o.nw = false → ∃ t r, exec i c.s = .next t ∧ t.parties = (c.put r).parties ∧ records t = records c.s ∧ t.sameMemory c.s
          ∧ (r.stack[c.pos]?).map Entry.wait = some (some .recordSlot) ∧ r.regs = c.rope.regs ∧ r.unif = c.rope.unif))
      ∧ ∀ id, c.spawnBad o = false → c.s.freeRecord = some id → c.spawnMay o l o.hold = true →
        (o.hold = false ∨ v % 2 ^ 32 = 0 → ∃ t, exec i c.s = .next t ∧ put id t ∧ made id false t ∧ t.sameMemory c.s)
        ∧ (o.hold = true → v % 2 ^ 32 ≠ 0 → v / 2 ^ 32 ≠ 0 →
          ∃ t, exec i c.s = .next t ∧ put 0xFFFFFFFC t ∧ records t = records c.s ∧ t.sameMemory c.s)
        ∧ (o.hold = true → v % 2 ^ 32 ≠ 0 → v / 2 ^ 32 = 0 → ∃ t, exec i c.s = .next t
          ∧ c.holdsPast [(at', 8)] { laneEffect c 12 (c.active o.g) [(o.a, 4), (o.b, 4)] (fun _ => {}) with
            once := { regs := [(o.d.toNat, BitVec.ofNat 32 id)] } } t
          ∧ made id true t ∧ ∀ a, t.byte a = putAt c.s.byte at' 8 (v + (id + 1) * 2 ^ 32) a)))
    ∧ (∀ (c : Ctx) (o : JoincOp), c.s.ctx? = some c → Instr.wf (.joinc o) = true →
    let i : Instr := .joinc o
    let l := firstLane (c.active o.g).getLsbD
    let q := c.rope.quad l o.a.r.toNat
    let off := c.joincAt o l
    let at' := c.reach o.a off l
    let v := bytesAt c.s.byte at' 8
    let count := v % 2 ^ 32
    let acc : Acc := ⟨l, off, at', 8, capHas q pCHECKED⟩
    (c.active o.g = 0 → Does c i (RopeEffect.idle c 8))
    ∧ (c.active o.g ≠ 0 → c.resumed = false → c.laneMay o.a (pATOM + pLD + pST) 8 8 off l = true → c.clear true true true acc = true →
      c.frames [acc] = true →
      ∃ t, exec i c.s = .next t ∧ c.holdsPast [(at', 8)] (laneEffect c 8 (c.active o.g) ((o.a, 4) :: (o.b.toList.map fun b => (b, 1))) fun _ =>
          { regs := [(o.d.toNat, BitVec.ofNat 32 count)] }) t
        ∧ (∀ a, t.byte a = putAt c.s.byte at' 8 (if count = 0 then v else if count = 1 then 0 else v - 1) a)
        ∧ t.poison = c.s.poison
        ∧ (∀ x r, count = 1 → v / 2 ^ 32 ≠ 0 → c.s.heldOn (v / 2 ^ 32 - 1) at' = some (x, r) → (c.s.launches.map Launch.id).Nodup →
          ∃ y r', t.launch? x.id = some y ∧ y.records = x.records.filter (fun z => z.id != r.id) ++ (if x.dieLost then [] else [r'])
            ∧ r' = { r with held := false, know := r'.know })
        ∧ ((count ≠ 1 ∨ v / 2 ^ 32 = 0 ∨ c.s.heldOn (v / 2 ^ 32 - 1) at' = none) → t.launches = c.s.launches)))

/-- qpush with no active lane returns 3; for a queue that its colour may not push to, 2; with the ring full, 1; else the 64
bytes stand in the ring's next slot, TAIL has risen by one, it returns 0. A command in a routed peer's memory is asked for
first, and the slot waits; its answer is pushed, or traps POISON_CONSUMED. gcond in a launch that no graph node started clears
its flag; in a graph's run it sets the flag and stores or ORs its value into word n of the run and leaves the other words. Of
the model's choices it uses logs 42, 81. (15_queues_graphs_launch.md R338, 15_queues_graphs_launch.md R337,
18_fabric_collectives_pool.md R375) -/
def Obligations.QueuePushesAndConditions : Prop :=
  ∀ (c : Ctx), c.s.ctx? = some c →
    (∀ o, Instr.wf (.qpush o) = true →
      let i : Instr := .qpush o
      let q := (c.rope.s o.a.toNat).toNat
      let r := c.s.queue q
      let slot := r.ring + 64 * (r.tail % 2 ^ r.rsize)
      let put (status : Nat) (t : State) : Prop := c.holds { laneEffect c 12 (c.active o.g) (o.c.toList.map fun x => (x, 4)) (fun _ => {}) with
        once := { regs := [(o.d.toNat, BitVec.ofNat 32 status)] } } t
      (c.active o.g = 0 → Does c i { RopeEffect.idle c 12 with once := { regs := [(o.d.toNat, 3)] } })
      ∧ ∀ b, c.active o.g ≠ 0 → c.pushBytes o = some b →
        (c.s.pushOk q c.party.colour = false → ∃ t, exec i c.s = .next t ∧ put 2 t ∧ t.sameMemory c.s ∧ t.queues = c.s.queues)
        ∧ (c.s.pushOk q c.party.colour = true → r.head + 2 ^ r.rsize ≤ r.tail →
          ∃ t, exec i c.s = .next t ∧ put 1 t ∧ t.sameMemory c.s ∧ t.queues = c.s.queues)
        ∧ (c.s.pushOk q c.party.colour = true → r.tail < r.head + 2 ^ r.rsize → c.s.backedAt slot = true →
          c.s.backedAt (slot + 63) = true → c.s.pushShut q = [] →
          ∃ t, exec i c.s = .next t
            ∧ c.holdsPast [(slot, 64)] { laneEffect c 12 (c.active o.g) (o.c.toList.map fun x => (x, 4)) (fun _ => {}) with
              once := { regs := [(o.d.toNat, 0)] } } t ∧ (t.queue q).tail = r.tail + 1 ∧ (t.queue q).head = r.head
            ∧ (∀ a, t.byte a = if slot ≤ a ∧ a < slot + 64 then b.getD (a - slot) 0 else c.s.byte a)))
    ∧ (∀ o x, Instr.wf (.qpush o) = true → o.c = some x → c.active o.g ≠ 0 →
      let i : Instr := .qpush o
      let l := firstLane (c.active o.g).getLsbD
      let m : Word := laneSet (fun j => decide (j = l))
      let off (_ : Nat) : Int := ((c.rope.s64 o.b.toNat).toNat : Int)
      let q := (c.rope.s o.a.toNat).toNat
      let r := c.s.queue q
      let slot := r.ring + 64 * (r.tail % 2 ^ r.rsize)
      (c.resumed = false → c.peerMay m x off pLD 64 = true → ∃ t, exec i c.s = .next t
        ∧ t.sent c.s (c.requests m x off (fun _ => .load 64) (fun l => .lane c.uid c.k l c.entry.pc))
        ∧ t.parties = (c.put (c.awaits i 1)).parties)
      ∧ (c.heardAll m x off = true → c.unheard m = 0 → c.s.pushOk q c.party.colour = true → r.tail < r.head + 2 ^ r.rsize →
        c.s.backedAt slot = true → c.s.backedAt (slot + 63) = true → c.s.pushShut q = [] →
        ∃ t p y, exec i c.s = .next t ∧ t.party? c.uid = some p ∧ p.ropes[c.k]? = some y ∧ y.s o.d.toNat = 0
          ∧ y.stack = c.past 12 ∧ y.peerData = c.rope.peerData.filter (fun d => !(c.mine d)) ∧ (t.queue q).tail = r.tail + 1
          ∧ (((c.heardBy l).map fun d => d.bytes.length) = some 64 → t.bytes slot 64 = ((c.heardBy l).map PeerData.bytes).getD [])
          ∧ ∀ a, (a < slot ∨ slot + 64 ≤ a) → t.byte a = c.s.byte a)
      ∧ (c.heardAll m x off = true → c.unheard m ≠ 0 → exec i c.s = .next (c.clearLost.trapsAt .poisonConsumed m off)))
    ∧ ∀ or n d a, Instr.wf (.gcond or n d a) = true →
      let i : Instr := .gcond or n d a
      let v := (c.rope.s a.toNat).toNat
      (c.s.nodeOf c.party = none → Does c i { RopeEffect.idle c 8 with once := { preds := [(d.toNat, false)] } })
      ∧ ∀ h node g r, c.s.nodeOf c.party = some (h, node) → c.s.graph? h = some g → g.run = some r →
        ∃ t g' r', exec i c.s = .next t ∧ c.quiet { RopeEffect.idle c 8 with once := { preds := [(d.toNat, true)] } } t
          ∧ t.graph? h = some g' ∧ g'.run = some r' ∧ r'.counters = r.counters ∧ r'.running = r.running
          ∧ ∀ w, SMap.get 0 r'.words w = if w = n.toNat then (if or then Nat.lor (SMap.get 0 r.words w) v else v)
            else SMap.get 0 r.words w

/-- delg with no active lane returns 0xFFFFFFFD; a device that does not exist, is this one or has no route returns 0xFFFFFFFE,
no free record 0xFFFFFFFF. Else the lowest free record holds the capability and the peer, an entry waits for the answer, the
rope has released what it did, and the slot waits on that record; when the answer has come, delg returns it and the entry is
gone. A quad that is untagged traps CAP_TAG, one that is tagged and not sealed with type 1 CAP_SEALED. With all 32 lanes in the
slot, a sealed capability of object type 2 that passes the checks, a sound cairn and a card free, cpyc appends one job without
footprint that runs at the device named in the handle's header, sends that device the 48 bytes with the colour and the job's id,
and advances the PC; with no card free it waits with the cairn captured; memory is unchanged. Of the model's choices it uses
logs 24, 90. (18_fabric_collectives_pool.md R381, 18_fabric_collectives_pool.md R378, 18_fabric_collectives_pool.md R383,
12_copy_engine.md R274) -/
def Obligations.FabricCards : Prop :=
  (∀ (c : Ctx) (g : Guard) (d : BitVec 8) (a : RSrc) (b : BitVec 8), c.s.ctx? = some c → Instr.wf (.delg g d a b) = true →
    let i : Instr := .delg g d a b
    let l := firstLane (c.active g).getLsbD
    let p := (c.rope.s b.toNat).toNat
    let put (status : Nat) (t : State) : Prop := c.quiet { laneEffect c 12 (c.active g) [(a, 4)] (fun _ => {}) with
      once := { regs := [(d.toNat, BitVec.ofNat 32 status)] } } t
    (c.active g = 0 → ∃ t, exec i c.s = .next t ∧ put 0xFFFFFFFD t ∧ t.delgs = c.s.delgs)
    ∧ (∀ w v, c.active g ≠ 0 → c.delgAnswer = some (w, v) → ∃ t, exec i c.s = .next t ∧ put v t
      ∧ t.delgWaits = c.s.delgWaits.filter fun x => x.id != w.id)
    ∧ (c.active g ≠ 0 → c.delgAnswer = none → c.delgMay a l = true →
      (127 < p ∨ p = c.s.device → ∃ t, exec i c.s = .next t ∧ put 0xFFFFFFFE t ∧ t.delgs = c.s.delgs)
      ∧ (p ≤ 127 → p ≠ c.s.device →
        (c.s.freeDelgIndex = none → ∃ t, exec i c.s = .next t ∧ put 0xFFFFFFFF t ∧ t.delgs = c.s.delgs)
        ∧ ∀ e, c.s.freeDelgIndex = some e →
          (c.s.routed p = false → ∃ t, exec i c.s = .next t ∧ put 0xFFFFFFFE t ∧ t.delgs = c.s.delgs)
          ∧ (c.s.routed p = true → ∃ t, exec i c.s = .next t ∧ t.parties = (c.put { c.rope with
                rel := c.rope.rel + 1, stack := c.rope.stack.modify c.pos fun z => { z with wait := some (.delg e) } }).parties
            ∧ t.sameMemory c.s
            ∧ (∃ y, (t.delgSlot e).body = some y ∧ y.cap = c.rope.quad l a.r.toNat ∧ y.peer = p)
            ∧ t.delgWaits.length = c.s.delgWaits.length + 1)))
    ∧ (c.active g ≠ 0 → c.delgAnswer = none → c.rope.tag l a.r.toNat = false →
      ∃ v, exec i c.s = .next ({ c with s := { c.s with fresh := c.s.fresh + 1 } }.trap .capTag (withBit 0 l true) v))
    ∧ (c.active g ≠ 0 → c.delgAnswer = none → c.rope.tag l a.r.toNat = true → capOtype (c.rope.quad l a.r.toNat) ≠ 1 →
      ∃ v, exec i c.s = .next ({ c with s := { c.s with fresh := c.s.fresh + 1 } }.trap .capSealed (withBit 0 l true) v)))
    ∧ (∀ (c : Ctx) (o : CpycOp), c.s.ctx? = some c → Instr.wf (.cpyc o) = true → c.entry.mask = 0xFFFFFFFF → c.resumed = false →
    let q := c.rope.quad 0 o.a.r.toNat
    let wire := c.s.handleWire q
    let dev := leNat (wire.take 8) / 2 ^ 56 % 128
    passes (c.cmdSteps o.a.r.toNat) → capOtype q = 2 → c.party.cairnStep (o.cairn.map BitVec.toNat) = none →
    c.s.poisoned (capBase q) 64 = false →
    (c.s.cardsFull c.uid (dieOf c.party.core) = true → ∃ t, exec (.cpyc o) c.s = .next t ∧ c.awaitsCard (o.cairn.map BitVec.toNat) t)
    ∧ (c.s.cardsFull c.uid (dieOf c.party.core) = false →
    ∃ t j r, exec (.cpyc o) c.s = .next t ∧ t.jobs = c.s.jobs ++ [j] ∧ (∃ since, j.kind = .handle dev wire since) ∧ j.reads = [] ∧ j.writes = []
      ∧ t.wire = .invoke dev wire c.party.colour j.id :: c.s.wire ∧ t.parties = (c.put r).parties ∧ r.stack = c.past 8
      ∧ r.rel = c.rope.rel + 1 ∧ (∀ d, o.jd = some d → r.s d.toNat = BitVec.ofNat 32 j.id) ∧ t.sameMemory c.s))

/-- With all 32 lanes in the slot: coll that names no plan of its colour, or one with another number of bases, returns
0xFFFFFFFF and starts nothing. With base quads that pass, a sound cairn and a card free, it appends one job and one replay of
the plan that has not started, with the base quads captured, returns the plan's next number, and the plan's number rises by one
modulo 2^31; with no card free it waits. Of the model's choices it uses log 24. (18_fabric_collectives_pool.md R392,
18_fabric_collectives_pool.md R386) -/
def Obligations.CollectiveCards : Prop :=
  ∀ (c : Ctx) (o : CollOp), c.s.ctx? = some c → Instr.wf (.coll o) = true → c.entry.mask = 0xFFFFFFFF →
    let i : Instr := .coll o
    let h := (c.rope.s o.a.toNat).toNat
    let quads := (List.range (o.nm1.toNat + 1)).map fun j => c.rope.quad 0 (o.b.toNat + 4 * j)
    ((c.s.plan? c.party.colour h).all (fun p => decide (p.bases.length ≠ o.nm1.toNat + 1)) = true →
      Does c i { RopeEffect.idle c 16 with once := { regs := [(o.d.toNat, 0xFFFFFFFF)] } })
    ∧ ∀ p, c.s.plan? c.party.colour h = some p → p.bases.length = o.nm1.toNat + 1 → passes (c.baseSteps p o.b.toNat) →
      c.party.cairnStep (o.cairn.map BitVec.toNat) = none →
      (c.s.cardsFull c.uid (dieOf c.party.core) = true → ∃ t, exec i c.s = .next t ∧ c.awaitsCard (o.cairn.map BitVec.toNat) t)
      ∧ (c.s.cardsFull c.uid (dieOf c.party.core) = false → ∃ t r j x, exec i c.s = .next t ∧ t.parties = (c.put r).parties
        ∧ r.s o.d.toNat = BitVec.ofNat 32 p.next ∧ (∀ n, n ≠ o.d.toNat → r.s n = c.rope.s n) ∧ r.regs = c.rope.regs ∧ r.stack = c.past 16
        ∧ t.jobs = c.s.jobs ++ [j] ∧ j.kind = .replay c.s.replayCtr ∧ j.post = o.post
        ∧ t.replays = c.s.replays ++ [x] ∧ x.id = c.s.replayCtr ∧ x.plan = p.handle ∧ x.seq = p.next ∧ x.started = false
        ∧ x.caps = quads ∧ x.job = some j.id ∧ x.key = c.rope.s64 o.c.toNat ∧ x.ctr = c.rope.s64 (o.c.toNat + 2)
        ∧ t.plans = c.s.plans.map (fun y => if y.handle = p.handle then { y with next := (y.next + 1) % 2 ^ 31 } else y)
        ∧ t.sameMemory c.s)

/-- A slot at a retired major of the emulated length takes the cause of the emulation as a trap, or the first that its
capabilities fail, before any effect; parks on a far page; or, with its accesses free to go, takes the effect of the emulation
(a free value of the words, the rope's registers and the bytes read: log 11): lane state in its active lanes alone, its stores
in their order, the PC past it. At a block-skip word the PC moves to the next 32-byte block. A pair whose counter has reached 64
is boosted; a rest whose cycles have run out has ended. A line of the backing comes back to SRAM, its poison with it, and the
slots that wait for it issue again; a stash line that is not present becomes present when its page may be read, and else the
slots issue again; an access by another agent leaves a stash line clean, a write drops it. Nothing else of the machine changes.
Of the model's choices it uses logs 17, 22, 35, 97. (02_instruction_words.md R31, 02_instruction_words.md R38,
02_instruction_words.md R39, 02_instruction_words.md R40, 04_ropes_and_control.md R73, 04_ropes_and_control.md R92,
06_scratchpad.md R136, 06_scratchpad.md R138) -/
def Obligations.FetchIssueAndLineEvents : Prop :=
  ∀ (s : State),
    (∀ c bytes, s.ctx? = some c → s.fetchInstr c.party c.rope c.entry.pc = .retired bytes →
      let e := Config.emulation (c.emuIn bytes)
      let i := Instr.retiredOpcodeEmulation bytes
      (∀ x, e.cause = some x → exec i s = .next (c.trap x.1 (x.2.1 &&& c.entry.mask) x.2.2.toNat))
      ∧ (e.cause = none → c.resumed = false →
        (∀ x, checkLanes (lanesOf (e.active &&& c.entry.mask)) (fun n =>
            ((e.keyed c.entry.mask).filter fun y => y.2.lane == n).flatMap fun y => c.emuSteps e.write y.2) = some x →
          ∃ v, exec i s = .next (c.trap x.1 x.2 v))
        ∧ ((∀ y ∈ e.keyed c.entry.mask, firstCause (c.emuSteps e.write y.2) = none) → (c.emuAccs e).all (fun a => !a.peer) = true →
          (c.emuAccs e).any c.isLost = false →
          let shut := (c.emuAccs e).flatMap fun a => s.shutPages e.write a.addr a.n
          shut ≠ [] → ∃ t, exec i s = .next t ∧ t.sameMemory s
            ∧ t.parties = (c.put { c.rope with park := some ⟨c.entry.pc, shut.eraseDups, false, false, s.timer⟩ }).parties))
      ∧ (e.cause = none → c.emuMay e = true →
        let read := if e.write then [] else (c.emuAccs e).map fun a => s.bytes a.addr a.n
        ∃ t, exec i s = .next t ∧ SpanEffect c (emuEffect c bytes e (Config.emulated (c.emuIn bytes) read)) (extents (c.emuStores e))
          (storedBytes s.byte (c.emuStores e)) (storedTags s.tagAt (c.emuStores e)) t))
    ∧ (∀ c, s.ctx? = some c → s.fetchInstr c.party c.rope c.entry.pc = .skip → exec .blockSkipWord s = .next (c.put { c.rope with
        stack := c.rope.stack.modify c.pos fun e => { e with pc := BitVec.ofNat 48 (32 * (e.pc.toNat / 32 + 1)) } }))
    ∧ (∀ c uid k pos, s.ctxAt uid k pos = some c →
      (∃ t, exec (.waitCounterBoost uid k pos) s = .next t ∧ c.becomes t { c.rope with
        stack := c.rope.stack.modify pos fun e => { e with boost := e.boost || decide (64 ≤ e.counter) } })
      ∧ ∃ t, exec (.restEnd uid k pos) s = .next t ∧ c.becomes t { c.rope with
        stack := c.rope.stack.modify pos fun e => { e with rest := if e.rest = some 0 then none else e.rest } })
    ∧ ∀ uid line p, s.party? uid = some p →
      (NSet.has p.backed line = true → ∃ t q, exec (.pageRefill uid line) s = .next t ∧ t.onlyParty s uid ∧ t.party? uid = some q
        ∧ (∀ x, NSet.has q.backed x = (NSet.has p.backed x && decide (x ≠ line)))
        ∧ (∀ h, NSet.has q.spoison h = (NSet.has p.spoison h
          || ((decide (h = 2 * line) || decide (h = 2 * line + 1)) && NSet.has s.poison ((p.backingAt + 64 * h) / 64))))
        ∧ q.ropes.map Rope.stack = p.resumed (fun w => w == .refill line)
        ∧ { q with ropes := p.ropes, backed := p.backed, spoison := p.spoison } = p)
      ∧ (∀ a, p.stashAddr line = some a → NSet.has p.present line = false →
        ∃ t q, exec (.stashLineFill uid line) s = .next t ∧ t.onlyParty s uid ∧ t.party? uid = some q
          ∧ (∀ x, NSet.has q.present x = (NSet.has p.present x || (decide (x = line) && (s.shutPages false a 128).isEmpty)))
          ∧ q.ropes.map Rope.stack = p.resumed (fun w => w == .refill line) ∧ { q with ropes := p.ropes, present := p.present } = p)
      ∧ ∀ write, NSet.has p.present line = true → ∃ t q, exec (.stashForeignAccess uid line write) s = .next t ∧ t.onlyParty s uid
        ∧ t.party? uid = some q ∧ (∀ x, NSet.has q.dirty x = (NSet.has p.dirty x && decide (x ≠ line)))
        ∧ (∀ x, NSet.has q.present x = (NSet.has p.present x && !(write && decide (x = line))))
        ∧ { q with dirty := p.dirty, present := p.present } = p

/-- Dispatch starts the oldest ready normal job while fewer than eight engines run and, with low jobs about, fewer than seven
run normal ones, else the oldest ready low job; with all engines taken a low job at a 4 KiB boundary gives up its engine. The
next bytes of a copy, a view read included, land as a whole in memory or in scratch, each from its source element; the next
blocks of an ldm land in scratch; the same step counts them at the job's cairn when INC still matches. A copy whose far pages
are not resident moves nothing. A slot that waits for a card, with one free, issues again. A finished job whose accesses have
performed leaves the table; its record (FAULT with the first code, else DONE with REC) is posted to its rope's ring, a peer's
invocation is answered; a finished ldm frees its slot and wakes who waits. Of the model's choices it uses logs 9, 25, 59, 74.
(07_teams_barriers_cairns.md R161, 11_matrix_engine.md R248, 11_matrix_engine.md R251, 12_copy_engine.md R266, 12_copy_engine.md
R267, 12_copy_engine.md R270, 12_copy_engine.md R271, 14_memory_model.md R307, 18_fabric_collectives_pool.md R384) -/
def Obligations.JobEvents : Prop :=
  ∀ (s : State),
    (∀ die j, let run := s.engines die
      let ready := s.jobs.filter (s.jobReady die)
      let normals := (run.filter fun x => !x.low).length
      let lows := (run.filter fun x => x.low).length
      let runs (x y : Job) : Job := if y.id = x.id then { x with running := true } else y
      let started (t : State) (j : Job) : Prop := (∀ a b c, j.kind ≠ .stream a b c) →
        { t with buckets := s.buckets } = { s with jobs := s.jobs.map (runs j) }
      (run.length < 8 →
        (ready.find? (fun x => !x.low) = some j →
          (normals < 7 ∨ (normals < 8 ∧ lows = 0 ∧ ready.find? (fun x => x.low) = none) → ∃ t, exec (.copyJobDispatch die) s = .next t ∧ started t j)
          ∧ (7 ≤ normals → lows = 0 → ∀ l, ready.find? (fun x => x.low) = some l → ∃ t, exec (.copyJobDispatch die) s = .next t ∧ started t l))
        ∧ (ready.find? (fun x => !x.low) = none → ready.find? (fun x => x.low) = some j → ∃ t, exec (.copyJobDispatch die) s = .next t ∧ started t j)
        ∧ (ready = [] → exec (.copyJobDispatch die) s = .next s))
      ∧ (8 ≤ run.length → normals < 7 → ready.find? (fun x => !x.low) = some j →
        ∀ l, ((run.filter fun x => x.low).tail.find? fun x => decide (x.moved % 4096 < 16)) = some l → l.id ≠ j.id → (∀ a b c, j.kind ≠ .stream a b c) →
        ∃ t, exec (.copyJobDispatch die) s = .next t ∧ { t with buckets := s.buckets }
          = { s with jobs := s.jobs.map fun x => if x.id = j.id then { j with running := true } else if x.id = l.id then { l with running := false } else x }))
    ∧ (∀ id n j p, s.job? id = some j → j.kind = .copy p → j.running = true → j.ceased = false → 0 < n → 0 < p.w → j.moved % p.w = 0 →
      j.moved + n ≤ p.total → p.edgeAt (j.moved + n) = true → s.inQuantum j (j.moved + n) = true → s.snap = none → (p.view = true → p.w = 36) →
      let t0 := j.moved / p.w
      let t1 := (j.moved + n) / p.w
      let lands (t : State) : Prop := ∃ y, t.job? id = some y ∧ y.moved = j.moved + n ∧ y.written = j.written + n
      (s.jobShut j p t0 t1 ≠ [] → ∃ t, exec (.cairnArrival id n) s = .next t ∧ t.sameMemory s ∧ (t.job? id).map Job.moved = some j.moved)
      ∧ (s.jobShut j p t0 t1 = [] → j.needs p t0 t1 = [] →
        (p.dst.scratch = false → capHas p.dst.cap pSTCAP = false →
          (∀ x, t0 ≤ x → x < t1 → s.near (p.dst.at p x) p.w = true ∧ j.lostAt (p.dst.at p x) p.w = false) →
          ∃ t, exec (.cairnArrival id n) s = .next t ∧ lands t ∧ (∀ a, t.byte a = (s.movedTo j p t0 t1 a).getD (s.byte a))
            ∧ t.arrivedAt s j.cairn n)
        ∧ ∀ q, p.dst.scratch = true → s.jobParty j = some q →
          let word (o : Nat) : Bool := j.cairn.any fun c => c.uid == q.uid && decide (8 * c.idx ≤ o) && decide (o < 8 * c.idx + 8)
          let meets (o m : Nat) : Prop := ∃ x, t0 ≤ x ∧ x < t1 ∧ p.dst.at p x < o + m ∧ o < p.dst.at p x + p.w
          ∃ t q', exec (.cairnArrival id n) s = .next t ∧ lands t ∧ t.sameMemory s ∧ t.party? q.uid = some q'
            ∧ (∀ o, word o = false → q'.sbyte o = (s.movedTo j p t0 t1 o).getD (q.sbyte o))
            ∧ (∀ g, (∀ c, j.cairn = some c → c.idx / 2 ≠ g) → ¬meets (16 * g) 16 → NSet.has q'.stag g = NSet.has q.stag g)
            ∧ ((∀ c, j.cairn = some c → ¬meets (8 * c.idx) 8) → t.arrivedAt s j.cairn n)))
    ∧ (∀ id n j x q, s.job? id = some j → j.kind = .ldm x → j.ceased = false → 0 < n → j.moved + n ≤ x.total → n % x.unit = 0 →
      j.moved % x.unit = 0 → x.edgeAt (j.moved + n) = true → s.jobHeld j = false → s.snap = none → (x.view = true → x.planes = 8) →
      s.jobParty j = some q →
      (∀ i, j.moved / x.unit ≤ i → i < (j.moved + n) / x.unit → x.view = false → ∀ f ∈ x.feeds i,
        s.shutPages false f.1 f.2 = [] ∧ (isPeer f.1 = true → (j.answer f.1 f.2).isSome = true)) →
      (∀ c, j.cairn = some c → 8 * c.idx + 8 ≤ x.dst + j.moved ∨ x.dst + j.moved + n ≤ 8 * c.idx) →
      ∃ t y q', exec (.cairnArrival id n) s = .next t ∧ t.job? id = some y ∧ y.moved = j.moved + n ∧ t.sameMemory s
        ∧ t.party? q.uid = some q' ∧ t.arrivedAt s j.cairn n
        ∧ (∀ o, (∀ c, j.cairn = some c → o < 8 * c.idx ∨ 8 * c.idx + 8 ≤ o) → q'.sbyte o =
          if x.dst + j.moved ≤ o ∧ o < x.dst + j.moved + n then (s.ldmUnit j x ((o - x.dst) / x.unit)).1.getD ((o - x.dst) % x.unit) 0
          else q.sbyte o))
    ∧ (∀ c uid k pos, s.ctxAt uid k pos = some c → c.entry.wait = some .jobCard →
      (s.cardsFull uid (dieOf c.party.core) = false → ∃ t, exec (.jobCardWaitEnd uid k pos) s = .next t ∧ c.becomes t c.goesOn)
      ∧ (s.cardsFull uid (dieOf c.party.core) = true → exec (.jobCardWaitEnd uid k pos) s = .next s))
    ∧ (∀ id j p, s.job? id = some j → j.kind = .copy p → (j.ceased = true ∨ (j.running = true ∧ p.total ≤ j.moved)) → s.jobAway id = false →
      let gone (t : State) : Prop := t.jobs.map Job.id = (s.jobs.map Job.id).filter fun x => x != id
      (∀ uid k, j.by' = .rope uid k → (∀ r, s.ropeRing uid k = some r → s.ringShut r.1 = []) →
        ∃ t, exec (.copyJobComplete id) s = .next t ∧ gone t ∧ t.jobRecord s j j.fault j.written)
      ∧ ∀ dev inv, j.by' = .peer dev inv → ∃ t, exec (.copyJobComplete id) s = .next t ∧ gone t ∧ t.sameMemory s
        ∧ t.wire = .report dev inv j.fault j.written :: s.wire)
    ∧ ∀ id j x uid k, s.job? id = some j → j.by' = .rope uid k → j.kind = .ldm x → (j.ceased = true ∨ x.total ≤ j.moved) →
      (∀ r, s.ropeRing uid k = some r → s.ringShut r.1 = []) →
      ∃ t, exec (.ldmJobComplete id) s = .next t ∧ t.jobs.map Job.id = (s.jobs.map Job.id).filter (fun y => y != id)
        ∧ t.jobRecord s j j.fault j.written
        ∧ ∀ p ∈ t.parties, ∀ r ∈ p.ropes, ∀ e ∈ r.stack, e.wait ≠ some .ldmSlot ∧ e.wait ≠ some .pages

/-- RING_POST takes the oldest record that waits: a rope without a ring drops it; into a ring with its slots committed and one
free, the record of 32 bytes with TIME is written, PROD and COMMIT rise by one, no other byte changes; a full ring counts it in
DROPS; at a far page of the ring that may not be written it waits on. A stream job that waits on a ring reserves the next slot
once one is free, and not before. When the oldest committed slot has waited CTIME the vector is sent and the count returns to
zero, and not before. A snapshot whose edges are clear, with no unfinished job that has written and no earlier partial under
way, is cut: dirty stash lines are clean, memory stands, one arrival is counted. A page saved by copy-on-write is written to its
place in the destination as it stood, its frame freed, every other byte unchanged. With no page saved, the pages not yet copied
go to the destination as they stand, and the job ends. Of the model's choices it uses logs 9, 50, 64, 74, 95. (12_copy_engine.md
R275, 12_copy_engine.md R276, 12_copy_engine.md R277, 12_copy_engine.md R278, 13_tiers_and_route_cards.md R283,
15_queues_graphs_launch.md R316, 12_copy_engine.md R280) -/
def Obligations.RingAndSnapshotEvents : Prop :=
  (∀ (s : State), (∀ e ∈ s.ringDone, e.waits = []) →
    (s.posts = [] → exec .ringPost s = .next s)
    ∧ (∀ x rest, s.posts = x :: rest →
      (∀ uid k, x.dest = .rope uid k → s.ropeRing uid k = none → exec .ringPost s = .next { s with posts := rest })
      ∧ ∀ r, ((∃ uid k c, x.dest = .rope uid k ∧ s.ropeRing uid k = some (r, c)) ∨ ∃ q d, x.dest = .queue q ∧ s.queueRing q = some (d, some r)) →
        (s.ringIdle r = true → ∃ t, exec .ringPost s = .next t ∧ t.postedTo s r x.body ∧ t.posts = rest)
        ∧ (s.ringFree r = false → s.ringShut r = [] → ∃ t, exec .ringPost s = .next t ∧ t.posts = rest
          ∧ (s.near r.desc 64 = true → t.num (r.desc + 0x1C) 4 = min (s.num (r.desc + 0x1C) 4 + 1) (2 ^ 32 - 1))
          ∧ ∀ a, (a < r.desc + 0x1C ∨ r.desc + 0x20 ≤ a) → t.byte a = s.byte a)
        ∧ (s.ringShut r ≠ [] → ∃ t, exec .ringPost s = .next t ∧ t.posts = rest ++ [{ x with waits := s.ringShut r }] ∧ t.sameMemory s))
    ∧ (∀ id j p r, s.job? id = some j → j.kind = .stream p r none → j.running = true →
      (s.near r.desc 64 = true → s.ringFree r = false → exec (.ringSlotWaitEnd id) s = .next s)
      ∧ (s.near r.desc 64 = true → s.ringFree r = true → s.ringProd r.desc < 2 ^ 63 → ∃ t y, exec (.ringSlotWaitEnd id) s = .next t
        ∧ t.job? id = some y ∧ y = { j with kind := .stream p r (some (s.ringProd r.desc)) } ∧ t.ringProd r.desc = s.ringProd r.desc + 1
        ∧ ∀ a, (a < r.desc + 0x20 ∨ r.desc + 0x28 ≤ a) → t.byte a = s.byte a)
      ∧ (s.shutPages true r.desc 64 ≠ [] → ∃ t, exec (.ringSlotWaitEnd id) s = .next t ∧ t.sameMemory s ∧ t.jobs = s.jobs))
    ∧ ∀ d, let i := SMap.get RingInt.zero s.ringInt d
      let v := s.num (d + 0x14) 2
      let due := i.count ≠ 0 ∧ s.num (d + 0x18) 4 ≠ 0 ∧ i.oldest + 1000 * s.num (d + 0x18) 4 ≤ s.timer
      s.shutPages false d 64 = [] →
      (due → exec (.ringCtimeExpiry d) s = .next { s with
        ringInt := SMap.set RingInt.zero s.ringInt d ⟨0, 0⟩, msix := if v = 0xFFFF then s.msix else v :: s.msix })
      ∧ (¬due → exec (.ringCtimeExpiry d) s = .next s))
    ∧ (∀ (s : State) (x : Snap) (j : Job), s.snap = some x → s.job? x.job = some j →
    let ring := ∀ u k, j.by' = .rope u k → s.ropeRing u k = none
    (x.cut = false → s.cutReady x = true → ∃ t, exec .snapshotCut s = .next t ∧ t.snap = some { x with cut := true } ∧ t.sameMemory s
      ∧ (∀ p ∈ t.parties, p.dirty = []) ∧ t.arrivedAt s j.cairn 1)
    ∧ (x.cut = false → s.cutReady x = false → exec .snapshotCut s = .next s)
    ∧ (x.cut = true → j.ceased = false → s.near x.dst x.len = true → (∀ h, h < x.len → j.lostAt (x.dst + h) 4096 = false) →
      capHas (j.caps.getD 1 0) pSTCAP = false → (x.dst + x.len ≤ x.src ∨ x.src + x.len ≤ x.dst) → x.src % 4096 = 0 →
      (∀ page img, SMap.get none x.saved page = some img → img.bytes.length = 4096 → x.src ≤ page * 4096 → page * 4096 + 4096 ≤ x.src + x.len →
        ∃ t y, exec (.copyOnWritePageCopied page) s = .next t ∧ t.snap = some y ∧ SMap.get none y.saved page = none
          ∧ NSet.has y.copied page = true
          ∧ ∀ a, t.byte a = if x.dstOf page ≤ a ∧ a < x.dstOf page + 4096 then img.bytes.getD (a - x.dstOf page) 0 else s.byte a)
      ∧ (x.saved = [] → x.len % 4096 = 0 → ring → ∃ t, exec .snapshotCopyComplete s = .next t ∧ t.snap = none ∧ t.job? x.job = none
        ∧ ∀ a, t.byte a = if x.dst ≤ a ∧ a < x.dst + x.len ∧ NSet.has x.copied ((x.src + (a - x.dst)) / 4096) = false
            then s.byte (x.src + (a - x.dst)) else s.byte a)))

/-- When every listed rope is latched, all agree and the core's occupancy has room, the gang joins: its members are listed in
gang order with its cycles, each slot waits on it. With every tile sound and in SRAM, its read phase ends: the A tiles and the B
tile are captured, the slots of all but mmf go on. The core's oldest gang, its cycles spent, leaves: each member's accumulator
block takes its results and no other register changes; mmf sends 1,024 partials a member, each to its element's address with its
result. A partial at unpoisoned HBM becomes the FP32 sum at its address, rounded to nearest; no other byte changes; at a
poisoned line it is dropped; at a peer's line it is sent as a relaxed atomic; at a far page that may not be written it waits. (A
die that is fenced: log 107.) Of the model's choices it uses logs 9, 62, 66. (11_matrix_engine.md R240, 11_matrix_engine.md
R241, 11_matrix_engine.md R243, 11_matrix_engine.md R254, 11_matrix_engine.md R256, 11_matrix_engine.md R259,
11_matrix_engine.md R260, 11_matrix_engine.md R264, 18_fabric_collectives_pool.md R375) -/
def Obligations.GangEvents : Prop :=
  ∀ (s : State),
    (∀ uid k p r me l ms, s.party? uid = some p → p.ropes[k]? = some r → r.latched = some me → l = r.gangList k →
      l.mapM (fun j => (p.ropes[j]?).bind fun q => if q.ended then none else q.latched.map fun x => (j, x.1, x.2)) = some ms →
      (∀ x ∈ ms, ∀ q, p.ropes[x.1]? = some q → gangG q.gangReg = l.length ∧ q.gangList x.1 = l ∧ gangKey x.2.2 q = gangKey me.2 r) →
      s.occupancy p.core + gangCycles me.2 l.length ≤ 592 →
      ∃ t, exec (.gangJoin uid k) s = .next t ∧ t.sameMemory s
        ∧ t.gangs = s.gangs ++ [⟨s.gangCtr, p.core, uid, ms.map fun x => ⟨x.1, x.2.2, [], 0, 0⟩, true, gangCycles me.2 l.length, []⟩]
        ∧ (l.Nodup → ∀ x ∈ ms, ∃ c, t.ctxAt uid x.1 x.2.1 = some c ∧ c.entry.wait = some (.gang s.gangCtr)))
    ∧ (∀ id g p, s.gangs.find? (fun g => g.id == id && g.reading) = some g → s.party? g.uid = some p →
      (g.members.map GangMember.rope).Nodup → (s.gangs.map Gang.id).Nodup →
      (∀ m ∈ g.members, isMmf m.instr = false ∧ ∃ r, p.ropes[m.rope]? = some r
        ∧ p.tileMay (r.s (gangOp m.instr).a.toNat).toNat (tileSizes m.instr).1 = true
        ∧ p.tileMay (r.s (gangOp m.instr).b.toNat).toNat (tileSizes m.instr).2 = true) →
      ∃ t, exec (.readPhaseComplete id) s = .next t ∧ t.sameMemory s ∧ ∃ g', t.gangs.find? (fun x => x.id == id) = some g'
        ∧ g'.reading = false ∧ g'.left = g.left ∧ g'.members.map (fun m => (m.rope, m.instr)) = g.members.map (fun m => (m.rope, m.instr))
        ∧ ∀ m ∈ g'.members, ∀ r, p.ropes[m.rope]? = some r →
          m.aTile = p.sbytes (r.s (gangOp m.instr).a.toNat).toNat (tileSizes m.instr).1
          ∧ (g'.members.head? = some m → g'.bTile = p.sbytes (r.s (gangOp m.instr).b.toNat).toNat (tileSizes m.instr).2)
          ∧ (∀ pos, r.gangPos id = some pos → ∃ c, t.ctxAt g.uid m.rope pos = some c ∧ c.entry.wait = none
            ∧ ∃ e, r.stack[pos]? = some e ∧ c.entry.pc = e.pc + 16))
    ∧ (∀ core g p, s.gangs.find? (fun g => g.core == core) = some g → g.reading = false → g.left = 0 → s.party? g.uid = some p →
      (g.members.map GangMember.rope).Nodup →
      (∀ m ∈ g.members, m.instr.wf = true ∧ ∃ r, p.ropes[m.rope]? = some r) →
      ∃ t, exec (.accumulatePhaseComplete core) s = .next t ∧ t.sameMemory s ∧ t.gangs = s.gangs.filter (fun x => x.id != g.id)
        ∧ (∃ l, t.parts = s.parts ++ l ∧ l.length = 1024 * (g.members.countP fun m => isMmf m.instr)
          ∧ ∀ m o x ld, m ∈ g.members → m.instr = .mmf o x ld → ∀ r, p.ropes[m.rope]? = some r → ∀ i j, i < 32 → j < 32 →
            ∃ y ∈ l, y.uid = g.uid ∧ y.k = m.rope ∧ y.addr = m.base + 4 * ld.toNat * i + 4 * j ∧ y.agent = r.agent
              ∧ y.val = BitVec.ofNat 32 (((gangResult m.instr m.aTile g.bTile r).getD i []).getD j ⟨0, 0⟩).bits)
        ∧ ∀ m ∈ g.members, isMmf m.instr = false → ∀ r, p.ropes[m.rope]? = some r → ∃ q r', t.party? g.uid = some q ∧ q.ropes[m.rope]? = some r'
          ∧ (∀ l n, l < 32 → n < 256 → r'.x l n =
            if (gangOp m.instr).d.toNat ≤ n ∧ n < (gangOp m.instr).d.toNat + 32 then
              BitVec.ofNat 32 (((gangResult m.instr m.aTile g.bTile r).getD l []).getD (n - (gangOp m.instr).d.toNat) ⟨0, 0⟩).bits
            else r.x l n)
          ∧ r'.unif = r.unif ∧ r'.preds = r.preds ∧ r'.flags = r.flags)
    ∧ ∀ n x, s.parts[n]? = some x → ((s.parts.take n).any fun y => y.uid == x.uid && y.k == x.k && y.addr == x.addr) = false →
      s.snap = none →
      (s.near x.addr 4 = true → s.poisoned x.addr 4 = false → ∃ t, exec (.nearCacheAdd n) s = .next t ∧ t.parts = s.parts.eraseIdx n
        ∧ t.num x.addr 4 = (roundX fmtF32 .rn (xAdd .rn (fmtF32.read (s.num x.addr 4)) (fmtF32.read x.val.toNat))).bits
        ∧ ∀ a, (a < x.addr ∨ x.addr + 4 ≤ a) → t.byte a = s.byte a)
      ∧ (s.near x.addr 4 = true → s.poisoned x.addr 4 = true → ∃ t, exec (.nearCacheAdd n) s = .next t ∧ t.parts = s.parts.eraseIdx n
        ∧ t.sameMemory s)
      ∧ (isPeer x.addr = true → s.routed (peerOf x.addr) = true → ∃ t, exec (.nearCacheAdd n) s = .next t ∧ t.parts = s.parts.eraseIdx n
        ∧ t.sameMemory s ∧ t.peerOut = s.peerOut ++ [⟨s.peerSeq, peerOf x.addr, x.addr, .atomic .fadd false false .relaxed .rope x.val.toNat 0,
          .part x.uid x.k, x.colour, x.base, x.die, s.timer, s.portFor (peerOf x.addr)⟩])
      ∧ (s.shutPages true x.addr 4 ≠ [] → ∃ t, exec (.nearCacheAdd n) s = .next t ∧ t.parts.length = s.parts.length ∧ t.sameMemory s)

/-- With a request, a frame free and fewer than 64 fetches, the page of the first request is FETCHING in a frame that no page
holds, untagged, without race records, with the poison of its home, and its requests are gone; with no frame free the victim is
EVICTING, if none is; otherwise nothing happens. A page that arrives is RESIDENT and no rope is parked on it. An evicted page
has no entry, no tag, no race record, and of its poison what stood in dirty lines or at its home, every byte as it was. A lost
page goes the same way, with its pins, and what waits for it meets it lost: ropes replay, posts to a ring there are dropped.
Failed page requests lose their page. A granted upgrade makes the page writable. An ATS invalidation marks its pages, evicts
those that may go, and is completed once none is left. Of the model's choices it uses logs 9, 38, 39, 49, 59, 74.
(13_tiers_and_route_cards.md R282, 13_tiers_and_route_cards.md R284, 13_tiers_and_route_cards.md R286,
13_tiers_and_route_cards.md R287, 13_tiers_and_route_cards.md R288, 13_tiers_and_route_cards.md R289,
13_tiers_and_route_cards.md R297, 14_memory_model.md R310, 13_tiers_and_route_cards.md R417) -/
def Obligations.TierEvents : Prop :=
  ∀ (s : State),
    (s.markVersions = s →
      (s.nextAsk = none → exec .tierFetch s = .next s)
      ∧ ∀ x, s.nextAsk = some x →
        (64 ≤ s.fetching → exec .tierFetch s = .next s)
        ∧ (s.fetching < 64 → s.framesFree ≠ 0 → (hostPage x.page = true ∨ s.regionAt (x.page * 2 ^ 21) = none) →
          ∃ t r, exec .tierFetch s = .next t ∧ t.page? x.page = some r ∧ r.st = .fetching ∧ r.dirty = []
            ∧ r.frame < 12 * s.resFrames ∧ (∀ y z, s.page? y = some z → z.frame ≠ r.frame)
            ∧ t.mem = s.mem ∧ (∀ a, t.tagAt a = (s.tagAt a && !(decide (pageOf a = x.page))))
            ∧ (∀ h, NSet.has t.poison h = NSet.has s.poison h) ∧ (∀ g, t.raceAt g = if pageOf (16 * g) = x.page then none else s.raceAt g)
            ∧ (∀ q, q ≠ x.page → t.page? q = s.page? q) ∧ t.asks = s.asks.filter (fun y => y.page != x.page) ∧ t.parties = s.parties)
        ∧ (s.fetching < 64 → s.framesFree = 0 → (s.pages.any fun e => e.2.any fun r => r.st == .evicting) = false →
          ∀ q r, s.victim = some q → s.page? q = some r → ∃ t, exec .tierFetch s = .next t ∧ t.sameMemory s
            ∧ t.page? q = some { r with st := .evicting } ∧ (∀ y, y ≠ q → t.page? y = s.page? y) ∧ t.asks = s.asks))
    ∧ (∀ q r, s.page? q = some r →
      let goes (t : State) : Prop := t.page? q = none ∧ (∀ y, y ≠ q → t.page? y = s.page? y) ∧ t.mem = s.mem
        ∧ (∀ a, t.tagAt a = (s.tagAt a && !(decide (pageOf a = q)))) ∧ (∀ g, t.raceAt g = if pageOf (16 * g) = q then none else s.raceAt g)
        ∧ ∀ h, NSet.has t.poison h = ((NSet.has s.poison h && (decide (h / 2 ^ 15 ≠ q) || NSet.has r.dirty (h / 2)))
          || (NSet.has r.home h && !(NSet.has r.dirty (h / 2))))
      (∀ ro, r.st = .fetching → ∃ t, exec (.pageResident q ro) s = .next t ∧ t.sameMemory s
        ∧ t.page? q = some { r with st := .resident, writable := r.writable && !ro, used := s.accesses }
        ∧ (∀ y, y ≠ q → t.page? y = s.page? y)
        ∧ ∀ p ∈ t.parties, (∀ x, p.status ≠ .saved x) → ∀ y ∈ p.ropes, ∀ k, y.park = some k → q ∉ k.pages)
      ∧ (∀ ro, r.st ≠ .fetching → exec (.pageResident q ro) s = .next s)
      ∧ (r.st = .evicting → ∃ t, exec (.eviction q) s = .next t ∧ goes t ∧ t.parties = s.parties)
      ∧ (r.st = .fetching → ∃ t, exec (.pageLost q) s = .next t ∧ goes t ∧ t.pins = s.pins.filter (fun p => p.page != q)
        ∧ t.posts = s.posts.filter (fun x => !(x.waits.elem q))
        ∧ ∀ (uid k : Nat) (p : Party) (x : Rope) (w : Park), s.party? uid = some p → p.ropes[k]? = some x → x.park = some w → q ∈ w.pages →
          ∃ (p' : Party) (x' : Rope), t.party? uid = some p' ∧ p'.ropes[k]? = some x' ∧ (w.pc, q) ∈ x'.lostPages
            ∧ (w.all = false → x'.park = none) ∧ ∀ z, x'.park = some z → q ∉ z.pages)
      ∧ (r.st = .fetching → hostPage q = true → exec (.pageRequestResponse q false) s = exec (.pageLost q) s)
      ∧ exec (.pageRequestResponse q true) s = .next s
      ∧ ∀ ok, r.st = .resident → r.upgrade = true → ∃ t, exec (.writePermissionUpgrade q ok) s = .next t ∧ t.sameMemory s
        ∧ t.page? q = some { r with upgrade := false, writable := r.writable || ok } ∧ ∀ y, y ≠ q → t.page? y = s.page? y)
    ∧ ∀ lo hi,
      ((∀ e ∈ s.pages, (e.1 + 1) * 2 ^ 21 ≤ lo ∨ hi ≤ e.1 * 2 ^ 21) → ∃ t, exec (.atsInvalidateRequest lo hi) s = .next t
        ∧ .invalidated lo hi ∈ t.wire ∧ t.pages = s.pages ∧ t.sameMemory s)
      ∧ ∀ q r, s.page? q = some r → hostPage q = true → r.st = .resident → q * 2 ^ 21 < hi → lo < (q + 1) * 2 ^ 21 →
        ∃ t r', exec (.atsInvalidateRequest lo hi) s = .next t ∧ t.page? q = some r' ∧ r'.unwanted = true
          ∧ r'.st = (if s.evictable q r then .evicting else .resident) ∧ (lo, hi) ∈ t.invals ∧ t.sameMemory s

/-- A core whose resources were released takes the party that the first waiting launch offers it, if it fits: a new placed party
of that index with its ropes, each at the entry's code with every lane, its keys and LFSR derived, c0 the frame capability. An
ended party without jobs leaves and its core is offered. A park, or a wait for a barrier record, past the queue's limit asks for
the party's save; a free record lets the barinit issue again; a free record slot lets a spawn issue again, or takes the waiting
launch's first record. A save without work or access in flight writes the header, keeps registers of VALID blocks, uniforms and
masks, and offers the core; a restore puts the same ropes on the core with fresh age stamps; at both a quad that the running
pass matches loses its tag. Otherwise each does nothing. Of the model's choices it uses logs 9, 28, 50, 51, 94, 108.
(01_reading_the_listings.md R13, 04_ropes_and_control.md R71, 04_ropes_and_control.md R80, 07_teams_barriers_cairns.md R152,
08_draws.md R185, 13_tiers_and_route_cards.md R285, 15_queues_graphs_launch.md R327, 15_queues_graphs_launch.md R331,
17_traps_and_preemption.md R360, 17_traps_and_preemption.md R362, 17_traps_and_preemption.md R363, 17_traps_and_preemption.md
R366) -/
def Obligations.PartyEvents : Prop :=
  ∀ (s : State),
    (s.offers = [] → s.launches = [] → exec .partyPlacement s = .next s)
    ∧ (∀ core rest x rec i o e at', s.offers = core :: rest → s.savedFor core = false → (s.waiting core).head? = some x →
      x.offer core = some (rec, i) → s.objects.find? (fun y => y.handle == x.object) = some o → o.entries[rec.entry]? = some e →
      s.room core e.need = true → s.allot (partyArea e.ropes e.regs e.scratch e.cstack) = some at' →
      ∃ t p, exec .partyPlacement s = .next t ∧ t.sameMemory s ∧ t.parties = s.parties ++ [p] ∧ p.uid = s.partyCtr ∧ p.launch = x.id
        ∧ p.record = rec.id ∧ p.index = i ∧ p.queue = x.queue ∧ p.colour = x.colour ∧ p.core = core ∧ p.regs = e.regs
        ∧ p.scratchSize = e.scratch ∧ p.capacity = 2 + 256 * e.cstack ∧ p.status = .placed ∧ p.ropes.length = e.ropes
        ∧ ∀ k r, p.ropes[k]? = some r →
          r.stack = [⟨.side, true, 0, codeAddr (BitVec.ofNat 64 (capBase x.code + x.offsets.getD rec.entry 0)), 0xFFFFFFFF, none, none, 0, false⟩]
          ∧ r.dkey = x.drawkey ^^^ BitVec.ofNat 64 ((i * 32 + k) * 0xD1B54A32D192ED03) ∧ r.dctr = 0
          ∧ r.lfsr = (let v := x.seed ^^^ BitVec.ofNat 32 ((i * 32 + k) * 0x9E3779B9); if v = 0 then 1 else v)
          ∧ r.unif = [] ∧ r.preds = [] ∧ r.flags = 0 ∧ r.fpst = 0 ∧ r.trapvec = 0 ∧ r.hm = false ∧ r.ring = none
          ∧ ∀ l, l < 32 → r.quad l 0 = (rec.frame.cap x.colour i).1 ∧ r.tag l 0 = s.tagFor (rec.frame.cap x.colour i).1 (rec.frame.cap x.colour i).2)
    ∧ (∀ uid p, s.party? uid = some p →
      (p.status = .ended → s.busyParty uid = false → ∃ t, exec (.resourceRelease uid) s = .next t
        ∧ t.parties = s.parties.filter (fun y => y.uid != uid) ∧ t.offers = s.offers ++ [p.core]
        ∧ { t with parties := s.parties, offers := s.offers, launches := s.launches } = s)
      ∧ (p.status ≠ .ended ∨ s.busyParty uid = true → exec (.resourceRelease uid) s = .next s)
      ∧ (∀ k r w, p.ropes[k]? = some r → r.park = some w →
        let n := (s.queue p.queue).parklim % 2 ^ 20
        (n ≠ 0 → w.since + 1000 * n ≤ s.timer → p.status = .placed → ∃ t, exec (.parkLimitExpiry uid k) s = .next t ∧ t.onlyParty s uid
          ∧ t.party? uid = some { p with status := .saving .park })
        ∧ (n = 0 ∨ s.timer < w.since + 1000 * n → exec (.parkLimitExpiry uid k) s = .next s))
      ∧ (∀ why, p.status = .saving why → s.saveWaits p = false → s.near p.saveAt (0x680 + 32 * p.stashPages.length) = true →
        ∃ (t : State) (q : Party), exec (.partySave uid) s = .next t ∧ t.party? uid = some q ∧ q.status = .saved why ∧ q.scratch = p.scratch ∧ q.stag = p.stag
          ∧ t.offers = s.offers ++ [p.core] ∧ (∀ a, a < p.saveAt → t.byte a = s.byte a)
          ∧ t.bytes p.saveAt 24 = leBytes 2 3 ++ leBytes 1 p.ropes.length
            ++ leBytes 1 (match why with | .bucket => 1 | .park => 2 | .barRecord => 3) ++ leBytes 2 p.colour ++ leBytes 2 p.regs
            ++ leBytes 4 p.scratchSize ++ leBytes 4 p.index ++ leBytes 4 p.launch ++ leBytes 2 p.queue ++ leBytes 2 p.stashPages.length
          ∧ ∀ (k : Nat) (r : Rope), p.ropes[k]? = some r → ∃ r' : Rope, q.ropes[k]? = some r' ∧ r'.unif = r.unif ∧ r'.preds = r.preds ∧ r'.flags = r.flags
            ∧ r'.fpst = r.fpst ∧ r'.dkey = r.dkey ∧ r'.dctr = r.dctr ∧ r'.stack.map (fun e => (e.kind, e.noRpc, e.rpc, e.pc, e.mask))
              = r.stack.map (fun e => (e.kind, e.noRpc, e.rpc, e.pc, e.mask))
            ∧ (∀ l n, l < 32 → n < 256 → r.accValid.getLsbD (n / 32) = true → r'.x l n = r.x l n)
            ∧ ∀ l n, l < 32 → n < 64 → r.accValid.getLsbD (n / 8) = true → r'.tag l (4 * n) = s.tagFor (r.quad l (4 * n)) (r.tag l (4 * n)))
      ∧ (s.saveWaits p = true ∨ (∀ why, p.status ≠ .saving why) → exec (.partySave uid) s = .next s)
      ∧ ∀ core, (s.mayRestore p core = false → exec (.partyRestore uid core) s = .next s)
        ∧ (s.mayRestore p core = true → ∃ (t : State) (q : Party), exec (.partyRestore uid core) s = .next t ∧ t.sameMemory s ∧ t.party? uid = some q
          ∧ q.status = .placed ∧ q.core = core ∧ q.scratch = p.scratch ∧ q.bars = p.bars ∧ q.ropes.length = p.ropes.length
          ∧ ∀ (k : Nat) (r : Rope), p.ropes[k]? = some r → ∃ r' : Rope, q.ropes[k]? = some r'
            ∧ r' = { r with age := r'.age, slot := r'.slot, park := none, qtag := r'.qtag }
            ∧ ∀ l n, l < 32 → n < 64 → r'.tag l (4 * n) = s.tagFor (r.quad l (4 * n)) (r.tag l (4 * n))))
    ∧ (∀ c uid k pos, s.ctxAt uid k pos = some c →
      (∀ since, c.entry.wait = some (.barRecord since) →
        let n := (s.queue c.party.queue).parklim % 2 ^ 20
        (s.barRecords c.party.core < 96 → ∃ t, exec (.barrierRecordWaitEnd uid k pos) s = .next t ∧ c.becomes t c.goesOn)
        ∧ (96 ≤ s.barRecords c.party.core → n ≠ 0 → since + 1000 * n ≤ s.timer → c.party.status = .placed →
          ∃ t, exec (.barrierRecordWaitEnd uid k pos) s = .next t ∧ t.onlyParty s uid
            ∧ t.party? uid = some { c.party with status := .saving .barRecord })
        ∧ (96 ≤ s.barRecords c.party.core → (n = 0 ∨ s.timer < since + 1000 * n) → exec (.barrierRecordWaitEnd uid k pos) s = .next s))
      ∧ (c.entry.wait = some .recordSlot → s.freeRecord ≠ none → ∃ t, exec (.recordSlotFree false uid k pos) s = .next t ∧ c.becomes t c.goesOn))
    ∧ (∀ f a k pos, s.freeRecord = none → exec (.recordSlotFree f a k pos) s = .next s)
    ∧ ∀ id a x r, s.freeRecord = some id → s.launch? a = some x → x.first = some r → ∃ t y, exec (.recordSlotFree true a 0 0) s = .next t
      ∧ t.launch? a = some y ∧ y.first = none ∧ y.records = x.records ++ [{ r with id := id }] ∧ { t with launches := s.launches } = s

/-- A doorbell write of 8 bytes to a queue's word, not below TAIL nor more than the ring ahead of HEAD, sets TAIL; any other is
ignored and counted in BAD_DOORBELL of base camp. A write of MBDB submits the next request while none is pending, else it is
ignored and counted; bytes written to MBREQ stand there. The first eligible queue takes the lowest free slot, or the slot of the
queue that gives up its own. A settlement adds eight rates less the debit, held to the capacity; LEVEL at zero or below makes
the bucket dry until RESUME, and its queues' placed parties are asked to be saved. Of the model's choices it uses logs 9, 27,
73. (15_queues_graphs_launch.md R311, 15_queues_graphs_launch.md R312, 15_queues_graphs_launch.md R313,
15_queues_graphs_launch.md R319, 15_queues_graphs_launch.md R320, 15_queues_graphs_launch.md R321) -/
def Obligations.QueueEvents : Prop :=
  ∀ (s : State),
    let counted (t : State) : Prop := { t with dies := s.dies } = s ∧ (∀ d, d ≠ 4 → t.die d = s.die d)
      ∧ ∀ n, SMap.get 0 (t.die 4).errors n
        = if n = 8 then min (SMap.get 0 (s.die 4).errors 8 + 1) (2 ^ 32 - 1) else SMap.get 0 (s.die 4).errors n
    (∀ off size val, let q := off / 8
      let r := s.queue q
      let good := off % 8 = 0 ∧ size = 8 ∧ q < 65536 ∧ r.st ≠ .free ∧ r.st ≠ .lost ∧ r.tail ≤ val ∧ val ≤ r.head + 2 ^ r.rsize
      (good → ∃ t, exec (.queueDoorbell off size val) s = .next t ∧ (t.queue q).tail = val ∧ (t.queue q).head = r.head
        ∧ (t.queue q).ring = r.ring ∧ (t.queue q).colour = r.colour ∧ (∀ y, y ≠ q → t.queue y = s.queue y)
        ∧ { t with queues := s.queues, moments := s.moments } = s)
      ∧ (¬good → ∃ t, exec (.queueDoorbell off size val) s = .next t ∧ counted t))
    ∧ (∀ size val, let good := size = 8 ∧ s.mailbox.busy = false ∧ val = s.mailbox.answered + 1
      (good → exec (.mbdbWrite size val) s = .next { s with mailbox := { s.mailbox with busy := true } })
      ∧ (¬good → ∃ t, exec (.mbdbWrite size val) s = .next t ∧ counted t))
    ∧ (∀ off bytes,
      (0x1000 ≤ off → off + bytes.length ≤ 0x2000 → ∃ t, exec (.registerWrite off bytes) s = .next t
        ∧ { t with mailbox := { t.mailbox with req := s.mailbox.req } } = s
        ∧ ∀ i, SMap.get 0 t.mailbox.req i
          = if off - 0x1000 ≤ i ∧ i < off - 0x1000 + bytes.length then bytes.getD (i - (off - 0x1000)) 0 else SMap.get 0 s.mailbox.req i)
      ∧ (off = 0x08 → bytes.length = 8 → exec (.registerWrite off bytes) s = exec (.mbdbWrite 8 (leNat bytes)) s)
      ∧ (off < 0x10 → 0x08 < off + bytes.length → ¬(off = 0x08 ∧ bytes.length = 8) →
        ∃ t, exec (.registerWrite off bytes) s = .next t ∧ counted t))
    ∧ ((s.eligibleNext = none → exec .queueSlotMapping s = .next s)
      ∧ ∀ q e, s.eligibleNext = some (q, e) →
        (∀ k, s.freeSlot = some k → ∃ t, exec .queueSlotMapping s = .next t ∧ t.queue q = { s.queue q with slot := some k, mapped := s.moments }
          ∧ (∀ y, y ≠ q → t.queue y = s.queue y) ∧ { t with queues := s.queues, moments := s.moments } = s)
        ∧ ∀ v r k, s.freeSlot = none → s.unmapNext = some (v, r) → r.slot = some k → v ≠ q → ∃ t, exec .queueSlotMapping s = .next t
          ∧ (t.queue q).slot = some k ∧ (t.queue v).slot = none ∧ (∀ y, y ≠ q → y ≠ v → t.queue y = s.queue y))
    ∧ ∀ b, let x := s.bucket b
      (s.timer < x.since + 1000 → exec (.bucketSettlement b) s = .next s)
      ∧ (b < 4096 → x.since + 1000 ≤ s.timer →
        let v := max (-(8 * (x.cap : Int))) (min (8 * (x.cap : Int)) (x.level - s.debit b + 8 * x.rate))
        let dry := decide (v ≤ 0) || (x.dry && decide (v < 8 * (x.resume : Int)))
        ∃ t, exec (.bucketSettlement b) s = .next t ∧ t.bucket b = { x with level := v, dry := dry, since := x.since + 1000, ran := [] }
          ∧ (∀ y, y ≠ b → t.bucket y = s.bucket y) ∧ t.sameMemory s
          ∧ (dry = true → x.dry = false → ∀ p ∈ t.parties, t.drawsOn b p.queue = true → p.status ≠ .placed)
          ∧ (dry = x.dry → t.queues = s.queues ∧ t.parties = s.parties))

/-- An ACTIVE queue whose command has run for WDOG drains, in its slot: its ropes stop, its records and jobs go; once its
parties, jobs and partials have gone each of its commands has its WATCHDOG record and the queue goes on (QUEUE_LOST, and it
stays lost, at an activation). A launch without records, parties or partials completes: its pins go, its command's record
carries the parties killed or lost. A node that has ended completes: the counters of its successors fall by one, those at zero
run or are pending, a failure posts its record and is counted; a COND whose word was set re-arms its range. A WAIT whose word
has its value completes; a peer's word is asked for. A fenced die has no party, job or gang, a launch without REISSUE_OK that
lost parties with it, placed or bound there, places no more and counts them, and the master is the lowest healthy die. Of the
model's choices it uses logs 9, 28, 72, 76, 78, 79, 80, 93, 107. (15_queues_graphs_launch.md R325, 15_queues_graphs_launch.md
R329, 15_queues_graphs_launch.md R334, 15_queues_graphs_launch.md R335, 15_queues_graphs_launch.md R336,
15_queues_graphs_launch.md R339) -/
def Obligations.EndsAndDrains : Prop :=
  ∀ (s : State),
    (∀ q, let r := s.queue q
      let due := r.st = .active ∧ s.working q = true ∧ r.wdog ≠ 0 ∧ 1000 * r.wdog ≤ r.timer
      (due → ∃ t, exec (.watchdogExpiry q) s = .next t ∧ (t.queue q).st = .draining ∧ (t.queue q).slot = r.slot
        ∧ (∀ y, y ≠ q → t.queue y = s.queue y) ∧ (∀ x ∈ t.launches, x.queue = q → x.records = [] ∧ x.first = none)
        ∧ (∀ j ∈ t.jobs, t.jobQueue j ≠ some q)
        ∧ ∀ p ∈ t.parties, p.queue = q → p.status = .ended ∧ ∀ y ∈ p.ropes, y.ended = true ∧ y.stack = [])
      ∧ (¬due → exec (.watchdogExpiry q) s = .next s)
      ∧ let gone := r.ending && (s.parties.all fun p => p.queue != q) && (s.jobs.all fun j => s.jobQueue j != some q) && !(s.partsOf q)
        ((r.st = .draining ∨ r.st = .lost) → gone = true → ∃ t, exec (.drainComplete q) s = .next t
          ∧ (if r.st = .lost then (t.queue q).st = .lost else (t.queue q).st = .idle ∨ (t.queue q).st = .active ∨ (t.queue q).st = .dry)
          ∧ (t.queue q).timer = 0 ∧ (t.queue q).ending = false ∧ (∀ c ∈ t.cmds, c.queue ≠ q)
          ∧ ∀ c ∈ s.cmds, c.queue = q →
            ⟨.queue q, ⟨if r.st = .lost then 0x0105 else 0x0005, 0, c.tag, 0, s.cutFor c⟩, Know.none, []⟩ ∈ t.posts)
        ∧ (gone = false → exec (.drainComplete q) s = .next s))
    ∧ (∀ id x, s.launch? id = some x →
      (x.records ≠ [] ∨ s.launchBusy id = true → exec (.launchComplete id) s = .next s)
      ∧ ∀ q seq c, x.records = [] → x.first = none → s.stopped x.queue = false → s.launchBusy id = false → x.by' = .command q seq → s.cmd? q seq = some c →
        ∃ t, exec (.launchComplete id) s = .next t ∧ t.launches = s.launches.filter (fun y => y.id != id)
          ∧ t.pins = s.pins.filter (fun p => p.launch != id) ∧ t.cmds = s.cmds.filter (fun y => !(y.queue == q && y.seq == seq))
          ∧ t.posts = s.posts ++ [⟨.queue q, ⟨if x.dieLost then 0x0102 else 0x0100, 0, c.tag, 0, if x.dieLost then x.lost else x.killed⟩, x.know, []⟩]
          ∧ t.sameMemory s)
    ∧ (∀ h n g r x, s.graph? h = some g → g.run = some r → g.nodes[n]? = some x → s.stopped r.queue = false → x.succ.Nodup →
      (r.running.any fun y => y.1 != n) = true →
      (∀ st f b d, r.running.find? (fun y => y.1 == n) = some (n, .fin st f b d) → ∃ t g' r', exec (.graphNodeComplete h n) s = .next t
        ∧ t.graph? h = some g' ∧ g'.run = some r'
        ∧ (∀ i, SMap.get 0 r'.counters i = SMap.get 0 r.counters i - (if i ∈ x.succ then 1 else 0))
        ∧ r'.failed = r.failed + (if st = 0x0100 then 0 else 1)
        ∧ (st ≠ 0x0100 → ∃ k, ⟨.queue r.queue, ⟨st, f, 0x00010000 + n, b, d⟩, k, []⟩ ∈ t.posts)
        ∧ ∀ i ∈ x.succ, SMap.get 0 r'.counters i = 0 → i < g.nodes.length → i ∈ r'.pending ∨ ∃ w, (i, w) ∈ r'.running)
      ∧ (r.running.find? (fun y => y.1 == n) = some (n, .cond true) → ∃ t g' r', exec (.graphNodeComplete h n) s = .next t
        ∧ t.graph? h = some g' ∧ g'.run = some r' ∧ r'.rearms = r.rearms + 1
        ∧ ∀ i, SMap.get 0 r'.counters i
          = if x.rfirst ≤ i ∧ i ≤ x.rlast ∧ i < g.nodes.length then (((g.nodes[i]?).map fun y => (y.npred : Int)).getD 0)
            else SMap.get 0 r.counters i)
      ∧ ∀ a v, r.running.find? (fun y => y.1 == n) = some (n, .poll a v) → exec (.graphNodeComplete h n) s = .next s)
    ∧ (∀ q seq c a v, s.cmd? q seq = some c → c.work = .poll a v → s.stopped q = false →
      (isPeer a = false → s.shutPages false a 8 = [] → s.waitMet a v = true → ∃ t k, exec (.waitextPoll false q seq) s = .next t
        ∧ t.cmds = s.cmds.filter (fun y => !(y.queue == q && y.seq == seq)) ∧ t.posts = s.posts ++ [⟨.queue q, ⟨0x0100, 0, c.tag, 0, 0⟩, k, []⟩])
      ∧ (isPeer a = false → s.shutPages false a 8 = [] → s.waitMet a v = false → exec (.waitextPoll false q seq) s = .next s)
      ∧ (isPeer a = false → s.shutPages false a 8 ≠ [] → ∃ t, exec (.waitextPoll false q seq) s = .next t ∧ t.sameMemory s ∧ t.cmds = s.cmds)
      ∧ (isPeer a = true → s.routed (peerOf a) = true → (s.peerOut.any fun r => r.src == .poll false q seq) = false →
        ∃ t x, exec (.waitextPoll false q seq) s = .next t ∧ t.peerOut = s.peerOut ++ [x] ∧ x.addr = a ∧ x.op = .load 8
          ∧ x.src = .poll false q seq ∧ { t with peerOut := s.peerOut, peerSeq := s.peerSeq } = s))
    ∧ ∀ die,
      (die < 4 → (s.die die).fenced = false → ∃ t, exec (.dieFence die) s = .next t ∧ (t.die die).fenced = true
        ∧ (∀ d, d ≠ die → (t.die d).fenced = (s.die d).fenced) ∧ (∀ p ∈ t.parties, dieOf p.core ≠ die) ∧ (∀ j ∈ t.jobs, j.die ≠ die)
        ∧ (∀ g ∈ t.gangs, dieOf g.core ≠ die)
        ∧ (∀ id x, s.launch? id = some x → x.reissue = false →
          let l := s.parties.filter fun p => dieOf p.core == die && p.launch == id && p.alive
          l ≠ [] ∨ x.boundLeft die ≠ 0 → ∃ y, t.launch? id = some y ∧ y.dieLost = true ∧ y.lost = x.lost + l.length + x.boundLeft die
            ∧ y.first = none)
        ∧ ∀ d, d < 4 → (t.die d).fenced = false → t.master ≤ d ∧ (t.die t.master).fenced = false)
      ∧ (4 ≤ die ∨ (s.die die).fenced = true → exec (.dieFence die) s = .next s)

/-- A pass starts when the map holds an entry. While it runs, a visit clears the tag of every capability in its place that an
entry of the pass matches, and of no other: in a page of memory, a quad of a rope, a party's code capability; a job with a
matching capability is over with REVOKED. With every place visited and no access in flight the pass completes: W rises by one,
its entries leave the map, the next pass runs at once if any remain, retiring colours are free; otherwise nothing happens. Its
acquire covers every standing write of a colour that it revokes, and unreachable HBM holds no match. With room in the map a
waiting revk adds its entry and completes. A die brought back is not fenced, its HBM holds no match of a running pass, and its
instruction cache is empty. Of the model's choices it uses logs 9, 31, 107. (09_capabilities.md R202, 09_capabilities.md R206,
09_capabilities.md R207, 09_capabilities.md R208, 09_capabilities.md R214, 09_capabilities.md R215) -/
def Obligations.SweepEvents : Prop :=
  ∀ (s : State),
    (s.revMap ≠ [] → exec .sweepPassStart s = .next { s with passRunning := true })
    ∧ (s.revMap = [] → exec .sweepPassStart s = .next s)
    ∧ (∀ place, s.passRunning = false → exec (.sweepVisit place) s = .next s)
    ∧ (s.passRunning = true →
      (∀ page, ∃ t, exec (.sweepVisit (.memory page)) s = .next t ∧ { t with tags := s.tags, tagPages := s.tagPages } = s
        ∧ ∀ a, t.tagAt a = (s.tagAt a && !(decide (a / 4096 = page) && s.sweeping (BitVec.ofNat 128 (s.num (a / 16 * 16) 16)))))
      ∧ (∀ uid k q p r, s.party? uid = some p → p.ropes[k]? = some r → q < 64 → ∃ t p' r', exec (.sweepVisit (.quad uid k q)) s = .next t
        ∧ t.onlyParty s uid ∧ t.party? uid = some p' ∧ p'.ropes[k]? = some r' ∧ { r' with qtag := r.qtag } = r
        ∧ ∀ l n, l < 32 → n < 64 → r'.tag l (4 * n) = (r.tag l (4 * n) && !(decide (n = q) && s.sweeping (r.quad l (4 * n)))))
      ∧ (∀ uid p, s.party? uid = some p → ∃ t, exec (.sweepVisit (.code uid)) s = .next t ∧ t.onlyParty s uid
        ∧ t.party? uid = some { p with codeTag := p.codeTag && !(s.sweeping p.code) })
      ∧ ∀ id j p, s.job? id = some j → j.kind = .copy p → j.ceased = false →
        (j.caps.any s.sweeping = true → ∃ t y, exec (.sweepVisit (.job id)) s = .next t ∧ t.job? id = some y
          ∧ y = { j with ceased := true, fault := Cause.revoked.code } ∧ { t with jobs := s.jobs } = s)
        ∧ (j.caps.any s.sweeping = false → exec (.sweepVisit (.job id)) s = .next s))
    ∧ (let ready := s.passRunning = true ∧ s.visited = true ∧ s.inFlight = false
      (ready → ∃ t, exec .sweepPassComplete s = .next t ∧ t.passDone = s.passDone + 1 ∧ t.mem = s.mem
        ∧ (∀ a, t.tagAt a = (s.tagAt a && !(s.sweeping (BitVec.ofNat 128 (s.num (a / 16 * 16) 16)))))
        ∧ (∀ x y, s.raceAt x = some y → (∃ e ∈ s.revMap, e.pass = s.passDone + 1 ∧ e.colour = SMap.get 0 s.agentColour y.agent.toNat
            ∧ e.range = none) → (⟨y.agent.toNat, y.gen.toNat + 1, x * 16, x * 16 + 16⟩ : PartKnow) ∈ t.passKnow.part)
        ∧ t.revMap = s.revMap.filter (fun e => e.pass != s.passDone + 1) ∧ t.passRunning = decide (t.revMap ≠ [])
        ∧ ∀ e ∈ s.revMap, e.pass = s.passDone + 1 → e.range = none → SMap.get .free s.colours e.colour = .retiring →
          SMap.get .free t.colours e.colour = .free)
      ∧ (¬ready → exec .sweepPassComplete s = .next s))
    ∧ (∀ c uid k pos a q m d g nw, s.ctxAt uid k pos = some c → c.entry.wait = some (.mapRoom a q m d) →
      Instr.wf (.revk g nw d a) = true →
      let pass := if s.passRunning then s.passDone + 2 else s.passDone + 1
      (s.revMap.length < 1024 → ∃ r, EffectRope c (laneEffect c 12 m [(a, 4)] fun _ => Fx.pair d pass) r
        ∧ exec (.revocationMapRoom uid k pos) s = .next ({ s with
          revMap := s.revMap ++ [(⟨some (capBase q, capBase q + capLen q), capColour q, pass⟩ : RevEntry)] }.setParty (c.party.setRope k r)))
      ∧ (1024 ≤ s.revMap.length → exec (.revocationMapRoom uid k pos) s = .next s))
    ∧ ∀ die,
      (die < 4 → (s.die die).fenced = true → ∃ t, exec (.dieBroughtBack die) s = .next t ∧ (t.die die).fenced = false
        ∧ (∀ d, d ≠ die → t.die d = s.die d) ∧ t.mem = s.mem ∧ t.parties = s.parties
        ∧ (∀ a, t.tagAt a = (s.tagAt a && !(decide (homeDie (a / 16 * 16) = die) && s.sweeping (BitVec.ofNat 128 (s.num (a / 16 * 16) 16)))))
        ∧ ∀ d a, a < 2 ^ 48 → SMap.get none t.icache (icacheKey d a) = if d = die then none else SMap.get none s.icache (icacheKey d a))
      ∧ (4 ≤ die ∨ (s.die die).fenced = false → exec (.dieBroughtBack die) s = .next s)

/-- A LOAD of a granted image that the loader accepts installs the object under a handle that no object has, and completes
CMD_OK with it; one that it refuses completes with its code; without the grant BAD_COMMAND. A LAUNCH of a loaded object with its
code, its frames and arguments sound starts a launch whose record holds the party range under the lowest free id, the arguments
standing in a single frame; an unknown object is BAD_COMMAND, no code LOAD_NO_VARIANT, no place NO_PLACEMENT. GRAPHLOAD installs
a sound table. A GRAPH of an idle table runs it, its counters at NPRED; of a running one it waits. UNLOAD drops an object or
table that is not in use, else BAD_COMMAND. A LOAD or LAUNCH for whose texts firmware has no room waits, and so does any command
at far pages that may not be accessed. Of the model's choices it uses logs 8, 12, 55, 68, 69, 74, 75.
(15_queues_graphs_launch.md R316, 15_queues_graphs_launch.md R317, 15_queues_graphs_launch.md R318, 15_queues_graphs_launch.md
R322, 15_queues_graphs_launch.md R324, 15_queues_graphs_launch.md R326, 15_queues_graphs_launch.md R333,
15_queues_graphs_launch.md R334) -/
def Obligations.ObjectAndGraphCommands : Prop :=
  ∀ (s : State) (q seq : Nat) (b : List Byte) (k : Know), s.cmdAt q = some (seq, b, k) →
    (s.cmdShut q b ≠ [] → ∀ i, i ∈ [Instr.load q, .launch q, .graphload q, .graph q, .unload q, .cmdblk q, .fwin q, .signal q, .wait q, .copy q,
      .collectiveLoad q, .collectiveReplay q, .collectiveUnload q, .codeSync q] →
      ∃ t, exec i s = .next t ∧ t.sameMemory s ∧ t.queues = s.queues ∧ t.posts = s.posts ∧ t.cmds = s.cmds) ∧ (s.cmdShut q b = [] →
    let op := numAt b 0 1
    let colour := (s.queue q).colour
    let h := numAt b 8 4
    (op = 0 ∨ 0x0C < op → ∃ t, exec (.load q) s = .next t ∧ t.completed s q b 0x0103 0)
    ∧ (op = 0x01 → s.led = true →
      (s.imageOk q b = false → ∃ t, exec (.load q) s = .next t ∧ t.completed s q b 0x0103 0)
      ∧ (s.imageOk q b = true →
        (∀ e, s.judge colour (bitOf (s.queue q).flags 0) (s.imageBytes b) = .inl e → ∃ t, exec (.load q) s = .next t
          ∧ t.completed s q b 0x0104 (e.1 * 2 ^ 32 + e.2 % 2 ^ 32) ∧ t.objects = s.objects)
        ∧ ∀ p, s.judge colour (bitOf (s.queue q).flags 0) (s.imageBytes b) = .inr p →
          ((s.takeCmd q).installObject colour p = none → exec (.load q) s = .next s)
          ∧ ((s.takeCmd q).installObject colour p ≠ none → ∃ t o, exec (.load q) s = .next t ∧ t.completed s q b 0x0100 o.handle ∧ o ∈ t.objects ∧ o.colour = colour ∧ o.entries = p.entries
            ∧ o.cards = p.cards ∧ o.handle ≠ 0 ∧ ∀ y ∈ s.objects, y.handle ≠ o.handle)))
    ∧ (op = 0x02 → s.launchHeld colour b = true → exec (.launch q) s = .next s)
    ∧ (op = 0x02 → s.led = true → s.safeHolds q = false → s.launchHeld colour b = false →
      let r := LaunchReq.of b
      (s.object? colour r.object = none → ∃ t, exec (.launch q) s = .next t ∧ t.completed s q b 0x0103 0 ∧ t.launches = s.launches)
      ∧ ∀ o e caps, s.object? colour r.object = some o → o.entries[r.entry]? = some e → s.listCaps colour r.args r.nargs = some caps →
        r.ok = true → s.framesOk colour r = true →
        ((s.takeCmd q).selectCode o = none → ∃ t, exec (.launch q) s = .next t ∧ t.completed s q b 0x0104 (2 ^ 32) ∧ t.launches = s.launches)
        ∧ ∀ x text, (s.takeCmd q).selectCode o = some (x, text) →
          (s.placeableEntry q e (text.place.getD r.entry []) = false → ∃ t, exec (.launch q) s = .next t ∧ t.completed s q b 0x0101 0
            ∧ t.launches = s.launches)
          ∧ ∀ id, s.placeableEntry q e (text.place.getD r.entry []) = true → o.cards[e.route]? = none → s.freeRecord = some id →
            ∃ t l rec, exec (.launch q) s = .next t ∧ t.begun s q seq b (.launch s.launchCtr) ∧ t.launches = s.launches ++ [l]
              ∧ l.id = s.launchCtr ∧ l.queue = q ∧ l.colour = colour ∧ l.by' = .command q seq ∧ l.object = o.handle ∧ l.seed = r.seed
              ∧ l.drawkey = r.drawkey ∧ l.code = capMake text.at' text.size pEXEC colour 0 ∧ l.records = [rec] ∧ rec.id = id
              ∧ rec.entry = r.entry ∧ rec.next = 0 ∧ rec.hi = r.parties ∧ rec.frame = .strided r.fbase r.flen r.fstride r.fperms
              ∧ (r.fstride = 0 → s.near r.fbase (16 * r.nargs) = true → ∀ i c, caps[i]? = some c → t.bytes (r.fbase + 16 * i) 16 = leBytes 16 c.toNat
                ∧ t.tagAt (r.fbase + 16 * i) = s.tagFor c true))
    ∧ (op = 0x03 → s.led = true →
      (s.imageOk q b = false → ∃ t, exec (.graphload q) s = .next t ∧ t.completed s q b 0x0103 0 ∧ t.graphs = s.graphs)
      ∧ (s.imageOk q b = true →
        ((s.takeCmd q).loadGraph colour (s.imageBytes b) = none → ∃ t, exec (.graphload q) s = .next t ∧ t.completed s q b 0x0106 0
          ∧ t.graphs = s.graphs)
        ∧ ∀ x, (s.takeCmd q).loadGraph colour (s.imageBytes b) = some x → ∃ t g, exec (.graphload q) s = .next t
          ∧ t.completed s q b 0x0100 g.handle ∧ t.graphs = s.graphs ++ [g] ∧ g.colour = colour ∧ g.run = none ∧ g.handle ≠ 0
          ∧ ∀ y ∈ s.graphs, y.handle ≠ g.handle))
    ∧ (op = 0x04 →
      ((s.graphs.any fun g => g.handle == h && g.colour == colour) = false → ∃ t, exec (.graph q) s = .next t ∧ t.completed s q b 0x0103 0)
      ∧ ∀ g, s.graph? h = some g → g.colour = colour → headOk b 0 = true → restZero b 0x0C = true →
        (g.run.isSome = true → ∃ t, exec (.graph q) s = .next t ∧ t.begun s q seq b (.graphWait h) ∧ t.graphs = s.graphs)
        ∧ (g.run = none → ∀ n x, g.nodes[n]? = some x → x.npred = 0 → x.kind = .wait →
          ∃ t g' r, exec (.graph q) s = .next t ∧ t.begun s q seq b (.graph h) ∧ t.graph? h = some g' ∧ g'.run = some r
            ∧ r.cmd = .command q seq ∧ (∀ i y, g.nodes[i]? = some y → SMap.get 0 r.counters i = (y.npred : Int))
            ∧ (n, .poll (numAt x.payload 8 8) (numAt x.payload 0x10 8)) ∈ r.running))
    ∧ (op = 0x05 → headOk b 0 = true → restZero b 0x0C = true →
      ((s.object? colour h).isSome = true → s.objectUsed h = false → ∃ t, exec (.unload q) s = .next t ∧ t.completed s q b 0x0100 0
        ∧ t.objects = s.objects.filter (fun o => o.handle != h) ∧ t.graphs = s.graphs)
      ∧ ((s.object? colour h).isSome = false → (s.graphs.any fun g => g.handle == h && g.colour == colour && g.run.isNone) = true →
        ∃ t, exec (.unload q) s = .next t ∧ t.completed s q b 0x0100 0 ∧ t.graphs = s.graphs.filter (fun g => g.handle != h)
          ∧ t.objects = s.objects)
      ∧ ((s.object? colour h).isSome = true → s.objectUsed h = true →
        (s.graphs.any fun g => g.handle == h && g.colour == colour && g.run.isNone) = false →
        ∃ t, exec (.unload q) s = .next t ∧ t.completed s q b 0x0103 0 ∧ t.objects = s.objects ∧ t.graphs = s.graphs)))

/-- CMDBLK over granted entries leaves the sealed CMD capability of the 64 bytes at its address. FWIN with a sound descriptor
sets its window; an unsound one completes WINDOW_BAD. SIGNAL to granted HBM leaves its value in the word, no other byte changed,
and sends its vector. WAIT of a granted word is in execution. COPY that may be made is in execution with one job on its die;
with the die's cards in use it waits. COLLECTIVE LOAD installs a plan, REPLAY starts a replay with the plan's next number,
UNLOAD drops a plan that no replay runs. CODE_SYNC drops the range from every healthy die's instruction cache. Each that may not
be made completes BAD_COMMAND, or with the code of its image. Of the model's choices it uses logs 29, 55, 71, 74, 77.
(10_span_memory.md R220, 10_span_memory.md R236, 12_copy_engine.md R273, 15_queues_graphs_launch.md R316,
15_queues_graphs_launch.md R317, 15_queues_graphs_launch.md R318, 15_queues_graphs_launch.md R336, 18_fabric_collectives_pool.md
R388, 18_fabric_collectives_pool.md R392) -/
def Obligations.MemoryAndCollectiveCommands : Prop :=
  ∀ (s : State) (q seq : Nat) (b : List Byte) (k : Know), s.cmdAt q = some (seq, b, k) → s.cmdShut q b = [] →
    let op := numAt b 0 1
    let colour := (s.queue q).colour
    let a := numAt b 8 8
    let v := numAt b 0x10 8
    let h := numAt b 8 4
    let bad (i : Instr) : Prop := ∃ t, exec i s = .next t ∧ t.completed s q b 0x0103 0 ∧ t.sameMemory s
    (op = 0x06 → s.led = true →
      (s.makeBlock colour b = none → bad (.cmdblk q))
      ∧ (s.makeBlock colour b ≠ none → v + 16 ≤ a ∨ a + 64 ≤ v → s.near v 16 = true → s.near a 64 = true →
        ∃ t, exec (.cmdblk q) s = .next t ∧ t.completed s q b 0x0100 0
          ∧ (let cap := capMake a 64 (pCMD + pGLOBAL + if numAt b 2 2 = 1 then pDELEG else 0) colour 1
             t.bytes v 16 = leBytes 16 cap.toNat ∧ t.tagAt v = s.tagFor cap true)
          ∧ ∀ i, i < 2 → ∃ c, s.listCap colour (s.num (a + 16 * i) 16) = some c ∧ t.bytes (a + 16 * i) 16 = leBytes 16 c.toNat
            ∧ t.tagAt (a + 16 * i) = s.tagFor c true))
    ∧ (op = 0x07 → s.led = true →
      let st := numAt b 8 1
      let j := numAt b 9 1
      let ok := headOk b 0 && restZero b 0x18 && numAt b 0x0A 6 == 0 && decide (st < 12) && decide (j < 8) && s.granted colour v 32
      (ok = false → bad (.fwin q))
      ∧ (ok = true → s.windowOk colour st j (s.num v 32) = false → ∃ t, exec (.fwin q) s = .next t ∧ t.completed s q b 0x0108 0
        ∧ t.windows = s.windows)
      ∧ (ok = true → s.windowOk colour st j (s.num v 32) = true → ∃ t, exec (.fwin q) s = .next t ∧ t.completed s q b 0x0100 0
        ∧ ∀ n, SMap.get 0 t.windows n = if n = 8 * st + j then s.num v 32 else SMap.get 0 s.windows n))
    ∧ (op = 0x08 →
      (headOk b 0 = false ∨ s.signalOk colour b = false → bad (.signal q))
      ∧ (headOk b 0 = true → s.signalOk colour b = true → s.near a 8 = true → b.length = 64 → ∃ t, exec (.signal q) s = .next t
        ∧ t.completed s q b 0x0100 0 ∧ t.num a 8 = v ∧ (∀ x, (x < a ∨ a + 8 ≤ x) → t.byte x = s.byte x)
        ∧ t.msix = if numAt b 0x18 2 = 0xFFFF then s.msix else numAt b 0x18 2 :: s.msix))
    ∧ (op = 0x09 →
      (headOk b 0 = false ∨ s.waitOk colour b = false → bad (.wait q))
      ∧ (headOk b 0 = true → s.waitOk colour b = true → ∃ t, exec (.wait q) s = .next t ∧ t.begun s q seq b (.poll a v) ∧ t.sameMemory s
        ∧ t.posts = s.posts))
    ∧ (op = 0x0A →
      (s.dieFull (copyDie b) = true → exec (.copy q) s = .next s)
      ∧ (s.dieFull (copyDie b) = false →
        (headOk b 0 = false ∨ s.copyCaps colour b = none → bad (.copy q))
        ∧ ∀ caps, headOk b 0 = true → s.copyCaps colour b = some caps → ∃ t j, exec (.copy q) s = .next t
          ∧ t.begun s q seq b (.job j.id) ∧ t.jobs = s.jobs ++ [j] ∧ j.die = copyDie b ∧ j.by' = .command q (numAt b 4 4) ∧ j.caps = (if (copyProbe b).zero then caps.drop 1 else caps)
          ∧ j.colour = colour ∧ j.running = false ∧ j.moved = 0 ∧ t.sameMemory s))
    ∧ (op = 0x0B →
      (numAt b 2 2 = 0 → s.led = true →
        (s.imageOk q b = false → bad (.collectiveLoad q))
        ∧ (s.imageOk q b = true →
          ((s.takeCmd q).loadPlan colour (s.imageBytes b) = none → ∃ t, exec (.collectiveLoad q) s = .next t ∧ t.completed s q b 0x0107 0
            ∧ t.plans = s.plans)
          ∧ ∀ x, (s.takeCmd q).loadPlan colour (s.imageBytes b) = some x → ∃ t p, exec (.collectiveLoad q) s = .next t
            ∧ t.completed s q b 0x0100 p.handle ∧ t.plans = s.plans ++ [p] ∧ p.colour = colour ∧ p.next = 0
            ∧ ∀ y ∈ s.plans, y.handle ≠ p.handle))
      ∧ (numAt b 2 2 = 1 →
        (headOk b 1 = false ∨ s.replayCaps colour b = none → bad (.collectiveReplay q))
        ∧ ∀ p caps, headOk b 1 = true → s.plan? colour h = some p → s.replayCaps colour b = some caps → ∃ t r, exec (.collectiveReplay q) s = .next t
          ∧ t.begun s q seq b (.replay s.replayCtr) ∧ t.replays = s.replays ++ [r] ∧ r.id = s.replayCtr ∧ r.plan = p.handle ∧ r.seq = p.next
          ∧ r.caps = caps ∧ r.started = false ∧ r.by' = some (.command q seq) ∧ t.sameMemory s
          ∧ t.plans = s.plans.map fun y => if y.handle = p.handle then { y with next := (y.next + 1) % 2 ^ 31 } else y)
      ∧ (numAt b 2 2 = 2 →
        let may := headOk b 2 && restZero b 0x0C && (s.plan? colour h).isSome && !(s.replays.any fun r => r.plan == h)
        (may = false → bad (.collectiveUnload q))
        ∧ (may = true → ∃ t, exec (.collectiveUnload q) s = .next t ∧ t.completed s q b 0x0100 0
          ∧ t.plans = s.plans.filter (fun p => p.handle != h) ∧ t.sameMemory s)))
    ∧ (op = 0x0C →
      let may := headOk b 0 && restZero b 0x18 && (v == 0 || s.granted colour a v)
      (may = false → bad (.codeSync q))
      ∧ (may = true → ∃ t, exec (.codeSync q) s = .next t ∧ t.completed s q b 0x0100 0 ∧ t.sameMemory s
        ∧ (v = 0 → t.icache = s.icache)
        ∧ ∀ d x, d < 4 → (s.die d).fenced = false → x < 2 ^ 48 → a ≤ x + 3 → x < a + v → SMap.get none t.icache (icacheKey d x) = none))

/-- A rope that traps outside a handler with a handler set and room on its stack holds, in TPC the issuing slot's PC, in TCAUSE
the code with bit 8 for slot B and bit 9 for a gang, the mask and TINFO; HM is set, HDEPTH is the depth, and the stack has one
entry more: a side entry with no reconvergence point, PC = TRAPVEC and the slot's mask; its registers, flags, age stamp and
everything outside the rope stand. In a handler the party ends, nested; with TRAPVEC 0 it ends; with a full stack it ends,
nested, with cause CONTROL_STACK. That a party's end is one step is log 93. (17_traps_and_preemption.md R347) -/
def Obligations.TrapEntry : Prop :=
  ∀ (c : Ctx) (gang : Bool) (cause : Cause) (m : Word) (v : Nat), c.s.ctx? = some c →
    (c.mayEnter = true → c.trapWith gang cause m v = c.put (c.entered gang cause.code m v))
    ∧ (c.rope.hm = true → c.ends (c.trapWith gang cause m v) true false c.entry.pc cause.code)
    ∧ (c.rope.hm = false → c.rope.trapvec = 0 → c.ends (c.trapWith gang cause m v) false false c.entry.pc cause.code)
    ∧ (c.rope.hm = false → c.rope.trapvec ≠ 0 → c.rope.stack.length = c.party.capacity →
      c.ends (c.trapWith gang cause m v) true false c.entry.pc 0x0F)

/-- With no active lane trap and bkpt advance the PC by 8 and do nothing else; so does bkpt with TRAPVEC 0 or inside a handler.
Otherwise trap raises SOFTWARE and bkpt BREAKPOINT, with the active lanes in TMASK and CODE in TINFO: the handler is entered,
and trap inside a handler ends the party, nested. Neither changes what the rope knows of other agents' writes nor releases
anything. The words 0x00001F21, 0x00001C00 are trap 7, and 0x00001F31, 0x00010800 are bkpt 0x42. That a party's end is one step
is log 93. (17_traps_and_preemption.md R353, 17_traps_and_preemption.md R354) -/
def Obligations.TrapInstructions : Prop :=
  ∀ (c : Ctx) (g : Guard) (code : BitVec 16), c.s.ctx? = some c →
    let m := c.active g
    let next := (Host.Outcome.next (c.put { c.rope with stack := c.past 8 }) : Out)
    (m = 0 → exec (.trap g code) c.s = next ∧ exec (.bkpt g code) c.s = next)
    ∧ (c.rope.trapvec = 0 ∨ c.rope.hm = true → exec (.bkpt g code) c.s = next)
    ∧ (m ≠ 0 → c.mayEnter = true → exec (.trap g code) c.s = .next (c.put (c.entered false 0x16 m code.toNat))
      ∧ exec (.bkpt g code) c.s = .next (c.put (c.entered false 0x15 m code.toNat)))
    ∧ (m ≠ 0 → c.rope.hm = true → ∃ t, exec (.trap g code) c.s = .next t ∧ c.ends t true false c.entry.pc 0x16)
    ∧ (m ≠ 0 → c.rope.hm = false → c.rope.trapvec = 0 → ∃ t, exec (.trap g code) c.s = .next t ∧ c.ends t false false c.entry.pc 0x16)
    ∧ (m ≠ 0 → c.rope.hm = false → c.rope.trapvec ≠ 0 → c.rope.stack.length = c.party.capacity →
      (∃ t, exec (.trap g code) c.s = .next t ∧ c.ends t true false c.entry.pc 0x0F)
      ∧ ∃ t, exec (.bkpt g code) c.s = .next t ∧ c.ends t true false c.entry.pc 0x0F)
    ∧ decode 0 0x00001C0000001F21 = .ok (.trap ⟨false, 7⟩ 7) 8 ∧ decode 0 0x0001080000001F31 = .ok (.bkpt ⟨false, 7⟩ 0x42) 8

/-- tret outside a handler raises ILLEGAL_ENCODING; at another depth than HDEPTH + 1 it ends the party, nested; .end ends it
with bit 8; retry and skip take the handler's entry off, clear HM and set the frozen slot's PC to TPC, or past the instruction
there by the LEN of its word; a fetch fault ends the party, nested. rdsr writes the register into the pair of every live lane,
or the uniform pair, and nothing else. wrsr takes the pair of the lowest live lane or the uniform pair: FPSTAT loses the bits
that are one, TRAPVEC and, in a handler, TPC hold bits 47 to 2; any other, and TPC outside, raises ILLEGAL_ENCODING. Only last
use changes a register. That a party's end is one step is log 93. Of the model's choices it uses logs 24, 34.
(17_traps_and_preemption.md R351, 17_traps_and_preemption.md R355, 17_traps_and_preemption.md R356) -/
def Obligations.ReturnsAndSystemRegisters : Prop :=
  ∀ (c : Ctx), c.s.ctx? = some c →
    (∀ op, (c.rope.hm = false → exec (.tret op) c.s
        = .next (c.trapWith false .illegalEncoding c.entry.mask (encodeBits (.tret op) % 2 ^ 64)))
      ∧ (c.rope.hm = true → c.rope.stack.length ≠ c.rope.hdepth + 1 →
        ∃ t, exec (.tret op) c.s = .next t ∧ c.ends t true false c.rope.tpc 0x0F))
    ∧ (c.rope.hm = true → c.rope.stack.length = c.rope.hdepth + 1 →
      let back (pc : BitVec 48) : Rope := { c.rope with
        hm := false
        stack := (c.rope.stack.eraseIdx c.pos).modify (if c.rope.tcause.getLsbD 8 then 1 else 0) fun e => { e with pc := pc, wait := none } }
      (∃ t, exec (.tret .endParty) c.s = .next t ∧ c.ends t false true c.rope.tpc 0)
      ∧ exec (.tret .retry) c.s = .next (c.put (back c.rope.tpc))
      ∧ (∀ w, c.s.fetchWord c.party c.rope c.rope.tpc c.rope.tpc.toNat = .ok w → ∃ t r, exec (.tret .skip) c.s = .next t ∧ t = c.put r
        ∧ { r with drawtWait := c.rope.drawtWait } = back (c.rope.tpc + match w.toNat % 4 with
          | 1 => 8
          | 2 => 12
          | 3 => 16
          | _ => 4))
      ∧ ∀ e v, c.s.fetchWord c.party c.rope c.rope.tpc c.rope.tpc.toNat = .cause e v →
        ∃ t, exec (.tret .skip) c.s = .next t ∧ c.ends t true false c.entry.pc e.code)
    ∧ (∀ srn d, Instr.wf (.rdsr srn d) = true → Does c (.rdsr srn d) (match d with
      | .lane d => laneEffect c 8 c.entry.mask [] fun _ => Fx.pair d (c.sysReg srn.toNat % 2 ^ 64)
      | .unif d => { RopeEffect.idle c 8 with once := Fx.pair d (c.sysReg srn.toNat % 2 ^ 64) }))
    ∧ ∀ srn a,
      let v := match a with
        | .lane x => c.rope.x64 (firstLane c.entry.mask.getLsbD) x.r.toNat
        | .unif r => c.rope.s64 r.toNat
      let target := v.extractLsb' 0 48 &&& 0xFFFFFFFFFFFC#48
      let does (b : Rope) : Prop := ∃ r, exec (.wrsr srn a) c.s = .next (c.put r) ∧ EffectRope c { (match a with
        | .lane x => laneEffect c 8 c.entry.mask [(x, 2)] fun _ => {}
        | .unif _ => RopeEffect.idle c 8) with base := b } { r with fpst := c.rope.fpst } ∧ r.fpst = b.fpst
      (Instr.wf (.wrsr srn a) = true → (srn = 0 → does { c.rope with fpst := c.rope.fpst &&& ~~~(v.extractLsb' 0 6) })
        ∧ (srn = 2 → does { c.rope with trapvec := target })
        ∧ (srn = 3 → c.rope.hm = true → does { c.rope with tpc := target }))
      ∧ (srn ≠ 0 → srn ≠ 2 → (srn = 3 → c.rope.hm = false) →
        exec (.wrsr srn a) c.s = .next (c.trapWith false .illegalEncoding c.entry.mask (encodeBits (.wrsr srn a) % 2 ^ 64)))

/-- A request of another CODE, or none, leaves the machine; MAILBOX_REQUEST_EXECUTION carries out the request that waits, an
unlisted CODE or an unsound head being answered BAD_REQUEST. The answer stands in the response buffer, BUSY falls, MBVEC is
sent. QUEUE_SET within its limits (else BAD_REQUEST) on a FREE or IDLE queue (else BUSY) writes the record from the payload;
HEAD and TAIL are zero if it was FREE. QUEUE_FREE frees an IDLE or LOST queue, else BUSY. BUCKET_SET fills the bucket.
COLOUR_NEW makes the lowest FREE colour LIVE with PINQUOTA 0 (lowest: log 45), or answers COLOUR_EXHAUSTED. COLOUR_RETIRE of a
LIVE colour without queues makes it RETIRING, ends its grants, admissions and delegations, and adds a map entry. GRANT and
UNGRANT add and take bytes, none of them HBM that firmware keeps (log 8). PINQUOTA_SET sets the quota. Nothing else changes. Of
the model's choices it uses logs 9, 67, 82. (09_capabilities.md R202, 09_capabilities.md R205, 13_tiers_and_route_cards.md R297,
15_queues_graphs_launch.md R311, 15_queues_graphs_launch.md R313, 15_queues_graphs_launch.md R314, 15_queues_graphs_launch.md
R320) -/
def Obligations.QueueAndColourRequests : Prop :=
  ∀ (s : State),
    (∀ i code, requestCode i = some code → (s.mailCode ≠ some code → exec i s = .next s)
      ∧ (s.mailCode = some code → exec .mailboxRequestExecution s = exec i s
        ∧ (s.headSound = false → Replies i s s 1 0 [])))
    ∧ (s.mailCode = none → exec .mailboxRequestExecution s = .next s)
    ∧ (∀ code, s.mailCode = some code → (code = 0 ∨ 18 < code) → Replies .mailboxRequestExecution s s 1 0 [])
    ∧ (∀ p, s.requested 1 p → let q := numAt p 0 2
      let x := s.queue q
      (s.queueSetOk p = false → Replies .queueSet s s 1 0 [])
      ∧ (s.queueSetOk p = true → x.st ≠ .free → x.st ≠ .idle → Replies .queueSet s s 2 0 [])
      ∧ (s.queueSetOk p = true → (x.st = .free ∨ x.st = .idle) → ∃ (s' : State) (y : QueueRec), Replies .queueSet s s' 0 0 [] ∧ s'.queue q = y
        ∧ y.prio = numAt p 8 1 ∧ y.flags = numAt p 9 2 ∧ y.colour = numAt p 11 2 ∧ y.bucket = numAt p 13 2 ∧ y.ring = numAt p 15 8
        ∧ y.rsize = numAt p 23 1 ∧ y.wdog = numAt p 27 4 ∧ y.parklim = numAt p 47 4 ∧ y.part = numAt p 55 32
        ∧ y.compring = capMake (numAt p 87 8) 64 (pLD + pST + pGLOBAL) (numAt p 11 2) 0 ∧ y.slot = none
        ∧ y.head = (if x.st = .free then 0 else x.head) ∧ y.tail = (if x.st = .free then 0 else x.tail)
        ∧ y.st = (if (s.bucket y.bucket).dry then .dry else if y.head ≠ y.tail ∨ s.working q = true then .active else .idle)
        ∧ (∀ z, z ≠ q → s'.queue z = s.queue z) ∧ { s' with queues := s.queues, moments := s.moments } = s))
    ∧ (∀ q, q < 65536 → s.requested 2 (leBytes 2 q) →
      let idle := (s.queue q).st = .idle ∨ (s.queue q).st = .lost
      (idle → (s.queue q).ending = false → Replies .queueFree s (s.setQueue q { s.queue q with st := .free, slot := none }) 0 0 [])
      ∧ (idle → (s.queue q).ending = true → ∃ s' : State, Replies .queueFree s s' 0 0 [] ∧ (s'.queue q).st = .free ∧ s'.mem = s.mem
        ∧ s'.parties = s.parties ∧ ∀ x ∈ s'.cmds, x.queue ≠ q)
      ∧ (¬idle → Replies .queueFree s s 2 0 []))
    ∧ (∀ b cap rate resume, b < 65536 → cap < 2 ^ 64 → rate < 2 ^ 32 → resume < 2 ^ 64 →
      s.requested 3 (leBytes 2 b ++ leBytes 6 0 ++ leBytes 8 cap ++ leBytes 4 rate ++ leBytes 4 0 ++ leBytes 8 resume) →
      let ok := b < 4096 ∧ 0 < cap ∧ cap ≤ 2 ^ 62 ∧ 0 < resume ∧ resume ≤ cap
      (ok → ∃ s' : State, Replies .bucketSet s s' 0 0 [] ∧ s'.bucket b = ⟨8 * cap, cap, rate, false, resume, s.timer / 1000 * 1000, (s.bucket b).ran⟩
        ∧ (∀ x, x ≠ b → s'.bucket x = s.bucket x)
        ∧ (∀ q, ((s.queue q).bucket = b → (s'.queue q).st ≠ .dry) ∧ ((s.queue q).bucket ≠ b → s'.queue q = s.queue q))
        ∧ { s' with buckets := s.buckets, queues := s.queues, launches := s.launches, moments := s.moments } = s)
      ∧ (¬ok → Replies .bucketSet s s 1 0 []))
    ∧ (s.requested 4 [] →
      (∀ c, 1 ≤ c → c ≤ 16383 → SMap.get .free s.colours c = .free → (∀ d, 1 ≤ d → d < c → SMap.get .free s.colours d ≠ .free) →
        Replies .colourNew s { s with colours := SMap.set .free s.colours c .live, quota := SMap.set 0 s.quota c 0 } 0 c [])
      ∧ ((∀ c, 1 ≤ c → c ≤ 16383 → SMap.get .free s.colours c ≠ .free) → Replies .colourNew s s 3 0 []))
    ∧ (∀ c, c < 65536 → s.requested 5 (leBytes 2 c) →
      let used := ∃ e ∈ s.queues, e.2.colour = c ∧ e.2.st ≠ .free
      (s.live c = false → Replies .colourRetire s s 1 0 [])
      ∧ (s.live c = true → used → Replies .colourRetire s s 2 0 [])
      ∧ (s.live c = true → ¬used → s.mapFull = true → Replies .colourRetire s s 8 0 [])
      ∧ (s.live c = true → ¬used → s.mapFull = false → ∃ s' : State, Replies .colourRetire s s' 0 s.nextPass []
        ∧ s'.colours = SMap.set .free s.colours c .retiring ∧ s'.revMap = s.revMap ++ [⟨none, c, s.nextPass⟩]
        ∧ s'.quota = SMap.set 0 s.quota c 0 ∧ s'.grants = s.grants.filter (fun (g : GrantRec) => g.colour != c)
        ∧ (∀ i x, SMap.get none s'.admits i = some x → x.lcolour ≠ c)
        ∧ (∀ i, (∀ x, SMap.get none s.admits i = some x → x.lcolour ≠ c) → SMap.get none s'.admits i = SMap.get none s.admits i)
        ∧ (∀ e d, (s'.delgSlot e).body = some d → capColour d.cap ≠ c)
        ∧ (∀ e, (∀ x ∈ s.delgs, x.1 = e → ∀ d, x.2.body = some d → capColour d.cap ≠ c) → s'.delgSlot e = s.delgSlot e)
        ∧ { s' with colours := s.colours, revMap := s.revMap, quota := s.quota, grants := s.grants, admits := s.admits, delgs := s.delgs }
          = s))
    ∧ (∀ c kind base len, c < 65536 → kind < 256 → base < 2 ^ 64 → len < 2 ^ 64 →
      let p := leBytes 2 c ++ leBytes 1 kind ++ leBytes 5 0 ++ leBytes 8 base ++ leBytes 8 len
      let ok := s.live c = true ∧ 0 < len ∧ inKind kind base len ∧ s.tenantRange base len
      (s.requested 6 p → (ok → Replies .grant s
            { s with grants := if ⟨c, kind, base, len⟩ ∈ s.grants then s.grants else s.grants ++ [⟨c, kind, base, len⟩] } 0 0 [])
        ∧ (¬ok → Replies .grant s s 1 0 []))
      ∧ (s.requested 7 p → (ok → s.mapFull = false → ∃ l, Replies .ungrant s
            { s with grants := l, revMap := s.revMap ++ [⟨some (base, base + len), c, s.nextPass⟩] } 0 s.nextPass []
            ∧ ∀ d a, coversByte l d a = (coversByte s.grants d a && !(decide (d = c) && decide (base ≤ a) && decide (a < base + len))))
        ∧ (ok → s.mapFull = true → Replies .ungrant s s 8 0 []) ∧ (¬ok → Replies .ungrant s s 1 0 [])))
    ∧ ∀ c n, c < 65536 → n < 2 ^ 32 → s.requested 18 (leBytes 2 c ++ leBytes 6 0 ++ leBytes 4 n) →
      (s.live c = true → Replies .pinquotaSet s { s with quota := SMap.set 0 s.quota c n } 0 0 [])
      ∧ (s.live c = false → Replies .pinquotaSet s s 1 0 [])

/-- Each request within its limits answers MGMT_OK and has its effect, else BAD_REQUEST, and nothing else changes. ADMIT writes
or clears an admission entry, REGION_SET a pool region, ROUTE_SET a device's ports in order, KEYS_SET a colour's keys;
HANDLE_FREE of an entry in use marks it free after the pass whose number it answers and adds its range to the map. PORT_STATUS
answers the sixteen status words, COUNTERS a die's ten counters, cleared if asked. SPARE_THRESHOLD sets a threshold and marks
the units that have reached it. FW_ACTIVATE refuses an image whose ECDSA or LMS signature fails, or that is too old, and one
that cannot read a saved party's layout; forced, those queues are LOST and drained first; then the image is active. ATTEST
writes the report of the nonce into host memory: image digest, DMSIG, nonce, both signatures. Far pages are fetched first. Of
the model's choices it uses logs 12, 60, 75, 82, 84. (02_instruction_words.md R49, 17_traps_and_preemption.md R368,
17_traps_and_preemption.md R369, 18_fabric_collectives_pool.md R372, 18_fabric_collectives_pool.md R373,
18_fabric_collectives_pool.md R374, 18_fabric_collectives_pool.md R382, 18_fabric_collectives_pool.md R397,
19_firmware_power_spares.md R409, 19_firmware_power_spares.md R413, 19_firmware_power_spares.md R414) -/
def Obligations.TableAndFirmwareRequests : Prop :=
  ∀ (s : State),
    (∀ i (b : List Byte), i < 65536 → b.length = 32 → s.requested 8 (leBytes 2 i ++ leBytes 6 0 ++ b) →
      let x : Admit := ⟨numAt b 0 1 - 128, numAt b 1 1, numAt b 2 2, numAt b 4 2, numAt b 6 2, numAt b 8 8, numAt b 0x10 8, numAt b 0x18 8⟩
      (1024 ≤ i → Replies .admitSet s s 1 0 [])
      ∧ (i < 1024 → numAt b 0 1 < 128 → Replies .admitSet s { s with admits := SMap.set none s.admits i none } 0 0 [])
      ∧ (i < 1024 → 128 ≤ numAt b 0 1 → s.admitOk x = true → Replies .admitSet s { s with admits := SMap.set none s.admits i (some x) } 0 0 [])
      ∧ (i < 1024 → 128 ≤ numAt b 0 1 → s.admitOk x = false → Replies .admitSet s s 1 0 []))
    ∧ (∀ i (b : List Byte), i < 65536 → b.length = 64 → s.requested 9 (leBytes 2 i ++ leBytes 6 0 ++ b) →
      (i < 1024 → regionOk b = true → ∃ r : Region, Replies .regionSet s { s with regions := SMap.set none s.regions i (some r) } 0 0 []
        ∧ r.base = numAt b 0 8 ∧ r.len = numAt b 8 8 ∧ r.parity = decide (numAt b 0x10 1 = 2) ∧ r.versioned = decide (numAt b 0x11 1 = 2)
        ∧ r.ctrl = numAt b 0x18 8 ∧ r.lostModules = []
        ∧ r.colours = (List.range (numAt b 0x12 2)).map fun n => numAt b (0x20 + 2 * n) 2)
      ∧ (1024 ≤ i ∨ regionOk b = false → Replies .regionSet s s 1 0 []))
    ∧ (∀ d p0 p1 p2 p3, d < 256 → p0 < 256 → p1 < 256 → p2 < 256 → p3 < 256 →
      s.requested 10 (leBytes 1 d ++ leBytes 7 0 ++ leBytes 1 p0 ++ leBytes 1 p1 ++ leBytes 1 p2 ++ leBytes 1 p3 ++ leBytes 4 0) →
      let ok := d < 128 ∧ ∀ x ∈ [p0, p1, p2, p3], x < 16 ∨ x = 255
      (ok → Replies .routeSet s { s with routes := SMap.set [] s.routes d ([p0, p1, p2, p3].filter fun x => x != 255) } 0 0 [])
      ∧ (¬ok → Replies .routeSet s s 1 0 []))
    ∧ (∀ c (b : List Byte), c < 65536 → 133 ≤ b.length → b.length = 133 + numAt b 129 4 → s.requested 11 (leBytes 2 c ++ leBytes 6 0 ++ b) →
      (1 ≤ c ∧ c ≤ 16383 → Replies .keysSet s { s with keys := SMap.set [] s.keys c b } 0 0 [])
      ∧ (c = 0 ∨ 16383 < c → Replies .keysSet s s 1 0 []))
    ∧ (∀ a n force, a < 2 ^ 64 → n < 2 ^ 64 → force < 2 ^ 64 → s.requested 12 (leBytes 8 a ++ leBytes 8 n ++ leBytes 8 force) →
      s.shutPages false a n = [] →
      let image := s.bytes a n
      let sig := Config.imageSignatures image
      let verified := Crypto.sameKey Config.imageKeys sig = true ∧ Crypto.ecdsaHolds Config.imageKeys sig (Config.imageBody image) = true
        ∧ Crypto.lmsHolds Config.imageKeys sig (Config.imageBody image) = true
      let draining := ∃ q, (s.queue q).st = .lost ∧ (s.queue q).ending = true
      let saved (p : Party) : Prop := ∃ w, p.status = .saved w
      let held := 3 ∉ Config.imageLayouts image ∧ ∃ p ∈ s.parties, saved p
      let active : Firmware := { s.fw with image := image, layouts := Config.imageLayouts image }
      (1 < force → Replies .fwActivate s s 1 0 [])
      ∧ (force ≤ 1 → ¬verified → Replies .fwActivate s s 4 0 [])
      ∧ (force ≤ 1 → verified → Config.imageVersion image < s.fw.minSec → Replies .fwActivate s s 7 0 [])
      ∧ (force ≤ 1 → verified → s.fw.minSec ≤ Config.imageVersion image →
        (held → force = 0 → ∃ k, 0 < k ∧ k ≤ s.parties.length ∧ Replies .fwActivate s s 5 k [])
        ∧ (held → force = 1 → ∃ t, exec .fwActivate s = .next t ∧ t.fw = s.fw ∧ t.mailbox = s.mailbox
          ∧ ∀ p ∈ s.parties, saved p → (t.queue p.queue).st = .lost ∧ (t.queue p.queue).ending = true
            ∧ ∀ y ∈ t.parties, y.queue = p.queue → y.status = .ended)
        ∧ (¬held → force = 1 → draining → exec .fwActivate s = .next s)
        ∧ (¬held → (force = 1 → ¬draining) → Replies .fwActivate s { s with fw := active } 6 0 [])))
    ∧ (∀ (nonce : List Byte) a, nonce.length = 32 → a < 2 ^ 64 → s.requested 13 (nonce ++ leBytes 8 a) →
      let body := (Crypto.sha384 (s.fw.image.map BitVec.toNat)).map (BitVec.ofNat 8) ++ leBytes 8 s.enmap.sig ++ nonce
      let d := (Crypto.sha384 (body.map BitVec.toNat)).map (BitVec.ofNat 8)
      let r := body ++ Config.identityEcdsa d ++ Config.identityLms d
      let fits := 0x500000000000 ≤ a ∧ a + r.length ≤ 0x800000000000
      (fits → s.shutPages true a r.length = [] → ∃ s' : State, Replies .attest s s' 0 r.length []
        ∧ s'.bytes a r.length = r ∧ (∀ x, (x < a ∨ a + r.length ≤ x) → s'.byte x = s.byte x) ∧ s'.parties = s.parties ∧ s'.fw = s.fw)
      ∧ (fits → s.shutPages true a r.length ≠ [] → ∃ t, exec .attest s = .next t ∧ t.mailbox = s.mailbox ∧ t.sameMemory s)
      ∧ (¬fits → Replies .attest s s 1 0 []))
    ∧ (∀ d clear, d < 256 → clear < 256 → s.requested 14 (leBytes 1 d ++ leBytes 1 clear ++ leBytes 6 0) →
      let out := (List.range 10).flatMap fun n => leBytes 4 (SMap.get 0 (s.die d).errors n)
      (d ≤ 4 → clear = 0 → Replies .counters s s 0 0 out)
      ∧ (d ≤ 4 → clear = 1 → Replies .counters s { s with dies := SMap.set DieRec.zero s.dies d { s.die d with errors := [] } } 0 0 out)
      ∧ (4 < d ∨ 1 < clear → Replies .counters s s 1 0 []))
    ∧ (s.requested 15 [] → Replies .portStatus s s 0 0 ((List.range 16).flatMap fun n => let r := s.port n
      leBytes 8 (r.partner % 256 * 2 ^ 48 + r.lanemap % 1024 * 2 ^ 38 + r.retries % 65536 * 2 ^ 16 + (match r.st with
        | .down => 0
        | .training => 1
        | .up => 2
        | .narrow => 3
        | .fenced => 4))))
    ∧ (∀ k n, k < 256 → n < 2 ^ 32 → s.requested 16 (leBytes 1 k ++ leBytes 7 0 ++ leBytes 4 n) →
      (k ≤ 5 → ∃ (s' : State) (f : Firmware), Replies .spareThreshold s s' 0 0 [] ∧ s' = { s with fw := f } ∧ f.thresholds = SMap.set 0 s.fw.thresholds k n
        ∧ { f with thresholds := s.fw.thresholds, due := s.fw.due } = s.fw
        ∧ ∀ x, x ∈ f.due ↔ x ∈ s.fw.due ∨ (x.kind = k ∧ n ≠ 0 ∧ NSet.has s.fw.retired (k * 65536 + x.unit) = false
          ∧ ∃ e ∈ s.fw.worn, e.1 = k * 65536 + x.unit ∧ x.unit < 65536 ∧ n ≤ e.2))
      ∧ (5 < k → Replies .spareThreshold s s 1 0 []))
    ∧ ∀ e, e < 65536 → s.requested 17 (leBytes 2 e) →
      let a := s.handleAt + 64 * e
      (∀ h, e < 4096 → SMap.get none s.handles e = some h → h.freeAfter = none →
        (s.mapFull = true → Replies .handleFree s s 8 0 [])
        ∧ (s.mapFull = false → Replies .handleFree s { s with
            handles := SMap.set none s.handles e (some { h with freeAfter := some s.nextPass })
            revMap := s.revMap ++ [⟨some (a, a + 64), h.colour, s.nextPass⟩] } 0 s.nextPass []))
      ∧ ((4096 ≤ e ∨ SMap.get none s.handles e = none ∨ ∃ h, SMap.get none s.handles e = some h ∧ h.freeAfter ≠ none) →
        Replies .handleFree s s 1 0 [])

/-- A flit that fails on a port that carries traffic adds to RETRIES (to 65535) and to LINK_RETRY; the eighth retry of one flit
takes the port DOWN. A lane that fails while in use puts the port in training on its four lowest good lanes, or DOWN with fewer;
with eight good ones left a spare is due. A port trained again is UP on eight lanes, else NARROW; requests without a live port
move to the first port of the route. A peer's access seen before is discarded; admitted, it reads, writes (an engine's write
with its poison; an unbacked one is dropped and counted) or updates memory and answers, poison as a failure, acquiring at .sys;
refused, it has no effect, answers a failure, and a refused write is counted. An answer, or 10 ms without one (a dropped write
or partial counted), reaches the waiting lane, rope or job; nothing else changes. Of the model's choices it uses logs 9, 42, 83,
106. (18_fabric_collectives_pool.md R370, 18_fabric_collectives_pool.md R371, 18_fabric_collectives_pool.md R373,
18_fabric_collectives_pool.md R374, 18_fabric_collectives_pool.md R375, 18_fabric_collectives_pool.md R376,
19_firmware_power_spares.md R413, 19_firmware_power_spares.md R414) -/
def Obligations.PortAndPeerEvents : Prop :=
  ∀ (s : State),
    (∀ port again, let r := s.port port
      let n := if again then r.streak + 1 else 1
      let r' : PortRec := { r with retries := min (r.retries + 1) 65535, streak := n }
      (port < 16 → s.portUp port = true → ∃ t, exec (.flitCrcFailure port again) s = .next t
        ∧ t.port port = (if n < 8 then r' else { r' with st := .down, lanemap := 0, streak := 0 })
        ∧ (∀ p, p ≠ port → t.port p = s.port p)
        ∧ SMap.get 0 (t.die 4).errors 9 = min (SMap.get 0 (s.die 4).errors 9 + 1) (2 ^ 32 - 1)
        ∧ { t with ports := s.ports, dies := s.dies } = s)
      ∧ (16 ≤ port ∨ s.portUp port = false → exec (.flitCrcFailure port again) s = .next s))
    ∧ (∀ port lane, let r := s.port port
      let g := r.others lane
      let used := r.lanemap.testBit lane = true ∧ (r.st = .up ∨ r.st = .narrow ∨ r.st = .training)
      (16 ≤ port ∨ 10 ≤ lane ∨ NSet.has r.failed lane = true → exec (.laneFailure port lane) s = .next s)
      ∧ (port < 16 → lane < 10 → NSet.has r.failed lane = false → ∃ t, exec (.laneFailure port lane) s = .next t
        ∧ (let y := t.port port
          y.failed = NSet.set r.failed lane true ∧ (¬used → { y with failed := r.failed } = r)
          ∧ (used → g.length < 4 → y.st = .down ∧ y.lanemap = 0)
          ∧ (used → 4 ≤ g.length → y.st = .training ∧ ∀ i, i < 10 → y.lanemap.testBit i = decide (i ∈ g.take 4))
          ∧ (used → 8 ≤ g.length → ⟨5, port * 256 + lane⟩ ∈ t.fw.due ∨ NSet.has s.fw.retired (5 * 65536 + (port * 256 + lane)) = true))
        ∧ (∀ p, p ≠ port → t.port p = s.port p)
        ∧ { t with ports := s.ports, fw := { t.fw with due := s.fw.due } } = s))
    ∧ (∀ port partner, port < 16 → (s.port port).st = .training ∨ ((s.port port).st = .down ∧ (s.port port).trained = false) →
      let r := s.port port
      let g := r.goodLanes
      ∃ t, exec (.retrainComplete port partner) s = .next t
        ∧ (r.st = .training → (t.port port).st = (if 8 ≤ g.length ∧ r.lanemap = laneMap (g.take 8) then .up else .narrow)
          ∧ (t.port port).lanemap = r.lanemap ∧ (t.port port).partner = r.partner)
        ∧ (r.st = .down → 4 ≤ g.length → (t.port port).st = (if 8 ≤ g.length then .up else .narrow) ∧ (t.port port).partner = partner % 256
          ∧ (t.port port).trained = true ∧ (t.port port).lanemap = laneMap (g.take (if 8 ≤ g.length then 8 else 4)))
        ∧ (∀ w ∈ s.delgWaits, w.sent = false → w.answer = none → ∀ d, (s.delgSlot w.entry).body = some d → s.delgLive w.id = true →
          t.portFor d.peer ≠ none → ∃ v ∈ t.delgWaits, v.id = w.id ∧ v.sent = true)
        ∧ ((∀ w ∈ s.delgWaits, w.sent = true ∨ w.answer ≠ none) →
          t.peerOut = { s with ports := t.ports }.rerouted ∧ { t with ports := s.ports, peerOut := s.peerOut } = s))
    ∧ (∀ port, (port < 16 → s.portUp port = false → exec (.portDownReroute port) s = .next { s with peerOut := s.rerouted })
      ∧ (16 ≤ port ∨ s.portUp port = true → exec (.portDownReroute port) s = .next s))
    ∧ (∀ dev seq addr colour op, let mark := dev * 2 ^ 64 + seq
      (NSet.has s.peerSeen mark = true → exec (.peerAccess dev seq addr colour op) s = .next s)
      ∧ (NSet.has s.peerSeen mark = false →
        let n := (peerNeeds op).2
        let ok := addr + n ≤ 2 ^ 40 ∧ ∃ x ∈ s.admitted, x.allows dev colour (peerNeeds op).1 addr n = true
        let answered (t : State) (b : List Byte) (good : Bool) : Prop := t.wire = .peerAnswer dev seq b good :: s.wire
          ∧ ∀ x, NSet.has t.peerSeen x = (NSet.has s.peerSeen x || decide (x = mark))
        let wrote (t : State) (b : List Byte) : Prop := t.bytes addr b.length = b
          ∧ (∀ a, (a < addr ∨ addr + b.length ≤ a) → t.byte a = s.byte a)
          ∧ ∀ g, addr < 16 * g + 16 → 16 * g < addr + b.length → t.raceAt g = none
        let dropped (t : State) (c : Bool) : Prop :=
          SMap.get 0 (t.die 4).errors 5 = if c then min (SMap.get 0 (s.die 4).errors 5 + 1) (2 ^ 32 - 1) else SMap.get 0 (s.die 4).errors 5
        ∃ t, exec (.peerAccess dev seq addr colour op) s = .next t
          ∧ (¬ok → answered t [] false ∧ { t with peerSeen := s.peerSeen, wire := s.wire, dies := s.dies } = s ∧ dropped t (peerSilent op))
          ∧ (ok → (∀ k, op = .load k → answered t (s.bytes addr k) (!(s.poisoned addr k)) ∧ { t with peerSeen := s.peerSeen, wire := s.wire } = s)
            ∧ (∀ b e, op = .store b e → 0 < b.length → answered t [] true
              ∧ (s.near addr b.length = true → wrote t b ∧ dropped t false
                ∧ ∀ h, NSet.has t.poison h = match e with
                  | none => NSet.has s.poison h
                  | some true => NSet.has s.poison h || (decide (addr < 64 * h + 64) && decide (64 * h < addr + b.length))
                  | some false => NSet.has s.poison h && !(decide (addr ≤ 64 * h) && decide (64 * h + 64 ≤ addr + b.length)))
              ∧ (s.backedAt addr = false → t.mem = s.mem ∧ dropped t true))
            ∧ (∀ o w ret ord sc c e, op = .atomic o w ret ord sc c e → s.near addr n = true → s.poisoned addr n = false →
              answered t (if ret then leBytes n (s.num addr n) else []) true ∧ wrote t (leBytes n (atomValue o (8 * n) (s.num addr n) c c e).bits)
              ∧ t.told dev = if ordAcq ord = true ∧ sc = .sys then
                  ((syncRead s.sync addr n).filter fun p => p.scope == .sys && p.serves .sys).foldl (fun k (p : Pub) => k.join p.know) (s.told dev)
                else s.told dev)
            ∧ (op = .join → s.near addr 8 = true → s.poisoned addr 8 = false →
              answered t (leBytes 8 (s.num addr 8)) true ∧ wrote t (leBytes 8 (joinWord (s.num addr 8))))
            ∧ (∀ id, op = .hold id → s.near addr 8 = true → s.poisoned addr 8 = false → answered t (leBytes 8 (s.num addr 8)) true
              ∧ (holdAt (s.num addr 8) = .held → wrote t (leBytes 8 (holdWord (s.num addr 8) id)))
              ∧ (holdAt (s.num addr 8) ≠ .held → { t with peerSeen := s.peerSeen, wire := s.wire } = s))
            ∧ (s.poisoned addr n = true → (∀ k, op ≠ .load k) → (∀ b e, op ≠ .store b e) → answered t [] false
              ∧ { t with peerSeen := s.peerSeen, wire := s.wire } = s))))
    ∧ ∀ (seq : Nat) (r : PeerReq), s.peerOut.find? (fun x => x.seq == seq) = some r →
      let heard (t : State) (b : List Byte) (lost : Bool) : Prop := t.peerOut = s.peerOut.filter (fun x => x.seq != r.seq)
        ∧ (r.src = .nobody → { t with peerOut := s.peerOut, dies := s.dies } = s)
        ∧ (∀ uid k key pc p y, r.src = .lane uid k key pc → s.party? uid = some p → p.ropes[k]? = some y →
          ∃ y', y.heard ⟨pc, key, b, lost, false⟩ y' ∧ t.party? uid = some (p.setRope k y') ∧ t.sameMemory s)
        ∧ (∀ uid k p y, r.src = .posted uid k → s.party? uid = some p → p.ropes[k]? = some y → t.sameMemory s
          ∧ t.party? uid = some (p.setRope k (if lost = false ∧ peerAcquires r.op = true then y.acquire (s.told r.dev) else y)))
        ∧ (∀ uid k p y, r.src = .part uid k → s.party? uid = some p → p.ropes[k]? = some y → t.sameMemory s
          ∧ t.party? uid = some (p.setRope k (y.partDone (if lost then 1 else 0)))
          ∧ SMap.get 0 (t.die r.die).errors 6
            = if lost then min (SMap.get 0 (s.die r.die).errors 6 + 1) (2 ^ 32 - 1) else SMap.get 0 (s.die r.die).errors 6)
        ∧ (∀ id n j, r.src = .job id → r.op = .load n → s.job? id = some j →
          t.job? id = some { j with got := (r.addr, (if lost then List.replicate n memInit else b), lost) :: j.got } ∧ t.sameMemory s)
      (∀ ok b, b.length = peerReplyBytes r.op ∨ ok = false → ∃ t, exec (.peerReply seq ok b) s = .next t ∧ heard t b (!ok)
        ∧ ((∀ uid k, r.src ≠ .part uid k) → t.dies = s.dies))
      ∧ (r.since + 10000000 ≤ s.timer → ∃ t, exec (.unreachableTimeout seq) s = .next t ∧ heard t [] true
        ∧ (peerSilent r.op = true → (∀ uid k, r.src ≠ .part uid k) →
          SMap.get 0 (t.die r.die).errors 5 = min (SMap.get 0 (s.die r.die).errors 5 + 1) (2 ^ 32 - 1)))
      ∧ (s.timer < r.since + 10000000 → exec (.unreachableTimeout seq) s = .next s)

/-- HANDLE_IN with an inbox, a free entry and 48 bytes stores the wire form, puts a tagged command capability for the entry into
the inbox slot, posts the record and answers acceptance, else refusal alone. The answer to a delg (or 10 ms without one:
refusal, the record freed) goes to the slot that waits, which issues again. An invocation that fails its checks is reported with
the fault code; one that passes starts a copy job on the die of its block, when a card is free. A report without fault counts
its bytes at the job's cairn and ends it, one with a fault ends it with a FAULT record; so does, with UNBACKED, 10 ms without a
report. Of the model's choices it uses logs 9, 12, 90, 106. (18_fabric_collectives_pool.md R378, 18_fabric_collectives_pool.md
R381, 18_fabric_collectives_pool.md R382, 18_fabric_collectives_pool.md R383, 18_fabric_collectives_pool.md R384) -/
def Obligations.DelegationEvents : Prop :=
  ∀ (s : State),
    (∀ dev colour id wire,
      (∀ x i n, s.inboxFor dev colour = some (x, i) → s.freeHandleEntry = some n → wire.length = 48 →
        let a := fieldOf x.inbox 0 48 + 16 * i
        let cap := capMake (s.handleAt + 64 * n) 64 (pCMD + pGLOBAL) x.lcolour 2
        s.near a 16 = true → ∃ t, exec (.handleIn dev colour id wire) s = .next t
          ∧ SMap.get none t.handles n = some ⟨wire, x.lcolour, none⟩ ∧ (∀ m, m ≠ n → SMap.get none t.handles m = SMap.get none s.handles m)
          ∧ t.num a 16 = cap.toNat ∧ t.tagAt a = s.tagFor cap true ∧ (∀ b, (b < a ∨ a + 16 ≤ b) → t.byte b = s.byte b)
          ∧ t.posts = s.posts ++ [⟨.queue x.inqueue, ⟨8, 0, 0, 0, i + dev * 2 ^ 8 + id % 2 ^ 16 * 2 ^ 32⟩, s.told dev, []⟩]
          ∧ t.wire = .delegAnswer dev true :: s.wire ∧ t.parties = s.parties)
      ∧ (s.inboxFor dev colour = none ∨ s.freeHandleEntry = none ∨ wire.length ≠ 48 →
        exec (.handleIn dev colour id wire) s = .next { s with wire := .delegAnswer dev false :: s.wire }))
    ∧ (∀ e (w : DelgWait) (c : Ctx), s.delgWaits.find? (fun x => x.entry == e && x.answer.isNone) = some w →
      s.ctxAt w.uid w.k c.pos = some c → c.entry.wait = some (.delg e) →
      let answers (i : Instr) (v : Nat) : Prop := ∃ t, exec i s = .next t ∧ (∃ x ∈ t.delgWaits, x.id = w.id ∧ x.answer = some v)
        ∧ (∃ p r y, t.party? w.uid = some p ∧ p.ropes[w.k]? = some r ∧ r.stack[c.pos]? = some y ∧ y = { c.entry with wait := none })
        ∧ t.sameMemory s ∧ (v = 0xFFFFFFFE → t.delgLive w.id = true → s.delgLive w.id = false) ∧ (v ≠ 0xFFFFFFFE → t.delgs = s.delgs)
      (w.sent = true → w.id ≠ 0xFFFFFFFE → answers (.delgAnswer e true true) w.id)
      ∧ (w.sent = true → w.entry = w.id % 4096 → answers (.delgAnswer e true false) 0xFFFFFFFE)
      ∧ (w.sent = false → ∀ ok, exec (.delgAnswer e true ok) s = .next s)
      ∧ (w.since + 10000000 ≤ s.timer → w.entry = w.id % 4096 → ∀ ok, answers (.delgAnswer e false ok) 0xFFFFFFFE)
      ∧ (s.timer < w.since + 10000000 → ∀ ok, exec (.delgAnswer e false ok) s = .next s))
    ∧ (∀ dev inv colour wire,
      (∀ f, s.checkInvoke dev colour wire = .inl f →
        exec (.handleInvocation dev inv colour wire) s = .next { s with wire := .report dev inv f 0 :: s.wire })
      ∧ ∀ x lc cap, s.checkInvoke dev colour wire = .inr (x, lc, cap) →
        let die := homeDie (capBase cap)
        (s.dieFull die = true → exec (.handleInvocation dev inv colour wire) s = .next s)
        ∧ (s.dieFull die = false → ∃ t j, exec (.handleInvocation dev inv colour wire) s = .next t ∧ t.jobs = s.jobs ++ [j]
          ∧ j.die = die ∧ cap ∈ j.caps ∧ (∀ a g n, (s.told dev).covers a g n = true → j.know.covers a g n = true) ∧ j.by' = .peer dev inv ∧ j.colour = lc ∧ j.kind = .copy x.plan ∧ j.moved = 0 ∧ j.running = false
          ∧ j.ceased = false ∧ j.fault = 0 ∧ { t with jobs := s.jobs, dies := s.dies, agentColour := s.agentColour } = s))
    ∧ ∀ id j cap at' t0, s.job? id = some j → j.kind = .handle cap at' t0 →
      let ended (i : Instr) (fault bytes : Nat) : Prop := ∃ t, exec i s = .next t
        ∧ t.jobs.map Job.id = (s.jobs.map Job.id).filter (fun y => y != id) ∧ t.jobRecord s j fault bytes
        ∧ ∀ uid k, j.by' = .rope uid k → fault = 0 → s.ropeRing uid k = none → t.arrivedAt s j.cairn bytes
      (∀ fault bytes, ended (.invocationReport id fault bytes) fault bytes)
      ∧ (t0 + 10000000 ≤ s.timer → ended (.invocationReportTimeout id) fUNBACKED 0)
      ∧ (s.timer < t0 + 10000000 → exec (.invocationReportTimeout id) s = .next s)

/-- The oldest waiting replay starts when its buffers are free and records what its switch slots expect. An operation whose
predecessors are done: FETCH fills its buffer from memory (its far pages fetched first) with this rank's bit and the poison
mark; SEND sends the buffer's bytes by a live port and ends when acknowledged, a refused chunk going again after 100 us; RECV
takes its chunk, a switch's partial holding it until late contributions (added in ascending rank, log 46) cover the slot; REDUCE
and MERGE join two buffers element by element, a poisoned side being left out, its ranks dropped and counted; DELIVER writes
memory with its poison. Each completion lowers its successors' counters. A chunk is accepted once its replay has started. With
all done the replay goes, its records are posted, its command or job ends. Of the model's choices it uses logs 9, 59, 87, 88,
89, 106. (18_fabric_collectives_pool.md R386, 18_fabric_collectives_pool.md R389, 18_fabric_collectives_pool.md R390,
18_fabric_collectives_pool.md R391, 18_fabric_collectives_pool.md R394, 18_fabric_collectives_pool.md R395,
19_firmware_power_spares.md R414, 13_tiers_and_route_cards.md R417) -/
def Obligations.CollectiveEvents : Prop :=
  ∀ (s : State),
    (∀ r p, s.replays.find? (fun x => !x.started) = some r → s.planOf r = some p →
      (s.bufUsed + p.nbuf ≤ 4096 → ∃ t, exec .replayStart s = .next t ∧ t.replay? r.id = some { r with started := true }
        ∧ t.bufUsed = s.bufUsed + p.nbuf
        ∧ (∀ o ∈ p.ops, o.kind = 3 → o.sw = true → t.expects p.planid o.chunk
          = if s.switches.any (fun x => x.planid == p.planid && x.chunk == o.chunk) then s.expects p.planid o.chunk
            else Config.slotExpects p.planid o.chunk)
        ∧ { t with replays := s.replays, bufUsed := s.bufUsed, switches := s.switches } = s)
      ∧ (4096 < s.bufUsed + p.nbuf → exec .replayStart s = .next s))
    ∧ ((∀ r ∈ s.replays, r.started = true) → exec .replayStart s = .next s)
    ∧ (∀ id op x, s.opAt id op 1 = some x →
      (x.st ≠ .waiting 0 → exec (.fetch id op) s = .next s)
      ∧ (x.st = .waiting 0 → isPeer x.addr = false → x.shut op s false = [] → ∃ t y, exec (.fetch id op) s = .next t ∧ t.replay? id = some y
        ∧ x.ended op y.ops ∧ (y.buf x.o.bufa).bytes.take x.o.bytes = s.bytes x.addr x.o.bytes
        ∧ (y.buf x.o.bufa).bitmap = BitVec.ofNat 64 (2 ^ x.p.rank)
        ∧ (y.buf x.o.bufa).poison = (s.poisoned x.addr x.o.bytes || x.lostAt op x.addr x.o.bytes) ∧ (y.buf x.o.bufa).know = x.r.know
        ∧ (∀ i, i ≠ x.o.bufa → y.buf i = x.r.buf i)
        ∧ { t with replays := s.replays, pages := s.pages, accesses := s.accesses } = s)
      ∧ (x.st = .waiting 0 → isPeer x.addr = false → x.shut op s false ≠ [] → ∃ t y, exec (.fetch id op) s = .next t ∧ t.replay? id = some y
        ∧ y.ops = x.r.ops ∧ t.sameMemory s ∧ ∀ p ∈ x.shut op s false, ∃ a ∈ t.asks, a.page = p))
    ∧ (∀ id op x, s.opAt id op 2 = some x →
      let dev := x.p.rankmap.getD x.o.peer 0
      let body := x.r.buf x.o.bufa
      let sent (i : Instr) : Prop := x.o.bytes ≤ body.bytes.length → ∃ t y, exec i s = .next t ∧ t.replay? id = some y
        ∧ y.ops = x.r.ops.set op (.sent s.timer false) ∧ (∀ i, y.buf i = x.r.buf i)
        ∧ t.wire = .chunk dev x.p.planid x.r.seq x.p.rank x.o.chunk x.o.sw ⟨body.bytes.take x.o.bytes, body.bitmap, body.poison, body.know⟩ :: s.wire
        ∧ t.told dev = (s.told dev).join body.know ∧ { t with replays := s.replays, wire := s.wire, peerKnow := s.peerKnow } = s
      (x.st = .waiting 0 → (s.portFor dev ≠ none → sent (.send id op)) ∧ (s.portFor dev = none → exec (.send id op) s = .next s))
      ∧ (x.st ≠ .waiting 0 → exec (.send id op) s = .next s)
      ∧ ∀ t0, (x.st = .sent t0 false →
          (∃ t y, exec (.chunkAcknowledgement id op true) s = .next t ∧ t.replay? id = some y ∧ x.ended op y.ops ∧ { t with replays := s.replays } = s)
          ∧ ∃ t y, exec (.chunkAcknowledgement id op false) s = .next t ∧ t.replay? id = some y ∧ y.ops = x.r.ops.set op (.sent t0 true)
            ∧ { t with replays := s.replays } = s)
        ∧ (x.st = .sent t0 true → (t0 + 100000 ≤ s.timer → s.portFor dev ≠ none → sent (.chunkResend id op))
          ∧ (s.timer < t0 + 100000 → exec (.chunkResend id op) s = .next s)))
    ∧ (∀ (merge : Bool) id op x, s.opAt id op (if merge then 5 else 4) = some x →
      let i := if merge then Instr.merge id op else .reduce id op
      let n := x.o.bytes
      let a := x.r.buf x.o.bufa
      let b := x.r.buf x.o.bufb
      let sum := if merge then joinSides 8 (fun e u v => mergeNode (mergeOpr x.o.opr) x.r.key x.r.ctr op e u v) (a.bytes.take n) (b.bytes.take n)
        else joinSides (elemBytes x.o.ty) (fun _ u v => chunkNode x.o.ty x.o.opr u v) (a.bytes.take n) (b.bytes.take n)
      (x.st ≠ .waiting 0 → exec i s = .next s)
      ∧ (x.st = .waiting 0 → n ≤ a.bytes.length → n ≤ b.bytes.length → ∃ t y, exec i s = .next t ∧ t.replay? id = some y ∧ x.ended op y.ops
        ∧ (let z := y.buf x.o.bufa
          let got := if a.poison = false ∧ b.poison = false then sum else if a.poison = true ∧ b.poison = false then b.bytes.take n else a.bytes.take n
          z.bytes.take got.length = got ∧ z.poison = (a.poison && b.poison)
          ∧ z.bitmap = (if a.poison = b.poison then a.bitmap ||| b.bitmap else if a.poison then b.bitmap else a.bitmap))
        ∧ y.dropped = x.r.dropped ||| (if a.poison = b.poison then 0 else if a.poison then a.bitmap else b.bitmap)
        ∧ (a.poison ≠ b.poison → SMap.get 0 (t.die 4).errors 7 = min (SMap.get 0 (s.die 4).errors 7 + 1) (2 ^ 32 - 1))
        ∧ (a.poison = b.poison → t.dies = s.dies) ∧ { t with replays := s.replays, dies := s.dies } = s))
    ∧ (∀ id op x, s.opAt id op 6 = some x →
      let n := x.o.bytes
      let body := x.r.buf x.o.bufa
      (x.st = .done ∨ x.st = .held → exec (.deliver id op) s = .next s)
      ∧ (x.st = .waiting 0 → 0 < n → n ≤ body.bytes.length → s.near x.addr n = true → s.snap = none → x.lostAt op x.addr n = false →
        ∃ t y, exec (.deliver id op) s = .next t ∧ t.replay? id = some y ∧ x.ended op y.ops ∧ y.written = x.r.written + n
          ∧ t.bytes x.addr n = body.bytes.take n ∧ (∀ a, (a < x.addr ∨ x.addr + n ≤ a) → t.byte a = s.byte a)
          ∧ ∀ h, NSet.has t.poison h = if body.poison then NSet.has s.poison h || (decide (x.addr < 64 * h + 64) && decide (64 * h < x.addr + n))
            else NSet.has s.poison h && !(decide (x.addr ≤ 64 * h) && decide (64 * h + 64 ≤ x.addr + n))))
    ∧ (∀ c : ChunkIn, let from' := if c.sw then switchRank else c.rank
      let say (s : State) (ok : Bool) : State := { s with wire := .chunkAnswer c.dev c.planid c.seq c.chunk ok :: s.wire }
      (∀ r p, s.chunkReplay c.planid c.seq = some (r, p) →
        let new := recvWaits r p from' c.chunk false = true ∧ ∀ x ∈ s.inbound, x.planid = c.planid → x.seq = c.seq → x.chunk = c.chunk →
          x.from' = from' → x.late = true
        (r.started = false → exec (.chunkArrival c) s = .next (say s false))
        ∧ (r.started = true → new → exec (.chunkArrival c) s
          = .next (say { s with inbound := s.inbound ++ [⟨c.planid, c.seq, from', c.chunk, false, ⟨c.bytes, c.bitmap, c.poison, s.chunkKnow p c⟩⟩] } true))
        ∧ (r.started = true → ¬new → exec (.chunkArrival c) s = .next (say s true)))
      ∧ (s.chunkReplay c.planid c.seq = none →
        exec (.chunkArrival c) s = .next (say s (s.plans.any fun (p : Plan) => p.planid == c.planid && decide (c.seq < p.next)))))
    ∧ (∀ id op x, s.opAt id op 3 = some x → x.st = .waiting 0 →
      (s.inboundFor x (if x.o.sw then switchRank else x.o.peer) false = none → exec (.recv id op) s = .next s)
      ∧ ∀ c, s.inboundFor x (if x.o.sw then switchRank else x.o.peer) false = some c →
        let left := s.expects x.p.planid x.o.chunk &&& ~~~c.body.bitmap
        (x.o.sw = false ∨ left = 0 → ∃ t y, exec (.recv id op) s = .next t ∧ t.replay? id = some y ∧ x.ended op y.ops
          ∧ (y.buf x.o.bufa).bytes.take c.body.bytes.length = c.body.bytes ∧ (y.buf x.o.bufa).bitmap = c.body.bitmap
          ∧ (y.buf x.o.bufa).poison = c.body.poison ∧ t.inbound = s.inbound.erase c ∧ { t with replays := s.replays, inbound := s.inbound } = s)
        ∧ (x.o.sw = true → left &&& ~~~x.r.dropped ≠ 0 → (∀ k, s.inboundFor x k true = none) →
          ∃ t y, exec (.recv id op) s = .next t ∧ t.replay? id = some y ∧ y.ops = x.r.ops.set op .held
            ∧ y.order = some (x.r.order.getD c.body.bitmap) ∧ t.inbound = s.inbound.erase c
            ∧ { t with replays := s.replays, inbound := s.inbound } = s))
    ∧ (∀ (c : ChunkIn) op x, s.chunkReplay c.planid c.seq = some (x.r, x.p) → heldOp x.r x.p c.chunk = some op → s.opAt x.r.id op 3 = some x →
      x.st = .held →
      let a := x.r.buf x.o.bufa
      let n := x.o.bytes
      let w := Config.slotElem c.planid c.chunk
      ((List.range 64).filter fun k => (s.expects c.planid c.chunk).getLsbD k && !((a.bitmap ||| x.r.dropped).getLsbD k)) = [c.rank] →
      c.bitmap.getLsbD c.rank = true → c.poison = false → a.poison = false → n ≤ a.bytes.length → n ≤ c.bytes.length →
      (∀ y ∈ s.inbound, y.late = false) →
      ∃ t y, exec (.lateContribution c) s = .next t ∧ t.replay? x.r.id = some y ∧ x.ended op y.ops
        ∧ (let sum := joinSides (elemBytes w) (fun _ u v => chunkNode w 0 u v) (a.bytes.take n) (c.bytes.take n)
          (y.buf x.o.bufa).bytes.take sum.length = sum)
        ∧ (y.buf x.o.bufa).bitmap = a.bitmap ||| c.bitmap ∧ t.inbound = s.inbound
        ∧ t.wire = .chunkAnswer c.dev c.planid c.seq c.chunk true :: s.wire)
    ∧ ∀ id r p, s.replay? id = some r → s.planOf r = some p →
      let ceased := r.started = true ∧ ∀ o ∈ r.ops, o = .done
      (¬ceased → exec (.replayComplete id) s = .next s)
      ∧ (∀ q seq c, ceased → r.job = none → r.by' = some (.command q seq) → s.cmd? q seq = some c →
        ∃ t, exec (.replayComplete id) s = .next t ∧ t.replays = s.replays.filter (fun x => x.id != id) ∧ t.bufUsed = s.bufUsed - p.nbuf
          ∧ t.inbound = s.inbound.filter (fun x => !(x.planid == p.planid && x.seq == r.seq))
          ∧ t.cmds = s.cmds.filter (fun y => !(y.queue == q && y.seq == seq)) ∧ t.sameMemory s
          ∧ t.posts.map (fun x => (x.dest, x.body)) = s.posts.map (fun x => (x.dest, x.body))
            ++ (if r.dropped = 0 then [] else [(.queue r.queue, ⟨2, fPOISON, c.tag, r.written, r.dropped.toNat⟩)])
            ++ (r.order.toList.map fun m => (.queue r.queue, ⟨6, 0, c.tag, r.written, m.toNat⟩)) ++ [(.queue q, ⟨0x0100, 0, c.tag, 0, 0⟩)])
      ∧ ∀ jid j uid k, ceased → r.job = some jid → s.job? jid = some j → j.by' = .rope uid k →
        ∃ t, exec (.replayComplete id) s = .next t ∧ t.replays = s.replays.filter (fun x => x.id != id)
          ∧ t.jobs.map Job.id = (s.jobs.map Job.id).filter (fun y => y != jid)
          ∧ (s.ropeRing uid k = none → t.sameMemory s ∧ t.arrivedAt s j.cairn p.dbytes)
          ∧ (∀ ring, s.ropeRing uid k = some ring → s.ringShut ring.1 = [] → s.ringIdle ring.1 = true → r.dropped = 0 → r.order = none →
            (j.post = true → t.postedTo s ring.1 ⟨1, 0, jid, r.written, 0⟩) ∧ (j.post = false → t.sameMemory s))

/-- The lead renews its lease in its last 3 ms; at expiry no core leads and the healthy ones ask; 10 us later the lowest leads.
An error halts a core (the lead drops its lead, log 47) until its image verifies. A table error is counted: with both copies bad
a queue is LOST, a page is lost, a job ends with POISON. A memory error poisons its half-line; corrected errors are counted and
a unit at its threshold falls due. A due change waits for its cores to be free, is made (a spare core of the die in map and
PART, a lower plane cap), or after 100 ms goes to the end. A snoop drops a pool line's copies and race records; a failed host's
modified lines are poisoned; modules and ports are lost. CLKMAX may fall. Package reset gives the reset state but for what lies
outside the package, fuses and wear. Of the model's choices it uses logs 9, 60, 84, 85. (14_memory_model.md R310,
15_queues_graphs_launch.md R329, 18_fabric_collectives_pool.md R396, 18_fabric_collectives_pool.md R398,
18_fabric_collectives_pool.md R399, 18_fabric_collectives_pool.md R400, 19_firmware_power_spares.md R404,
19_firmware_power_spares.md R406, 19_firmware_power_spares.md R407, 19_firmware_power_spares.md R411,
19_firmware_power_spares.md R412, 19_firmware_power_spares.md R413) -/
def Obligations.FirmwareAndPoolEvents : Prop :=
  ∀ (s : State),
    (
      let due := (∃ l, s.fw.lead = some l ∧ s.fwHealthy l = true) ∧ s.fw.expiry ≤ s.timer + 3000000 ∧ s.timer < s.fw.expiry
      (due → exec .leaseRenewal s = .next { s with fw := { s.fw with expiry := s.timer + 4000000 } }) ∧ (¬due → exec .leaseRenewal s = .next s))
    ∧ (
      let due := s.fw.expiry ≤ s.timer ∧ s.fw.collect = none
      (due → ∃ f : Firmware, exec .leaseExpiry s = .next { s with fw := f } ∧ f.lead = none ∧ f.collect = some s.timer
        ∧ (∀ i, NSet.has f.asking i = (decide (i < 5) && s.fwHealthy i))
        ∧ { f with lead := s.fw.lead, collect := s.fw.collect, asking := s.fw.asking } = s.fw)
      ∧ (¬due → exec .leaseExpiry s = .next s))
    ∧ (∀ t0 l rest, s.fw.collect = some t0 → s.fw.asking = l :: rest →
      (t0 + 10000 ≤ s.timer → exec .arbiterGrant s
        = .next { s with fw := { s.fw with lead := some l, expiry := s.timer + 4000000, asking := [], collect := none } })
      ∧ (s.timer < t0 + 10000 → exec .arbiterGrant s = .next s))
    ∧ (s.fw.collect = none ∨ s.fw.asking = [] → exec .arbiterGrant s = .next s)
    ∧ (∀ core, (5 ≤ core → exec (.firmwareEccError core) s = .next s)
      ∧ (core < 5 → ∃ t, exec (.firmwareEccError core) s = .next t ∧ NSet.has t.fw.halted core = true ∧ NSet.has t.fw.asking core = false
        ∧ t.fw.lead = (if s.fw.lead = some core then none else s.fw.lead)
        ∧ SMap.get 0 (t.die core).errors 4 = min (SMap.get 0 (s.die core).errors 4 + 1) (2 ^ 32 - 1)
        ∧ { t with dies := s.dies, fw := { t.fw with halted := s.fw.halted, asking := s.fw.asking, lead := s.fw.lead } } = s)
      ∧ (
        let back := NSet.has s.fw.halted core = true ∧ imageVerifies s.fw.image = true
        (back → ∃ t, exec (.imageReloadComplete core) s = .next t ∧ NSet.has t.fw.halted core = false
          ∧ NSet.has t.fw.asking core = (NSet.has s.fw.asking core || s.fw.collect.isSome)
          ∧ { t with fw := { t.fw with halted := s.fw.halted, asking := s.fw.asking, collect := s.fw.collect } } = s)
        ∧ (¬back → exec (.imageReloadComplete core) s = .next s)))
    ∧ (∀ q both, ∃ t, exec (.tableEccError (.queue q both)) s = .next t
      ∧ SMap.get 0 (t.die 4).errors 4 = min (SMap.get 0 (s.die 4).errors 4 + 1) (2 ^ 32 - 1)
      ∧ (both = true → (s.queue q).st ≠ .free → (t.queue q).st = .lost) ∧ (both = false → { t with dies := s.dies } = s))
    ∧ (∀ n both, ∃ t, exec (.tableEccError (.record n both)) s = .next t ∧ { t with dies := s.dies, launches := s.launches } = s
      ∧ (both = false → t.launches = s.launches)
      ∧ (both = true → ∀ x, s.launch? n = some x → ∃ y, t.launch? n = some y ∧ y.dieLost = true ∧ y.first = none
        ∧ ∀ r ∈ y.records, 0 < r.live ∧ r.next = r.hi ∧ r.held = false))
    ∧ (∀ id j p, s.job? id = some j → j.kind = .copy p → ∃ t, exec (.tableEccError (.job id)) s = .next t
      ∧ t.job? id = some { j with ceased := true, fault := fPOISON } ∧ t.sameMemory s)
    ∧ (∀ q, ∃ t, exec (.tableEccError (.page q)) s = .next t ∧ t.page? q = none ∧ (∀ x, x ≠ q → t.page? x = s.page? x))
    ∧ (∀ a, (s.backedAt a = true → ∃ t, exec (.uncorrectableError a) s = .next t
        ∧ (∀ h, NSet.has t.poison h = (NSet.has s.poison h || decide (h = a / 64)))
        ∧ SMap.get 0 (t.die (homeDie a)).errors 3 = min (SMap.get 0 (s.die (homeDie a)).errors 3 + 1) (2 ^ 32 - 1)
        ∧ { t with poison := s.poison, dies := s.dies } = s)
      ∧ (s.backedAt a = false → exec (.uncorrectableError a) s = .next s))
    ∧ (∀ die n kind unit, let key := kind * 65536 + unit
      let w := SMap.get 0 s.fw.worn key + 1
      (5 ≤ die ∨ 3 ≤ n ∨ 7 ≤ kind ∨ 65536 ≤ unit → exec (.correctedError die n kind unit) s = .next s)
      ∧ (die < 5 → n < 3 → kind < 7 → unit < 65536 → ∃ t, exec (.correctedError die n kind unit) s = .next t
        ∧ SMap.get 0 (t.die die).errors n = min (SMap.get 0 (s.die die).errors n + 1) (2 ^ 32 - 1)
        ∧ (kind < 6 → SMap.get 0 t.fw.worn key = w
          ∧ (SMap.get 0 s.fw.thresholds kind ≠ 0 → SMap.get 0 s.fw.thresholds kind ≤ w →
            ⟨kind, unit⟩ ∈ t.fw.due ∨ NSet.has s.fw.retired key = true))
        ∧ (kind = 6 → t.fw.worn = s.fw.worn ∧ (unit < s.fw.pcap → ⟨6, unit⟩ ∈ t.fw.due ∨ NSet.has s.fw.retired key = true))
        ∧ { t with dies := s.dies, fw := { t.fw with worn := s.fw.worn, due := s.fw.due } } = s))
    ∧ (∀ x rest, s.fw.safe = none → s.fw.due = x :: rest →
      exec .safePoint s = .next { s with fw := { s.fw with safe := some ⟨x, x.cores, s.timer⟩ } })
    ∧ (s.fw.safe = none → s.fw.due = [] → exec .safePoint s = .next s ∧ exec .safePointTimeout s = .next s)
    ∧ (∀ w, s.fw.safe = some w →
      (s.runsOn w.cores = true → exec .safePoint s = .next s)
      ∧ (s.runsOn w.cores = false → ∃ t, exec .safePoint s = .next t ∧ t.fw.safe = none ∧ w.due ∉ t.fw.due
        ∧ (w.due.kind = 6 → t.fw.pcap = min s.fw.pcap w.due.unit)
        ∧ (∀ m, w.due.kind = 0 → s.enmap.cores.testBit w.due.unit = true →
          (m / 52 = w.due.unit / 52 ∧ s.enmap.cores.testBit m = false ∧ NSet.has s.fw.retired m = false) →
          (∀ i, i < m → i / 52 = m / 52 → s.enmap.cores.testBit i = true ∨ NSet.has s.fw.retired i = true) →
          (∀ i, t.enmap.cores.testBit i = (decide (i = m) || (s.enmap.cores.testBit i && decide (i ≠ w.due.unit))))
          ∧ ∀ q, (s.queue q).part.testBit w.due.unit = true → (s.queue q).st ≠ .free →
            ∀ i, (t.queue q).part.testBit i = (decide (i = m) || ((s.queue q).part.testBit i && decide (i ≠ w.due.unit))))
        ∧ t.mem = s.mem ∧ t.tags = s.tags ∧ t.poison = s.poison ∧ (w.due.kind ≠ 1 → t.race = s.race))
      ∧ (w.since + 100000000 < s.timer → ∃ t, exec .safePointTimeout s = .next t ∧ t.fw.safe = none ∧ t.fw.due.getLast? = some w.due
        ∧ { t with fw := s.fw, launches := s.launches } = s)
      ∧ (s.timer ≤ w.since + 100000000 → exec .safePointTimeout s = .next s))
    ∧ (∀ i, exec (.islandClockChange i none) s = .next s
      ∧ ∀ n, i < 1024 → exec (.islandClockChange i (some n)) s = .next { s with fw := { s.fw with clkmax := min s.fw.clkmax n } })
    ∧ (∀ line, let a := line * 128
      (isPool a = false ∨ s.backedAt a = false → exec (.poolSnoop line) s = .next s)
      ∧ (isPool a = true → s.backedAt a = true → ∃ t, exec (.poolSnoop line) s = .next t ∧ t.mem = s.mem
        ∧ (∀ b, t.tagAt b = (s.tagAt b && decide (b / 128 ≠ line))) ∧ (∀ g, t.raceAt g = if g / 8 = line then none else s.raceAt g)
        ∧ (∀ h, NSet.has t.poison h = (NSet.has s.poison h || (s.poolGone a && decide (h / 2 = line))))
        ∧ (∀ p ∈ t.parties, p.stashLines a (a + 128) = [])))
    ∧ (∀ l, ∃ t, exec (.poolHostFailure l) s = .next t ∧ { t with poison := s.poison } = s
      ∧ ∀ h, NSet.has t.poison h = (NSet.has s.poison h || (decide (h ∈ l) && isPool (h * 64) && s.backedAt (h * 64))))
    ∧ (∀ i m r, SMap.get none s.regions i = some r →
      let ok := r.versioned = false ∧ m < (if r.parity then 5 else 2)
      (ok → exec (.poolModuleLoss i m) s
        = .next { s with regions := SMap.set none s.regions i (some { r with lostModules := NSet.set r.lostModules m true }) })
      ∧ (¬ok → exec (.poolModuleLoss i m) s = .next s))
    ∧ (∀ p, ∃ t, exec (.poolPortDown p) s = .next t ∧ { t with poolPorts := s.poolPorts } = s
      ∧ ∀ x, NSet.has t.poolPorts x = (NSet.has s.poolPorts x && decide (x ≠ p)))
    ∧ ∃ t, exec .packageReset s = .next t
      ∧ (∀ a, 0x100000000000 ≤ a → a < 0x800000000000 → t.byte a = s.byte a) ∧ (∀ a, a < 0x100000000000 → t.byte a = 0)
      ∧ t.tags = [] ∧ t.race = [] ∧ t.parties = [] ∧ t.jobs = [] ∧ t.queues = [] ∧ t.launches = [] ∧ t.pages = [] ∧ t.colours = []
      ∧ t.grants = [] ∧ t.revMap = [] ∧ t.passDone = 0 ∧ t.timer = 0 ∧ t.mailbox = State.reset.mailbox ∧ t.ports = [] ∧ t.enmap = s.enmap
      ∧ (∀ d, (t.die d).jobCtr = 0 ∧ ((s.die d).fenced = true → (t.die d).fenced = true)
        ∧ ((∀ e ∈ s.dies, e.1 = d → e.2.fenced = false) → (t.die d).fenced = false))
      ∧ t.fw.pcap = 16 ∧ t.fw.clkmax = 128 ∧ t.fw.worn = s.fw.worn ∧ t.fw.retired = s.fw.retired

/-- After package reset the package timer is 0; no party, job, gang, launch, command or page is held; every queue is FREE with
park limit 200 and HEAD and TAIL 0; every colour is FREE with quota 0 (log 16); ports are DOWN with seal counters 1; no race
record is valid; W is 0; CLKMAX is 128 and PCAP 16; die 0's distributor is master; core clocks, stray counts and error counters
are 0 (log 14); memory lists nothing, in its canonical form, and reads 0, untagged and without poison (log 3).
(04_ropes_and_control.md R72, 05_lane_registers.md R105, 07_teams_barriers_cairns.md R162, 09_capabilities.md R202,
09_capabilities.md R206, 12_copy_engine.md R276, 13_tiers_and_route_cards.md R283, 13_tiers_and_route_cards.md R285,
14_memory_model.md R309, 15_queues_graphs_launch.md R311, 18_fabric_collectives_pool.md R372, 19_firmware_power_spares.md R411)
-/
def Obligations.ResetState : Prop :=
  let s := State.reset
  s.timer = 0 ∧ s.parties = [] ∧ s.jobs = [] ∧ s.gangs = [] ∧ s.launches = [] ∧ s.cmds = [] ∧ s.pages = [] ∧ s.passDone = 0 ∧ s.passRunning = false
    ∧ (∀ q, s.queue q = QueueRec.zero) ∧ QueueRec.zero.st = .free ∧ QueueRec.zero.parklim = 200 ∧ QueueRec.zero.head = 0 ∧ QueueRec.zero.tail = 0
    ∧ (∀ c, SMap.get ColourSt.free s.colours c = .free ∧ SMap.get 0 s.quota c = 0)
    ∧ (∀ p, (s.port p).st = .down ∧ (s.port p).sealCtr = 1) ∧ (∀ g, s.raceAt g = none) ∧ s.fw.clkmax = 128 ∧ s.fw.pcap = 16 ∧ s.master = 0
    ∧ (∀ n, (s.core n).clock = 0 ∧ (s.core n).stray = 0) ∧ (∀ d c, SMap.get 0 (s.die d).errors c = 0) ∧ Memory.wf s.mem = true
    ∧ ∀ a, s.byte a = 0 ∧ s.tagAt a = false ∧ NSet.has s.poison (a / 64) = false

/-- icmp.lt.n32 p1, x16, x12; isub x8, x8, 1; rest 1024; draw.w x4, x8; lds.b32 x17, [x18 + 0x100]; cbnd c2, c1, x12, x14; resq
x6, [c2 + x4]; isync; gang 3, s5; mma.z.pa4.pb4 x32, s2, s3; cpy s8, c1; wpt 3; spawn s10, c1, c2, s4; rdsr s4, TCAUSE;
tret.skip; delg s2, c2~, s0; coll.rec s10, s8, c4, 2, s12, 3. (04_ropes_and_control.md R91, 05_lane_registers.md R123,
17_traps_and_preemption.md R355, 17_traps_and_preemption.md R356, 18_fabric_collectives_pool.md R381,
18_fabric_collectives_pool.md R392) -/
def Obligations.SampleWords : Prop :=
  let g : Guard := ⟨false, 7⟩
  let x (n : BitVec 8) : RSrc := ⟨n, .none⟩
  decode 0 0x0A00000304005CB5 = .ok (.icmp ⟨false, false, true, g, 1, x 16, .reg (x 12)⟩ .lt .none 0) 8
    ∧ decode 0 0x4000000042021C85 = .ok (.isub ⟨false, false, false, g, 8, x 8, .imm 1⟩ false) 8
    ∧ decode 0 0x0010000000001C2D = .ok (.rest g 1024) 8
    ∧ decode 0 0x02011DC2 = .ok (.draw ⟨g, .lane 4, x 8, none, none, none⟩) 12
    ∧ decode 0 0x4004000004845E01 = .ok (.lds .b32 g 17 ⟨some (x 18), 0x100⟩) 8
    ∧ decode 0 0x0000000E0000000301021E22 = .ok (.cbnd g 8 (x 4) (x 12) (x 14)) 12
    ∧ decode 0 0x0000000102019F0A = .ok (.resq ⟨g, x 8, .reg (x 4), 0, false⟩ 6) 12
    ∧ decode 0 0x00001E8D = .ok .isync 8
    ∧ decode 0 0x3000000001401EA1 = .ok (.gang 3 5) 8
    ∧ decode 0 0x4CCCC000C0881EAB = .ok (.mma ⟨true, 3, 3, 3, 3, false, false, 32, 2, 3⟩) 16
    ∧ decode 0 0x0000000102001EE1 = .ok (.cpy ⟨false, none, false, 8, x 4⟩) 8
    ∧ decode 0 0x00000C0000001F05 = .ok (.wpt (.imm 3)) 8
    ∧ decode 0 0x000000040000000201029F12 = .ok (.spawn ⟨false, false, g, 10, x 4, x 8, 4⟩) 12
    ∧ decode 0 0x4000100000011F29 = .ok (.rdsr 4 (.unif 4)) 8
    ∧ decode 0 0x2000000000001F25 = .ok (.tret .skip) 8
    ∧ decode 0 0x0000004002009F36 = .ok (.delg g 2 ⟨8, .last⟩ 0) 12
    ∧ decode 0 0x000020310000000C0000000402029F3B = .ok (.coll ⟨true, some 3, 1, 10, 8, 16, 12⟩) 16

/-- Every well-formed instruction of the 156 live majors, encoded and placed anywhere in a fetch block where it fits, decodes to
itself with every operand and to its length. Whenever a word decodes to an instruction, that instruction is well formed and its
encoding is the word again, up to its length. (02_instruction_words.md R25, 02_instruction_words.md R26, 02_instruction_words.md
R27, 02_instruction_words.md R28, 02_instruction_words.md R29, 02_instruction_words.md R33, 02_instruction_words.md R35) -/
def Obligations.DecodeEncode : Prop :=
  (∀ (i : Instr) (q : Nat), i.coded = true → i.wf = true → q + i.bytes / 4 ≤ 8 → decode q (encodeBits i) = .ok i i.bytes)
    ∧ ∀ (q w : Nat) (i : Instr) (b : Nat), decode q w = .ok i b →
      i.coded = true ∧ i.wf = true ∧ b = i.bytes ∧ q + b / 4 ≤ 8 ∧ encodeBits i = w % 2 ^ (8 * b)

/-- On a cycle of an issue pipe the entries at their reconvergence points leave, the pipe chooses a ready pair and its ropes
count the cycle; when fetch gives an instruction that names no register past the allotment, the step is exec of it, its words
out of the fetch buffer, in the state where that pair issues. Fetch gives what the bytes at the PC decode to, when the code
capability covers them in HBM and neither buffer nor instruction cache holds those words. The turn of a command, request or
event runs it in the state itself. What is ready and chosen: R72 (log 1). Of the model's choices it uses logs 19, 105.
(02_instruction_words.md R30, 02_instruction_words.md R33, 04_ropes_and_control.md R72, 04_ropes_and_control.md R79,
09_capabilities.md R200, 10_span_memory.md R236) -/
def Obligations.StepRunsDecoded : Prop :=
  (∀ (s : State) (core pipe : Nat) (un : List (Nat × Bool)) (rest : List Turn) (x : Pair) (c : Ctx) (i : Instr) (b : Nat),
      s.agenda = .cycle core pipe un :: rest →
      let s0 := { s with agenda := rest, issuing := none }
      let s1 := s0.mapPipe core pipe fun _ _ r => r.settlePoints
      let ready := s1.readyPairs core pipe un
      choose ready = some x →
      let s2 := s1.tickPipe core pipe ready (some x)
      s2.ctxAt x.uid x.k x.pos = some c →
      s2.fetchInstr c.party c.rope c.entry.pc = .ok (i, b) → i.pastAllotment c.party.regs = false →
      let s3 := { c.put (c.rope.consume c.entry.pc.toNat b) with issuing := some ⟨x.uid, x.k, x.pos⟩ }
      step s = settled s3 (exec i s3) ∧ s3.mem = s.mem ∧ s3.tags = s.tags ∧ s3.jobs = s.jobs
        ∧ ∃ c3 : Ctx, s3.ctx? = some c3 ∧ c3.entry = c.entry ∧ c3.rope = c.rope.consume c.entry.pc.toNat b)
    ∧ (∀ (s : State) (p : Party) (r : Rope) (pc : BitVec 48) (i : Instr) (b n : Nat),
      let a := pc.toNat
      firstCause (s.useSteps p.colour p.code p.codeTag) = none → capHas p.code pEXEC = true → capBase p.code ≤ a →
      a + 4 * n ≤ capBase p.code + capLen p.code → a + 4 * n ≤ 0x00C000000000 →
      (∀ j, j < n → SMap.get none r.fbuf (a + 4 * j) = none ∧ SMap.get none s.icache (icacheKey (dieOf p.core) (a + 4 * j)) = none) →
      n = lenBytes (s.num a 4 % 4) / 4 → s.num a 4 % 4 ≠ 0 → a / 4 % 8 + n ≤ 8 →
      decode (a / 4 % 8) (s.num a (4 * n)) = .ok i b → s.fetchInstr p r pc = .ok (i, b))
    ∧ ∀ (s : State) (i : Instr) (rest : List Turn), s.agenda = .event i :: rest → i.atRope = false →
      step s = exec i { s with agenda := rest, issuing := none }

/-- From every state whose memory list has its addresses strictly rising and no entry equal to what an unlisted address reads
as, every step that answers a next state leaves it so. So equal memories are equal data (log 3 says what an unlisted address
reads as). (10_span_memory.md R216) -/
def Obligations.StepKeepsMemoryForm : Prop :=
  ∀ s t : State, Memory.wf s.mem = true → step s = .next t → Memory.wf t.mem = true

end Statements
end

