-- ==== Sys2Proof/Laws/Map.lean ====
section
/-! SUPPORT. Reading after writing for sparse maps and sets, and that writing keeps their canonical form. -/
namespace Sys2Proof.Machine

variable {α : Type}

theorem SMap.get_erase (d : α) (m : SMap α) (k j : Nat) :
    SMap.get d (SMap.erase m k) j = if j = k then d else SMap.get d m j := by
  induction m with
  | nil => simp [SMap.erase, SMap.get]
  | cons e t ih =>
    obtain ⟨k', v⟩ := e
    simp only [SMap.erase, SMap.get]
    split <;> (simp only [ih, SMap.get]; grind)

theorem SMap.get_insert (d : α) (m : SMap α) (k : Nat) (v : α) (j : Nat) :
    SMap.get d (SMap.insert (SMap.erase m k) k v) j = if j = k then v else SMap.get d m j := by
  induction m with
  | nil => simp [SMap.erase, SMap.insert, SMap.get]
  | cons e t ih =>
    obtain ⟨k', w⟩ := e
    simp only [SMap.erase]
    split
    · simp only [ih, SMap.get]; grind
    · simp only [SMap.insert]
      split
      · simp only [SMap.get, SMap.get_erase]; grind
      · simp only [SMap.get, ih]; grind

/-- Reading after writing. -/
@[simp] theorem SMap.get_set [DecidableEq α] (d : α) (m : SMap α) (k : Nat) (v : α) (j : Nat) :
    SMap.get d (SMap.set d m k v) j = if j = k then v else SMap.get d m j := by
  unfold SMap.set
  split
  · next h => simp [SMap.get_erase, h]
  · exact SMap.get_insert d m k v j

theorem NSet.has_del (s : NSet) (k j : Nat) : NSet.has (NSet.del s k) j = (if j = k then false else NSet.has s j) := by
  induction s with
  | nil => simp [NSet.del, NSet.has]
  | cons x t ih =>
    simp only [NSet.has] at ih ⊢
    simp only [NSet.del]
    split <;> simp only [List.elem_eq_contains, List.contains_cons] at * <;> grind

theorem NSet.has_put (s : NSet) (k j : Nat) : NSet.has (NSet.put s k) j = (if j = k then true else NSet.has s j) := by
  induction s with
  | nil => simp [NSet.put, NSet.has]
  | cons x t ih =>
    simp only [NSet.has] at ih ⊢
    simp only [NSet.put]
    split <;> simp only [List.elem_eq_contains, List.contains_cons] at * <;> grind

/-- Membership after setting. -/
@[simp] theorem NSet.has_set (s : NSet) (k j : Nat) (b : Bool) :
    NSet.has (NSet.set s k b) j = if j = k then b else NSet.has s j := by
  unfold NSet.set
  split
  · next h => simp [NSet.has_put, NSet.has_del, h]; grind
  · next h => simp [NSet.has_del]; grind

/-! ### Canonical forms -/

theorem SMap.sortedFrom_mono [DecidableEq α] (d : α) (m : SMap α) {a b : Nat} (h : b ≤ a)
    (hm : SMap.sortedFrom d a m = true) : SMap.sortedFrom d b m = true := by
  cases m with
  | nil => rfl
  | cons e t => simp only [SMap.sortedFrom, Bool.and_eq_true, decide_eq_true_eq] at hm ⊢; exact ⟨⟨by omega, hm.1.2⟩, hm.2⟩

theorem SMap.sortedFrom_erase [DecidableEq α] (d : α) (m : SMap α) (k a : Nat) (hm : SMap.sortedFrom d a m = true) :
    SMap.sortedFrom d a (SMap.erase m k) = true := by
  induction m generalizing a with
  | nil => rfl
  | cons e t ih =>
    obtain ⟨k', v⟩ := e
    simp only [SMap.sortedFrom, Bool.and_eq_true, decide_eq_true_eq] at hm
    simp only [SMap.erase]
    split
    · exact SMap.sortedFrom_mono d _ (by omega) (ih _ hm.2)
    · simp only [SMap.sortedFrom, Bool.and_eq_true, decide_eq_true_eq]; exact ⟨hm.1, ih _ hm.2⟩

theorem SMap.sortedFrom_insert [DecidableEq α] (d : α) (m : SMap α) (k a : Nat) (v : α) (hv : v ≠ d) (hk : a ≤ k)
    (hm : SMap.sortedFrom d a m = true) (hn : ∀ w, (k, w) ∉ m) : SMap.sortedFrom d a (SMap.insert m k v) = true := by
  induction m generalizing a with
  | nil => simp [SMap.insert, SMap.sortedFrom, hv, hk]
  | cons e t ih =>
    obtain ⟨k', w⟩ := e
    have hne : k ≠ k' := by rintro rfl; exact hn w (by simp)
    simp only [SMap.sortedFrom, Bool.and_eq_true, decide_eq_true_eq] at hm
    simp only [SMap.insert]
    split
    · simp only [SMap.sortedFrom, Bool.and_eq_true, decide_eq_true_eq]
      exact ⟨⟨hk, hv⟩, ⟨⟨by omega, hm.1.2⟩, hm.2⟩⟩
    · simp only [SMap.sortedFrom, Bool.and_eq_true, decide_eq_true_eq]
      exact ⟨hm.1, ih _ (by omega) hm.2 fun w hw => hn w (by simp [hw])⟩

theorem SMap.not_mem_erase (m : SMap α) (k : Nat) (w : α) : (k, w) ∉ SMap.erase m k := by
  induction m with
  | nil => simp [SMap.erase]
  | cons e t ih =>
    obtain ⟨k', v⟩ := e
    simp only [SMap.erase]
    split
    · exact ih
    · intro h
      rcases List.mem_cons.1 h with h | h
      · simp only [Prod.mk.injEq] at h; omega
      · exact ih h

/-- Writing keeps the canonical form. -/
theorem SMap.wf_set [DecidableEq α] (d : α) (m : SMap α) (k : Nat) (v : α) (hm : SMap.wf d m = true) :
    SMap.wf d (SMap.set d m k v) = true := by
  unfold SMap.wf SMap.set at *
  split
  · exact SMap.sortedFrom_erase d m k 0 hm
  · next h =>
    exact SMap.sortedFrom_insert d _ k 0 v h (Nat.zero_le _) (SMap.sortedFrom_erase d m k 0 hm)
      fun w => SMap.not_mem_erase m k w

end Sys2Proof.Machine
end

