-- ==== Sys2Proof/Laws/Regs.lean ====
section
/-! SUPPORT. Reading the registers of a rope after writing them (R94 to R104): one lemma per reader per writer. -/
namespace Sys2Proof.Machine

theorem laneKey_inj {l l' n n' : Nat} (hn : n < 256) (hn' : n' < 256) : laneKey l n = laneKey l' n' ↔ l = l' ∧ n = n' := by
  unfold laneKey; omega

theorem quadKey_inj {l l' q q' : Nat} (hq : q < 64) (hq' : q' < 64) : quadKey l q = quadKey l' q' ↔ l = l' ∧ q = q' := by
  unfold quadKey; omega

/-! ### Lane registers -/

theorem Rope.x_setX (p : Rope) (l r l' n : Nat) (v : Word) (hr : r < 256) (hn : n < 256) :
    (p.setX l r v).x l' n = if l' = l ∧ n = r then v else p.x l' n := by
  simp [Rope.x, Rope.setX, laneKey_inj hn hr]

@[simp] theorem Rope.x_setTag (p : Rope) (l r l' n : Nat) (t : Bool) : (p.setTag l r t).x l' n = p.x l' n := rfl
@[simp] theorem Rope.x_setS (p : Rope) (m l' n : Nat) (v : Word) : (p.setS m v).x l' n = p.x l' n := rfl
@[simp] theorem Rope.x_setK (p : Rope) (m l' n : Nat) (b : Bool) : (p.setK m b).x l' n = p.x l' n := rfl
@[simp] theorem Rope.x_orFpst (p : Rope) (f : BitVec 6) (l' n : Nat) : (p.orFpst f).x l' n = p.x l' n := rfl
@[simp] theorem Rope.x_setP (p : Rope) (m l l' n : Nat) (b : Bool) : (p.setP m l b).x l' n = p.x l' n := by
  unfold Rope.setP; split <;> rfl
@[simp] theorem Rope.x_stepOn (p : Rope) (pos k l' n : Nat) : (p.stepOn pos k).x l' n = p.x l' n := rfl

theorem Rope.tag_setX (p : Rope) (l r l' q : Nat) (v : Word) (hr : r < 256) (hq : q < 64) :
    (p.setX l r v).tag l' (4 * q) = if l' = l ∧ q = r / 4 then false else p.tag l' (4 * q) := by
  simp [Rope.tag, Rope.setX, quadKey_inj hq (show r / 4 < 64 by omega)]

theorem Rope.tag_setTag (p : Rope) (l r l' q : Nat) (t : Bool) (hr : r < 256) (hq : q < 64) :
    (p.setTag l r t).tag l' (4 * q) = if l' = l ∧ q = r / 4 then t else p.tag l' (4 * q) := by
  simp [Rope.tag, Rope.setTag, quadKey_inj hq (show r / 4 < 64 by omega)]

@[simp] theorem Rope.tag_setS (p : Rope) (m l' r : Nat) (v : Word) : (p.setS m v).tag l' r = p.tag l' r := rfl
@[simp] theorem Rope.tag_setK (p : Rope) (m l' r : Nat) (b : Bool) : (p.setK m b).tag l' r = p.tag l' r := rfl
@[simp] theorem Rope.tag_orFpst (p : Rope) (f : BitVec 6) (l' r : Nat) : (p.orFpst f).tag l' r = p.tag l' r := rfl
@[simp] theorem Rope.tag_setP (p : Rope) (m l l' r : Nat) (b : Bool) : (p.setP m l b).tag l' r = p.tag l' r := by
  unfold Rope.setP; split <;> rfl
@[simp] theorem Rope.tag_stepOn (p : Rope) (pos k l' r : Nat) : (p.stepOn pos k).tag l' r = p.tag l' r := rfl

/-! ### Uniforms -/

@[simp] theorem Rope.s_setS (p : Rope) (m n : Nat) (v : Word) : (p.setS m v).s n = if n = m then v else p.s n := by
  simp [Rope.s, Rope.setS]
@[simp] theorem Rope.s_setX (p : Rope) (l r n : Nat) (v : Word) : (p.setX l r v).s n = p.s n := rfl
@[simp] theorem Rope.s_setTag (p : Rope) (l r n : Nat) (t : Bool) : (p.setTag l r t).s n = p.s n := rfl
@[simp] theorem Rope.s_setK (p : Rope) (m n : Nat) (b : Bool) : (p.setK m b).s n = p.s n := rfl
@[simp] theorem Rope.s_orFpst (p : Rope) (f : BitVec 6) (n : Nat) : (p.orFpst f).s n = p.s n := rfl
@[simp] theorem Rope.s_setP (p : Rope) (m l n : Nat) (b : Bool) : (p.setP m l b).s n = p.s n := by
  unfold Rope.setP; split <;> rfl
@[simp] theorem Rope.s_stepOn (p : Rope) (pos k n : Nat) : (p.stepOn pos k).s n = p.s n := rfl

/-! ### Predicates and flags -/

theorem withBit_getLsbD (m : Word) (l j : Nat) (b : Bool) (hj : j < 32) :
    (withBit m l b).getLsbD j = if j = l then b else m.getLsbD j := by
  have h : (BitVec.ofNat 32 (2 ^ l)).getLsbD j = decide (l = j) := by
    rw [BitVec.getLsbD_ofNat, Nat.testBit_two_pow]; simp [hj]
  unfold withBit
  cases b <;> simp only [if_true, Bool.false_eq_true, if_false, BitVec.getLsbD_or, BitVec.getLsbD_and, BitVec.getLsbD_not, h, hj] <;> grind

theorem Rope.p_setP (p : Rope) (m l n l' : Nat) (b : Bool) (hn : n < 7) (hl : l' < 32) :
    (p.setP m l b).p n l' = if n = m ∧ l' = l then b else p.p n l' := by
  unfold Rope.setP Rope.p Rope.pmask
  have h7 : n ≠ 7 := by omega
  by_cases hm : m = 7
  · have : ¬(n = m ∧ l' = l) := by omega
    simp [hm, h7]
  · simp only [if_neg hm, if_neg h7, SMap.get_set]
    by_cases hnm : n = m
    · subst hnm; rw [if_pos rfl, withBit_getLsbD _ _ _ _ hl]; simp
    · simp [hnm]

@[simp] theorem Rope.p_setX (p : Rope) (l r n l' : Nat) (v : Word) : (p.setX l r v).p n l' = p.p n l' := rfl
@[simp] theorem Rope.p_setTag (p : Rope) (l r n l' : Nat) (t : Bool) : (p.setTag l r t).p n l' = p.p n l' := rfl
@[simp] theorem Rope.p_setS (p : Rope) (m n l' : Nat) (v : Word) : (p.setS m v).p n l' = p.p n l' := rfl
@[simp] theorem Rope.p_setK (p : Rope) (m n l' : Nat) (b : Bool) : (p.setK m b).p n l' = p.p n l' := rfl
@[simp] theorem Rope.p_orFpst (p : Rope) (f : BitVec 6) (n l' : Nat) : (p.orFpst f).p n l' = p.p n l' := rfl
@[simp] theorem Rope.p_stepOn (p : Rope) (pos k n l' : Nat) : (p.stepOn pos k).p n l' = p.p n l' := rfl

theorem Rope.k_setK (p : Rope) (m n : Nat) (b : Bool) (hn : n < 4) : (p.setK m b).k n = if n = m then b else p.k n := by
  have h : (BitVec.ofNat 4 (2 ^ m)).getLsbD n = decide (m = n) := by
    rw [BitVec.getLsbD_ofNat, Nat.testBit_two_pow]; simp [hn]
  unfold Rope.setK Rope.k
  cases b <;> simp only [if_true, Bool.false_eq_true, if_false, BitVec.getLsbD_or, BitVec.getLsbD_and, BitVec.getLsbD_not, h, hn] <;> grind

@[simp] theorem Rope.k_setX (p : Rope) (l r n : Nat) (v : Word) : (p.setX l r v).k n = p.k n := rfl
@[simp] theorem Rope.k_setTag (p : Rope) (l r n : Nat) (t : Bool) : (p.setTag l r t).k n = p.k n := rfl
@[simp] theorem Rope.k_setS (p : Rope) (m n : Nat) (v : Word) : (p.setS m v).k n = p.k n := rfl
@[simp] theorem Rope.k_orFpst (p : Rope) (f : BitVec 6) (n : Nat) : (p.orFpst f).k n = p.k n := rfl
@[simp] theorem Rope.k_setP (p : Rope) (m l n : Nat) (b : Bool) : (p.setP m l b).k n = p.k n := by
  unfold Rope.setP; split <;> rfl
@[simp] theorem Rope.k_stepOn (p : Rope) (pos j n : Nat) : (p.stepOn pos j).k n = p.k n := rfl

/-! ### Lanes of a mask -/

theorem mem_lanesOf {m : Word} {l : Nat} : l ∈ lanesOf m ↔ l < 32 ∧ m.getLsbD l = true := by
  simp [lanesOf]

theorem nodup_lanesOf (m : Word) : (lanesOf m).Nodup := by
  unfold lanesOf
  exact List.Nodup.sublist List.filter_sublist List.nodup_range

end Sys2Proof.Machine
end

