-- ==== Sys2Proof/Laws/Cards.lean ====
section
/-! SUPPORT. Everything that executing a card can do, said once (R24, R101, R107): `runCard_law`. -/
namespace Sys2Proof.Machine

/-! ### Folds that write -/

/-- Reading through a fold of writes: the last write that hits decides. -/
theorem foldl_read {σ β γ : Type} (f : σ → β → σ) (read : σ → γ) (hit : β → Bool) (val : β → γ) (l : List β) (s : σ)
    (h : ∀ s b, b ∈ l → read (f s b) = if hit b then val b else read s) :
    read (l.foldl f s) = match l.reverse.find? hit with
      | some b => val b
      | none => read s := by
  rw [← List.foldr_reverse]
  have h' : ∀ s b, b ∈ l.reverse → read (f s b) = if hit b then val b else read s := fun s b hb => h s b (by simpa using hb)
  generalize l.reverse = m at h'
  induction m with
  | nil => rfl
  | cons b t ih =>
    rw [List.foldr_cons, h' _ _ (by simp), List.find?_cons]
    cases hit b with
    | true => rfl
    | false => simpa using ih fun s b hb => h' s b (by simp [hb])

/-- A fold of writes none of which is read. -/
theorem foldl_skip {σ β γ : Type} (f : σ → β → σ) (read : σ → γ) (l : List β) (s : σ)
    (h : ∀ s b, b ∈ l → read (f s b) = read s) : read (l.foldl f s) = read s := by
  induction l generalizing s with
  | nil => rfl
  | cons b t ih => rw [List.foldl_cons, ih _ fun s b hb => h s b (by simp [hb]), h _ _ (by simp)]

/-- A fold over lanes, each of which writes its own part only. -/
theorem foldl_lane {σ γ : Type} (f : σ → Nat → σ) (read : σ → γ) (l : Nat) (ls : List Nat) (hn : ls.Nodup) (s : σ) (v : γ → γ)
    (hit : ∀ s, read (f s l) = v (read s)) (miss : ∀ s j, j ∈ ls → j ≠ l → read (f s j) = read s) :
    read (ls.foldl f s) = if l ∈ ls then v (read s) else read s := by
  induction ls generalizing s with
  | nil => simp
  | cons j t ih =>
    rw [List.nodup_cons] at hn
    have miss' : ∀ s j, j ∈ t → j ≠ l → read (f s j) = read s := fun s j hj => miss s j (by simp [hj])
    rw [List.foldl_cons, ih hn.2 _ miss']
    by_cases hj : j = l
    · subst hj; simp [hn.1, hit]
    · have : l ≠ j := fun h => hj h.symm
      rw [miss s j (by simp) hj]; simp [this]

/-! ### One lane's part -/

/-- An effect names registers 0 to 255 and whole quads. -/
def Fx.fits (x : Fx) : Prop :=
  (∀ r ∈ x.regs, r.1 < 256) ∧ (∀ q ∈ x.quads, q.1 % 4 = 0 ∧ q.1 < 256) ∧ (∀ t ∈ x.tags, t.1 < 256)

theorem Rope.x_setQuad (p : Rope) (l r l' n : Nat) (v : Quad) (t : Bool) (hr : r % 4 = 0) (hr' : r < 256) (hn : n < 256) :
    (p.setQuad l r v t).x l' n = if l' = l ∧ r ≤ n ∧ n < r + 4 then wordOf v (n - r) else p.x l' n := by
  unfold Rope.setQuad
  rw [Rope.x_setTag, Rope.x_setX _ _ _ _ _ _ (by omega) hn, Rope.x_setX _ _ _ _ _ _ (by omega) hn,
    Rope.x_setX _ _ _ _ _ _ (by omega) hn, Rope.x_setX _ _ _ _ _ _ (by omega) hn]
  by_cases hl : l' = l
  · by_cases h : r ≤ n ∧ n < r + 4
    · have : n = r ∨ n = r + 1 ∨ n = r + 2 ∨ n = r + 3 := by omega
      rcases this with h | h | h | h <;> subst h <;> simp [hl, wordOf]
    · have h0 : n ≠ r := by omega
      have h1 : n ≠ r + 1 := by omega
      have h2 : n ≠ r + 2 := by omega
      have h3 : n ≠ r + 3 := by omega
      simp only [h0, h1, h2, h3, h, and_false, if_false]
  · simp [hl]

theorem Rope.tag_setQuad (p : Rope) (l r l' q : Nat) (v : Quad) (t : Bool) (hr : r % 4 = 0) (hr' : r < 256) (hq : q < 64) :
    (p.setQuad l r v t).tag l' (4 * q) = if l' = l ∧ q = r / 4 then t else p.tag l' (4 * q) := by
  unfold Rope.setQuad
  rw [Rope.tag_setTag _ _ _ _ _ _ hr' hq, Rope.tag_setX _ _ _ _ _ _ (by omega) hq, Rope.tag_setX _ _ _ _ _ _ (by omega) hq,
    Rope.tag_setX _ _ _ _ _ _ (by omega) hq, Rope.tag_setX _ _ _ _ _ _ (by omega) hq]
  have h1 : (r + 1) / 4 = r / 4 := by omega
  have h2 : (r + 2) / 4 = r / 4 := by omega
  have h3 : (r + 3) / 4 = r / 4 := by omega
  rw [h1, h2, h3]
  by_cases h : l' = l ∧ q = r / 4 <;> simp [h]

theorem Rope.x_writeLane (p : Rope) (l l' n : Nat) (x : Fx) (hx : x.fits) (hn : n < 256) :
    (p.writeLane l x).x l' n = if l' = l then (x.wrote n).getD (p.x l' n) else p.x l' n := by
  unfold Rope.writeLane
  rw [foldl_skip _ (fun p : Rope => p.x l' n) _ _ (fun s b _ => by simp),
    foldl_skip _ (fun p : Rope => p.x l' n) _ _ (fun s b _ => by simp),
    foldl_read _ (fun p : Rope => p.x l' n) (fun q => decide (l' = l) && (decide (q.1 ≤ n) && decide (n < q.1 + 4)))
      (fun q => wordOf q.2.1 (n - q.1)) _ _ (fun s b hb => by
        have := hx.2.1 b hb
        rw [Rope.x_setQuad _ _ _ _ _ _ _ this.1 this.2 hn]; simp),
    foldl_read _ (fun p : Rope => p.x l' n) (fun r => decide (l' = l) && r.1 == n) (fun r => r.2) _ _ (fun s b hb => by
        rw [Rope.x_setX _ _ _ _ _ _ (hx.1 b hb) hn]; simp only [Bool.and_eq_true, decide_eq_true_eq, beq_iff_eq]
        grind)]
  by_cases hl : l' = l
  · simp only [hl, decide_true, Bool.true_and, if_true, Fx.wrote]
    generalize List.find? _ x.quads.reverse = a
    generalize List.find? _ x.regs.reverse = b
    cases a <;> cases b <;> rfl
  · simp [hl, List.find?_eq_none.2]

theorem Rope.tag_writeLane (p : Rope) (l l' q : Nat) (x : Fx) (hx : x.fits) (hq : q < 64) :
    (p.writeLane l x).tag l' (4 * q) = if l' = l then (x.tagged q).getD (p.tag l' (4 * q)) else p.tag l' (4 * q) := by
  unfold Rope.writeLane
  rw [foldl_skip _ (fun p : Rope => p.tag l' (4 * q)) _ _ (fun s b _ => by simp),
    foldl_read _ (fun p : Rope => p.tag l' (4 * q)) (fun t => decide (l' = l) && t.1 / 4 == q) (fun t => t.2) _ _ (fun s b hb => by
        rw [Rope.tag_setTag _ _ _ _ _ _ (hx.2.2 b hb) hq]; simp only [Bool.and_eq_true, decide_eq_true_eq, beq_iff_eq]; grind),
    foldl_read _ (fun p : Rope => p.tag l' (4 * q)) (fun y => decide (l' = l) && y.1 / 4 == q) (fun y => y.2.2) _ _ (fun s b hb => by
        have := hx.2.1 b hb
        rw [Rope.tag_setQuad _ _ _ _ _ _ _ this.1 this.2 hq]; simp only [Bool.and_eq_true, decide_eq_true_eq, beq_iff_eq]; grind),
    foldl_read _ (fun p : Rope => p.tag l' (4 * q)) (fun r => decide (l' = l) && r.1 / 4 == q) (fun _ => false) _ _ (fun s b hb => by
        rw [Rope.tag_setX _ _ _ _ _ _ (hx.1 b hb) hq]; simp only [Bool.and_eq_true, decide_eq_true_eq, beq_iff_eq]; grind)]
  by_cases hl : l' = l
  · simp only [hl, decide_true, Bool.true_and, if_true, Fx.tagged]
    have h3 : (x.regs.any fun r => r.1 / 4 == q) = (x.regs.reverse.find? fun r => r.1 / 4 == q).isSome := by
      rw [Bool.eq_iff_iff, List.find?_isSome]; simp
    rw [h3]
    generalize List.find? _ x.tags.reverse = a
    generalize List.find? _ x.quads.reverse = b
    generalize List.find? _ x.regs.reverse = d
    cases a <;> cases b <;> cases d <;> rfl
  · simp [hl, List.find?_eq_none.2]

theorem Rope.p_writeLane (p : Rope) (l n l' : Nat) (x : Fx) (hn : n < 7) (hl' : l' < 32) :
    (p.writeLane l x).p n l' = if l' = l then (x.decided n).getD (p.p n l') else p.p n l' := by
  unfold Rope.writeLane
  rw [foldl_read _ (fun p : Rope => p.p n l') (fun b => decide (l' = l) && b.1 == n) (fun b => b.2) _ _ (fun s b _ => by
        rw [Rope.p_setP _ _ _ _ _ _ hn hl']; simp only [Bool.and_eq_true, decide_eq_true_eq, beq_iff_eq]; grind),
    foldl_skip _ (fun p : Rope => p.p n l') _ _ (fun s b _ => by simp),
    foldl_skip _ (fun p : Rope => p.p n l') _ _ (fun s b _ => by simp [Rope.setQuad]),
    foldl_skip _ (fun p : Rope => p.p n l') _ _ (fun s b _ => by simp)]
  by_cases hl : l' = l
  · simp only [hl, decide_true, Bool.true_and, if_true, Fx.decided]
    generalize List.find? _ x.preds.reverse = a
    cases a <;> rfl
  · simp [hl, List.find?_eq_none.2]

/-! ### What a card leaves alone -/

/-- A rope without what a card may change. -/
def Rope.masked (r : Rope) : Rope :=
  { r with regs := [], qtag := [], unif := [], preds := [], flags := 0, fpst := 0, stack := [], accValid := 0 }

theorem Rope.sameBut_iff (r old : Rope) : r.sameBut old ↔ r.masked = old.masked := by
  constructor
  · intro h
    unfold Rope.sameBut at h
    have h2 := congrArg Rope.masked h
    exact h2
  · intro h
    have h2 := congrArg (fun x : Rope => { x with regs := old.regs, qtag := old.qtag, unif := old.unif, preds := old.preds, flags := old.flags, fpst := old.fpst, stack := old.stack, accValid := old.accValid }) h
    exact h2

@[simp] theorem Rope.masked_setX (p : Rope) (l r : Nat) (v : Word) : (p.setX l r v).masked = p.masked := rfl
@[simp] theorem Rope.masked_setTag (p : Rope) (l r : Nat) (t : Bool) : (p.setTag l r t).masked = p.masked := rfl
@[simp] theorem Rope.masked_setQuad (p : Rope) (l r : Nat) (v : Quad) (t : Bool) : (p.setQuad l r v t).masked = p.masked := rfl
@[simp] theorem Rope.masked_setS (p : Rope) (n : Nat) (v : Word) : (p.setS n v).masked = p.masked := rfl
@[simp] theorem Rope.masked_setK (p : Rope) (n : Nat) (b : Bool) : (p.setK n b).masked = p.masked := rfl
@[simp] theorem Rope.masked_orFpst (p : Rope) (f : BitVec 6) : (p.orFpst f).masked = p.masked := rfl
@[simp] theorem Rope.masked_stepOn (p : Rope) (a b : Nat) : (p.stepOn a b).masked = p.masked := rfl
@[simp] theorem Rope.masked_setP (p : Rope) (n l : Nat) (b : Bool) : (p.setP n l b).masked = p.masked := by
  unfold Rope.setP; split <;> rfl
@[simp] theorem Rope.masked_writeLane (p : Rope) (l : Nat) (x : Fx) : (p.writeLane l x).masked = p.masked := by
  unfold Rope.writeLane
  rw [foldl_skip _ Rope.masked _ _ (fun s b _ => by simp), foldl_skip _ Rope.masked _ _ (fun s b _ => by simp),
    foldl_skip _ Rope.masked _ _ (fun s b _ => by simp), foldl_skip _ Rope.masked _ _ (fun s b _ => by simp)]
@[simp] theorem Rope.masked_writeUnif (p : Rope) (x : Fx) : (p.writeUnif x).masked = p.masked := by
  unfold Rope.writeUnif
  rw [foldl_skip _ Rope.masked _ _ (fun s b _ => by simp), foldl_skip _ Rope.masked _ _ (fun s b _ => by simp)]

/-- What a lane's part leaves alone besides. -/
theorem Rope.writeLane_rest (p : Rope) (l : Nat) (x : Fx) :
    (p.writeLane l x).stack = p.stack ∧ (p.writeLane l x).unif = p.unif ∧ (p.writeLane l x).flags = p.flags
      ∧ (p.writeLane l x).fpst = p.fpst := by
  have setP : ∀ (p : Rope) (n l : Nat) (b : Bool), (p.setP n l b).stack = p.stack ∧ (p.setP n l b).unif = p.unif
      ∧ (p.setP n l b).flags = p.flags ∧ (p.setP n l b).fpst = p.fpst := by
    intro p n l b; unfold Rope.setP; split <;> exact ⟨rfl, rfl, rfl, rfl⟩
  unfold Rope.writeLane
  refine ⟨?_, ?_, ?_, ?_⟩
  · rw [foldl_skip _ Rope.stack _ _ (fun s b _ => (setP s _ _ _).1), foldl_skip _ Rope.stack _ _ (fun s b _ => by rfl),
      foldl_skip _ Rope.stack _ _ (fun s b _ => by rfl), foldl_skip _ Rope.stack _ _ (fun s b _ => by rfl)]
  · rw [foldl_skip _ Rope.unif _ _ (fun s b _ => (setP s _ _ _).2.1), foldl_skip _ Rope.unif _ _ (fun s b _ => by rfl),
      foldl_skip _ Rope.unif _ _ (fun s b _ => by rfl), foldl_skip _ Rope.unif _ _ (fun s b _ => by rfl)]
  · rw [foldl_skip _ Rope.flags _ _ (fun s b _ => (setP s _ _ _).2.2.1), foldl_skip _ Rope.flags _ _ (fun s b _ => by rfl),
      foldl_skip _ Rope.flags _ _ (fun s b _ => by rfl), foldl_skip _ Rope.flags _ _ (fun s b _ => by rfl)]
  · rw [foldl_skip _ Rope.fpst _ _ (fun s b _ => (setP s _ _ _).2.2.2), foldl_skip _ Rope.fpst _ _ (fun s b _ => by rfl),
      foldl_skip _ Rope.fpst _ _ (fun s b _ => by rfl), foldl_skip _ Rope.fpst _ _ (fun s b _ => by rfl)]

/-! ### VALID of the accumulator blocks (R254) -/

/-- A fold of writes that can only set a bit. -/
theorem foldl_or {σ β : Type} (f : σ → β → σ) (read : σ → Bool) (hit : β → Bool) (l : List β) (s : σ)
    (h : ∀ s b, b ∈ l → read (f s b) = (read s || hit b)) : read (l.foldl f s) = (read s || l.any hit) := by
  induction l generalizing s with
  | nil => simp
  | cons b t ih => rw [List.foldl_cons, ih _ fun s b hb => h s b (by simp [hb]), h _ _ (by simp), List.any_cons, Bool.or_assoc]

theorem Rope.valid_setX (p : Rope) (l r b : Nat) (v : Word) (hb : b < 8) :
    (p.setX l r v).accValid.getLsbD b = (p.accValid.getLsbD b || r / 32 == b) := by
  unfold Rope.setX
  simp only [BitVec.getLsbD_or, BitVec.getLsbD_ofNat, Nat.testBit_two_pow, hb]
  simp [Bool.beq_eq_decide_eq]

theorem Rope.valid_setQuad (p : Rope) (l r b : Nat) (v : Quad) (t : Bool) (hb : b < 8) (hr : r % 4 = 0) :
    (p.setQuad l r v t).accValid.getLsbD b = (p.accValid.getLsbD b || r / 32 == b) := by
  have h1 : (r + 1) / 32 = r / 32 := by omega
  have h2 : (r + 2) / 32 = r / 32 := by omega
  have h3 : (r + 3) / 32 = r / 32 := by omega
  unfold Rope.setQuad Rope.setTag
  simp only [Rope.valid_setX _ _ _ _ _ hb, h1, h2, h3]
  cases p.accValid.getLsbD b <;> cases (r / 32 == b) <;> rfl

theorem Rope.valid_writeLane (p : Rope) (l b : Nat) (x : Fx) (hx : x.fits) (hb : b < 8) :
    (p.writeLane l x).accValid.getLsbD b = (p.accValid.getLsbD b || x.touches b) := by
  unfold Rope.writeLane Fx.touches
  rw [foldl_skip _ (fun p : Rope => p.accValid.getLsbD b) _ _ (fun s b _ => by unfold Rope.setP; split <;> rfl),
    foldl_skip _ (fun p : Rope => p.accValid.getLsbD b) _ _ (fun s b _ => by rfl),
    foldl_or _ (fun p : Rope => p.accValid.getLsbD b) (fun q => q.1 / 32 == b) _ _
      (fun s q hq => by exact Rope.valid_setQuad _ _ _ _ _ _ hb (hx.2.1 q hq).1),
    foldl_or _ (fun p : Rope => p.accValid.getLsbD b) (fun r => r.1 / 32 == b) _ _
      (fun s r _ => by exact Rope.valid_setX _ _ _ _ _ hb), Bool.or_assoc]

/-! ### Last use (R15, R101) -/

/-- A last-use run lies in the registers. -/
def usedFits (used : List (RSrc × Nat)) : Prop := ∀ s ∈ used, s.1.h = .last → s.1.r.toNat + s.2 ≤ 256

/-- A mask with all bits of lanes: whether lane `l` is in it. -/
theorem mem_lanes (m : Word) (l : Nat) (hl : l < 32) : l ∈ lanesOf m ↔ m.getLsbD l = true := by simp [mem_lanesOf, hl]

/-- The last write of one and the same value: only whether any write hits matters. -/
theorem foldl_const {σ β γ : Type} (f : σ → β → σ) (read : σ → γ) (hit : β → Bool) (v : γ) (l : List β) (s : σ)
    (h : ∀ s b, b ∈ l → read (f s b) = if hit b then v else read s) :
    read (l.foldl f s) = if l.any hit then v else read s := by
  induction l generalizing s with
  | nil => simp
  | cons b t ih =>
    rw [List.foldl_cons, ih _ fun s b hb => h s b (by simp [hb]), h _ _ (by simp), List.any_cons]
    cases hit b <;> cases t.any hit <;> rfl

theorem Rope.x_poisonRun (p : Rope) (m : Word) (r k l n : Nat) (hr : r + k ≤ 256) (hl : l < 32) (hn : n < 256) :
    (p.poisonRun m r k).x l n = if m.getLsbD l && (decide (r ≤ n) && decide (n < r + k)) then regPoison else p.x l n := by
  have run : ∀ (p : Rope) (j : Nat), ((List.range k).foldl (fun (p : Rope) i => p.setX j (r + i) regPoison) p).x l n
      = if l = j ∧ r ≤ n ∧ n < r + k then regPoison else p.x l n := by
    intro p j
    rw [foldl_const _ (fun p : Rope => p.x l n) (fun i => decide (l = j) && r + i == n) regPoison _ _ (fun s i hi => by
      simp only [List.mem_range] at hi
      rw [Rope.x_setX _ _ _ _ _ _ (by omega) hn]; simp only [Bool.and_eq_true, decide_eq_true_eq, beq_iff_eq]; grind)]
    congr 1
    rw [eq_iff_iff, List.any_eq_true]
    constructor
    · rintro ⟨i, hi, h⟩; simp at hi h; omega
    · rintro ⟨h, h1, h2⟩; exact ⟨n - r, by simp; omega, by simp [h]; omega⟩
  unfold Rope.poisonRun
  rw [foldl_lane _ (fun p : Rope => p.x l n) l _ (nodup_lanesOf m) _ (fun old => if r ≤ n ∧ n < r + k then regPoison else old)
    (fun s => by simp [run]) (fun s j _ hj => by simp [run, Ne.symm hj])]
  simp only [mem_lanes _ _ hl]
  cases m.getLsbD l <;> simp

theorem Rope.tag_poisonRun (p : Rope) (m : Word) (r k l q : Nat) (hr : r + k ≤ 256) (hl : l < 32) (hq : q < 64) :
    (p.poisonRun m r k).tag l (4 * q)
      = if m.getLsbD l && (List.range 4).any (fun j => decide (r ≤ 4 * q + j) && decide (4 * q + j < r + k)) then false
        else p.tag l (4 * q) := by
  have run : ∀ (p : Rope) (j : Nat), ((List.range k).foldl (fun (p : Rope) i => p.setX j (r + i) regPoison) p).tag l (4 * q)
      = if l = j ∧ (List.range 4).any (fun j => decide (r ≤ 4 * q + j) && decide (4 * q + j < r + k)) then false
        else p.tag l (4 * q) := by
    intro p j
    rw [foldl_const _ (fun p : Rope => p.tag l (4 * q)) (fun i => decide (l = j) && (r + i) / 4 == q) false _ _ (fun s i hi => by
      simp only [List.mem_range] at hi
      rw [Rope.tag_setX _ _ _ _ _ _ (by omega) hq]; simp only [Bool.and_eq_true, decide_eq_true_eq, beq_iff_eq]; grind)]
    congr 1
    rw [eq_iff_iff, List.any_eq_true, List.any_eq_true]
    constructor
    · rintro ⟨i, hi, h⟩; simp at hi h; exact ⟨h.1, r + i - 4 * q, by simp; omega, by simp; omega⟩
    · rintro ⟨h, i, hi, h1⟩; simp at hi h1; exact ⟨4 * q + i - r, by simp; omega, by simp [h]; omega⟩
  unfold Rope.poisonRun
  rw [foldl_lane _ (fun p : Rope => p.tag l (4 * q)) l _ (nodup_lanesOf m) _
    (fun old => if (List.range 4).any (fun j => decide (r ≤ 4 * q + j) && decide (4 * q + j < r + k)) then false else old)
    (fun s => by simp only [run, true_and]) (fun s j _ hj => by simp only [run, Ne.symm hj, false_and, if_false])]
  simp only [mem_lanes _ _ hl]
  cases m.getLsbD l <;> simp

theorem Rope.valid_poisonRun (p : Rope) (m : Word) (r k b : Nat) (hb : b < 8) :
    (p.poisonRun m r k).accValid.getLsbD b = (p.accValid.getLsbD b || (List.range 32).any fun l => m.getLsbD l &&
      (List.range 32).any fun j => decide (r ≤ 32 * b + j) && decide (32 * b + j < r + k)) := by
  unfold Rope.poisonRun
  rw [foldl_or _ (fun p : Rope => p.accValid.getLsbD b)
    (fun _ => (List.range 32).any fun j => decide (r ≤ 32 * b + j) && decide (32 * b + j < r + k)) _ _ (fun s l _ => by
      rw [foldl_or _ (fun p : Rope => p.accValid.getLsbD b) (fun i => (r + i) / 32 == b) _ _
        (fun s i _ => by exact Rope.valid_setX _ _ _ _ _ hb)]
      congr 1
      rw [Bool.eq_iff_iff, List.any_eq_true, List.any_eq_true]
      constructor
      · rintro ⟨i, hi, h⟩; simp at hi h; exact ⟨r + i - 32 * b, by simp; omega, by simp; omega⟩
      · rintro ⟨i, hi, h1⟩; simp at hi h1; exact ⟨32 * b + i - r, by simp; omega, by simp; omega⟩)]
  congr 1
  simp only [lanesOf, List.any_filter]

/-- What poisoning leaves alone: everything but lane registers, tags and VALID. -/
theorem Rope.poisonRun_rest {γ : Type} (read : Rope → γ) (h : ∀ (p : Rope) l r v, read (p.setX l r v) = read p) (p : Rope)
    (m : Word) (r k : Nat) : read (p.poisonRun m r k) = read p := by
  unfold Rope.poisonRun
  rw [foldl_skip _ read _ _ (fun s l _ => by rw [foldl_skip _ read _ _ (fun s i _ => by exact h _ _ _ _)])]

theorem Rope.useAll_rest {γ : Type} (read : Rope → γ) (h : ∀ (p : Rope) l r v, read (p.setX l r v) = read p) (p : Rope)
    (m : Word) (used : List (RSrc × Nat)) : read (p.useAll m used) = read p := by
  unfold Rope.useAll
  rw [foldl_skip _ read _ _ (fun s u _ => by unfold Rope.useUp; split <;> first | exact Rope.poisonRun_rest read h _ _ _ _ | rfl)]

theorem any_and {α : Type} (l : List α) (c : Bool) (f : α → Bool) : (l.any fun x => c && f x) = (c && l.any f) := by
  induction l with
  | nil => simp
  | cons x t ih => simp only [List.any_cons, ih]; cases c <;> simp

theorem Rope.x_useAll (p : Rope) (m : Word) (used : List (RSrc × Nat)) (l n : Nat) (hu : usedFits used) (hl : l < 32)
    (hn : n < 256) : (p.useAll m used).x l n = if m.getLsbD l && usedUp used n then regPoison else p.x l n := by
  unfold Rope.useAll usedUp
  rw [foldl_const _ (fun p : Rope => p.x l n) (fun s => m.getLsbD l && (decide (s.1.h = .last) && decide (s.1.r.toNat ≤ n)
      && decide (n < s.1.r.toNat + s.2))) regPoison _ _ (fun s u hm => by
    unfold Rope.useUp
    split
    · next h => rw [Rope.x_poisonRun _ _ _ _ _ _ (hu u hm h) hl hn]; simp [h]
    · next h => simp [h]), any_and]

theorem any_swap {α β : Type} (l : List α) (m : List β) (f : α → β → Bool) :
    (l.any fun x => m.any fun y => f x y) = m.any fun y => l.any fun x => f x y := by
  rw [Bool.eq_iff_iff]; simp only [List.any_eq_true]; grind

theorem Rope.tag_useAll (p : Rope) (m : Word) (used : List (RSrc × Nat)) (l q : Nat) (hu : usedFits used) (hl : l < 32)
    (hq : q < 64) : (p.useAll m used).tag l (4 * q)
      = if m.getLsbD l && (List.range 4).any (fun j => usedUp used (4 * q + j)) then false else p.tag l (4 * q) := by
  unfold Rope.useAll usedUp
  rw [foldl_const _ (fun p : Rope => p.tag l (4 * q)) (fun s => m.getLsbD l && ((List.range 4).any fun j =>
      decide (s.1.h = .last) && decide (s.1.r.toNat ≤ 4 * q + j) && decide (4 * q + j < s.1.r.toNat + s.2))) false _ _
      (fun s u hm => by
    unfold Rope.useUp
    split
    · next h => rw [Rope.tag_poisonRun _ _ _ _ _ _ (hu u hm h) hl hq]; simp [h]
    · next h => simp [h]), any_and, any_swap]

theorem Rope.valid_useAll (p : Rope) (m : Word) (used : List (RSrc × Nat)) (b : Nat) (hb : b < 8) :
    (p.useAll m used).accValid.getLsbD b = (p.accValid.getLsbD b || (List.range 32).any fun l => m.getLsbD l &&
      (List.range 32).any fun j => usedUp used (32 * b + j)) := by
  unfold Rope.useAll usedUp
  rw [foldl_or _ (fun p : Rope => p.accValid.getLsbD b) (fun s => (List.range 32).any fun l => m.getLsbD l &&
      (List.range 32).any fun j => decide (s.1.h = .last) && decide (s.1.r.toNat ≤ 32 * b + j)
        && decide (32 * b + j < s.1.r.toNat + s.2)) _ _ (fun s u _ => by
    unfold Rope.useUp
    split
    · next h => rw [Rope.valid_poisonRun _ _ _ _ _ hb]; simp [h]
    · next h => simp [h]), any_swap]
  simp only [any_and, any_swap used]

/-! ### A card -/

theorem any_or {α : Type} (l : List α) (f g : α → Bool) : (l.any fun x => f x || g x) = (l.any f || l.any g) := by
  rw [Bool.eq_iff_iff]; simp only [List.any_eq_true, Bool.or_eq_true]; grind

/-- The rope after a card of the lane class, as folds over its lanes. -/
theorem Card.apply_lanes (k : Card) (e : Env) (hu : k.u = false) :
    k.apply e = (lanesOf e.active).foldl (fun (p : Rope) l => p.write (some l) (k.fx { e with lane := some l }))
      (e.rope.useAll e.active k.used) := by
  simp [Card.apply, hu, List.foldl_map]

theorem Card.apply_unif (k : Card) (e : Env) (hu : k.u = true) :
    k.apply e = e.rope.write none (k.fx { e with lane := none }) := by
  simp [Card.apply, hu]

/-- A reading of the rope that only one lane's part can change, through a card of the lane class. -/
theorem Card.apply_read {γ : Type} (k : Card) (e : Env) (hu : k.u = false) (read : Rope → γ) (l : Nat) (hl : l < 32)
    (v : Fx → γ → γ) (hfp : ∀ (p : Rope) f, read (p.orFpst f) = read p)
    (hit : ∀ (p : Rope), read (p.writeLane l (k.fx { e with lane := some l })) = v (k.fx { e with lane := some l }) (read p))
    (miss : ∀ (p : Rope) j, j ≠ l → read (p.writeLane j (k.fx { e with lane := some j })) = read p) :
    read (k.apply e) = if e.active.getLsbD l then v (k.fx { e with lane := some l }) (read (e.rope.useAll e.active k.used))
      else read (e.rope.useAll e.active k.used) := by
  rw [Card.apply_lanes k e hu, foldl_lane _ read l _ (nodup_lanesOf _) _ (v (k.fx { e with lane := some l }))
    (fun s => by simp [Rope.write, hfp, hit]) (fun s j _ hj => by simp [Rope.write, hfp, miss _ _ hj])]
  simp [mem_lanes _ _ hl]

theorem Rope.s_writeUnif (p : Rope) (x : Fx) (n : Nat) (hq : x.quads = []) : (p.writeUnif x).s n = (x.wrote n).getD (p.s n) := by
  unfold Rope.writeUnif Fx.wrote
  rw [foldl_skip _ (fun p : Rope => p.s n) _ _ (fun s b _ => by simp),
    foldl_read _ (fun p : Rope => p.s n) (fun r => r.1 == n) (fun r => r.2) _ _ (fun s b _ => by simp; grind), hq]
  simp only [List.reverse_nil, List.find?_nil]
  cases List.find? _ x.regs.reverse <;> rfl

theorem Rope.k_writeUnif (p : Rope) (x : Fx) (n : Nat) (hn : n < 4) : (p.writeUnif x).k n = (x.decided n).getD (p.k n) := by
  unfold Rope.writeUnif Fx.decided
  rw [foldl_read _ (fun p : Rope => p.k n) (fun b => b.1 == n) (fun b => b.2) _ _ (fun s b _ => by
      rw [Rope.k_setK _ _ _ _ hn]; simp; grind), foldl_skip _ (fun p : Rope => p.k n) _ _ (fun s b _ => by simp)]
  cases List.find? _ x.preds.reverse <;> rfl

theorem Rope.writeUnif_rest {γ : Type} (read : Rope → γ) (h1 : ∀ (p : Rope) n v, read (p.setS n v) = read p)
    (h2 : ∀ (p : Rope) n b, read (p.setK n b) = read p) (p : Rope) (x : Fx) : read (p.writeUnif x) = read p := by
  unfold Rope.writeUnif
  rw [foldl_skip _ read _ _ (fun s b _ => by exact h2 _ _ _), foldl_skip _ read _ _ (fun s b _ => by exact h1 _ _ _)]

/-- The effect of a card at the issuing rope fits the registers: single registers and quads in every lane, no quad in the uniform
class, and last-use runs. -/
structure CardFits (c : Ctx) (k : Card) : Prop where
  fx : ∀ l, (c.fx k (some l)).fits
  unif : (c.fx k none).quads = []
  used : usedFits k.used

/-- Whether lane `l` executes a card of the lane class. -/
def Ctx.acts (c : Ctx) (k : Card) (l : Nat) : Bool := !k.u && (c.active k.g).getLsbD l

/-- What a card of some bytes leaves in the issuing rope, class by class. -/
structure CardRope (c : Ctx) (bytes : Nat) (k : Card) (r : Rope) : Prop where
  /-- Nothing else of the rope changes. -/
  same : r.sameBut c.rope
  /-- The issuing slot stands behind the instruction; every other entry stays. -/
  stack : r.stack = (c.rope.stepOn c.pos bytes).stack
  /-- An executing lane holds what the card wrote, then what last use poisoned; everything else stays (R15, R24, R101). -/
  lanes : ∀ l n, l < 32 → n < 256 → r.x l n =
    if c.acts k l then
      match (c.fx k (some l)).wrote n with
      | some v => v
      | none => if usedUp k.used n then regPoison else c.rope.x l n
    else c.rope.x l n
  /-- A tag changes only where its quad is written (R99). -/
  tags : ∀ l q, l < 32 → q < 64 → r.tag l (4 * q) =
    if c.acts k l then
      match (c.fx k (some l)).tagged q with
      | some t => t
      | none => if (List.range 4).any fun j => usedUp k.used (4 * q + j) then false else c.rope.tag l (4 * q)
    else c.rope.tag l (4 * q)
  /-- Predicates are written in executing lanes only (R104). -/
  preds : ∀ l n, l < 32 → n < 7 → r.p n l =
    if c.acts k l then ((c.fx k (some l)).decided n).getD (c.rope.p n l) else c.rope.p n l
  /-- Uniforms and flags are written by the uniform class only, once for the rope (R103, R104). -/
  unif : ∀ n, n < 64 → r.s n = if k.u then ((c.fx k none).wrote n).getD (c.rope.s n) else c.rope.s n
  flags : ∀ n, n < 4 → r.k n = if k.u then ((c.fx k none).decided n).getD (c.rope.k n) else c.rope.k n
  /-- Flags accumulate (R65). -/
  fpst : ∀ n, n < 6 → r.fpst.getLsbD n = (c.rope.fpst.getLsbD n ||
    if k.u then (c.fx k none).fpst.getLsbD n
    else (List.range 32).any fun l => c.acts k l && (c.fx k (some l)).fpst.getLsbD n)
  /-- VALID of a block is set by any write to it, last use included, and cleared by none of these (R254). -/
  valid : ∀ b, b < 8 → r.accValid.getLsbD b = (c.rope.accValid.getLsbD b ||
    (List.range 32).any fun l => c.acts k l &&
      ((c.fx k (some l)).touches b || (List.range 32).any fun j => usedUp k.used (32 * b + j)))

theorem card_rope (c : Ctx) (bytes : Nat) (k : Card) (h : CardFits c k) :
    CardRope c bytes k ((k.apply (c.env (c.active k.g))).stepOn c.pos bytes) := by
  cases hu : k.u with
  | true =>
    have ha : ∀ l, c.acts k l = false := by intro l; simp [Ctx.acts, hu]
    refine ⟨?_, ?_, ?_, ?_, ?_, ?_, ?_, ?_, ?_⟩
    · rw [Rope.sameBut_iff, Rope.masked_stepOn, Card.apply_unif k _ hu]; simp [Rope.write, Ctx.env]
    · rw [Card.apply_unif k _ hu]
      have : ∀ p : Rope, (p.stepOn c.pos bytes).stack = p.stack.modify c.pos fun e => { e with pc := e.pc + BitVec.ofNat 48 bytes, wait := none } := fun _ => rfl
      rw [this, this]
      congr 1
      exact Rope.writeUnif_rest Rope.stack (fun _ _ _ => rfl) (fun _ _ _ => rfl) _ _
    · intro l n hl hn
      rw [ha, Card.apply_unif k _ hu]
      simp only [Rope.write, Rope.x_stepOn, Rope.x_orFpst]
      exact Rope.writeUnif_rest (fun p : Rope => p.x l n) (fun _ _ _ => rfl) (fun _ _ _ => rfl) _ _
    · intro l q hl hq
      rw [ha, Card.apply_unif k _ hu]
      simp only [Rope.write, Rope.tag_stepOn, Rope.tag_orFpst]
      exact Rope.writeUnif_rest (fun p : Rope => p.tag l (4 * q)) (fun _ _ _ => rfl) (fun _ _ _ => rfl) _ _
    · intro l n hl hn
      rw [ha, Card.apply_unif k _ hu]
      simp only [Rope.write, Rope.p_stepOn, Rope.p_orFpst]
      exact Rope.writeUnif_rest (fun p : Rope => p.p n l) (fun _ _ _ => rfl) (fun _ _ _ => rfl) _ _
    · intro n hn
      rw [Card.apply_unif k _ hu]
      simp only [Rope.write, Rope.s_stepOn, Rope.s_orFpst, hu, if_true]
      exact Rope.s_writeUnif _ _ _ h.unif
    · intro n hn
      rw [Card.apply_unif k _ hu]
      simp only [Rope.write, Rope.k_stepOn, Rope.k_orFpst, hu, if_true]
      exact Rope.k_writeUnif _ _ _ hn
    · intro n hn
      rw [Card.apply_unif k _ hu]
      have : ∀ (p : Rope) f, ((p.orFpst f).stepOn c.pos bytes).fpst = p.fpst ||| f := fun _ _ => rfl
      simp only [Rope.write, this, BitVec.getLsbD_or, hu, if_true]
      rw [Rope.writeUnif_rest Rope.fpst (fun _ _ _ => rfl) (fun _ _ _ => rfl)]
      rfl
    · intro b hb
      rw [Card.apply_unif k _ hu]
      simp only [ha, Bool.false_and]
      have : ∀ (p : Rope) f, ((p.orFpst f).stepOn c.pos bytes).accValid = p.accValid := fun _ _ => rfl
      simp only [Rope.write, this]
      rw [Rope.writeUnif_rest Rope.accValid (fun _ _ _ => rfl) (fun _ _ _ => rfl)]
      simp [Ctx.env]
  | false =>
    have ha : ∀ l, c.acts k l = (c.active k.g).getLsbD l := by intro l; simp [Ctx.acts, hu]
    have skip : ∀ {γ : Type} (read : Rope → γ), (∀ (p : Rope) l x, read (p.writeLane l x) = read p) →
        (∀ (p : Rope) f, read (p.orFpst f) = read p) → (∀ (p : Rope) l r v, read (p.setX l r v) = read p) →
        read (k.apply (c.env (c.active k.g))) = read c.rope := by
      intro γ read h1 h2 h3
      rw [Card.apply_lanes k _ hu, foldl_skip _ read _ _ (fun s l _ => by simp [Rope.write, h1, h2]),
        Rope.useAll_rest read h3]
      rfl
    refine ⟨?_, ?_, ?_, ?_, ?_, ?_, ?_, ?_, ?_⟩
    · rw [Rope.sameBut_iff, Rope.masked_stepOn]
      exact skip Rope.masked (fun _ _ _ => by simp) (fun _ _ => rfl) (fun _ _ _ _ => rfl)
    · have : ∀ p : Rope, (p.stepOn c.pos bytes).stack = p.stack.modify c.pos fun e => { e with pc := e.pc + BitVec.ofNat 48 bytes, wait := none } := fun _ => rfl
      rw [this, this]
      congr 1
      exact skip Rope.stack (fun p l x => (p.writeLane_rest l x).1) (fun _ _ => rfl) (fun _ _ _ _ => rfl)
    · intro l n hl hn
      rw [ha, Rope.x_stepOn, Card.apply_read k _ hu (fun p : Rope => p.x l n) l hl (fun x o => (x.wrote n).getD o)
        (fun _ _ => rfl) (fun p => by have := Rope.x_writeLane p l l n _ (h.fx l) hn; rw [if_pos rfl] at this; exact this)
        (fun p j hj => by have := Rope.x_writeLane p j l n _ (h.fx j) hn; rw [if_neg (Ne.symm hj)] at this; exact this),
        Rope.x_useAll _ _ _ _ _ h.used hl hn]
      change (if (c.active k.g).getLsbD l = true then ((c.fx k (some l)).wrote n).getD _ else _) = _
      simp only [Ctx.env]
      by_cases hb : (c.active k.g).getLsbD l = true
      · simp only [hb, if_true, Bool.true_and]; cases (c.fx k (some l)).wrote n <;> rfl
      · simp [hb]
    · intro l q hl hq
      rw [ha, Rope.tag_stepOn, Card.apply_read k _ hu (fun p : Rope => p.tag l (4 * q)) l hl (fun x o => (x.tagged q).getD o)
        (fun _ _ => rfl) (fun p => by have := Rope.tag_writeLane p l l q _ (h.fx l) hq; rw [if_pos rfl] at this; exact this)
        (fun p j hj => by have := Rope.tag_writeLane p j l q _ (h.fx j) hq; rw [if_neg (Ne.symm hj)] at this; exact this),
        Rope.tag_useAll _ _ _ _ _ h.used hl hq]
      change (if (c.active k.g).getLsbD l = true then ((c.fx k (some l)).tagged q).getD _ else _) = _
      simp only [Ctx.env]
      by_cases hb : (c.active k.g).getLsbD l = true
      · simp only [hb, if_true, Bool.true_and]; cases (c.fx k (some l)).tagged q <;> rfl
      · simp [hb]
    · intro l n hl hn
      rw [ha, Rope.p_stepOn, Card.apply_read k _ hu (fun p : Rope => p.p n l) l hl (fun x o => (x.decided n).getD o)
        (fun _ _ => rfl) (fun p => by rw [Rope.p_writeLane _ _ _ _ _ hn hl]; simp)
        (fun p j hj => by rw [Rope.p_writeLane _ _ _ _ _ hn hl, if_neg (Ne.symm hj)]),
        Rope.useAll_rest (fun p : Rope => p.p n l) (fun _ _ _ _ => rfl)]
      rfl
    · intro n hn
      rw [Rope.s_stepOn, skip (fun p : Rope => p.s n) (fun p l x => by simp only [Rope.s, (p.writeLane_rest l x).2.1])
        (fun _ _ => rfl) (fun _ _ _ _ => rfl)]
      simp [hu]
    · intro n hn
      rw [Rope.k_stepOn, skip (fun p : Rope => p.k n) (fun p l x => by simp only [Rope.k, (p.writeLane_rest l x).2.2.1])
        (fun _ _ => rfl) (fun _ _ _ _ => rfl)]
      simp [hu]
    · intro n hn
      have : ∀ (p : Rope), (p.stepOn c.pos bytes).fpst = p.fpst := fun _ => rfl
      rw [this, Card.apply_lanes k _ hu, foldl_or _ (fun p : Rope => p.fpst.getLsbD n)
        (fun l => (c.fx k (some l)).fpst.getLsbD n) _ _ (fun s l _ => by
          simp only [Rope.write, Rope.orFpst, BitVec.getLsbD_or, (s.writeLane_rest _ _).2.2.2]; rfl),
        Rope.useAll_rest (fun p : Rope => p.fpst.getLsbD n) (fun _ _ _ _ => rfl)]
      simp only [hu, Bool.false_eq_true, if_false, ha, lanesOf, List.any_filter]
      rfl
    · intro b hb
      have : ∀ (p : Rope), (p.stepOn c.pos bytes).accValid = p.accValid := fun _ => rfl
      rw [this, Card.apply_lanes k _ hu, foldl_or _ (fun p : Rope => p.accValid.getLsbD b)
        (fun l => (c.fx k (some l)).touches b) _ _ (fun s l _ => by
          have : ∀ (p : Rope) f, (p.orFpst f).accValid = p.accValid := fun _ _ => rfl
          simp only [Rope.write, this]
          exact Rope.valid_writeLane _ _ _ _ (h.fx l) hb),
        Rope.valid_useAll _ _ _ _ hb]
      simp only [ha, lanesOf, List.any_filter]
      rw [Bool.or_assoc, ← any_or]
      congr 1
      congr 1
      funext l
      simp only [Ctx.env]
      rw [Bool.and_or_distrib_left, Bool.or_comm]

theorem foldl_or_bit (ls : List Nat) (f : Nat → BitVec 6) (v : BitVec 6) (n : Nat) :
    (ls.foldl (fun v l => v ||| f l) v).getLsbD n = (v.getLsbD n || ls.any fun l => (f l).getLsbD n) :=
  foldl_or _ (fun v : BitVec 6 => v.getLsbD n) _ _ _ fun s b _ => by rw [BitVec.getLsbD_or]

/-- The effect of a card, as statements say it. -/
theorem card_effect (c : Ctx) (bytes : Nat) (k : Card) (h : CardFits c k) :
    EffectRope c (cardEffect c bytes k) ((k.apply (c.env (c.active k.g))).stepOn c.pos bytes) := by
  have hr := card_rope c bytes k h
  have ha : ∀ l, (cardEffect c bytes k).active.getLsbD l = c.acts k l := by
    intro l; unfold cardEffect Ctx.acts; cases k.u <;> simp
  refine ⟨hr.same, hr.stack, ?_, ?_, ?_, ?_, ?_, ?_, ?_⟩
  · intro l n hl hn
    rw [hr.lanes l n hl hn, ha]
    change _ = if _ then ((c.fx k (some l)).wrote n).getD (if usedUp k.used n then _ else _) else _
    cases (c.fx k (some l)).wrote n <;> rfl
  · intro l q hl hq
    rw [hr.tags l q hl hq, ha]
    change _ = if _ then ((c.fx k (some l)).tagged q).getD _ else _
    cases (c.fx k (some l)).tagged q <;> rfl
  · intro l n hl hn
    rw [hr.preds l n hl hn, ha]; rfl
  · intro n hn
    rw [hr.unif n hn]
    unfold cardEffect
    cases k.u <;> rfl
  · intro n hn
    rw [hr.flags n hn]
    unfold cardEffect
    cases k.u <;> rfl
  · refine BitVec.eq_of_getLsbD_eq fun n hn => ?_
    rw [hr.fpst n hn, BitVec.getLsbD_or]
    unfold cardEffect Ctx.acts flagsOver
    cases hu : k.u
    · simp only [Bool.false_eq_true, if_false, Bool.not_false, Bool.true_and]
      rw [foldl_or_bit]
      simp [lanesOf, List.any_filter]
    · rfl
  · intro b hb
    rw [hr.valid b hb]
    congr 1
    congr 1
    funext l
    rw [ha]
    rfl

/-- Everything that executing a card does. -/
theorem runCard_law (c : Ctx) (hc : c.s.ctx? = some c) (bytes : Nat) (k : Card) (h : CardFits c k) :
    ∃ r, c.s.runCard bytes k = .next (c.put r) ∧ EffectRope c (cardEffect c bytes k) r :=
  ⟨_, by rw [State.runCard, State.issue, hc]; rfl, card_effect c bytes k h⟩

/-- An instruction whose meaning is a card. -/
theorem answers_of_card (c : Ctx) (hc : c.s.ctx? = some c) (i : Instr) (bytes : Nat) (k : Card) (h : CardFits c k)
    (he : exec i c.s = c.s.runCard bytes k) : Answers c i bytes k := by
  obtain ⟨r, h1, h2⟩ := runCard_law c hc bytes k h
  exact ⟨r, he.trans h1, h2⟩

end Sys2Proof.Machine
end

