-- ==== Sys2Proof/Laws/State.lean ====
section
/-!
SUPPORT. What each update of the state, of a party and of a rope leaves in every field: one law per update, whose conjuncts `simp`
takes as one rule per field. With them no proof unfolds a record update.
-/
namespace Sys2Proof.Machine

/-! ### Updates of a rope -/

@[simp] theorem Rope.setX_fields (p : Rope) (l r : Nat) (v : Word) :
    (p.setX l r v).regs = (SMap.set regPoison p.regs (laneKey l r) v) ∧
    (p.setX l r v).qtag = (NSet.set p.qtag (quadKey l (r / 4)) false) ∧ (p.setX l r v).unif = p.unif ∧
    (p.setX l r v).preds = p.preds ∧ (p.setX l r v).flags = p.flags ∧ (p.setX l r v).fpst = p.fpst ∧
    (p.setX l r v).stack = p.stack ∧ (p.setX l r v).lfsr = p.lfsr ∧ (p.setX l r v).dkey = p.dkey ∧
    (p.setX l r v).dctr = p.dctr ∧ (p.setX l r v).gangReg = p.gangReg ∧
    (p.setX l r v).accValid = (p.accValid ||| BitVec.ofNat 8 (2 ^ (r / 32))) ∧ (p.setX l r v).accDirty = p.accDirty ∧
    (p.setX l r v).accInfl = p.accInfl ∧ (p.setX l r v).trapvec = p.trapvec ∧ (p.setX l r v).tpc = p.tpc ∧
    (p.setX l r v).tcause = p.tcause ∧ (p.setX l r v).tmask = p.tmask ∧ (p.setX l r v).tinfo = p.tinfo ∧
    (p.setX l r v).hm = p.hm ∧ (p.setX l r v).hdepth = p.hdepth ∧ (p.setX l r v).wptmiss = p.wptmiss ∧
    (p.setX l r v).lastWpt = p.lastWpt ∧ (p.setX l r v).ring = p.ring ∧ (p.setX l r v).agent = p.agent ∧
    (p.setX l r v).rel = p.rel ∧ (p.setX l r v).know = p.know ∧ (p.setX l r v).fenced = p.fenced ∧
    (p.setX l r v).seen = p.seen ∧ (p.setX l r v).age = p.age ∧ (p.setX l r v).slot = p.slot ∧ (p.setX l r v).park = p.park ∧
    (p.setX l r v).lostPages = p.lostPages ∧ (p.setX l r v).farOut = p.farOut ∧ (p.setX l r v).farDropped = p.farDropped ∧
    (p.setX l r v).fbuf = p.fbuf ∧ (p.setX l r v).drawtWait = p.drawtWait ∧ (p.setX l r v).peerData = p.peerData ∧
    (p.setX l r v).capt = p.capt ∧ (p.setX l r v).ended = p.ended := by
  and_intros <;> rfl

@[simp] theorem Rope.setTag_fields (p : Rope) (l r : Nat) (t : Bool) :
    (p.setTag l r t).regs = p.regs ∧ (p.setTag l r t).qtag = (NSet.set p.qtag (quadKey l (r / 4)) t) ∧
    (p.setTag l r t).unif = p.unif ∧ (p.setTag l r t).preds = p.preds ∧ (p.setTag l r t).flags = p.flags ∧
    (p.setTag l r t).fpst = p.fpst ∧ (p.setTag l r t).stack = p.stack ∧ (p.setTag l r t).lfsr = p.lfsr ∧
    (p.setTag l r t).dkey = p.dkey ∧ (p.setTag l r t).dctr = p.dctr ∧ (p.setTag l r t).gangReg = p.gangReg ∧
    (p.setTag l r t).accValid = p.accValid ∧ (p.setTag l r t).accDirty = p.accDirty ∧ (p.setTag l r t).accInfl = p.accInfl ∧
    (p.setTag l r t).trapvec = p.trapvec ∧ (p.setTag l r t).tpc = p.tpc ∧ (p.setTag l r t).tcause = p.tcause ∧
    (p.setTag l r t).tmask = p.tmask ∧ (p.setTag l r t).tinfo = p.tinfo ∧ (p.setTag l r t).hm = p.hm ∧
    (p.setTag l r t).hdepth = p.hdepth ∧ (p.setTag l r t).wptmiss = p.wptmiss ∧ (p.setTag l r t).lastWpt = p.lastWpt ∧
    (p.setTag l r t).ring = p.ring ∧ (p.setTag l r t).agent = p.agent ∧ (p.setTag l r t).rel = p.rel ∧
    (p.setTag l r t).know = p.know ∧ (p.setTag l r t).fenced = p.fenced ∧ (p.setTag l r t).seen = p.seen ∧
    (p.setTag l r t).age = p.age ∧ (p.setTag l r t).slot = p.slot ∧ (p.setTag l r t).park = p.park ∧
    (p.setTag l r t).lostPages = p.lostPages ∧ (p.setTag l r t).farOut = p.farOut ∧
    (p.setTag l r t).farDropped = p.farDropped ∧ (p.setTag l r t).fbuf = p.fbuf ∧ (p.setTag l r t).drawtWait = p.drawtWait ∧
    (p.setTag l r t).peerData = p.peerData ∧ (p.setTag l r t).capt = p.capt ∧ (p.setTag l r t).ended = p.ended := by
  and_intros <;> rfl

@[simp] theorem Rope.setS_fields (p : Rope) (n : Nat) (v : Word) :
    (p.setS n v).regs = p.regs ∧ (p.setS n v).qtag = p.qtag ∧ (p.setS n v).unif = (SMap.set regPoison p.unif n v) ∧
    (p.setS n v).preds = p.preds ∧ (p.setS n v).flags = p.flags ∧ (p.setS n v).fpst = p.fpst ∧ (p.setS n v).stack = p.stack ∧
    (p.setS n v).lfsr = p.lfsr ∧ (p.setS n v).dkey = p.dkey ∧ (p.setS n v).dctr = p.dctr ∧ (p.setS n v).gangReg = p.gangReg ∧
    (p.setS n v).accValid = p.accValid ∧ (p.setS n v).accDirty = p.accDirty ∧ (p.setS n v).accInfl = p.accInfl ∧
    (p.setS n v).trapvec = p.trapvec ∧ (p.setS n v).tpc = p.tpc ∧ (p.setS n v).tcause = p.tcause ∧
    (p.setS n v).tmask = p.tmask ∧ (p.setS n v).tinfo = p.tinfo ∧ (p.setS n v).hm = p.hm ∧ (p.setS n v).hdepth = p.hdepth ∧
    (p.setS n v).wptmiss = p.wptmiss ∧ (p.setS n v).lastWpt = p.lastWpt ∧ (p.setS n v).ring = p.ring ∧
    (p.setS n v).agent = p.agent ∧ (p.setS n v).rel = p.rel ∧ (p.setS n v).know = p.know ∧ (p.setS n v).fenced = p.fenced ∧
    (p.setS n v).seen = p.seen ∧ (p.setS n v).age = p.age ∧ (p.setS n v).slot = p.slot ∧ (p.setS n v).park = p.park ∧
    (p.setS n v).lostPages = p.lostPages ∧ (p.setS n v).farOut = p.farOut ∧ (p.setS n v).farDropped = p.farDropped ∧
    (p.setS n v).fbuf = p.fbuf ∧ (p.setS n v).drawtWait = p.drawtWait ∧ (p.setS n v).peerData = p.peerData ∧
    (p.setS n v).capt = p.capt ∧ (p.setS n v).ended = p.ended := by
  and_intros <;> rfl

@[simp] theorem Rope.setP_fields (p : Rope) (n l : Nat) (b : Bool) :
    (p.setP n l b).regs = p.regs ∧ (p.setP n l b).qtag = p.qtag ∧ (p.setP n l b).unif = p.unif ∧
    (p.setP n l b).preds = (if n = 7 then p.preds else SMap.set 0#32 p.preds n (withBit (SMap.get 0#32 p.preds n) l b)) ∧
    (p.setP n l b).flags = p.flags ∧ (p.setP n l b).fpst = p.fpst ∧ (p.setP n l b).stack = p.stack ∧
    (p.setP n l b).lfsr = p.lfsr ∧ (p.setP n l b).dkey = p.dkey ∧ (p.setP n l b).dctr = p.dctr ∧
    (p.setP n l b).gangReg = p.gangReg ∧ (p.setP n l b).accValid = p.accValid ∧ (p.setP n l b).accDirty = p.accDirty ∧
    (p.setP n l b).accInfl = p.accInfl ∧ (p.setP n l b).trapvec = p.trapvec ∧ (p.setP n l b).tpc = p.tpc ∧
    (p.setP n l b).tcause = p.tcause ∧ (p.setP n l b).tmask = p.tmask ∧ (p.setP n l b).tinfo = p.tinfo ∧
    (p.setP n l b).hm = p.hm ∧ (p.setP n l b).hdepth = p.hdepth ∧ (p.setP n l b).wptmiss = p.wptmiss ∧
    (p.setP n l b).lastWpt = p.lastWpt ∧ (p.setP n l b).ring = p.ring ∧ (p.setP n l b).agent = p.agent ∧
    (p.setP n l b).rel = p.rel ∧ (p.setP n l b).know = p.know ∧ (p.setP n l b).fenced = p.fenced ∧
    (p.setP n l b).seen = p.seen ∧ (p.setP n l b).age = p.age ∧ (p.setP n l b).slot = p.slot ∧ (p.setP n l b).park = p.park ∧
    (p.setP n l b).lostPages = p.lostPages ∧ (p.setP n l b).farOut = p.farOut ∧ (p.setP n l b).farDropped = p.farDropped ∧
    (p.setP n l b).fbuf = p.fbuf ∧ (p.setP n l b).drawtWait = p.drawtWait ∧ (p.setP n l b).peerData = p.peerData ∧
    (p.setP n l b).capt = p.capt ∧ (p.setP n l b).ended = p.ended := by
  unfold Rope.setP; split <;> (and_intros <;> rfl)

@[simp] theorem Rope.setK_fields (p : Rope) (n : Nat) (b : Bool) :
    (p.setK n b).regs = p.regs ∧ (p.setK n b).qtag = p.qtag ∧ (p.setK n b).unif = p.unif ∧ (p.setK n b).preds = p.preds ∧
    (p.setK n b).flags = (if b then p.flags ||| BitVec.ofNat 4 (2 ^ n) else p.flags &&& ~~~(BitVec.ofNat 4 (2 ^ n))) ∧
    (p.setK n b).fpst = p.fpst ∧ (p.setK n b).stack = p.stack ∧ (p.setK n b).lfsr = p.lfsr ∧ (p.setK n b).dkey = p.dkey ∧
    (p.setK n b).dctr = p.dctr ∧ (p.setK n b).gangReg = p.gangReg ∧ (p.setK n b).accValid = p.accValid ∧
    (p.setK n b).accDirty = p.accDirty ∧ (p.setK n b).accInfl = p.accInfl ∧ (p.setK n b).trapvec = p.trapvec ∧
    (p.setK n b).tpc = p.tpc ∧ (p.setK n b).tcause = p.tcause ∧ (p.setK n b).tmask = p.tmask ∧ (p.setK n b).tinfo = p.tinfo ∧
    (p.setK n b).hm = p.hm ∧ (p.setK n b).hdepth = p.hdepth ∧ (p.setK n b).wptmiss = p.wptmiss ∧
    (p.setK n b).lastWpt = p.lastWpt ∧ (p.setK n b).ring = p.ring ∧ (p.setK n b).agent = p.agent ∧ (p.setK n b).rel = p.rel ∧
    (p.setK n b).know = p.know ∧ (p.setK n b).fenced = p.fenced ∧ (p.setK n b).seen = p.seen ∧ (p.setK n b).age = p.age ∧
    (p.setK n b).slot = p.slot ∧ (p.setK n b).park = p.park ∧ (p.setK n b).lostPages = p.lostPages ∧
    (p.setK n b).farOut = p.farOut ∧ (p.setK n b).farDropped = p.farDropped ∧ (p.setK n b).fbuf = p.fbuf ∧
    (p.setK n b).drawtWait = p.drawtWait ∧ (p.setK n b).peerData = p.peerData ∧ (p.setK n b).capt = p.capt ∧
    (p.setK n b).ended = p.ended := by
  and_intros <;> rfl

@[simp] theorem Rope.orFpst_fields (p : Rope) (f : BitVec 6) :
    (p.orFpst f).regs = p.regs ∧ (p.orFpst f).qtag = p.qtag ∧ (p.orFpst f).unif = p.unif ∧ (p.orFpst f).preds = p.preds ∧
    (p.orFpst f).flags = p.flags ∧ (p.orFpst f).fpst = (p.fpst ||| f) ∧ (p.orFpst f).stack = p.stack ∧
    (p.orFpst f).lfsr = p.lfsr ∧ (p.orFpst f).dkey = p.dkey ∧ (p.orFpst f).dctr = p.dctr ∧ (p.orFpst f).gangReg = p.gangReg ∧
    (p.orFpst f).accValid = p.accValid ∧ (p.orFpst f).accDirty = p.accDirty ∧ (p.orFpst f).accInfl = p.accInfl ∧
    (p.orFpst f).trapvec = p.trapvec ∧ (p.orFpst f).tpc = p.tpc ∧ (p.orFpst f).tcause = p.tcause ∧
    (p.orFpst f).tmask = p.tmask ∧ (p.orFpst f).tinfo = p.tinfo ∧ (p.orFpst f).hm = p.hm ∧ (p.orFpst f).hdepth = p.hdepth ∧
    (p.orFpst f).wptmiss = p.wptmiss ∧ (p.orFpst f).lastWpt = p.lastWpt ∧ (p.orFpst f).ring = p.ring ∧
    (p.orFpst f).agent = p.agent ∧ (p.orFpst f).rel = p.rel ∧ (p.orFpst f).know = p.know ∧ (p.orFpst f).fenced = p.fenced ∧
    (p.orFpst f).seen = p.seen ∧ (p.orFpst f).age = p.age ∧ (p.orFpst f).slot = p.slot ∧ (p.orFpst f).park = p.park ∧
    (p.orFpst f).lostPages = p.lostPages ∧ (p.orFpst f).farOut = p.farOut ∧ (p.orFpst f).farDropped = p.farDropped ∧
    (p.orFpst f).fbuf = p.fbuf ∧ (p.orFpst f).drawtWait = p.drawtWait ∧ (p.orFpst f).peerData = p.peerData ∧
    (p.orFpst f).capt = p.capt ∧ (p.orFpst f).ended = p.ended := by
  and_intros <;> rfl

@[simp] theorem Rope.setWait_fields (p : Rope) (pos : Nat) (w : Option Wait) :
    (p.setWait pos w).regs = p.regs ∧ (p.setWait pos w).qtag = p.qtag ∧ (p.setWait pos w).unif = p.unif ∧
    (p.setWait pos w).preds = p.preds ∧ (p.setWait pos w).flags = p.flags ∧ (p.setWait pos w).fpst = p.fpst ∧
    (p.setWait pos w).stack = (p.stack.modify pos fun e => { e with wait := w }) ∧ (p.setWait pos w).lfsr = p.lfsr ∧
    (p.setWait pos w).dkey = p.dkey ∧ (p.setWait pos w).dctr = p.dctr ∧ (p.setWait pos w).gangReg = p.gangReg ∧
    (p.setWait pos w).accValid = p.accValid ∧ (p.setWait pos w).accDirty = p.accDirty ∧
    (p.setWait pos w).accInfl = p.accInfl ∧ (p.setWait pos w).trapvec = p.trapvec ∧ (p.setWait pos w).tpc = p.tpc ∧
    (p.setWait pos w).tcause = p.tcause ∧ (p.setWait pos w).tmask = p.tmask ∧ (p.setWait pos w).tinfo = p.tinfo ∧
    (p.setWait pos w).hm = p.hm ∧ (p.setWait pos w).hdepth = p.hdepth ∧ (p.setWait pos w).wptmiss = p.wptmiss ∧
    (p.setWait pos w).lastWpt = p.lastWpt ∧ (p.setWait pos w).ring = p.ring ∧ (p.setWait pos w).agent = p.agent ∧
    (p.setWait pos w).rel = p.rel ∧ (p.setWait pos w).know = p.know ∧ (p.setWait pos w).fenced = p.fenced ∧
    (p.setWait pos w).seen = p.seen ∧ (p.setWait pos w).age = p.age ∧ (p.setWait pos w).slot = p.slot ∧
    (p.setWait pos w).park = p.park ∧ (p.setWait pos w).lostPages = p.lostPages ∧ (p.setWait pos w).farOut = p.farOut ∧
    (p.setWait pos w).farDropped = p.farDropped ∧ (p.setWait pos w).fbuf = p.fbuf ∧
    (p.setWait pos w).drawtWait = p.drawtWait ∧ (p.setWait pos w).peerData = p.peerData ∧ (p.setWait pos w).capt = p.capt ∧
    (p.setWait pos w).ended = p.ended := by
  and_intros <;> rfl

@[simp] theorem Rope.stepOn_fields (p : Rope) (pos k : Nat) :
    (p.stepOn pos k).regs = p.regs ∧ (p.stepOn pos k).qtag = p.qtag ∧ (p.stepOn pos k).unif = p.unif ∧
    (p.stepOn pos k).preds = p.preds ∧ (p.stepOn pos k).flags = p.flags ∧ (p.stepOn pos k).fpst = p.fpst ∧
    (p.stepOn pos k).stack = (p.stack.modify pos fun e => { e with pc := e.pc + BitVec.ofNat 48 k, wait := none }) ∧
    (p.stepOn pos k).lfsr = p.lfsr ∧ (p.stepOn pos k).dkey = p.dkey ∧ (p.stepOn pos k).dctr = p.dctr ∧
    (p.stepOn pos k).gangReg = p.gangReg ∧ (p.stepOn pos k).accValid = p.accValid ∧ (p.stepOn pos k).accDirty = p.accDirty ∧
    (p.stepOn pos k).accInfl = p.accInfl ∧ (p.stepOn pos k).trapvec = p.trapvec ∧ (p.stepOn pos k).tpc = p.tpc ∧
    (p.stepOn pos k).tcause = p.tcause ∧ (p.stepOn pos k).tmask = p.tmask ∧ (p.stepOn pos k).tinfo = p.tinfo ∧
    (p.stepOn pos k).hm = p.hm ∧ (p.stepOn pos k).hdepth = p.hdepth ∧ (p.stepOn pos k).wptmiss = p.wptmiss ∧
    (p.stepOn pos k).lastWpt = p.lastWpt ∧ (p.stepOn pos k).ring = p.ring ∧ (p.stepOn pos k).agent = p.agent ∧
    (p.stepOn pos k).rel = p.rel ∧ (p.stepOn pos k).know = p.know ∧ (p.stepOn pos k).fenced = p.fenced ∧
    (p.stepOn pos k).seen = p.seen ∧ (p.stepOn pos k).age = p.age ∧ (p.stepOn pos k).slot = p.slot ∧
    (p.stepOn pos k).park = p.park ∧ (p.stepOn pos k).lostPages = p.lostPages ∧ (p.stepOn pos k).farOut = p.farOut ∧
    (p.stepOn pos k).farDropped = p.farDropped ∧ (p.stepOn pos k).fbuf = p.fbuf ∧ (p.stepOn pos k).drawtWait = p.drawtWait ∧
    (p.stepOn pos k).peerData = p.peerData ∧ (p.stepOn pos k).capt = p.capt ∧ (p.stepOn pos k).ended = p.ended := by
  and_intros <;> rfl

/-! ### Updates of a party -/

@[simp] theorem Party.setRope_fields (p : Party) (k : Nat) (r : Rope) :
    (p.setRope k r).uid = p.uid ∧ (p.setRope k r).launch = p.launch ∧ (p.setRope k r).record = p.record ∧
    (p.setRope k r).index = p.index ∧ (p.setRope k r).queue = p.queue ∧ (p.setRope k r).colour = p.colour ∧
    (p.setRope k r).core = p.core ∧ (p.setRope k r).pslot = p.pslot ∧ (p.setRope k r).regs = p.regs ∧
    (p.setRope k r).scratchSize = p.scratchSize ∧ (p.setRope k r).capacity = p.capacity ∧ (p.setRope k r).status = p.status ∧
    (p.setRope k r).ropes = (p.ropes.set k r) ∧ (p.setRope k r).teams = p.teams ∧ (p.setRope k r).scratch = p.scratch ∧
    (p.setRope k r).stag = p.stag ∧ (p.setRope k r).spoison = p.spoison ∧ (p.setRope k r).pages = p.pages ∧
    (p.setRope k r).backed = p.backed ∧ (p.setRope k r).present = p.present ∧ (p.setRope k r).dirty = p.dirty ∧
    (p.setRope k r).bars = p.bars ∧ (p.setRope k r).cairns = p.cairns ∧ (p.setRope k r).ssync = p.ssync ∧
    (p.setRope k r).code = p.code ∧ (p.setRope k r).codeTag = p.codeTag ∧ (p.setRope k r).frame = p.frame ∧
    (p.setRope k r).cstackAt = p.cstackAt ∧ (p.setRope k r).backingAt = p.backingAt ∧ (p.setRope k r).saveAt = p.saveAt ∧
    (p.setRope k r).killed = p.killed ∧ (p.setRope k r).holds = p.holds ∧ (p.setRope k r).replay = p.replay := by
  and_intros <;> rfl

@[simp] theorem Party.mapEntries_fields (p : Party) (f : Entry → Entry) :
    (p.mapEntries f).uid = p.uid ∧ (p.mapEntries f).launch = p.launch ∧ (p.mapEntries f).record = p.record ∧
    (p.mapEntries f).index = p.index ∧ (p.mapEntries f).queue = p.queue ∧ (p.mapEntries f).colour = p.colour ∧
    (p.mapEntries f).core = p.core ∧ (p.mapEntries f).pslot = p.pslot ∧ (p.mapEntries f).regs = p.regs ∧
    (p.mapEntries f).scratchSize = p.scratchSize ∧ (p.mapEntries f).capacity = p.capacity ∧
    (p.mapEntries f).status = p.status ∧ (p.mapEntries f).ropes = (p.ropes.map fun r => { r with stack := r.stack.map f }) ∧
    (p.mapEntries f).teams = p.teams ∧ (p.mapEntries f).scratch = p.scratch ∧ (p.mapEntries f).stag = p.stag ∧
    (p.mapEntries f).spoison = p.spoison ∧ (p.mapEntries f).pages = p.pages ∧ (p.mapEntries f).backed = p.backed ∧
    (p.mapEntries f).present = p.present ∧ (p.mapEntries f).dirty = p.dirty ∧ (p.mapEntries f).bars = p.bars ∧
    (p.mapEntries f).cairns = p.cairns ∧ (p.mapEntries f).ssync = p.ssync ∧ (p.mapEntries f).code = p.code ∧
    (p.mapEntries f).codeTag = p.codeTag ∧ (p.mapEntries f).frame = p.frame ∧ (p.mapEntries f).cstackAt = p.cstackAt ∧
    (p.mapEntries f).backingAt = p.backingAt ∧ (p.mapEntries f).saveAt = p.saveAt ∧ (p.mapEntries f).killed = p.killed ∧
    (p.mapEntries f).holds = p.holds ∧ (p.mapEntries f).replay = p.replay := by
  and_intros <;> rfl

@[simp] theorem Party.wake_fields (p : Party) (f : Wait → Bool) :
    (p.wake f).uid = p.uid ∧ (p.wake f).launch = p.launch ∧ (p.wake f).record = p.record ∧ (p.wake f).index = p.index ∧
    (p.wake f).queue = p.queue ∧ (p.wake f).colour = p.colour ∧ (p.wake f).core = p.core ∧ (p.wake f).pslot = p.pslot ∧
    (p.wake f).regs = p.regs ∧ (p.wake f).scratchSize = p.scratchSize ∧ (p.wake f).capacity = p.capacity ∧
    (p.wake f).status = p.status ∧
    (p.wake f).ropes = (p.ropes.map fun r => { r with stack := r.stack.map fun e => if e.wait.any f then { e with wait := none } else e }) ∧
    (p.wake f).teams = p.teams ∧ (p.wake f).scratch = p.scratch ∧ (p.wake f).stag = p.stag ∧ (p.wake f).spoison = p.spoison ∧
    (p.wake f).pages = p.pages ∧ (p.wake f).backed = p.backed ∧ (p.wake f).present = p.present ∧ (p.wake f).dirty = p.dirty ∧
    (p.wake f).bars = p.bars ∧ (p.wake f).cairns = p.cairns ∧ (p.wake f).ssync = p.ssync ∧ (p.wake f).code = p.code ∧
    (p.wake f).codeTag = p.codeTag ∧ (p.wake f).frame = p.frame ∧ (p.wake f).cstackAt = p.cstackAt ∧
    (p.wake f).backingAt = p.backingAt ∧ (p.wake f).saveAt = p.saveAt ∧ (p.wake f).killed = p.killed ∧
    (p.wake f).holds = p.holds ∧ (p.wake f).replay = p.replay := by
  and_intros <;> rfl

/-! ### Updates of the state -/

@[simp] theorem State.setParty_fields (s : State) (p : Party) :
    (s.setParty p).agenda = s.agenda ∧ (s.setParty p).tick = s.tick ∧ (s.setParty p).fresh = s.fresh ∧
    (s.setParty p).issuing = s.issuing ∧ (s.setParty p).timer = s.timer ∧ (s.setParty p).mem = s.mem ∧
    (s.setParty p).tags = s.tags ∧ (s.setParty p).tagPages = s.tagPages ∧ (s.setParty p).poison = s.poison ∧
    (s.setParty p).race = s.race ∧ (s.setParty p).sync = s.sync ∧ (s.setParty p).devRel = s.devRel ∧
    (s.setParty p).agentColour = s.agentColour ∧ (s.setParty p).fences = s.fences ∧ (s.setParty p).icache = s.icache ∧
    (s.setParty p).parties = (s.parties.map fun q => if q.uid = p.uid then p else q) ∧ (s.setParty p).cores = s.cores ∧
    (s.setParty p).dies = s.dies ∧ (s.setParty p).jobs = s.jobs ∧ (s.setParty p).endedJobs = s.endedJobs ∧
    (s.setParty p).pages = s.pages ∧ (s.setParty p).pins = s.pins ∧ (s.setParty p).asks = s.asks ∧
    (s.setParty p).quota = s.quota ∧ (s.setParty p).accesses = s.accesses ∧ (s.setParty p).invals = s.invals ∧
    (s.setParty p).snap = s.snap ∧ (s.setParty p).ports = s.ports ∧ (s.setParty p).routes = s.routes ∧
    (s.setParty p).device = s.device ∧ (s.setParty p).peerOut = s.peerOut ∧ (s.setParty p).peerSeq = s.peerSeq ∧
    (s.setParty p).peerSeen = s.peerSeen ∧ (s.setParty p).peerKnow = s.peerKnow ∧ (s.setParty p).revMap = s.revMap ∧
    (s.setParty p).passDone = s.passDone ∧ (s.setParty p).passRunning = s.passRunning ∧
    (s.setParty p).passKnow = s.passKnow ∧ (s.setParty p).colours = s.colours ∧ (s.setParty p).posts = s.posts ∧
    (s.setParty p).ringDone = s.ringDone ∧ (s.setParty p).ringInt = s.ringInt ∧ (s.setParty p).hostKnow = s.hostKnow ∧
    (s.setParty p).msix = s.msix ∧ (s.setParty p).poolBytes = s.poolBytes ∧ (s.setParty p).resFrames = s.resFrames ∧
    (s.setParty p).cowFrames = s.cowFrames ∧ (s.setParty p).windows = s.windows ∧ (s.setParty p).cards = s.cards ∧
    (s.setParty p).gangs = s.gangs ∧ (s.setParty p).gangCtr = s.gangCtr ∧ (s.setParty p).parts = s.parts ∧
    (s.setParty p).queues = s.queues ∧ (s.setParty p).cmds = s.cmds ∧ (s.setParty p).buckets = s.buckets ∧
    (s.setParty p).moments = s.moments ∧ (s.setParty p).objects = s.objects ∧ (s.setParty p).graphs = s.graphs ∧
    (s.setParty p).launches = s.launches ∧ (s.setParty p).launchCtr = s.launchCtr ∧ (s.setParty p).partyCtr = s.partyCtr ∧
    (s.setParty p).offers = s.offers ∧ (s.setParty p).heldAt = s.heldAt ∧ (s.setParty p).handleAt = s.handleAt ∧
    (s.setParty p).mailbox = s.mailbox ∧ (s.setParty p).vecwin = s.vecwin ∧ (s.setParty p).grants = s.grants ∧
    (s.setParty p).keys = s.keys ∧ (s.setParty p).admits = s.admits ∧ (s.setParty p).delgs = s.delgs ∧
    (s.setParty p).delgWaits = s.delgWaits ∧ (s.setParty p).portKeys = s.portKeys ∧ (s.setParty p).handles = s.handles ∧
    (s.setParty p).plans = s.plans ∧ (s.setParty p).replays = s.replays ∧ (s.setParty p).replayCtr = s.replayCtr ∧
    (s.setParty p).bufUsed = s.bufUsed ∧ (s.setParty p).inbound = s.inbound ∧ (s.setParty p).switches = s.switches ∧
    (s.setParty p).wire = s.wire ∧ (s.setParty p).regions = s.regions ∧ (s.setParty p).poolPorts = s.poolPorts ∧
    (s.setParty p).enmap = s.enmap ∧ (s.setParty p).fw = s.fw ∧ (s.setParty p).master = s.master := by
  and_intros <;> rfl

@[simp] theorem State.withParty_fields (s : State) (uid : Nat) (f : Party → Party) :
    (s.withParty uid f).agenda = s.agenda ∧ (s.withParty uid f).tick = s.tick ∧ (s.withParty uid f).fresh = s.fresh ∧
    (s.withParty uid f).issuing = s.issuing ∧ (s.withParty uid f).timer = s.timer ∧ (s.withParty uid f).mem = s.mem ∧
    (s.withParty uid f).tags = s.tags ∧ (s.withParty uid f).tagPages = s.tagPages ∧ (s.withParty uid f).poison = s.poison ∧
    (s.withParty uid f).race = s.race ∧ (s.withParty uid f).sync = s.sync ∧ (s.withParty uid f).devRel = s.devRel ∧
    (s.withParty uid f).agentColour = s.agentColour ∧ (s.withParty uid f).fences = s.fences ∧
    (s.withParty uid f).icache = s.icache ∧
    (s.withParty uid f).parties = (s.parties.map fun q => if q.uid = uid then f q else q) ∧
    (s.withParty uid f).cores = s.cores ∧ (s.withParty uid f).dies = s.dies ∧ (s.withParty uid f).jobs = s.jobs ∧
    (s.withParty uid f).endedJobs = s.endedJobs ∧ (s.withParty uid f).pages = s.pages ∧ (s.withParty uid f).pins = s.pins ∧
    (s.withParty uid f).asks = s.asks ∧ (s.withParty uid f).quota = s.quota ∧ (s.withParty uid f).accesses = s.accesses ∧
    (s.withParty uid f).invals = s.invals ∧ (s.withParty uid f).snap = s.snap ∧ (s.withParty uid f).ports = s.ports ∧
    (s.withParty uid f).routes = s.routes ∧ (s.withParty uid f).device = s.device ∧ (s.withParty uid f).peerOut = s.peerOut ∧
    (s.withParty uid f).peerSeq = s.peerSeq ∧ (s.withParty uid f).peerSeen = s.peerSeen ∧
    (s.withParty uid f).peerKnow = s.peerKnow ∧ (s.withParty uid f).revMap = s.revMap ∧
    (s.withParty uid f).passDone = s.passDone ∧ (s.withParty uid f).passRunning = s.passRunning ∧
    (s.withParty uid f).passKnow = s.passKnow ∧ (s.withParty uid f).colours = s.colours ∧
    (s.withParty uid f).posts = s.posts ∧ (s.withParty uid f).ringDone = s.ringDone ∧
    (s.withParty uid f).ringInt = s.ringInt ∧ (s.withParty uid f).hostKnow = s.hostKnow ∧ (s.withParty uid f).msix = s.msix ∧
    (s.withParty uid f).poolBytes = s.poolBytes ∧ (s.withParty uid f).resFrames = s.resFrames ∧
    (s.withParty uid f).cowFrames = s.cowFrames ∧ (s.withParty uid f).windows = s.windows ∧
    (s.withParty uid f).cards = s.cards ∧ (s.withParty uid f).gangs = s.gangs ∧ (s.withParty uid f).gangCtr = s.gangCtr ∧
    (s.withParty uid f).parts = s.parts ∧ (s.withParty uid f).queues = s.queues ∧ (s.withParty uid f).cmds = s.cmds ∧
    (s.withParty uid f).buckets = s.buckets ∧ (s.withParty uid f).moments = s.moments ∧
    (s.withParty uid f).objects = s.objects ∧ (s.withParty uid f).graphs = s.graphs ∧
    (s.withParty uid f).launches = s.launches ∧ (s.withParty uid f).launchCtr = s.launchCtr ∧
    (s.withParty uid f).partyCtr = s.partyCtr ∧ (s.withParty uid f).offers = s.offers ∧
    (s.withParty uid f).heldAt = s.heldAt ∧ (s.withParty uid f).handleAt = s.handleAt ∧
    (s.withParty uid f).mailbox = s.mailbox ∧ (s.withParty uid f).vecwin = s.vecwin ∧ (s.withParty uid f).grants = s.grants ∧
    (s.withParty uid f).keys = s.keys ∧ (s.withParty uid f).admits = s.admits ∧ (s.withParty uid f).delgs = s.delgs ∧
    (s.withParty uid f).delgWaits = s.delgWaits ∧ (s.withParty uid f).portKeys = s.portKeys ∧
    (s.withParty uid f).handles = s.handles ∧ (s.withParty uid f).plans = s.plans ∧ (s.withParty uid f).replays = s.replays ∧
    (s.withParty uid f).replayCtr = s.replayCtr ∧ (s.withParty uid f).bufUsed = s.bufUsed ∧
    (s.withParty uid f).inbound = s.inbound ∧ (s.withParty uid f).switches = s.switches ∧ (s.withParty uid f).wire = s.wire ∧
    (s.withParty uid f).regions = s.regions ∧ (s.withParty uid f).poolPorts = s.poolPorts ∧
    (s.withParty uid f).enmap = s.enmap ∧ (s.withParty uid f).fw = s.fw ∧ (s.withParty uid f).master = s.master := by
  and_intros <;> rfl

@[simp] theorem State.withRope_fields (s : State) (uid k : Nat) (f : Rope → Rope) :
    (s.withRope uid k f).agenda = s.agenda ∧ (s.withRope uid k f).tick = s.tick ∧ (s.withRope uid k f).fresh = s.fresh ∧
    (s.withRope uid k f).issuing = s.issuing ∧ (s.withRope uid k f).timer = s.timer ∧ (s.withRope uid k f).mem = s.mem ∧
    (s.withRope uid k f).tags = s.tags ∧ (s.withRope uid k f).tagPages = s.tagPages ∧
    (s.withRope uid k f).poison = s.poison ∧ (s.withRope uid k f).race = s.race ∧ (s.withRope uid k f).sync = s.sync ∧
    (s.withRope uid k f).devRel = s.devRel ∧ (s.withRope uid k f).agentColour = s.agentColour ∧
    (s.withRope uid k f).fences = s.fences ∧ (s.withRope uid k f).icache = s.icache ∧
    (s.withRope uid k f).parties = (s.parties.map fun q => if q.uid = uid then { q with ropes := q.ropes.modify k f } else q) ∧
    (s.withRope uid k f).cores = s.cores ∧ (s.withRope uid k f).dies = s.dies ∧ (s.withRope uid k f).jobs = s.jobs ∧
    (s.withRope uid k f).endedJobs = s.endedJobs ∧ (s.withRope uid k f).pages = s.pages ∧
    (s.withRope uid k f).pins = s.pins ∧ (s.withRope uid k f).asks = s.asks ∧ (s.withRope uid k f).quota = s.quota ∧
    (s.withRope uid k f).accesses = s.accesses ∧ (s.withRope uid k f).invals = s.invals ∧
    (s.withRope uid k f).snap = s.snap ∧ (s.withRope uid k f).ports = s.ports ∧ (s.withRope uid k f).routes = s.routes ∧
    (s.withRope uid k f).device = s.device ∧ (s.withRope uid k f).peerOut = s.peerOut ∧
    (s.withRope uid k f).peerSeq = s.peerSeq ∧ (s.withRope uid k f).peerSeen = s.peerSeen ∧
    (s.withRope uid k f).peerKnow = s.peerKnow ∧ (s.withRope uid k f).revMap = s.revMap ∧
    (s.withRope uid k f).passDone = s.passDone ∧ (s.withRope uid k f).passRunning = s.passRunning ∧
    (s.withRope uid k f).passKnow = s.passKnow ∧ (s.withRope uid k f).colours = s.colours ∧
    (s.withRope uid k f).posts = s.posts ∧ (s.withRope uid k f).ringDone = s.ringDone ∧
    (s.withRope uid k f).ringInt = s.ringInt ∧ (s.withRope uid k f).hostKnow = s.hostKnow ∧
    (s.withRope uid k f).msix = s.msix ∧ (s.withRope uid k f).poolBytes = s.poolBytes ∧
    (s.withRope uid k f).resFrames = s.resFrames ∧ (s.withRope uid k f).cowFrames = s.cowFrames ∧
    (s.withRope uid k f).windows = s.windows ∧ (s.withRope uid k f).cards = s.cards ∧ (s.withRope uid k f).gangs = s.gangs ∧
    (s.withRope uid k f).gangCtr = s.gangCtr ∧ (s.withRope uid k f).parts = s.parts ∧
    (s.withRope uid k f).queues = s.queues ∧ (s.withRope uid k f).cmds = s.cmds ∧ (s.withRope uid k f).buckets = s.buckets ∧
    (s.withRope uid k f).moments = s.moments ∧ (s.withRope uid k f).objects = s.objects ∧
    (s.withRope uid k f).graphs = s.graphs ∧ (s.withRope uid k f).launches = s.launches ∧
    (s.withRope uid k f).launchCtr = s.launchCtr ∧ (s.withRope uid k f).partyCtr = s.partyCtr ∧
    (s.withRope uid k f).offers = s.offers ∧ (s.withRope uid k f).heldAt = s.heldAt ∧
    (s.withRope uid k f).handleAt = s.handleAt ∧ (s.withRope uid k f).mailbox = s.mailbox ∧
    (s.withRope uid k f).vecwin = s.vecwin ∧ (s.withRope uid k f).grants = s.grants ∧ (s.withRope uid k f).keys = s.keys ∧
    (s.withRope uid k f).admits = s.admits ∧ (s.withRope uid k f).delgs = s.delgs ∧
    (s.withRope uid k f).delgWaits = s.delgWaits ∧ (s.withRope uid k f).portKeys = s.portKeys ∧
    (s.withRope uid k f).handles = s.handles ∧ (s.withRope uid k f).plans = s.plans ∧
    (s.withRope uid k f).replays = s.replays ∧ (s.withRope uid k f).replayCtr = s.replayCtr ∧
    (s.withRope uid k f).bufUsed = s.bufUsed ∧ (s.withRope uid k f).inbound = s.inbound ∧
    (s.withRope uid k f).switches = s.switches ∧ (s.withRope uid k f).wire = s.wire ∧
    (s.withRope uid k f).regions = s.regions ∧ (s.withRope uid k f).poolPorts = s.poolPorts ∧
    (s.withRope uid k f).enmap = s.enmap ∧ (s.withRope uid k f).fw = s.fw ∧ (s.withRope uid k f).master = s.master := by
  and_intros <;> rfl

@[simp] theorem State.withCore_fields (s : State) (n : Nat) (f : CoreRec → CoreRec) :
    (s.withCore n f).agenda = s.agenda ∧ (s.withCore n f).tick = s.tick ∧ (s.withCore n f).fresh = s.fresh ∧
    (s.withCore n f).issuing = s.issuing ∧ (s.withCore n f).timer = s.timer ∧ (s.withCore n f).mem = s.mem ∧
    (s.withCore n f).tags = s.tags ∧ (s.withCore n f).tagPages = s.tagPages ∧ (s.withCore n f).poison = s.poison ∧
    (s.withCore n f).race = s.race ∧ (s.withCore n f).sync = s.sync ∧ (s.withCore n f).devRel = s.devRel ∧
    (s.withCore n f).agentColour = s.agentColour ∧ (s.withCore n f).fences = s.fences ∧ (s.withCore n f).icache = s.icache ∧
    (s.withCore n f).parties = s.parties ∧
    (s.withCore n f).cores = (SMap.set CoreRec.zero s.cores n (f (SMap.get CoreRec.zero s.cores n))) ∧
    (s.withCore n f).dies = s.dies ∧ (s.withCore n f).jobs = s.jobs ∧ (s.withCore n f).endedJobs = s.endedJobs ∧
    (s.withCore n f).pages = s.pages ∧ (s.withCore n f).pins = s.pins ∧ (s.withCore n f).asks = s.asks ∧
    (s.withCore n f).quota = s.quota ∧ (s.withCore n f).accesses = s.accesses ∧ (s.withCore n f).invals = s.invals ∧
    (s.withCore n f).snap = s.snap ∧ (s.withCore n f).ports = s.ports ∧ (s.withCore n f).routes = s.routes ∧
    (s.withCore n f).device = s.device ∧ (s.withCore n f).peerOut = s.peerOut ∧ (s.withCore n f).peerSeq = s.peerSeq ∧
    (s.withCore n f).peerSeen = s.peerSeen ∧ (s.withCore n f).peerKnow = s.peerKnow ∧ (s.withCore n f).revMap = s.revMap ∧
    (s.withCore n f).passDone = s.passDone ∧ (s.withCore n f).passRunning = s.passRunning ∧
    (s.withCore n f).passKnow = s.passKnow ∧ (s.withCore n f).colours = s.colours ∧ (s.withCore n f).posts = s.posts ∧
    (s.withCore n f).ringDone = s.ringDone ∧ (s.withCore n f).ringInt = s.ringInt ∧ (s.withCore n f).hostKnow = s.hostKnow ∧
    (s.withCore n f).msix = s.msix ∧ (s.withCore n f).poolBytes = s.poolBytes ∧ (s.withCore n f).resFrames = s.resFrames ∧
    (s.withCore n f).cowFrames = s.cowFrames ∧ (s.withCore n f).windows = s.windows ∧ (s.withCore n f).cards = s.cards ∧
    (s.withCore n f).gangs = s.gangs ∧ (s.withCore n f).gangCtr = s.gangCtr ∧ (s.withCore n f).parts = s.parts ∧
    (s.withCore n f).queues = s.queues ∧ (s.withCore n f).cmds = s.cmds ∧ (s.withCore n f).buckets = s.buckets ∧
    (s.withCore n f).moments = s.moments ∧ (s.withCore n f).objects = s.objects ∧ (s.withCore n f).graphs = s.graphs ∧
    (s.withCore n f).launches = s.launches ∧ (s.withCore n f).launchCtr = s.launchCtr ∧
    (s.withCore n f).partyCtr = s.partyCtr ∧ (s.withCore n f).offers = s.offers ∧ (s.withCore n f).heldAt = s.heldAt ∧
    (s.withCore n f).handleAt = s.handleAt ∧ (s.withCore n f).mailbox = s.mailbox ∧ (s.withCore n f).vecwin = s.vecwin ∧
    (s.withCore n f).grants = s.grants ∧ (s.withCore n f).keys = s.keys ∧ (s.withCore n f).admits = s.admits ∧
    (s.withCore n f).delgs = s.delgs ∧ (s.withCore n f).delgWaits = s.delgWaits ∧ (s.withCore n f).portKeys = s.portKeys ∧
    (s.withCore n f).handles = s.handles ∧ (s.withCore n f).plans = s.plans ∧ (s.withCore n f).replays = s.replays ∧
    (s.withCore n f).replayCtr = s.replayCtr ∧ (s.withCore n f).bufUsed = s.bufUsed ∧ (s.withCore n f).inbound = s.inbound ∧
    (s.withCore n f).switches = s.switches ∧ (s.withCore n f).wire = s.wire ∧ (s.withCore n f).regions = s.regions ∧
    (s.withCore n f).poolPorts = s.poolPorts ∧ (s.withCore n f).enmap = s.enmap ∧ (s.withCore n f).fw = s.fw ∧
    (s.withCore n f).master = s.master := by
  and_intros <;> rfl

@[simp] theorem State.withDie_fields (s : State) (n : Nat) (f : DieRec → DieRec) :
    (s.withDie n f).agenda = s.agenda ∧ (s.withDie n f).tick = s.tick ∧ (s.withDie n f).fresh = s.fresh ∧
    (s.withDie n f).issuing = s.issuing ∧ (s.withDie n f).timer = s.timer ∧ (s.withDie n f).mem = s.mem ∧
    (s.withDie n f).tags = s.tags ∧ (s.withDie n f).tagPages = s.tagPages ∧ (s.withDie n f).poison = s.poison ∧
    (s.withDie n f).race = s.race ∧ (s.withDie n f).sync = s.sync ∧ (s.withDie n f).devRel = s.devRel ∧
    (s.withDie n f).agentColour = s.agentColour ∧ (s.withDie n f).fences = s.fences ∧ (s.withDie n f).icache = s.icache ∧
    (s.withDie n f).parties = s.parties ∧ (s.withDie n f).cores = s.cores ∧
    (s.withDie n f).dies = (SMap.set DieRec.zero s.dies n (f (SMap.get DieRec.zero s.dies n))) ∧
    (s.withDie n f).jobs = s.jobs ∧ (s.withDie n f).endedJobs = s.endedJobs ∧ (s.withDie n f).pages = s.pages ∧
    (s.withDie n f).pins = s.pins ∧ (s.withDie n f).asks = s.asks ∧ (s.withDie n f).quota = s.quota ∧
    (s.withDie n f).accesses = s.accesses ∧ (s.withDie n f).invals = s.invals ∧ (s.withDie n f).snap = s.snap ∧
    (s.withDie n f).ports = s.ports ∧ (s.withDie n f).routes = s.routes ∧ (s.withDie n f).device = s.device ∧
    (s.withDie n f).peerOut = s.peerOut ∧ (s.withDie n f).peerSeq = s.peerSeq ∧ (s.withDie n f).peerSeen = s.peerSeen ∧
    (s.withDie n f).peerKnow = s.peerKnow ∧ (s.withDie n f).revMap = s.revMap ∧ (s.withDie n f).passDone = s.passDone ∧
    (s.withDie n f).passRunning = s.passRunning ∧ (s.withDie n f).passKnow = s.passKnow ∧
    (s.withDie n f).colours = s.colours ∧ (s.withDie n f).posts = s.posts ∧ (s.withDie n f).ringDone = s.ringDone ∧
    (s.withDie n f).ringInt = s.ringInt ∧ (s.withDie n f).hostKnow = s.hostKnow ∧ (s.withDie n f).msix = s.msix ∧
    (s.withDie n f).poolBytes = s.poolBytes ∧ (s.withDie n f).resFrames = s.resFrames ∧
    (s.withDie n f).cowFrames = s.cowFrames ∧ (s.withDie n f).windows = s.windows ∧ (s.withDie n f).cards = s.cards ∧
    (s.withDie n f).gangs = s.gangs ∧ (s.withDie n f).gangCtr = s.gangCtr ∧ (s.withDie n f).parts = s.parts ∧
    (s.withDie n f).queues = s.queues ∧ (s.withDie n f).cmds = s.cmds ∧ (s.withDie n f).buckets = s.buckets ∧
    (s.withDie n f).moments = s.moments ∧ (s.withDie n f).objects = s.objects ∧ (s.withDie n f).graphs = s.graphs ∧
    (s.withDie n f).launches = s.launches ∧ (s.withDie n f).launchCtr = s.launchCtr ∧ (s.withDie n f).partyCtr = s.partyCtr ∧
    (s.withDie n f).offers = s.offers ∧ (s.withDie n f).heldAt = s.heldAt ∧ (s.withDie n f).handleAt = s.handleAt ∧
    (s.withDie n f).mailbox = s.mailbox ∧ (s.withDie n f).vecwin = s.vecwin ∧ (s.withDie n f).grants = s.grants ∧
    (s.withDie n f).keys = s.keys ∧ (s.withDie n f).admits = s.admits ∧ (s.withDie n f).delgs = s.delgs ∧
    (s.withDie n f).delgWaits = s.delgWaits ∧ (s.withDie n f).portKeys = s.portKeys ∧ (s.withDie n f).handles = s.handles ∧
    (s.withDie n f).plans = s.plans ∧ (s.withDie n f).replays = s.replays ∧ (s.withDie n f).replayCtr = s.replayCtr ∧
    (s.withDie n f).bufUsed = s.bufUsed ∧ (s.withDie n f).inbound = s.inbound ∧ (s.withDie n f).switches = s.switches ∧
    (s.withDie n f).wire = s.wire ∧ (s.withDie n f).regions = s.regions ∧ (s.withDie n f).poolPorts = s.poolPorts ∧
    (s.withDie n f).enmap = s.enmap ∧ (s.withDie n f).fw = s.fw ∧ (s.withDie n f).master = s.master := by
  and_intros <;> rfl

@[simp] theorem State.countError_fields (s : State) (die c n : Nat) :
    (s.countError die c n).agenda = s.agenda ∧ (s.countError die c n).tick = s.tick ∧
    (s.countError die c n).fresh = s.fresh ∧ (s.countError die c n).issuing = s.issuing ∧
    (s.countError die c n).timer = s.timer ∧ (s.countError die c n).mem = s.mem ∧ (s.countError die c n).tags = s.tags ∧
    (s.countError die c n).tagPages = s.tagPages ∧ (s.countError die c n).poison = s.poison ∧
    (s.countError die c n).race = s.race ∧ (s.countError die c n).sync = s.sync ∧ (s.countError die c n).devRel = s.devRel ∧
    (s.countError die c n).agentColour = s.agentColour ∧ (s.countError die c n).fences = s.fences ∧
    (s.countError die c n).icache = s.icache ∧ (s.countError die c n).parties = s.parties ∧
    (s.countError die c n).cores = s.cores ∧ (s.countError die c n).jobs = s.jobs ∧
    (s.countError die c n).endedJobs = s.endedJobs ∧ (s.countError die c n).pages = s.pages ∧
    (s.countError die c n).pins = s.pins ∧ (s.countError die c n).asks = s.asks ∧ (s.countError die c n).quota = s.quota ∧
    (s.countError die c n).accesses = s.accesses ∧ (s.countError die c n).invals = s.invals ∧
    (s.countError die c n).snap = s.snap ∧ (s.countError die c n).ports = s.ports ∧
    (s.countError die c n).routes = s.routes ∧ (s.countError die c n).device = s.device ∧
    (s.countError die c n).peerOut = s.peerOut ∧ (s.countError die c n).peerSeq = s.peerSeq ∧
    (s.countError die c n).peerSeen = s.peerSeen ∧ (s.countError die c n).peerKnow = s.peerKnow ∧
    (s.countError die c n).revMap = s.revMap ∧ (s.countError die c n).passDone = s.passDone ∧
    (s.countError die c n).passRunning = s.passRunning ∧ (s.countError die c n).passKnow = s.passKnow ∧
    (s.countError die c n).colours = s.colours ∧ (s.countError die c n).posts = s.posts ∧
    (s.countError die c n).ringDone = s.ringDone ∧ (s.countError die c n).ringInt = s.ringInt ∧
    (s.countError die c n).hostKnow = s.hostKnow ∧ (s.countError die c n).msix = s.msix ∧
    (s.countError die c n).poolBytes = s.poolBytes ∧ (s.countError die c n).resFrames = s.resFrames ∧
    (s.countError die c n).cowFrames = s.cowFrames ∧ (s.countError die c n).windows = s.windows ∧
    (s.countError die c n).cards = s.cards ∧ (s.countError die c n).gangs = s.gangs ∧
    (s.countError die c n).gangCtr = s.gangCtr ∧ (s.countError die c n).parts = s.parts ∧
    (s.countError die c n).queues = s.queues ∧ (s.countError die c n).cmds = s.cmds ∧
    (s.countError die c n).buckets = s.buckets ∧ (s.countError die c n).moments = s.moments ∧
    (s.countError die c n).objects = s.objects ∧ (s.countError die c n).graphs = s.graphs ∧
    (s.countError die c n).launches = s.launches ∧ (s.countError die c n).launchCtr = s.launchCtr ∧
    (s.countError die c n).partyCtr = s.partyCtr ∧ (s.countError die c n).offers = s.offers ∧
    (s.countError die c n).heldAt = s.heldAt ∧ (s.countError die c n).handleAt = s.handleAt ∧
    (s.countError die c n).mailbox = s.mailbox ∧ (s.countError die c n).vecwin = s.vecwin ∧
    (s.countError die c n).grants = s.grants ∧ (s.countError die c n).keys = s.keys ∧
    (s.countError die c n).admits = s.admits ∧ (s.countError die c n).delgs = s.delgs ∧
    (s.countError die c n).delgWaits = s.delgWaits ∧ (s.countError die c n).portKeys = s.portKeys ∧
    (s.countError die c n).handles = s.handles ∧ (s.countError die c n).plans = s.plans ∧
    (s.countError die c n).replays = s.replays ∧ (s.countError die c n).replayCtr = s.replayCtr ∧
    (s.countError die c n).bufUsed = s.bufUsed ∧ (s.countError die c n).inbound = s.inbound ∧
    (s.countError die c n).switches = s.switches ∧ (s.countError die c n).wire = s.wire ∧
    (s.countError die c n).regions = s.regions ∧ (s.countError die c n).poolPorts = s.poolPorts ∧
    (s.countError die c n).enmap = s.enmap ∧ (s.countError die c n).fw = s.fw ∧ (s.countError die c n).master = s.master := by
  and_intros <;> rfl

@[simp] theorem State.setByte_fields (s : State) (a : Nat) (b : Byte) :
    (s.setByte a b).agenda = s.agenda ∧ (s.setByte a b).tick = s.tick ∧ (s.setByte a b).fresh = s.fresh ∧
    (s.setByte a b).issuing = s.issuing ∧ (s.setByte a b).timer = s.timer ∧
    (s.setByte a b).mem = (SMap.set memInit s.mem a b) ∧ (s.setByte a b).tags = s.tags ∧
    (s.setByte a b).tagPages = s.tagPages ∧ (s.setByte a b).poison = s.poison ∧ (s.setByte a b).race = s.race ∧
    (s.setByte a b).sync = s.sync ∧ (s.setByte a b).devRel = s.devRel ∧ (s.setByte a b).agentColour = s.agentColour ∧
    (s.setByte a b).fences = s.fences ∧ (s.setByte a b).icache = s.icache ∧ (s.setByte a b).parties = s.parties ∧
    (s.setByte a b).cores = s.cores ∧ (s.setByte a b).dies = s.dies ∧ (s.setByte a b).jobs = s.jobs ∧
    (s.setByte a b).endedJobs = s.endedJobs ∧ (s.setByte a b).pages = s.pages ∧ (s.setByte a b).pins = s.pins ∧
    (s.setByte a b).asks = s.asks ∧ (s.setByte a b).quota = s.quota ∧ (s.setByte a b).accesses = s.accesses ∧
    (s.setByte a b).invals = s.invals ∧ (s.setByte a b).snap = s.snap ∧ (s.setByte a b).ports = s.ports ∧
    (s.setByte a b).routes = s.routes ∧ (s.setByte a b).device = s.device ∧ (s.setByte a b).peerOut = s.peerOut ∧
    (s.setByte a b).peerSeq = s.peerSeq ∧ (s.setByte a b).peerSeen = s.peerSeen ∧ (s.setByte a b).peerKnow = s.peerKnow ∧
    (s.setByte a b).revMap = s.revMap ∧ (s.setByte a b).passDone = s.passDone ∧ (s.setByte a b).passRunning = s.passRunning ∧
    (s.setByte a b).passKnow = s.passKnow ∧ (s.setByte a b).colours = s.colours ∧ (s.setByte a b).posts = s.posts ∧
    (s.setByte a b).ringDone = s.ringDone ∧ (s.setByte a b).ringInt = s.ringInt ∧ (s.setByte a b).hostKnow = s.hostKnow ∧
    (s.setByte a b).msix = s.msix ∧ (s.setByte a b).poolBytes = s.poolBytes ∧ (s.setByte a b).resFrames = s.resFrames ∧
    (s.setByte a b).cowFrames = s.cowFrames ∧ (s.setByte a b).windows = s.windows ∧ (s.setByte a b).cards = s.cards ∧
    (s.setByte a b).gangs = s.gangs ∧ (s.setByte a b).gangCtr = s.gangCtr ∧ (s.setByte a b).parts = s.parts ∧
    (s.setByte a b).queues = s.queues ∧ (s.setByte a b).cmds = s.cmds ∧ (s.setByte a b).buckets = s.buckets ∧
    (s.setByte a b).moments = s.moments ∧ (s.setByte a b).objects = s.objects ∧ (s.setByte a b).graphs = s.graphs ∧
    (s.setByte a b).launches = s.launches ∧ (s.setByte a b).launchCtr = s.launchCtr ∧ (s.setByte a b).partyCtr = s.partyCtr ∧
    (s.setByte a b).offers = s.offers ∧ (s.setByte a b).heldAt = s.heldAt ∧ (s.setByte a b).handleAt = s.handleAt ∧
    (s.setByte a b).mailbox = s.mailbox ∧ (s.setByte a b).vecwin = s.vecwin ∧ (s.setByte a b).grants = s.grants ∧
    (s.setByte a b).keys = s.keys ∧ (s.setByte a b).admits = s.admits ∧ (s.setByte a b).delgs = s.delgs ∧
    (s.setByte a b).delgWaits = s.delgWaits ∧ (s.setByte a b).portKeys = s.portKeys ∧ (s.setByte a b).handles = s.handles ∧
    (s.setByte a b).plans = s.plans ∧ (s.setByte a b).replays = s.replays ∧ (s.setByte a b).replayCtr = s.replayCtr ∧
    (s.setByte a b).bufUsed = s.bufUsed ∧ (s.setByte a b).inbound = s.inbound ∧ (s.setByte a b).switches = s.switches ∧
    (s.setByte a b).wire = s.wire ∧ (s.setByte a b).regions = s.regions ∧ (s.setByte a b).poolPorts = s.poolPorts ∧
    (s.setByte a b).enmap = s.enmap ∧ (s.setByte a b).fw = s.fw ∧ (s.setByte a b).master = s.master := by
  and_intros <;> rfl

@[simp] theorem State.setBytes_fields (s : State) (a : Nat) (bs : List Byte) :
    (s.setBytes a bs).agenda = s.agenda ∧ (s.setBytes a bs).tick = s.tick ∧ (s.setBytes a bs).fresh = s.fresh ∧
    (s.setBytes a bs).issuing = s.issuing ∧ (s.setBytes a bs).timer = s.timer ∧ (s.setBytes a bs).tags = s.tags ∧
    (s.setBytes a bs).tagPages = s.tagPages ∧ (s.setBytes a bs).poison = s.poison ∧ (s.setBytes a bs).race = s.race ∧
    (s.setBytes a bs).sync = s.sync ∧ (s.setBytes a bs).devRel = s.devRel ∧ (s.setBytes a bs).agentColour = s.agentColour ∧
    (s.setBytes a bs).fences = s.fences ∧ (s.setBytes a bs).icache = s.icache ∧ (s.setBytes a bs).parties = s.parties ∧
    (s.setBytes a bs).cores = s.cores ∧ (s.setBytes a bs).dies = s.dies ∧ (s.setBytes a bs).jobs = s.jobs ∧
    (s.setBytes a bs).endedJobs = s.endedJobs ∧ (s.setBytes a bs).pages = s.pages ∧ (s.setBytes a bs).pins = s.pins ∧
    (s.setBytes a bs).asks = s.asks ∧ (s.setBytes a bs).quota = s.quota ∧ (s.setBytes a bs).accesses = s.accesses ∧
    (s.setBytes a bs).invals = s.invals ∧ (s.setBytes a bs).snap = s.snap ∧ (s.setBytes a bs).ports = s.ports ∧
    (s.setBytes a bs).routes = s.routes ∧ (s.setBytes a bs).device = s.device ∧ (s.setBytes a bs).peerOut = s.peerOut ∧
    (s.setBytes a bs).peerSeq = s.peerSeq ∧ (s.setBytes a bs).peerSeen = s.peerSeen ∧
    (s.setBytes a bs).peerKnow = s.peerKnow ∧ (s.setBytes a bs).revMap = s.revMap ∧ (s.setBytes a bs).passDone = s.passDone ∧
    (s.setBytes a bs).passRunning = s.passRunning ∧ (s.setBytes a bs).passKnow = s.passKnow ∧
    (s.setBytes a bs).colours = s.colours ∧ (s.setBytes a bs).posts = s.posts ∧ (s.setBytes a bs).ringDone = s.ringDone ∧
    (s.setBytes a bs).ringInt = s.ringInt ∧ (s.setBytes a bs).hostKnow = s.hostKnow ∧ (s.setBytes a bs).msix = s.msix ∧
    (s.setBytes a bs).poolBytes = s.poolBytes ∧ (s.setBytes a bs).resFrames = s.resFrames ∧
    (s.setBytes a bs).cowFrames = s.cowFrames ∧ (s.setBytes a bs).windows = s.windows ∧ (s.setBytes a bs).cards = s.cards ∧
    (s.setBytes a bs).gangs = s.gangs ∧ (s.setBytes a bs).gangCtr = s.gangCtr ∧ (s.setBytes a bs).parts = s.parts ∧
    (s.setBytes a bs).queues = s.queues ∧ (s.setBytes a bs).cmds = s.cmds ∧ (s.setBytes a bs).buckets = s.buckets ∧
    (s.setBytes a bs).moments = s.moments ∧ (s.setBytes a bs).objects = s.objects ∧ (s.setBytes a bs).graphs = s.graphs ∧
    (s.setBytes a bs).launches = s.launches ∧ (s.setBytes a bs).launchCtr = s.launchCtr ∧
    (s.setBytes a bs).partyCtr = s.partyCtr ∧ (s.setBytes a bs).offers = s.offers ∧ (s.setBytes a bs).heldAt = s.heldAt ∧
    (s.setBytes a bs).handleAt = s.handleAt ∧ (s.setBytes a bs).mailbox = s.mailbox ∧ (s.setBytes a bs).vecwin = s.vecwin ∧
    (s.setBytes a bs).grants = s.grants ∧ (s.setBytes a bs).keys = s.keys ∧ (s.setBytes a bs).admits = s.admits ∧
    (s.setBytes a bs).delgs = s.delgs ∧ (s.setBytes a bs).delgWaits = s.delgWaits ∧ (s.setBytes a bs).portKeys = s.portKeys ∧
    (s.setBytes a bs).handles = s.handles ∧ (s.setBytes a bs).plans = s.plans ∧ (s.setBytes a bs).replays = s.replays ∧
    (s.setBytes a bs).replayCtr = s.replayCtr ∧ (s.setBytes a bs).bufUsed = s.bufUsed ∧
    (s.setBytes a bs).inbound = s.inbound ∧ (s.setBytes a bs).switches = s.switches ∧ (s.setBytes a bs).wire = s.wire ∧
    (s.setBytes a bs).regions = s.regions ∧ (s.setBytes a bs).poolPorts = s.poolPorts ∧ (s.setBytes a bs).enmap = s.enmap ∧
    (s.setBytes a bs).fw = s.fw ∧ (s.setBytes a bs).master = s.master := by
  induction bs generalizing s a with
  | nil => and_intros <;> rfl
  | cons b t ih => exact ih (s.setByte a b) (a + 1)

@[simp] theorem State.clearTags_fields (s : State) (a n : Nat) :
    (s.clearTags a n).agenda = s.agenda ∧ (s.clearTags a n).tick = s.tick ∧ (s.clearTags a n).fresh = s.fresh ∧
    (s.clearTags a n).issuing = s.issuing ∧ (s.clearTags a n).timer = s.timer ∧ (s.clearTags a n).mem = s.mem ∧
    (s.clearTags a n).tags = ((granules a n).foldl (fun t g => NSet.set t g false) s.tags) ∧
    (s.clearTags a n).tagPages = s.tagPages ∧ (s.clearTags a n).poison = s.poison ∧ (s.clearTags a n).race = s.race ∧
    (s.clearTags a n).sync = s.sync ∧ (s.clearTags a n).devRel = s.devRel ∧ (s.clearTags a n).agentColour = s.agentColour ∧
    (s.clearTags a n).fences = s.fences ∧ (s.clearTags a n).icache = s.icache ∧ (s.clearTags a n).parties = s.parties ∧
    (s.clearTags a n).cores = s.cores ∧ (s.clearTags a n).dies = s.dies ∧ (s.clearTags a n).jobs = s.jobs ∧
    (s.clearTags a n).endedJobs = s.endedJobs ∧ (s.clearTags a n).pages = s.pages ∧ (s.clearTags a n).pins = s.pins ∧
    (s.clearTags a n).asks = s.asks ∧ (s.clearTags a n).quota = s.quota ∧ (s.clearTags a n).accesses = s.accesses ∧
    (s.clearTags a n).invals = s.invals ∧ (s.clearTags a n).snap = s.snap ∧ (s.clearTags a n).ports = s.ports ∧
    (s.clearTags a n).routes = s.routes ∧ (s.clearTags a n).device = s.device ∧ (s.clearTags a n).peerOut = s.peerOut ∧
    (s.clearTags a n).peerSeq = s.peerSeq ∧ (s.clearTags a n).peerSeen = s.peerSeen ∧
    (s.clearTags a n).peerKnow = s.peerKnow ∧ (s.clearTags a n).revMap = s.revMap ∧ (s.clearTags a n).passDone = s.passDone ∧
    (s.clearTags a n).passRunning = s.passRunning ∧ (s.clearTags a n).passKnow = s.passKnow ∧
    (s.clearTags a n).colours = s.colours ∧ (s.clearTags a n).posts = s.posts ∧ (s.clearTags a n).ringDone = s.ringDone ∧
    (s.clearTags a n).ringInt = s.ringInt ∧ (s.clearTags a n).hostKnow = s.hostKnow ∧ (s.clearTags a n).msix = s.msix ∧
    (s.clearTags a n).poolBytes = s.poolBytes ∧ (s.clearTags a n).resFrames = s.resFrames ∧
    (s.clearTags a n).cowFrames = s.cowFrames ∧ (s.clearTags a n).windows = s.windows ∧ (s.clearTags a n).cards = s.cards ∧
    (s.clearTags a n).gangs = s.gangs ∧ (s.clearTags a n).gangCtr = s.gangCtr ∧ (s.clearTags a n).parts = s.parts ∧
    (s.clearTags a n).queues = s.queues ∧ (s.clearTags a n).cmds = s.cmds ∧ (s.clearTags a n).buckets = s.buckets ∧
    (s.clearTags a n).moments = s.moments ∧ (s.clearTags a n).objects = s.objects ∧ (s.clearTags a n).graphs = s.graphs ∧
    (s.clearTags a n).launches = s.launches ∧ (s.clearTags a n).launchCtr = s.launchCtr ∧
    (s.clearTags a n).partyCtr = s.partyCtr ∧ (s.clearTags a n).offers = s.offers ∧ (s.clearTags a n).heldAt = s.heldAt ∧
    (s.clearTags a n).handleAt = s.handleAt ∧ (s.clearTags a n).mailbox = s.mailbox ∧ (s.clearTags a n).vecwin = s.vecwin ∧
    (s.clearTags a n).grants = s.grants ∧ (s.clearTags a n).keys = s.keys ∧ (s.clearTags a n).admits = s.admits ∧
    (s.clearTags a n).delgs = s.delgs ∧ (s.clearTags a n).delgWaits = s.delgWaits ∧ (s.clearTags a n).portKeys = s.portKeys ∧
    (s.clearTags a n).handles = s.handles ∧ (s.clearTags a n).plans = s.plans ∧ (s.clearTags a n).replays = s.replays ∧
    (s.clearTags a n).replayCtr = s.replayCtr ∧ (s.clearTags a n).bufUsed = s.bufUsed ∧
    (s.clearTags a n).inbound = s.inbound ∧ (s.clearTags a n).switches = s.switches ∧ (s.clearTags a n).wire = s.wire ∧
    (s.clearTags a n).regions = s.regions ∧ (s.clearTags a n).poolPorts = s.poolPorts ∧ (s.clearTags a n).enmap = s.enmap ∧
    (s.clearTags a n).fw = s.fw ∧ (s.clearTags a n).master = s.master := by
  and_intros <;> rfl

@[simp] theorem State.setTagAt_fields (s : State) (a : Nat) (t : Bool) :
    (s.setTagAt a t).agenda = s.agenda ∧ (s.setTagAt a t).tick = s.tick ∧ (s.setTagAt a t).fresh = s.fresh ∧
    (s.setTagAt a t).issuing = s.issuing ∧ (s.setTagAt a t).timer = s.timer ∧ (s.setTagAt a t).mem = s.mem ∧
    (s.setTagAt a t).tags = (NSet.set s.tags (a / 16) t) ∧
    (s.setTagAt a t).tagPages = (if t then NSet.set s.tagPages (a / 4096) true else s.tagPages) ∧
    (s.setTagAt a t).poison = s.poison ∧ (s.setTagAt a t).race = s.race ∧ (s.setTagAt a t).sync = s.sync ∧
    (s.setTagAt a t).devRel = s.devRel ∧ (s.setTagAt a t).agentColour = s.agentColour ∧ (s.setTagAt a t).fences = s.fences ∧
    (s.setTagAt a t).icache = s.icache ∧ (s.setTagAt a t).parties = s.parties ∧ (s.setTagAt a t).cores = s.cores ∧
    (s.setTagAt a t).dies = s.dies ∧ (s.setTagAt a t).jobs = s.jobs ∧ (s.setTagAt a t).endedJobs = s.endedJobs ∧
    (s.setTagAt a t).pages = s.pages ∧ (s.setTagAt a t).pins = s.pins ∧ (s.setTagAt a t).asks = s.asks ∧
    (s.setTagAt a t).quota = s.quota ∧ (s.setTagAt a t).accesses = s.accesses ∧ (s.setTagAt a t).invals = s.invals ∧
    (s.setTagAt a t).snap = s.snap ∧ (s.setTagAt a t).ports = s.ports ∧ (s.setTagAt a t).routes = s.routes ∧
    (s.setTagAt a t).device = s.device ∧ (s.setTagAt a t).peerOut = s.peerOut ∧ (s.setTagAt a t).peerSeq = s.peerSeq ∧
    (s.setTagAt a t).peerSeen = s.peerSeen ∧ (s.setTagAt a t).peerKnow = s.peerKnow ∧ (s.setTagAt a t).revMap = s.revMap ∧
    (s.setTagAt a t).passDone = s.passDone ∧ (s.setTagAt a t).passRunning = s.passRunning ∧
    (s.setTagAt a t).passKnow = s.passKnow ∧ (s.setTagAt a t).colours = s.colours ∧ (s.setTagAt a t).posts = s.posts ∧
    (s.setTagAt a t).ringDone = s.ringDone ∧ (s.setTagAt a t).ringInt = s.ringInt ∧ (s.setTagAt a t).hostKnow = s.hostKnow ∧
    (s.setTagAt a t).msix = s.msix ∧ (s.setTagAt a t).poolBytes = s.poolBytes ∧ (s.setTagAt a t).resFrames = s.resFrames ∧
    (s.setTagAt a t).cowFrames = s.cowFrames ∧ (s.setTagAt a t).windows = s.windows ∧ (s.setTagAt a t).cards = s.cards ∧
    (s.setTagAt a t).gangs = s.gangs ∧ (s.setTagAt a t).gangCtr = s.gangCtr ∧ (s.setTagAt a t).parts = s.parts ∧
    (s.setTagAt a t).queues = s.queues ∧ (s.setTagAt a t).cmds = s.cmds ∧ (s.setTagAt a t).buckets = s.buckets ∧
    (s.setTagAt a t).moments = s.moments ∧ (s.setTagAt a t).objects = s.objects ∧ (s.setTagAt a t).graphs = s.graphs ∧
    (s.setTagAt a t).launches = s.launches ∧ (s.setTagAt a t).launchCtr = s.launchCtr ∧
    (s.setTagAt a t).partyCtr = s.partyCtr ∧ (s.setTagAt a t).offers = s.offers ∧ (s.setTagAt a t).heldAt = s.heldAt ∧
    (s.setTagAt a t).handleAt = s.handleAt ∧ (s.setTagAt a t).mailbox = s.mailbox ∧ (s.setTagAt a t).vecwin = s.vecwin ∧
    (s.setTagAt a t).grants = s.grants ∧ (s.setTagAt a t).keys = s.keys ∧ (s.setTagAt a t).admits = s.admits ∧
    (s.setTagAt a t).delgs = s.delgs ∧ (s.setTagAt a t).delgWaits = s.delgWaits ∧ (s.setTagAt a t).portKeys = s.portKeys ∧
    (s.setTagAt a t).handles = s.handles ∧ (s.setTagAt a t).plans = s.plans ∧ (s.setTagAt a t).replays = s.replays ∧
    (s.setTagAt a t).replayCtr = s.replayCtr ∧ (s.setTagAt a t).bufUsed = s.bufUsed ∧ (s.setTagAt a t).inbound = s.inbound ∧
    (s.setTagAt a t).switches = s.switches ∧ (s.setTagAt a t).wire = s.wire ∧ (s.setTagAt a t).regions = s.regions ∧
    (s.setTagAt a t).poolPorts = s.poolPorts ∧ (s.setTagAt a t).enmap = s.enmap ∧ (s.setTagAt a t).fw = s.fw ∧
    (s.setTagAt a t).master = s.master := by
  and_intros <;> rfl

@[simp] theorem State.addPoison_fields (s : State) (a n : Nat) :
    (s.addPoison a n).agenda = s.agenda ∧ (s.addPoison a n).tick = s.tick ∧ (s.addPoison a n).fresh = s.fresh ∧
    (s.addPoison a n).issuing = s.issuing ∧ (s.addPoison a n).timer = s.timer ∧ (s.addPoison a n).mem = s.mem ∧
    (s.addPoison a n).tags = s.tags ∧ (s.addPoison a n).tagPages = s.tagPages ∧
    (s.addPoison a n).poison = ((blocksOf 64 a n).foldl (fun p h => NSet.set p h true) s.poison) ∧
    (s.addPoison a n).race = s.race ∧ (s.addPoison a n).sync = s.sync ∧ (s.addPoison a n).devRel = s.devRel ∧
    (s.addPoison a n).agentColour = s.agentColour ∧ (s.addPoison a n).fences = s.fences ∧
    (s.addPoison a n).icache = s.icache ∧ (s.addPoison a n).parties = s.parties ∧ (s.addPoison a n).cores = s.cores ∧
    (s.addPoison a n).dies = s.dies ∧ (s.addPoison a n).jobs = s.jobs ∧ (s.addPoison a n).endedJobs = s.endedJobs ∧
    (s.addPoison a n).pages = s.pages ∧ (s.addPoison a n).pins = s.pins ∧ (s.addPoison a n).asks = s.asks ∧
    (s.addPoison a n).quota = s.quota ∧ (s.addPoison a n).accesses = s.accesses ∧ (s.addPoison a n).invals = s.invals ∧
    (s.addPoison a n).snap = s.snap ∧ (s.addPoison a n).ports = s.ports ∧ (s.addPoison a n).routes = s.routes ∧
    (s.addPoison a n).device = s.device ∧ (s.addPoison a n).peerOut = s.peerOut ∧ (s.addPoison a n).peerSeq = s.peerSeq ∧
    (s.addPoison a n).peerSeen = s.peerSeen ∧ (s.addPoison a n).peerKnow = s.peerKnow ∧ (s.addPoison a n).revMap = s.revMap ∧
    (s.addPoison a n).passDone = s.passDone ∧ (s.addPoison a n).passRunning = s.passRunning ∧
    (s.addPoison a n).passKnow = s.passKnow ∧ (s.addPoison a n).colours = s.colours ∧ (s.addPoison a n).posts = s.posts ∧
    (s.addPoison a n).ringDone = s.ringDone ∧ (s.addPoison a n).ringInt = s.ringInt ∧
    (s.addPoison a n).hostKnow = s.hostKnow ∧ (s.addPoison a n).msix = s.msix ∧ (s.addPoison a n).poolBytes = s.poolBytes ∧
    (s.addPoison a n).resFrames = s.resFrames ∧ (s.addPoison a n).cowFrames = s.cowFrames ∧
    (s.addPoison a n).windows = s.windows ∧ (s.addPoison a n).cards = s.cards ∧ (s.addPoison a n).gangs = s.gangs ∧
    (s.addPoison a n).gangCtr = s.gangCtr ∧ (s.addPoison a n).parts = s.parts ∧ (s.addPoison a n).queues = s.queues ∧
    (s.addPoison a n).cmds = s.cmds ∧ (s.addPoison a n).buckets = s.buckets ∧ (s.addPoison a n).moments = s.moments ∧
    (s.addPoison a n).objects = s.objects ∧ (s.addPoison a n).graphs = s.graphs ∧ (s.addPoison a n).launches = s.launches ∧
    (s.addPoison a n).launchCtr = s.launchCtr ∧ (s.addPoison a n).partyCtr = s.partyCtr ∧
    (s.addPoison a n).offers = s.offers ∧ (s.addPoison a n).heldAt = s.heldAt ∧ (s.addPoison a n).handleAt = s.handleAt ∧
    (s.addPoison a n).mailbox = s.mailbox ∧ (s.addPoison a n).vecwin = s.vecwin ∧ (s.addPoison a n).grants = s.grants ∧
    (s.addPoison a n).keys = s.keys ∧ (s.addPoison a n).admits = s.admits ∧ (s.addPoison a n).delgs = s.delgs ∧
    (s.addPoison a n).delgWaits = s.delgWaits ∧ (s.addPoison a n).portKeys = s.portKeys ∧
    (s.addPoison a n).handles = s.handles ∧ (s.addPoison a n).plans = s.plans ∧ (s.addPoison a n).replays = s.replays ∧
    (s.addPoison a n).replayCtr = s.replayCtr ∧ (s.addPoison a n).bufUsed = s.bufUsed ∧
    (s.addPoison a n).inbound = s.inbound ∧ (s.addPoison a n).switches = s.switches ∧ (s.addPoison a n).wire = s.wire ∧
    (s.addPoison a n).regions = s.regions ∧ (s.addPoison a n).poolPorts = s.poolPorts ∧ (s.addPoison a n).enmap = s.enmap ∧
    (s.addPoison a n).fw = s.fw ∧ (s.addPoison a n).master = s.master := by
  and_intros <;> rfl

@[simp] theorem State.healPoison_fields (s : State) (a n : Nat) :
    (s.healPoison a n).agenda = s.agenda ∧ (s.healPoison a n).tick = s.tick ∧ (s.healPoison a n).fresh = s.fresh ∧
    (s.healPoison a n).issuing = s.issuing ∧ (s.healPoison a n).timer = s.timer ∧ (s.healPoison a n).mem = s.mem ∧
    (s.healPoison a n).tags = s.tags ∧ (s.healPoison a n).tagPages = s.tagPages ∧
    (s.healPoison a n).poison = ((wholeHalves a n).foldl (fun p h => NSet.set p h false) s.poison) ∧
    (s.healPoison a n).race = s.race ∧ (s.healPoison a n).sync = s.sync ∧ (s.healPoison a n).devRel = s.devRel ∧
    (s.healPoison a n).agentColour = s.agentColour ∧ (s.healPoison a n).fences = s.fences ∧
    (s.healPoison a n).icache = s.icache ∧ (s.healPoison a n).parties = s.parties ∧ (s.healPoison a n).cores = s.cores ∧
    (s.healPoison a n).dies = s.dies ∧ (s.healPoison a n).jobs = s.jobs ∧ (s.healPoison a n).endedJobs = s.endedJobs ∧
    (s.healPoison a n).pages = s.pages ∧ (s.healPoison a n).pins = s.pins ∧ (s.healPoison a n).asks = s.asks ∧
    (s.healPoison a n).quota = s.quota ∧ (s.healPoison a n).accesses = s.accesses ∧ (s.healPoison a n).invals = s.invals ∧
    (s.healPoison a n).snap = s.snap ∧ (s.healPoison a n).ports = s.ports ∧ (s.healPoison a n).routes = s.routes ∧
    (s.healPoison a n).device = s.device ∧ (s.healPoison a n).peerOut = s.peerOut ∧ (s.healPoison a n).peerSeq = s.peerSeq ∧
    (s.healPoison a n).peerSeen = s.peerSeen ∧ (s.healPoison a n).peerKnow = s.peerKnow ∧
    (s.healPoison a n).revMap = s.revMap ∧ (s.healPoison a n).passDone = s.passDone ∧
    (s.healPoison a n).passRunning = s.passRunning ∧ (s.healPoison a n).passKnow = s.passKnow ∧
    (s.healPoison a n).colours = s.colours ∧ (s.healPoison a n).posts = s.posts ∧ (s.healPoison a n).ringDone = s.ringDone ∧
    (s.healPoison a n).ringInt = s.ringInt ∧ (s.healPoison a n).hostKnow = s.hostKnow ∧ (s.healPoison a n).msix = s.msix ∧
    (s.healPoison a n).poolBytes = s.poolBytes ∧ (s.healPoison a n).resFrames = s.resFrames ∧
    (s.healPoison a n).cowFrames = s.cowFrames ∧ (s.healPoison a n).windows = s.windows ∧
    (s.healPoison a n).cards = s.cards ∧ (s.healPoison a n).gangs = s.gangs ∧ (s.healPoison a n).gangCtr = s.gangCtr ∧
    (s.healPoison a n).parts = s.parts ∧ (s.healPoison a n).queues = s.queues ∧ (s.healPoison a n).cmds = s.cmds ∧
    (s.healPoison a n).buckets = s.buckets ∧ (s.healPoison a n).moments = s.moments ∧
    (s.healPoison a n).objects = s.objects ∧ (s.healPoison a n).graphs = s.graphs ∧
    (s.healPoison a n).launches = s.launches ∧ (s.healPoison a n).launchCtr = s.launchCtr ∧
    (s.healPoison a n).partyCtr = s.partyCtr ∧ (s.healPoison a n).offers = s.offers ∧ (s.healPoison a n).heldAt = s.heldAt ∧
    (s.healPoison a n).handleAt = s.handleAt ∧ (s.healPoison a n).mailbox = s.mailbox ∧
    (s.healPoison a n).vecwin = s.vecwin ∧ (s.healPoison a n).grants = s.grants ∧ (s.healPoison a n).keys = s.keys ∧
    (s.healPoison a n).admits = s.admits ∧ (s.healPoison a n).delgs = s.delgs ∧ (s.healPoison a n).delgWaits = s.delgWaits ∧
    (s.healPoison a n).portKeys = s.portKeys ∧ (s.healPoison a n).handles = s.handles ∧ (s.healPoison a n).plans = s.plans ∧
    (s.healPoison a n).replays = s.replays ∧ (s.healPoison a n).replayCtr = s.replayCtr ∧
    (s.healPoison a n).bufUsed = s.bufUsed ∧ (s.healPoison a n).inbound = s.inbound ∧
    (s.healPoison a n).switches = s.switches ∧ (s.healPoison a n).wire = s.wire ∧ (s.healPoison a n).regions = s.regions ∧
    (s.healPoison a n).poolPorts = s.poolPorts ∧ (s.healPoison a n).enmap = s.enmap ∧ (s.healPoison a n).fw = s.fw ∧
    (s.healPoison a n).master = s.master := by
  and_intros <;> rfl

@[simp] theorem State.recordWrite_fields (s : State) (agent gen : Nat) (atom : Bool) (a n : Nat) :
    (s.recordWrite agent gen atom a n).agenda = s.agenda ∧ (s.recordWrite agent gen atom a n).tick = s.tick ∧
    (s.recordWrite agent gen atom a n).fresh = s.fresh ∧ (s.recordWrite agent gen atom a n).issuing = s.issuing ∧
    (s.recordWrite agent gen atom a n).timer = s.timer ∧ (s.recordWrite agent gen atom a n).mem = s.mem ∧
    (s.recordWrite agent gen atom a n).tags = s.tags ∧ (s.recordWrite agent gen atom a n).tagPages = s.tagPages ∧
    (s.recordWrite agent gen atom a n).poison = s.poison ∧
    (s.recordWrite agent gen atom a n).race = ((granules a n).foldl (fun m g => SMap.set none m g (some ⟨BitVec.ofNat 32 agent, BitVec.ofNat 30 gen, atom⟩)) s.race) ∧
    (s.recordWrite agent gen atom a n).sync = s.sync ∧ (s.recordWrite agent gen atom a n).devRel = s.devRel ∧
    (s.recordWrite agent gen atom a n).agentColour = s.agentColour ∧ (s.recordWrite agent gen atom a n).fences = s.fences ∧
    (s.recordWrite agent gen atom a n).icache = s.icache ∧ (s.recordWrite agent gen atom a n).parties = s.parties ∧
    (s.recordWrite agent gen atom a n).cores = s.cores ∧ (s.recordWrite agent gen atom a n).dies = s.dies ∧
    (s.recordWrite agent gen atom a n).jobs = s.jobs ∧ (s.recordWrite agent gen atom a n).endedJobs = s.endedJobs ∧
    (s.recordWrite agent gen atom a n).pages = s.pages ∧ (s.recordWrite agent gen atom a n).pins = s.pins ∧
    (s.recordWrite agent gen atom a n).asks = s.asks ∧ (s.recordWrite agent gen atom a n).quota = s.quota ∧
    (s.recordWrite agent gen atom a n).accesses = s.accesses ∧ (s.recordWrite agent gen atom a n).invals = s.invals ∧
    (s.recordWrite agent gen atom a n).snap = s.snap ∧ (s.recordWrite agent gen atom a n).ports = s.ports ∧
    (s.recordWrite agent gen atom a n).routes = s.routes ∧ (s.recordWrite agent gen atom a n).device = s.device ∧
    (s.recordWrite agent gen atom a n).peerOut = s.peerOut ∧ (s.recordWrite agent gen atom a n).peerSeq = s.peerSeq ∧
    (s.recordWrite agent gen atom a n).peerSeen = s.peerSeen ∧ (s.recordWrite agent gen atom a n).peerKnow = s.peerKnow ∧
    (s.recordWrite agent gen atom a n).revMap = s.revMap ∧ (s.recordWrite agent gen atom a n).passDone = s.passDone ∧
    (s.recordWrite agent gen atom a n).passRunning = s.passRunning ∧
    (s.recordWrite agent gen atom a n).passKnow = s.passKnow ∧ (s.recordWrite agent gen atom a n).colours = s.colours ∧
    (s.recordWrite agent gen atom a n).posts = s.posts ∧ (s.recordWrite agent gen atom a n).ringDone = s.ringDone ∧
    (s.recordWrite agent gen atom a n).ringInt = s.ringInt ∧ (s.recordWrite agent gen atom a n).hostKnow = s.hostKnow ∧
    (s.recordWrite agent gen atom a n).msix = s.msix ∧ (s.recordWrite agent gen atom a n).poolBytes = s.poolBytes ∧
    (s.recordWrite agent gen atom a n).resFrames = s.resFrames ∧ (s.recordWrite agent gen atom a n).cowFrames = s.cowFrames ∧
    (s.recordWrite agent gen atom a n).windows = s.windows ∧ (s.recordWrite agent gen atom a n).cards = s.cards ∧
    (s.recordWrite agent gen atom a n).gangs = s.gangs ∧ (s.recordWrite agent gen atom a n).gangCtr = s.gangCtr ∧
    (s.recordWrite agent gen atom a n).parts = s.parts ∧ (s.recordWrite agent gen atom a n).queues = s.queues ∧
    (s.recordWrite agent gen atom a n).cmds = s.cmds ∧ (s.recordWrite agent gen atom a n).buckets = s.buckets ∧
    (s.recordWrite agent gen atom a n).moments = s.moments ∧ (s.recordWrite agent gen atom a n).objects = s.objects ∧
    (s.recordWrite agent gen atom a n).graphs = s.graphs ∧ (s.recordWrite agent gen atom a n).launches = s.launches ∧
    (s.recordWrite agent gen atom a n).launchCtr = s.launchCtr ∧ (s.recordWrite agent gen atom a n).partyCtr = s.partyCtr ∧
    (s.recordWrite agent gen atom a n).offers = s.offers ∧ (s.recordWrite agent gen atom a n).heldAt = s.heldAt ∧
    (s.recordWrite agent gen atom a n).handleAt = s.handleAt ∧ (s.recordWrite agent gen atom a n).mailbox = s.mailbox ∧
    (s.recordWrite agent gen atom a n).vecwin = s.vecwin ∧ (s.recordWrite agent gen atom a n).grants = s.grants ∧
    (s.recordWrite agent gen atom a n).keys = s.keys ∧ (s.recordWrite agent gen atom a n).admits = s.admits ∧
    (s.recordWrite agent gen atom a n).delgs = s.delgs ∧ (s.recordWrite agent gen atom a n).delgWaits = s.delgWaits ∧
    (s.recordWrite agent gen atom a n).portKeys = s.portKeys ∧ (s.recordWrite agent gen atom a n).handles = s.handles ∧
    (s.recordWrite agent gen atom a n).plans = s.plans ∧ (s.recordWrite agent gen atom a n).replays = s.replays ∧
    (s.recordWrite agent gen atom a n).replayCtr = s.replayCtr ∧ (s.recordWrite agent gen atom a n).bufUsed = s.bufUsed ∧
    (s.recordWrite agent gen atom a n).inbound = s.inbound ∧ (s.recordWrite agent gen atom a n).switches = s.switches ∧
    (s.recordWrite agent gen atom a n).wire = s.wire ∧ (s.recordWrite agent gen atom a n).regions = s.regions ∧
    (s.recordWrite agent gen atom a n).poolPorts = s.poolPorts ∧ (s.recordWrite agent gen atom a n).enmap = s.enmap ∧
    (s.recordWrite agent gen atom a n).fw = s.fw ∧ (s.recordWrite agent gen atom a n).master = s.master := by
  and_intros <;> rfl

@[simp] theorem State.clearRace_fields (s : State) (a n : Nat) :
    (s.clearRace a n).agenda = s.agenda ∧ (s.clearRace a n).tick = s.tick ∧ (s.clearRace a n).fresh = s.fresh ∧
    (s.clearRace a n).issuing = s.issuing ∧ (s.clearRace a n).timer = s.timer ∧ (s.clearRace a n).mem = s.mem ∧
    (s.clearRace a n).tags = s.tags ∧ (s.clearRace a n).tagPages = s.tagPages ∧ (s.clearRace a n).poison = s.poison ∧
    (s.clearRace a n).race = ((granules a n).foldl (fun m g => SMap.set none m g none) s.race) ∧
    (s.clearRace a n).sync = s.sync ∧ (s.clearRace a n).devRel = s.devRel ∧ (s.clearRace a n).agentColour = s.agentColour ∧
    (s.clearRace a n).fences = s.fences ∧ (s.clearRace a n).icache = s.icache ∧ (s.clearRace a n).parties = s.parties ∧
    (s.clearRace a n).cores = s.cores ∧ (s.clearRace a n).dies = s.dies ∧ (s.clearRace a n).jobs = s.jobs ∧
    (s.clearRace a n).endedJobs = s.endedJobs ∧ (s.clearRace a n).pages = s.pages ∧ (s.clearRace a n).pins = s.pins ∧
    (s.clearRace a n).asks = s.asks ∧ (s.clearRace a n).quota = s.quota ∧ (s.clearRace a n).accesses = s.accesses ∧
    (s.clearRace a n).invals = s.invals ∧ (s.clearRace a n).snap = s.snap ∧ (s.clearRace a n).ports = s.ports ∧
    (s.clearRace a n).routes = s.routes ∧ (s.clearRace a n).device = s.device ∧ (s.clearRace a n).peerOut = s.peerOut ∧
    (s.clearRace a n).peerSeq = s.peerSeq ∧ (s.clearRace a n).peerSeen = s.peerSeen ∧
    (s.clearRace a n).peerKnow = s.peerKnow ∧ (s.clearRace a n).revMap = s.revMap ∧ (s.clearRace a n).passDone = s.passDone ∧
    (s.clearRace a n).passRunning = s.passRunning ∧ (s.clearRace a n).passKnow = s.passKnow ∧
    (s.clearRace a n).colours = s.colours ∧ (s.clearRace a n).posts = s.posts ∧ (s.clearRace a n).ringDone = s.ringDone ∧
    (s.clearRace a n).ringInt = s.ringInt ∧ (s.clearRace a n).hostKnow = s.hostKnow ∧ (s.clearRace a n).msix = s.msix ∧
    (s.clearRace a n).poolBytes = s.poolBytes ∧ (s.clearRace a n).resFrames = s.resFrames ∧
    (s.clearRace a n).cowFrames = s.cowFrames ∧ (s.clearRace a n).windows = s.windows ∧ (s.clearRace a n).cards = s.cards ∧
    (s.clearRace a n).gangs = s.gangs ∧ (s.clearRace a n).gangCtr = s.gangCtr ∧ (s.clearRace a n).parts = s.parts ∧
    (s.clearRace a n).queues = s.queues ∧ (s.clearRace a n).cmds = s.cmds ∧ (s.clearRace a n).buckets = s.buckets ∧
    (s.clearRace a n).moments = s.moments ∧ (s.clearRace a n).objects = s.objects ∧ (s.clearRace a n).graphs = s.graphs ∧
    (s.clearRace a n).launches = s.launches ∧ (s.clearRace a n).launchCtr = s.launchCtr ∧
    (s.clearRace a n).partyCtr = s.partyCtr ∧ (s.clearRace a n).offers = s.offers ∧ (s.clearRace a n).heldAt = s.heldAt ∧
    (s.clearRace a n).handleAt = s.handleAt ∧ (s.clearRace a n).mailbox = s.mailbox ∧ (s.clearRace a n).vecwin = s.vecwin ∧
    (s.clearRace a n).grants = s.grants ∧ (s.clearRace a n).keys = s.keys ∧ (s.clearRace a n).admits = s.admits ∧
    (s.clearRace a n).delgs = s.delgs ∧ (s.clearRace a n).delgWaits = s.delgWaits ∧ (s.clearRace a n).portKeys = s.portKeys ∧
    (s.clearRace a n).handles = s.handles ∧ (s.clearRace a n).plans = s.plans ∧ (s.clearRace a n).replays = s.replays ∧
    (s.clearRace a n).replayCtr = s.replayCtr ∧ (s.clearRace a n).bufUsed = s.bufUsed ∧
    (s.clearRace a n).inbound = s.inbound ∧ (s.clearRace a n).switches = s.switches ∧ (s.clearRace a n).wire = s.wire ∧
    (s.clearRace a n).regions = s.regions ∧ (s.clearRace a n).poolPorts = s.poolPorts ∧ (s.clearRace a n).enmap = s.enmap ∧
    (s.clearRace a n).fw = s.fw ∧ (s.clearRace a n).master = s.master := by
  and_intros <;> rfl

@[simp] theorem State.cowSave_fields (s : State) (a n : Nat) :
    (s.cowSave a n).agenda = s.agenda ∧ (s.cowSave a n).tick = s.tick ∧ (s.cowSave a n).fresh = s.fresh ∧
    (s.cowSave a n).issuing = s.issuing ∧ (s.cowSave a n).timer = s.timer ∧ (s.cowSave a n).mem = s.mem ∧
    (s.cowSave a n).tags = s.tags ∧ (s.cowSave a n).tagPages = s.tagPages ∧ (s.cowSave a n).poison = s.poison ∧
    (s.cowSave a n).race = s.race ∧ (s.cowSave a n).sync = s.sync ∧ (s.cowSave a n).devRel = s.devRel ∧
    (s.cowSave a n).agentColour = s.agentColour ∧ (s.cowSave a n).fences = s.fences ∧ (s.cowSave a n).icache = s.icache ∧
    (s.cowSave a n).parties = s.parties ∧ (s.cowSave a n).cores = s.cores ∧ (s.cowSave a n).dies = s.dies ∧
    (s.cowSave a n).jobs = s.jobs ∧ (s.cowSave a n).endedJobs = s.endedJobs ∧ (s.cowSave a n).pages = s.pages ∧
    (s.cowSave a n).pins = s.pins ∧ (s.cowSave a n).asks = s.asks ∧ (s.cowSave a n).quota = s.quota ∧
    (s.cowSave a n).accesses = s.accesses ∧ (s.cowSave a n).invals = s.invals ∧ (s.cowSave a n).ports = s.ports ∧
    (s.cowSave a n).routes = s.routes ∧ (s.cowSave a n).device = s.device ∧ (s.cowSave a n).peerOut = s.peerOut ∧
    (s.cowSave a n).peerSeq = s.peerSeq ∧ (s.cowSave a n).peerSeen = s.peerSeen ∧ (s.cowSave a n).peerKnow = s.peerKnow ∧
    (s.cowSave a n).revMap = s.revMap ∧ (s.cowSave a n).passDone = s.passDone ∧ (s.cowSave a n).passRunning = s.passRunning ∧
    (s.cowSave a n).passKnow = s.passKnow ∧ (s.cowSave a n).colours = s.colours ∧ (s.cowSave a n).posts = s.posts ∧
    (s.cowSave a n).ringDone = s.ringDone ∧ (s.cowSave a n).ringInt = s.ringInt ∧ (s.cowSave a n).hostKnow = s.hostKnow ∧
    (s.cowSave a n).msix = s.msix ∧ (s.cowSave a n).poolBytes = s.poolBytes ∧ (s.cowSave a n).resFrames = s.resFrames ∧
    (s.cowSave a n).cowFrames = s.cowFrames ∧ (s.cowSave a n).windows = s.windows ∧ (s.cowSave a n).cards = s.cards ∧
    (s.cowSave a n).gangs = s.gangs ∧ (s.cowSave a n).gangCtr = s.gangCtr ∧ (s.cowSave a n).parts = s.parts ∧
    (s.cowSave a n).queues = s.queues ∧ (s.cowSave a n).cmds = s.cmds ∧ (s.cowSave a n).buckets = s.buckets ∧
    (s.cowSave a n).moments = s.moments ∧ (s.cowSave a n).objects = s.objects ∧ (s.cowSave a n).graphs = s.graphs ∧
    (s.cowSave a n).launches = s.launches ∧ (s.cowSave a n).launchCtr = s.launchCtr ∧ (s.cowSave a n).partyCtr = s.partyCtr ∧
    (s.cowSave a n).offers = s.offers ∧ (s.cowSave a n).heldAt = s.heldAt ∧ (s.cowSave a n).handleAt = s.handleAt ∧
    (s.cowSave a n).mailbox = s.mailbox ∧ (s.cowSave a n).vecwin = s.vecwin ∧ (s.cowSave a n).grants = s.grants ∧
    (s.cowSave a n).keys = s.keys ∧ (s.cowSave a n).admits = s.admits ∧ (s.cowSave a n).delgs = s.delgs ∧
    (s.cowSave a n).delgWaits = s.delgWaits ∧ (s.cowSave a n).portKeys = s.portKeys ∧ (s.cowSave a n).handles = s.handles ∧
    (s.cowSave a n).plans = s.plans ∧ (s.cowSave a n).replays = s.replays ∧ (s.cowSave a n).replayCtr = s.replayCtr ∧
    (s.cowSave a n).bufUsed = s.bufUsed ∧ (s.cowSave a n).inbound = s.inbound ∧ (s.cowSave a n).switches = s.switches ∧
    (s.cowSave a n).wire = s.wire ∧ (s.cowSave a n).regions = s.regions ∧ (s.cowSave a n).poolPorts = s.poolPorts ∧
    (s.cowSave a n).enmap = s.enmap ∧ (s.cowSave a n).fw = s.fw ∧ (s.cowSave a n).master = s.master := by
  and_intros <;> rfl

@[simp] theorem State.dropStash_fields (s : State) (lo hi : Nat) :
    (s.dropStash lo hi).agenda = s.agenda ∧ (s.dropStash lo hi).tick = s.tick ∧ (s.dropStash lo hi).fresh = s.fresh ∧
    (s.dropStash lo hi).issuing = s.issuing ∧ (s.dropStash lo hi).timer = s.timer ∧ (s.dropStash lo hi).mem = s.mem ∧
    (s.dropStash lo hi).tags = s.tags ∧ (s.dropStash lo hi).tagPages = s.tagPages ∧ (s.dropStash lo hi).poison = s.poison ∧
    (s.dropStash lo hi).race = s.race ∧ (s.dropStash lo hi).sync = s.sync ∧ (s.dropStash lo hi).devRel = s.devRel ∧
    (s.dropStash lo hi).agentColour = s.agentColour ∧ (s.dropStash lo hi).fences = s.fences ∧
    (s.dropStash lo hi).icache = s.icache ∧ (s.dropStash lo hi).parties = (s.parties.map fun p => p.dropLines lo hi) ∧
    (s.dropStash lo hi).cores = s.cores ∧ (s.dropStash lo hi).dies = s.dies ∧ (s.dropStash lo hi).jobs = s.jobs ∧
    (s.dropStash lo hi).endedJobs = s.endedJobs ∧ (s.dropStash lo hi).pages = s.pages ∧ (s.dropStash lo hi).pins = s.pins ∧
    (s.dropStash lo hi).asks = s.asks ∧ (s.dropStash lo hi).quota = s.quota ∧ (s.dropStash lo hi).accesses = s.accesses ∧
    (s.dropStash lo hi).invals = s.invals ∧ (s.dropStash lo hi).snap = s.snap ∧ (s.dropStash lo hi).ports = s.ports ∧
    (s.dropStash lo hi).routes = s.routes ∧ (s.dropStash lo hi).device = s.device ∧ (s.dropStash lo hi).peerOut = s.peerOut ∧
    (s.dropStash lo hi).peerSeq = s.peerSeq ∧ (s.dropStash lo hi).peerSeen = s.peerSeen ∧
    (s.dropStash lo hi).peerKnow = s.peerKnow ∧ (s.dropStash lo hi).revMap = s.revMap ∧
    (s.dropStash lo hi).passDone = s.passDone ∧ (s.dropStash lo hi).passRunning = s.passRunning ∧
    (s.dropStash lo hi).passKnow = s.passKnow ∧ (s.dropStash lo hi).colours = s.colours ∧
    (s.dropStash lo hi).posts = s.posts ∧ (s.dropStash lo hi).ringDone = s.ringDone ∧
    (s.dropStash lo hi).ringInt = s.ringInt ∧ (s.dropStash lo hi).hostKnow = s.hostKnow ∧ (s.dropStash lo hi).msix = s.msix ∧
    (s.dropStash lo hi).poolBytes = s.poolBytes ∧ (s.dropStash lo hi).resFrames = s.resFrames ∧
    (s.dropStash lo hi).cowFrames = s.cowFrames ∧ (s.dropStash lo hi).windows = s.windows ∧
    (s.dropStash lo hi).cards = s.cards ∧ (s.dropStash lo hi).gangs = s.gangs ∧ (s.dropStash lo hi).gangCtr = s.gangCtr ∧
    (s.dropStash lo hi).parts = s.parts ∧ (s.dropStash lo hi).queues = s.queues ∧ (s.dropStash lo hi).cmds = s.cmds ∧
    (s.dropStash lo hi).buckets = s.buckets ∧ (s.dropStash lo hi).moments = s.moments ∧
    (s.dropStash lo hi).objects = s.objects ∧ (s.dropStash lo hi).graphs = s.graphs ∧
    (s.dropStash lo hi).launches = s.launches ∧ (s.dropStash lo hi).launchCtr = s.launchCtr ∧
    (s.dropStash lo hi).partyCtr = s.partyCtr ∧ (s.dropStash lo hi).offers = s.offers ∧
    (s.dropStash lo hi).heldAt = s.heldAt ∧ (s.dropStash lo hi).handleAt = s.handleAt ∧
    (s.dropStash lo hi).mailbox = s.mailbox ∧ (s.dropStash lo hi).vecwin = s.vecwin ∧ (s.dropStash lo hi).grants = s.grants ∧
    (s.dropStash lo hi).keys = s.keys ∧ (s.dropStash lo hi).admits = s.admits ∧ (s.dropStash lo hi).delgs = s.delgs ∧
    (s.dropStash lo hi).delgWaits = s.delgWaits ∧ (s.dropStash lo hi).portKeys = s.portKeys ∧
    (s.dropStash lo hi).handles = s.handles ∧ (s.dropStash lo hi).plans = s.plans ∧ (s.dropStash lo hi).replays = s.replays ∧
    (s.dropStash lo hi).replayCtr = s.replayCtr ∧ (s.dropStash lo hi).bufUsed = s.bufUsed ∧
    (s.dropStash lo hi).inbound = s.inbound ∧ (s.dropStash lo hi).switches = s.switches ∧ (s.dropStash lo hi).wire = s.wire ∧
    (s.dropStash lo hi).regions = s.regions ∧ (s.dropStash lo hi).poolPorts = s.poolPorts ∧
    (s.dropStash lo hi).enmap = s.enmap ∧ (s.dropStash lo hi).fw = s.fw ∧ (s.dropStash lo hi).master = s.master := by
  and_intros <;> rfl

@[simp] theorem State.ask_fields (s : State) (x : PageAsk) :
    (s.ask x).agenda = s.agenda ∧ (s.ask x).tick = s.tick ∧ (s.ask x).fresh = s.fresh ∧ (s.ask x).issuing = s.issuing ∧
    (s.ask x).timer = s.timer ∧ (s.ask x).mem = s.mem ∧ (s.ask x).tags = s.tags ∧ (s.ask x).tagPages = s.tagPages ∧
    (s.ask x).poison = s.poison ∧ (s.ask x).race = s.race ∧ (s.ask x).sync = s.sync ∧ (s.ask x).devRel = s.devRel ∧
    (s.ask x).agentColour = s.agentColour ∧ (s.ask x).fences = s.fences ∧ (s.ask x).icache = s.icache ∧
    (s.ask x).parties = s.parties ∧ (s.ask x).cores = s.cores ∧ (s.ask x).dies = s.dies ∧ (s.ask x).jobs = s.jobs ∧
    (s.ask x).endedJobs = s.endedJobs ∧ (s.ask x).pins = s.pins ∧ (s.ask x).quota = s.quota ∧
    (s.ask x).accesses = s.accesses ∧ (s.ask x).invals = s.invals ∧ (s.ask x).snap = s.snap ∧ (s.ask x).ports = s.ports ∧
    (s.ask x).routes = s.routes ∧ (s.ask x).device = s.device ∧ (s.ask x).peerOut = s.peerOut ∧
    (s.ask x).peerSeq = s.peerSeq ∧ (s.ask x).peerSeen = s.peerSeen ∧ (s.ask x).peerKnow = s.peerKnow ∧
    (s.ask x).revMap = s.revMap ∧ (s.ask x).passDone = s.passDone ∧ (s.ask x).passRunning = s.passRunning ∧
    (s.ask x).passKnow = s.passKnow ∧ (s.ask x).colours = s.colours ∧ (s.ask x).posts = s.posts ∧
    (s.ask x).ringDone = s.ringDone ∧ (s.ask x).ringInt = s.ringInt ∧ (s.ask x).hostKnow = s.hostKnow ∧
    (s.ask x).msix = s.msix ∧ (s.ask x).poolBytes = s.poolBytes ∧ (s.ask x).resFrames = s.resFrames ∧
    (s.ask x).cowFrames = s.cowFrames ∧ (s.ask x).windows = s.windows ∧ (s.ask x).cards = s.cards ∧
    (s.ask x).gangs = s.gangs ∧ (s.ask x).gangCtr = s.gangCtr ∧ (s.ask x).parts = s.parts ∧ (s.ask x).queues = s.queues ∧
    (s.ask x).cmds = s.cmds ∧ (s.ask x).buckets = s.buckets ∧ (s.ask x).moments = s.moments ∧ (s.ask x).objects = s.objects ∧
    (s.ask x).graphs = s.graphs ∧ (s.ask x).launches = s.launches ∧ (s.ask x).launchCtr = s.launchCtr ∧
    (s.ask x).partyCtr = s.partyCtr ∧ (s.ask x).offers = s.offers ∧ (s.ask x).heldAt = s.heldAt ∧
    (s.ask x).handleAt = s.handleAt ∧ (s.ask x).mailbox = s.mailbox ∧ (s.ask x).vecwin = s.vecwin ∧
    (s.ask x).grants = s.grants ∧ (s.ask x).keys = s.keys ∧ (s.ask x).admits = s.admits ∧ (s.ask x).delgs = s.delgs ∧
    (s.ask x).delgWaits = s.delgWaits ∧ (s.ask x).portKeys = s.portKeys ∧ (s.ask x).handles = s.handles ∧
    (s.ask x).plans = s.plans ∧ (s.ask x).replays = s.replays ∧ (s.ask x).replayCtr = s.replayCtr ∧
    (s.ask x).bufUsed = s.bufUsed ∧ (s.ask x).inbound = s.inbound ∧ (s.ask x).switches = s.switches ∧
    (s.ask x).wire = s.wire ∧ (s.ask x).regions = s.regions ∧ (s.ask x).poolPorts = s.poolPorts ∧ (s.ask x).enmap = s.enmap ∧
    (s.ask x).fw = s.fw ∧ (s.ask x).master = s.master := by
  unfold State.ask; (repeat' split) <;> (and_intros <;> rfl)

@[simp] theorem State.snapThrough_fields (s : State) (a n : Nat) :
    (s.snapThrough a n).agenda = s.agenda ∧ (s.snapThrough a n).tick = s.tick ∧ (s.snapThrough a n).fresh = s.fresh ∧
    (s.snapThrough a n).issuing = s.issuing ∧ (s.snapThrough a n).timer = s.timer ∧ (s.snapThrough a n).mem = s.mem ∧
    (s.snapThrough a n).tags = s.tags ∧ (s.snapThrough a n).tagPages = s.tagPages ∧ (s.snapThrough a n).poison = s.poison ∧
    (s.snapThrough a n).race = s.race ∧ (s.snapThrough a n).sync = s.sync ∧ (s.snapThrough a n).devRel = s.devRel ∧
    (s.snapThrough a n).agentColour = s.agentColour ∧ (s.snapThrough a n).fences = s.fences ∧
    (s.snapThrough a n).icache = s.icache ∧ (s.snapThrough a n).parties = s.parties ∧ (s.snapThrough a n).cores = s.cores ∧
    (s.snapThrough a n).dies = s.dies ∧ (s.snapThrough a n).jobs = s.jobs ∧ (s.snapThrough a n).endedJobs = s.endedJobs ∧
    (s.snapThrough a n).pages = s.pages ∧ (s.snapThrough a n).pins = s.pins ∧ (s.snapThrough a n).asks = s.asks ∧
    (s.snapThrough a n).quota = s.quota ∧ (s.snapThrough a n).accesses = s.accesses ∧ (s.snapThrough a n).invals = s.invals ∧
    (s.snapThrough a n).ports = s.ports ∧ (s.snapThrough a n).routes = s.routes ∧ (s.snapThrough a n).device = s.device ∧
    (s.snapThrough a n).peerOut = s.peerOut ∧ (s.snapThrough a n).peerSeq = s.peerSeq ∧
    (s.snapThrough a n).peerSeen = s.peerSeen ∧ (s.snapThrough a n).peerKnow = s.peerKnow ∧
    (s.snapThrough a n).revMap = s.revMap ∧ (s.snapThrough a n).passDone = s.passDone ∧
    (s.snapThrough a n).passRunning = s.passRunning ∧ (s.snapThrough a n).passKnow = s.passKnow ∧
    (s.snapThrough a n).colours = s.colours ∧ (s.snapThrough a n).posts = s.posts ∧
    (s.snapThrough a n).ringDone = s.ringDone ∧ (s.snapThrough a n).ringInt = s.ringInt ∧
    (s.snapThrough a n).hostKnow = s.hostKnow ∧ (s.snapThrough a n).msix = s.msix ∧
    (s.snapThrough a n).poolBytes = s.poolBytes ∧ (s.snapThrough a n).resFrames = s.resFrames ∧
    (s.snapThrough a n).cowFrames = s.cowFrames ∧ (s.snapThrough a n).windows = s.windows ∧
    (s.snapThrough a n).cards = s.cards ∧ (s.snapThrough a n).gangs = s.gangs ∧ (s.snapThrough a n).gangCtr = s.gangCtr ∧
    (s.snapThrough a n).parts = s.parts ∧ (s.snapThrough a n).queues = s.queues ∧ (s.snapThrough a n).cmds = s.cmds ∧
    (s.snapThrough a n).buckets = s.buckets ∧ (s.snapThrough a n).moments = s.moments ∧
    (s.snapThrough a n).objects = s.objects ∧ (s.snapThrough a n).graphs = s.graphs ∧
    (s.snapThrough a n).launches = s.launches ∧ (s.snapThrough a n).launchCtr = s.launchCtr ∧
    (s.snapThrough a n).partyCtr = s.partyCtr ∧ (s.snapThrough a n).offers = s.offers ∧
    (s.snapThrough a n).heldAt = s.heldAt ∧ (s.snapThrough a n).handleAt = s.handleAt ∧
    (s.snapThrough a n).mailbox = s.mailbox ∧ (s.snapThrough a n).vecwin = s.vecwin ∧ (s.snapThrough a n).grants = s.grants ∧
    (s.snapThrough a n).keys = s.keys ∧ (s.snapThrough a n).admits = s.admits ∧ (s.snapThrough a n).delgs = s.delgs ∧
    (s.snapThrough a n).delgWaits = s.delgWaits ∧ (s.snapThrough a n).portKeys = s.portKeys ∧
    (s.snapThrough a n).handles = s.handles ∧ (s.snapThrough a n).plans = s.plans ∧ (s.snapThrough a n).replays = s.replays ∧
    (s.snapThrough a n).replayCtr = s.replayCtr ∧ (s.snapThrough a n).bufUsed = s.bufUsed ∧
    (s.snapThrough a n).inbound = s.inbound ∧ (s.snapThrough a n).switches = s.switches ∧ (s.snapThrough a n).wire = s.wire ∧
    (s.snapThrough a n).regions = s.regions ∧ (s.snapThrough a n).poolPorts = s.poolPorts ∧
    (s.snapThrough a n).enmap = s.enmap ∧ (s.snapThrough a n).fw = s.fw ∧ (s.snapThrough a n).master = s.master := by
  and_intros <;> rfl

@[simp] theorem State.store_fields (s : State) (w : Writer) (a : Nat) (bs : List Byte) :
    (s.store w a bs).agenda = s.agenda ∧ (s.store w a bs).tick = s.tick ∧ (s.store w a bs).fresh = s.fresh ∧
    (s.store w a bs).issuing = s.issuing ∧ (s.store w a bs).timer = s.timer ∧ (s.store w a bs).tagPages = s.tagPages ∧
    (s.store w a bs).poison = s.poison ∧ (s.store w a bs).devRel = s.devRel ∧ (s.store w a bs).agentColour = s.agentColour ∧
    (s.store w a bs).fences = s.fences ∧ (s.store w a bs).icache = s.icache ∧ (s.store w a bs).cores = s.cores ∧
    (s.store w a bs).dies = s.dies ∧ (s.store w a bs).jobs = s.jobs ∧ (s.store w a bs).endedJobs = s.endedJobs ∧
    (s.store w a bs).pages = s.pages ∧ (s.store w a bs).pins = s.pins ∧ (s.store w a bs).asks = s.asks ∧
    (s.store w a bs).quota = s.quota ∧ (s.store w a bs).accesses = s.accesses ∧ (s.store w a bs).invals = s.invals ∧
    (s.store w a bs).ports = s.ports ∧ (s.store w a bs).routes = s.routes ∧ (s.store w a bs).device = s.device ∧
    (s.store w a bs).peerOut = s.peerOut ∧ (s.store w a bs).peerSeq = s.peerSeq ∧ (s.store w a bs).peerSeen = s.peerSeen ∧
    (s.store w a bs).peerKnow = s.peerKnow ∧ (s.store w a bs).revMap = s.revMap ∧ (s.store w a bs).passDone = s.passDone ∧
    (s.store w a bs).passRunning = s.passRunning ∧ (s.store w a bs).passKnow = s.passKnow ∧
    (s.store w a bs).colours = s.colours ∧ (s.store w a bs).posts = s.posts ∧ (s.store w a bs).ringDone = s.ringDone ∧
    (s.store w a bs).ringInt = s.ringInt ∧ (s.store w a bs).hostKnow = s.hostKnow ∧ (s.store w a bs).msix = s.msix ∧
    (s.store w a bs).poolBytes = s.poolBytes ∧ (s.store w a bs).resFrames = s.resFrames ∧
    (s.store w a bs).cowFrames = s.cowFrames ∧ (s.store w a bs).windows = s.windows ∧ (s.store w a bs).cards = s.cards ∧
    (s.store w a bs).gangs = s.gangs ∧ (s.store w a bs).gangCtr = s.gangCtr ∧ (s.store w a bs).parts = s.parts ∧
    (s.store w a bs).queues = s.queues ∧ (s.store w a bs).cmds = s.cmds ∧ (s.store w a bs).buckets = s.buckets ∧
    (s.store w a bs).moments = s.moments ∧ (s.store w a bs).objects = s.objects ∧ (s.store w a bs).graphs = s.graphs ∧
    (s.store w a bs).launches = s.launches ∧ (s.store w a bs).launchCtr = s.launchCtr ∧
    (s.store w a bs).partyCtr = s.partyCtr ∧ (s.store w a bs).offers = s.offers ∧ (s.store w a bs).heldAt = s.heldAt ∧
    (s.store w a bs).handleAt = s.handleAt ∧ (s.store w a bs).mailbox = s.mailbox ∧ (s.store w a bs).vecwin = s.vecwin ∧
    (s.store w a bs).grants = s.grants ∧ (s.store w a bs).keys = s.keys ∧ (s.store w a bs).admits = s.admits ∧
    (s.store w a bs).delgs = s.delgs ∧ (s.store w a bs).delgWaits = s.delgWaits ∧ (s.store w a bs).portKeys = s.portKeys ∧
    (s.store w a bs).handles = s.handles ∧ (s.store w a bs).plans = s.plans ∧ (s.store w a bs).replays = s.replays ∧
    (s.store w a bs).replayCtr = s.replayCtr ∧ (s.store w a bs).bufUsed = s.bufUsed ∧ (s.store w a bs).inbound = s.inbound ∧
    (s.store w a bs).switches = s.switches ∧ (s.store w a bs).wire = s.wire ∧ (s.store w a bs).regions = s.regions ∧
    (s.store w a bs).poolPorts = s.poolPorts ∧ (s.store w a bs).enmap = s.enmap ∧ (s.store w a bs).fw = s.fw ∧
    (s.store w a bs).master = s.master := by
  unfold State.store; split <;> simp only [State.setBytes_fields, State.cowSave_fields, State.dropStash_fields, State.clearTags_fields, State.recordWrite_fields, and_self]

@[simp] theorem State.storeIn_fields (s : State) (w : Writer) (a : Nat) (bs : List Byte) :
    (s.storeIn w a bs).agenda = s.agenda ∧ (s.storeIn w a bs).tick = s.tick ∧ (s.storeIn w a bs).fresh = s.fresh ∧
    (s.storeIn w a bs).issuing = s.issuing ∧ (s.storeIn w a bs).timer = s.timer ∧ (s.storeIn w a bs).tagPages = s.tagPages ∧
    (s.storeIn w a bs).poison = s.poison ∧ (s.storeIn w a bs).devRel = s.devRel ∧
    (s.storeIn w a bs).agentColour = s.agentColour ∧ (s.storeIn w a bs).fences = s.fences ∧
    (s.storeIn w a bs).icache = s.icache ∧ (s.storeIn w a bs).cores = s.cores ∧ (s.storeIn w a bs).dies = s.dies ∧
    (s.storeIn w a bs).jobs = s.jobs ∧ (s.storeIn w a bs).endedJobs = s.endedJobs ∧ (s.storeIn w a bs).pages = s.pages ∧
    (s.storeIn w a bs).pins = s.pins ∧ (s.storeIn w a bs).asks = s.asks ∧ (s.storeIn w a bs).quota = s.quota ∧
    (s.storeIn w a bs).accesses = s.accesses ∧ (s.storeIn w a bs).invals = s.invals ∧ (s.storeIn w a bs).ports = s.ports ∧
    (s.storeIn w a bs).routes = s.routes ∧ (s.storeIn w a bs).device = s.device ∧ (s.storeIn w a bs).peerOut = s.peerOut ∧
    (s.storeIn w a bs).peerSeq = s.peerSeq ∧ (s.storeIn w a bs).peerSeen = s.peerSeen ∧
    (s.storeIn w a bs).peerKnow = s.peerKnow ∧ (s.storeIn w a bs).revMap = s.revMap ∧
    (s.storeIn w a bs).passDone = s.passDone ∧ (s.storeIn w a bs).passRunning = s.passRunning ∧
    (s.storeIn w a bs).passKnow = s.passKnow ∧ (s.storeIn w a bs).colours = s.colours ∧ (s.storeIn w a bs).posts = s.posts ∧
    (s.storeIn w a bs).ringDone = s.ringDone ∧ (s.storeIn w a bs).ringInt = s.ringInt ∧
    (s.storeIn w a bs).hostKnow = s.hostKnow ∧ (s.storeIn w a bs).msix = s.msix ∧
    (s.storeIn w a bs).poolBytes = s.poolBytes ∧ (s.storeIn w a bs).resFrames = s.resFrames ∧
    (s.storeIn w a bs).cowFrames = s.cowFrames ∧ (s.storeIn w a bs).windows = s.windows ∧
    (s.storeIn w a bs).cards = s.cards ∧ (s.storeIn w a bs).gangs = s.gangs ∧ (s.storeIn w a bs).gangCtr = s.gangCtr ∧
    (s.storeIn w a bs).parts = s.parts ∧ (s.storeIn w a bs).queues = s.queues ∧ (s.storeIn w a bs).cmds = s.cmds ∧
    (s.storeIn w a bs).buckets = s.buckets ∧ (s.storeIn w a bs).moments = s.moments ∧
    (s.storeIn w a bs).objects = s.objects ∧ (s.storeIn w a bs).graphs = s.graphs ∧
    (s.storeIn w a bs).launches = s.launches ∧ (s.storeIn w a bs).launchCtr = s.launchCtr ∧
    (s.storeIn w a bs).partyCtr = s.partyCtr ∧ (s.storeIn w a bs).offers = s.offers ∧ (s.storeIn w a bs).heldAt = s.heldAt ∧
    (s.storeIn w a bs).handleAt = s.handleAt ∧ (s.storeIn w a bs).mailbox = s.mailbox ∧
    (s.storeIn w a bs).vecwin = s.vecwin ∧ (s.storeIn w a bs).grants = s.grants ∧ (s.storeIn w a bs).keys = s.keys ∧
    (s.storeIn w a bs).admits = s.admits ∧ (s.storeIn w a bs).delgs = s.delgs ∧ (s.storeIn w a bs).delgWaits = s.delgWaits ∧
    (s.storeIn w a bs).portKeys = s.portKeys ∧ (s.storeIn w a bs).handles = s.handles ∧ (s.storeIn w a bs).plans = s.plans ∧
    (s.storeIn w a bs).replays = s.replays ∧ (s.storeIn w a bs).replayCtr = s.replayCtr ∧
    (s.storeIn w a bs).bufUsed = s.bufUsed ∧ (s.storeIn w a bs).inbound = s.inbound ∧
    (s.storeIn w a bs).switches = s.switches ∧ (s.storeIn w a bs).wire = s.wire ∧ (s.storeIn w a bs).regions = s.regions ∧
    (s.storeIn w a bs).poolPorts = s.poolPorts ∧ (s.storeIn w a bs).enmap = s.enmap ∧ (s.storeIn w a bs).fw = s.fw ∧
    (s.storeIn w a bs).master = s.master := by
  unfold State.storeIn; split <;> simp only [State.store_fields, and_self]

@[simp] theorem State.foreignWrite_fields (s : State) (atom : Bool) (pubs : List Pub) (a : Nat) (bs : List Byte) :
    (s.foreignWrite atom pubs a bs).agenda = s.agenda ∧ (s.foreignWrite atom pubs a bs).tick = s.tick ∧
    (s.foreignWrite atom pubs a bs).fresh = s.fresh ∧ (s.foreignWrite atom pubs a bs).issuing = s.issuing ∧
    (s.foreignWrite atom pubs a bs).timer = s.timer ∧ (s.foreignWrite atom pubs a bs).tagPages = s.tagPages ∧
    (s.foreignWrite atom pubs a bs).poison = s.poison ∧ (s.foreignWrite atom pubs a bs).devRel = s.devRel ∧
    (s.foreignWrite atom pubs a bs).agentColour = s.agentColour ∧ (s.foreignWrite atom pubs a bs).fences = s.fences ∧
    (s.foreignWrite atom pubs a bs).icache = s.icache ∧ (s.foreignWrite atom pubs a bs).cores = s.cores ∧
    (s.foreignWrite atom pubs a bs).dies = s.dies ∧ (s.foreignWrite atom pubs a bs).jobs = s.jobs ∧
    (s.foreignWrite atom pubs a bs).endedJobs = s.endedJobs ∧ (s.foreignWrite atom pubs a bs).pages = s.pages ∧
    (s.foreignWrite atom pubs a bs).pins = s.pins ∧ (s.foreignWrite atom pubs a bs).asks = s.asks ∧
    (s.foreignWrite atom pubs a bs).quota = s.quota ∧ (s.foreignWrite atom pubs a bs).accesses = s.accesses ∧
    (s.foreignWrite atom pubs a bs).invals = s.invals ∧ (s.foreignWrite atom pubs a bs).ports = s.ports ∧
    (s.foreignWrite atom pubs a bs).routes = s.routes ∧ (s.foreignWrite atom pubs a bs).device = s.device ∧
    (s.foreignWrite atom pubs a bs).peerOut = s.peerOut ∧ (s.foreignWrite atom pubs a bs).peerSeq = s.peerSeq ∧
    (s.foreignWrite atom pubs a bs).peerSeen = s.peerSeen ∧ (s.foreignWrite atom pubs a bs).peerKnow = s.peerKnow ∧
    (s.foreignWrite atom pubs a bs).revMap = s.revMap ∧ (s.foreignWrite atom pubs a bs).passDone = s.passDone ∧
    (s.foreignWrite atom pubs a bs).passRunning = s.passRunning ∧ (s.foreignWrite atom pubs a bs).passKnow = s.passKnow ∧
    (s.foreignWrite atom pubs a bs).colours = s.colours ∧ (s.foreignWrite atom pubs a bs).posts = s.posts ∧
    (s.foreignWrite atom pubs a bs).ringDone = s.ringDone ∧ (s.foreignWrite atom pubs a bs).ringInt = s.ringInt ∧
    (s.foreignWrite atom pubs a bs).hostKnow = s.hostKnow ∧ (s.foreignWrite atom pubs a bs).msix = s.msix ∧
    (s.foreignWrite atom pubs a bs).poolBytes = s.poolBytes ∧ (s.foreignWrite atom pubs a bs).resFrames = s.resFrames ∧
    (s.foreignWrite atom pubs a bs).cowFrames = s.cowFrames ∧ (s.foreignWrite atom pubs a bs).windows = s.windows ∧
    (s.foreignWrite atom pubs a bs).cards = s.cards ∧ (s.foreignWrite atom pubs a bs).gangs = s.gangs ∧
    (s.foreignWrite atom pubs a bs).gangCtr = s.gangCtr ∧ (s.foreignWrite atom pubs a bs).parts = s.parts ∧
    (s.foreignWrite atom pubs a bs).queues = s.queues ∧ (s.foreignWrite atom pubs a bs).cmds = s.cmds ∧
    (s.foreignWrite atom pubs a bs).buckets = s.buckets ∧ (s.foreignWrite atom pubs a bs).moments = s.moments ∧
    (s.foreignWrite atom pubs a bs).objects = s.objects ∧ (s.foreignWrite atom pubs a bs).graphs = s.graphs ∧
    (s.foreignWrite atom pubs a bs).launches = s.launches ∧ (s.foreignWrite atom pubs a bs).launchCtr = s.launchCtr ∧
    (s.foreignWrite atom pubs a bs).partyCtr = s.partyCtr ∧ (s.foreignWrite atom pubs a bs).offers = s.offers ∧
    (s.foreignWrite atom pubs a bs).heldAt = s.heldAt ∧ (s.foreignWrite atom pubs a bs).handleAt = s.handleAt ∧
    (s.foreignWrite atom pubs a bs).mailbox = s.mailbox ∧ (s.foreignWrite atom pubs a bs).vecwin = s.vecwin ∧
    (s.foreignWrite atom pubs a bs).grants = s.grants ∧ (s.foreignWrite atom pubs a bs).keys = s.keys ∧
    (s.foreignWrite atom pubs a bs).admits = s.admits ∧ (s.foreignWrite atom pubs a bs).delgs = s.delgs ∧
    (s.foreignWrite atom pubs a bs).delgWaits = s.delgWaits ∧ (s.foreignWrite atom pubs a bs).portKeys = s.portKeys ∧
    (s.foreignWrite atom pubs a bs).handles = s.handles ∧ (s.foreignWrite atom pubs a bs).plans = s.plans ∧
    (s.foreignWrite atom pubs a bs).replays = s.replays ∧ (s.foreignWrite atom pubs a bs).replayCtr = s.replayCtr ∧
    (s.foreignWrite atom pubs a bs).bufUsed = s.bufUsed ∧ (s.foreignWrite atom pubs a bs).inbound = s.inbound ∧
    (s.foreignWrite atom pubs a bs).switches = s.switches ∧ (s.foreignWrite atom pubs a bs).wire = s.wire ∧
    (s.foreignWrite atom pubs a bs).regions = s.regions ∧ (s.foreignWrite atom pubs a bs).poolPorts = s.poolPorts ∧
    (s.foreignWrite atom pubs a bs).enmap = s.enmap ∧ (s.foreignWrite atom pubs a bs).fw = s.fw ∧
    (s.foreignWrite atom pubs a bs).master = s.master := by
  unfold State.foreignWrite; split <;> simp only [State.setBytes_fields, State.cowSave_fields, State.dropStash_fields, State.clearTags_fields, State.clearRace_fields, and_self]

@[simp] theorem State.foreignStore_fields (s : State) (a : Nat) (bs : List Byte) :
    (s.foreignStore a bs).agenda = s.agenda ∧ (s.foreignStore a bs).tick = s.tick ∧ (s.foreignStore a bs).fresh = s.fresh ∧
    (s.foreignStore a bs).issuing = s.issuing ∧ (s.foreignStore a bs).timer = s.timer ∧
    (s.foreignStore a bs).tagPages = s.tagPages ∧ (s.foreignStore a bs).poison = s.poison ∧
    (s.foreignStore a bs).devRel = s.devRel ∧ (s.foreignStore a bs).agentColour = s.agentColour ∧
    (s.foreignStore a bs).fences = s.fences ∧ (s.foreignStore a bs).icache = s.icache ∧
    (s.foreignStore a bs).cores = s.cores ∧ (s.foreignStore a bs).dies = s.dies ∧ (s.foreignStore a bs).jobs = s.jobs ∧
    (s.foreignStore a bs).endedJobs = s.endedJobs ∧ (s.foreignStore a bs).pages = s.pages ∧
    (s.foreignStore a bs).pins = s.pins ∧ (s.foreignStore a bs).asks = s.asks ∧ (s.foreignStore a bs).quota = s.quota ∧
    (s.foreignStore a bs).accesses = s.accesses ∧ (s.foreignStore a bs).invals = s.invals ∧
    (s.foreignStore a bs).ports = s.ports ∧ (s.foreignStore a bs).routes = s.routes ∧
    (s.foreignStore a bs).device = s.device ∧ (s.foreignStore a bs).peerOut = s.peerOut ∧
    (s.foreignStore a bs).peerSeq = s.peerSeq ∧ (s.foreignStore a bs).peerSeen = s.peerSeen ∧
    (s.foreignStore a bs).peerKnow = s.peerKnow ∧ (s.foreignStore a bs).revMap = s.revMap ∧
    (s.foreignStore a bs).passDone = s.passDone ∧ (s.foreignStore a bs).passRunning = s.passRunning ∧
    (s.foreignStore a bs).passKnow = s.passKnow ∧ (s.foreignStore a bs).colours = s.colours ∧
    (s.foreignStore a bs).posts = s.posts ∧ (s.foreignStore a bs).ringDone = s.ringDone ∧
    (s.foreignStore a bs).ringInt = s.ringInt ∧ (s.foreignStore a bs).hostKnow = s.hostKnow ∧
    (s.foreignStore a bs).msix = s.msix ∧ (s.foreignStore a bs).poolBytes = s.poolBytes ∧
    (s.foreignStore a bs).resFrames = s.resFrames ∧ (s.foreignStore a bs).cowFrames = s.cowFrames ∧
    (s.foreignStore a bs).windows = s.windows ∧ (s.foreignStore a bs).cards = s.cards ∧
    (s.foreignStore a bs).gangs = s.gangs ∧ (s.foreignStore a bs).gangCtr = s.gangCtr ∧
    (s.foreignStore a bs).parts = s.parts ∧ (s.foreignStore a bs).queues = s.queues ∧ (s.foreignStore a bs).cmds = s.cmds ∧
    (s.foreignStore a bs).buckets = s.buckets ∧ (s.foreignStore a bs).moments = s.moments ∧
    (s.foreignStore a bs).objects = s.objects ∧ (s.foreignStore a bs).graphs = s.graphs ∧
    (s.foreignStore a bs).launches = s.launches ∧ (s.foreignStore a bs).launchCtr = s.launchCtr ∧
    (s.foreignStore a bs).partyCtr = s.partyCtr ∧ (s.foreignStore a bs).offers = s.offers ∧
    (s.foreignStore a bs).heldAt = s.heldAt ∧ (s.foreignStore a bs).handleAt = s.handleAt ∧
    (s.foreignStore a bs).mailbox = s.mailbox ∧ (s.foreignStore a bs).vecwin = s.vecwin ∧
    (s.foreignStore a bs).grants = s.grants ∧ (s.foreignStore a bs).keys = s.keys ∧ (s.foreignStore a bs).admits = s.admits ∧
    (s.foreignStore a bs).delgs = s.delgs ∧ (s.foreignStore a bs).delgWaits = s.delgWaits ∧
    (s.foreignStore a bs).portKeys = s.portKeys ∧ (s.foreignStore a bs).handles = s.handles ∧
    (s.foreignStore a bs).plans = s.plans ∧ (s.foreignStore a bs).replays = s.replays ∧
    (s.foreignStore a bs).replayCtr = s.replayCtr ∧ (s.foreignStore a bs).bufUsed = s.bufUsed ∧
    (s.foreignStore a bs).inbound = s.inbound ∧ (s.foreignStore a bs).switches = s.switches ∧
    (s.foreignStore a bs).wire = s.wire ∧ (s.foreignStore a bs).regions = s.regions ∧
    (s.foreignStore a bs).poolPorts = s.poolPorts ∧ (s.foreignStore a bs).enmap = s.enmap ∧ (s.foreignStore a bs).fw = s.fw ∧
    (s.foreignStore a bs).master = s.master := by
  simp only [State.foreignStore, State.foreignWrite_fields, and_self]

@[simp] theorem State.askAll_fields (s : State) (wr : Bool) (colour : Nat) (l : List Nat) :
    (s.askAll wr colour l).agenda = s.agenda ∧ (s.askAll wr colour l).tick = s.tick ∧
    (s.askAll wr colour l).fresh = s.fresh ∧ (s.askAll wr colour l).issuing = s.issuing ∧
    (s.askAll wr colour l).timer = s.timer ∧ (s.askAll wr colour l).mem = s.mem ∧ (s.askAll wr colour l).tags = s.tags ∧
    (s.askAll wr colour l).tagPages = s.tagPages ∧ (s.askAll wr colour l).poison = s.poison ∧
    (s.askAll wr colour l).race = s.race ∧ (s.askAll wr colour l).sync = s.sync ∧ (s.askAll wr colour l).devRel = s.devRel ∧
    (s.askAll wr colour l).agentColour = s.agentColour ∧ (s.askAll wr colour l).fences = s.fences ∧
    (s.askAll wr colour l).icache = s.icache ∧ (s.askAll wr colour l).parties = s.parties ∧
    (s.askAll wr colour l).cores = s.cores ∧ (s.askAll wr colour l).dies = s.dies ∧ (s.askAll wr colour l).jobs = s.jobs ∧
    (s.askAll wr colour l).endedJobs = s.endedJobs ∧ (s.askAll wr colour l).pins = s.pins ∧
    (s.askAll wr colour l).quota = s.quota ∧ (s.askAll wr colour l).accesses = s.accesses ∧
    (s.askAll wr colour l).invals = s.invals ∧ (s.askAll wr colour l).snap = s.snap ∧
    (s.askAll wr colour l).ports = s.ports ∧ (s.askAll wr colour l).routes = s.routes ∧
    (s.askAll wr colour l).device = s.device ∧ (s.askAll wr colour l).peerOut = s.peerOut ∧
    (s.askAll wr colour l).peerSeq = s.peerSeq ∧ (s.askAll wr colour l).peerSeen = s.peerSeen ∧
    (s.askAll wr colour l).peerKnow = s.peerKnow ∧ (s.askAll wr colour l).revMap = s.revMap ∧
    (s.askAll wr colour l).passDone = s.passDone ∧ (s.askAll wr colour l).passRunning = s.passRunning ∧
    (s.askAll wr colour l).passKnow = s.passKnow ∧ (s.askAll wr colour l).colours = s.colours ∧
    (s.askAll wr colour l).posts = s.posts ∧ (s.askAll wr colour l).ringDone = s.ringDone ∧
    (s.askAll wr colour l).ringInt = s.ringInt ∧ (s.askAll wr colour l).hostKnow = s.hostKnow ∧
    (s.askAll wr colour l).msix = s.msix ∧ (s.askAll wr colour l).poolBytes = s.poolBytes ∧
    (s.askAll wr colour l).resFrames = s.resFrames ∧ (s.askAll wr colour l).cowFrames = s.cowFrames ∧
    (s.askAll wr colour l).windows = s.windows ∧ (s.askAll wr colour l).cards = s.cards ∧
    (s.askAll wr colour l).gangs = s.gangs ∧ (s.askAll wr colour l).gangCtr = s.gangCtr ∧
    (s.askAll wr colour l).parts = s.parts ∧ (s.askAll wr colour l).queues = s.queues ∧
    (s.askAll wr colour l).cmds = s.cmds ∧ (s.askAll wr colour l).buckets = s.buckets ∧
    (s.askAll wr colour l).moments = s.moments ∧ (s.askAll wr colour l).objects = s.objects ∧
    (s.askAll wr colour l).graphs = s.graphs ∧ (s.askAll wr colour l).launches = s.launches ∧
    (s.askAll wr colour l).launchCtr = s.launchCtr ∧ (s.askAll wr colour l).partyCtr = s.partyCtr ∧
    (s.askAll wr colour l).offers = s.offers ∧ (s.askAll wr colour l).heldAt = s.heldAt ∧
    (s.askAll wr colour l).handleAt = s.handleAt ∧ (s.askAll wr colour l).mailbox = s.mailbox ∧
    (s.askAll wr colour l).vecwin = s.vecwin ∧ (s.askAll wr colour l).grants = s.grants ∧
    (s.askAll wr colour l).keys = s.keys ∧ (s.askAll wr colour l).admits = s.admits ∧
    (s.askAll wr colour l).delgs = s.delgs ∧ (s.askAll wr colour l).delgWaits = s.delgWaits ∧
    (s.askAll wr colour l).portKeys = s.portKeys ∧ (s.askAll wr colour l).handles = s.handles ∧
    (s.askAll wr colour l).plans = s.plans ∧ (s.askAll wr colour l).replays = s.replays ∧
    (s.askAll wr colour l).replayCtr = s.replayCtr ∧ (s.askAll wr colour l).bufUsed = s.bufUsed ∧
    (s.askAll wr colour l).inbound = s.inbound ∧ (s.askAll wr colour l).switches = s.switches ∧
    (s.askAll wr colour l).wire = s.wire ∧ (s.askAll wr colour l).regions = s.regions ∧
    (s.askAll wr colour l).poolPorts = s.poolPorts ∧ (s.askAll wr colour l).enmap = s.enmap ∧
    (s.askAll wr colour l).fw = s.fw ∧ (s.askAll wr colour l).master = s.master := by
  induction l generalizing s with
  | nil => and_intros <;> rfl
  | cons q t ih =>
    have h := ih (s.ask ⟨q, .engine, wr, colour, none⟩)
    simp only [State.ask_fields] at h
    exact h

@[simp] theorem State.setJob_fields (s : State) (j : Job) :
    (s.setJob j).agenda = s.agenda ∧ (s.setJob j).tick = s.tick ∧ (s.setJob j).fresh = s.fresh ∧
    (s.setJob j).issuing = s.issuing ∧ (s.setJob j).timer = s.timer ∧ (s.setJob j).mem = s.mem ∧ (s.setJob j).tags = s.tags ∧
    (s.setJob j).tagPages = s.tagPages ∧ (s.setJob j).poison = s.poison ∧ (s.setJob j).race = s.race ∧
    (s.setJob j).sync = s.sync ∧ (s.setJob j).devRel = s.devRel ∧ (s.setJob j).agentColour = s.agentColour ∧
    (s.setJob j).fences = s.fences ∧ (s.setJob j).icache = s.icache ∧ (s.setJob j).parties = s.parties ∧
    (s.setJob j).cores = s.cores ∧ (s.setJob j).dies = s.dies ∧
    (s.setJob j).jobs = (s.jobs.map fun x => if x.id = j.id then j else x) ∧ (s.setJob j).endedJobs = s.endedJobs ∧
    (s.setJob j).pages = s.pages ∧ (s.setJob j).pins = s.pins ∧ (s.setJob j).asks = s.asks ∧ (s.setJob j).quota = s.quota ∧
    (s.setJob j).accesses = s.accesses ∧ (s.setJob j).invals = s.invals ∧ (s.setJob j).snap = s.snap ∧
    (s.setJob j).ports = s.ports ∧ (s.setJob j).routes = s.routes ∧ (s.setJob j).device = s.device ∧
    (s.setJob j).peerOut = s.peerOut ∧ (s.setJob j).peerSeq = s.peerSeq ∧ (s.setJob j).peerSeen = s.peerSeen ∧
    (s.setJob j).peerKnow = s.peerKnow ∧ (s.setJob j).revMap = s.revMap ∧ (s.setJob j).passDone = s.passDone ∧
    (s.setJob j).passRunning = s.passRunning ∧ (s.setJob j).passKnow = s.passKnow ∧ (s.setJob j).colours = s.colours ∧
    (s.setJob j).posts = s.posts ∧ (s.setJob j).ringDone = s.ringDone ∧ (s.setJob j).ringInt = s.ringInt ∧
    (s.setJob j).hostKnow = s.hostKnow ∧ (s.setJob j).msix = s.msix ∧ (s.setJob j).poolBytes = s.poolBytes ∧
    (s.setJob j).resFrames = s.resFrames ∧ (s.setJob j).cowFrames = s.cowFrames ∧ (s.setJob j).windows = s.windows ∧
    (s.setJob j).cards = s.cards ∧ (s.setJob j).gangs = s.gangs ∧ (s.setJob j).gangCtr = s.gangCtr ∧
    (s.setJob j).parts = s.parts ∧ (s.setJob j).queues = s.queues ∧ (s.setJob j).cmds = s.cmds ∧
    (s.setJob j).buckets = s.buckets ∧ (s.setJob j).moments = s.moments ∧ (s.setJob j).objects = s.objects ∧
    (s.setJob j).graphs = s.graphs ∧ (s.setJob j).launches = s.launches ∧ (s.setJob j).launchCtr = s.launchCtr ∧
    (s.setJob j).partyCtr = s.partyCtr ∧ (s.setJob j).offers = s.offers ∧ (s.setJob j).heldAt = s.heldAt ∧
    (s.setJob j).handleAt = s.handleAt ∧ (s.setJob j).mailbox = s.mailbox ∧ (s.setJob j).vecwin = s.vecwin ∧
    (s.setJob j).grants = s.grants ∧ (s.setJob j).keys = s.keys ∧ (s.setJob j).admits = s.admits ∧
    (s.setJob j).delgs = s.delgs ∧ (s.setJob j).delgWaits = s.delgWaits ∧ (s.setJob j).portKeys = s.portKeys ∧
    (s.setJob j).handles = s.handles ∧ (s.setJob j).plans = s.plans ∧ (s.setJob j).replays = s.replays ∧
    (s.setJob j).replayCtr = s.replayCtr ∧ (s.setJob j).bufUsed = s.bufUsed ∧ (s.setJob j).inbound = s.inbound ∧
    (s.setJob j).switches = s.switches ∧ (s.setJob j).wire = s.wire ∧ (s.setJob j).regions = s.regions ∧
    (s.setJob j).poolPorts = s.poolPorts ∧ (s.setJob j).enmap = s.enmap ∧ (s.setJob j).fw = s.fw ∧
    (s.setJob j).master = s.master := by
  and_intros <;> rfl

@[simp] theorem State.setLaunch_fields (s : State) (x : Launch) :
    (s.setLaunch x).agenda = s.agenda ∧ (s.setLaunch x).tick = s.tick ∧ (s.setLaunch x).fresh = s.fresh ∧
    (s.setLaunch x).issuing = s.issuing ∧ (s.setLaunch x).timer = s.timer ∧ (s.setLaunch x).mem = s.mem ∧
    (s.setLaunch x).tags = s.tags ∧ (s.setLaunch x).tagPages = s.tagPages ∧ (s.setLaunch x).poison = s.poison ∧
    (s.setLaunch x).race = s.race ∧ (s.setLaunch x).sync = s.sync ∧ (s.setLaunch x).devRel = s.devRel ∧
    (s.setLaunch x).agentColour = s.agentColour ∧ (s.setLaunch x).fences = s.fences ∧ (s.setLaunch x).icache = s.icache ∧
    (s.setLaunch x).parties = s.parties ∧ (s.setLaunch x).cores = s.cores ∧ (s.setLaunch x).dies = s.dies ∧
    (s.setLaunch x).jobs = s.jobs ∧ (s.setLaunch x).endedJobs = s.endedJobs ∧ (s.setLaunch x).pages = s.pages ∧
    (s.setLaunch x).pins = s.pins ∧ (s.setLaunch x).asks = s.asks ∧ (s.setLaunch x).quota = s.quota ∧
    (s.setLaunch x).accesses = s.accesses ∧ (s.setLaunch x).invals = s.invals ∧ (s.setLaunch x).snap = s.snap ∧
    (s.setLaunch x).ports = s.ports ∧ (s.setLaunch x).routes = s.routes ∧ (s.setLaunch x).device = s.device ∧
    (s.setLaunch x).peerOut = s.peerOut ∧ (s.setLaunch x).peerSeq = s.peerSeq ∧ (s.setLaunch x).peerSeen = s.peerSeen ∧
    (s.setLaunch x).peerKnow = s.peerKnow ∧ (s.setLaunch x).revMap = s.revMap ∧ (s.setLaunch x).passDone = s.passDone ∧
    (s.setLaunch x).passRunning = s.passRunning ∧ (s.setLaunch x).passKnow = s.passKnow ∧
    (s.setLaunch x).colours = s.colours ∧ (s.setLaunch x).posts = s.posts ∧ (s.setLaunch x).ringDone = s.ringDone ∧
    (s.setLaunch x).ringInt = s.ringInt ∧ (s.setLaunch x).hostKnow = s.hostKnow ∧ (s.setLaunch x).msix = s.msix ∧
    (s.setLaunch x).poolBytes = s.poolBytes ∧ (s.setLaunch x).resFrames = s.resFrames ∧
    (s.setLaunch x).cowFrames = s.cowFrames ∧ (s.setLaunch x).windows = s.windows ∧ (s.setLaunch x).cards = s.cards ∧
    (s.setLaunch x).gangs = s.gangs ∧ (s.setLaunch x).gangCtr = s.gangCtr ∧ (s.setLaunch x).parts = s.parts ∧
    (s.setLaunch x).queues = s.queues ∧ (s.setLaunch x).cmds = s.cmds ∧ (s.setLaunch x).buckets = s.buckets ∧
    (s.setLaunch x).moments = s.moments ∧ (s.setLaunch x).objects = s.objects ∧ (s.setLaunch x).graphs = s.graphs ∧
    (s.setLaunch x).launches = (s.launches.map fun y => if y.id = x.id then x else y) ∧
    (s.setLaunch x).launchCtr = s.launchCtr ∧ (s.setLaunch x).partyCtr = s.partyCtr ∧ (s.setLaunch x).offers = s.offers ∧
    (s.setLaunch x).heldAt = s.heldAt ∧ (s.setLaunch x).handleAt = s.handleAt ∧ (s.setLaunch x).mailbox = s.mailbox ∧
    (s.setLaunch x).vecwin = s.vecwin ∧ (s.setLaunch x).grants = s.grants ∧ (s.setLaunch x).keys = s.keys ∧
    (s.setLaunch x).admits = s.admits ∧ (s.setLaunch x).delgs = s.delgs ∧ (s.setLaunch x).delgWaits = s.delgWaits ∧
    (s.setLaunch x).portKeys = s.portKeys ∧ (s.setLaunch x).handles = s.handles ∧ (s.setLaunch x).plans = s.plans ∧
    (s.setLaunch x).replays = s.replays ∧ (s.setLaunch x).replayCtr = s.replayCtr ∧ (s.setLaunch x).bufUsed = s.bufUsed ∧
    (s.setLaunch x).inbound = s.inbound ∧ (s.setLaunch x).switches = s.switches ∧ (s.setLaunch x).wire = s.wire ∧
    (s.setLaunch x).regions = s.regions ∧ (s.setLaunch x).poolPorts = s.poolPorts ∧ (s.setLaunch x).enmap = s.enmap ∧
    (s.setLaunch x).fw = s.fw ∧ (s.setLaunch x).master = s.master := by
  and_intros <;> rfl

@[simp] theorem State.setObject_fields (s : State) (o : ObjRec) :
    (s.setObject o).agenda = s.agenda ∧ (s.setObject o).tick = s.tick ∧ (s.setObject o).fresh = s.fresh ∧
    (s.setObject o).issuing = s.issuing ∧ (s.setObject o).timer = s.timer ∧ (s.setObject o).mem = s.mem ∧
    (s.setObject o).tags = s.tags ∧ (s.setObject o).tagPages = s.tagPages ∧ (s.setObject o).poison = s.poison ∧
    (s.setObject o).race = s.race ∧ (s.setObject o).sync = s.sync ∧ (s.setObject o).devRel = s.devRel ∧
    (s.setObject o).agentColour = s.agentColour ∧ (s.setObject o).fences = s.fences ∧ (s.setObject o).icache = s.icache ∧
    (s.setObject o).parties = s.parties ∧ (s.setObject o).cores = s.cores ∧ (s.setObject o).dies = s.dies ∧
    (s.setObject o).jobs = s.jobs ∧ (s.setObject o).endedJobs = s.endedJobs ∧ (s.setObject o).pages = s.pages ∧
    (s.setObject o).pins = s.pins ∧ (s.setObject o).asks = s.asks ∧ (s.setObject o).quota = s.quota ∧
    (s.setObject o).accesses = s.accesses ∧ (s.setObject o).invals = s.invals ∧ (s.setObject o).snap = s.snap ∧
    (s.setObject o).ports = s.ports ∧ (s.setObject o).routes = s.routes ∧ (s.setObject o).device = s.device ∧
    (s.setObject o).peerOut = s.peerOut ∧ (s.setObject o).peerSeq = s.peerSeq ∧ (s.setObject o).peerSeen = s.peerSeen ∧
    (s.setObject o).peerKnow = s.peerKnow ∧ (s.setObject o).revMap = s.revMap ∧ (s.setObject o).passDone = s.passDone ∧
    (s.setObject o).passRunning = s.passRunning ∧ (s.setObject o).passKnow = s.passKnow ∧
    (s.setObject o).colours = s.colours ∧ (s.setObject o).posts = s.posts ∧ (s.setObject o).ringDone = s.ringDone ∧
    (s.setObject o).ringInt = s.ringInt ∧ (s.setObject o).hostKnow = s.hostKnow ∧ (s.setObject o).msix = s.msix ∧
    (s.setObject o).poolBytes = s.poolBytes ∧ (s.setObject o).resFrames = s.resFrames ∧
    (s.setObject o).cowFrames = s.cowFrames ∧ (s.setObject o).windows = s.windows ∧ (s.setObject o).cards = s.cards ∧
    (s.setObject o).gangs = s.gangs ∧ (s.setObject o).gangCtr = s.gangCtr ∧ (s.setObject o).parts = s.parts ∧
    (s.setObject o).queues = s.queues ∧ (s.setObject o).cmds = s.cmds ∧ (s.setObject o).buckets = s.buckets ∧
    (s.setObject o).moments = s.moments ∧
    (s.setObject o).objects = (s.objects.map fun x => if x.handle = o.handle then o else x) ∧
    (s.setObject o).graphs = s.graphs ∧ (s.setObject o).launches = s.launches ∧ (s.setObject o).launchCtr = s.launchCtr ∧
    (s.setObject o).partyCtr = s.partyCtr ∧ (s.setObject o).offers = s.offers ∧ (s.setObject o).heldAt = s.heldAt ∧
    (s.setObject o).handleAt = s.handleAt ∧ (s.setObject o).mailbox = s.mailbox ∧ (s.setObject o).vecwin = s.vecwin ∧
    (s.setObject o).grants = s.grants ∧ (s.setObject o).keys = s.keys ∧ (s.setObject o).admits = s.admits ∧
    (s.setObject o).delgs = s.delgs ∧ (s.setObject o).delgWaits = s.delgWaits ∧ (s.setObject o).portKeys = s.portKeys ∧
    (s.setObject o).handles = s.handles ∧ (s.setObject o).plans = s.plans ∧ (s.setObject o).replays = s.replays ∧
    (s.setObject o).replayCtr = s.replayCtr ∧ (s.setObject o).bufUsed = s.bufUsed ∧ (s.setObject o).inbound = s.inbound ∧
    (s.setObject o).switches = s.switches ∧ (s.setObject o).wire = s.wire ∧ (s.setObject o).regions = s.regions ∧
    (s.setObject o).poolPorts = s.poolPorts ∧ (s.setObject o).enmap = s.enmap ∧ (s.setObject o).fw = s.fw ∧
    (s.setObject o).master = s.master := by
  and_intros <;> rfl

@[simp] theorem State.setQueue_fields (s : State) (q : Nat) (r : QueueRec) :
    (s.setQueue q r).agenda = s.agenda ∧ (s.setQueue q r).tick = s.tick ∧ (s.setQueue q r).fresh = s.fresh ∧
    (s.setQueue q r).issuing = s.issuing ∧ (s.setQueue q r).timer = s.timer ∧ (s.setQueue q r).mem = s.mem ∧
    (s.setQueue q r).tags = s.tags ∧ (s.setQueue q r).tagPages = s.tagPages ∧ (s.setQueue q r).poison = s.poison ∧
    (s.setQueue q r).race = s.race ∧ (s.setQueue q r).sync = s.sync ∧ (s.setQueue q r).devRel = s.devRel ∧
    (s.setQueue q r).agentColour = s.agentColour ∧ (s.setQueue q r).fences = s.fences ∧ (s.setQueue q r).icache = s.icache ∧
    (s.setQueue q r).parties = s.parties ∧ (s.setQueue q r).cores = s.cores ∧ (s.setQueue q r).dies = s.dies ∧
    (s.setQueue q r).jobs = s.jobs ∧ (s.setQueue q r).endedJobs = s.endedJobs ∧ (s.setQueue q r).pages = s.pages ∧
    (s.setQueue q r).pins = s.pins ∧ (s.setQueue q r).asks = s.asks ∧ (s.setQueue q r).quota = s.quota ∧
    (s.setQueue q r).accesses = s.accesses ∧ (s.setQueue q r).invals = s.invals ∧ (s.setQueue q r).snap = s.snap ∧
    (s.setQueue q r).ports = s.ports ∧ (s.setQueue q r).routes = s.routes ∧ (s.setQueue q r).device = s.device ∧
    (s.setQueue q r).peerOut = s.peerOut ∧ (s.setQueue q r).peerSeq = s.peerSeq ∧ (s.setQueue q r).peerSeen = s.peerSeen ∧
    (s.setQueue q r).peerKnow = s.peerKnow ∧ (s.setQueue q r).revMap = s.revMap ∧ (s.setQueue q r).passDone = s.passDone ∧
    (s.setQueue q r).passRunning = s.passRunning ∧ (s.setQueue q r).passKnow = s.passKnow ∧
    (s.setQueue q r).colours = s.colours ∧ (s.setQueue q r).posts = s.posts ∧ (s.setQueue q r).ringDone = s.ringDone ∧
    (s.setQueue q r).ringInt = s.ringInt ∧ (s.setQueue q r).hostKnow = s.hostKnow ∧ (s.setQueue q r).msix = s.msix ∧
    (s.setQueue q r).poolBytes = s.poolBytes ∧ (s.setQueue q r).resFrames = s.resFrames ∧
    (s.setQueue q r).cowFrames = s.cowFrames ∧ (s.setQueue q r).windows = s.windows ∧ (s.setQueue q r).cards = s.cards ∧
    (s.setQueue q r).gangs = s.gangs ∧ (s.setQueue q r).gangCtr = s.gangCtr ∧ (s.setQueue q r).parts = s.parts ∧
    (s.setQueue q r).queues = (SMap.set QueueRec.zero s.queues q r) ∧ (s.setQueue q r).cmds = s.cmds ∧
    (s.setQueue q r).buckets = s.buckets ∧ (s.setQueue q r).moments = s.moments ∧ (s.setQueue q r).objects = s.objects ∧
    (s.setQueue q r).graphs = s.graphs ∧ (s.setQueue q r).launches = s.launches ∧ (s.setQueue q r).launchCtr = s.launchCtr ∧
    (s.setQueue q r).partyCtr = s.partyCtr ∧ (s.setQueue q r).offers = s.offers ∧ (s.setQueue q r).heldAt = s.heldAt ∧
    (s.setQueue q r).handleAt = s.handleAt ∧ (s.setQueue q r).mailbox = s.mailbox ∧ (s.setQueue q r).vecwin = s.vecwin ∧
    (s.setQueue q r).grants = s.grants ∧ (s.setQueue q r).keys = s.keys ∧ (s.setQueue q r).admits = s.admits ∧
    (s.setQueue q r).delgs = s.delgs ∧ (s.setQueue q r).delgWaits = s.delgWaits ∧ (s.setQueue q r).portKeys = s.portKeys ∧
    (s.setQueue q r).handles = s.handles ∧ (s.setQueue q r).plans = s.plans ∧ (s.setQueue q r).replays = s.replays ∧
    (s.setQueue q r).replayCtr = s.replayCtr ∧ (s.setQueue q r).bufUsed = s.bufUsed ∧ (s.setQueue q r).inbound = s.inbound ∧
    (s.setQueue q r).switches = s.switches ∧ (s.setQueue q r).wire = s.wire ∧ (s.setQueue q r).regions = s.regions ∧
    (s.setQueue q r).poolPorts = s.poolPorts ∧ (s.setQueue q r).enmap = s.enmap ∧ (s.setQueue q r).fw = s.fw ∧
    (s.setQueue q r).master = s.master := by
  and_intros <;> rfl

@[simp] theorem State.setPort_fields (s : State) (n : Nat) (r : PortRec) :
    (s.setPort n r).agenda = s.agenda ∧ (s.setPort n r).tick = s.tick ∧ (s.setPort n r).fresh = s.fresh ∧
    (s.setPort n r).issuing = s.issuing ∧ (s.setPort n r).timer = s.timer ∧ (s.setPort n r).mem = s.mem ∧
    (s.setPort n r).tags = s.tags ∧ (s.setPort n r).tagPages = s.tagPages ∧ (s.setPort n r).poison = s.poison ∧
    (s.setPort n r).race = s.race ∧ (s.setPort n r).sync = s.sync ∧ (s.setPort n r).devRel = s.devRel ∧
    (s.setPort n r).agentColour = s.agentColour ∧ (s.setPort n r).fences = s.fences ∧ (s.setPort n r).icache = s.icache ∧
    (s.setPort n r).parties = s.parties ∧ (s.setPort n r).cores = s.cores ∧ (s.setPort n r).dies = s.dies ∧
    (s.setPort n r).jobs = s.jobs ∧ (s.setPort n r).endedJobs = s.endedJobs ∧ (s.setPort n r).pages = s.pages ∧
    (s.setPort n r).pins = s.pins ∧ (s.setPort n r).asks = s.asks ∧ (s.setPort n r).quota = s.quota ∧
    (s.setPort n r).accesses = s.accesses ∧ (s.setPort n r).invals = s.invals ∧ (s.setPort n r).snap = s.snap ∧
    (s.setPort n r).ports = (SMap.set PortRec.zero s.ports n r) ∧ (s.setPort n r).routes = s.routes ∧
    (s.setPort n r).device = s.device ∧ (s.setPort n r).peerOut = s.peerOut ∧ (s.setPort n r).peerSeq = s.peerSeq ∧
    (s.setPort n r).peerSeen = s.peerSeen ∧ (s.setPort n r).peerKnow = s.peerKnow ∧ (s.setPort n r).revMap = s.revMap ∧
    (s.setPort n r).passDone = s.passDone ∧ (s.setPort n r).passRunning = s.passRunning ∧
    (s.setPort n r).passKnow = s.passKnow ∧ (s.setPort n r).colours = s.colours ∧ (s.setPort n r).posts = s.posts ∧
    (s.setPort n r).ringDone = s.ringDone ∧ (s.setPort n r).ringInt = s.ringInt ∧ (s.setPort n r).hostKnow = s.hostKnow ∧
    (s.setPort n r).msix = s.msix ∧ (s.setPort n r).poolBytes = s.poolBytes ∧ (s.setPort n r).resFrames = s.resFrames ∧
    (s.setPort n r).cowFrames = s.cowFrames ∧ (s.setPort n r).windows = s.windows ∧ (s.setPort n r).cards = s.cards ∧
    (s.setPort n r).gangs = s.gangs ∧ (s.setPort n r).gangCtr = s.gangCtr ∧ (s.setPort n r).parts = s.parts ∧
    (s.setPort n r).queues = s.queues ∧ (s.setPort n r).cmds = s.cmds ∧ (s.setPort n r).buckets = s.buckets ∧
    (s.setPort n r).moments = s.moments ∧ (s.setPort n r).objects = s.objects ∧ (s.setPort n r).graphs = s.graphs ∧
    (s.setPort n r).launches = s.launches ∧ (s.setPort n r).launchCtr = s.launchCtr ∧ (s.setPort n r).partyCtr = s.partyCtr ∧
    (s.setPort n r).offers = s.offers ∧ (s.setPort n r).heldAt = s.heldAt ∧ (s.setPort n r).handleAt = s.handleAt ∧
    (s.setPort n r).mailbox = s.mailbox ∧ (s.setPort n r).vecwin = s.vecwin ∧ (s.setPort n r).grants = s.grants ∧
    (s.setPort n r).keys = s.keys ∧ (s.setPort n r).admits = s.admits ∧ (s.setPort n r).delgs = s.delgs ∧
    (s.setPort n r).delgWaits = s.delgWaits ∧ (s.setPort n r).portKeys = s.portKeys ∧ (s.setPort n r).handles = s.handles ∧
    (s.setPort n r).plans = s.plans ∧ (s.setPort n r).replays = s.replays ∧ (s.setPort n r).replayCtr = s.replayCtr ∧
    (s.setPort n r).bufUsed = s.bufUsed ∧ (s.setPort n r).inbound = s.inbound ∧ (s.setPort n r).switches = s.switches ∧
    (s.setPort n r).wire = s.wire ∧ (s.setPort n r).regions = s.regions ∧ (s.setPort n r).poolPorts = s.poolPorts ∧
    (s.setPort n r).enmap = s.enmap ∧ (s.setPort n r).fw = s.fw ∧ (s.setPort n r).master = s.master := by
  and_intros <;> rfl

@[simp] theorem State.setWait_fields (s : State) (w : DelgWait) :
    (s.setWait w).agenda = s.agenda ∧ (s.setWait w).tick = s.tick ∧ (s.setWait w).fresh = s.fresh ∧
    (s.setWait w).issuing = s.issuing ∧ (s.setWait w).timer = s.timer ∧ (s.setWait w).mem = s.mem ∧
    (s.setWait w).tags = s.tags ∧ (s.setWait w).tagPages = s.tagPages ∧ (s.setWait w).poison = s.poison ∧
    (s.setWait w).race = s.race ∧ (s.setWait w).sync = s.sync ∧ (s.setWait w).devRel = s.devRel ∧
    (s.setWait w).agentColour = s.agentColour ∧ (s.setWait w).fences = s.fences ∧ (s.setWait w).icache = s.icache ∧
    (s.setWait w).parties = s.parties ∧ (s.setWait w).cores = s.cores ∧ (s.setWait w).dies = s.dies ∧
    (s.setWait w).jobs = s.jobs ∧ (s.setWait w).endedJobs = s.endedJobs ∧ (s.setWait w).pages = s.pages ∧
    (s.setWait w).pins = s.pins ∧ (s.setWait w).asks = s.asks ∧ (s.setWait w).quota = s.quota ∧
    (s.setWait w).accesses = s.accesses ∧ (s.setWait w).invals = s.invals ∧ (s.setWait w).snap = s.snap ∧
    (s.setWait w).ports = s.ports ∧ (s.setWait w).routes = s.routes ∧ (s.setWait w).device = s.device ∧
    (s.setWait w).peerOut = s.peerOut ∧ (s.setWait w).peerSeq = s.peerSeq ∧ (s.setWait w).peerSeen = s.peerSeen ∧
    (s.setWait w).peerKnow = s.peerKnow ∧ (s.setWait w).revMap = s.revMap ∧ (s.setWait w).passDone = s.passDone ∧
    (s.setWait w).passRunning = s.passRunning ∧ (s.setWait w).passKnow = s.passKnow ∧ (s.setWait w).colours = s.colours ∧
    (s.setWait w).posts = s.posts ∧ (s.setWait w).ringDone = s.ringDone ∧ (s.setWait w).ringInt = s.ringInt ∧
    (s.setWait w).hostKnow = s.hostKnow ∧ (s.setWait w).msix = s.msix ∧ (s.setWait w).poolBytes = s.poolBytes ∧
    (s.setWait w).resFrames = s.resFrames ∧ (s.setWait w).cowFrames = s.cowFrames ∧ (s.setWait w).windows = s.windows ∧
    (s.setWait w).cards = s.cards ∧ (s.setWait w).gangs = s.gangs ∧ (s.setWait w).gangCtr = s.gangCtr ∧
    (s.setWait w).parts = s.parts ∧ (s.setWait w).queues = s.queues ∧ (s.setWait w).cmds = s.cmds ∧
    (s.setWait w).buckets = s.buckets ∧ (s.setWait w).moments = s.moments ∧ (s.setWait w).objects = s.objects ∧
    (s.setWait w).graphs = s.graphs ∧ (s.setWait w).launches = s.launches ∧ (s.setWait w).launchCtr = s.launchCtr ∧
    (s.setWait w).partyCtr = s.partyCtr ∧ (s.setWait w).offers = s.offers ∧ (s.setWait w).heldAt = s.heldAt ∧
    (s.setWait w).handleAt = s.handleAt ∧ (s.setWait w).mailbox = s.mailbox ∧ (s.setWait w).vecwin = s.vecwin ∧
    (s.setWait w).grants = s.grants ∧ (s.setWait w).keys = s.keys ∧ (s.setWait w).admits = s.admits ∧
    (s.setWait w).delgs = s.delgs ∧ (s.setWait w).delgWaits = (s.delgWaits.map fun x => if x.id = w.id then w else x) ∧
    (s.setWait w).portKeys = s.portKeys ∧ (s.setWait w).handles = s.handles ∧ (s.setWait w).plans = s.plans ∧
    (s.setWait w).replays = s.replays ∧ (s.setWait w).replayCtr = s.replayCtr ∧ (s.setWait w).bufUsed = s.bufUsed ∧
    (s.setWait w).inbound = s.inbound ∧ (s.setWait w).switches = s.switches ∧ (s.setWait w).wire = s.wire ∧
    (s.setWait w).regions = s.regions ∧ (s.setWait w).poolPorts = s.poolPorts ∧ (s.setWait w).enmap = s.enmap ∧
    (s.setWait w).fw = s.fw ∧ (s.setWait w).master = s.master := by
  and_intros <;> rfl

@[simp] theorem State.withMail_fields (s : State) (f : Mailbox → Mailbox) :
    (s.withMail f).agenda = s.agenda ∧ (s.withMail f).tick = s.tick ∧ (s.withMail f).fresh = s.fresh ∧
    (s.withMail f).issuing = s.issuing ∧ (s.withMail f).timer = s.timer ∧ (s.withMail f).mem = s.mem ∧
    (s.withMail f).tags = s.tags ∧ (s.withMail f).tagPages = s.tagPages ∧ (s.withMail f).poison = s.poison ∧
    (s.withMail f).race = s.race ∧ (s.withMail f).sync = s.sync ∧ (s.withMail f).devRel = s.devRel ∧
    (s.withMail f).agentColour = s.agentColour ∧ (s.withMail f).fences = s.fences ∧ (s.withMail f).icache = s.icache ∧
    (s.withMail f).parties = s.parties ∧ (s.withMail f).cores = s.cores ∧ (s.withMail f).dies = s.dies ∧
    (s.withMail f).jobs = s.jobs ∧ (s.withMail f).endedJobs = s.endedJobs ∧ (s.withMail f).pages = s.pages ∧
    (s.withMail f).pins = s.pins ∧ (s.withMail f).asks = s.asks ∧ (s.withMail f).quota = s.quota ∧
    (s.withMail f).accesses = s.accesses ∧ (s.withMail f).invals = s.invals ∧ (s.withMail f).snap = s.snap ∧
    (s.withMail f).ports = s.ports ∧ (s.withMail f).routes = s.routes ∧ (s.withMail f).device = s.device ∧
    (s.withMail f).peerOut = s.peerOut ∧ (s.withMail f).peerSeq = s.peerSeq ∧ (s.withMail f).peerSeen = s.peerSeen ∧
    (s.withMail f).peerKnow = s.peerKnow ∧ (s.withMail f).revMap = s.revMap ∧ (s.withMail f).passDone = s.passDone ∧
    (s.withMail f).passRunning = s.passRunning ∧ (s.withMail f).passKnow = s.passKnow ∧ (s.withMail f).colours = s.colours ∧
    (s.withMail f).posts = s.posts ∧ (s.withMail f).ringDone = s.ringDone ∧ (s.withMail f).ringInt = s.ringInt ∧
    (s.withMail f).hostKnow = s.hostKnow ∧ (s.withMail f).msix = s.msix ∧ (s.withMail f).poolBytes = s.poolBytes ∧
    (s.withMail f).resFrames = s.resFrames ∧ (s.withMail f).cowFrames = s.cowFrames ∧ (s.withMail f).windows = s.windows ∧
    (s.withMail f).cards = s.cards ∧ (s.withMail f).gangs = s.gangs ∧ (s.withMail f).gangCtr = s.gangCtr ∧
    (s.withMail f).parts = s.parts ∧ (s.withMail f).queues = s.queues ∧ (s.withMail f).cmds = s.cmds ∧
    (s.withMail f).buckets = s.buckets ∧ (s.withMail f).moments = s.moments ∧ (s.withMail f).objects = s.objects ∧
    (s.withMail f).graphs = s.graphs ∧ (s.withMail f).launches = s.launches ∧ (s.withMail f).launchCtr = s.launchCtr ∧
    (s.withMail f).partyCtr = s.partyCtr ∧ (s.withMail f).offers = s.offers ∧ (s.withMail f).heldAt = s.heldAt ∧
    (s.withMail f).handleAt = s.handleAt ∧ (s.withMail f).mailbox = (f s.mailbox) ∧ (s.withMail f).vecwin = s.vecwin ∧
    (s.withMail f).grants = s.grants ∧ (s.withMail f).keys = s.keys ∧ (s.withMail f).admits = s.admits ∧
    (s.withMail f).delgs = s.delgs ∧ (s.withMail f).delgWaits = s.delgWaits ∧ (s.withMail f).portKeys = s.portKeys ∧
    (s.withMail f).handles = s.handles ∧ (s.withMail f).plans = s.plans ∧ (s.withMail f).replays = s.replays ∧
    (s.withMail f).replayCtr = s.replayCtr ∧ (s.withMail f).bufUsed = s.bufUsed ∧ (s.withMail f).inbound = s.inbound ∧
    (s.withMail f).switches = s.switches ∧ (s.withMail f).wire = s.wire ∧ (s.withMail f).regions = s.regions ∧
    (s.withMail f).poolPorts = s.poolPorts ∧ (s.withMail f).enmap = s.enmap ∧ (s.withMail f).fw = s.fw ∧
    (s.withMail f).master = s.master := by
  and_intros <;> rfl

@[simp] theorem State.withFw_fields (s : State) (f : Firmware → Firmware) :
    (s.withFw f).agenda = s.agenda ∧ (s.withFw f).tick = s.tick ∧ (s.withFw f).fresh = s.fresh ∧
    (s.withFw f).issuing = s.issuing ∧ (s.withFw f).timer = s.timer ∧ (s.withFw f).mem = s.mem ∧ (s.withFw f).tags = s.tags ∧
    (s.withFw f).tagPages = s.tagPages ∧ (s.withFw f).poison = s.poison ∧ (s.withFw f).race = s.race ∧
    (s.withFw f).sync = s.sync ∧ (s.withFw f).devRel = s.devRel ∧ (s.withFw f).agentColour = s.agentColour ∧
    (s.withFw f).fences = s.fences ∧ (s.withFw f).icache = s.icache ∧ (s.withFw f).parties = s.parties ∧
    (s.withFw f).cores = s.cores ∧ (s.withFw f).dies = s.dies ∧ (s.withFw f).jobs = s.jobs ∧
    (s.withFw f).endedJobs = s.endedJobs ∧ (s.withFw f).pages = s.pages ∧ (s.withFw f).pins = s.pins ∧
    (s.withFw f).asks = s.asks ∧ (s.withFw f).quota = s.quota ∧ (s.withFw f).accesses = s.accesses ∧
    (s.withFw f).invals = s.invals ∧ (s.withFw f).snap = s.snap ∧ (s.withFw f).ports = s.ports ∧
    (s.withFw f).routes = s.routes ∧ (s.withFw f).device = s.device ∧ (s.withFw f).peerOut = s.peerOut ∧
    (s.withFw f).peerSeq = s.peerSeq ∧ (s.withFw f).peerSeen = s.peerSeen ∧ (s.withFw f).peerKnow = s.peerKnow ∧
    (s.withFw f).revMap = s.revMap ∧ (s.withFw f).passDone = s.passDone ∧ (s.withFw f).passRunning = s.passRunning ∧
    (s.withFw f).passKnow = s.passKnow ∧ (s.withFw f).colours = s.colours ∧ (s.withFw f).posts = s.posts ∧
    (s.withFw f).ringDone = s.ringDone ∧ (s.withFw f).ringInt = s.ringInt ∧ (s.withFw f).hostKnow = s.hostKnow ∧
    (s.withFw f).msix = s.msix ∧ (s.withFw f).poolBytes = s.poolBytes ∧ (s.withFw f).resFrames = s.resFrames ∧
    (s.withFw f).cowFrames = s.cowFrames ∧ (s.withFw f).windows = s.windows ∧ (s.withFw f).cards = s.cards ∧
    (s.withFw f).gangs = s.gangs ∧ (s.withFw f).gangCtr = s.gangCtr ∧ (s.withFw f).parts = s.parts ∧
    (s.withFw f).queues = s.queues ∧ (s.withFw f).cmds = s.cmds ∧ (s.withFw f).buckets = s.buckets ∧
    (s.withFw f).moments = s.moments ∧ (s.withFw f).objects = s.objects ∧ (s.withFw f).graphs = s.graphs ∧
    (s.withFw f).launches = s.launches ∧ (s.withFw f).launchCtr = s.launchCtr ∧ (s.withFw f).partyCtr = s.partyCtr ∧
    (s.withFw f).offers = s.offers ∧ (s.withFw f).heldAt = s.heldAt ∧ (s.withFw f).handleAt = s.handleAt ∧
    (s.withFw f).mailbox = s.mailbox ∧ (s.withFw f).vecwin = s.vecwin ∧ (s.withFw f).grants = s.grants ∧
    (s.withFw f).keys = s.keys ∧ (s.withFw f).admits = s.admits ∧ (s.withFw f).delgs = s.delgs ∧
    (s.withFw f).delgWaits = s.delgWaits ∧ (s.withFw f).portKeys = s.portKeys ∧ (s.withFw f).handles = s.handles ∧
    (s.withFw f).plans = s.plans ∧ (s.withFw f).replays = s.replays ∧ (s.withFw f).replayCtr = s.replayCtr ∧
    (s.withFw f).bufUsed = s.bufUsed ∧ (s.withFw f).inbound = s.inbound ∧ (s.withFw f).switches = s.switches ∧
    (s.withFw f).wire = s.wire ∧ (s.withFw f).regions = s.regions ∧ (s.withFw f).poolPorts = s.poolPorts ∧
    (s.withFw f).enmap = s.enmap ∧ (s.withFw f).fw = (f s.fw) ∧ (s.withFw f).master = s.master := by
  and_intros <;> rfl

@[simp] theorem State.postLater_fields (s : State) (q : Nat) (x : Record) (k : Know) :
    (s.postLater q x k).agenda = s.agenda ∧ (s.postLater q x k).tick = s.tick ∧ (s.postLater q x k).fresh = s.fresh ∧
    (s.postLater q x k).issuing = s.issuing ∧ (s.postLater q x k).timer = s.timer ∧ (s.postLater q x k).mem = s.mem ∧
    (s.postLater q x k).tags = s.tags ∧ (s.postLater q x k).tagPages = s.tagPages ∧ (s.postLater q x k).poison = s.poison ∧
    (s.postLater q x k).race = s.race ∧ (s.postLater q x k).sync = s.sync ∧ (s.postLater q x k).devRel = s.devRel ∧
    (s.postLater q x k).agentColour = s.agentColour ∧ (s.postLater q x k).fences = s.fences ∧
    (s.postLater q x k).icache = s.icache ∧ (s.postLater q x k).parties = s.parties ∧ (s.postLater q x k).cores = s.cores ∧
    (s.postLater q x k).dies = s.dies ∧ (s.postLater q x k).jobs = s.jobs ∧ (s.postLater q x k).endedJobs = s.endedJobs ∧
    (s.postLater q x k).pages = s.pages ∧ (s.postLater q x k).pins = s.pins ∧ (s.postLater q x k).asks = s.asks ∧
    (s.postLater q x k).quota = s.quota ∧ (s.postLater q x k).accesses = s.accesses ∧ (s.postLater q x k).invals = s.invals ∧
    (s.postLater q x k).snap = s.snap ∧ (s.postLater q x k).ports = s.ports ∧ (s.postLater q x k).routes = s.routes ∧
    (s.postLater q x k).device = s.device ∧ (s.postLater q x k).peerOut = s.peerOut ∧
    (s.postLater q x k).peerSeq = s.peerSeq ∧ (s.postLater q x k).peerSeen = s.peerSeen ∧
    (s.postLater q x k).peerKnow = s.peerKnow ∧ (s.postLater q x k).revMap = s.revMap ∧
    (s.postLater q x k).passDone = s.passDone ∧ (s.postLater q x k).passRunning = s.passRunning ∧
    (s.postLater q x k).passKnow = s.passKnow ∧ (s.postLater q x k).colours = s.colours ∧
    (s.postLater q x k).posts = (s.posts ++ [⟨.queue q, x, k, []⟩]) ∧ (s.postLater q x k).ringDone = s.ringDone ∧
    (s.postLater q x k).ringInt = s.ringInt ∧ (s.postLater q x k).hostKnow = s.hostKnow ∧ (s.postLater q x k).msix = s.msix ∧
    (s.postLater q x k).poolBytes = s.poolBytes ∧ (s.postLater q x k).resFrames = s.resFrames ∧
    (s.postLater q x k).cowFrames = s.cowFrames ∧ (s.postLater q x k).windows = s.windows ∧
    (s.postLater q x k).cards = s.cards ∧ (s.postLater q x k).gangs = s.gangs ∧ (s.postLater q x k).gangCtr = s.gangCtr ∧
    (s.postLater q x k).parts = s.parts ∧ (s.postLater q x k).queues = s.queues ∧ (s.postLater q x k).cmds = s.cmds ∧
    (s.postLater q x k).buckets = s.buckets ∧ (s.postLater q x k).moments = s.moments ∧
    (s.postLater q x k).objects = s.objects ∧ (s.postLater q x k).graphs = s.graphs ∧
    (s.postLater q x k).launches = s.launches ∧ (s.postLater q x k).launchCtr = s.launchCtr ∧
    (s.postLater q x k).partyCtr = s.partyCtr ∧ (s.postLater q x k).offers = s.offers ∧
    (s.postLater q x k).heldAt = s.heldAt ∧ (s.postLater q x k).handleAt = s.handleAt ∧
    (s.postLater q x k).mailbox = s.mailbox ∧ (s.postLater q x k).vecwin = s.vecwin ∧ (s.postLater q x k).grants = s.grants ∧
    (s.postLater q x k).keys = s.keys ∧ (s.postLater q x k).admits = s.admits ∧ (s.postLater q x k).delgs = s.delgs ∧
    (s.postLater q x k).delgWaits = s.delgWaits ∧ (s.postLater q x k).portKeys = s.portKeys ∧
    (s.postLater q x k).handles = s.handles ∧ (s.postLater q x k).plans = s.plans ∧ (s.postLater q x k).replays = s.replays ∧
    (s.postLater q x k).replayCtr = s.replayCtr ∧ (s.postLater q x k).bufUsed = s.bufUsed ∧
    (s.postLater q x k).inbound = s.inbound ∧ (s.postLater q x k).switches = s.switches ∧ (s.postLater q x k).wire = s.wire ∧
    (s.postLater q x k).regions = s.regions ∧ (s.postLater q x k).poolPorts = s.poolPorts ∧
    (s.postLater q x k).enmap = s.enmap ∧ (s.postLater q x k).fw = s.fw ∧ (s.postLater q x k).master = s.master := by
  and_intros <;> rfl

@[simp] theorem State.addEntry_fields (s : State) (range : Option (Nat × Nat)) (colour : Nat) :
    (s.addEntry range colour).agenda = s.agenda ∧ (s.addEntry range colour).tick = s.tick ∧
    (s.addEntry range colour).fresh = s.fresh ∧ (s.addEntry range colour).issuing = s.issuing ∧
    (s.addEntry range colour).timer = s.timer ∧ (s.addEntry range colour).mem = s.mem ∧
    (s.addEntry range colour).tags = s.tags ∧ (s.addEntry range colour).tagPages = s.tagPages ∧
    (s.addEntry range colour).poison = s.poison ∧ (s.addEntry range colour).race = s.race ∧
    (s.addEntry range colour).sync = s.sync ∧ (s.addEntry range colour).devRel = s.devRel ∧
    (s.addEntry range colour).agentColour = s.agentColour ∧ (s.addEntry range colour).fences = s.fences ∧
    (s.addEntry range colour).icache = s.icache ∧ (s.addEntry range colour).parties = s.parties ∧
    (s.addEntry range colour).cores = s.cores ∧ (s.addEntry range colour).dies = s.dies ∧
    (s.addEntry range colour).jobs = s.jobs ∧ (s.addEntry range colour).endedJobs = s.endedJobs ∧
    (s.addEntry range colour).pages = s.pages ∧ (s.addEntry range colour).pins = s.pins ∧
    (s.addEntry range colour).asks = s.asks ∧ (s.addEntry range colour).quota = s.quota ∧
    (s.addEntry range colour).accesses = s.accesses ∧ (s.addEntry range colour).invals = s.invals ∧
    (s.addEntry range colour).snap = s.snap ∧ (s.addEntry range colour).ports = s.ports ∧
    (s.addEntry range colour).routes = s.routes ∧ (s.addEntry range colour).device = s.device ∧
    (s.addEntry range colour).peerOut = s.peerOut ∧ (s.addEntry range colour).peerSeq = s.peerSeq ∧
    (s.addEntry range colour).peerSeen = s.peerSeen ∧ (s.addEntry range colour).peerKnow = s.peerKnow ∧
    (s.addEntry range colour).revMap = (s.revMap ++ [⟨range, colour, s.nextPass⟩]) ∧
    (s.addEntry range colour).passDone = s.passDone ∧ (s.addEntry range colour).passRunning = s.passRunning ∧
    (s.addEntry range colour).passKnow = s.passKnow ∧ (s.addEntry range colour).colours = s.colours ∧
    (s.addEntry range colour).posts = s.posts ∧ (s.addEntry range colour).ringDone = s.ringDone ∧
    (s.addEntry range colour).ringInt = s.ringInt ∧ (s.addEntry range colour).hostKnow = s.hostKnow ∧
    (s.addEntry range colour).msix = s.msix ∧ (s.addEntry range colour).poolBytes = s.poolBytes ∧
    (s.addEntry range colour).resFrames = s.resFrames ∧ (s.addEntry range colour).cowFrames = s.cowFrames ∧
    (s.addEntry range colour).windows = s.windows ∧ (s.addEntry range colour).cards = s.cards ∧
    (s.addEntry range colour).gangs = s.gangs ∧ (s.addEntry range colour).gangCtr = s.gangCtr ∧
    (s.addEntry range colour).parts = s.parts ∧ (s.addEntry range colour).queues = s.queues ∧
    (s.addEntry range colour).cmds = s.cmds ∧ (s.addEntry range colour).buckets = s.buckets ∧
    (s.addEntry range colour).moments = s.moments ∧ (s.addEntry range colour).objects = s.objects ∧
    (s.addEntry range colour).graphs = s.graphs ∧ (s.addEntry range colour).launches = s.launches ∧
    (s.addEntry range colour).launchCtr = s.launchCtr ∧ (s.addEntry range colour).partyCtr = s.partyCtr ∧
    (s.addEntry range colour).offers = s.offers ∧ (s.addEntry range colour).heldAt = s.heldAt ∧
    (s.addEntry range colour).handleAt = s.handleAt ∧ (s.addEntry range colour).mailbox = s.mailbox ∧
    (s.addEntry range colour).vecwin = s.vecwin ∧ (s.addEntry range colour).grants = s.grants ∧
    (s.addEntry range colour).keys = s.keys ∧ (s.addEntry range colour).admits = s.admits ∧
    (s.addEntry range colour).delgs = s.delgs ∧ (s.addEntry range colour).delgWaits = s.delgWaits ∧
    (s.addEntry range colour).portKeys = s.portKeys ∧ (s.addEntry range colour).handles = s.handles ∧
    (s.addEntry range colour).plans = s.plans ∧ (s.addEntry range colour).replays = s.replays ∧
    (s.addEntry range colour).replayCtr = s.replayCtr ∧ (s.addEntry range colour).bufUsed = s.bufUsed ∧
    (s.addEntry range colour).inbound = s.inbound ∧ (s.addEntry range colour).switches = s.switches ∧
    (s.addEntry range colour).wire = s.wire ∧ (s.addEntry range colour).regions = s.regions ∧
    (s.addEntry range colour).poolPorts = s.poolPorts ∧ (s.addEntry range colour).enmap = s.enmap ∧
    (s.addEntry range colour).fw = s.fw ∧ (s.addEntry range colour).master = s.master := by
  and_intros <;> rfl

/-! ### The issuing rope -/

@[simp] theorem Ctx.put_fields (c : Ctx) (r : Rope) :
    (c.put r).agenda = c.s.agenda ∧ (c.put r).tick = c.s.tick ∧ (c.put r).fresh = c.s.fresh ∧
    (c.put r).issuing = c.s.issuing ∧ (c.put r).timer = c.s.timer ∧ (c.put r).mem = c.s.mem ∧ (c.put r).tags = c.s.tags ∧
    (c.put r).tagPages = c.s.tagPages ∧ (c.put r).poison = c.s.poison ∧ (c.put r).race = c.s.race ∧
    (c.put r).sync = c.s.sync ∧ (c.put r).devRel = c.s.devRel ∧ (c.put r).agentColour = c.s.agentColour ∧
    (c.put r).fences = c.s.fences ∧ (c.put r).icache = c.s.icache ∧
    (c.put r).parties = (c.s.parties.map fun q => if q.uid = c.party.uid then c.party.setRope c.k r else q) ∧
    (c.put r).cores = c.s.cores ∧ (c.put r).dies = c.s.dies ∧ (c.put r).jobs = c.s.jobs ∧
    (c.put r).endedJobs = c.s.endedJobs ∧ (c.put r).pages = c.s.pages ∧ (c.put r).pins = c.s.pins ∧
    (c.put r).asks = c.s.asks ∧ (c.put r).quota = c.s.quota ∧ (c.put r).accesses = c.s.accesses ∧
    (c.put r).invals = c.s.invals ∧ (c.put r).snap = c.s.snap ∧ (c.put r).ports = c.s.ports ∧ (c.put r).routes = c.s.routes ∧
    (c.put r).device = c.s.device ∧ (c.put r).peerOut = c.s.peerOut ∧ (c.put r).peerSeq = c.s.peerSeq ∧
    (c.put r).peerSeen = c.s.peerSeen ∧ (c.put r).peerKnow = c.s.peerKnow ∧ (c.put r).revMap = c.s.revMap ∧
    (c.put r).passDone = c.s.passDone ∧ (c.put r).passRunning = c.s.passRunning ∧ (c.put r).passKnow = c.s.passKnow ∧
    (c.put r).colours = c.s.colours ∧ (c.put r).posts = c.s.posts ∧ (c.put r).ringDone = c.s.ringDone ∧
    (c.put r).ringInt = c.s.ringInt ∧ (c.put r).hostKnow = c.s.hostKnow ∧ (c.put r).msix = c.s.msix ∧
    (c.put r).poolBytes = c.s.poolBytes ∧ (c.put r).resFrames = c.s.resFrames ∧ (c.put r).cowFrames = c.s.cowFrames ∧
    (c.put r).windows = c.s.windows ∧ (c.put r).cards = c.s.cards ∧ (c.put r).gangs = c.s.gangs ∧
    (c.put r).gangCtr = c.s.gangCtr ∧ (c.put r).parts = c.s.parts ∧ (c.put r).queues = c.s.queues ∧
    (c.put r).cmds = c.s.cmds ∧ (c.put r).buckets = c.s.buckets ∧ (c.put r).moments = c.s.moments ∧
    (c.put r).objects = c.s.objects ∧ (c.put r).graphs = c.s.graphs ∧ (c.put r).launches = c.s.launches ∧
    (c.put r).launchCtr = c.s.launchCtr ∧ (c.put r).partyCtr = c.s.partyCtr ∧ (c.put r).offers = c.s.offers ∧
    (c.put r).heldAt = c.s.heldAt ∧ (c.put r).handleAt = c.s.handleAt ∧ (c.put r).mailbox = c.s.mailbox ∧
    (c.put r).vecwin = c.s.vecwin ∧ (c.put r).grants = c.s.grants ∧ (c.put r).keys = c.s.keys ∧
    (c.put r).admits = c.s.admits ∧ (c.put r).delgs = c.s.delgs ∧ (c.put r).delgWaits = c.s.delgWaits ∧
    (c.put r).portKeys = c.s.portKeys ∧ (c.put r).handles = c.s.handles ∧ (c.put r).plans = c.s.plans ∧
    (c.put r).replays = c.s.replays ∧ (c.put r).replayCtr = c.s.replayCtr ∧ (c.put r).bufUsed = c.s.bufUsed ∧
    (c.put r).inbound = c.s.inbound ∧ (c.put r).switches = c.s.switches ∧ (c.put r).wire = c.s.wire ∧
    (c.put r).regions = c.s.regions ∧ (c.put r).poolPorts = c.s.poolPorts ∧ (c.put r).enmap = c.s.enmap ∧
    (c.put r).fw = c.s.fw ∧ (c.put r).master = c.s.master := by
  and_intros <;> rfl

@[simp] theorem Ctx.putParty_fields (c : Ctx) (p : Party) :
    (c.putParty p).agenda = c.s.agenda ∧ (c.putParty p).tick = c.s.tick ∧ (c.putParty p).fresh = c.s.fresh ∧
    (c.putParty p).issuing = c.s.issuing ∧ (c.putParty p).timer = c.s.timer ∧ (c.putParty p).mem = c.s.mem ∧
    (c.putParty p).tags = c.s.tags ∧ (c.putParty p).tagPages = c.s.tagPages ∧ (c.putParty p).poison = c.s.poison ∧
    (c.putParty p).race = c.s.race ∧ (c.putParty p).sync = c.s.sync ∧ (c.putParty p).devRel = c.s.devRel ∧
    (c.putParty p).agentColour = c.s.agentColour ∧ (c.putParty p).fences = c.s.fences ∧ (c.putParty p).icache = c.s.icache ∧
    (c.putParty p).parties = (c.s.parties.map fun q => if q.uid = p.uid then p else q) ∧ (c.putParty p).cores = c.s.cores ∧
    (c.putParty p).dies = c.s.dies ∧ (c.putParty p).jobs = c.s.jobs ∧ (c.putParty p).endedJobs = c.s.endedJobs ∧
    (c.putParty p).pages = c.s.pages ∧ (c.putParty p).pins = c.s.pins ∧ (c.putParty p).asks = c.s.asks ∧
    (c.putParty p).quota = c.s.quota ∧ (c.putParty p).accesses = c.s.accesses ∧ (c.putParty p).invals = c.s.invals ∧
    (c.putParty p).snap = c.s.snap ∧ (c.putParty p).ports = c.s.ports ∧ (c.putParty p).routes = c.s.routes ∧
    (c.putParty p).device = c.s.device ∧ (c.putParty p).peerOut = c.s.peerOut ∧ (c.putParty p).peerSeq = c.s.peerSeq ∧
    (c.putParty p).peerSeen = c.s.peerSeen ∧ (c.putParty p).peerKnow = c.s.peerKnow ∧ (c.putParty p).revMap = c.s.revMap ∧
    (c.putParty p).passDone = c.s.passDone ∧ (c.putParty p).passRunning = c.s.passRunning ∧
    (c.putParty p).passKnow = c.s.passKnow ∧ (c.putParty p).colours = c.s.colours ∧ (c.putParty p).posts = c.s.posts ∧
    (c.putParty p).ringDone = c.s.ringDone ∧ (c.putParty p).ringInt = c.s.ringInt ∧ (c.putParty p).hostKnow = c.s.hostKnow ∧
    (c.putParty p).msix = c.s.msix ∧ (c.putParty p).poolBytes = c.s.poolBytes ∧ (c.putParty p).resFrames = c.s.resFrames ∧
    (c.putParty p).cowFrames = c.s.cowFrames ∧ (c.putParty p).windows = c.s.windows ∧ (c.putParty p).cards = c.s.cards ∧
    (c.putParty p).gangs = c.s.gangs ∧ (c.putParty p).gangCtr = c.s.gangCtr ∧ (c.putParty p).parts = c.s.parts ∧
    (c.putParty p).queues = c.s.queues ∧ (c.putParty p).cmds = c.s.cmds ∧ (c.putParty p).buckets = c.s.buckets ∧
    (c.putParty p).moments = c.s.moments ∧ (c.putParty p).objects = c.s.objects ∧ (c.putParty p).graphs = c.s.graphs ∧
    (c.putParty p).launches = c.s.launches ∧ (c.putParty p).launchCtr = c.s.launchCtr ∧
    (c.putParty p).partyCtr = c.s.partyCtr ∧ (c.putParty p).offers = c.s.offers ∧ (c.putParty p).heldAt = c.s.heldAt ∧
    (c.putParty p).handleAt = c.s.handleAt ∧ (c.putParty p).mailbox = c.s.mailbox ∧ (c.putParty p).vecwin = c.s.vecwin ∧
    (c.putParty p).grants = c.s.grants ∧ (c.putParty p).keys = c.s.keys ∧ (c.putParty p).admits = c.s.admits ∧
    (c.putParty p).delgs = c.s.delgs ∧ (c.putParty p).delgWaits = c.s.delgWaits ∧ (c.putParty p).portKeys = c.s.portKeys ∧
    (c.putParty p).handles = c.s.handles ∧ (c.putParty p).plans = c.s.plans ∧ (c.putParty p).replays = c.s.replays ∧
    (c.putParty p).replayCtr = c.s.replayCtr ∧ (c.putParty p).bufUsed = c.s.bufUsed ∧ (c.putParty p).inbound = c.s.inbound ∧
    (c.putParty p).switches = c.s.switches ∧ (c.putParty p).wire = c.s.wire ∧ (c.putParty p).regions = c.s.regions ∧
    (c.putParty p).poolPorts = c.s.poolPorts ∧ (c.putParty p).enmap = c.s.enmap ∧ (c.putParty p).fw = c.s.fw ∧
    (c.putParty p).master = c.s.master := by
  and_intros <;> rfl

@[simp] theorem Ctx.done_fields (c : Ctx) (r : Rope) (n : Nat) :
    (c.done r n).agenda = c.s.agenda ∧ (c.done r n).tick = c.s.tick ∧ (c.done r n).fresh = c.s.fresh ∧
    (c.done r n).issuing = c.s.issuing ∧ (c.done r n).timer = c.s.timer ∧ (c.done r n).mem = c.s.mem ∧
    (c.done r n).tags = c.s.tags ∧ (c.done r n).tagPages = c.s.tagPages ∧ (c.done r n).poison = c.s.poison ∧
    (c.done r n).race = c.s.race ∧ (c.done r n).sync = c.s.sync ∧ (c.done r n).devRel = c.s.devRel ∧
    (c.done r n).agentColour = c.s.agentColour ∧ (c.done r n).fences = c.s.fences ∧ (c.done r n).icache = c.s.icache ∧
    (c.done r n).parties = (c.s.parties.map fun q => if q.uid = c.party.uid then c.party.setRope c.k (r.stepOn c.pos n) else q) ∧
    (c.done r n).cores = c.s.cores ∧ (c.done r n).dies = c.s.dies ∧ (c.done r n).jobs = c.s.jobs ∧
    (c.done r n).endedJobs = c.s.endedJobs ∧ (c.done r n).pages = c.s.pages ∧ (c.done r n).pins = c.s.pins ∧
    (c.done r n).asks = c.s.asks ∧ (c.done r n).quota = c.s.quota ∧ (c.done r n).accesses = c.s.accesses ∧
    (c.done r n).invals = c.s.invals ∧ (c.done r n).snap = c.s.snap ∧ (c.done r n).ports = c.s.ports ∧
    (c.done r n).routes = c.s.routes ∧ (c.done r n).device = c.s.device ∧ (c.done r n).peerOut = c.s.peerOut ∧
    (c.done r n).peerSeq = c.s.peerSeq ∧ (c.done r n).peerSeen = c.s.peerSeen ∧ (c.done r n).peerKnow = c.s.peerKnow ∧
    (c.done r n).revMap = c.s.revMap ∧ (c.done r n).passDone = c.s.passDone ∧ (c.done r n).passRunning = c.s.passRunning ∧
    (c.done r n).passKnow = c.s.passKnow ∧ (c.done r n).colours = c.s.colours ∧ (c.done r n).posts = c.s.posts ∧
    (c.done r n).ringDone = c.s.ringDone ∧ (c.done r n).ringInt = c.s.ringInt ∧ (c.done r n).hostKnow = c.s.hostKnow ∧
    (c.done r n).msix = c.s.msix ∧ (c.done r n).poolBytes = c.s.poolBytes ∧ (c.done r n).resFrames = c.s.resFrames ∧
    (c.done r n).cowFrames = c.s.cowFrames ∧ (c.done r n).windows = c.s.windows ∧ (c.done r n).cards = c.s.cards ∧
    (c.done r n).gangs = c.s.gangs ∧ (c.done r n).gangCtr = c.s.gangCtr ∧ (c.done r n).parts = c.s.parts ∧
    (c.done r n).queues = c.s.queues ∧ (c.done r n).cmds = c.s.cmds ∧ (c.done r n).buckets = c.s.buckets ∧
    (c.done r n).moments = c.s.moments ∧ (c.done r n).objects = c.s.objects ∧ (c.done r n).graphs = c.s.graphs ∧
    (c.done r n).launches = c.s.launches ∧ (c.done r n).launchCtr = c.s.launchCtr ∧ (c.done r n).partyCtr = c.s.partyCtr ∧
    (c.done r n).offers = c.s.offers ∧ (c.done r n).heldAt = c.s.heldAt ∧ (c.done r n).handleAt = c.s.handleAt ∧
    (c.done r n).mailbox = c.s.mailbox ∧ (c.done r n).vecwin = c.s.vecwin ∧ (c.done r n).grants = c.s.grants ∧
    (c.done r n).keys = c.s.keys ∧ (c.done r n).admits = c.s.admits ∧ (c.done r n).delgs = c.s.delgs ∧
    (c.done r n).delgWaits = c.s.delgWaits ∧ (c.done r n).portKeys = c.s.portKeys ∧ (c.done r n).handles = c.s.handles ∧
    (c.done r n).plans = c.s.plans ∧ (c.done r n).replays = c.s.replays ∧ (c.done r n).replayCtr = c.s.replayCtr ∧
    (c.done r n).bufUsed = c.s.bufUsed ∧ (c.done r n).inbound = c.s.inbound ∧ (c.done r n).switches = c.s.switches ∧
    (c.done r n).wire = c.s.wire ∧ (c.done r n).regions = c.s.regions ∧ (c.done r n).poolPorts = c.s.poolPorts ∧
    (c.done r n).enmap = c.s.enmap ∧ (c.done r n).fw = c.s.fw ∧ (c.done r n).master = c.s.master := by
  and_intros <;> rfl

@[simp] theorem Ctx.wait_fields (c : Ctx) (w : Wait) :
    (c.wait w).agenda = c.s.agenda ∧ (c.wait w).tick = c.s.tick ∧ (c.wait w).fresh = c.s.fresh ∧
    (c.wait w).issuing = c.s.issuing ∧ (c.wait w).timer = c.s.timer ∧ (c.wait w).mem = c.s.mem ∧ (c.wait w).tags = c.s.tags ∧
    (c.wait w).tagPages = c.s.tagPages ∧ (c.wait w).poison = c.s.poison ∧ (c.wait w).race = c.s.race ∧
    (c.wait w).sync = c.s.sync ∧ (c.wait w).devRel = c.s.devRel ∧ (c.wait w).agentColour = c.s.agentColour ∧
    (c.wait w).fences = c.s.fences ∧ (c.wait w).icache = c.s.icache ∧
    (c.wait w).parties = (c.s.parties.map fun q => if q.uid = c.party.uid then c.party.setRope c.k (c.rope.setWait c.pos (some w)) else q) ∧
    (c.wait w).cores = c.s.cores ∧ (c.wait w).dies = c.s.dies ∧ (c.wait w).jobs = c.s.jobs ∧
    (c.wait w).endedJobs = c.s.endedJobs ∧ (c.wait w).pages = c.s.pages ∧ (c.wait w).pins = c.s.pins ∧
    (c.wait w).asks = c.s.asks ∧ (c.wait w).quota = c.s.quota ∧ (c.wait w).accesses = c.s.accesses ∧
    (c.wait w).invals = c.s.invals ∧ (c.wait w).snap = c.s.snap ∧ (c.wait w).ports = c.s.ports ∧
    (c.wait w).routes = c.s.routes ∧ (c.wait w).device = c.s.device ∧ (c.wait w).peerOut = c.s.peerOut ∧
    (c.wait w).peerSeq = c.s.peerSeq ∧ (c.wait w).peerSeen = c.s.peerSeen ∧ (c.wait w).peerKnow = c.s.peerKnow ∧
    (c.wait w).revMap = c.s.revMap ∧ (c.wait w).passDone = c.s.passDone ∧ (c.wait w).passRunning = c.s.passRunning ∧
    (c.wait w).passKnow = c.s.passKnow ∧ (c.wait w).colours = c.s.colours ∧ (c.wait w).posts = c.s.posts ∧
    (c.wait w).ringDone = c.s.ringDone ∧ (c.wait w).ringInt = c.s.ringInt ∧ (c.wait w).hostKnow = c.s.hostKnow ∧
    (c.wait w).msix = c.s.msix ∧ (c.wait w).poolBytes = c.s.poolBytes ∧ (c.wait w).resFrames = c.s.resFrames ∧
    (c.wait w).cowFrames = c.s.cowFrames ∧ (c.wait w).windows = c.s.windows ∧ (c.wait w).cards = c.s.cards ∧
    (c.wait w).gangs = c.s.gangs ∧ (c.wait w).gangCtr = c.s.gangCtr ∧ (c.wait w).parts = c.s.parts ∧
    (c.wait w).queues = c.s.queues ∧ (c.wait w).cmds = c.s.cmds ∧ (c.wait w).buckets = c.s.buckets ∧
    (c.wait w).moments = c.s.moments ∧ (c.wait w).objects = c.s.objects ∧ (c.wait w).graphs = c.s.graphs ∧
    (c.wait w).launches = c.s.launches ∧ (c.wait w).launchCtr = c.s.launchCtr ∧ (c.wait w).partyCtr = c.s.partyCtr ∧
    (c.wait w).offers = c.s.offers ∧ (c.wait w).heldAt = c.s.heldAt ∧ (c.wait w).handleAt = c.s.handleAt ∧
    (c.wait w).mailbox = c.s.mailbox ∧ (c.wait w).vecwin = c.s.vecwin ∧ (c.wait w).grants = c.s.grants ∧
    (c.wait w).keys = c.s.keys ∧ (c.wait w).admits = c.s.admits ∧ (c.wait w).delgs = c.s.delgs ∧
    (c.wait w).delgWaits = c.s.delgWaits ∧ (c.wait w).portKeys = c.s.portKeys ∧ (c.wait w).handles = c.s.handles ∧
    (c.wait w).plans = c.s.plans ∧ (c.wait w).replays = c.s.replays ∧ (c.wait w).replayCtr = c.s.replayCtr ∧
    (c.wait w).bufUsed = c.s.bufUsed ∧ (c.wait w).inbound = c.s.inbound ∧ (c.wait w).switches = c.s.switches ∧
    (c.wait w).wire = c.s.wire ∧ (c.wait w).regions = c.s.regions ∧ (c.wait w).poolPorts = c.s.poolPorts ∧
    (c.wait w).enmap = c.s.enmap ∧ (c.wait w).fw = c.s.fw ∧ (c.wait w).master = c.s.master := by
  and_intros <;> rfl

/-! ### Memory: reading after writing, and its form (R216) -/

@[simp] theorem State.byte_setByte (s : State) (a j : Nat) (b : Byte) : (s.setByte a b).byte j = if j = a then b else s.byte j := by
  simp [State.byte]

/-- Reading one byte after writing a run: the run's byte inside it, the old one outside. -/
theorem State.byte_setBytes (s : State) (a j : Nat) (bs : List Byte) :
    (s.setBytes a bs).byte j = if a ≤ j ∧ j < a + bs.length then bs.getD (j - a) 0 else s.byte j := by
  induction bs generalizing s a with
  | nil => rw [if_neg (by simp)]; rfl
  | cons b t ih =>
    simp only [State.setBytes, ih, State.byte_setByte, List.length_cons]
    by_cases h : j = a
    · subst h; rw [if_neg (by omega), if_pos (by omega)]; simp
    · by_cases h' : a + 1 ≤ j ∧ j < a + 1 + t.length
      · rw [if_pos h', if_pos (by omega), show j - a = (j - (a + 1)) + 1 by omega, List.getD_cons_succ]
      · rw [if_neg h', if_neg h, if_neg (by omega)]

/-- Reading a run is reading its bytes. -/
theorem State.bytes_congr (s t : State) (a n : Nat) (h : ∀ j, a ≤ j → j < a + n → t.byte j = s.byte j) :
    t.bytes a n = s.bytes a n := by
  induction n generalizing a with
  | zero => rfl
  | succ n ih =>
    simp only [State.bytes]
    rw [h a (by omega) (by omega), ih (a + 1) fun j h1 h2 => h j (by omega) (by omega)]

@[simp] theorem State.bytes_length (s : State) (a n : Nat) : (s.bytes a n).length = n := by
  induction n generalizing a with
  | zero => rfl
  | succ n ih => simp [State.bytes, ih]

/-- A run that was written reads back. -/
theorem State.bytes_setBytes (s : State) (a : Nat) (bs : List Byte) : (s.setBytes a bs).bytes a bs.length = bs := by
  induction bs generalizing s a with
  | nil => rfl
  | cons b t ih =>
    simp only [State.setBytes, List.length_cons, State.bytes, ih]
    rw [State.byte_setBytes, if_neg (by omega), State.byte_setByte, if_pos rfl]

/-- Two writes outside each other's runs: a write leaves the bytes before and after its run. -/
theorem State.bytes_setBytes_outside (s : State) (a b n : Nat) (bs : List Byte) (h : b + n ≤ a ∨ a + bs.length ≤ b) :
    (s.setBytes a bs).bytes b n = s.bytes b n :=
  State.bytes_congr _ _ _ _ fun j _ _ => by rw [State.byte_setBytes, if_neg (by omega)]

theorem memory_wf_reset : Memory.wf State.reset.mem = true := by decide

@[simp] theorem State.setByte_wf (s : State) (a : Nat) (b : Byte) (h : Memory.wf s.mem = true) :
    Memory.wf (s.setByte a b).mem = true := SMap.wf_set _ _ _ _ h

@[simp] theorem State.setBytes_wf (s : State) (a : Nat) (bs : List Byte) (h : Memory.wf s.mem = true) :
    Memory.wf (s.setBytes a bs).mem = true := by
  induction bs generalizing s a with
  | nil => exact h
  | cons b t ih => exact ih _ _ (State.setByte_wf s a b h)

@[simp] theorem State.setNum_wf (s : State) (a n v : Nat) (h : Memory.wf s.mem = true) :
    Memory.wf (s.setNum a n v).mem = true := State.setBytes_wf _ _ _ h

/-- What a store leaves in memory: its bytes where the span backs both ends, else nothing new (R216). -/
theorem State.store_mem (s : State) (w : Writer) (a : Nat) (bs : List Byte) :
    (s.store w a bs).mem = if s.backedAt a && s.backedAt (a + bs.length - 1) then (s.setBytes a bs).mem else s.mem := by
  have h : ∀ (bs : List Byte) (s t : State) (a : Nat), s.mem = t.mem → (s.setBytes a bs).mem = (t.setBytes a bs).mem := by
    intro bs
    induction bs with
    | nil => intro s t a h; exact h
    | cons b l ih => intro s t a h; exact ih _ _ _ (by simp [h])
  unfold State.store
  split
  · simp only [State.recordWrite_fields, State.clearTags_fields]
    exact h bs _ _ a (by simp)
  · rfl

/-- A store drops the stash copies of its lines, whoever stores (R138). -/
theorem State.store_parties (s : State) (w : Writer) (a : Nat) (bs : List Byte) :
    (s.store w a bs).parties = if s.backedAt a && s.backedAt (a + bs.length - 1)
      then s.parties.map (fun p => p.dropLines (a / 128 * 128) (a + bs.length)) else s.parties := by
  unfold State.store
  split
  · simp only [State.recordWrite_fields, State.clearTags_fields, State.setBytes_fields, State.dropStash_fields, State.cowSave_fields]
  · rfl

theorem State.foreignWrite_mem (s : State) (atom : Bool) (pubs : List Pub) (a : Nat) (bs : List Byte) :
    (s.foreignWrite atom pubs a bs).mem = (s.store (.plain 0 0) a bs).mem := by
  unfold State.foreignWrite State.store
  split <;> simp

theorem State.foreignStore_mem (s : State) (a : Nat) (bs : List Byte) :
    (s.foreignStore a bs).mem = (s.store (.plain 0 0) a bs).mem := State.foreignWrite_mem _ _ _ _ _

@[simp] theorem State.store_wf (s : State) (w : Writer) (a : Nat) (bs : List Byte) (h : Memory.wf s.mem = true) :
    Memory.wf (s.store w a bs).mem = true := by
  rw [State.store_mem]; split
  · exact State.setBytes_wf _ _ _ h
  · exact h

@[simp] theorem State.storeIn_wf (s : State) (w : Writer) (a : Nat) (bs : List Byte) (h : Memory.wf s.mem = true) :
    Memory.wf (s.storeIn w a bs).mem = true := by
  unfold State.storeIn; split
  · exact State.store_wf { s with snap := none } w a bs h
  · exact State.store_wf s w a bs h

@[simp] theorem State.foreignWrite_wf (s : State) (atom : Bool) (pubs : List Pub) (a : Nat) (bs : List Byte)
    (h : Memory.wf s.mem = true) : Memory.wf (s.foreignWrite atom pubs a bs).mem = true := by
  rw [State.foreignWrite_mem]; exact State.store_wf _ _ _ _ h

@[simp] theorem State.foreignStore_wf (s : State) (a : Nat) (bs : List Byte) (h : Memory.wf s.mem = true) :
    Memory.wf (s.foreignStore a bs).mem = true := by
  rw [State.foreignStore_mem]; exact State.store_wf _ _ _ _ h

theorem SMap.sortedFrom_filter {α : Type} [DecidableEq α] (d : α) (m : SMap α) (f : Nat × α → Bool) (a : Nat)
    (h : SMap.sortedFrom d a m = true) : SMap.sortedFrom d a (m.filter f) = true := by
  induction m generalizing a with
  | nil => rfl
  | cons e t ih =>
    simp only [SMap.sortedFrom, Bool.and_eq_true, decide_eq_true_eq] at h
    rw [List.filter_cons]
    split
    · simp only [SMap.sortedFrom, Bool.and_eq_true, decide_eq_true_eq]; exact ⟨h.1, ih _ h.2⟩
    · exact SMap.sortedFrom_mono d _ (by omega) (ih _ h.2)

/-- Keeping some of the bytes keeps the form: the package reset does so (R401). -/
theorem Memory.wf_filter (m : List Host.Cell) (f : Host.Cell → Bool) (h : Memory.wf m = true) :
    Memory.wf (m.filter f) = true := SMap.sortedFrom_filter _ _ _ _ h

/-- Moving the bytes of a page keeps the form (R282). -/
theorem State.copyPage_wf (s : State) (src dst : Nat) (h : Memory.wf s.mem = true) :
    Memory.wf (s.copyPage src dst).mem = true := by
  have hf : ∀ (l : List Host.Cell) (g : Host.Cell → Nat) (m : List Host.Cell), Memory.wf m = true →
      Memory.wf (l.foldl (fun m e => SMap.set memInit m (g e) e.2) m) = true := by
    intro l
    induction l with
    | nil => intro g m h; exact h
    | cons e t ih => intro g m h; exact ih g _ (SMap.wf_set _ _ _ _ h)
  exact hf _ _ _ (Memory.wf_filter _ _ h)

/-! ### What the shared operations answer -/

/-- A meaning over the issuing pair answers the next state that it computes, and only without a pair in issue a fault. -/
theorem State.issue_cases (s : State) (f : Ctx → State) :
    (∃ c, s.ctx? = some c ∧ s.issue f = .next (f c)) ∨ (s.ctx? = none ∧ s.issue f = .fault .noIssuer) := by
  unfold State.issue
  cases h : s.ctx? with
  | none => exact .inr ⟨rfl, rfl⟩
  | some c => exact .inl ⟨c, rfl, rfl⟩

/-- What the issuing pair is. -/
theorem State.ctxAt_some {s : State} {uid k pos : Nat} {c : Ctx} (h : s.ctxAt uid k pos = some c) :
    c.s = s ∧ c.uid = uid ∧ c.k = k ∧ c.pos = pos ∧ s.party? uid = some c.party ∧ c.party.ropes[k]? = some c.rope ∧
      c.rope.stack[pos]? = some c.entry := by
  unfold State.ctxAt at h
  split at h
  · cases h
  · next p hp =>
    split at h
    · cases h
    · next r hr =>
      split at h
      · cases h
      · next e he => cases h; exact ⟨rfl, rfl, rfl, rfl, hp, hr, he⟩

/-- Everything that taking a trap can do (R347, R349): the handler entered, or the party ended for one of three reasons; in every case
over the rope with its trap registers written. -/
theorem Ctx.trapWith_cases (c : Ctx) (gang : Bool) (cause : Cause) (tmask : Word) (tinfo : Nat) :
    let code := cause.code + (if c.pos ≠ 0 then 2 ^ 8 else 0) + (if gang then 2 ^ 9 else 0)
    let r : Rope := { c.over with
      tpc := c.entry.pc, tcause := BitVec.ofNat 32 code, tmask := tmask, tinfo := BitVec.ofNat 64 tinfo }
    (c.rope.hm = true ∧ c.trapWith gang cause tmask tinfo = (c.put r).endParty c.uid c.k true false cause.code) ∨
    (c.rope.hm = false ∧ c.rope.trapvec = 0 ∧
      c.trapWith gang cause tmask tinfo = (c.put r).endParty c.uid c.k false false cause.code) ∨
    (c.rope.hm = false ∧ c.rope.trapvec ≠ 0 ∧ c.rope.stack.length = c.party.capacity ∧
      c.trapWith gang cause tmask tinfo = (c.put r).endParty c.uid c.k true false Cause.controlStack.code) ∨
    (c.rope.hm = false ∧ c.rope.trapvec ≠ 0 ∧ c.rope.stack.length ≠ c.party.capacity ∧
      c.trapWith gang cause tmask tinfo = c.put { (r.setWait c.pos none) with
        hdepth := c.rope.stack.length, hm := true
        stack := Entry.mk' .side true 0 c.rope.trapvec c.entry.mask :: (r.setWait c.pos none).stack }) := by
  intro code r
  by_cases h1 : c.over.hm = true
  · exact .inl ⟨h1, by unfold Ctx.trapWith; exact if_pos h1⟩
  · have h1' : c.over.hm = false := by simpa using h1
    by_cases h2 : c.over.trapvec = 0
    · exact .inr (.inl ⟨h1', h2, by unfold Ctx.trapWith; exact (if_neg h1).trans (if_pos h2)⟩)
    · by_cases h3 : c.over.stack.length = c.party.capacity
      · exact .inr (.inr (.inl ⟨h1', h2, h3, by
          unfold Ctx.trapWith; exact (if_neg h1).trans ((if_neg h2).trans (if_pos h3))⟩))
      · exact .inr (.inr (.inr ⟨h1', h2, h3, by
          unfold Ctx.trapWith; exact (if_neg h1).trans ((if_neg h2).trans (if_neg h3))⟩))

/-- A transfer takes place, or it raises CONTROL_STACK and changes nothing else (R78, R81). -/
theorem Ctx.go_cases (c : Ctx) (groups : List (BitVec 48 × Word)) (point : Option (BitVec 48)) (opens : Bool) (f : Rope → Rope) :
    (c.rope.transfer c.pos c.party.capacity c.entry (mergeGroups groups) point opens = none ∧
      c.go groups point opens f = c.controlStack) ∨
    ∃ r, c.rope.transfer c.pos c.party.capacity c.entry (mergeGroups groups) point opens = some r ∧
      c.go groups point opens f = c.put (f r) := by
  unfold Ctx.go
  split
  · next h => exact .inl ⟨h, rfl⟩
  · next r h => exact .inr ⟨r, h, rfl⟩

/-- Everything that a transfer can do to a rope: the PC of one unopened group, or the sides and the join in the entry's place where the
stack has room; registers, masks and flags stay (R81). -/
theorem Rope.transfer_cases {r r' : Rope} {pos cap : Nat} {e : Entry} {g : List (BitVec 48 × Word)} {pt : Option (BitVec 48)}
    {opens : Bool} (h : r.transfer pos cap e g pt opens = some r') :
    (g.length = 1 ∧ opens = false ∧
      r' = { r with stack := r.stack.modify pos fun x => { x with pc := (g.headD (e.pc, 0)).1, wait := none } }) ∨
    ∃ l st, r' = { r with lfsr := l, stack := replaceAt r.stack pos st } ∧ r.stack.length - 1 + st.length ≤ cap := by
  unfold Rope.transfer at h
  by_cases hc : g.length = 1 ∧ opens = false
  · rw [if_pos hc] at h
    exact .inl ⟨hc.1, hc.2, (Option.some.inj h).symm⟩
  · rw [if_neg hc] at h
    simp only at h
    generalize (if pt = e.point then [] else [Entry.at .join e.point (pt.getD 0) e.mask]) = join at h
    split at h
    · cases h
    · next hn =>
      refine .inr ⟨_, _, (Option.some.inj h).symm, ?_⟩
      simp only [List.length_append, List.length_map, apply_ite List.length, List.length_reverse, ite_self]
      omega

end Sys2Proof.Machine
end

