-- ==== Sys2Proof/Tests/Slice0.lean ====
section
/-!
SUPPORT. Tests: ill-formed terms that the limits refuse, words written out from the encodings of the spec, single steps with results
from the spec, and for every statement of Certificates/Slice0/Obligations.lean states and operands that meet its hypotheses.
-/
namespace Sys2Proof.Tests

open Machine

set_option Elab.async false

/-! ### Helpers -/

/-- No guard. -/
def ge : Guard := ⟨false, 7⟩
/-- A source without a hint. -/
def x (n : BitVec 8) : RSrc := ⟨n, .none⟩
/-- A source at its last use. -/
def xl (n : BitVec 8) : RSrc := ⟨n, .last⟩
/-- Operands of the moulds: D = 8, A = 9 or 10, B = 12. -/
def iop : IntOp := ⟨false, false, false, ge, 8, x 9, .reg (x 12)⟩
def iun : IntUn := ⟨false, false, ge, 8, x 9⟩
def itri : IntTri := ⟨false, false, false, ge, 8, x 9, .reg (x 12), .reg (x 14)⟩
def fop : FltOp := ⟨false, .rn, false, false, false, false, false, ge, 8, x 9, .reg (x 12)⟩
def dop : FltOp := { fop with a := x 10 }
def fun1 : FltUn := ⟨false, .rn, false, false, false, ge, 8, x 9⟩
def ftri : FltTri := ⟨false, .rn, false, false, false, false, false, false, false, ge, 8, x 9, .reg (x 12), .reg (x 14)⟩
def spanOp : SpanOp := ⟨ge, x 4, .reg (x 9), 0, false⟩
def atomOp : AtomOpnd := ⟨.add, .relaxed, .rope, false, ge, 8, x 4, .reg (x 9), 0, x 12, x 0⟩
def atmsOp : AtmsOp := ⟨.add, .relaxed, false, ge, 8, ⟨some (x 9), 0⟩, x 12, x 0⟩
def gangOpnd : GangOp := ⟨true, 1, 1, 1, 1, false, false, 32, 2, 3⟩
def accwOp : AccwOp := ⟨.f32, .rn, false, false, false, 32, x 4, 2, 3⟩
def drawOp : DrawOp := ⟨ge, .lane 8, x 9, none, none, none⟩
def drawtOp : DrawtOp := ⟨ge, .lane 8, x 9, none, none, none, 1, 6⟩

/-! One term of each live major, in the table's order. -/

def samples0 : List Instr :=
  [.nop ge, .bra ge 32 64, .brc ge 32 64, .brx ge (x 10) 64, .call ge 10 32, .callx ge 10 (x 12), .ret ge (x 10), .brk ge 1, .exit ge,
   .yield ge, .rest ge 5, .seed 3]
def samples1 : List Instr :=
  [.mov false false false ge 8 (.reg (x 9)), .movi false false ge 8 7, .movs false ge 8 0, .movu false ge 8 (x 9) (.imm 1),
   .movl false ge 8 (x 9) (.imm 1), .cvt ⟨false, .f32, .i32, .rn, false, false, ge, 8, x 9⟩,
   .cvtp ⟨false, .f16, .rn, false, ge, 8, x 9, x 0, x 0⟩, .cvtb ge .rn 8 (x 9) (.pk 3 none), .rint ⟨false, .f32, .rz, false, false, ge, 8, x 9⟩]
def samples2 : List Instr :=
  [.iadd iop false, .isub iop false, .iaddc iop false 0 1 false, .imul iop false, .imulh iop, .imad itri false, .imadw itri false, .idiv iop,
   .irem iop, .iabs iun false, .ineg iun false, .imin iop, .imax iop, .icmp { iop with d := 1 } .lt .none 0,
   .isel false false ge 8 (x 9) (.reg (x 12)) 1]
def samples3 : List Instr :=
  [.and iop, .or iop, .xor iop, .not iun, .bool3 itri 0x96, .shl iop, .shr iop, .sra iop, .fsh itri true, .popc iun, .clz iun, .ctz iun,
   .brev iun, .bfx itri, .bfi itri, .perm itri, .pset false ge 1 2 3 false 8]
def samples4 : List Instr :=
  [.fadd fop, .fsub fop, .fmul fop, .fma ftri, .fmin fop false, .fmax fop false, .fcmp ⟨false, .lt, false, false, .none, 0, ge, 1, x 9, .reg (x 12)⟩,
   .fclass false false false ge 1 (x 9) 1, .frcp fun1, .fdiv fop, .fsqrt fun1, .frsq fun1, .fex2 fun1, .flg2 fun1, .fsin fun1, .fcos fun1,
   .ftanh fun1, .fscale fop, .hadd2 fop false, .hmul2 fop false, .hfma2 ftri false, .hmin2 fop false, .hmax2 fop false, .dadd dop, .dmul dop,
   .dfma { ftri with a := x 10 }]
def samples5 : List Instr :=
  [.vote ge .ge true false 1 0 1, .ballot ge .mask false (.lane 8) 1, .shfl ⟨.rot, false, .w32, ge, 8, x 9, .imm 1, none⟩,
   .red ge .add .i32 none none (.lane 8) (x 9), .scan ge .add .i32 false none 8 (x 9), .matchLanes ge false .grp 8 (x 9), .elect ge .low none 1,
   .tmask ge (.imm 0) 8, .barinit 1 (.imm 1) none, .barrive 0 none, .barwait 0 none, .bartest 0 (.status 8), .cinit (.imm 2) (.imm 8),
   .carrive (.imm 2) (.imm 8), .cwait (.imm 2) (.imm 0), .ctest 1 (.imm 2) (.imm 0)]
def samples6 : List Instr :=
  [.draw drawOp, .drawm ⟨.w, ge, 8, x 10, .reg (x 12), none⟩, .drawk (.get 8), .drawt drawtOp, .lds .b32 ge 8 ⟨some (x 9), 0⟩,
   .sts .b32 ge ⟨some (x 9), 0⟩ (x 12), .atms atmsOp, .smap ⟨true, 0, ge, x 4, x 10, x 12⟩, .sunmap 0 ge (x 9), .sflush 0 ge (x 9)]
def samples7 : List Instr :=
  [.cbnd ge 8 (x 4) (x 12) (x 14), .cperm ge 8 (x 4) (.imm 3), .cseal ge 8 (x 4) (x 16), .cunseal ge 8 (x 4) (x 16), .cfield ge .base 8 (x 4),
   .ctag ge true 1 (x 4), .cclr ge 8, .revk ge false 8 (x 4), .swpq ge (.lane 8)]
def samples8 : List Instr :=
  [.ld spanOp .b32 8, .st spanOp .b32 (x 12), .ldc spanOp 8, .stc spanOp (x 12), .atom atomOp, .atomn { atomOp with d := 0 },
   .ldmx spanOp .e4m3 8 (x 12), .stmx spanOp .e4m3 8 (x 12), .pref spanOp 0, .fence .pkg, .iinv spanOp (x 12) false, .isync,
   .clwb spanOp (x 12) false]
def samples9 : List Instr :=
  [.gang 2 4, .ldm false 8 (x 4), .mma gangOpnd, .mmas gangOpnd 1, .mmb false false 32 2 3,
   .mmf { gangOpnd with z := false, d := 2 } (x 4) 64, .accz false 0 32, .accw accwOp, .accq 8, .cpy ⟨false, none, false, 8, x 4⟩,
   .cpyc ⟨none, false, none, x 4⟩, .cpyh ⟨false, none, 4, some (x 8), 2, 4⟩, .snap ⟨false, none, 8, x 4⟩, .cring .off, .rcard .off 8,
   .wpt (.imm 0), .resq spanOp 8, .rpin .pin spanOp 8 (x 12)]
def samples10 : List Instr :=
  [.spawn ⟨false, false, ge, 8, x 4, x 8, 4⟩, .joinc ⟨ge, 8, x 4, none, 0⟩, .qpush ⟨ge, 8, 9, 10, none⟩, .gcond false 0 1 9, .trap ge 7,
   .tret .skip, .rdsr 4 (.unif 4), .wrsr 3 (.lane (x 10)), .bkpt ge 0x42, .delg ge 2 (x 8) 0, .coll ⟨false, none, 1, 8, 9, 16, 12⟩]
/-- One term of each live major. -/
def samples : List Instr :=
  samples0 ++ samples1 ++ samples2 ++ samples3 ++ samples4 ++ samples5 ++ samples6 ++ samples7 ++ samples8 ++ samples9 ++ samples10

/-! ### Limits (R14, R25 to R29, R101, R106) -/

theorem test_samples_well_formed : samples.length = 156 ∧ samples.all Instr.wf = true ∧ samples.all Instr.coded = true := by decide +kernel

theorem test_wf_refuses_guards : ([.nop ⟨true, 7⟩, .iadd { iop with u := true, g := ⟨false, 0⟩ } false, .lds .b32 ⟨true, 7⟩ 8 ⟨none, 0⟩,
    .ld { spanOp with g := ⟨true, 7⟩ } .b32 8, .trap ⟨true, 7⟩ 0] : List Instr).all (fun i => !i.wf) = true := by decide +kernel

theorem test_wf_refuses_control : ([.bra ge 2 0, .brc ge 32 0, .brx ge (x 9) 0, .call ge 9 32, .callx ge 10 (x 9), .ret ge (x 9), .brk ge 0,
    .seed 64] : List Instr).all (fun i => !i.wf) = true := by decide +kernel

theorem test_wf_refuses_moves : ([.mov false false true ge 8 (.reg (x 9)), .mov false true false ge 9 (.reg (x 8)), .mov true false false ge 8 (.unif 1),
    .movi true false ge 64 7, .movs false ge 8 14, .movs false ge 9 5, .movs true ge 8 0, .movu true ge 64 (x 9) (.imm 1), .movl true ge 8 (x 64) (.imm 1)]
    : List Instr).all (fun i => !i.wf) = true := by decide +kernel

theorem test_wf_refuses_conversions : ([.cvt ⟨false, .f32, .e4m3, .rn, false, false, ge, 8, x 9⟩, .cvt ⟨false, .i32, .i16, .rn, false, true, ge, 8, x 9⟩,
    .cvtp ⟨false, .f16, .rn, false, ge, 8, x 255, x 0, x 0⟩, .cvtp ⟨false, .f16, .rn, false, ge, 8, x 9, x 1, x 0⟩, .cvtp ⟨false, .i32, .rn, false, ge, 8, x 9, x 0, x 0⟩,
    .cvtp ⟨false, .nq4, .rz, false, ge, 8, x 9, x 0, x 0⟩, .cvtb ⟨true, 7⟩ .rn 8 (x 9) .xp, .rint ⟨false, .i32, .rz, false, false, ge, 8, x 9⟩,
    .rint ⟨false, .f32, .rna, false, false, ge, 8, x 9⟩] : List Instr).all (fun i => !i.wf) = true := by decide +kernel

theorem test_wf_refuses_integer : ([.iadd { iop with w := true } false, .iadd { iop with u := true, a := xl 9 } false, .iadd { iop with u := true, d := 64 } false,
    .iadd { iop with b := .unif 64 } false, .iadd { iop with u := true, b := .unif 1 } false, .iaddc { iop with s := true } false 0 1 false,
    .iaddc iop false 1 1 false, .iaddc iop true 1 7 false, .imadw { itri with w := true } false, .icmp { iop with d := 7 } .lt .none 0,
    .icmp { iop with d := 1 } .lt .none 1, .isel true false ge 8 (x 9) (.reg (x 12)) 4, .and { iop with s := true }, .shl { iop with s := true },
    .fsh { itri with w := true, d := 8, a := x 10 } true, .bfi { itri with s := true }, .pset false ge 7 2 3 false 8, .pset false ge 1 4 3 true 8]
    : List Instr).all (fun i => !i.wf) = true := by decide +kernel

theorem test_wf_refuses_float : ([.fadd { fop with rm := .rna }, .fscale { fop with nb := true }, .fmin { fop with rm := .rz } false, .fmin fop true,
    .fcmp ⟨true, .lt, false, false, .none, 0, ge, 4, x 9, .reg (x 12)⟩, .fclass false false false ge 7 (x 9) 1, .frcp { fun1 with rm := .rna },
    .hadd2 { fop with u := true } false, .hadd2 { fop with ftz := true } false, .hmin2 { fop with rm := .rp } false, .hfma2 { ftri with ftz := true } false,
    .dadd fop, .dfma ftri] : List Instr).all (fun i => !i.wf) = true := by decide +kernel

theorem test_wf_refuses_cross_lane : ([.vote ge .ge true false 33 0 1, .vote ge .maj true false 1 0 1, .vote ge .ge true false 1 4 1, .vote ge .ge false false 1 7 1,
    .ballot ge .rank false (.unif 8) 1, .ballot ge .mask false (.lane 8) 8, .shfl ⟨.rev, false, .w32, ge, 8, x 9, .imm 1, none⟩,
    .shfl ⟨.rot, false, .w32, ge, 8, x 9, .imm 256, none⟩, .shfl ⟨.rot, false, .w32, ge, 8, x 9, .imm 1, some 7⟩, .red ge .and .i32 none none (.lane 8) (x 9),
    .red ge .add .b32 none none (.lane 8) (x 9), .red ge .add .i32 (some 96) none (.lane 8) (x 9), .scan ge .add .i64 false none 9 (x 10),
    .matchLanes ge true .grp 8 (x 9), .elect ge .low (some 64) 1, .elect ge (.from 64) none 1, .elect ge .low none 7, .tmask ge (.unif 64) 8]
    : List Instr).all (fun i => !i.wf) = true := by decide +kernel

theorem test_wf_refuses_barriers : ([.barinit 96 (.imm 1) none, .barinit 1 (.imm 33) none, .barinit 1 (.unif 64) none, .barrive 96 none, .barwait 0 (some 64),
    .bartest 0 (.flag 4 0), .bartest 0 (.status 64), .cinit (.imm 2) (.imm 0), .cinit (.unif 64) (.imm 8), .carrive (.imm 2) (.unif 64), .cwait (.imm 2) (.unif 64),
    .ctest 4 (.imm 2) (.imm 0)] : List Instr).all (fun i => !i.wf) = true := by decide +kernel

theorem test_wf_refuses_draws_scratch : ([.draw { drawOp with d := .lane 9 }, .draw { drawOp with d := .unif 64 }, .drawm ⟨.w, ge, 9, x 10, .reg (x 12), none⟩,
    .drawk (.set 1 2), .drawk (.get 2), .drawt { drawtOp with bar := 96 }, .drawt { drawtOp with area := 64 }, .lds .b64 ge 9 ⟨none, 0⟩, .lds .c ge 6 ⟨none, 0⟩,
    .sts .i8 ge ⟨none, 0⟩ (x 8), .sts .b128 ge ⟨none, 0⟩ (x 6), .atms { atmsOp with c := x 1 }, .atms { atmsOp with op := .fadd, w := true },
    .smap ⟨true, 0, ge, x 2, x 10, x 12⟩, .smap ⟨true, 0, ge, x 4, x 9, x 12⟩] : List Instr).all (fun i => !i.wf) = true := by decide +kernel

theorem test_wf_refuses_capabilities_memory : ([.cbnd ge 8 (x 5) (x 12) (x 14), .cbnd ge 8 (x 4) (x 13) (x 14), .cperm ge 9 (x 4) (.imm 3), .cseal ge 8 (x 4) (x 17),
    .cfield ge .base 8 (x 5), .ctag ge true 7 (x 4), .cclr ge 9, .revk ge false 9 (x 4), .swpq ge (.lane 9), .ld spanOp .c 8, .ld { spanOp with a := x 5 } .b32 8,
    .ld { spanOp with off := .pair (x 9) } .b32 8, .st spanOp .i16 (x 12), .ldc spanOp 9, .stc spanOp (x 13), .atom { atomOp with scope := .die },
    .atom { atomOp with e := x 1 }, .atomn atomOp, .atomn { atomOp with d := 0, op := .exch }, .ldmx spanOp .f16 8 (x 12), .stmx spanOp .e4m3 9 (x 12), .fence .rope]
    : List Instr).all (fun i => !i.wf) = true := by decide +kernel

theorem test_wf_refuses_engines : ([.gang 1 4, .gang 7 4, .gang 0 4, .ldm false 4 (x 4), .mma { gangOpnd with pam1 := 2 }, .mma { gangOpnd with sat := true },
    .mma { gangOpnd with d := 8 }, .mmas gangOpnd 0, .mmb false false 8 2 3, .mmf { gangOpnd with d := 2 } (x 4) 64, .mmf { gangOpnd with z := false, d := 2 } (x 4) 31,
    .accz false 1 224, .accw { accwOp with fmt := .i32 }, .accw { accwOp with rm := .rna }, .accq 64, .cpy ⟨false, none, false, 4, x 4⟩, .cpyc ⟨some 64, false, none, x 4⟩,
    .cpyh ⟨false, none, 6, none, 2, 4⟩, .snap ⟨false, none, 8, x 5⟩, .cring (.bind (x 5) none), .rcard (.install (x 4) 3) 8, .wpt (.unif 64),
    .resq { spanOp with ef := true } 8, .rpin .pin { spanOp with ef := true } 8 (x 12)] : List Instr).all (fun i => !i.wf) = true := by decide +kernel

theorem test_wf_refuses_front_end : ([.spawn ⟨false, false, ge, 8, x 4, x 8, 5⟩, .spawn ⟨false, false, ge, 8, x 5, x 8, 4⟩, .joinc ⟨ge, 8, x 5, none, 0⟩, .qpush ⟨ge, 8, 9, 11, none⟩,
    .qpush ⟨ge, 8, 64, 10, none⟩, .gcond false 0 4 9, .rdsr 0x12 (.unif 4), .rdsr 4 (.unif 5), .wrsr 1 (.lane (x 10)), .wrsr 3 (.lane (x 11)), .delg ge 2 (x 9) 0,
    .coll ⟨false, none, 8, 8, 9, 16, 12⟩, .coll ⟨false, none, 1, 8, 9, 18, 12⟩, .coll ⟨false, none, 1, 8, 9, 252, 12⟩] : List Instr).all (fun i => !i.wf) = true := by decide +kernel

theorem test_wf_refuses_event_arguments : ([.retiredOpcodeEmulation 4, .waitCounterBoost 0 32 0, .restEnd 0 0 256, .parkLimitExpiry 0 32, .partyRestore 0 208, .copyJobDispatch 4,
    .bucketSettlement 4096, .load 65536, .fetch 0 4096, .flitCrcFailure 16 false, .laneFailure 0 10, .peerAccess 128 0 0 0 (.load 4), .firmwareEccError 5,
    .islandClockChange 1024 none, .correctedError 5 0 0 0, .correctedError 0 3 0 0, .poolPortDown 4] : List Instr).all (fun i => !i.wf) = true := by decide +kernel

/-! ### Words written out from the cards (R25, R26, R106 and each card): every live major -/

/-- Fields by their lowest bit. -/
def fields (l : List (Nat × Nat)) : Nat := l.foldl (fun w f => w + f.2 * 2 ^ f.1) 0

/-- A head: LEN, OPC, GRD, D, A, B, and the card's other fields by their lowest bit. -/
def word (len opc grd d a b : Nat) (more : List (Nat × Nat)) : Nat :=
  fields ([(0, len), (2, opc), (10, grd), (14, d), (22, a), (30, b)] ++ more)

/-- Each word decodes to its instruction and length. -/
def reads (l : List (Nat × Nat × Instr)) : Bool := l.all fun t => decide (decode 0 t.1 = .ok t.2.2 t.2.1)

theorem test_words_control : reads [
    (word 1 0x01 3 0 0 0 [], 8, .nop ⟨false, 3⟩),
    (word 3 0x02 0x9 0 0 0 [(74, 0x3FFFFC), (96, 0x20)], 16, .bra ⟨true, 1⟩ 0x20 0x3FFFFC),
    (word 3 0x03 7 0 0 0 [(74, 0x40), (96, 0xFFFFFFF0)], 16, .brc ge 0xFFFFFFF0 0x40),
    (word 2 0x04 2 0 10 0 [(38, 1), (74, 0x44)], 12, .brx ⟨false, 2⟩ (xl 10) 0x44),
    (word 3 0x05 7 12 0 0 [(96, 0x100)], 16, .call ge 12 0x100),
    (word 2 0x06 7 12 14 0 [(38, 2)], 12, .callx ge 12 ⟨14, .keep⟩),
    (word 1 0x07 7 0 12 0 [(38, 1)], 8, .ret ge (xl 12)),
    (word 1 0x08 4 0 0 0 [(42, 3)], 8, .brk ⟨false, 4⟩ 3),
    (word 1 0x09 0xC 0 0 0 [], 8, .exit ⟨true, 4⟩),
    (word 1 0x0A 7 0 0 0 [], 8, .yield ge),
    (0x0010000000001C2D, 8, .rest ge 1024),
    (word 1 0x0C 7 0 5 0 [], 8, .seed 5)] = true := by decide +kernel

theorem test_words_moves : reads [
    (word 1 0x14 7 8 0 12 [(40, 1)], 8, .mov false false false ge 8 (.reg (xl 12))),
    (word 1 0x14 7 8 0 4 [(61, 1), (60, 1)], 8, .mov false true false ge 8 (.unif 4)),
    (word 1 0x14 7 8 0 0x34 [(62, 1), (42, 0x12)], 8, .mov false false false ge 8 (.imm 0x1234)),
    (word 1 0x14 7 8 0 12 [(58, 1)], 8, .mov false false true ge 8 (.reg (x 12))),
    (word 1 0x14 7 8 0 12 [(63, 1)], 8, .mov true false false ge 8 (.reg (x 12))),
    (word 3 0x15 1 8 0 0 [(60, 1), (96, 0x80000001)], 16, .movi false true ⟨false, 1⟩ 8 0x80000001),
    (word 1 0x16 7 8 9 0 [(63, 1)], 8, .movs true ge 8 9),
    (word 1 0x17 7 8 9 12 [(38, 1)], 8, .movu false ge 8 (xl 9) (.reg (x 12))),
    (word 1 0x18 7 8 9 5 [(61, 1)], 8, .movl false ge 8 (x 9) (.unif 5))] = true := by decide +kernel

theorem test_words_conversions : reads [
    (word 1 0x19 7 8 10 0 [(55, 0x12), (47, 0x13), (44, 4), (43, 1), (42, 1)], 8, .cvt ⟨false, .f32, .f64, .rna, true, true, ge, 8, x 10⟩),
    (word 2 0x1A 7 8 9 12 [(62, 1), (54, 0x28), (51, 0), (71, 0), (64, 14), (72, 1)], 12, .cvtp ⟨true, .nq4, .rn, false, ge, 8, x 9, x 12, xl 14⟩),
    (word 2 0x1A 7 8 9 12 [(54, 0x20), (51, 1), (50, 1)], 12, .cvtp ⟨false, .e4m3, .rz, true, ge, 8, x 9, x 12, x 0⟩),
    (word 2 0x1B 7 8 9 0 [(58, 3), (55, 2), (74, 1), (64, 14)], 12, .cvtb ge .rp 8 (x 9) (.pk 3 (some (x 14)))),
    (word 2 0x1B 7 8 9 0 [(62, 1), (38, 1)], 12, .cvtb ge .rn 8 (xl 9) .xp),
    (word 1 0x1C 7 8 9 0 [(55, 0x10), (52, 3), (51, 1)], 8, .rint ⟨false, .f16, .rm, true, false, ge, 8, x 9⟩)] = true := by decide +kernel

theorem test_words_integer : reads [
    (word 1 0x20 7 8 9 12 [(58, 1), (59, 1)], 8, .iadd { iop with s := true } true),
    (0x4000000042021C85, 8, .isub ⟨false, false, false, ge, 8, x 8, .imm 1⟩ false),
    (word 1 0x22 7 8 9 12 [(58, 1), (55, 2), (52, 3), (51, 1)], 8, .iaddc iop true 2 3 true),
    (word 1 0x23 5 8 9 12 [], 8, .imul { iop with g := ⟨false, 5⟩ } false),
    (word 1 0x24 7 8 10 12 [(60, 1)], 8, .imulh { iop with w := true, a := x 10 }),
    (word 2 0x25 7 8 9 12 [(58, 1), (64, 14), (72, 2)], 12, .imad { itri with c := .reg ⟨14, .keep⟩ } true),
    (word 2 0x26 7 8 9 12 [(95, 1), (64, 6)], 12, .imadw { itri with c := .unif 6 } false),
    (word 1 0x27 7 8 9 12 [(59, 1)], 8, .idiv { iop with s := true }),
    (word 1 0x28 7 8 9 12 [], 8, .irem iop),
    (word 1 0x29 7 8 9 0 [(58, 1)], 8, .iabs iun true),
    (word 1 0x2A 7 8 9 0 [(63, 1)], 8, .ineg { iun with u := true } false),
    (word 1 0x2B 7 8 9 12 [(59, 1)], 8, .imin { iop with s := true }),
    (word 1 0x2C 7 8 9 12 [], 8, .imax iop),
    (0x0A00000304005CB5, 8, .icmp ⟨false, false, true, ge, 1, x 16, .reg (x 12)⟩ .lt .none 0),
    (word 1 0x2D 7 2 9 12 [(56, 5), (54, 2), (51, 3)], 8, .icmp { iop with d := 2 } .ge .or 3),
    (word 2 0x2E 7 8 9 12 [(64, 3)], 12, .isel false false ge 8 (x 9) (.reg (x 12)) 3)] = true := by decide +kernel

theorem test_words_logic_shifts_bits : reads [
    (word 1 0x2F 7 8 9 12 [], 8, .and iop), (word 1 0x30 7 8 9 12 [(61, 1)], 8, .or { iop with b := .unif 12 }),
    (word 1 0x31 7 8 9 12 [], 8, .xor iop), (word 1 0x32 7 8 9 0 [], 8, .not iun),
    (word 2 0x33 7 8 9 12 [(50, 0x96), (64, 14)], 12, .bool3 itri 0x96),
    (0x4000008084049CD1, 8, .shl ⟨false, false, false, ge, 18, ⟨16, .keep⟩, .imm 2⟩),
    (word 1 0x35 7 8 10 13 [(60, 1)], 8, .shr { iop with w := true, a := x 10, b := .reg (x 13) }), (word 1 0x36 7 8 9 12 [], 8, .sra iop),
    (word 2 0x37 7 8 9 12 [(58, 1), (64, 14)], 12, .fsh itri true), (word 1 0x38 7 8 9 0 [], 8, .popc iun),
    (word 1 0x39 7 8 9 0 [], 8, .clz iun), (word 1 0x3A 7 8 9 0 [], 8, .ctz iun), (word 1 0x3B 7 8 9 0 [], 8, .brev iun),
    (word 2 0x3C 7 8 9 12 [(59, 1), (64, 14)], 12, .bfx { itri with s := true }), (word 2 0x3D 7 8 9 12 [(64, 14)], 12, .bfi itri),
    (word 2 0x3E 7 8 9 12 [(64, 14)], 12, .perm itri),
    (word 1 0x3F 7 1 2 3 [(54, 1), (50, 8)], 8, .pset false ge 1 2 3 true 8)] = true := by decide +kernel

theorem test_words_float : reads [
    (word 1 0x44 7 8 9 12 [(58, 1), (57, 1), (55, 1), (52, 1)], 8, .fadd { fop with rm := .rz, ftz := true, na := true, ab := true }),
    (word 1 0x45 7 8 9 12 [(54, 1)], 8, .fsub { fop with nb := true }), (word 1 0x46 7 8 9 12 [(53, 1)], 8, .fmul { fop with aa := true }),
    (word 2 0x47 7 8 9 12 [(64, 14), (94, 1)], 12, .fma { ftri with nc := true }),
    (word 1 0x48 7 8 10 12 [(56, 1)], 8, .fmin dop true), (word 1 0x49 7 8 9 0 [(62, 1), (42, 0x3F)], 8, .fmax { fop with b := .imm 0x3F00 } false),
    (word 1 0x4A 7 1 9 12 [(58, 6), (57, 1), (54, 1), (51, 2)], 8, .fcmp ⟨false, .num, true, false, .and, 2, ge, 1, x 9, .reg (x 12)⟩),
    (word 1 0x4B 7 1 9 0 [(57, 1), (42, 0x201)], 8, .fclass false true false ge 1 (x 9) 0x201),
    (word 1 0x4C 7 8 9 0 [], 8, .frcp fun1), (word 1 0x4D 7 8 9 12 [], 8, .fdiv fop), (word 1 0x4E 7 8 9 0 [], 8, .fsqrt fun1),
    (word 1 0x4F 7 8 9 0 [], 8, .frsq fun1), (word 1 0x50 7 8 9 0 [(58, 2)], 8, .fex2 { fun1 with rm := .rp }), (word 1 0x51 7 8 9 0 [], 8, .flg2 fun1),
    (word 1 0x52 7 8 9 0 [(55, 1)], 8, .fsin { fun1 with na := true }), (word 1 0x53 7 8 9 0 [], 8, .fcos fun1), (word 1 0x54 7 8 9 0 [], 8, .ftanh fun1),
    (word 1 0x55 7 8 9 12 [], 8, .fscale fop),
    (word 1 0x56 7 8 9 12 [(56, 1)], 8, .hadd2 fop true), (word 1 0x57 7 8 9 12 [], 8, .hmul2 fop false),
    (word 2 0x58 7 8 9 12 [(64, 14), (93, 1)], 12, .hfma2 { ftri with ac := true } false),
    (word 1 0x59 7 8 9 12 [], 8, .hmin2 fop false), (word 1 0x5A 7 8 9 12 [(56, 1)], 8, .hmax2 fop true),
    (word 1 0x5B 7 8 10 12 [], 8, .dadd dop), (word 1 0x5C 7 8 10 12 [(58, 3)], 8, .dmul { dop with rm := .rm }),
    (word 2 0x5D 7 8 10 12 [(64, 14)], 12, .dfma { ftri with a := x 10 })] = true := by decide +kernel

theorem test_words_cross_lane : reads [
    (word 1 0x60 7 1 2 0 [(61, 1), (60, 1), (59, 1), (53, 32)], 8, .vote ge .le true true 32 1 2),
    (word 1 0x61 7 8 2 0 [(62, 1), (60, 1)], 8, .ballot ge .count false (.unif 8) 2),
    (word 2 0x62 7 8 10 0 [(61, 3), (60, 1), (58, 1), (55, 2), (75, 0x101F), (74, 1), (64, 4)], 12, .shfl ⟨.swz, true, .w8, ge, 8, x 10, .imm 0x101F, some 4⟩),
    (word 1 0x63 7 8 9 5 [(60, 2), (57, 2), (55, 1), (54, 1), (52, 3)], 8, .red ge .max .f32 (some 5) (some 3) (.lane 8) (x 9)),
    (word 1 0x64 7 8 9 0 [(60, 5), (57, 6), (56, 1)], 8, .scan ge .xor .b32 true none 8 (x 9)),
    (word 1 0x65 7 8 10 0 [(62, 1), (60, 2)], 8, .matchLanes ge true .cnt 8 (x 10)),
    (word 1 0x66 7 1 6 5 [(61, 2), (60, 1)], 8, .elect ge (.from 6) (some 5) 1),
    (word 1 0x67 7 8 0 0 [(54, 200)], 8, .tmask ge (.imm 200) 8),
    (0x0110000040001DA1, 8, .barinit 1 (.imm 4) (some 1)), (word 1 0x68 7 0 5 0 [(56, 95), (49, 1), (48, 1)], 8, .barinit 95 (.unif 5) none),
    (0x0100000000001DA5, 8, .barrive 1 none), (word 1 0x6A 7 9 0 0 [(56, 2), (55, 1)], 8, .barwait 2 (some 9)),
    (word 1 0x6B 7 3 6 0 [(56, 7)], 8, .bartest 7 (.flag 3 6)), (word 1 0x6B 7 6 0 0 [(56, 7), (55, 1)], 8, .bartest 7 (.status 6)),
    (word 2 0x6C 7 0 0 0 [(54, 200), (53, 1), (74, 0x3FFFFF)], 12, .cinit (.imm 200) (.imm 0x3FFFFF)),
    (word 2 0x6C 7 0 4 5 [(62, 1)], 12, .cinit (.unif 4) (.unif 5)),
    (word 1 0x6D 7 0 0 0 [(54, 3), (42, 2047)], 8, .carrive (.imm 3) (.imm 2047)), (word 1 0x6D 7 0 4 5 [(62, 1), (53, 1)], 8, .carrive (.unif 4) (.unif 5)),
    (0x0000000000001DB9, 8, .cwait (.imm 0) (.imm 0)), (word 1 0x6F 7 2 0 5 [(54, 3), (53, 1)], 8, .ctest 2 (.imm 3) (.unif 5))] = true := by decide +kernel

theorem test_words_draws_scratch : reads [
    (word 2 0x70 7 8 9 12 [(62, 1), (61, 1), (60, 1), (59, 1), (57, 2), (95, 1), (64, 7)], 12, .draw ⟨ge, .unif 8, x 9, some (x 12), some 2, some (.unif 7)⟩),
    (word 2 0x71 7 8 10 12 [(61, 2), (60, 1), (74, 1), (64, 15)], 12, .drawm ⟨.mx, ge, 8, x 10, .unif 12, some (x 15)⟩),
    (word 1 0x72 7 0 4 6 [], 8, .drawk (.set 4 6)), (word 1 0x72 7 0 0 6 [(61, 1)], 8, .drawk (.ctr 6)), (word 1 0x72 7 8 0 0 [(61, 2)], 8, .drawk (.get 8)),
    (word 2 0x73 7 8 9 12 [(62, 1), (61, 1), (50, 5), (42, 11), (64, 6)], 12, .drawt ⟨ge, .lane 8, x 9, some (x 12), none, some 11, 5, 6⟩),
    (0x4004000004845E01, 8, .lds .b32 ge 17 ⟨some (x 18), 0x100⟩), (word 1 0x80 7 8 0 0 [(60, 1), (59, 1), (42, 0x3FFF)], 8, .lds .i8 ge 8 ⟨none, 0x3FFF⟩),
    (word 1 0x81 7 0 9 12 [(60, 5), (40, 1)], 8, .sts .b64 ge ⟨some (x 9), 0⟩ (xl 12)),
    (word 2 0x82 7 8 9 12 [(59, 9), (57, 3), (64, 14), (42, 8)], 12, .atms ⟨.cas, .ar, false, ge, 8, ⟨some (x 9), 8⟩, x 12, x 14⟩),
    (word 2 0x83 7 0 4 10 [(62, 1), (58, 15), (64, 13)], 12, .smap ⟨true, 15, ge, x 4, x 10, x 13⟩),
    (word 1 0x84 7 0 9 0 [(58, 2)], 8, .sunmap 2 ge (x 9)), (word 1 0x85 7 0 9 0 [(58, 3), (38, 1)], 8, .sflush 3 ge (xl 9))] = true := by decide +kernel

theorem test_words_capabilities : reads [
    (0x0000000E0000000301021E22, 12, .cbnd ge 8 (x 4) (x 12) (x 14)), (word 1 0x89 7 8 4 0 [(42, 0xABC)], 8, .cperm ge 8 (x 4) (.imm 0xABC)),
    (word 1 0x89 7 8 4 9 [(62, 1)], 8, .cperm ge 8 (x 4) (.reg (x 9))), (word 1 0x8A 7 8 4 12 [], 8, .cseal ge 8 (x 4) (x 12)),
    (word 1 0x8B 7 8 4 12 [(38, 1)], 8, .cunseal ge 8 (xl 4) (x 12)), (word 1 0x8C 7 9 4 0 [(42, 6)], 8, .cfield ge .otype 9 (x 4)),
    (word 1 0x8D 7 1 4 0 [(42, 1)], 8, .ctag ge true 1 (x 4)), (word 1 0x8E 7 8 0 0 [], 8, .cclr ge 8),
    (word 2 0x8F 7 8 4 0 [(74, 1)], 12, .revk ge true 8 (x 4)), (word 1 0x90 7 8 0 0 [(62, 1)], 8, .swpq ge (.unif 8))] = true := by decide +kernel

theorem test_words_span : reads [
    (word 2 0x98 7 8 4 9 [(60, 3), (74, 0x3FFFFE), (40, 2)], 12, .ld ⟨ge, x 4, .reg ⟨9, .keep⟩, 0x3FFFFE, false⟩ .i16 8),
    (word 2 0x99 7 0 4 10 [(60, 6), (58, 1), (64, 12)], 12, .st ⟨ge, x 4, .pair (x 10), 0, false⟩ .b128 (x 12)),
    (0x0800000000011E6A, 12, .ldc ⟨ge, x 0, .none, 0, false⟩ 4),
    (word 2 0x9B 7 0 4 9 [(64, 12), (72, 1)], 12, .stc ⟨ge, x 4, .reg (x 9), 0, false⟩ (xl 12)),
    (word 3 0x9C 7 8 4 9 [(56, 9), (54, 3), (51, 4), (64, 12), (96, 14), (104, 0xFFFFFC)], 16, .atom ⟨.cas, .ar, .pkg, false, ge, 8, x 4, .reg (x 9), 0xFFFFFC, x 12, x 14⟩),
    (word 3 0x9D 7 0 4 0 [(62, 1), (61, 1), (56, 0), (64, 12)], 16, .atomn ⟨.add, .relaxed, .rope, true, ge, 0, x 4, .none, 0, x 12, x 0⟩),
    (word 2 0x9E 7 8 4 9 [(48, 0x24), (64, 12)], 12, .ldmx ⟨ge, x 4, .reg (x 9), 0, false⟩ .e2m1 8 (x 12)),
    (word 2 0x9F 7 8 4 9 [(48, 0x22), (64, 12)], 12, .stmx ⟨ge, x 4, .reg (x 9), 0, false⟩ .e3m2 8 (x 12)),
    (word 2 0xA0 7 0 4 9 [(50, 63)], 12, .pref ⟨ge, x 4, .reg (x 9), 0, false⟩ 63), (word 1 0xA1 7 0 0 0 [(59, 5)], 8, .fence .sys),
    (word 2 0xA2 7 0 4 9 [(55, 1), (64, 12)], 12, .iinv ⟨ge, x 4, .reg (x 9), 0, false⟩ (x 12) true), (0x0000000000001E8D, 8, .isync),
    (word 2 0xA4 7 0 4 9 [(55, 1), (64, 12)], 12, .clwb ⟨ge, x 4, .reg (x 9), 0, false⟩ (x 12) true)] = true := by decide +kernel

theorem test_words_engines : reads [
    (0x3000000001401EA1, 8, .gang 3 5), (0x0000000102001EA5, 8, .ldm false 8 (x 4)), (word 1 0xA9 7 0 16 4 [(62, 1), (40, 1)], 8, .ldm true 16 (xl 4)),
    (0x4CCCC000C0881EAB, 16, .mma ⟨true, 3, 3, 3, 3, false, false, 32, 2, 3⟩),
    (word 3 0xAB 7 64 2 3 [(58, 1), (54, 2), (50, 4), (46, 5), (45, 1), (44, 1), (96, 2)], 16, .mmas ⟨false, 1, 2, 4, 5, true, true, 64, 2, 3⟩ 2),
    (word 3 0xAC 7 32 2 3 [(62, 1), (61, 1)], 16, .mmb true true 32 2 3),
    (word 3 0xAD 7 6 2 3 [(58, 1), (50, 1), (64, 4), (108, 64)], 16, .mmf ⟨false, 1, 0, 1, 0, false, false, 6, 2, 3⟩ (x 4) 64),
    (word 1 0xAE 7 64 0 0 [(62, 1), (59, 2)], 8, .accz true 2 64),
    (word 2 0xAF 7 32 4 2 [(88, 0x10), (85, 1), (84, 1), (83, 1), (64, 3)], 12, .accw ⟨.f16, .rz, true, true, false, 32, x 4, 2, 3⟩),
    (word 1 0xB0 7 8 0 0 [], 8, .accq 8),
    (0x0000000102001EE1, 8, .cpy ⟨false, none, false, 8, x 4⟩), (word 1 0xB8 7 5 16 4 [(62, 1), (61, 1), (60, 1)], 8, .cpy ⟨true, some 5, true, 16, x 4⟩),
    (word 1 0xB9 7 5 4 0 [(61, 1), (52, 200)], 8, .cpyc ⟨some 5, false, some 200, x 4⟩), (word 1 0xB9 7 0 8 0 [(51, 1), (60, 1)], 8, .cpyc ⟨none, true, none, x 8⟩),
    (word 2 0xBA 7 4 8 2 [(52, 7), (64, 5)], 12, .cpyh ⟨false, some 7, 4, some (x 8), 2, 5⟩), (word 2 0xBA 7 4 0 2 [(62, 1), (61, 1), (60, 1), (64, 5)], 12, .cpyh ⟨true, none, 4, none, 2, 5⟩),
    (word 2 0xBB 7 8 4 0 [(60, 1), (52, 9)], 12, .snap ⟨true, some 9, 8, x 4⟩), (word 2 0xBC 7 0 4 0 [(52, 3)], 12, .cring (.bind (x 4) (some 3))),
    (word 2 0xBC 7 0 0 0 [(62, 1)], 12, .cring .off)] = true := by decide +kernel

theorem test_words_front_end : reads [
    (word 2 0xC0 7 8 4 6 [], 12, .rcard (.install (x 4) 6) 8), (word 2 0xC0 7 8 0 0 [(62, 1)], 12, .rcard .off 8), (0x00000C0000001F05, 8, .wpt (.imm 3)),
    (word 1 0xC1 7 0 5 0 [(62, 1)], 8, .wpt (.unif 5)), (0x0000000102019F0A, 12, .resq ⟨ge, x 8, .reg (x 4), 0, false⟩ 6),
    (word 2 0xC3 7 8 4 9 [(54, 2), (64, 12)], 12, .rpin .try ⟨ge, x 4, .reg (x 9), 0, false⟩ 8 (x 12)),
    (0x000000040000000201029F12, 12, .spawn ⟨false, false, ge, 10, x 4, x 8, 4⟩), (word 2 0xC4 7 8 4 12 [(62, 1), (61, 1), (64, 4)], 12, .spawn ⟨true, true, ge, 8, x 4, x 12, 4⟩),
    (0x0000000203051F15, 8, .joinc ⟨ge, 20, x 12, some (x 8), 0⟩), (word 1 0xC5 7 8 4 0 [(62, 1), (42, 255)], 8, .joinc ⟨ge, 8, x 4, none, 255⟩),
    (word 2 0xC6 7 8 9 10 [(64, 4), (72, 1)], 12, .qpush ⟨ge, 8, 9, 10, some (xl 4)⟩), (word 2 0xC6 7 8 9 10 [(62, 1)], 12, .qpush ⟨ge, 8, 9, 10, none⟩),
    (0x01005F1D, 8, .gcond false 0 1 4), (word 1 0xC7 7 2 9 0 [(62, 1), (54, 255)], 8, .gcond true 255 2 9),
    (0x00001C0000001F21, 8, .trap ge 7), (0x2000000000001F25, 8, .tret .skip), (0x4000000000001F25, 8, .tret .endParty),
    (0x4000100000011F29, 8, .rdsr 4 (.unif 4)), (0x00000C0005001F2D, 8, .wrsr 3 (.lane (x 20))), (0x0001080000001F31, 8, .bkpt ge 0x42),
    (0x0000004002009F36, 12, .delg ge 2 (xl 8) 0),
    (0x000020310000000C0000000402029F3B, 16, .coll ⟨true, some 3, 1, 10, 8, 16, 12⟩)] = true := by decide +kernel

/-- What does not decode: the block-skip word, a zero LEN (R31, R33), an instruction that leaves its block (R34), a retired opcode (R38), a
reserved one, a field that breaks R14, R15 or R26. -/
theorem test_words_refused : decode 0 0 = .skip ∧ decode 0 4 = .illegal ∧ decode 7 (word 1 0x01 7 0 0 0 []) = .placement
    ∧ decode 0 (word 1 0x01 15 0 0 0 []) = .illegal ∧ decode 0 (word 1 0x20 7 8 9 12 [(38, 3)]) = .illegal
    ∧ decode 0 (word 1 0x01 7 1 0 0 []) = .illegal ∧ decode 0 (word 2 0x01 7 0 0 0 []) = .illegal ∧ decode 0 (word 1 0xFF 7 0 0 0 []) = .illegal := by
  decide +kernel

/-! ### A rope that issues -/

/-- A rope `r` in which entry `e` issues on top of `rest`, the only rope of party `p`, in state `s`. -/
def ctxOf (s : State) (p : Party) (r : Rope) (e : Entry) (rest : List Entry) : Ctx :=
  let r' := { r with stack := e :: rest }
  let p' := { p with uid := 0, ropes := [r'] }
  ⟨{ s with parties := [p'], issuing := some ⟨0, 0, 0⟩ }, 0, 0, 0, p', r', e⟩

theorem test_context_issues (s : State) (p : Party) (r : Rope) (e : Entry) (rest : List Entry) :
    (ctxOf s p r e rest).s.ctx? = some (ctxOf s p r e rest) := rfl

/-- Lane registers from those of each lane, in ascending order. -/
def regsOf (f : Nat → List (Nat × Nat)) : SMap Word :=
  (List.range 32).flatMap fun l => (f l).map fun r => (256 * l + r.1, BitVec.ofNat 32 r.2)
/-- The four registers of a quad. -/
def quadRegs (n : Nat) (q : Quad) : List (Nat × Nat) := (List.range 4).map fun j => (n + j, q.toNat / 2 ^ (32 * j) % 2 ^ 32)
/-- Tags of some quads in every lane. -/
def tagsOf (l : List Nat) : NSet := (List.range 32).flatMap fun j => l.map fun q => 64 * j + q
/-- Uniforms in ascending order. -/
def unifOf (l : List (Nat × Nat)) : SMap Word := l.map fun u => (u.1, BitVec.ofNat 32 u.2)

/-- Every permission over 64 KiB of HBM; a SEAL authority for types 16 to 115. -/
def capA : Quad := capMake 0x10000 0x10000 0x8FF 1 0
def capSeal : Quad := capMake 16 100 pSEAL 1 0
/-- Registers of lane `l`: c1 = capA, c4 = capSeal, x9 = 64 l, x10 : x11 a code address, small numbers after them. -/
def laneA (l : Nat) : List (Nat × Nat) :=
  quadRegs 4 capA ++ [(9, 64 * l), (10, 0x2000), (11, 0), (12, 8), (13, 0), (14, 8), (15, 0)] ++ quadRegs 16 capSeal
def rope0 : Rope := Rope.blank 0x1000 1 0 0 0 0 0 Know.none
def ropeA : Rope := { rope0 with regs := regsOf laneA, qtag := tagsOf [1, 4], preds := [(0, 0xFF#32), (1, 0xFFFFFFFF#32), (2, 3#32)]
                                 unif := unifOf [(2, 0), (3, 64), (4, 1), (5, 0), (6, 0), (7, 0), (9, 0), (10, 0), (11, 0)] }
def entryA : Entry := ⟨.side, true, 0, 0x1000, 0xFFFFFFFF, none, none, 0, false⟩
def partyA : Party := benchParty 0
def cA : Ctx := ctxOf State.reset partyA ropeA entryA []

/-- Whether an outcome is a next state. -/
def goesOn : Out → Bool
  | .next _ => true
  | _ => false

theorem test_samples_answer_0 : (samples0 ++ samples1).all (fun i => goesOn (exec i cA.s)) = true := by decide +kernel
theorem test_samples_answer_1 : (samples2 ++ samples3).all (fun i => goesOn (exec i cA.s)) = true := by decide +kernel
theorem test_samples_answer_2 : (samples4 ++ samples5).all (fun i => goesOn (exec i cA.s)) = true := by decide +kernel
theorem test_samples_answer_3 : (samples6 ++ samples7).all (fun i => goesOn (exec i cA.s)) = true := by decide +kernel
theorem test_samples_answer_4 : (samples8 ++ samples9 ++ samples10).all (fun i => goesOn (exec i cA.s)) = true := by decide +kernel

/-- Each sample stands in at most one of the rules, and each rule has all of its instructions among the samples: the hypotheses of the
statements about the register families hold of `cA` and of every one of these instructions. -/
theorem test_rules_apply : cA.party.regs ≤ 256 ∧ samples.all Instr.wf = true
    ∧ samples.countP (fun i => (exactRule i).isSome) = 8 ∧ samples.countP (fun i => (wideRule i).isSome) = 5
    ∧ samples.countP (fun i => (logicRule i).isSome) = 7 ∧ samples.countP (fun i => (bitRule i).isSome) = 9
    ∧ samples.countP (fun i => (selectRule i).isSome) = 5 ∧ samples.countP (fun i => (moveRule cA.s i).isSome) = 5
    ∧ samples.countP (fun i => (floatRule i).isSome) = 7 ∧ samples.countP (fun i => (functionRule i).isSome) = 9
    ∧ samples.countP (fun i => (halfRule i).isSome) = 8 ∧ samples.countP (fun i => (convertRule i).isSome) = 3
    ∧ samples.countP (fun i => (crossRule cA i).isSome) = 8 ∧ samples.countP (fun i => (drawRule cA i).isSome) = 3
    ∧ Instr.wf (.cvtb ge .rn 8 (x 9) .xp) = true := by decide +kernel

/-! ### States that meet the hypotheses of the statements: control -/

/-- The same rope with other lane registers, tags, uniforms. -/
def cRegs (f : Nat → List (Nat × Nat)) (tags : List Nat) : Ctx := ctxOf State.reset partyA { ropeA with regs := regsOf f, qtag := tagsOf tags } entryA []
/-- The same rope in another slot entry, on other entries. -/
def cEntry (e : Entry) (rest : List Entry) : Ctx := ctxOf State.reset partyA ropeA e rest
/-- The same party and rope in another state. -/
def cState (s : State) : Ctx := ctxOf s partyA ropeA entryA []
/-- Another party or rope in the reset state. -/
def cParty (p : Party) : Ctx := ctxOf State.reset p ropeA entryA []
def cRope (r : Rope) : Ctx := ctxOf State.reset partyA r entryA []

/-- No lane is active. -/
def gNone : Guard := ⟨true, 1⟩
theorem test_no_lane : cA.active gNone = 0 ∧ cA.active ge = 0xFFFFFFFF#32 := by decide +kernel

theorem test_ControlTransfers_go :
    let f (c : Ctx) (i : Instr) : Bool := i.wf && (jumpRule c i).any fun j => c.strays j == 0 &&
      (c.rope.transfer c.pos c.party.capacity c.entry j.groups j.point j.opens).isSome
    ([.bra ge 32 64, .bra ⟨false, 0⟩ 32 64, .brc ge 32 64, .brx ⟨false, 0⟩ (xl 10) 64, .call ⟨false, 0⟩ 10 32, .callx ge 12 (x 10), .ret ge (x 10)]
      : List Instr).all (f cA) = true := by decide +kernel

/-- Lane 3 of c1's rope holds an odd target; the stack of another party holds one entry. -/
theorem test_ControlTransfers_trap :
    let c := cRegs (fun l => [(10, if l = 3 then 2 else 0x2000), (11, 0)]) []
    ([.brx ge (x 10) 64, .callx ge 12 (x 10), .ret ge (x 10)] : List Instr).all (fun i => i.wf && (jumpRule c i).any fun j =>
      j.reads.isSome && c.strays j == 8#32) = true
    ∧ let c := cParty { partyA with capacity := 1 }
      ([.bra ⟨false, 0⟩ 32 64, .brc ge 32 64, .brx ⟨false, 0⟩ (x 10) 64, .call ge 10 32, .callx ge 12 (x 10), .ret ⟨false, 0⟩ (x 10)] : List Instr).all (fun i =>
        i.wf && (jumpRule c i).any fun j => c.strays j == 0
          && (c.rope.transfer c.pos c.party.capacity c.entry j.groups j.point j.opens).isNone) = true := by decide +kernel

/-- Two sides and a join fit a capacity of 3 and not one of 2; a region opened on the entry's own point adds no join. -/
theorem test_TransferProcedure :
    let g : List (BitVec 48 × Word) := [(0x2000, 0xFF), (0x1010, 0xFFFFFF00)]
    (ropeA.transfer 0 2 entryA g (some 0x3000) false).isNone = true
    ∧ (ropeA.transfer 0 3 entryA g (some 0x3000) false).map (fun q => (q.lfsr, q.stack.map fun e => (e.kind, e.pc, e.mask)))
      = some (3#32, [(.side, 0x2000#48, 0xFF#32), (.side, 0x1010#48, 0xFFFFFF00#32), (.join, 0x3000#48, 0xFFFFFFFF#32)])
    ∧ (ropeA.transfer 0 1 entryA [(0x2000, 0xFFFFFFFF)] none true).map (fun q => q.stack.length) = some 1
    ∧ (ropeA.transfer 0 1 entryA [(0x2000, 0xFFFFFFFF)] none false).map (fun q => q.stack.map Entry.pc) = some [0x2000#48] := by decide +kernel

theorem test_PlainControlAndYield : (([.nop ge, .seed 3, .rest ge 5, .rest gNone 5, .yield gNone, .exit gNone, .brk gNone 1] : List Instr).all fun i =>
    i.wf && (plainRule cA i).isSome) = true ∧ Instr.wf (.yield ge) = true ∧ cA.active ge ≠ 0 := by decide +kernel

/-- A side above a join of the lanes 0 to 15. -/
def cJoin : Ctx := cEntry { entryA with mask := 0xFF } [{ entryA with kind := .join, pc := 0x1100, mask := 0xFFFF }]
theorem test_LeavingRegionsAndLanes : Instr.wf (.brk ge 1) = true ∧ Instr.wf (.exit ge) = true
    ∧ cJoin.active ge ≠ 0 ∧ cJoin.joinAt 1 = some 1 ∧ cJoin.rope.hm = false
    ∧ cJoin.joinAt 2 = none ∧ withoutLanes (cJoin.active ge) (cJoin.past 8) ≠ []
    ∧ withoutLanes (cA.active ge) (cA.past 8) = [] ∧ cA.active ge ≠ 0 ∧ cA.rope.hm = false
    ∧ (let c := ctxOf State.reset partyA { ropeA with hm := true, hdepth := 1 } { entryA with mask := 0xFF }
        [{ entryA with kind := .join, mask := 0xFFFF }]
      c.active ge ≠ 0 ∧ c.joinAt 1 = some 1 ∧ c.rope.hm = true ∧ c.rope.stack.length - 1 ≤ c.rope.hdepth)
    ∧ (let c := ctxOf State.reset partyA { ropeA with hm := true, hdepth := 0 } { entryA with mask := 0xFF }
        [{ entryA with kind := .join, mask := 0xFFFF }]
      c.active ge ≠ 0 ∧ c.joinAt 1 = some 1 ∧ c.rope.hm = true ∧ c.rope.hdepth < c.rope.stack.length - 1) := by decide +kernel

/-! ### Barriers, teams, cairns -/

/-- A party with barrier 1 live. -/
def withBar (r : BarRec) : Party := { partyA with bars := [(1, some r)] }
def bar1 : BarRec := BarRec.fresh true 0 2

theorem test_BarrierRecordsAndTests : Instr.wf (.barinit 1 (.imm 1) none) = true ∧ cA.initWrong 1 1 none = false ∧ cA.initWrong 1 0 none = false
    ∧ cA.party.bar? 1 = none ∧ cA.s.barRecords cA.party.core < 96
    ∧ (let c := cParty (withBar (BarRec.fresh true 0 1)); c.initWrong 1 1 none = false ∧ c.party.bar? 1 ≠ none ∧ c.initWrong 1 0 none = false)
    ∧ (let c := cParty { partyA with bars := (List.range 96).map fun n => (n + 1, some (BarRec.fresh true 0 1)) }
       c.initWrong 0 1 none = false ∧ c.party.bar? 0 = none ∧ 96 ≤ c.s.barRecords c.party.core)
    ∧ Instr.wf (.bartest 1 (.status 8)) = true ∧ Instr.wf (.bartest 1 (.flag 1 2)) = true ∧ (cParty (withBar bar1)).party.bar? 1 = some bar1 := by
  decide +kernel

theorem test_BarrierArrivals : Instr.wf (.barwait 1 (some 9)) = true ∧ Instr.wf (.barrive 1 (some 9)) = true
    ∧ (let c := cParty (withBar bar1); c.arriveWrong 1 .plain = false ∧ c.alone = true ∧ c.party.bar? 1 = some bar1 ∧ bar1.arrived + 1 ≠ bar1.expect)
    ∧ (let r := { bar1 with expect := 1 }; let c := cParty (withBar r)
       c.arriveWrong 1 .plain = false ∧ c.party.bar? 1 = some r ∧ r.arrived + 1 = r.expect ∧ r.expect ≠ r.pending)
    ∧ (let r := { bar1 with expect := 1, pending := 1 }; let c := cParty (withBar r)
       c.arriveWrong 1 .plain = false ∧ c.party.bar? 1 = some r ∧ r.arrived + 1 = r.expect ∧ r.expect = r.pending)
    ∧ (95#8).toNat < 96 ∧ cA.initWrong 95 33 none = true ∧ cA.initWrong 95 1 (some 0) = true ∧ cA.arriveWrong 95 .plain = true
    ∧ cA.arriveWrong 95 (.red .add .i32) = true ∧ cA.party.bar? 95 = none
    ∧ (let c := cParty (withBar { bar1 with mask := 1, arrived := 1, kind := .plain }); c.arriveWrong 1 .plain = true ∧ c.initWrong 1 1 none = true) := by
  decide +kernel

theorem test_TeamReductionsAndDraws : Instr.wf (.red ge .add .i32 (some 1) (some 2) (.lane 8) (x 9)) = true
    ∧ (let c := cParty (withBar bar1); c.arriveWrong 1 (.red .add .i32) = false ∧ c.alone = true ∧ bar1.arrived + 1 ≠ bar1.expect)
    ∧ (let c := cParty (withBar { bar1 with expect := 1 }); c.arriveWrong 1 (.red .add .i32) = false ∧ c.alone = true)
    ∧ Instr.wf (.drawt drawtOp) = true
    ∧ (let c := cParty (withBar bar1); let area := (c.rope.s drawtOp.area.toNat).toNat
       c.rope.drawtWait = [] ∧ c.party.areaCheck area = none ∧ (c.party.missing (area + 32 * c.k) 32).isEmpty = true
        ∧ c.party.bar? 1 = some bar1 ∧ c.arriveWrong 1 (.drawt (drawtForm none) area) = false)
    ∧ (let w : DrawtWait := ⟨0x1000, 1, 0, 1, 0, 0, 0⟩; let c := cRope { ropeA with drawtWait := [w] }
       c.rope.drawtWait.find? (fun w => w.pc == c.entry.pc && w.bar == 1) = some w
        ∧ ((lanesOf w.arrived).all fun k => (c.party.missing (w.area + 32 * k) 32).isEmpty && !(c.party.spoisoned (w.area + 32 * k) 32)) = true) := by
  decide +kernel

/-- Cairn 2 counts towards 8 bytes; the last cairn of the allotment. -/
theorem test_CairnCards : Instr.wf (.cinit (.imm 2) (.imm 8)) = true ∧ Instr.wf (.carrive (.imm 2) (.imm 2047)) = true ∧ Instr.wf (.cwait (.imm 2) (.imm 0)) = true
    ∧ Instr.wf (.ctest 1 (.imm 2) (.imm 1)) = true ∧ cA.cairnMay 2 = true ∧ cA.cairnMay 255 = true ∧ cA.party.spoisoned 16 8 = false
    ∧ (cA.party.cairn 2).gen = cA.small (.imm 0) ∧ (cA.party.cairn 2).gen ≠ cA.small (.imm 1) ∧ (cA.party.cairn 2).target = 0
    ∧ (let c := cParty { partyA with scratch := (leBytes 8 (Cairn.word ⟨8, 0, 0, 0⟩)).mapIdx fun j b => (16 + j, b) }; c.cairnMay 2 = true ∧ (c.party.cairn 2).target ≠ 0) := by decide +kernel

/-! ### Scratch -/

theorem test_ScratchAccesses : cA.resumed = false
    ∧ (lanesOf (cA.active ge)).all (fun l => cA.privMay ⟨some (x 9), 0⟩ 4 true l) = true ∧ (lanesOf (cA.active ge)).all (fun l => cA.privMay ⟨some (x 9), 0⟩ 16 false l) = true
    ∧ Instr.wf (.lds .c ge 8 ⟨some (x 9), 0⟩) = true ∧ Instr.wf (.sts .c ge ⟨some (x 9), 0⟩ (x 4)) = true
    ∧ (lanesOf (cA.active ge)).all (fun l => !(cA.s.revoked (BitVec.ofNat 128 (cA.scrNum ⟨some (x 9), 0⟩ 16 l))) && !(cA.s.revoked (cA.rope.quad l 4))) = true
    ∧ Instr.wf (.atms atmsOp) = true ∧ Instr.wf (.atms { atmsOp with g := gNone }) = true ∧ cA.active gNone = 0 := by decide +kernel

/-- The last word of the allotment may be accessed, the one after it not; an odd offset inside it is misaligned. -/
theorem test_ScratchTraps :
    let o (v : BitVec 14) : ScrOff := ⟨some (x 8), v⟩
    let c := cRegs (fun l => [(8, 65532 + 4 * (l / 31))]) []
    scratchForm (.lds .b32 ge 9 (o 0)) = some (ge, o 0, 4) ∧ Instr.wf (.lds .b32 ge 9 (o 0)) = true ∧ c.resumed = false
    ∧ (laneSet fun l => (c.active ge).getLsbD l && (decide (c.rope.scrOff (o 0) l < 0) || decide ((c.party.scratchSize : Int) < c.rope.scrOff (o 0) l + 4))) = 0x80000000#32
    ∧ (let c := cRegs (fun l => [(8, 65532 - l / 31)]) []
       (laneSet fun l => (c.active ge).getLsbD l && (decide (c.rope.scrOff (o 0) l < 0) || decide ((c.party.scratchSize : Int) < c.rope.scrOff (o 0) l + 4))) = 0
       ∧ (laneSet fun l => (c.active ge).getLsbD l && decide (c.rope.scrOff (o 0) l % 4 ≠ 0)) = 0x80000000#32) := by decide +kernel

/-- A smap of one page over c1; a job of the party that delivers into the page; the last page of the allotment. -/
def jobInto : Job := ⟨0, 0, 0, .rope 0 0, .snap, 1, [], [⟨some 0, 0, 4⟩], [], none, false, false, false, false, 0, 0, 0, [], [], [], [], 0, 0, Know.none⟩
theorem test_ScratchPages :
    let o : SmapOp := ⟨false, 0, ge, x 4, x 10, x 13⟩
    let c := cRegs (fun _ => quadRegs 4 capA ++ [(10, 0x1000), (11, 0), (13, 0xF000)]) [1]
    Instr.wf (.smap o) = true ∧ c.active ge ≠ 0 ∧ (c.rope.x 0 13).toNat % 4096 = 0 ∧ (c.rope.x 0 13).toNat + 4096 ≤ c.party.scratchSize
    ∧ c.usable (x 4) 0 = true ∧ capHas capA pLD = true ∧ capHas capA pST = true ∧ namesView ((capBase capA : Int) + 0x1000) 4096 = false
    ∧ (c.rope.x64 0 10).toNat + 4096 ≤ capLen capA ∧ (capBase capA + 0x1000) % 128 = 0 ∧ c.s.jobsInto c.uid 0xF000 0x10000 = false
    ∧ (let c := cState { State.reset with jobs := [jobInto] }; c.s.jobsInto c.uid 0 4096 = true)
    ∧ Instr.wf (.sunmap 0 ge (x 13)) = true ∧ Instr.wf (.sflush 0 ge (x 13)) = true ∧ (c.rope.x 0 10).toNat % 4096 = 0
    ∧ (cA.rope.x 0 12).toNat % 4096 ≠ 0 ∧ c.party.scratchSize < (c.rope.x 0 13).toNat + 4096 * 2
    ∧ Instr.wf (.smap { o with g := gNone }) = true ∧ Instr.wf (.sunmap 0 gNone (x 13)) = true ∧ Instr.wf (.sflush 0 gNone (x 13)) = true := by decide +kernel

/-! ### Capabilities -/

theorem test_CapabilityCards :
    (let f (c : Ctx) (i : Instr) : Bool := i.wf && (deriveRule c i).any fun d => (lanesOf (c.active d.g)).all d.ok
     let c := cEntry { entryA with mask := 3 } []
     f c (.cbnd ge 8 (x 4) (x 12) (x 14)) && f c (.cperm ge 8 (x 4) (.imm 3)) && f c (.cseal ge 8 (x 4) (x 16))
      && f (cRegs (fun _ => quadRegs 4 (capMake 0x10000 16 pLD 1 16) ++ quadRegs 16 capSeal) [1, 4]) (.cunseal ⟨false, 2⟩ 8 (x 4) (x 16))) = true
    ∧ ([.cfield ge .base 8 (x 4), .ctag ge true 1 (x 4), .cclr ge 8, .swpq ge (.lane 8)] : List Instr).all (fun i => i.wf && (capRule cA i).isSome) = true
    ∧ Instr.wf (.revk ge false 8 (x 4)) = true ∧ Instr.wf (.revk gNone true 8 (x 4)) = true ∧ cA.usable (x 4) 0 = true
    ∧ capHas (cA.rope.quad 0 4) (pLD + pST) = true ∧ cA.s.revMap.length < 1024 := by decide +kernel

/-- The map is full with 1,024 entries. -/
theorem test_CapabilityCards_full :
    let c := cState { State.reset with revMap := List.replicate 1024 ⟨none, 2, 1⟩ }
    1024 ≤ c.s.revMap.length ∧ c.usable (x 4) 0 = true ∧ capHas (c.rope.quad 0 4) (pLD + pST) = true := by decide +kernel

/-! ### Span memory -/

/-- Lanes 0 and 1 only. -/
def entryTwo : Entry := { entryA with mask := 3 }
def cTwo : Ctx := ctxOf State.reset partyA ropeA entryTwo []
/-- The same two lanes with other registers. -/
def cTwoRegs (s : State) (f : Nat → List (Nat × Nat)) (tags : List Nat) : Ctx :=
  ctxOf s partyA { ropeA with regs := regsOf f, qtag := tagsOf tags } entryTwo []

theorem test_LoadsAndStores : Instr.wf (.ld spanOp .b32 8) = true ∧ cTwo.mayAccess spanOp pLD 4 false true = true
    ∧ Instr.wf (.ldc spanOp 8) = true
    ∧ (let c := ctxOf { State.reset with tags := [0x1000] } partyA ropeA entryTwo []
       c.mayAccess spanOp (pLD + pLDCAP) 16 false true = true ∧ c.s.tagAt (c.reach spanOp.a (c.offset spanOp 0) 0) = true ∧ c.s.revMap = [])
    ∧ Instr.wf (.st spanOp .b32 (x 12)) = true ∧ cTwo.mayAccess spanOp pST 4 true false = true
    ∧ Instr.wf (.stc spanOp (x 4)) = true ∧ cTwo.mayAccess spanOp (pST + pSTCAP) 16 true false = true
    ∧ cTwo.rope.tag 0 4 = true ∧ cTwo.s.revoked (cTwo.rope.quad 0 4) = false ∧ cTwo.s.revoked (cTwo.rope.quad 1 4) = false
    ∧ capHas (cTwo.rope.quad 0 4) pGLOBAL = true ∧ capHas (cTwo.rope.quad 1 4) pGLOBAL = true
    ∧ cA.mayAccess { spanOp with g := gNone } pST 8 true false = true := by decide +kernel

/-- The last four bytes of c1 may be loaded. -/
theorem test_LoadsAndStores_edge :
    let c := cTwoRegs State.reset (fun l => quadRegs 4 capA ++ [(9, 0xFFF8 + 4 * l)]) [1]
    c.mayAccess spanOp pLD 4 false true = true ∧ c.mayAccess { spanOp with imm := 4 } pLD 4 false true = false := by decide +kernel

theorem test_Atomics : Instr.wf (.atom atomOp) = true ∧ Instr.wf (.atomn { atomOp with d := 0 }) = true ∧ Instr.wf (.atom { atomOp with g := gNone }) = true
    ∧ cTwo.active ge ≠ 0 ∧ cA.active gNone = 0
    ∧ cTwo.may (cTwo.active ge) atomOp.a (cTwo.atomOffset atomOp) (pATOM + pLD + pST) 4 true true true = true := by decide +kernel

theorem test_BlockLoadsAndStores : Instr.wf (.ldmx spanOp .e4m3 8 (x 12)) = true ∧ Instr.wf (.stmx spanOp .e4m3 8 (x 12)) = true ∧ cTwo.active ge ≠ 0
    ∧ cTwo.mxMay spanOp .e4m3 (x 12) pLD 0 false true = true ∧ cTwo.mxMay spanOp .e4m3 (x 12) pST 0 true false = true
    ∧ cA.mxMay spanOp .e4m3 (x 12) pST 0 true false = true ∧ (mxGeom .e4m3).2 = 8 ∧ (List.range 8).all (fun j => (cA.active ge).getLsbD j) = true
    ∧ (cTwo.active ge).getLsbD 7 = false
    ∧ Instr.wf (.ldmx { spanOp with g := gNone } .e4m3 8 (x 12)) = true ∧ Instr.wf (.stmx { spanOp with g := gNone } .e4m3 8 (x 12)) = true := by decide +kernel

/-- Lane 1 fails at step `n` of R198 and lane 0 at none. -/
def failsInLaneOne (c : Ctx) (n : Nat) (cause : Cause) : Bool :=
  let i : Instr := .ld spanOp .b32 8
  !c.resumed && i.wf && (spanForm c i).any fun y => decide (n < 7) && ((lanesOf (c.active y.g)).all fun l => ((c.faults y l).take n).all fun e => !e.1)
    && decide ((c.faults y 1)[n]? = some (true, cause)) && ((c.faults y 0).all fun e => !e.1)

/-- c1 of lane 1 differs. -/
def cLaneOne (s : State) (q : Quad) (off : Nat) : Ctx :=
  cTwoRegs s (fun l => quadRegs 4 (if l = 1 then q else capA) ++ [(9, if l = 1 then off else 0)]) [1]

theorem test_SpanTrapsAndParks_steps :
    failsInLaneOne (ctxOf State.reset partyA { ropeA with qtag := [1] } entryTwo []) 0 .capTag = true
    ∧ failsInLaneOne (cLaneOne State.reset (capMake 0x10000 0x10000 pLD 1 1) 0) 1 .capSealed = true
    ∧ failsInLaneOne (cLaneOne State.reset (capMake 0x10000 0x10000 pLD 2 0) 0) 2 .capColour = true
    ∧ failsInLaneOne (cLaneOne { State.reset with revMap := [⟨some (0x20000, 0x30000), 1, 1⟩] } (capMake 0x20000 0x10000 pLD 1 0) 0) 3 .revoked = true
    ∧ failsInLaneOne (cLaneOne State.reset (capMake 0x10000 0x10000 pST 1 0) 0) 4 .capPerm = true
    ∧ failsInLaneOne (cLaneOne State.reset capA 0xFFFD) 5 .capBounds = true
    ∧ failsInLaneOne (cLaneOne State.reset capA 0xFFFA) 6 .misaligned = true := by decide +kernel

/-- A far page without an entry; an unordered write by agent 5; a poisoned half-line. -/
theorem test_SpanTrapsAndParks_rest :
    let i : Instr := .ld spanOp .b32 8
    let clean (c : Ctx) (f : SpanForm → Bool) : Bool := !c.resumed && i.wf && (spanForm c i).any fun y =>
      ((lanesOf (c.active y.g)).all fun l => (c.faults y l).all fun e => !e.1) && !((c.accsOf y).any c.isLost) && f y
    (let c := cTwoRegs State.reset (fun _ => quadRegs 4 (capMake 0x100000000000 0x10000 pLD 1 0) ++ [(9, 0)]) [1]
     clean c fun y => c.shutOf y != []) = true
    ∧ (let c := cTwoRegs { State.reset with race := [(0x1000, some ⟨5, 1, false⟩)] } (fun _ => quadRegs 4 (capMake 0x10000 0x10000 (pLD + pCHECKED) 1 0) ++ [(9, 0)]) [1]
       clean c fun y => c.shutOf y == [] && (laneSet fun l => (c.active y.g).getLsbD l && (c.accsOf y).any fun a =>
         a.key == l && !a.peer && a.checked && c.s.races c.rope.agent c.rope.know y.atomic a.addr a.n) != 0) = true
    ∧ (let c := cTwoRegs { State.reset with poison := [0x400] } (fun _ => quadRegs 4 capA ++ [(9, 0)]) [1]
       clean c fun y => c.shutOf y == [] && y.rd && (laneSet fun l => (c.active y.g).getLsbD l && (c.accsOf y).any fun a =>
         a.key == l && !a.peer && a.checked && c.s.races c.rope.agent c.rope.know y.atomic a.addr a.n) == 0
         && (laneSet fun l => (c.active y.g).getLsbD l && (c.accsOf y).any fun a => a.key == l && !a.peer && c.s.poisoned a.addr a.n) != 0) = true := by
  decide +kernel

theorem test_FencesAndRanges : Instr.wf (.pref spanOp 0) = true ∧ Instr.wf (.fence .pkg) = true ∧ Instr.wf (.iinv spanOp (x 12) true) = true
    ∧ Instr.wf (.clwb spanOp (x 12) true) = true ∧ cA.active ge ≠ 0 ∧ cA.rangeMay spanOp (x 12) pEXEC pST = true ∧ cA.rangeMay spanOp (x 12) pLD pST = true
    ∧ (cA.rope.x 0 12).toNat ≠ 0 ∧ cA.rangeMay spanOp (x 13) pEXEC pST = true ∧ (cA.rope.x 0 13).toNat = 0
    ∧ Instr.wf (.iinv { spanOp with g := gNone } (x 12) false) = true ∧ Instr.wf (.clwb { spanOp with g := gNone } (x 12) false) = true := by decide +kernel

/-! ### Engines -/

/-- A party of two ropes, of which the first issues. -/
def cPair (w : Nat) : Ctx :=
  let r := { ropeA with unif := unifOf [(4, w)], stack := [entryA] }
  let p := { partyA with uid := 0, ropes := [r, { rope0 with stack := [entryA], slot := 1 }] }
  ⟨{ State.reset with parties := [p], issuing := some ⟨0, 0, 0⟩ }, 0, 0, 0, p, r, entryA⟩

/-- Members 0 and 1; member 0 twice; a member above the party's ropes; a bit above the list. -/
theorem test_GangInstructions_lists : (cPair 32).s.ctx? = some (cPair 32) ∧ Instr.wf (.gang 2 4) = true ∧ Instr.wf (.gang 0 0) = true := ⟨rfl, by decide +kernel⟩
theorem test_GangInstructions_sound :
    let list (w : Nat) := (List.range 2).map fun j => w / 32 ^ j % 32
    (cPair 32).s.inGang 0 0 = false ∧ ((cPair 32).rope.s 4).toNat = 32 ∧ 32 < 32 ^ 2 ∧ (list 32).Nodup ∧ 0 ∈ list 32
    ∧ (∀ y ∈ list 32, y < (cPair 32).party.ropes.length) ∧ ¬(list 0).Nodup ∧ (∃ y ∈ list 64, (cPair 64).party.ropes.length ≤ y) ∧ 32 ^ 2 ≤ 32 ^ 2 + 32
    ∧ (cState { State.reset with gangs := [⟨0, 0, 0, [⟨0, .nop ge, [], 0, 0⟩], true, 5, []⟩] }).s.inGang 0 0 = true := by decide +kernel

/-- A rope of a gang of two. -/
def ropeGang : Rope := { ropeA with gangReg := 0x40000001 }
theorem test_GangInstructions_issue : ([.mma gangOpnd, .mmas gangOpnd 1, .mmb false false 32 2 3, .mmf { gangOpnd with z := false, d := 2 } (x 4) 64] : List Instr).all Instr.wf = true
    ∧ cTwo.entry.mask ≠ 0xFFFFFFFF ∧ cA.entry.mask = 0xFFFFFFFF ∧ cA.rope.gangReg.toNat / 2 ^ 29 = 0 ∧ (cRope ropeGang).rope.gangReg.toNat / 2 ^ 29 ≠ 0
    ∧ (cRope ropeGang).s.fw.pcap = 16 ∧ gangOpnd.pam1.toNat + 1 ≤ 16 ∧ (ctxOf { State.reset with fw := { Firmware.zero with pcap := 1 } } partyA ropeGang entryA []).s.fw.pcap < gangOpnd.pam1.toNat + 1 := by
  decide +kernel

theorem test_Accumulators : Instr.wf (.accz false 0 32) = true ∧ Instr.wf (.accz true 6 0) = true ∧ Instr.wf (.accq 8) = true
    ∧ (cRope { ropeA with accInfl := 1 }).rope.accInfl ≠ 0 ∧ (cRope { ropeA with farOut := 1 }).rope.farOut ≠ 0 ∧ cA.rope.accInfl = 0 ∧ cA.rope.farOut = 0
    ∧ (let o : AccwOp := ⟨.f32, .rn, false, true, false, 32, x 4, 10, 12⟩
       let c := cRope { ropeA with unif := unifOf [(10, 0), (11, 0), (12, 128)] }
       Instr.wf (.accw o) = true ∧ Instr.wf (.accw { o with rel := false }) = true ∧ c.accMay o = true) := by decide +kernel

/-! ### Copies and tile loads -/

/-- A layout record in s8 to s15: 2 rows of 4 bytes from offset 64 to scratch offset 0x400, cairn 2. -/
def recordA : List (Nat × Nat) := [(8, 64), (9, 0), (10, 2 * 65536 + 4), (11, 4), (12, 5), (13, 0), (14, 0), (15, 0x400 + 2 * 2 ^ 20)]
def cCopy (s : State) : Ctx := ctxOf s partyA { ropeA with unif := unifOf recordA } entryA []
/-- A job of rope 0 of party 0 on die 0. -/
def jobOf (id : Nat) (k : JobKind) : Job :=
  ⟨id, 0, 0, .rope 0 0, k, 1, [], [], [], none, false, false, false, false, 0, 0, 0, [], [], [], [], 0, 0, Know.none⟩

theorem test_CopyAndLoadJobs_cpy :
    let o : CpyOp := ⟨false, none, false, 8, x 4⟩
    let c := cCopy State.reset
    let l := c.rope.layout 8
    Instr.wf (.cpy o) = true ∧ Instr.wf (.cpy { o with st := true }) = true ∧ l.rows = 2 ∧ l.cols = 4 ∧ l.copyBad false = false ∧ isView (capBase capA + l.off) = false
    ∧ copyWidth l.fmt l.planes = some 1 ∧ firstCause (c.zeroSteps 4 pLD l.off 8 1) = none ∧ firstCause (c.zeroSteps 4 pST l.off 8 1) = none
    ∧ firstCause (c.party.scratchSteps l.dst 8) = none ∧ c.party.cairnCheck l.cairn = none ∧ c.s.cardsFull c.uid 0 = false
    ∧ (cCopy { State.reset with jobs := List.replicate 256 (jobOf 0 .snap) }).s.cardsFull 0 0 = true := by decide +kernel

/-- The command block of a copy of 2 rows of 4 bytes from 0x10000 to 0x30000. -/
def blockBytes : List Byte :=
  leBytes 16 capA.toNat ++ leBytes 16 (capMake 0x30000 0x1000 (pST + pGLOBAL) 1 0).toNat ++ leBytes 8 0 ++ leBytes 8 0 ++ leBytes 2 4 ++ leBytes 2 2
    ++ leBytes 4 4 ++ leBytes 4 4 ++ leBytes 4 5
def capCmd : Quad := capMake 0x20000 64 (pCMD + pGLOBAL) 1 1
theorem test_CopyAndLoadJobs_cpyc :
    let c := cTwoRegs { State.reset.setBytes 0x20000 blockBytes with tags := [0x2000, 0x2001] } (fun _ => quadRegs 4 capCmd) [1]
    let y := CmdBlock.ofBytes (c.s.bytes (capBase capCmd) 64)
    Instr.wf (.cpyc ⟨some 5, true, some 2, x 4⟩) = true ∧ firstCause (c.cmdSteps 4) = none ∧ capOtype capCmd = 1 ∧ c.readable 0 capCmd 0 64 = true
    ∧ y.rows = 2 ∧ y.cols = 4 ∧ y.bad = false ∧ c.s.blockCheck c.party.colour y (c.s.tagAt 0x20000) (c.s.tagAt 0x20010) = none
    ∧ c.party.cairnStep (some 2) = none ∧ c.s.cardsFull c.uid 0 = false := by decide +kernel

/-- A tile of 32 lines of 32 FP16 elements, one plane. -/
def recordTile : List (Nat × Nat) := [(8, 64), (9, 0), (10, 32 * 65536 + 32), (11, 32), (12, 0x10 + 256), (13, 0), (14, 0), (15, 0x400 + 2 * 2 ^ 20)]
theorem test_CopyAndLoadJobs_ldm :
    let c := ctxOf State.reset partyA { ropeA with unif := unifOf recordTile } entryA []
    let l := c.rope.layout 8
    let y := l.ldmPlan .f16 (min l.planes c.s.fw.pcap) (capBase capA + l.off) false capA
    Instr.wf (.ldm false 8 (x 4)) = true ∧ isView (capBase capA + l.off) = false ∧ elemOf l.fmt = some .f16 ∧ l.ldmBadAs .f16 false = false ∧ l.planes ≤ c.s.fw.pcap
    ∧ (c.ldmSteps 4 l y).all (fun y => !y.1) = true ∧ firstCause (c.party.scratchSteps l.dst y.total) = none ∧ c.party.cairnCheck l.cairn = none ∧ c.s.ldmJobs c.party.core < 16
    ∧ 16 ≤ (cState { State.reset with jobs := List.replicate 16 (jobOf 0 (.ldm y)) }).s.ldmJobs 0 := by decide +kernel

/-- A ring descriptor at 0x20000: its slot area at 0x30000, 2 slots of 32 bytes. -/
def ringBytes : List Byte := leBytes 16 (capMake 0x30000 0x1000 (pST + pGLOBAL) 1 0).toNat ++ leBytes 4 0x105 ++ leBytes 44 0
def capDesc : Quad := capMake 0x20000 0x1000 (pLD + pST + pGLOBAL) 1 0
theorem test_RingsStreamsSnapshots_rings :
    let c := ctxOf { State.reset.setBytes 0x20000 ringBytes with tags := [0x2000] } partyA
      { ropeA with regs := regsOf fun _ => quadRegs 4 capDesc ++ quadRegs 8 capA, qtag := tagsOf [1, 2], unif := unifOf [(2, 0), (3, 0), (5, 32)] } entryA []
    let y := RingRead.ofBytes (c.s.bytes (capBase capDesc) 64) (c.s.tagAt (capBase capDesc))
    Instr.wf (.cring (.bind (x 4) (some 2))) = true ∧ firstCause (c.zeroSteps 4 (pLD + pST) 0 64 64) = none ∧ c.readable 0 capDesc 0 64 = true
    ∧ firstCause (c.s.useSteps c.party.colour y.slots y.tag) = none ∧ capHas y.slots pST = true ∧ y.bad 5 = false ∧ y.bad 20 = false ∧ c.party.cairnStep (some 2) = none
    ∧ Instr.wf (.cpyh ⟨true, some 2, 4, some (x 8), 2, 5⟩) = true ∧ Instr.wf (.cpyh ⟨true, none, 4, none, 2, 5⟩) = true ∧ c.s.cardsFull c.uid 0 = false
    ∧ 0 < (c.rope.s 5).toNat ∧ (c.rope.s 5).toNat ≤ 2 ^ (y.geom % 256) ∧ firstCause (c.zeroSteps 8 pLD 0 32 1) = none ∧ c.rope.s 3 = 0
    ∧ firstCause (c.party.scratchSteps 0 32) = none := by decide +kernel

theorem test_RingsStreamsSnapshots_snap :
    let c := cRegs (fun _ => quadRegs 4 capA ++ quadRegs 8 (capMake 0x30000 0x10000 (pST + pGLOBAL) 1 0)) [1, 2]
    Instr.wf (.snap ⟨true, some 2, 8, x 4⟩) = true ∧ firstCause (c.snapSteps 4 8) = none ∧ c.party.cairnStep (some 2) = none ∧ c.s.snap = none
    ∧ c.s.cardsFull c.uid 0 = false ∧ (cState { State.reset with snap := some ⟨0, false, 0, 0, 4096, 0x30000, [], []⟩ }).s.snap ≠ none := by decide +kernel

/-! ### Tier, front end and fabric cards -/

/-- A card of one waypoint and one NEED entry: page 0x100000000000 of the pool. -/
def cardBytes : List Byte :=
  [0x46, 0x43, 0x52, 0x43] ++ leBytes 2 1 ++ leBytes 2 8 ++ leBytes 4 1 ++ leBytes 4 1 ++ leBytes 8 0x60 ++ leBytes 8 0
    ++ leBytes 4 0 ++ leBytes 4 1 ++ leBytes 24 0 ++ leBytes 8 0x100000000000 ++ leBytes 24 0
def cardA : RouteCard := ⟨0, 1, 8, [0, 1], [⟨0x800000, 0, 0, none⟩]⟩
/-- Such a card at the start of c1, offset s3 : s2 = 0. -/
def cCard (b : List Byte) (cards : List RouteCard) : Ctx :=
  ctxOf { State.reset.setBytes 0x10000 b with cards := cards } partyA
    { ropeA with regs := regsOf fun _ => quadRegs 4 capA, qtag := tagsOf [1], unif := unifOf [(2, 0), (3, 0)] } entryA []

theorem test_RouteCards_rcard : Instr.wf (.rcard .off 8) = true ∧ Instr.wf (.rcard (.install (x 4) 2) 8) = true
    ∧ (let c := cCard cardBytes []
       let hdr := c.s.bytes 0x10000 32
       c.entry.mask ≠ 0 ∧ c.laneMay (x 4) pLD 32 32 0 0 = true ∧ c.readable 0 capA 0 32 = true ∧ headerOk hdr = true ∧ hdrBytes hdr = 0x60
        ∧ 0 + hdrBytes hdr ≤ capLen capA ∧ c.readable 32 capA 0 (hdrBytes hdr) = true ∧ cardOf 0 1 (c.s.bytes 0x10000 0x60) = some cardA ∧ c.s.cardRoom cardA = true)
    ∧ headerOk ((cCard [] []).s.bytes 0x10000 32) = false
    ∧ cardOf 0 1 ((cCard (cardBytes.set 0x40 1) []).s.bytes 0x10000 0x60) = none ∧ headerOk ((cCard (cardBytes.set 0x40 1) []).s.bytes 0x10000 32) = true
    ∧ (cCard cardBytes (List.replicate 64 { cardA with launch := 5 })).s.cardRoom cardA = false := by decide +kernel

/-- No card; past the last waypoint; waypoint 0 with its page absent and resident. -/
theorem test_RouteCards_wpt : Instr.wf (.wpt (.imm 0)) = true ∧ (cA.s.card? cA.party.launch).isNone = true
    ∧ (cCard [] [cardA]).s.card? 0 = some cardA ∧ cardA.w = 1 ∧ cardA.at 0 = [(0, ⟨0x800000, 0, 0, none⟩)]
    ∧ (cCard [] [cardA]).s.entryResident ⟨0x800000, 0, 0, none⟩ = false
    ∧ (cState { State.reset with cards := [cardA], pages := [(0x800000, some ⟨0, .resident, [], [], true, false, 0, 0, false⟩)] }).s.entryResident ⟨0x800000, 0, 0, none⟩ = true := by
  decide +kernel

/-- One far page of the pool by lane 0, and a resident one. -/
def cPool (pages : SMap (Option PageRec)) (quota : SMap Nat) (pins : List Pin) : Ctx :=
  cTwoRegs { State.reset with pages := pages, quota := quota, pins := pins } (fun _ => quadRegs 4 (capMake 0x100000000000 0x400000 pLD 1 0) ++ [(9, 0), (12, 2)]) [1]
def residentPage : PageRec := ⟨0, .resident, [], [], true, false, 0, 0, false⟩
theorem test_PageQueriesAndPins : Instr.wf (.resq spanOp 8) = true ∧ (lanesOf (cTwo.active ge)).all (cTwo.pageMay spanOp) = true
    ∧ Instr.wf (.rpin .pin spanOp 8 (x 12)) = true ∧ Instr.wf (.rpin .unpin spanOp 8 (x 12)) = true ∧ Instr.wf (.rpin .pin { spanOp with g := gNone } 8 (x 12)) = true
    ∧ (let c := cPool [] [] []
       let first := c.reach (x 4) (c.offset spanOp 0) 0 / 2 ^ 21
       c.active ge ≠ 0 ∧ c.pageMay spanOp 0 = true ∧ (c.rope.x 0 12).toNat = 2 ∧ first * 2 ^ 21 + (2 - 1) * 2 ^ 21 < 0x100000000000 + 0x400000 ∧ c.rope.lostPages = []
        ∧ c.s.farPage first = true ∧ c.s.farPage (first + 1) = true ∧ c.s.pinned 0 first = false ∧ SMap.get 0 c.s.quota 1 = 0)
    ∧ (let c := cPool [(0x800000, some residentPage), (0x800001, some residentPage)] [(1, 2)] []
       SMap.get 0 c.s.quota 1 = 2 ∧ c.s.pageHere 0x800000 = true ∧ c.s.pageHere 0x800001 = true)
    ∧ (let c := cPool [] [] [⟨0, 1, 0x800000⟩, ⟨0, 1, 0x800001⟩]; c.s.pinned 0 0x800000 = true ∧ c.s.pinned 0 0x800001 = true) := by decide +kernel

/-- An object of one entry; its launch, with some records. -/
def entryRec : EntryRec := ⟨1, 1, 64, 4096, 0xFFFF, [], [], []⟩
def objectA : ObjRec := ⟨7, 1, [entryRec], [], none, none, none, []⟩
def launchOf (records : List ContRec) : Launch :=
  ⟨0, 0, 1, .command 0 0, 7, 0, 0, false, benchCode, [[]], [0], records, none, none, 0, 0, false, 0, Know.none⟩
def heldRec : ContRec := ⟨3, 0, 0, 1, [], 0, .captured capA true, some 0x10040, true, Know.none⟩
/-- Quads c1 and c2 over 0x10000, s4 to s7: entry 0, n parties, the join word at 0x40, whose value is `v`. -/
def cSpawn (n v : Nat) (records : List ContRec) : Ctx :=
  ctxOf { State.reset.setBytes 0x10040 (leBytes 8 v) with
      objects := [objectA], launches := [launchOf records], queues := [(0, { QueueRec.zero with part := 1, colour := 1, st := .active })] } partyA
    { ropeA with regs := regsOf fun _ => quadRegs 4 capA ++ quadRegs 8 capA ++ [(12, 0x40)], qtag := tagsOf [1, 2], unif := unifOf [(4, 0), (5, n), (6, 0x40), (7, 0)] }
    entryTwo []
def spawnOp (hold nw : Bool) : SpawnOp := ⟨hold, nw, ge, 8, x 4, x 8, 4⟩

theorem test_SpawnsAndJoins_spawn : Instr.wf (.spawn (spawnOp true true)) = true ∧ Instr.wf (.spawn { spawnOp false false with g := gNone }) = true
    ∧ (let c := cSpawn 0 0 []; c.active ge ≠ 0 ∧ c.spawnBad (spawnOp false false) = true ∧ c.spawnMay (spawnOp false false) 0 false = true)
    ∧ (let c := cSpawn 1 0 []; c.spawnBad (spawnOp true false) = false ∧ c.s.freeRecord = some 0 ∧ c.spawnMay (spawnOp true false) 0 true = true
        ∧ c.spawnMay (spawnOp true false) 0 false = true ∧ bytesAt c.s.byte (c.joinWordAt (spawnOp true false) 0) 8 % 2 ^ 32 = 0)
    ∧ (let c := cSpawn 1 (1 + 4 * 2 ^ 32) [heldRec]; bytesAt c.s.byte (c.joinWordAt (spawnOp true false) 0) 8 = 1 + 4 * 2 ^ 32 ∧ c.s.freeRecord = some 0)
    ∧ (let c := cSpawn 65535 1 []; c.spawnBad (spawnOp true false) = false ∧ bytesAt c.s.byte (c.joinWordAt (spawnOp true false) 0) 8 = 1) := by decide +kernel

theorem test_SpawnsAndJoins_unmarked (n v : Nat) : (cSpawn n v []).unmarked := by
  intro y r h hr
  have : y = launchOf [] := by simpa [cSpawn, ctxOf, State.launch?, launchOf, partyA, benchParty] using h.symm
  simp [this, launchOf] at hr

/-- The table of records is full. -/
theorem test_SpawnsAndJoins_full : (cSpawn 1 0 (List.replicate 65536 heldRec)).s.freeRecord = none := by
  have h : ∀ n, (cSpawn 1 0 (List.replicate n heldRec)).s.recordIds.length = n := fun n => by
    simp [State.recordIds, cSpawn, ctxOf, launchOf]
  have full : ∀ (s : State), 65536 ≤ s.recordIds.length → s.freeRecord = none := fun s h => by
    simp only [State.freeRecord, h, if_true]
  exact full _ (Nat.le_of_eq (h _).symm)

theorem test_SpawnsAndJoins_joinc : Instr.wf (.joinc ⟨ge, 12, x 4, none, 8⟩) = true ∧ Instr.wf (.joinc ⟨gNone, 12, x 4, none, 8⟩) = true
    ∧ (let c := cSpawn 1 (1 + 4 * 2 ^ 32) [heldRec]
       let o : JoincOp := ⟨ge, 12, x 4, none, 8⟩
       let off := c.joincAt o 0
       let a : Acc := ⟨0, off, c.reach o.a off 0, 8, capHas capA pCHECKED⟩
       c.active ge ≠ 0 ∧ c.resumed = false ∧ c.laneMay o.a (pATOM + pLD + pST) 8 8 off 0 = true ∧ c.clear true true true a = true ∧ c.frames [a] = true
        ∧ bytesAt c.s.byte (c.reach o.a off 0) 8 = 1 + 4 * 2 ^ 32 ∧ c.s.heldOn 3 0x10040 = some (launchOf [heldRec], heldRec) ∧ (c.s.launches.map Launch.id).Nodup)
    ∧ (let c := cSpawn 1 2 []; bytesAt c.s.byte 0x10040 8 % 2 ^ 32 = 2) := by decide +kernel

/-- Queue 5, which its colour may push to, with a ring of 2 slots. -/
def queueA : QueueRec := { QueueRec.zero with st := .idle, flags := 2, colour := 1, ring := 0x20000, rsize := 1, part := 1 }
def cPush (r : QueueRec) : Ctx := ctxOf { State.reset with queues := [(5, r)] } partyA { ropeA with unif := unifOf [(9, 5), (10, 0x40), (11, 0)] } entryA []
theorem test_QueuePushesAndConditions_push : Instr.wf (.qpush ⟨ge, 8, 9, 10, none⟩) = true ∧ Instr.wf (.qpush ⟨ge, 8, 9, 10, some (x 4)⟩) = true ∧ Instr.wf (.qpush ⟨gNone, 8, 9, 10, none⟩) = true
    ∧ (let c := cPush queueA; c.active ge ≠ 0 ∧ (c.pushBytes ⟨ge, 8, 9, 10, none⟩).isSome = true ∧ (c.pushBytes ⟨ge, 8, 9, 10, some (x 4)⟩).isSome = true ∧ c.s.pushOk 5 1 = true
        ∧ (c.s.queue 5).tail < (c.s.queue 5).head + 2 ^ (c.s.queue 5).rsize ∧ c.s.backedAt 0x20000 = true ∧ c.s.backedAt 0x2003F = true)
    ∧ (cPush { queueA with flags := 0 }).s.pushOk 5 1 = false ∧ (cPush { queueA with tail := 2 }).s.pushOk 5 1 = true ∧ 0 + 2 ^ queueA.rsize ≤ 2 := by decide +kernel

def runA : RunRec := ⟨.command 0 0, [], [], [(0, .launch 0)], [], 0, 0, Know.none, [], [], Know.none⟩
def nodeOf (kind : NodeKind) (npred : Nat) (succ : List Nat) : NodeRec := ⟨kind, npred, succ, [], 0, 0, 0, [], []⟩
theorem test_QueuePushesAndConditions_gcond : Instr.wf (.gcond false 255 1 9) = true ∧ cA.s.nodeOf cA.party = none
    ∧ (let g : GraphRec := ⟨9, 1, [nodeOf .launch 0 []], some runA⟩
       let c := cState { State.reset with launches := [{ launchOf [] with by' := .node 9 0 }], graphs := [g] }
       c.s.nodeOf c.party = some (9, 0) ∧ c.s.graph? 9 = some g ∧ g.run = some runA) := by decide +kernel

/-- A sealed command capability that may be delegated, in c2; the peer in s0. -/
def capDeleg : Quad := capMake 0x20000 64 (pCMD + pDELEG + pGLOBAL) 1 1
def cDelg (s : State) (peer : Nat) : Ctx :=
  ctxOf s partyA { ropeA with regs := regsOf fun _ => quadRegs 8 capDeleg, qtag := tagsOf [2], unif := unifOf [(0, peer)] } entryTwo []
theorem test_FabricCards_delg : Instr.wf (.delg ge 2 (x 8) 0) = true ∧ Instr.wf (.delg gNone 2 (x 8) 0) = true
    ∧ (let c := cDelg { State.reset with routes := [(5, [2])] } 5
       c.active ge ≠ 0 ∧ c.delgAnswer.isNone = true ∧ c.delgMay (x 8) 0 = true ∧ c.s.freeDelgIndex = some 0 ∧ c.s.routed 5 = true ∧ 5 ≠ c.s.device)
    ∧ (cDelg State.reset 127).s.routed 127 = false ∧ 127 < 128 ∧ (cDelg State.reset 0).s.device = 0
    ∧ (let w : DelgWait := ⟨0, 0, 0, 0, 0x1000, 0, true, some 0⟩; (cDelg { State.reset with delgWaits := [w] } 5).delgAnswer = some (w, 0))
    ∧ (let c := ctxOf State.reset partyA { ropeA with qtag := [] } entryTwo []; c.delgAnswer.isNone = true ∧ c.rope.tag 0 8 = false) := by decide +kernel

theorem get_const {α : Type} (d v : α) (l : List Nat) (e : Nat) (h : e ∈ l) : SMap.get d (l.map fun e => (e, v)) e = v := by
  induction l with
  | nil => cases h
  | cons a t ih => simp only [List.map_cons, SMap.get]; split <;> simp_all

/-- All 4,096 delegation records are in use. -/
def delgsFull : SMap DelgSlot := (List.range 4096).map fun e => (e, ⟨0, some ⟨capDeleg, 5, 0, 0⟩⟩)
theorem test_FabricCards_full : ({ State.reset with delgs := delgsFull } : State).freeDelgIndex = none :=
  List.find?_eq_none.mpr fun e he => by
    have h := get_const (⟨0, none⟩ : DelgSlot) ⟨0, some ⟨capDeleg, 5, 0, 0⟩⟩ (List.range 4096) e he
    simp only [State.delgSlot, delgsFull, h]; decide

/-- A handle of device 9 in table entry 0, named by a sealed capability of type 2. -/
theorem test_FabricCards_cpyc :
    let q := capMake State.reset.handleAt 64 (pCMD + pGLOBAL) 1 2
    let c := cRegs (fun _ => quadRegs 4 q) [1]
    Instr.wf (.cpyc ⟨some 5, true, some 2, x 4⟩) = true ∧ c.entry.mask = 0xFFFFFFFF ∧ c.resumed = false ∧ firstCause (c.cmdSteps 4) = none ∧ capOtype q = 2
    ∧ c.party.cairnStep (some 2) = none ∧ c.s.cardsFull c.uid 0 = false := by decide +kernel

/-- A plan of one base for colour 1. -/
def planA (ops : List PlanOp) : Plan := ⟨4, 1, 11, 2, 0, 2, 0, 64, [(64, true, false)], [0, 5], ops, 0⟩
theorem test_CollectiveCards :
    let o : CollOp := ⟨true, some 3, 0, 10, 8, 4, 12⟩
    let c (s : State) := ctxOf s partyA { ropeA with unif := unifOf [(8, 4), (12, 1), (13, 0), (14, 0), (15, 0)] } entryA []
    Instr.wf (.coll o) = true ∧ (c State.reset).s.plan? 1 4 = none
    ∧ (c { State.reset with plans := [planA []] }).s.plan? 1 4 = some (planA []) ∧ (planA []).bases.length ≠ 2
    ∧ firstCause ((c { State.reset with plans := [planA []] }).baseSteps (planA []) 4) = none
    ∧ cA.party.cairnStep (some 3) = none ∧ cA.s.cardsFull 0 0 = false ∧ (cState { State.reset with jobs := List.replicate 256 (jobOf 0 .snap) }).s.cardsFull 0 0 = true := by
  decide +kernel

/-! ### Events at ropes, jobs and rings -/

/-- A party as it stands in a state, with the rope that may wait. -/
def cWait (s : State) (w : Wait) : Ctx := ctxOf s partyA ropeA { entryA with wait := some w } []
theorem test_context_stands (s : State) (p : Party) (r : Rope) (e : Entry) (rest : List Entry) :
    (ctxOf s p r e rest).s.ctxAt 0 0 0 = some (ctxOf s p r e rest) := rfl
/-- Bytes at the bench's first code address. -/
def cCode (b : List Byte) : Ctx := cState (State.reset.setBytes 0x1000 b)

/-- The heads of a retired major of 12 bytes and of a retired major of 8; a block-skip word. Whatever the emulation answers, one of
the two clauses about it applies. -/
theorem test_FetchIssueAndLineEvents_fetch (P : Fetched (Instr × Nat) → Prop) :
    let f (w : Nat) := let c := cCode (leBytes 4 w); c.s.fetchInstr c.party c.rope c.entry.pc
    (P (f 0x1C42) ↔ P (.retired 12)) ∧ (P (f 0x1D01) ↔ P (.retired 8)) ∧ (P (f 0) ↔ P .skip) := ⟨.rfl, .rfl, .rfl⟩
theorem test_FetchIssueAndLineEvents_either (e : Emulation) : e.cause = none ∨ ∃ x, e.cause = some x := by
  cases h : e.cause with
  | none => exact .inl rfl
  | some x => exact .inr ⟨x, rfl⟩

/-- Line 3 of private scratch stands in the backing; page 1 shows the stash page at 0x20000, in HBM, or a far page. -/
def partyLine : Party := { partyA with backed := [3], pages := [(1, .stash capA false 0x20000), (2, .stash capA false 0x100000000000)] }
theorem test_FetchIssueAndLineEvents_lines :
    (let c := ctxOf State.reset partyLine ropeA { entryA with wait := some (.refill 3) } []
     c.s.party? 0 = some c.party ∧ NSet.has c.party.backed 3 = true ∧ c.party.resumed (fun w => w == .refill 3) = [[entryA]]
        ∧ c.party.stashAddr 33 = some 0x20080 ∧ NSet.has c.party.present 33 = false ∧ c.s.shutPages false 0x20080 128 = []
        ∧ c.party.stashAddr 64 = some 0x100000000000 ∧ NSet.has c.party.present 64 = false ∧ c.s.shutPages false 0x100000000000 128 ≠ [])
    ∧ NSet.has ({ partyLine with present := [33], dirty := [33] } : Party).present 33 = true := by decide +kernel

/-- A copy of 2 lines of 4 elements of a byte from 0x10000 to 0x30000, running. -/
def planCopy : CopyPlan := ⟨2, 4, 1, ⟨false, 0x10000, 4, 1, capA⟩, ⟨false, 0x30000, 4, 1, capMake 0x30000 0x1000 (pST + pGLOBAL) 1 0⟩, false, false⟩
def jobCopy (id : Nat) (low running : Bool) : Job := { jobOf id (.copy planCopy) with low := low, running := running, cairn := some ⟨0, 2, 0, 0⟩ }
def withJobs (l : List Job) : State := { State.reset with jobs := l }

/-- Six, seven and eight engines with normal jobs; one low job. -/
theorem test_JobEvents_dispatch :
    let norm (n : Nat) : List Job := (List.range n).map fun i => jobCopy i false true
    let q (l : List Job) (a b : Option Nat) : Bool :=
      let s := withJobs l
      let ready := s.jobs.filter (s.jobReady 0)
      decide ((s.engines 0).length < 8) && (ready.find? (fun x => !x.low)).map Job.id == a && (ready.find? fun x => x.low).map Job.id == b
    q (norm 6 ++ [jobCopy 6 false false, jobCopy 7 true false]) (some 6) (some 7) = true
    ∧ q (norm 7 ++ [jobCopy 7 false false]) (some 7) none = true
    ∧ q (norm 7 ++ [jobCopy 7 false false, jobCopy 8 true false]) (some 7) (some 8) = true
    ∧ q (norm 7 ++ [jobCopy 8 true false]) none (some 8) = true ∧ q (norm 7) none none = true
    ∧ ((withJobs (norm 8)).engines 0).length = 8 := by decide +kernel

theorem test_JobEvents_moves :
    let j := jobCopy 5 false true
    let s := { withJobs [j] with parties := [{ partyA with uid := 0, ropes := [ropeA] }] }
    s.job? 5 = some j ∧ j.moved + 8 ≤ planCopy.total ∧ planCopy.edgeAt (j.moved + 8) = true ∧ s.snap = none ∧ capHas planCopy.dst.cap pSTCAP = false
    ∧ s.jobShut j planCopy 0 8 = [] ∧ j.needs planCopy 0 8 = []
    ∧ (List.range 8).all (fun x => decide (planCopy.dst.at planCopy x + 1 ≤ 0x00C000000000) && !(j.lostAt (planCopy.dst.at planCopy x) 1)) = true
    ∧ (cWait State.reset .jobCard).entry.wait = some .jobCard ∧ (cWait State.reset .jobCard).s.cardsFull 0 0 = false
    ∧ (cWait (withJobs (List.replicate 256 (jobOf 0 .snap))) .jobCard).s.cardsFull 0 0 = true := by decide +kernel

/-- A ring at 0x20000 of 2 slots of 32 bytes at 0x30000, bound to the rope. -/
def ringA : RingAt := ⟨0x20000, 0x30000, 0x105, none⟩
def ropeRing : Rope := { ropeA with ring := some ⟨capDesc, capMake 0x30000 0x1000 (pST + pGLOBAL) 1 0, 0x105, none, 0, 0⟩ }
/-- That ring with PROD, CONS and COMMIT. -/
def withRing (prod cons commit : Nat) : State :=
  (State.reset.setBytes 0x20000 ringBytes).setBytes 0x20020 (leBytes 8 prod ++ leBytes 8 cons ++ leBytes 8 commit)
def cRing (s : State) : Ctx := ctxOf s partyA ropeRing entryA []

theorem test_JobEvents_ends :
    let ceased : Job := { jobCopy 5 false true with ceased := true, fault := 3 }
    let clean : Job := { jobCopy 5 false true with moved := 8, post := true }
    ((cRing (withRing 0 0 0)).s.ropeRing 0 0).map Prod.fst = some ringA ∧ cA.s.ropeRing 0 0 = none ∧ (cRing (withRing 7 6 7)).s.ringIdle ringA = true
    ∧ (withJobs [ceased]).job? 5 = some ceased ∧ ceased.ceased = true ∧ ceased.fault ≠ 0 ∧ (withJobs [ceased]).jobAway 5 = false
    ∧ clean.running = true ∧ planCopy.total ≤ clean.moved ∧ clean.post = true ∧ clean.by' = .rope 0 0
    ∧ ({ clean with post := false } : Job).fault = 0 ∧ ({ clean with by' := .peer 4 9 } : Job).by' = .peer 4 9 := by decide +kernel

theorem test_JobEvents_ldm :
    let y := (cCopy State.reset).rope.layout 8 |>.ldmPlan .f16 1 0x10040 false capA
    let j : Job := { jobOf 5 (.ldm y) with ceased := true }
    (withJobs [j]).job? 5 = some j ∧ j.by' = .rope 0 0 ∧ j.kind = .ldm y := by decide +kernel

/-- Records that wait for a rope without a ring, for one with a ring that has room, and for a queue whose ring is full. -/
def bodyA : Record := ⟨1, 0, 5, 8, 0⟩
def withQueueRing (s : State) : State :=
  { s with tags := [0x2000], queues := [(3, { QueueRec.zero with st := .active, colour := 1, compring := capDesc, compTag := true })] }
theorem test_RingAndSnapshotEvents_posts :
    State.reset.posts = [] ∧ (withRing 7 6 7).ringIdle ringA = true ∧ (withRing 7 5 7).ringFree ringA = false
    ∧ (withQueueRing (withRing 7 6 7)).queueRing 3 = some (0x20000, some ringA) ∧ (withQueueRing (withRing 7 5 7)).queueRing 3 = some (0x20000, some ringA) := by
  decide +kernel

theorem test_RingAndSnapshotEvents_streams :
    let j : Job := { jobOf 5 (.stream planCopy ringA none) with running := true }
    let s := { withRing 7 6 7 with jobs := [j] }
    s.job? 5 = some j ∧ j.kind = .stream planCopy ringA none ∧ s.ringFree ringA = true ∧ ringA.desc + 0x40 ≤ 0x00C000000000 ∧ s.ringProd 0x20000 < 2 ^ 63
    ∧ (let t := { State.reset.setBytes 0x20014 (leBytes 2 0x33 ++ leBytes 2 0 ++ leBytes 4 5) with ringInt := [(0x20000, ⟨1, 100⟩)], timer := 5100 }
       (SMap.get RingInt.zero t.ringInt 0x20000).count ≠ 0 ∧ t.num 0x20018 4 = 5 ∧ 100 + 1000 * 5 ≤ t.timer ∧ t.num 0x20014 2 = 0x33)
    ∧ (SMap.get RingInt.zero State.reset.ringInt 0x20000).count = 0 := by decide +kernel

/-- A snapshot of two pages from 0x40000 to 0x60000, by job 5. -/
def snapA (cut : Bool) (saved : SMap (Option PageImage)) : Snap := ⟨5, cut, 0, 0x40000, 0x2000, 0x60000, saved, []⟩
def jobSnap : Job := { jobOf 5 .snap with running := true, caps := [capA, capMake 0x60000 0x2000 (pST + pGLOBAL) 1 0], cairn := some ⟨0, 2, 0, 0⟩ }
def withSnap (x : Snap) (l : List Job) : State := { State.reset with snap := some x, jobs := l, parties := [{ partyA with uid := 0, dirty := [33] }] }
theorem test_RingAndSnapshotEvents_snapshots :
    (withSnap (snapA false []) [jobSnap]).job? 5 = some jobSnap ∧ (withSnap (snapA false []) [jobSnap]).cutReady (snapA false []) = true
    ∧ (withSnap (snapA false []) [jobSnap, { jobCopy 6 false true with moved := 4 }]).cutReady (snapA false []) = false
    ∧ (snapA true []).cut = true ∧ jobSnap.ceased = false ∧ (snapA true []).dst + 0x2000 ≤ 0x00C000000000 ∧ capHas (jobSnap.caps.getD 1 0) pSTCAP = false
    ∧ (snapA true []).src + (snapA true []).len ≤ (snapA true []).dst ∧ (snapA true []).src % 4096 = 0 ∧ (snapA true []).len % 4096 = 0
    ∧ (0x41 : Nat) * 4096 + 4096 ≤ 0x40000 + 0x2000
    ∧ (withSnap (snapA true []) [jobSnap]).ropeRing 0 0 = none := by decide +kernel
theorem test_RingAndSnapshotEvents_whole (h : Nat) (img : PageImage) : SMap.get none (snapA true [(0x41, some img)]).saved 0x41 = some img ∧ (List.replicate 4096 (7#8)).length = 4096 ∧ jobSnap.lostAt ((snapA true []).dst + h) 4096 = false := by
  refine ⟨rfl, List.length_replicate, ?_⟩
  simp [Job.lostAt, jobSnap, jobOf, NSet.has]

/-! ### Gangs and the tier -/

/-- Two ropes of one party whose gang instruction is latched, at `left` cycles of other gangs. -/
def gangInstr : Instr := .mma ⟨false, 0, 0, 0, 0, false, false, 32, 2, 3⟩
def gangRope (slot : Nat) : Rope := { rope0 with gangReg := gangWord [0, 1] slot, unif := unifOf [(2, 0x400), (3, 0x800)], slot := slot
                                                 stack := [{ entryA with wait := some (.latch gangInstr) }] }
def withGang (gangs : List Gang) (w : Wait) : State :=
  { State.reset with gangs := gangs, gangCtr := 4
                     parties := [{ partyA with uid := 0, ropes := [0, 1].map fun k => { gangRope k with stack := [{ entryA with wait := some w }] } }] }
theorem test_GangEvents_join :
    let s := withGang [] (.latch gangInstr)
    let p := (s.party? 0).getD partyA
    (p.ropes[1]?).bind Rope.latched = some (0, gangInstr) ∧ (gangRope 1).gangList 1 = [0, 1] ∧ (gangRope 0).gangList 0 = [0, 1]
    ∧ ([0, 1].mapM fun j => (p.ropes[j]?).bind fun q => if q.ended then none else q.latched.map fun x => (j, x.1, x.2)) = some [(0, 0, gangInstr), (1, 0, gangInstr)]
    ∧ gangG (gangRope 0).gangReg = 2 ∧ gangG (gangRope 1).gangReg = 2 ∧ gangKey gangInstr (gangRope 0) = gangKey gangInstr (gangRope 1)
    ∧ s.occupancy 0 + gangCycles gangInstr 2 ≤ 592 := by decide +kernel

/-- Gang 3 of both ropes, its read phase under way or over. -/
def gangA (reading : Bool) : Gang := ⟨3, 0, 0, [⟨0, gangInstr, List.replicate 4 0, 0, 0⟩, ⟨1, gangInstr, List.replicate 4 0, 0, 0⟩], reading, 0, []⟩
theorem test_GangEvents_phases :
    let s (r : Bool) := withGang [gangA r] (.gang 3)
    let p := ((s true).party? 0).getD partyA
    (s true).gangs.find? (fun g => g.id == 3 && g.reading) = some (gangA true) ∧ ((gangA true).members.map GangMember.rope).Nodup
    ∧ isMmf gangInstr = false ∧ gangInstr.wf = true ∧ p.tileMay 0x400 (tileSizes gangInstr).1 = true ∧ p.tileMay 0x800 (tileSizes gangInstr).2 = true
    ∧ ((p.ropes[0]?).map fun r => ((r.s (gangOp gangInstr).a.toNat).toNat, (r.s (gangOp gangInstr).b.toNat).toNat)) = some (0x400, 0x800)
    ∧ (p.ropes[1]?).bind (Rope.gangPos 3) = some 0 ∧ (s false).gangs.find? (fun g => g.core == 0) = some (gangA false) ∧ (gangA false).left = 0 := by decide +kernel

theorem test_GangEvents_partials :
    let x : FarPart := ⟨0, 0, 0, 1, 0x30000, 0x30000, 0x3F800000, 2, 1, [], false⟩
    let s := { State.reset with parts := [{ x with addr := 0x30004 }, x] }
    s.parts[1]? = some x ∧ ((s.parts.take 1).any fun y => y.uid == x.uid && y.k == x.k && y.addr == x.addr) = false
    ∧ x.addr + 4 ≤ 0x00C000000000 ∧ s.poisoned x.addr 4 = false ∧ s.snap = none := by decide +kernel

/-- Page 0x800000 of the pool: asked for; with a frame free; with none; its states. -/
def askA : PageAsk := ⟨0x800000, .demand, false, 1, none⟩
def pageIn (st : PageSt) : PageRec := { residentPage with st := st }
def withPages (l : SMap (Option PageRec)) : State := { State.reset with pages := l }
def parkedRope : Rope := { ropeA with park := some ⟨0x1000, [0x800000], false, false, 0⟩ }
theorem test_TierEvents_fetch :
    let s := { State.reset with asks := [askA] }
    let full := { withPages ((List.range 96).map fun n => (0x900000 + n, some residentPage)) with asks := [askA] }
    s.markVersions = s ∧ State.reset.nextAsk = none ∧ s.nextAsk = some askA ∧ s.fetching < 64 ∧ s.framesFree ≠ 0 ∧ s.regionAt (0x800000 * 2 ^ 21) = none
    ∧ full.markVersions = full ∧ full.nextAsk = some askA ∧ full.fetching < 64 ∧ full.framesFree = 0 ∧ (full.pages.any fun e => e.2.any fun r => r.st == .evicting) = false
    ∧ full.victim = some 0x900000 ∧ full.page? 0x900000 = some residentPage
    ∧ 64 ≤ ({ withPages ((List.range 64).map fun n => (0x900000 + n, some (pageIn .fetching))) with asks := [askA] } : State).fetching := by decide +kernel

theorem test_TierEvents_pages :
    (withPages [(0x800000, some (pageIn .fetching))]).page? 0x800000 = some (pageIn .fetching)
    ∧ (withPages [(0x800000, some (pageIn .evicting))]).page? 0x800000 = some (pageIn .evicting)
    ∧ hostPage (0x500000000000 / 2 ^ 21) = true ∧ (withPages [(0x2800000, some (pageIn .fetching))]).page? 0x2800000 = some (pageIn .fetching) ∧ hostPage 0x2800000 = true
    ∧ (let r : PageRec := { residentPage with upgrade := true }; (withPages [(0x2800000, some r)]).page? 0x2800000 = some r ∧ r.st = .resident ∧ r.upgrade = true)
    ∧ (let c := ctxOf (withPages [(0x800000, some (pageIn .fetching))]) partyA parkedRope entryA []
       c.s.party? 0 = some c.party ∧ c.party.ropes[0]? = some c.rope ∧ c.rope.park = some ⟨0x1000, [0x800000], false, false, 0⟩ ∧ 0x800000 ∈ [0x800000])
    ∧ (let s := withPages [(0x2800000, some residentPage)]
       s.page? 0x2800000 = some residentPage ∧ (0x2800000 : Nat) * 2 ^ 21 < 0x500000001000 ∧ (0x500000000000 : Nat) < (0x2800000 + 1) * 2 ^ 21
        ∧ s.evictable 0x2800000 residentPage = true)
    ∧ (let s := { withPages [(0x2800000, some residentPage)] with pins := [⟨0, 1, 0x2800000⟩] }; s.evictable 0x2800000 residentPage = false) := by decide +kernel
theorem test_TierEvents_none (lo hi : Nat) : ∀ e ∈ State.reset.pages, (e.1 + 1) * 2 ^ 21 ≤ lo ∨ hi ≤ e.1 * 2 ^ 21 := by intro e h; cases h

/-! ### Parties, queues, drains, sweeps -/

/-- A launch of one record of two parties of the object's one entry, for queue 0, mapped with core 0 in PART. -/
def recA : ContRec := ⟨0, 0, 0, 2, [], 0, .strided 0x40000 64 64 (pLD + pLDCAP), none, false, Know.none⟩
def queueOn : QueueRec := { QueueRec.zero with st := .active, colour := 1, part := 1, slot := some 0 }
def withLaunch (x : Launch) (offers : List Nat) : State :=
  { State.reset with launches := [x], objects := [objectA], queues := [(0, queueOn)], offers := offers }

theorem test_PartyEvents_placement :
    let x := { launchOf [recA] with offsets := [0x20], wave := none }
    let s := withLaunch x [0]
    State.reset.offers = [] ∧ State.reset.launches = [] ∧ s.savedFor 0 = false ∧ (s.waiting 0).head? = some x ∧ x.offer 0 = some ({ recA with next := 1 }, 0)
    ∧ s.objects.find? (fun y => y.handle == x.object) = some objectA ∧ objectA.entries[0]? = some entryRec ∧ s.room 0 entryRec.need = true
    ∧ s.allot (partyArea 1 64 4096 1) = some 0x00BF00000000 := by decide +kernel

def partyIn (st : PartyStatus) : Party := { partyA with uid := 0, status := st, ropes := [{ ropeA with stack := [entryA] }] }
def withParty (p : Party) (timer parklim : Nat) : State :=
  { State.reset with parties := [p], timer := timer, queues := [(0, { queueOn with parklim := parklim })] }
theorem test_PartyEvents_parties :
    let parked := { partyA with uid := 0, ropes := [parkedRope] }
    let s := withParty (partyIn (.saved .bucket)) 0 200
    (withParty (partyIn .ended) 0 200).party? 0 = some (partyIn .ended) ∧ (withParty (partyIn .ended) 0 200).busyParty 0 = false
    ∧ (withParty parked 200000 200).queue 0 = { queueOn with parklim := 200 } ∧ (0 : Nat) + 1000 * 200 ≤ 200000 ∧ parked.status = .placed ∧ parked.ropes[0]? = some parkedRope
    ∧ (withParty parked 0 200).timer < 0 + 1000 * 200
    ∧ (withParty (partyIn (.saving .park)) 0 200).saveWaits (partyIn (.saving .park)) = false ∧ partyA.saveAt + 0x680 + 32 * partyA.stashPages.length ≤ 0x00C000000000
    ∧ s.mayRestore (partyIn (.saved .bucket)) 0 = true ∧ s.mayRestore (partyIn (.saved .bucket)) 1 = false := by decide +kernel

/-- A `barinit` that waits since 0; a spawn that waits for a record; a launch that waits for its first record. -/
theorem test_PartyEvents_waits :
    let bars (n : Nat) : Party := { partyA with bars := (List.range n).map fun b => (b, some (BarRec.fresh true 0 1)) }
    let c (n timer : Nat) : Ctx := ctxOf { State.reset with timer := timer } (bars n) ropeA { entryA with wait := some (.barRecord 0) } []
    (c 1 0).entry.wait = some (.barRecord 0) ∧ (c 1 0).s.barRecords 0 < 96 ∧ 96 ≤ (c 96 200000).s.barRecords 0 ∧ ((c 96 200000).s.queue 0).parklim % 2 ^ 20 = 200
    ∧ 0 + 1000 * 200 ≤ (c 96 200000).s.timer ∧ (c 96 0).s.timer < 0 + 1000 * 200
    ∧ (cWait State.reset .recordSlot).entry.wait = some .recordSlot ∧ (cWait State.reset .recordSlot).s.freeRecord = some 0
    ∧ (let x := { launchOf [] with first := some recA }; (withLaunch x []).launch? 0 = some x ∧ (withLaunch x []).freeRecord = some 0 ∧ x.first = some recA) := by
  decide +kernel

theorem test_QueueEvents_bells :
    let s := { State.reset with queues := [(5, queueA)] }
    (5 * 8) % 8 = 0 ∧ (s.queue 5).st ≠ .free ∧ (s.queue 5).st ≠ .lost ∧ (s.queue 5).tail ≤ 2 ∧ 2 ≤ (s.queue 5).head + 2 ^ (s.queue 5).rsize
    ∧ ¬(3 ≤ (s.queue 5).head + 2 ^ (s.queue 5).rsize) ∧ State.reset.mailbox.busy = false ∧ State.reset.mailbox.answered + 1 = 1 ∧ 0x1FFF + [(0 : Byte)].length ≤ 0x2000 := by
  decide +kernel

/-- Queue 5 is eligible with a slot free; with the 2,048 slots in use, queue 6 gives up its own. -/
theorem test_QueueEvents_slots :
    let on : QueueRec := { queueA with st := .active, head := 0, tail := 1 }
    State.reset.eligibleNext = none
    ∧ (let s := { State.reset with queues := [(5, on)] }; s.eligibleNext = some (5, on) ∧ s.freeSlot = some 0)
    ∧ (let s := { State.reset with queues := [(5, on), (6, { on with slot := some 0 })] }
       s.eligibleNext = some (5, on) ∧ s.unmapNext = some (6, { on with slot := some 0 }) ∧ s.freeSlot = some 1) := by decide +kernel
theorem slots_full (l : SMap QueueRec) (h : ∀ k, k < 2048 → ∃ e ∈ l, e.2.slot = some k) :
    ({ State.reset with queues := l } : State).freeSlot = none := by
  simp only [State.freeSlot, List.find?_eq_none, List.mem_range]
  intro k hk
  obtain ⟨e, he, hs⟩ := h k hk
  simp only [Bool.not_eq_true, Bool.not_eq_false', List.elem_eq_contains, List.contains_iff_mem, List.mem_filterMap]
  exact ⟨e, he, hs⟩
theorem test_QueueEvents_full :
    ({ State.reset with queues := (List.range 2048).map fun k => (10 + k, { queueA with st := .active, slot := some k }) } : State).freeSlot = none :=
  slots_full _ fun k hk => ⟨(10 + k, { queueA with st := .active, slot := some k }), List.mem_map.mpr ⟨k, List.mem_range.mpr hk, rfl⟩, rfl⟩

theorem test_QueueEvents_buckets :
    let s (level : Int) : State := { State.reset with timer := 1000, buckets := [(7, ⟨level, 100, 10, false, 50, 0, []⟩)] }
    State.reset.timer < (State.reset.bucket 7).since + 1000 ∧ ((s 8).bucket 7).since + 1000 ≤ (s 8).timer
    ∧ max (-(8 * 100)) (min (8 * 100) ((8 : Int) - (s 8).debit 7 + 8 * 10)) = 88 ∧ ((s (-500)).bucket 7).dry = false
    ∧ decide (max (-(8 * 100)) (min (8 * 100) ((-500 : Int) - (s (-500)).debit 7 + 8 * 10)) ≤ 0) = true := by decide +kernel

/-- A command of queue 5 that runs launch 0 and has run for its WDOG. -/
def cmdA (w : Work) : Cmd := ⟨5, 3, 77, w⟩
def queueRun (st : QueueSt) : QueueRec := { queueA with st := st, wdog := 10, timer := 10000, slot := some 0, head := 4, tail := 4 }
def withCmd (st : QueueSt) (w : Work) : State := { State.reset with queues := [(5, queueRun st)], cmds := [cmdA w] }
theorem test_EndsAndDrains_queues :
    (withCmd .active (.launch 0)).working 5 = true ∧ (queueRun .active).wdog ≠ 0 ∧ 1000 * (queueRun .active).wdog ≤ (queueRun .active).timer
    ∧ ((withCmd .draining (.launch 0)).queue 5).st = .draining ∧ ((withCmd .draining (.launch 0)).parties.all fun p => p.queue != 5) = true
    ∧ ((withCmd .draining (.launch 0)).jobs.all fun j => (withCmd .draining (.launch 0)).jobQueue j != some 5) = true ∧ cmdA (.launch 0) ∈ (withCmd .draining (.launch 0)).cmds
    ∧ (({ withCmd .draining (.launch 0) with parties := [{ partyA with queue := 5 }] } : State).parties.all fun p => p.queue != 5) = false
    ∧ (let x := { launchOf [] with queue := 5, by' := .command 5 3 }
       let s := { withCmd .active (.launch 0) with launches := [x] }
       s.launch? 0 = some x ∧ x.records = [] ∧ x.first = none ∧ s.stopped 5 = false ∧ s.cmd? 5 3 = some (cmdA (.launch 0))) := by decide +kernel

/-- Graph 9 with node 0 before node 1, both of them running. -/
def graphA (w : Work) : GraphRec :=
  ⟨9, 1, [{ nodeOf .cond 0 [1] with rfirst := 1, rlast := 1 }, nodeOf .wait 1 []], some { runA with cmd := .command 5 3, counters := [(1, 1)], running := [(0, w), (1, .poll 0 1)] }⟩
def withGraph (w : Work) : State := { withCmd .active (.graph 9) with graphs := [graphA w] }
theorem test_EndsAndDrains_graphs : ([.fin 0x0100 0 0 0, .fin 2 3 0 0, .cond true, .poll 0x30000 1] : List Work).all (fun w =>
    (withGraph w).graph? 9 == some (graphA w) && (graphA w).run.any fun r => r.queue == 5 && !((withGraph w).stopped r.queue) && r.running.find? (fun y => y.1 == 0) == some (0, w)
      && r.running.any (fun y => y.1 != 0) && SMap.get 0 r.counters 1 - 1 == 0) = true ∧ (nodeOf .cond 0 [1]).succ.Nodup := by decide +kernel

theorem test_EndsAndDrains_polls :
    let s (a : Nat) := { withCmd .active (.poll a 0) with routes := [(1, [2])] }
    (s 0x30000).cmd? 5 3 = some (cmdA (.poll 0x30000 0)) ∧ (s 0x30000).stopped 5 = false ∧ isPeer 0x30000 = false ∧ (s 0x30000).waitMet 0x30000 0 = true
    ∧ (s 0x30000).waitMet 0x30000 1 = false ∧ isPeer 0x810000000000 = true ∧ (s 0x810000000000).routed (peerOf 0x810000000000) = true
    ∧ ((s 0x810000000000).peerOut.any fun r => r.src == .poll false 5 3) = false ∧ (State.reset.die 3).fenced = false
    ∧ (({ State.reset with dies := [(3, { DieRec.zero with fenced := true })] } : State).die 3).fenced = true := by decide +kernel

/-- Pass 1 runs for capabilities of colour 1 in 0x10000 to 0x20000. -/
def withPass (p : Party) (l : List Job) : State :=
  { State.reset with revMap := [⟨some (0x10000, 0x20000), 1, 1⟩], passRunning := true, parties := [p], jobs := l }
theorem test_SweepEvents :
    let j : Job := { jobCopy 5 false true with caps := [capA] }
    State.reset.revMap = [] ∧ (withPass (partyIn .placed) []).revMap ≠ [] ∧ (withPass (partyIn .placed) []).passRunning = true ∧ State.reset.passRunning = false
    ∧ (withPass (partyIn .placed) []).party? 0 = some (partyIn .placed) ∧ (withPass (partyIn .placed) []).sweeping capA = true
    ∧ (withPass (partyIn .placed) [j]).job? 5 = some j ∧ j.caps.any (withPass (partyIn .placed) [j]).sweeping = true ∧ j.ceased = false
    ∧ ({ j with caps := [] } : Job).caps.any (withPass (partyIn .placed) []).sweeping = false
    ∧ (let s := { State.reset with revMap := [⟨none, 1, 1⟩], passRunning := true, colours := [(1, .retiring)] }
       s.visited = true ∧ s.inFlight = false ∧ SMap.get .free s.colours 1 = .retiring)
    ∧ (withPass (partyIn .placed) []).visited = false
    ∧ (cWait State.reset (.mapRoom (x 4) capA 1#32 0#8)).entry.wait = some (.mapRoom (x 4) capA 1#32 0#8) ∧ Instr.wf (.revk ge false 0 (x 4)) = true ∧ State.reset.revMap.length < 1024
    ∧ 1024 ≤ ({ State.reset with revMap := List.replicate 1024 ⟨none, 1, 1⟩ } : State).revMap.length := by decide +kernel

/-! ### Commands -/

/-- A queue of colour 1 with its ring of one slot at 0x30000 and a command pending; colour 1 has the first 512 KiB of HBM. -/
def cmdQueue : QueueRec := { QueueRec.zero with st := .active, flags := 2, colour := 1, ring := 0x30000, tail := 1, slot := some 0, part := 1 }
def cmdBase : State := { State.reset with queues := [(5, cmdQueue)], grants := [⟨1, 0, 0, 0x80000⟩], colours := [(1, .live)] }
/-- 64 bytes of a command: OP, ARG, TAG 77, what stands at 8 and 0x10. -/
def cmdOf (op arg a v : Nat) : List Byte := leBytes 1 op ++ leBytes 1 0 ++ leBytes 2 arg ++ leBytes 4 77 ++ leBytes 8 a ++ leBytes 8 v ++ leBytes 40 0
def withCommand (s : State) (b : List Byte) : State := s.setBytes 0x30000 b
/-- The pending command is `b`, and its OP is `op`. -/
def takes (s : State) (b : List Byte) (op : Nat) : Bool :=
  ((withCommand s b).cmdAt 5).any fun x => x.1 == 0 && x.2.1 == b && numAt b 0 1 == op && (withCommand s b).led

/-- An object of two sections: NATIVE for the reset enablement map, its text at 0x80 with one entry at 0x20; LAUNCH, one entry of 1 rope,
8 registers, 4 KiB of scratch. -/
def objectBytes : List Byte :=
  [0x46, 0x43, 0x4F, 0x42] ++ leBytes 2 4 ++ leBytes 2 2 ++ leBytes 8 64 ++ leBytes 4 0 ++ leBytes 44 0
    ++ leBytes 4 2 ++ leBytes 4 0 ++ leBytes 8 128 ++ leBytes 8 64 ++ leBytes 8 9393102898254411529
    ++ leBytes 4 3 ++ leBytes 4 0 ++ leBytes 8 192 ++ leBytes 8 88 ++ leBytes 8 0
    ++ leBytes 8 0x20 ++ leBytes 8 0 ++ leBytes 16 0 ++ leBytes 32 0
    ++ leBytes 2 1 ++ leBytes 14 0 ++ leBytes 1 1 ++ leBytes 1 1 ++ leBytes 2 8 ++ leBytes 4 4096 ++ leBytes 6 0 ++ leBytes 2 0xFFFF ++ leBytes 12 0 ++ leBytes 4 80
    ++ leBytes 32 0 ++ leBytes 8 0
theorem test_object_parses : (parseObject objectBytes).map (fun p => (p.entries, p.native.map fun n => (n.1, n.2.2.1, n.2.2.2)))
    = some ([⟨1, 1, 8, 4096, 0xFFFF, [], [], []⟩], [(9393102898254411529, [0x20], [[]])]) := by decide +kernel
theorem test_object_signature : State.reset.enmap.sig = 9393102898254411529 := by decide +kernel

/-- Whether the loader accepts. -/
def judged (r : Nat × Nat ⊕ Parsed) : Option (Nat × Nat) :=
  match r with
  | .inl e => some e
  | .inr _ => none
theorem test_ObjectAndGraphCommands_load :
    let s := cmdBase.setBytes 0x10000 objectBytes
    let b := cmdOf 1 0 0x10000 objectBytes.length
    takes s b 1 = true ∧ takes s (cmdOf 0 0 0 0) 0 = true ∧ takes s (cmdOf 0x0D 0 0 0) 0x0D = true ∧ (withCommand s b).imageOk 5 b = true
    ∧ (withCommand s (cmdOf 1 0 0x10000 0)).imageOk 5 (cmdOf 1 0 0x10000 0) = false
    ∧ judged ((withCommand s b).judge 1 false ((withCommand s b).imageBytes b)) = none
    ∧ judged (cmdBase.judge 1 false [0]) = some (2, 0)
    ∧ ((parseObject objectBytes).bind fun p => ((withCommand s b).takeCmd 5).installObject 1 p).isSome = true := by decide +kernel

/-- The object as loaded, and a launch of one party of it with one argument. -/
def loaded : ObjRec := ⟨7, 1, [⟨1, 1, 8, 4096, 0xFFFF, [], [], []⟩], [⟨9393102898254411529, 0x50000, 64, [0x20], [[]]⟩], none, none, none, []⟩
def launchBytes (h parties : Nat) : List Byte :=
  leBytes 1 2 ++ leBytes 1 0 ++ leBytes 2 0 ++ leBytes 4 77 ++ leBytes 4 h ++ leBytes 4 parties ++ leBytes 8 0x60000 ++ leBytes 4 64 ++ leBytes 4 0
    ++ leBytes 8 0x20000 ++ leBytes 1 1 ++ leBytes 1 0 ++ leBytes 2 (pLD + pLDCAP) ++ leBytes 4 5 ++ leBytes 8 6 ++ leBytes 8 0
theorem test_ObjectAndGraphCommands_launch :
    let s := { cmdBase with objects := [loaded] }.setBytes 0x20000 (leBytes 8 0x10000 ++ leBytes 8 (0x1000 + pLD * 2 ^ 40))
    let b := launchBytes 7 1
    let t := withCommand s b
    takes s b 2 = true ∧ t.safeHolds 5 = false ∧ t.object? 1 8 = none ∧ t.object? 1 7 = some loaded ∧ (LaunchReq.of b).object = 7
    ∧ t.listCaps 1 (LaunchReq.of b).args (LaunchReq.of b).nargs = some [capMake 0x10000 0x1000 (pLD + pGLOBAL) 1 0] ∧ (LaunchReq.of b).ok = true
    ∧ t.framesOk 1 (LaunchReq.of b) = true ∧ ((t.takeCmd 5).selectCode loaded).isSome = true
    ∧ ((t.takeCmd 5).selectCode { loaded with native := [] }).isNone = true ∧ t.placeableEntry 5 ⟨1, 1, 8, 4096, 0xFFFF, [], [], []⟩ [] = true
    ∧ t.placeableEntry 5 ⟨1, 1, 8, 4096, 0xFFFF, [], [], []⟩ [3] = false ∧ loaded.cards[0xFFFF]? = none ∧ t.freeRecord = some 0 := by decide +kernel

/-- A graph image of one WAIT node. -/
def graphBytes : List Byte :=
  [0x46, 0x43, 0x47, 0x52] ++ leBytes 2 1 ++ leBytes 58 0 ++ leBytes 1 6 ++ leBytes 63 0 ++ leBytes 1 9 ++ leBytes 7 0 ++ leBytes 8 0x40000 ++ leBytes 8 3 ++ leBytes 40 0
def graphIdle : GraphRec := ⟨9, 1, [{ nodeOf .wait 0 [] with payload := cmdOf 9 0 0x40000 3 }], none⟩
theorem test_ObjectAndGraphCommands_graphs :
    let s := cmdBase.setBytes 0x10000 graphBytes
    let b := cmdOf 3 0 0x10000 graphBytes.length
    let g := { cmdBase with graphs := [graphIdle] }
    takes s b 3 = true ∧ (withCommand s b).imageOk 5 b = true ∧ (((withCommand s b).takeCmd 5).loadGraph 1 ((withCommand s b).imageBytes b)).isSome = true
    ∧ ((cmdBase.takeCmd 5).loadGraph 1 [0]).isNone = true ∧ takes g (cmdOf 4 0 9 0) 4 = true ∧ headOk (cmdOf 4 0 9 0) 0 = true ∧ restZero (cmdOf 4 0 9 0) 0x0C = true
    ∧ (cmdBase.graphs.any fun x => x.handle == 9 && x.colour == 1) = false ∧ g.graph? 9 = some graphIdle ∧ graphIdle.run = none
    ∧ graphIdle.nodes[0]? = some { nodeOf .wait 0 [] with payload := cmdOf 9 0 0x40000 3 }
    ∧ (let h := { cmdBase with graphs := [{ graphIdle with run := some runA }] }; h.graph? 9 = some { graphIdle with run := some runA } ∧ takes h (cmdOf 4 0 9 0) 4 = true)
    ∧ takes g (cmdOf 5 0 9 0) 5 = true ∧ (g.object? 1 9).isSome = false ∧ (g.graphs.any fun x => x.handle == 9 && x.colour == 1 && x.run.isNone) = true
    ∧ (({ cmdBase with objects := [loaded] } : State).object? 1 7).isSome = true ∧ ({ cmdBase with objects := [loaded] } : State).objectUsed 7 = false
    ∧ ({ cmdBase with objects := [loaded], launches := [launchOf []] } : State).objectUsed 7 = true := by decide +kernel

theorem test_MemoryAndCollectiveCommands_block :
    let e (a : Nat) := leBytes 8 a ++ leBytes 8 (0x1000 + pLD * 2 ^ 40)
    let s := cmdBase.setBytes 0x20000 (e 0x10000 ++ e 0x11000)
    let b := cmdOf 6 1 0x20000 0x20040
    takes s b 6 = true ∧ ((withCommand s b).makeBlock 1 b).isSome = true ∧ 0x20000 + 64 ≤ 0x20040 ∧ ((withCommand s (cmdOf 6 2 0x20000 0x20040)).makeBlock 1 (cmdOf 6 2 0x20000 0x20040)).isNone = true
    ∧ takes cmdBase (cmdOf 8 0 0x40000 9) 8 = true ∧ headOk (cmdOf 8 0 0x40000 9) 0 = true ∧ cmdBase.signalOk 1 (cmdOf 8 0 0x40000 9) = true
    ∧ cmdBase.signalOk 1 (cmdOf 8 0 0x40004 9) = false ∧ takes cmdBase (cmdOf 9 0 0x40000 9) 9 = true ∧ cmdBase.waitOk 1 (cmdOf 9 0 0x40000 9) = true
    ∧ cmdBase.waitOk 1 (cmdOf 9 0 0x90000 9) = false ∧ takes cmdBase (cmdOf 0x0C 0 0x40000 64) 0x0C = true ∧ cmdBase.granted 1 0x40000 64 = true := by decide +kernel

/-- A window of one page over blocks of format 0x20 in stack 0. -/
def windowBits : Nat := 0x080000000000 + 2 ^ 96 + 0x40000 * 2 ^ 128 + 2 ^ 176 + 2 ^ 178 + 0x20 * 2 ^ 192 + 0x60000 * 2 ^ 200
theorem test_MemoryAndCollectiveCommands_window :
    let b := cmdOf 7 0 (2 * 256) 0x20000
    takes cmdBase b 7 = true ∧ headOk b 0 && restZero b 0x18 && numAt b 0x0A 6 == 0 && decide (numAt b 8 1 < 12) && decide (numAt b 9 1 < 8) && cmdBase.granted 1 0x20000 32 = true
    ∧ cmdBase.windowOk 1 0 2 windowBits = true ∧ cmdBase.windowOk 1 1 2 windowBits = false := by decide +kernel

/-- A COPY of 2 lines of 4 bytes from 0x10000 to 0x40000. -/
def copyBytes : List Byte :=
  leBytes 1 0x0A ++ leBytes 3 0 ++ leBytes 4 77 ++ leBytes 8 0x10000 ++ leBytes 8 0x40000 ++ leBytes 2 4 ++ leBytes 2 2 ++ leBytes 4 4 ++ leBytes 4 4 ++ leBytes 4 5 ++ leBytes 24 0
theorem test_MemoryAndCollectiveCommands_copy : takes cmdBase copyBytes 0x0A = true ∧ cmdBase.dieFull (copyDie copyBytes) = false ∧ headOk copyBytes 0 = true
    ∧ (cmdBase.copyCaps 1 copyBytes).isSome = true ∧ (cmdBase.copyCaps 1 (copyBytes.set 0x28 1)).isNone = true := by decide +kernel
theorem test_MemoryAndCollectiveCommands_full : (withJobs (List.replicate 1024 (jobOf 0 .snap))).dieFull 0 = true := by
  have full : ∀ (l : List Job), (∀ j ∈ l, (j.card && j.die == 0) = true) → 1024 ≤ l.length → (withJobs l).dieFull 0 = true := fun l h n => by
    simp only [State.dieFull, withJobs, List.filter_eq_self.mpr h, n, decide_true]
  exact full _ (fun j h => by rw [List.eq_of_mem_replicate h]; decide) (Nat.le_of_eq List.length_replicate.symm)

/-- A plan image of two ranks: FETCH into buffer 0 from base 0, 64 bytes. -/
def planBytes : List Byte :=
  [0x46, 0x43, 0x43, 0x50] ++ leBytes 2 1 ++ leBytes 1 2 ++ leBytes 1 0 ++ leBytes 8 11 ++ leBytes 2 2 ++ leBytes 1 1 ++ leBytes 1 0 ++ leBytes 4 1 ++ leBytes 8 0
    ++ leBytes 8 (64 + 2 ^ 40) ++ leBytes 56 0 ++ leBytes 1 0 ++ leBytes 1 5 ++ leBytes 62 0
    ++ leBytes 1 1 ++ leBytes 1 5 ++ leBytes 4 0 ++ leBytes 2 64 ++ leBytes 24 0
theorem test_MemoryAndCollectiveCommands_plans :
    let s := cmdBase.setBytes 0x10000 planBytes
    let b := cmdOf 0x0B 0 0x10000 planBytes.length
    let p := { planA [] with bases := [(64, true, false)] }
    let r := { cmdBase with plans := [p] }.setBytes 0x20000 (leBytes 8 0x10000 ++ leBytes 8 (0x1000 + pLD * 2 ^ 40))
    let c := cmdOf 0x0B 1 4 0x20000
    takes s b 0x0B = true ∧ numAt b 2 2 = 0 ∧ (withCommand s b).imageOk 5 b = true ∧ (((withCommand s b).takeCmd 5).loadPlan 1 ((withCommand s b).imageBytes b)).isSome = true
    ∧ ((cmdBase.takeCmd 5).loadPlan 1 [0]).isNone = true
    ∧ takes r c 0x0B = true ∧ headOk c 1 = true ∧ (withCommand r c).plan? 1 4 = some p ∧ ((withCommand r c).replayCaps 1 c).isSome = true
    ∧ ((withCommand cmdBase c).replayCaps 1 c).isNone = true ∧ takes r (cmdOf 0x0B 2 4 0) 0x0B = true
    ∧ (headOk (cmdOf 0x0B 2 4 0) 2 && restZero (cmdOf 0x0B 2 4 0) 0x0C && (r.plan? 1 4).isSome && !(r.replays.any fun r => r.plan == 4)) = true := by decide +kernel

/-! ### Requests -/

/-- A request that waits: its head and payload in MBREQ. -/
def withRequest (s : State) (code : Nat) (p : List Byte) : State :=
  { s with mailbox := { s.mailbox with busy := true, req := (leBytes 2 code ++ leBytes 2 0 ++ leBytes 4 p.length ++ leBytes 8 1 ++ leBytes 48 0 ++ p).mapIdx fun i b => (i, b) } }
theorem leNat_leBytes (n v : Nat) : leNat (leBytes n v) = v % 256 ^ n := by
  induction n generalizing v with
  | zero => simp [leBytes, leNat, Nat.mod_one]
  | succ n ih => rw [leBytes, leNat, ih, Nat.pow_succ', Nat.mod_mul, BitVec.toNat_ofNat]
theorem length_leBytes (n v : Nat) : (leBytes n v).length = n := by
  induction n generalizing v with
  | zero => rfl
  | succ n ih => rw [leBytes, List.length_cons, ih]
theorem get_listed (l : List Byte) (n i : Nat) : SMap.get 0#8 (l.mapIdx fun j b => (n + j, b)) (n + i) = l.getD i 0#8 := by
  induction l generalizing n i with
  | nil => rfl
  | cons b t ih =>
    simp only [List.mapIdx_cons, SMap.get, Nat.add_zero]
    cases i with
    | zero => simp
    | succ i =>
      rw [if_neg (by omega)]
      have := ih (n + 1) i
      simpa [Nat.add_assoc, Nat.add_comm 1] using this

theorem slice (l : List Byte) (off n : Nat) (h : off + n ≤ l.length) : (List.range n).map (fun i => l.getD (off + i) 0) = (l.drop off).take n := by
  refine List.ext_getElem (by simp; omega) fun i h1 h2 => ?_
  simp at h1
  simp [List.getD_eq_getElem?_getD, List.getElem?_eq_getElem (show off + i < l.length by omega)]

/-- Every payload of at most 4,032 bytes may be that of a request of any CODE that waits for the lead: the hypothesis of the rules of requests. -/
theorem test_requests (s : State) (code : Nat) (p : List Byte) (hl : s.fw.lead.isSome = true) (ha : s.mailbox.answered = 0) (hc : code < 65536)
    (hp : p.length ≤ 4032) : (withRequest s code p).requested code p := by
  have len : (leBytes 2 code ++ leBytes 2 0 ++ leBytes 4 p.length ++ leBytes 8 1 ++ leBytes 48 0 ++ p).length = 64 + p.length := by simp [length_leBytes]; omega
  have bytes (off n : Nat) (h : off + n ≤ 64 + p.length) : (withRequest s code p).reqBytes off n
      = ((leBytes 2 code ++ leBytes 2 0 ++ leBytes 4 p.length ++ leBytes 8 1 ++ leBytes 48 0 ++ p).drop off).take n := by
    rw [← slice _ _ _ (by omega)]
    simp only [State.reqBytes, withRequest]
    congr 1; funext i
    have := get_listed (leBytes 2 code ++ leBytes 2 0 ++ leBytes 4 p.length ++ leBytes 8 1 ++ leBytes 48 0 ++ p) 0 (off + i)
    simpa using this
  have c : leNat (leBytes 2 code) = code := by rw [leNat_leBytes]; omega
  have n : leNat (leBytes 4 p.length) = p.length := by rw [leNat_leBytes]; omega
  refine ⟨?_, ?_, ?_, ?_⟩
  · have : (withRequest s code p).fw = s.fw ∧ (withRequest s code p).mailbox.busy = true := ⟨rfl, rfl⟩
    rw [State.mailCode, this.1, this.2, hl, bytes 0 2 (by omega)]
    simp [List.append_assoc, length_leBytes, c]
  · rw [State.headSound, bytes 0 64 (by omega), show (withRequest s code p).mailbox.answered = 0 from ha]
    simp [numAt, List.append_assoc, List.drop_append, List.take_append, List.drop_eq_nil_of_le, List.take_of_length_le, length_leBytes, n, hp]
    decide
  · rw [bytes 0 64 (by omega)]
    simp [numAt, List.append_assoc, List.drop_append, List.take_append, List.drop_eq_nil_of_le, List.take_of_length_le, length_leBytes, n]
  · rw [bytes 64 p.length (by omega)]
    simp [List.append_assoc, List.drop_append, List.drop_eq_nil_of_le, List.take_of_length_le, length_leBytes]

/-- Colour 1 LIVE, its grant the first 512 KiB of HBM; queue 5 of R311's record, in the payload's layout. -/
def reqBase : State := { State.reset with colours := [(1, .live)], grants := [⟨1, 0, 0, 0x80000⟩] }
def queuePayload (rsize : Nat) : List Byte :=
  leBytes 2 5 ++ leBytes 6 0 ++ leBytes 1 3 ++ leBytes 2 2 ++ leBytes 2 1 ++ leBytes 2 7 ++ leBytes 8 0x30000 ++ leBytes 1 rsize ++ leBytes 3 0 ++ leBytes 4 9
    ++ leBytes 16 0 ++ leBytes 4 200 ++ leBytes 4 0 ++ leBytes 32 3 ++ leBytes 8 0x20000 ++ leBytes 8 0
theorem test_QueueAndColourRequests_queues :
    reqBase.queueSetOk (queuePayload 4) = true ∧ reqBase.queueSetOk (queuePayload 3) = false
    ∧ (reqBase.queue 5).st = .free ∧ (({ reqBase with queues := [(5, queueRun .active)] } : State).queue 5).st = .active
    ∧ (({ reqBase with queues := [(5, queueA)] } : State).queue 5).st = .idle
    ∧ (withRequest reqBase 19 []).mailCode = some 19 ∧ reqBase.mailCode = none
    ∧ (let t := { withRequest reqBase 4 [] with mailbox := { (withRequest reqBase 4 []).mailbox with answered := 5 } }; t.mailCode = some 4 ∧ t.headSound = false) := by decide +kernel

theorem test_QueueAndColourRequests_colours :
    SMap.get .free reqBase.colours 2 = .free ∧ SMap.get .free reqBase.colours 1 ≠ .free
    ∧ reqBase.live 1 = true ∧ reqBase.live 2 = false ∧ reqBase.mapFull = false
    ∧ ({ reqBase with revMap := List.replicate 1024 ⟨none, 1, 1⟩ } : State).mapFull = true
    ∧ (∃ e ∈ [(5, queueA)], e.2.colour = 1 ∧ e.2.st ≠ .free) := by decide +kernel
theorem test_QueueAndColourRequests_kinds : inKind 0 0x100000 64 ∧ inKind 3 0x800000000000 64 ∧ ¬inKind 1 0x800000000000 64 := by
  simp [inKind]

/-- Every colour is in use. -/
theorem test_QueueAndColourRequests_exhausted (c : Nat) (h : 1 ≤ c) (hi : c ≤ 16383) :
    SMap.get .free ({ State.reset with colours := (List.range 16384).map fun c => (c, .live) } : State).colours c ≠ .free := by
  rw [get_const ColourSt.free .live (List.range 16384) c (List.mem_range.mpr (by omega))]; decide

/-- A free handle entry; one in use, and one that is to be free after pass 1. -/
def handleRec (after : Option Nat) : HandleRec := ⟨List.replicate 48 0, 1, after⟩
theorem test_TableAndFirmwareRequests_tables :
    let adm := leBytes 1 0x82 ++ leBytes 1 7 ++ leBytes 2 3 ++ leBytes 2 1 ++ leBytes 2 0 ++ leBytes 8 0 ++ leBytes 8 0x1000 ++ leBytes 8 0
    let reg := leBytes 8 0x100000000000 ++ leBytes 8 0x200000 ++ leBytes 1 1 ++ leBytes 1 1 ++ leBytes 2 1 ++ leBytes 4 0 ++ leBytes 8 0 ++ leBytes 2 1 ++ leBytes 30 0
    reqBase.admitOk ⟨2, 7, 3, 1, 0, 0, 0x1000, 0⟩ = true ∧ reqBase.admitOk ⟨2, 7, 0, 1, 0, 0, 0x1000, 0⟩ = false
    ∧ adm.length = 32 ∧ reg.length = 64 ∧ regionOk reg = true ∧ regionOk (reg.set 0 1) = false
    ∧ (let b := leBytes 129 0 ++ leBytes 4 1 ++ leBytes 1 9; 133 ≤ b.length ∧ b.length = 133 + numAt b 129 4)
    ∧ SMap.get none ({ reqBase with handles := [(6, some (handleRec none))] } : State).handles 6 = some (handleRec none)
    ∧ SMap.get none ({ reqBase with handles := [(6, some (handleRec (some 1)))] } : State).handles 6 = some (handleRec (some 1)) := by decide +kernel

/-- Whatever firmware says of an image, one of the clauses applies. -/
theorem test_TableAndFirmwareRequests_firmware : (leBytes 32 5).length = 32 ∧ (∃ p ∈ [partyIn (.saved .bucket)], p.status = .saved .bucket) := by decide +kernel
theorem test_TableAndFirmwareRequests_either (image : List Byte) (min : Nat) : imageVerifies image = false
    ∨ (imageVerifies image = true ∧ Config.imageVersion image < min) ∨ (imageVerifies image = true ∧ min ≤ Config.imageVersion image) := by
  rcases Bool.eq_false_or_eq_true (imageVerifies image) with h | h <;> simp [h]; omega

/-! ### Ports, delegation, collectives, firmware -/

/-- Port 2 carries traffic, on lanes 0 to 7; port 3 is in training; port 4 has never been trained. -/
def portIn (st : PortSt) : PortRec := ⟨st, 9, 0xFF, 5, 1, [], true, 7⟩
def withPorts : State := { State.reset with ports := [(2, portIn .up), (3, portIn .training)], routes := [(5, [2])] }
theorem test_PortAndPeerEvents_ports :
    withPorts.portUp 2 = true ∧ withPorts.portUp 3 = false ∧ (withPorts.port 3).st = .training ∧ (withPorts.port 4).st = .down ∧ (withPorts.port 4).trained = false
    ∧ (withPorts.port 2).lanemap.testBit 3 = true ∧ NSet.has (withPorts.port 2).failed 3 = false ∧ 4 ≤ ((withPorts.port 2).others 3).length ∧ 8 ≤ ((withPorts.port 2).others 3).length
    ∧ (let r := { portIn .up with failed := [4, 5, 6, 7, 8, 9] }; r.lanemap.testBit 3 = true ∧ (r.others 3).length < 4)
    ∧ (withPorts.port 2).lanemap.testBit 9 = false ∧ 8 ≤ (portIn .training).goodLanes.length ∧ (portIn .training).lanemap = laneMap ((portIn .training).goodLanes.take 8) := by
  decide +kernel

/-- A `delg` that waits for a port, its record live. -/
def waitA (sent : Bool) : DelgWait := ⟨0, 0, 0, 0, 0x1000, 0, sent, none⟩
def withDelg (timer : Nat) (sent : Bool) : Ctx :=
  ctxOf { withPorts with timer := timer, delgs := [(0, ⟨0, some ⟨capDeleg, 5, 0, 0⟩⟩)], delgWaits := [waitA sent] } partyA ropeA { entryA with wait := some (.delg 0) } []
theorem test_PortAndPeerEvents_waiting :
    let s := (withDelg 0 false).s
    (∃ w ∈ s.delgWaits, w.sent = false ∧ w.answer = none) ∧ (s.delgSlot 0).body = some ⟨capDeleg, 5, 0, 0⟩ ∧ s.delgLive 0 = true ∧ s.portFor 5 ≠ none
    ∧ (∀ w ∈ withPorts.delgWaits, w.sent = true ∨ w.answer ≠ none) := by decide +kernel

/-- Device 7 may do everything to 0x30000 to 0x40000 under its colour 3. -/
def withAdmit : State := { State.reset with admits := [(4, some ⟨7, 7, 3, 1, 0, 0x30000, 0x10000, 0⟩)], peerSeen := NSet.set [] (7 * 2 ^ 64 + 1) true }
theorem test_PortAndPeerEvents_accesses :
    NSet.has withAdmit.peerSeen (7 * 2 ^ 64 + 1) = true ∧ NSet.has withAdmit.peerSeen (7 * 2 ^ 64 + 2) = false ∧ withAdmit.near 0x30000 8 = true ∧ withAdmit.backedAt 0x00C000000000 = false
    ∧ ([.load 8, .store [1, 2] none, .store [1, 2] (some true), .store [1, 2] (some false), .atomic .add false true .acq .sys 1 0, .join, .hold 6] : List PeerOp).all (fun op =>
        decide (0x30000 + (peerNeeds op).2 ≤ 2 ^ 40) && withAdmit.admitted.any fun x => x.allows 7 3 (peerNeeds op).1 0x30000 (peerNeeds op).2) = true
    ∧ (withAdmit.admitted.any fun x => x.allows 7 4 1 0x30000 8) = false ∧ withAdmit.poisoned 0x30000 8 = false
    ∧ ({ withAdmit with poison := [0xC00] } : State).poisoned 0x30000 8 = true := by decide +kernel

/-- An access of lane 3 at device 1, and a job's read, not answered for 10 ms. -/
def peerReq (src : PeerFrom) (op : PeerOp) : PeerReq := ⟨6, 1, 0x810000000000, op, src, 1, 0x810000000000, 0, 0, none⟩
theorem test_PortAndPeerEvents_replies :
    let c := ctxOf { State.reset with timer := 10000000, peerOut := [peerReq (.lane 0 0 3 0x1000) (.load 4)] } partyA ropeA { entryA with wait := some (.peer (.ld spanOp .b32 8) 1) } []
    let j := { jobCopy 5 false true with id := 5 }
    c.s.peerOut.find? (fun x => x.seq == 6) = some (peerReq (.lane 0 0 3 0x1000) (.load 4)) ∧ c.s.party? 0 = some c.party ∧ c.party.ropes[0]? = some c.rope
    ∧ (0 : Nat) + 10000000 ≤ c.s.timer ∧ State.reset.timer < 0 + 10000000 ∧ (leBytes 4 9).length = peerReplyBytes (.load 4)
    ∧ (withJobs [j]).job? 5 = some j ∧ (peerReq (.job 5) (.load 4)).src = .job 5 ∧ (peerReq .nobody (.store [1] none)).src = .nobody ∧ (peerReq (.part 0 0) (.atomic .add false false .relaxed .sys 1 0)).src = .part 0 0 ∧ (peerReq (.posted 0 0) (.store [1] none)).src = .posted 0 0 ∧ peerSilent (.store [1] none) = true := by decide +kernel

theorem test_DelegationEvents_handles :
    let s := { State.reset with admits := [(4, some ⟨7, 0x1F, 3, 1, 5, 0, 0, 0x30000⟩)], queues := [(5, queueA)] }
    s.inboxFor 7 3 = some (⟨7, 0x1F, 3, 1, 5, 0, 0, 0x30000⟩, 0) ∧ s.freeHandleEntry = some 0 ∧ (List.replicate 48 (0 : Byte)).length = 48 ∧ fieldOf 0x30000 0 48 + 16 * 0 + 16 ≤ 0x00C000000000
    ∧ s.inboxFor 7 4 = none ∧ (State.reset.checkInvoke 7 3 (List.replicate 48 0)) = .inl Cause.capTag.code := by decide +kernel

theorem test_DelegationEvents_delg :
    (withDelg 0 true).s.delgWaits.find? (fun x => x.entry == 0 && x.answer.isNone) = some (waitA true) ∧ (withDelg 0 true).entry.wait = some (.delg 0)
    ∧ (waitA true).sent = true ∧ (waitA true).id ≠ 0xFFFFFFFE ∧ (waitA true).entry = (waitA true).id % 4096 ∧ (waitA false).sent = false
    ∧ (waitA true).since + 10000000 ≤ (withDelg 10000000 true).s.timer ∧ (withDelg 0 true).s.timer < (waitA true).since + 10000000 := by decide +kernel

theorem test_DelegationEvents_reports :
    let j : Job := jobOf 5 (.handle 7 [] 0)
    (withJobs [j]).job? 5 = some j ∧ j.kind = .handle 7 [] 0 ∧ j.by' = .rope 0 0 ∧ (withJobs [j]).ropeRing 0 0 = none
    ∧ 0 + 10000000 ≤ ({ withJobs [j] with timer := 10000000 } : State).timer ∧ (withJobs [j]).timer < 0 + 10000000 := by decide +kernel

/-- The fields of a wire form. -/
theorem wire_fields (h n c t : Nat) : let w := leBytes 8 h ++ leBytes 12 n ++ leBytes 12 c ++ leBytes 16 t
    numAt w 0 8 = h % 256 ^ 8 ∧ numAt w 8 12 = n % 256 ^ 12 ∧ numAt w 0x14 12 = c % 256 ^ 12 ∧ numAt w 0x20 16 = t % 256 ^ 16 ∧ w.length = 48 := by
  refine ⟨?_, ?_, ?_, ?_, by simp [length_leBytes]⟩ <;> rw [← leNat_leBytes, numAt] <;>
    simp [List.drop_append, List.drop_eq_nil_of_le, List.take_of_length_le, length_leBytes]

/-- Device 7 invokes, through port 2, the copy block at 0x20000 that was delegated to it; the block passes whatever stream and tag AES gives. -/
def withInvoke : State :=
  { State.reset.setBytes 0x20000 blockBytes with
    tags := [0x2000, 0x2001], portKeys := [(2 * 128 + 7, 1)], delgs := [(0, ⟨0, some ⟨capDeleg, 7, 2, 1⟩⟩)], admits := [(4, some ⟨7, 0x1F, 3, 1, 5, 0, 0, 0⟩)] }
theorem test_DelegationEvents_invocation : withInvoke.checkInvoke 7 3 (sealWire 1 0 2 1 7 capDeleg 0) = .inr (CmdBlock.ofBytes (withInvoke.bytes 0x20000 64), 1, capDeleg)
    ∧ withInvoke.dieFull (homeDie (capBase capDeleg)) = false := by
  refine ⟨?_, by decide +kernel⟩
  have w := wire_fields (wireHdr 0 2 capDeleg) (nonceOf 2 1).toNat (sealPlain capDeleg 0 ^^^ gcmStream 1 (nonceOf 2 1)).toNat
    (gcmTag 1 (nonceOf 2 1) (sealData (wireHdr 0 2 capDeleg) 7) (sealPlain capDeleg 0 ^^^ gcmStream 1 (nonceOf 2 1))).toNat
  have e (m : Nat) (x : BitVec m) (k : Nat) (hk : 2 ^ m = k) : x.toNat % k = x.toNat := by rw [← hk, Nat.mod_eq_of_lt x.isLt]
  rw [e 96 _ _ (by decide), e 96 _ _ (by decide), e 128 _ _ (by decide), Nat.mod_eq_of_lt (by decide +kernel)] at w
  have key : SMap.get 0 withInvoke.portKeys (fieldOf (wireHdr 0 2 capDeleg) 52 4 * 128 + 7) = 1 := by decide +kernel
  simp only [State.checkInvoke, sealWire, w, key, BitVec.ofNat_toNat, BitVec.setWidth_eq, BitVec.xor_assoc, BitVec.xor_self, BitVec.xor_zero]
  rw [if_neg (by simp)]
  decide +kernel

/-- Operations of a replay of plan 4, one of each kind and state, their buffers in use. -/
def opOf' (kind : Nat) (sw : Bool) : PlanOp := ⟨kind, if kind = 4 then 0x07 else if kind = 5 then 0x0A else 5, 0, 0, 8, 0, if 4 ≤ kind ∧ kind ≤ 5 then 1 else 0, 0, 1, sw, 3, 0, []⟩
def replayA (sts : List OpSt) : ReplayRec :=
  { ReplayRec.mk' 2 0 (planA []) none (some (.command 5 3)) 5 [capA] 0 0 0 0 Know.none with started := true, ops := sts, bufs := [(0, ⟨leBytes 8 0x3F800000, 1, false, Know.none⟩), (1, ⟨leBytes 8 0x40000000, 2, false, Know.none⟩)] }
def withReplay (ops : List (PlanOp × OpSt)) : State :=
  { withPorts with plans := [planA (ops.map Prod.fst)], replays := [replayA (ops.map Prod.snd)], bufUsed := 2, switches := [⟨11, 3, 3⟩], cmds := [cmdA (.replay 2)] }

theorem test_CollectiveEvents_start :
    let r := { replayA [] with started := false }
    let s := { withReplay [] with replays := [r], bufUsed := 0 }
    s.replays.find? (fun x => !x.started) = some r ∧ s.planOf r = some (planA []) ∧ s.bufUsed + (planA []).nbuf ≤ 4096 ∧ 4096 < 4095 + (planA []).nbuf
    ∧ (∀ r ∈ (withReplay []).replays, r.started = true)
    ∧ (let o := opOf' 3 true; let t := { s with plans := [planA [o]] }; t.planOf r = some (planA [o]) ∧ o ∈ (planA [o]).ops ∧ o.kind = 3 ∧ o.sw = true) := by decide +kernel

/-- FETCH, SEND, RECV, REDUCE, MERGE, DELIVER wait for nothing; a SEND has been sent, or refused 100 us ago. -/
theorem test_CollectiveEvents_operations :
    let at' (kind : Nat) (sw : Bool) (st : OpSt) (ok : State → OpAt → Bool) : Bool := ((withReplay [(opOf' kind sw, st)]).opAt 2 0 kind).any fun x => decide (x.st = st) && ok (withReplay [(opOf' kind sw, st)]) x
    at' 1 false (.waiting 0) (fun s x => !(isPeer x.addr) && x.shut 0 s false == []) = true
    ∧ at' 2 false (.waiting 0) (fun s x => s.portFor (x.p.rankmap.getD x.o.peer 0) != none && decide (x.o.bytes ≤ (x.r.buf x.o.bufa).bytes.length)) = true
    ∧ at' 2 false (.sent 0 false) (fun _ _ => true) = true ∧ at' 2 false (.sent 0 true) (fun s _ => decide (s.timer < 0 + 100000)) = true ∧ 0 + 100000 ≤ 100000
    ∧ at' 4 false (.waiting 0) (fun _ x => decide (x.o.bytes ≤ (x.r.buf x.o.bufa).bytes.length) && decide (x.o.bytes ≤ (x.r.buf x.o.bufb).bytes.length)) = true
    ∧ at' 5 false (.waiting 0) (fun _ x => decide (x.o.bytes ≤ (x.r.buf x.o.bufa).bytes.length) && decide (x.o.bytes ≤ (x.r.buf x.o.bufb).bytes.length)) = true
    ∧ at' 6 false (.waiting 0) (fun s x => decide (0 < x.o.bytes) && decide (x.o.bytes ≤ (x.r.buf x.o.bufa).bytes.length) && decide (x.addr + x.o.bytes ≤ 0x00C000000000) && s.snap == none
        && !(x.lostAt 0 x.addr x.o.bytes) && s.near x.addr x.o.bytes) = true
    ∧ at' 6 false .done (fun _ _ => true) = true ∧ at' 3 false (.waiting 0) (fun s x => s.inboundFor x 1 false == none) = true := by decide +kernel

/-- A chunk from rank 1, one from a switch that covers one rank of two, a late one of rank 1. -/
def chunkFrom (sw : Bool) (bitmap : DWord) : ChunkIn := ⟨5, 11, 0, 1, 3, sw, leBytes 8 0x40400000, bitmap, false⟩
def inboundA (sw : Bool) (bitmap : DWord) : Inbound := ⟨11, 0, if sw then 255 else 1, 3, false, ⟨leBytes 8 0x40400000, bitmap, false, Know.none⟩⟩
theorem test_CollectiveEvents_chunks :
    let s := withReplay [(opOf' 3 false, .waiting 0)]
    (s.chunkReplay 11 0).isSome = true ∧ (s.chunkReplay 11 1).isSome = false
    ∧ ((s.chunkReplay 11 0).any fun x => x.1.started && recvWaits x.1 x.2 1 3 false) = true ∧ (∀ x ∈ s.inbound, x.late = true)
    ∧ (let t := { s with inbound := [inboundA false 2] }; (t.opAt 2 0 3).any (fun x => !x.o.sw && t.inboundFor x 1 false == some (inboundA false 2)) = true)
    ∧ (let t := { withReplay [(opOf' 3 true, .waiting 0)] with inbound := [inboundA true 1] }
       (t.opAt 2 0 3).any (fun x => x.o.sw && t.inboundFor x 255 false == some (inboundA true 1) && (t.expects 11 3 &&& ~~~1#64) &&& ~~~x.r.dropped != 0) = true)
    ∧ (let t := { withReplay [(opOf' 3 true, .waiting 0)] with inbound := [inboundA true 3] }
       (t.opAt 2 0 3).any (fun x => x.o.sw && t.inboundFor x 255 false == some (inboundA true 3) && t.expects 11 3 &&& ~~~3#64 == 0) = true)
    ∧ (let t := withReplay [(opOf' 3 true, .held)]
       (t.opAt 2 0 3).any (fun x => (t.chunkReplay 11 0) == some (x.r, x.p) && heldOp x.r x.p 3 == some 0 && decide (x.st = .held)
         && ((List.range 64).filter fun k => (t.expects 11 3).getLsbD k && !(((x.r.buf x.o.bufa).bitmap ||| x.r.dropped).getLsbD k)) == [1]
         && decide (x.o.bytes ≤ (x.r.buf x.o.bufa).bytes.length)) = true) ∧ (2#64).getLsbD 1 = true := by decide +kernel
theorem test_CollectiveEvents_later (k : Nat) (h : k ≠ 255) : ∀ y ∈ [inboundA true 1], y.from' ≠ k := by
  intro y hy; simp at hy; subst hy; exact fun e => h e.symm

theorem test_CollectiveEvents_complete :
    let s := withReplay [(opOf' 1 false, .done)]
    (s.replay? 2).any (fun r => r.started && r.ops.all (fun o => o == .done) && r.job == none && r.by' == some (.command 5 3) && (s.planOf r).isSome) = true
    ∧ s.cmd? 5 3 = some (cmdA (.replay 2))
    ∧ (let j : Job := jobOf 6 (.replay 2)
       let t := { s with jobs := [j], replays := [{ replayA [.done] with job := some 6, by' := none }] }
       t.job? 6 = some j ∧ j.by' = .rope 0 0 ∧ t.ropeRing 0 0 = none) := by decide +kernel

theorem test_FirmwareAndPoolEvents_lease :
    let s (timer : Nat) : State := { State.reset with timer := timer }
    (s 1000000).fw.lead = some 0 ∧ (s 1000000).fwHealthy 0 = true ∧ (s 1000000).fw.expiry ≤ 1000000 + 3000000 ∧ 1000000 < (s 1000000).fw.expiry
    ∧ (s 4000000).fw.expiry ≤ 4000000 ∧ (s 4000000).fw.collect = none ∧ ¬((s 0).fw.expiry ≤ (s 0).timer)
    ∧ (let f := { Firmware.zero with lead := none, collect := some 0, asking := [1, 3] }; f.collect = some 0 ∧ f.asking = 1 :: [3])
    ∧ NSet.has ({ Firmware.zero with halted := [2] } : Firmware).halted 2 = true := by decide +kernel
theorem test_FirmwareAndPoolEvents_either (image : List Byte) : imageVerifies image = true ∨ ¬imageVerifies image = true := Decidable.em _

theorem test_FirmwareAndPoolEvents_errors :
    let rec' := { launchOf [recA] with id := 3 }
    (({ State.reset with queues := [(5, queueA)] } : State).queue 5).st ≠ .free ∧ ({ State.reset with launches := [rec'] } : State).launch? 3 = some rec'
    ∧ (withJobs [jobCopy 5 false true]).job? 5 = some (jobCopy 5 false true) ∧ State.reset.backedAt 0x30000 = true ∧ State.reset.backedAt 0x00C000000000 = false
    ∧ (let f := { Firmware.zero with thresholds := [(3, 1)] }; SMap.get 0 f.thresholds 3 ≠ 0 ∧ SMap.get 0 f.thresholds 3 ≤ SMap.get 0 f.worn (3 * 65536 + 9) + 1) ∧ 9 < Firmware.zero.pcap := by
  decide +kernel

theorem test_FirmwareAndPoolEvents_safe :
    let due : SpareDue := ⟨0, 5⟩
    let s (w : Option SafeWait) : State := { State.reset with timer := 100000001, fw := { Firmware.zero with due := [due], safe := w } }
    let w : SafeWait := ⟨due, [5], 0⟩
    (s none).fw.safe = none ∧ (s none).fw.due = [due] ∧ State.reset.fw.due = [] ∧ (s (some w)).runsOn [5] = false ∧ w.since + 100000000 < (s (some w)).timer
    ∧ ({ s (some w) with queues := [(0, { queueOn with part := 32 })], launches := [launchOf []] } : State).runsOn [5] = true ∧ State.reset.timer ≤ w.since + 100000000
    ∧ (s none).enmap.cores.testBit 5 = true ∧ 48 / 52 = 5 / 52 ∧ (s none).enmap.cores.testBit 48 = false ∧ NSet.has (s none).fw.retired 48 = false
    ∧ (List.range 48).all (fun i => (s none).enmap.cores.testBit i) = true := by decide +kernel

theorem test_FirmwareAndPoolEvents_pool :
    isPool (0x100000000000 / 128 * 128) = true ∧ State.reset.backedAt (0x100000000000 / 128 * 128) = true ∧ isPool 0 = false
    ∧ (let r : Region := ⟨0x100000000000, 0x200000, true, false, 0, [1], []⟩
       SMap.get none ({ State.reset with regions := [(4, some r)] } : State).regions 4 = some r ∧ r.versioned = false ∧ 4 < (if r.parity then 5 else 2)) := by decide +kernel

/-! ### Traps, steps -/

/-- A rope with a handler, in it, and at a full stack. -/
def ropeTrap : Rope := { ropeA with trapvec := 0x4000 }
def cHandler : Ctx := ctxOf (State.reset.setBytes 0x1000 (leBytes 8 0x0001080000001F31)) partyA { ropeTrap with hm := true, hdepth := 1, tpc := 0x1000 } { entryA with pc := 0x4008 } [entryA]
theorem test_TrapEntry : (cRope ropeTrap).mayEnter = true ∧ cHandler.rope.hm = true ∧ cA.rope.hm = false ∧ cA.rope.trapvec = 0
    ∧ (let c := ctxOf State.reset { partyA with capacity := 1 } ropeTrap entryA []; c.rope.hm = false ∧ c.rope.trapvec ≠ 0 ∧ c.rope.stack.length = c.party.capacity)
    ∧ cA.active gNone = 0 ∧ cA.active ge ≠ 0 := by decide +kernel
theorem test_ReturnsAndSystemRegisters :
    cHandler.rope.stack.length = cHandler.rope.hdepth + 1 ∧ (cRope { ropeTrap with hm := true, hdepth := 5 }).rope.stack.length ≠ 5 + 1
    ∧ (match cHandler.s.fetchWord cHandler.party cHandler.rope cHandler.rope.tpc cHandler.rope.tpc.toNat with
      | .ok w => w.toNat % 4
      | _ => 0) = 1
    ∧ (let c := ctxOf State.reset { partyA with codeTag := false } cHandler.rope cHandler.entry [entryA]
       (match c.s.fetchWord c.party c.rope c.rope.tpc c.rope.tpc.toNat with
        | .cause e _ => decide (e = .capTag)
        | _ => false) = true)
    ∧ Instr.wf (.rdsr 4 (.unif 4)) = true ∧ Instr.wf (.rdsr 4 (.lane 8)) = true ∧ Instr.wf (.wrsr 0 (.lane (x 8))) = true ∧ Instr.wf (.wrsr 3 (.unif 4)) = true := by decide +kernel

/-- The encodings of the samples decode to themselves, at the first word of a block and at the last place that holds them. -/
theorem test_DecodeEncode : samples.all (fun i => i.coded && i.wf && (match decode 0 (encodeBits i) with
    | .ok j b => decide (j = i) && b == i.bytes
    | _ => false) && (match decode (8 - i.bytes / 4) (encodeBits i) with
    | .ok j b => decide (j = i) && b == i.bytes
    | _ => false)) = true := by decide +kernel

/-- The bench with `iadd x8, x9, x12` (of `test_words`), whose rope is then chosen, fetches it and issues it; the code words are in HBM under the
code capability, and in no buffer or cache. -/
def benchAdd : State := State.reset.withFetchWord 64 (encodeBits (.iadd iop false))
theorem test_StepRunsDecoded :
    let s0 := { benchAdd with agenda := [], issuing := none }
    let p := (benchAdd.party? 0).getD partyA
    let r := p.ropes.getD 0 rope0
    let s1 := s0.mapPipe 0 0 fun _ _ r => r.settlePoints
    benchAdd.agenda = [.cycle 0 0 []] ∧ (choose (s1.readyPairs 0 0 [])).map (fun x => (x.uid, x.k, x.pos)) = some (0, 0, 0)
    ∧ ((choose (s1.readyPairs 0 0 [])).any fun x =>
        let s2 := s1.tickPipe 0 0 (s1.readyPairs 0 0 []) (some x)
        (s2.ctxAt x.uid x.k x.pos).any fun c => (match s2.fetchInstr c.party c.rope c.entry.pc with
          | .ok (i, b) => decide (i = .iadd iop false) && b == 8 && !(i.pastAllotment c.party.regs)
          | _ => false)) = true
    ∧ firstCause (benchAdd.useSteps p.colour p.code p.codeTag) = none ∧ capHas p.code pEXEC = true ∧ capBase p.code ≤ 0x1000
    ∧ 0x1000 + 4 * 2 ≤ capBase p.code + capLen p.code ∧ r.fbuf = [] ∧ benchAdd.icache = [] ∧ lenBytes (benchAdd.num 0x1000 4 % 4) / 4 = 2
    ∧ benchAdd.num 0x1000 4 % 4 ≠ 0 ∧ 0x1000 / 4 % 8 + 2 ≤ 8
    ∧ (match decode 0 (benchAdd.num 0x1000 8) with
      | .ok i b => decide (i = .iadd iop false) && b == 8
      | _ => false) = true
    ∧ Instr.atRope .ringPost = false := by decide +kernel
theorem test_StepKeepsMemoryForm : Memory.wf State.reset.mem = true ∧ Memory.wf benchAdd.mem = true := by decide +kernel
theorem test_step : goesOn (step benchAdd) = true := by decide +kernel

/-! ### Results of single steps -/

/-- The rope after a step, as a predicate; false where the step does not answer a next state or the slot is gone. -/
def then' (c : Ctx) (i : Instr) (f : Ctx → Bool) : Bool :=
  match exec i c.s with
  | .next t => (t.ctxAt 0 0 0).any f
  | _ => false
/-- Lane registers are so after a step. -/
def gives (c : Ctx) (i : Instr) (l : List (Nat × Nat × Nat)) : Bool := then' c i fun d => l.all fun y => (d.rope.x y.1 y.2.1).toNat == y.2.2
/-- x9 = a, x12 = b, x14 = e in lanes 0 and 1, which are the active ones; x10 : x11 and x16 : x17 are zero. -/
def cVal (a b e : Nat) : Ctx :=
  ctxOf State.reset partyA { ropeA with regs := (List.range 2).flatMap fun l => [(256 * l + 9, BitVec.ofNat 32 a), (256 * l + 10, 0), (256 * l + 11, 0), (256 * l + 12, BitVec.ofNat 32 b),
    (256 * l + 14, BitVec.ofNat 32 e), (256 * l + 16, 0), (256 * l + 17, 0)] } entryTwo []

/-- Sums wrap and saturate; the high product; division by zero and of the least number (R118, R119). -/
theorem test_results_integer : gives (cVal 0xFFFFFFFF 2 0) (.iadd iop false) [(0, 8, 1), (1, 8, 1)] = true
    ∧ gives (cVal 0x7FFFFFFF 1 0) (.iadd iop true) [(1, 8, 0x7FFFFFFF)] = true ∧ gives (cVal 1 2 0) (.isub { iop with s := true } true) [(1, 8, 0)] = true
    ∧ gives (cVal 0xFFFFFFFF 0xFFFFFFFF 0) (.imulh { iop with s := true }) [(0, 8, 0xFFFFFFFE)] = true ∧ gives (cVal 0xFFFFFFFF 0xFFFFFFFF 0) (.imulh iop) [(0, 8, 0)] = true
    ∧ gives (cVal 0xFFFFFFF9 2 0) (.idiv iop) [(0, 8, 0xFFFFFFFD)] = true ∧ gives (cVal 0xFFFFFFF9 2 0) (.irem iop) [(0, 8, 0xFFFFFFFF)] = true
    ∧ gives (cVal 3 5 7) (.imad itri false) [(0, 8, 22)] = true ∧ gives (cVal 0xFFFFFFFF 2 7) (.imadw { itri with c := .reg (x 16) } false) [(0, 8, 0xFFFFFFFE), (0, 9, 0xFFFFFFFF)] = true
    ∧ gives (cVal 0x80000000 0 0) (.iabs iun true) [(0, 8, 0x7FFFFFFF)] = true ∧ gives (cVal 5 0 0) (.ineg iun false) [(0, 8, 0xFFFFFFFB)] = true := by decide +kernel

/-- Fields, shifts and permutes (R124 to R129). -/
theorem test_results_bits : gives (cVal 0xF0 0x3C 0xFF) (.bool3 itri 0x96) [(0, 8, 0x33)] = true ∧ gives (cVal 1 31 0) (.shl iop) [(0, 8, 0x80000000)] = true
    ∧ gives (cVal 0x80000000 31 0) (.sra iop) [(0, 8, 0xFFFFFFFF)] = true ∧ gives (cVal 0x80000000 31 0) (.shr iop) [(0, 8, 1)] = true
    ∧ gives (cVal 0xF00 0 0) (.popc iun) [(0, 8, 4)] = true ∧ gives (cVal 0 0 0) (.clz iun) [(0, 8, 32)] = true ∧ gives (cVal 8 0 0) (.ctz iun) [(0, 8, 3)] = true
    ∧ gives (cVal 1 0 0) (.brev iun) [(0, 8, 0x80000000)] = true := by decide +kernel

/-- Line 34's comparison writes the guard-true lanes' predicate; minimum and maximum by signedness (R122, R123). -/
theorem test_results_compare : then' (cVal 0xFFFFFFFF 1 0) (.icmp { iop with d := 3 } .lt .none 0) (fun d => d.rope.p 3 0 && d.rope.p 3 1) = true
    ∧ then' (cVal 0xFFFFFFFF 1 0) (.icmp { iop with d := 1, s := true } .lt .none 0) (fun d => !(d.rope.p 1 0) && !(d.rope.p 1 1)) = true
    ∧ gives (cVal 0xFFFFFFFF 1 0) (.imin iop) [(0, 8, 0xFFFFFFFF)] = true ∧ gives (cVal 0xFFFFFFFF 1 0) (.imax { iop with s := true }) [(0, 8, 0xFFFFFFFF)] = true := by decide +kernel

/-- 1.5 + 2.25, the product that rounds up, the fused sum, 1/0, and `fmax` of the poison value and 2.0 (R131, R132). -/
theorem test_results_float : gives (cVal 0x3FC00000 0x40100000 0) (.fadd fop) [(0, 8, 0x40700000)] = true
    ∧ gives (cVal 0x3F800001 0x3F800001 0xBF800002) (.fma ftri) [(0, 8, 0x28800000)] = true ∧ gives (cVal 0x3F800001 0x3F800001 0) (.fmul fop) [(0, 8, 0x3F800002)] = true
    ∧ then' (cVal 0x7FA5A5A5 0x40000000 0) (.fmax fop false) (fun d => (d.rope.x 0 8).toNat == 0x40000000 && d.rope.fpst.getLsbD 0) = true
    ∧ gives (cVal 0x40800000 0 0) (.fsqrt fun1) [(0, 8, 0x40000000)] = true ∧ gives (cVal 0x3F800000 0x40400000 0) (.fdiv fop) [(0, 8, 0x3EAAAAAB)] = true := by decide +kernel

/-- FP32 to INT32 nearest even, saturating; INT32 to FP32; the fields of a rounding (R66, R69). -/
theorem test_results_convert : gives (cVal 0x40200000 0 0) (.cvt ⟨false, .i32, .f32, .rn, true, false, ge, 8, x 9⟩) [(0, 8, 2)] = true
    ∧ gives (cVal 0x4F800000 0 0) (.cvt ⟨false, .i32, .f32, .rn, true, false, ge, 8, x 9⟩) [(0, 8, 0x7FFFFFFF)] = true
    ∧ gives (cVal 0xFFFFFFFE 0 0) (.cvt ⟨false, .f32, .i32, .rn, false, false, ge, 8, x 9⟩) [(0, 8, 0xC0000000)] = true
    ∧ gives (cVal 0xC0200000 0 0) (.rint ⟨false, .f32, .rz, false, false, ge, 8, x 9⟩) [(0, 8, 0xC0000000)] = true := by decide +kernel

/-- The block worked in R57: 3.0, -1.5, 0.5, -0.5, 3.5625 in lanes 0 to 4, packed with P = 4. -/
theorem test_results_block : gives (cRegs (fun l => [(9, [0x40400000, 0xBFC00000, 0x3F000000, 0xBF000000, 0x40640000].getD l 0)]) []) (.cvtb ge .rn 8 (x 9) (.pk 3 none))
    [(0, 8, 0x00010480), (1, 8, 0xA), (2, 8, 0x1B), (3, 8, 0x19), (4, 8, 0x1E), (5, 8, 0)] = true := by decide +kernel

/-- The sum of 32 lanes, an inclusive scan, a rotation by one, the ballot of p2 and the lowest lane (R141 to R152 of file 06). -/
theorem test_results_lanes :
    let c := cRegs (fun l => [(9, l + 1)]) []
    gives c (.red ge .add .i32 none none (.lane 8) (x 9)) [(0, 8, 528), (31, 8, 528)] = true ∧ gives c (.scan ge .add .i32 false none 8 (x 9)) [(0, 8, 1), (31, 8, 528)] = true
    ∧ gives c (.ballot ge .mask false (.lane 8) 2) [(7, 8, 3)] = true := by decide +kernel

/-- The capability worked in file 09: c2's words; the bounds trap of its first variation leaves c2. -/
theorem test_results_capability :
    let q := capMake 0x20000000 0x10000 (pLD + pST + pGLOBAL) 0x123 0
    let c (len : Nat) : Ctx := ctxOf State.reset { partyA with colour := 0x123 } { ropeTrap with regs := regsOf (fun _ => quadRegs 4 q ++ [(12, 0x400), (13, 0), (14, len), (15, 0)]), qtag := tagsOf [1] } entryA []
    quadRegs 4 q = [(4, 0x20000000), (5, 0), (6, 0x03000001), (7, 0x1238)]
    ∧ gives (c 0x100) (.cbnd ge 8 (x 4) (x 12) (x 14)) [(0, 8, 0x20000400), (0, 9, 0x01000000), (0, 10, 0x03000000), (0, 11, 0x1238)] = true
    ∧ then' (c 0x100) (.cbnd ge 8 (x 4) (x 12) (x 14)) (fun d => d.rope.tag 0 8) = true
    ∧ then' (c 0xFD00) (.cbnd ge 8 (x 4) (x 12) (x 14)) (fun d => d.rope.hm && d.rope.tcause.toNat == Cause.capBounds.code && !(d.rope.tag 0 8)) = true := by decide +kernel

/-- A store and a load of a word; an atomic addition returns what stood there (R226, R228, R234). -/
theorem test_results_memory :
    let st := exec (.st spanOp .b32 (x 12)) (ctxOf State.reset partyA { ropeA with regs := regsOf fun l => quadRegs 4 capA ++ [(9, 64 * l), (12, 0x11223344 + l)] } entryTwo []).s
    (match st with
      | .next t => t.num 0x10000 4 == 0x11223344 && t.num 0x10040 4 == 0x11223345 && t.mem.length == 8
      | _ => false) = true
    ∧ (let c := cTwoRegs (State.reset.setBytes 0x10000 (leBytes 4 0x8000007F)) (fun _ => quadRegs 4 capA ++ [(9, 0), (12, 1)]) [1]
       gives c (.ld spanOp .i16 8) [(0, 8, 0x7F), (1, 8, 0x7F)] = true ∧ gives c (.ld { spanOp with imm := 2 } .i16 8) [(0, 8, 0xFFFF8000)] = true
        ∧ gives c (.atom atomOp) [(0, 8, 0x8000007F), (1, 8, 0x80000080)] = true) := by decide +kernel

/-- The 32 lanes' words stored privately and loaded with sign extension (R141, R142). -/
theorem test_results_scratch : (match exec (.sts .b32 ge ⟨some (x 9), 0⟩ (x 12)) (cRegs (fun l => [(9, 4 * l), (12, 256 + l)]) []).s with
      | .next t => (t.party? 0).any fun p => p.sbytes 124 4 == leBytes 4 287
      | _ => false) = true
    ∧ gives (ctxOf State.reset { partyA with scratch := [(8, 0x80)] } { ropeA with regs := regsOf fun _ => [(9, 8)] } entryA []) (.lds .i8 ge 8 ⟨some (x 9), 0⟩) [(0, 8, 0xFFFFFF80)] = true := by
  decide +kernel

/-- The branch worked in R81: a join at 0x380, the taken side first, for the LFSR steps from 1 to 3. -/
theorem test_results_control :
    (match exec (.bra ⟨false, 1⟩ 0x100 0x180) (ctxOf State.reset partyA { ropeA with preds := [(1, 0xFFFF)] } { entryA with pc := 0x200, noRpc := false, rpc := 0x400 } []).s with
      | .next t => (t.party? 0).any fun p => p.ropes.any fun r => r.lfsr == 3 && r.stack.map (fun e => (e.kind, e.pc.toNat, e.mask.toNat, e.rpc.toNat))
        == [(.side, 0x300, 0xFFFF, 0x380), (.side, 0x210, 0xFFFF0000, 0x380), (.join, 0x380, 0xFFFFFFFF, 0x400)]
      | _ => false) = true
    ∧ then' cA (.nop ge) (fun d => d.entry.pc.toNat == 0x1008) = true ∧ then' cA (.seed 3) (fun d => d.entry.pc.toNat == 0x1008) = true := by decide +kernel

/-- `trap 7` enters the handler of R347, `tret.skip` leaves it past the word that `bkpt` stands in (R351, R353). -/
theorem test_results_trap : then' (cRope ropeTrap) (.trap ge 7) (fun d => d.entry.pc.toNat == 0x4000 && d.rope.hm && d.rope.tpc.toNat == 0x1000 && d.rope.tcause.toNat == 0x16
      && d.rope.tmask.toNat == 0xFFFFFFFF && d.rope.tinfo.toNat == 7 && d.rope.hdepth == 1 && d.rope.stack.length == 2) = true
    ∧ then' cHandler (.tret .skip) (fun d => d.entry.pc.toNat == 0x1008 && !d.rope.hm && d.rope.stack.length == 1) = true := by decide +kernel

/-- The gang multiply worked in file 11: row 0 of A and column 0 of B; with three planes of A of four; 4 and 3 cycles. -/
theorem test_results_gang :
    let a := leBytes 4 0x00010480 ++ leBytes 4 0xA ++ leBytes 4 0x1B ++ leBytes 4 0x19 ++ leBytes 4 0x1E ++ leBytes 2284 0
    let b := leBytes 4 0x0000047F ++ leBytes 4 0 ++ leBytes 4 0x1F ++ leBytes 2292 0
    let four : Instr := .mma ⟨true, 3, 3, 3, 3, false, false, 32, 2, 3⟩
    let three : Instr := .mma ⟨true, 2, 3, 3, 3, false, false, 32, 2, 3⟩
    (((gangResult four a b ropeA).getD 0 []).map fun y => y.bits).head? = some 0x40A00000
    ∧ (((gangResult three a b ropeA).getD 0 []).map fun y => y.bits).head? = some 0x40400000 ∧ gangCycles four 2 = 4 ∧ gangCycles three 2 = 3
    ∧ gangWord [0, 1] 0 = 0x40000001#32 := by decide +kernel

/-- SWEEP_PASS_START and COMPLETE: W rises by one, the entry leaves the map, and the colour is free (R206, R208). -/
theorem test_results_pass : (match exec .sweepPassComplete { State.reset with revMap := [⟨none, 1, 1⟩], passRunning := true, colours := [(1, .retiring)] } with
      | .next t => t.passDone == 1 && t.revMap == [] && !t.passRunning && t.colours == []
      | _ => false) = true := by decide +kernel

/-- A record into the ring at 0x20000: slot, PROD, COMMIT (R275, R276). -/
theorem test_results_ring : (match exec .ringPost { (cRing (withRing 7 6 7)).s with posts := [⟨.rope 0 0, bodyA, Know.none, []⟩] } with
      | .next t => t.num 0x20020 8 == 8 && t.num 0x20030 8 == 8 && t.num 0x30020 2 == 1 && t.num 0x30024 4 == 5
      | _ => false) = true := by decide +kernel

/-! ### Forms with peers, far pages, full stores and last arrivals -/

theorem test_LogicShifts_forms : let r : IntOp := ⟨true, false, false, ge, 8, x 9, .reg (x 12)⟩
    ([.shl iop, .shr iop, .sra iop, .shl { iop with u := true, d := 3, a := x 4, b := .reg (x 5) }, .sra { r with d := 63, a := x 0, b := .reg (x 63) },
      .shl { iop with w := true, d := 62, a := x 254, b := .reg (x 3) }] : List Instr).all Instr.wf = true := by decide +kernel

/-- Barrier 1 lacks its last arrival: rope 1 waits in its phase at a `red`; the issuing rope is the one that is missing. -/
def redWait : Instr := .red ge .add .i32 (some 1) (some 2) (.lane 8) (x 9)
def cLast (i : Instr) : Ctx :=
  let r := { ropeA with stack := [entryA] }
  let q := { rope0 with stack := [{ entryA with wait := some (.phase 1 0 i 0) }], slot := 1, regs := regsOf laneA }
  let p := { partyA with uid := 0, ropes := [r, q], bars := [(1, some { bar1 with arrived := 1, mask := 2, kind := .red .add .i32, partials := [(1, some 5#64)] })] }
  ⟨{ State.reset with parties := [p], issuing := some ⟨0, 0, 0⟩ }, 0, 0, 0, p, r, entryA⟩
theorem test_cLast_issues : (cLast redWait).s.ctx? = some (cLast redWait) := rfl
theorem test_TeamReductionsAndDraws_last :
    Instr.wf redWait = true ∧ (cLast redWait).arriveWrong 1 (.red .add .i32) = false ∧ (cLast redWait).alone = true
    ∧ ((cLast redWait).party.bar? 1).any (fun r => r.arrived + 1 == r.expect) = true
    ∧ ((cLast redWait).s.ctxAt 0 1 0).any (fun y => y.k == 1 && y.alone && y.entry.wait == some (.phase 1 0 redWait 0)) = true
    ∧ (let c := cParty (withBar { bar1 with expect := 1 }); let area := (c.rope.s drawtOp.area.toNat).toNat
       c.rope.drawtWait = [] ∧ c.party.areaCheck area = none ∧ (c.party.missing (area + 32 * c.k) 32).isEmpty = true ∧ c.alone = true
        ∧ (c.party.bar? 1).any (fun r => r.arrived + 1 == r.expect) = true ∧ c.arriveWrong 1 (.drawt (drawtForm none) area) = false) := by decide +kernel

/-- The page of `smap` not at a page's start; past the allotment; a job delivers into the pages of `sunmap` and `sflush`. -/
theorem test_ScratchPages_bounds :
    let o : SmapOp := ⟨false, 0, ge, x 4, x 10, x 12⟩
    Instr.wf (.smap o) = true ∧ cA.active ge ≠ 0 ∧ (cA.rope.x 0 12).toNat % 4096 ≠ 0
    ∧ (let c := cRegs (fun _ => quadRegs 4 capA ++ [(10, 0x1000), (11, 0), (13, 0x10000)]) [1]
       Instr.wf (.smap { o with c := x 13 }) = true ∧ (c.rope.x 0 13).toNat % 4096 = 0 ∧ c.party.scratchSize < (c.rope.x 0 13).toNat + 4096)
    ∧ (let c := cState { State.reset with jobs := [jobInto] }
       (c.rope.x 0 13).toNat % 4096 = 0 ∧ (c.rope.x 0 13).toNat + 4096 ≤ c.party.scratchSize ∧ c.s.jobsInto c.uid 0 4096 = true)
    ∧ (let c := cRegs (fun _ => quadRegs 4 capA ++ [(10, 0x1000), (11, 0), (13, 0xF000)]) [1]
       namesView (capBase capA) (capLen capA) = false ∧ c.usable (x 4) 0 = true) := by decide +kernel

/-- Two lanes at 64-byte steps in the window of device 1, which a route names. -/
def capPeer : Quad := capMake 0x810000000000 0x10000 (pLD + pST + pATOM + pLDCAP) 1 0
def withRoute : State := { State.reset with routes := [(1, [2])] }
def cFar (answers : List PeerData) (w : Option Wait) : Ctx :=
  ctxOf withRoute partyA { ropeA with regs := regsOf fun l => quadRegs 4 capPeer ++ [(9, 64 * l), (12, 8), (13, 0)], qtag := tagsOf [1], peerData := answers
                                      unif := unifOf [(9, 5), (10, 0), (11, 0)] }
    { entryTwo with wait := w } []
def answerOf (n : Nat) (lost : Bool) (l : Nat) : PeerData := ⟨0x1000, l, leBytes n (7 + l), lost, false⟩
theorem test_LoadsAndStores_peers :
    (cFar [] none).resumed = false ∧ (cFar [] none).peerMay 3 (x 4) ((cFar [] none).offset spanOp) pLD 4 = true
    ∧ (cFar [] none).peerMay 3 (x 4) ((cFar [] none).offset spanOp) (pLD + pLDCAP) 16 = true
    ∧ (cFar [] none).peerMay 3 (x 4) ((cFar [] none).offset spanOp) pST 4 = true ∧ (cFar [] none).active ge = 3
    ∧ (let c := cFar [answerOf 4 false 0, answerOf 4 false 1] none; c.heardAll 3 (x 4) (c.offset spanOp) = true ∧ c.unheard 3 = 0)
    ∧ (let c := cFar [answerOf 4 false 0, answerOf 4 true 1] none; c.heardAll 3 (x 4) (c.offset spanOp) = true ∧ c.unheard 3 ≠ 0) := by decide +kernel
theorem test_Atomics_peers :
    let off (c : Ctx) := c.atomOffset atomOp
    (cFar [] none).peerMay 3 (x 4) (off (cFar [] none)) (pATOM + pLD + pST) 4 = true
    ∧ (let c := cFar [answerOf 4 false 0, answerOf 4 false 1] none; c.heardAll 3 (x 4) (off c) = true ∧ c.unheard 3 = 0)
    ∧ (let c := cFar [answerOf 4 false 0, answerOf 4 true 1] none; c.heardAll 3 (x 4) (off c) = true ∧ c.unheard 3 ≠ 0) := by decide +kernel

/-- The command of a push in device 1's memory: asked for, answered, poisoned. -/
def cFarPush (answers : List PeerData) : Ctx := { cFar answers none with s := { (cFar answers none).s with queues := [(5, queueA)] } }
theorem test_cFarPush_issues (l : List PeerData) : (cFarPush l).s.ctx? = some (cFarPush l) := rfl
theorem test_QueuePushes_peers :
    Instr.wf (.qpush ⟨ge, 8, 9, 10, some (x 4)⟩) = true
    ∧ (cFarPush []).peerMay 1 (x 4) (fun _ => ((((cFarPush []).rope.s64 10).toNat : Nat) : Int)) pLD 64 = true
    ∧ (let c := cFarPush [answerOf 64 false 0]
       c.heardAll 1 (x 4) (fun _ => (((c.rope.s64 10).toNat : Nat) : Int)) = true ∧ c.unheard 1 = 0 ∧ ((c.heardBy 0).map fun d => d.bytes.length) = some 64
        ∧ c.s.pushOk 5 1 = true ∧ c.s.backedAt 0x20000 = true ∧ c.s.pushShut 5 = [])
    ∧ (cFarPush [answerOf 64 true 0]).unheard 1 ≠ 0 := by decide +kernel

/-- No card is free: `cpyc` of either type, `snap`, `coll`. -/
def manyJobs : List Job := List.replicate 256 (jobOf 0 .snap)
theorem test_CopyAndLoadJobs_waits :
    let c := cTwoRegs { State.reset.setBytes 0x20000 blockBytes with tags := [0x2000, 0x2001], jobs := manyJobs } (fun _ => quadRegs 4 capCmd) [1]
    c.s.cardsFull c.uid 0 = true ∧ c.rope.capt = none ∧ firstCause (c.cmdSteps 4) = none ∧ c.readable 0 capCmd 0 64 = true
    ∧ (let q := capMake State.reset.handleAt 64 (pCMD + pGLOBAL) 1 2
       let c := ctxOf { State.reset with jobs := manyJobs } partyA { ropeA with regs := regsOf fun _ => quadRegs 4 q, qtag := tagsOf [1] } entryA []
       firstCause (c.cmdSteps 4) = none ∧ capOtype q = 2 ∧ c.s.cardsFull c.uid 0 = true ∧ c.s.poisoned (capBase q) 64 = false) := by decide +kernel

/-- Not sealed with type 1. -/
theorem test_FabricCards_sealed :
    let c := ctxOf withRoute partyA { ropeA with regs := regsOf fun _ => quadRegs 8 capA, qtag := tagsOf [2], unif := unifOf [(0, 5)] } entryTwo []
    c.active ge ≠ 0 ∧ c.delgAnswer.isNone = true ∧ c.rope.tag 0 8 = true ∧ capOtype (c.rope.quad 0 8) ≠ 1 := by decide +kernel

/-- Two lanes through the gate of a snapshot with its reserve used up are held; with none running they are not. -/
theorem test_SpanTrapsAndParks_frames : cTwo.frames [⟨0, 0, 0x10000, 4, false⟩] = true := by decide +kernel

/-- A launch that has lost parties with a die takes no record; a word that awaits one holds it. -/
theorem test_SpawnsAndJoins_lost :
    let c := ctxOf { State.reset.setBytes 0x10040 (leBytes 8 1) with
        objects := [objectA], launches := [{ launchOf [] with dieLost := true }], queues := [(0, { QueueRec.zero with part := 1, colour := 1, st := .active })] } partyA
      { ropeA with regs := regsOf fun _ => quadRegs 4 capA ++ quadRegs 8 capA, qtag := tagsOf [1, 2], unif := unifOf [(4, 0), (5, 1), (6, 0x40), (7, 0)] } entryTwo []
    c.spawnBad (spawnOp false false) = false ∧ c.s.freeRecord = some 0 ∧ c.spawnMay (spawnOp false false) 0 false = true
    ∧ (c.s.launch? c.party.launch).any Launch.dieLost = true := by decide +kernel

/-! ### Forms of the events -/

/-- Emulations of one load and of one store by lane 0 through c1: free to go, past the capability's bytes, or a cause of their own; a
store to a far page. Config.emulation may be any of them (log 11). -/
def accA (off : Int) (data : List Byte) : EmuAcc := ⟨0, 1, off, 4, 4, data⟩
theorem test_FetchIssueAndLineEvents_emulations :
    let ld : Emulation := ⟨1, none, false, [accA 0 []]⟩
    let st : Emulation := ⟨1, none, true, [accA 8 (leBytes 4 9)]⟩
    let out : Emulation := ⟨1, none, false, [accA 0x10000 []]⟩
    let own : Emulation := ⟨1, some (.illegalEncoding, 1, 0), false, []⟩
    cA.emuMay ld = true ∧ cA.emuMay st = true ∧ cA.resumed = false ∧ own.cause ≠ none
    ∧ checkLanes (lanesOf (out.active &&& cA.entry.mask)) (fun n =>
        ((out.keyed cA.entry.mask).filter fun y => y.2.lane == n).flatMap fun y => cA.emuSteps out.write y.2) = some (.capBounds, 1)
    ∧ (let c := cTwoRegs State.reset (fun _ => quadRegs 4 (capMake 0x100000000000 0x10000 (pLD + pST) 1 0)) [1]
       (∀ y ∈ st.keyed c.entry.mask, firstCause (c.emuSteps st.write y.2) = none) ∧ (c.emuAccs st).all (fun a => !a.peer) = true
        ∧ (c.emuAccs st).any c.isLost = false ∧ ((c.emuAccs st).flatMap fun a => c.s.shutPages st.write a.addr a.n) ≠ []) := by decide +kernel

/-- A copy of 2 lines of 16 bytes: from 0x10000 to scratch offset 0x100; from a far page; a tile load of one block of 32 planes' bytes. -/
def planIn : CopyPlan := ⟨2, 4, 4, ⟨false, 0x10000, 16, 4, capA⟩, ⟨true, 0x100, 16, 4, 0⟩, false, false⟩
def planFar : CopyPlan := { planIn with src := ⟨false, 0x100000000000, 16, 4, capA⟩ }
def withParty0 (l : List Job) : State := { withJobs l with parties := [{ partyA with uid := 0, ropes := [ropeA] }] }
theorem test_JobEvents_scratch :
    let j : Job := { jobOf 5 (.copy planIn) with running := true, cairn := some ⟨0, 2, 0, 0⟩ }
    let f : Job := { jobOf 5 (.copy planFar) with running := true }
    let s := withParty0 [j]
    s.job? 5 = some j ∧ j.moved + 16 ≤ planIn.total ∧ planIn.edgeAt 16 = true ∧ s.inQuantum j 16 = true ∧ s.snap = none ∧ s.jobShut j planIn 0 4 = [] ∧ j.needs planIn 0 4 = []
    ∧ (s.jobParty j).map Party.uid = some 0
    ∧ (let t := withParty0 [f]; t.job? 5 = some f ∧ t.inQuantum f 16 = true ∧ t.jobShut f planFar 0 4 ≠ []) := by decide +kernel
theorem test_JobEvents_near :
    let j := jobCopy 5 false true
    let s := { withJobs [j] with parties := [{ partyA with uid := 0, ropes := [ropeA] }] }
    s.inQuantum j (j.moved + 8) = true ∧ (List.range 8).all (fun x => s.near (planCopy.dst.at planCopy x) 1) = true := by decide +kernel
theorem test_JobEvents_tiles :
    let y := (ctxOf State.reset partyA { ropeA with unif := unifOf recordTile } entryA []).rope.layout 8 |>.ldmPlan .f16 1 0x10040 false capA
    let j : Job := { jobOf 5 (.ldm y) with cairn := some ⟨0, 2, 0, 0⟩ }
    let n := 2 * y.unit
    let s := withParty0 [j]
    s.job? 5 = some j ∧ 0 < n ∧ j.moved + n ≤ y.total ∧ n % y.unit = 0 ∧ y.edgeAt (j.moved + n) = true ∧ s.jobHeld j = false ∧ s.snap = none ∧ y.view = false
    ∧ (s.jobParty j).map Party.uid = some 0 ∧ (List.range 2).all (fun i => (y.feeds i).all fun f => (s.shutPages false f.1 f.2).isEmpty && !(isPeer f.1)) = true
    ∧ 8 * 2 + 8 ≤ y.dst := by decide +kernel
/-- Eight engines run, of which two jobs are low; the later one, at a boundary, gives way. -/
theorem test_JobEvents_yields :
    let l := (List.range 6).map (fun i => jobCopy i false true) ++ [jobCopy 6 true true, { jobCopy 7 true true with moved := 4096 }, jobCopy 8 false false]
    let s := withJobs l
    8 ≤ (s.engines 0).length ∧ ((s.engines 0).filter fun x => !x.low).length < 7 ∧ ((s.jobs.filter (s.jobReady 0)).find? fun x => !x.low).map Job.id = some 8
    ∧ ((((s.engines 0).filter fun x => x.low).tail.find? fun x => decide (x.moved % 4096 < 16)).map Job.id) = some 7 := by decide +kernel

/-- A ring whose descriptor stands in a far page. -/
theorem test_RingAndSnapshotEvents_far :
    State.reset.ringShut ⟨0x100000000000, 0x30000, 0x105, none⟩ ≠ [] ∧ State.reset.ringShut ringA = [] ∧ State.reset.shutPages true 0x100000000000 64 ≠ []
    ∧ State.reset.near ringA.desc 64 = true ∧ State.reset.ringDone = [] ∧ State.reset.shutPages false 0x20000 64 = []
    ∧ ((State.reset.setBytes 0x20020 (leBytes 8 4 ++ leBytes 8 0)).ringFree ringA) = false := by decide +kernel
theorem test_RingAndSnapshotEvents_near : (withSnap (snapA true []) [jobSnap]).near 0x60000 0x2000 = true := by decide +kernel

/-- A partial at poisoned HBM, at a peer's line, at a far page. -/
theorem test_GangEvents_lines :
    let x (a : Nat) : FarPart := ⟨0, 0, 0, 1, a, a, 0x3F800000, 2, 1, [], false⟩
    let s (a : Nat) : State := { withRoute with parts := [x a], poison := [0xC00] }
    (s 0x30000).near 0x30000 4 = true ∧ (s 0x30000).poisoned 0x30000 4 = true ∧ (s 0x40000).near 0x40000 4 = true ∧ (s 0x40000).poisoned 0x40000 4 = false
    ∧ isPeer 0x810000000000 = true ∧ (s 0x810000000000).routed (peerOf 0x810000000000) = true ∧ (s 0x100000000000).shutPages true 0x100000000000 4 ≠ [] := by decide +kernel

theorem test_PartyEvents_saves :
    (withParty (partyIn (.saving .park)) 0 200).near partyA.saveAt (0x680 + 32 * partyA.stashPages.length) = true
    ∧ (withParty (partyIn .placed) 0 0).party? 0 = some (partyIn .placed) ∧ (withParty0 [jobOf 5 .snap]).busyParty 0 = true := by decide +kernel

theorem test_QueueEvents_writes : (0x0C : Nat) < 0x10 ∧ 0x08 < 0x0C + [(0 : Byte)].length ∧ ¬(0x0C = 0x08 ∧ [(0 : Byte)].length = 8) := by decide

/-- Queue 5 has been stopped; whether all of it has gone. -/
def s5 (st : QueueSt) : State := { withCmd st (.launch 0) with queues := [(5, { queueRun st with ending := true })] }
def gone5 (s : State) : Bool :=
  (s.queue 5).ending && (s.parties.all fun p => p.queue != 5) && (s.jobs.all fun j => s.jobQueue j != some 5) && !(s.partsOf 5)
/-- A queue that drains with nothing of it left, or with a partial of a party under way; a launch one of whose parties stands; a record
of a launch bound to die 1 whose second party is not yet placed. -/
theorem test_EndsAndDrains_gone :
    gone5 (s5 .draining) = true ∧ ((s5 .draining).queue 5).st = .draining ∧ gone5 (s5 .lost) = true ∧ ((s5 .lost).queue 5).st = .lost
    ∧ gone5 { s5 .draining with parties := [{ partyA with queue := 5 }] } = false := by decide +kernel
theorem test_EndsAndDrains_busy :
    (let t := { State.reset with parties := [partyA], launches := [launchOf []] }; t.launchBusy 0 = true ∧ State.reset.launchBusy 0 = false)
    ∧ (let y : Launch := { launchOf [{ recA with next := 1 }] with place := [[0, 53]] }; y.boundLeft 1 = 1 ∧ y.reissue = false)
    ∧ cmdBase.shutPages false 0x30000 8 = [] ∧ State.reset.shutPages false 0x100000000000 8 ≠ [] := by decide +kernel

/-- A command at far pages that have not come; a command that waits for nothing. -/
theorem test_ObjectAndGraphCommands_far :
    let s := { cmdBase with grants := [⟨1, 1, 0x100000000000, 0x200000⟩] }
    let b := cmdOf 1 0 0x100000000000 64
    takes s b 1 = true ∧ (withCommand s b).cmdShut 5 b ≠ [] ∧ (withCommand cmdBase (cmdOf 1 0 0x10000 64)).cmdShut 5 (cmdOf 1 0 0x10000 64) = []
    ∧ cmdBase.near 0x20000 64 = true ∧ (withCommand cmdBase (launchBytes 7 1)).launchHeld 1 (launchBytes 7 1) = false
    ∧ ([cmdOf 4 0 9 0, cmdOf 5 0 9 0, cmdOf 6 1 0x20000 0x20040, cmdOf 7 0 (2 * 256) 0x20000, cmdOf 8 0 0x40000 9, cmdOf 9 0 0x40000 9, copyBytes,
        cmdOf 0x0B 2 4 0, cmdOf 0x0C 0 0x40000 64] : List (List Byte)).all (fun b => decide (b.length = 64) && ((withCommand cmdBase b).cmdShut 5 b).isEmpty) = true := by decide +kernel

/-- A lost queue of which a command has still to end; the first page of HBM is a tenant's, the handle table is not. -/
theorem test_QueueAndColourRequests_ending :
    let s := { reqBase with queues := [(5, { queueA with st := .lost, ending := true })] }
    (s.queue 5).st = .lost ∧ (s.queue 5).ending = true ∧ (({ reqBase with queues := [(5, queueA)] } : State).queue 5).ending = false := by decide +kernel
theorem test_QueueAndColourRequests_ranges : State.reset.tenantRange 0x100000 64 ∧ ¬State.reset.tenantRange State.reset.handleAt 64 := by
  have h : State.reset.handleAt = 820338491392 ∧ State.reset.cowFrames = 16 ∧ State.reset.resFrames = 8 := by decide +kernel
  refine ⟨fun a l u => ?_, fun t => (t State.reset.handleAt (Nat.le_refl _) (by omega)).1 ⟨by omega, by omega⟩⟩
  rw [h.1, h.2.1, h.2.2]
  exact ⟨by omega, fun k hk => by omega⟩

/-- The first page of a host, resident and writable: a report of any length up to that page may be written. -/
theorem test_TableAndFirmwareRequests_host :
    let s := withPages [(0x2800000, some residentPage)]
    ([1, 4096, 2 ^ 21] : List Nat).all (fun n => (s.shutPages true 0x500000000000 n).isEmpty && decide (0x500000000000 + n ≤ 0x800000000000)) = true
    ∧ State.reset.shutPages true 0x500000000000 4096 ≠ [] ∧ State.reset.shutPages false 0x10000 4096 = [] := by decide +kernel
theorem test_TableAndFirmwareRequests_draining :
    let s := { State.reset with queues := [(5, { queueA with st := .lost, ending := true })], parties := [partyIn (.saved .bucket)] }
    (∃ e ∈ s.queues, e.2.st = .lost ∧ e.2.ending = true) ∧ (∃ p ∈ s.parties, p.status = .saved .bucket) := by decide +kernel

/-- Device 7 may also store past the end of HBM, where nothing is backed. -/
theorem test_PortAndPeerEvents_unbacked :
    let s := { State.reset with admits := [(4, some ⟨7, 7, 3, 1, 0, 0x00C000000000, 0x10000, 0⟩)] }
    (s.admitted.any fun x => x.allows 7 3 (peerNeeds (.store [1] none)).1 0x00C000000000 1) = true ∧ s.backedAt 0x00C000000000 = false ∧ 0x00C000000000 + 1 ≤ 2 ^ 40 := by decide +kernel

theorem test_DelegationEvents_inbox : State.reset.near (fieldOf 0x30000 0 48) 16 = true ∧ (withDelg 0 true).s.ctxAt 0 0 0 = some (withDelg 0 true) := ⟨by decide +kernel, rfl⟩

/-- FETCH and DELIVER at far pages; a port that no route leads to. -/
theorem test_CollectiveEvents_far :
    let far : ReplayRec := { replayA [.waiting 0] with caps := [capMake 0x100000000000 0x10000 (pLD + pST) 1 0] }
    let s := { withReplay [(opOf' 1 false, .waiting 0)] with replays := [far] }
    (s.opAt 2 0 1).any (fun x => !(isPeer x.addr) && !(x.shut 0 s false).isEmpty) = true
    ∧ ({ withReplay [(opOf' 2 false, .waiting 0)] with routes := [] } : State).portFor 5 = none := by decide +kernel
end Sys2Proof.Tests
end

section
/-!
PROOFS. RECORD_SLOT_FREE for a launch that waits for its first record (R324 step 5, R326, R329), and the refutation of O41 that it gives.
-/
namespace Sys2Proof.Machine

/-! ### Launches after an update of the list -/

/-- A launch of a list whose launches were changed, each keeping its number, is the launch of that number, changed. -/
theorem State.launch?_map (s : State) (f : Launch → Launch) (hf : ∀ x, (f x).id = x.id) (a : Nat) :
    ({ s with launches := s.launches.map f } : State).launch? a = (s.launch? a).map f := by
  have hp : ((fun x : Launch => x.id == a) ∘ f) = fun x => x.id == a := funext fun x => by simp [hf]
  simp only [State.launch?, List.find?_map, hp]

theorem State.launch?_id {s : State} {a : Nat} {x : Launch} (h : s.launch? a = some x) : x.id = a := by
  simpa using List.find?_some h

/-- A change made to launch `a` alone is what a look-up of `a` finds. -/
theorem State.launch?_mapAt (s : State) (a : Nat) (f : Launch → Launch) (hf : ∀ x, (f x).id = x.id) :
    ({ s with launches := s.launches.map fun y => if y.id = a then f y else y } : State).launch? a = (s.launch? a).map f := by
  rw [State.launch?_map s _ fun x => by split <;> simp [hf]]
  cases h : s.launch? a with
  | none => rfl
  | some x => simp [State.launch?_id h]

/-- Opening a wave again leaves a launch its records and what it waits for (R327). -/
theorem State.launch?_rewave {s : State} {a : Nat} {x : Launch} (p : Nat → Bool) (h : s.launch? a = some x) :
    ∃ w, (s.rewave p).launch? a = some { x with wave := w } := by
  unfold State.rewave
  rw [State.launch?_map s _ fun x => by split <;> rfl, h, Option.map_some]
  by_cases hw : p x.queue = true ∧ x.wave = none
  · exact ⟨some [], by simp only [if_pos hw]⟩
  · exact ⟨x.wave, by simp only [if_neg hw]⟩

/-- A launch after a record has joined its list; one that has lost parties with a die takes none (R326, R329). -/
def Launch.joined (r : ContRec) (x : Launch) : Launch := if x.dieLost then x else { x with records := x.records ++ [r] }

theorem Launch.joined_id (r : ContRec) (x : Launch) : (x.joined r).id = x.id := by unfold Launch.joined; split <;> rfl

theorem Launch.joined_first (r : ContRec) (x : Launch) : (x.joined r).first = x.first := by unfold Launch.joined; split <;> rfl

theorem Launch.joined_records (r : ContRec) (x : Launch) :
    (x.joined r).records = if x.dieLost then x.records else x.records ++ [r] := by unfold Launch.joined; split <;> rfl

/-- What the launch of an appended record is then. -/
theorem State.launch?_appendRecord {s : State} {a : Nat} {x : Launch} (r : ContRec) (h : s.launch? a = some x) :
    ∃ w, (s.appendRecord a r).launch? a = some { x.joined r with wave := w } := by
  have hx : (s.withLaunch a (Launch.joined r)).launch? a = some (x.joined r) :=
    (State.launch?_mapAt s a _ (Launch.joined_id r)).trans (congrArg _ h)
  exact State.launch?_rewave _ hx

theorem State.appendRecord_launchesOnly (s : State) (a : Nat) (r : ContRec) :
    ∃ l, s.appendRecord a r = { s with launches := l } := ⟨_, rfl⟩

/-! ### RECORD_SLOT_FREE -/

theorem exec_recordSlotFree (forLaunch : Bool) (a k pos : Nat) (s : State) :
    exec (.recordSlotFree forLaunch a k pos) s = execRecordSlotFree forLaunch a k pos s := rfl

/-- With a slot free, a launch that waits for its first record waits no longer, and nothing but launches changes; the record joins its
list unless the launch has lost parties with a die (R324, R329). -/
theorem exec_recordSlotFree_launch {s : State} {id a : Nat} {x : Launch} {r : ContRec} (hid : s.freeRecord = some id)
    (hx : s.launch? a = some x) (hr : x.first = some r) :
    ∃ t y, exec (.recordSlotFree true a 0 0) s = .next t ∧ t.launch? a = some y ∧ y.first = none
      ∧ y.records = (if x.dieLost then x.records else x.records ++ [{ r with id := id }]) ∧ { t with launches := s.launches } = s := by
  have hcleared := (State.launch?_mapAt s a (fun y => { y with first := none }) fun _ => rfl).trans (congrArg _ hx)
  obtain ⟨w, hy⟩ := State.launch?_appendRecord { r with id := id } hcleared
  refine ⟨_, _, ?_, hy, Launch.joined_first _ _, Launch.joined_records _ _, ?_⟩
  · simp only [exec_recordSlotFree, execRecordSlotFree, hid, hx, hr, if_true]
  · obtain ⟨l, hl⟩ := State.appendRecord_launchesOnly
      { s with launches := s.launches.map fun (y : Launch) => if y.id = a then { y with first := none } else y } a { r with id := id }
    rw [hl]

/-- A launch that has lost parties with a die, and would still wait for its first record. -/
def lostLaunch : Launch :=
  { id := 0, queue := 0, colour := 1, by' := .command 0 0, object := 0, seed := 0, drawkey := 0, reissue := false, code := 0
    place := [], offsets := [], records := [], first := some (ContRec.mk' 0 0 1 (.strided 0 16 0 0) none false Know.none)
    wave := none, killed := 0, lost := 1, dieLost := true, cut := 0, know := Know.none }

/-- The reset state with that launch in execution. -/
def lostLaunchState : State := { State.reset with launches := [lostLaunch] }

/-- Refutes O41, by its last clause: the clause says of every launch that RECORD_SLOT_FREE for it makes its first record, but a launch
that has lost parties with a die takes no record (R329). `lostLaunchState` holds such a launch; after the step its list is still empty.
DIE_FENCE ends the wait of a launch that it marks (`Launch.loseParties`), so what the clause lacks is the hypothesis
`x.dieLost = false`; with it `exec_recordSlotFree_launch` gives the record. -/
theorem not_partyEvents : ¬ Obligations.PartyEvents := by
  unfold Obligations.PartyEvents
  intro h
  obtain ⟨_, _, _, _, _, hslot⟩ := h lostLaunchState
  have hid : lostLaunchState.freeRecord = some 0 := by decide
  have hx : lostLaunchState.launch? 0 = some lostLaunch := by decide
  obtain ⟨t, y, hexec, hy, -, hrecords, -⟩ := hslot 0 0 lostLaunch _ hid hx rfl
  obtain ⟨t', y', hexec', hy', -, hrecords', -⟩ := exec_recordSlotFree_launch hid hx rfl
  obtain rfl : t = t' := by simpa [hexec] using hexec'
  obtain rfl : y = y' := by simpa [hy] using hy'
  have hnone : y.records = [] := hrecords'
  simp [hnone] at hrecords

end Sys2Proof.Machine
end

section
/-!
PROOFS. The transfer procedure (R80, R81): one group moves the entry, more open a region in its place.
-/
namespace Sys2Proof.Machine

/-! ### The transfer procedure (R80, R81) -/

theorem lfsrStep_eq (x : Word) : lfsrStep x = (x <<< 1) ||| (BitVec.ofBool (x.getLsbD 31 ^^ x.getLsbD 21 ^^ x.getLsbD 1
    ^^ x.getLsbD 0)).setWidth 32 := by
  unfold lfsrStep
  cases x.getLsbD 31 ^^ x.getLsbD 21 ^^ x.getLsbD 1 ^^ x.getLsbD 0 <;> rfl

@[simp] theorem Entry.at_fields (kind : EntryKind) (pt : Option (BitVec 48)) (pc : BitVec 48) (m : Word) :
    (Entry.at kind pt pc m).kind = kind ∧ (Entry.at kind pt pc m).pc = pc ∧ (Entry.at kind pt pc m).mask = m
      ∧ (Entry.at kind pt pc m).wait = none ∧ (Entry.at kind pt pc m).point = pt := by
  cases pt <;> and_intros <;> rfl

/-- One group of a region that is not opened: the entry's PC moves (R81). -/
theorem Rope.transfer_one (r : Rope) (pos cap : Nat) (e : Entry) (g : BitVec 48 × Word) (pt : Option (BitVec 48)) :
    r.transfer pos cap e [g] pt false = some { r with stack := r.stack.modify pos fun e => { e with pc := g.1, wait := none } } := rfl

theorem Entry.point_def (e : Entry) : e.point = if e.noRpc then none else some e.rpc := rfl

/-- The join entry that a region leaves below its sides, unless its point is the entry's own (R81). -/
def Entry.joinFor (e : Entry) (pt : Option (BitVec 48)) : List Entry :=
  if pt = e.point then [] else [Entry.at .join e.point (pt.getD 0) e.mask]

theorem Entry.length_joinFor (e : Entry) (pt : Option (BitVec 48)) : (e.joinFor pt).length = if pt = e.point then 0 else 1 := by
  unfold Entry.joinFor; split <;> rfl

theorem Entry.mem_joinFor {e x : Entry} {pt : Option (BitVec 48)} (h : x ∈ e.joinFor pt) :
    x = Entry.at .join e.point (pt.getD 0) e.mask := by
  unfold Entry.joinFor at h
  split at h
  · cases h
  · exact List.mem_singleton.1 h

/-- The groups that a region of a point pushes as sides, highest first, with the LFSR after the transfer (R80, R81). -/
def sidesFor (lfsr : Word) (groups : List (BitVec 48 × Word)) (pt : Option (BitVec 48)) : List (BitVec 48 × Word) :=
  let sides := groups.filter fun g => decide (some g.1 ≠ pt)
  if 2 ≤ groups.length ∧ lfsr.getLsbD 0 = false then sides.reverse else sides

/-- The LFSR after a transfer of some groups (R80). -/
def lfsrAfter (lfsr : Word) (groups : List (BitVec 48 × Word)) : Word := if 2 ≤ groups.length then lfsrStep lfsr else lfsr

/-- Every other transfer: sides above a join in the entry's place, when the stack has room for them (R78, R81). -/
theorem Rope.transfer_region (r : Rope) (pos cap : Nat) (e : Entry) (groups : List (BitVec 48 × Word)) (pt : Option (BitVec 48))
    (opens : Bool) (h : ¬(groups.length = 1 ∧ opens = false)) :
    r.transfer pos cap e groups pt opens =
      if cap < r.stack.length - 1 + (e.joinFor pt).length + (groups.filter fun g => decide (some g.1 ≠ pt)).length then none
      else some { r with
        lfsr := lfsrAfter r.lfsr groups
        stack := replaceAt r.stack pos
          ((sidesFor (lfsrAfter r.lfsr groups) groups pt).map (fun g => Entry.at .side pt g.1 g.2) ++ e.joinFor pt) } := by
  have hf : (groups.filter fun g => some g.1 != pt) = groups.filter fun g => decide (some g.1 ≠ pt) := by
    congr 1; funext g; simp [bne, Bool.beq_eq_decide_eq]
  unfold Rope.transfer
  rw [if_neg h]
  simp only [hf]
  simp [Entry.joinFor, sidesFor, lfsrAfter]

/-- Settles O10: `transfer_one` is its first clause, `transfer_region` with the lengths and fields of the new entries its second. -/
theorem transferProcedure : Obligations.TransferProcedure := by
  unfold Obligations.TransferProcedure
  intro r pos cap e groups pt opens
  refine ⟨?_, fun h => ?_⟩
  · rintro g rfl rfl
    exact r.transfer_one pos cap e g pt
  · simp only [← Entry.point_def]
    rw [r.transfer_region pos cap e groups pt opens h, Entry.length_joinFor]
    refine ⟨fun hcap => if_pos hcap, fun hcap => ⟨_, if_neg (Nat.not_lt.2 hcap), ?_, rfl, _, rfl, ?_, ?_⟩⟩
    · simp only [lfsrAfter, lfsrStep_eq]
    · rw [List.map_append, List.map_map]
      congr 1
      · simp [sidesFor, Function.comp_def]
      · by_cases hpt : pt = e.point <;> simp [Entry.joinFor, hpt]
    · intro x hx
      rcases List.mem_append.1 hx with hside | hjoin
      · obtain ⟨g, -, rfl⟩ := List.mem_map.1 hside
        simp
      · obtain rfl := Entry.mem_joinFor hjoin
        simp

end Sys2Proof.Machine
end

section
/-!
PROOFS. The groups of a transfer (R81, R85 to R88): `groupTargets`, `groupIf` and `mergeGroups` give `Ctx.sent`.
-/
namespace Sys2Proof.Machine

/-! ### Distinct elements in the order of their first occurrence -/

theorem eraseDups_filter {α : Type} [DecidableEq α] (p : α → Bool) (l : List α) :
    (l.filter p).eraseDups = l.eraseDups.filter p := by
  induction hn : l.length using Nat.strongRecOn generalizing l with
  | ind n ih =>
    cases l with
    | nil => rfl
    | cons a t =>
      have ht := ih _ (by rw [← hn]; exact Nat.lt_succ_of_le (List.length_filter_le (fun b => !b == a) t)) _ rfl
      rw [List.eraseDups_cons]
      cases hp : p a with
      | true =>
        rw [List.filter_cons_of_pos hp, List.filter_cons_of_pos hp, List.eraseDups_cons, ← ht, List.filter_filter,
          List.filter_filter]
        simp only [Bool.and_comm]
      | false =>
        rw [List.filter_cons_of_neg (by simp [hp]), List.filter_cons_of_neg (by simp [hp]), ← ht, List.filter_filter]
        congr 1
        refine List.filter_congr fun b _ => ?_
        by_cases hb : b = a <;> simp [hb, hp]

theorem nodup_eraseDups {α : Type} [DecidableEq α] (l : List α) : l.eraseDups.Nodup := by
  induction hn : l.length using Nat.strongRecOn generalizing l with
  | ind n ih =>
    cases l with
    | nil => exact List.nodup_nil
    | cons a t =>
      rw [List.eraseDups_cons, eraseDups_filter]
      refine List.nodup_cons.2 ⟨by simp, (ih _ ?_ t rfl).filter _⟩
      rw [← hn]; exact Nat.lt_succ_self _

theorem eraseDups_eraseDups {α : Type} [DecidableEq α] (l : List α) : l.eraseDups.eraseDups = l.eraseDups := by
  have idem : ∀ l : List α, l.Nodup → l.eraseDups = l := by
    intro l hl
    induction l with
    | nil => rfl
    | cons a t ih =>
      rw [List.nodup_cons] at hl
      rw [List.eraseDups_cons, List.filter_eq_self.2, ih hl.2]
      intro b hb
      simpa using fun h : b = a => hl.1 (h ▸ hb)
  exact idem _ (nodup_eraseDups l)

theorem eraseDups_append_eraseDups {α : Type} [DecidableEq α] (a b : List α) :
    (a.eraseDups ++ b.eraseDups).eraseDups = (a ++ b).eraseDups := by
  rw [List.eraseDups_append, List.eraseDups_append, eraseDups_eraseDups]
  congr 1
  unfold List.removeAll
  rw [eraseDups_filter, eraseDups_eraseDups, eraseDups_filter]
  simp

/-! ### Lane masks -/

theorem laneSet_getLsbD (f : Nat → Bool) (l : Nat) (hl : l < 32) : (laneSet f).getLsbD l = f l := by
  have hbit : ∀ j, (1#32 <<< j).getLsbD l = (l == j) := fun j => by
    rw [BitVec.getLsbD_shiftLeft, BitVec.getLsbD_one, Bool.eq_iff_iff]
    simp only [hl, decide_true, Bool.true_and, Bool.and_eq_true, Bool.not_eq_true', decide_eq_true_eq, decide_eq_false_iff_not, beq_iff_eq]
    omega
  unfold laneSet
  rw [foldl_or _ (fun w : Word => w.getLsbD l) (fun j => f j && l == j) _ _ (fun w j _ => by
    cases f j <;> simp [-BitVec.getLsbD_shiftLeft, hbit])]
  rw [Bool.eq_iff_iff]
  simp [hl]

theorem laneSet_congr {f g : Nat → Bool} (h : ∀ l, l < 32 → f l = g l) : laneSet f = laneSet g :=
  BitVec.eq_of_getLsbD_eq fun l hl => by rw [laneSet_getLsbD f l hl, laneSet_getLsbD g l hl, h l hl]

theorem laneSet_bits (m : Word) : laneSet (fun l => m.getLsbD l) = m :=
  BitVec.eq_of_getLsbD_eq fun l hl => laneSet_getLsbD _ l hl

theorem lowLane_eq_firstLane (m : Word) : lowLane m = firstLane m.getLsbD := by
  rw [lowLane, firstLane, lanesOf, List.headD_eq_head?_getD, List.head?_filter]

/-! ### Groups of lanes (R81, R85 to R88) -/

/-- Whether some groups send lane `l` to a target. -/
def sendsTo (gs : List (BitVec 48 × Word)) (t : BitVec 48) (l : Nat) : Bool := gs.any fun g => g.1 == t && g.2.getLsbD l

@[simp] theorem sendsTo_nil (t : BitVec 48) (l : Nat) : sendsTo [] t l = false := rfl

@[simp] theorem sendsTo_cons (g : BitVec 48 × Word) (gs : List (BitVec 48 × Word)) (t : BitVec 48) (l : Nat) :
    sendsTo (g :: gs) t l = (g.1 == t && g.2.getLsbD l || sendsTo gs t l) := rfl

@[simp] theorem sendsTo_append (a b : List (BitVec 48 × Word)) (t : BitVec 48) (l : Nat) :
    sendsTo (a ++ b) t l = (sendsTo a t l || sendsTo b t l) := List.any_append

/-- Without the groups of one target. -/
theorem sendsTo_filter (gs : List (BitVec 48 × Word)) (u t : BitVec 48) (l : Nat) :
    sendsTo (gs.filter fun g => g.1 != u) t l = (t != u && sendsTo gs t l) := by
  induction gs with
  | nil => simp
  | cons g gs ih => rw [List.filter_cons, apply_ite (fun gs => sendsTo gs t l), sendsTo_cons, sendsTo_cons, ih]; grind

theorem map_fst_filter (gs : List (BitVec 48 × Word)) (u : BitVec 48) :
    (gs.filter fun g => g.1 != u).map Prod.fst = (gs.map Prod.fst).filter fun t => t != u := by
  rw [List.filter_map]; rfl

theorem eq_of_target_eq {gs : List (BitVec 48 × Word)} (h : (gs.map Prod.fst).Nodup) {x y : BitVec 48 × Word} (hx : x ∈ gs)
    (hy : y ∈ gs) (hxy : x.1 = y.1) : x = y := by
  induction gs with
  | nil => cases hx
  | cons g gs ih =>
    rw [List.map_cons, List.nodup_cons] at h
    rcases List.mem_cons.1 hx with hxg | hxs <;> rcases List.mem_cons.1 hy with hyg | hys
    · exact hxg.trans hyg.symm
    · exact absurd (List.mem_map.2 ⟨y, hys, by rw [← hxy, hxg]⟩) h.1
    · exact absurd (List.mem_map.2 ⟨x, hxs, by rw [hxy, hyg]⟩) h.1
    · exact ih h.2 hxs hys

/-- Groups of distinct targets are known by their targets and by the lanes that go to each. -/
theorem groups_eq_map {gs : List (BitVec 48 × Word)} (h : (gs.map Prod.fst).Nodup) :
    gs = (gs.map Prod.fst).map fun t => (t, laneSet (sendsTo gs t)) := by
  have hmask : ∀ g ∈ gs, laneSet (sendsTo gs g.1) = g.2 := fun g hg => by
    refine (laneSet_congr fun l _ => ?_).trans (laneSet_bits g.2)
    rw [Bool.eq_iff_iff, sendsTo, List.any_eq_true]
    constructor
    · rintro ⟨x, hx, hxl⟩
      simp only [Bool.and_eq_true, beq_iff_eq] at hxl
      obtain rfl := eq_of_target_eq h hx hg hxl.1
      exact hxl.2
    · exact fun hl => ⟨g, hg, by simp [hl]⟩
  calc gs = gs.map id := (List.map_id gs).symm
    _ = gs.map fun g => (g.1, laneSet (sendsTo gs g.1)) := List.map_congr_left fun g hg => Prod.ext rfl (hmask g hg).symm
    _ = _ := by rw [List.map_map]; rfl

/-- The merged groups: each target once, in the order of its first group (R81, log 23). -/
theorem mergeGroups_targets (gs : List (BitVec 48 × Word)) : (mergeGroups gs).map Prod.fst = (gs.map Prod.fst).eraseDups := by
  induction gs with
  | nil => rfl
  | cons g gs ih => rw [mergeGroups, List.map_cons, map_fst_filter, ih, List.map_cons, List.eraseDups_cons, eraseDups_filter]; rfl

theorem mergeGroups_sendsTo (gs : List (BitVec 48 × Word)) (t : BitVec 48) (l : Nat) :
    sendsTo (mergeGroups gs) t l = sendsTo gs t l := by
  induction gs with
  | nil => rfl
  | cons g gs ih =>
    have hfold : (gs.foldl (fun m x => if x.1 = g.1 then m ||| x.2 else m) g.2).getLsbD l = (g.2.getLsbD l || sendsTo gs g.1 l) :=
      foldl_or _ (fun m : Word => m.getLsbD l) _ _ _ fun m x _ => by
        by_cases hx : x.1 = g.1 <;> simp [hx]
    rw [mergeGroups, sendsTo_cons, sendsTo_cons, sendsTo_filter, ih, hfold]
    by_cases ht : g.1 = t
    · subst ht; simp
    · rw [beq_false_of_ne ht, bne_iff_ne.2 (Ne.symm ht)]; simp

/-- The mask that `groupTargets` has gathered for a target. -/
def gathered (gs : List (BitVec 48 × Word)) (t : BitVec 48) : Word := ((gs.find? fun g => g.1 == t).map Prod.snd).getD 0

/-- A lane more: its target first, with the lanes gathered for it (R86). -/
theorem groupTargets_cons (f : Nat → BitVec 48) (l : Nat) (ls : List Nat) :
    groupTargets f (l :: ls) = (f l, withBit (gathered (groupTargets f ls) (f l)) l true)
      :: (groupTargets f ls).filter fun g => g.1 != f l := by
  rw [groupTargets]
  split
  · next h =>
    rw [gathered, h, List.filter_eq_self.2]
    · rfl
    · intro g hg
      simpa using List.find?_eq_none.1 h g hg
  · next g h => rw [gathered, h]; rfl

/-- The groups of an indirect transfer: the distinct targets by lowest lane (R86). -/
theorem groupTargets_targets (f : Nat → BitVec 48) (ls : List Nat) :
    (groupTargets f ls).map Prod.fst = (ls.map f).eraseDups := by
  induction ls with
  | nil => rfl
  | cons l ls ih =>
    rw [groupTargets_cons, List.map_cons, map_fst_filter, ih, List.map_cons, List.eraseDups_cons, eraseDups_filter]; rfl

/-- Among groups of distinct targets, the lanes that go to a target are those gathered for it. -/
theorem gathered_getLsbD {gs : List (BitVec 48 × Word)} (h : (gs.map Prod.fst).Nodup) (t : BitVec 48) (l : Nat) :
    (gathered gs t).getLsbD l = sendsTo gs t l := by
  induction gs with
  | nil => simp [gathered]
  | cons g gs ih =>
    rw [List.map_cons, List.nodup_cons] at h
    by_cases ht : g.1 = t
    · have hno : sendsTo gs t l = false := by
        simp only [sendsTo, List.any_eq_false, Bool.and_eq_true, beq_iff_eq, not_and]
        exact fun x hx hxt => absurd (List.mem_map.2 ⟨x, hx, hxt.trans ht.symm⟩) h.1
      simp [gathered, ht, hno]
    · rw [sendsTo_cons, beq_false_of_ne ht, ← ih h.2]
      simp [gathered, ht]

theorem groupTargets_sendsTo (f : Nat → BitVec 48) (ls : List Nat) (t : BitVec 48) {j : Nat} (hj : j < 32) :
    sendsTo (groupTargets f ls) t j = (ls.contains j && f j == t) := by
  induction ls with
  | nil => rfl
  | cons l ls ih =>
    have hnodup : ((groupTargets f ls).map Prod.fst).Nodup := groupTargets_targets f ls ▸ nodup_eraseDups _
    rw [groupTargets_cons, sendsTo_cons, sendsTo_filter, withBit_getLsbD _ _ _ _ hj, gathered_getLsbD hnodup, List.contains_cons]
    by_cases ht : f l = t
    · subst ht
      rw [ih]; grind
    · rw [ih]; grind

@[simp] theorem groupIf_targets (t : BitVec 48) (m : Word) : (groupIf t m).map Prod.fst = ((lanesOf m).map fun _ => t).eraseDups := by
  unfold groupIf
  split
  · next h => rw [h]; rfl
  · next h =>
    cases hl : lanesOf m with
    | nil =>
      refine absurd (BitVec.eq_of_getLsbD_eq fun l hlt => ?_) h
      have hnot : l ∉ lanesOf m := by simp [hl]
      simpa [mem_lanes m l hlt] using hnot
    | cons l ls =>
      have hsame : (ls.map fun _ => t).filter (fun b => !b == t) = [] := by
        rw [List.filter_eq_nil_iff]
        intro b hb
        obtain ⟨-, -, rfl⟩ := List.mem_map.1 hb
        rw [beq_self_eq_true]; decide
      rw [List.map_cons (l := ls), List.eraseDups_cons, hsame]
      rfl

theorem groupIf_sendsTo (t u : BitVec 48) (m : Word) (l : Nat) : sendsTo (groupIf t m) u l = (m.getLsbD l && t == u) := by
  unfold groupIf
  split
  · next h => simp [h]
  · simp [Bool.and_comm]

theorem mergeGroups_sent (c : Ctx) (g : Guard) (to' : Nat → BitVec 48) (fall : BitVec 48) (gs : List (BitVec 48 × Word))
    (htargets : gs.map Prod.fst = ((lanesOf (c.active g)).map to').eraseDups)
    (hsends : ∀ t l, l < 32 → sendsTo gs t l = ((c.active g).getLsbD l && to' l == t)) :
    mergeGroups (gs ++ groupIf fall (c.entry.mask &&& ~~~(c.active g))) = c.sent g to' fall := by
  have hlist : (mergeGroups (gs ++ groupIf fall (c.entry.mask &&& ~~~(c.active g)))).map Prod.fst
      = ((lanesOf (c.active g) ++ lanesOf (c.entry.mask &&& ~~~(c.active g))).map fun l =>
          if (c.active g).getLsbD l then to' l else fall).eraseDups := by
    rw [mergeGroups_targets, List.map_append, htargets, groupIf_targets, eraseDups_append_eraseDups, List.map_append]
    congr 2
    · exact List.map_congr_left fun l hl => (if_pos (mem_lanesOf.1 hl).2).symm
    · refine List.map_congr_left fun l hl => (if_neg fun hact => ?_).symm
      have hbit := (mem_lanesOf.1 hl).2
      rw [BitVec.getLsbD_and, BitVec.getLsbD_not, hact] at hbit
      exact absurd hbit (by rw [Bool.not_true, Bool.and_false, Bool.and_false]; exact Bool.false_ne_true)
  refine (groups_eq_map (hlist ▸ nodup_eraseDups _)).trans ?_
  rw [hlist, Ctx.sent]
  refine List.map_congr_left fun t _ => congrArg (Prod.mk t) (laneSet_congr fun l hl => ?_)
  rw [mergeGroups_sendsTo, sendsTo_append, hsends t l hl, groupIf_sendsTo, BitVec.getLsbD_and, BitVec.getLsbD_not]
  have hact : (c.active g).getLsbD l = true → c.entry.mask.getLsbD l = true := by
    unfold Ctx.active Rope.activeMask
    rw [BitVec.getLsbD_and]
    simp +contextual
  cases ha : (c.active g).getLsbD l with
  | false => simp only [ha, hl, decide_true, Bool.not_false, Bool.and_true, Bool.false_and, Bool.false_or, Bool.false_eq_true, if_false]
  | true => simp only [ha, hact ha, Bool.not_true, Bool.and_false, Bool.false_and, Bool.or_false, if_true]

end Sys2Proof.Machine
end

section
/-!
PROOFS. The six transfers bra, brc, brx, call, callx and ret (R85 to R88).
-/
namespace Sys2Proof.Machine

/-- A direct transfer sends the active lanes to its one target (R85, R87). -/
theorem mergeGroups_direct (c : Ctx) (g : Guard) (tgt fall : BitVec 48) :
    mergeGroups (groupIf tgt (c.active g) ++ groupIf fall (c.entry.mask &&& ~~~(c.active g))) = c.sent g (fun _ => tgt) fall :=
  mergeGroups_sent c g _ fall _ (groupIf_targets tgt _) fun t l _ => groupIf_sendsTo tgt t _ l

/-- An indirect transfer sends each active lane to its own target (R86 to R88). -/
theorem mergeGroups_indirect (c : Ctx) (g : Guard) (to' : Nat → BitVec 48) (fall : BitVec 48) :
    mergeGroups (groupTargets to' (lanesOf (c.active g)) ++ groupIf fall (c.entry.mask &&& ~~~(c.active g))) = c.sent g to' fall :=
  mergeGroups_sent c g to' fall _ (groupTargets_targets to' _) fun t l hl => by
    rw [groupTargets_sendsTo to' _ t hl]
    congr 1
    rw [Bool.eq_iff_iff, List.contains_iff_mem, mem_lanes _ l hl]

/-! ### What a transfer writes besides the stack (R86, R87) -/

/-- A rope with the stack and the LFSR of another. -/
def Rope.redirected (p r : Rope) : Rope := { p with stack := r.stack, lfsr := r.lfsr }

/-- A transfer leaves all of the rope but its stack and its LFSR (R81). -/
theorem Rope.transfer_redirected {r r' : Rope} {pos cap : Nat} {e : Entry} {gs : List (BitVec 48 × Word)}
    {pt : Option (BitVec 48)} {opens : Bool} (h : r.transfer pos cap e gs pt opens = some r') : r' = r.redirected r' := by
  rcases Rope.transfer_cases h with ⟨-, -, rfl⟩ | ⟨l, st, rfl, -⟩ <;> rfl

theorem Rope.useUp_redirected (p r : Rope) (m : Word) (a : RSrc) (n : Nat) :
    (p.redirected r).useUp m a n = (p.useUp m a n).redirected r := by
  unfold Rope.useUp Rope.poisonRun
  split
  · exact List.foldl_hom (fun p : Rope => p.redirected r) fun _ _ =>
      List.foldl_hom (fun p : Rope => p.redirected r) fun _ _ => rfl
  · rfl

theorem linkWrite_redirected (p r : Rope) (m : Word) (d : BitVec 8) (ra : BitVec 48) :
    linkWrite m d ra (p.redirected r) = (linkWrite m d ra p).redirected r :=
  List.foldl_hom (fun p : Rope => p.redirected r) fun _ _ => rfl

/-- What a transfer does to lane registers, as a card: last use of the pair it reads, then the link. -/
def Jump.card (j : Jump) : Card := ⟨false, j.g, j.reads.toList.map fun a => (a, 2), fun _ => j.link⟩

/-- The rope after a transfer that leaves the stack and the LFSR of `r`. -/
def Ctx.jumped (c : Ctx) (j : Jump) (r : Rope) : Rope := (j.card.apply (c.env (c.active j.g))).redirected r

@[simp] theorem Rope.orFpst_zero (p : Rope) : p.orFpst 0 = p := congrArg (fun f => { p with fpst := f }) BitVec.or_zero

theorem Rope.write_empty (p : Rope) (l : Nat) : p.write (some l) {} = p := p.orFpst_zero

/-- The link pair of R87, as a card's result. -/
theorem Rope.write_link (p : Rope) (l : Nat) (d : BitVec 8) (ra : BitVec 48) :
    p.write (some l) (Fx.pair d ra.toNat) = p.setX64 l d.toNat (ra.setWidth 64) := by
  have hlo : (ra.setWidth 64).extractLsb' 0 32 = BitVec.ofNat 32 ra.toNat := by
    apply BitVec.eq_of_toNat_eq; simp
  have hhi : (ra.setWidth 64).extractLsb' 32 32 = BitVec.ofNat 32 (ra.toNat / 2 ^ 32) := by
    apply BitVec.eq_of_toNat_eq
    simp only [BitVec.extractLsb'_toNat, BitVec.toNat_setWidth, BitVec.toNat_ofNat, Nat.shiftRight_eq_div_pow]
    omega
  rw [Rope.setX64, hlo, hhi]
  exact Rope.orFpst_zero _

theorem Jump.card_apply (c : Ctx) (j : Jump) : j.card.apply (c.env (c.active j.g)) =
    (lanesOf (c.active j.g)).foldl (fun (p : Rope) l => p.write (some l) j.link)
      (c.rope.useAll (c.active j.g) (j.reads.toList.map fun a => (a, 2))) :=
  Card.apply_lanes j.card _ rfl

theorem foldl_write_empty (ls : List Nat) (p : Rope) : ls.foldl (fun (p : Rope) l => p.write (some l) {}) p = p :=
  foldl_skip _ id ls p fun p l _ => p.write_empty l

theorem foldl_write_link (m : Word) (d : BitVec 8) (ra : BitVec 48) (p : Rope) :
    (lanesOf m).foldl (fun (p : Rope) l => p.write (some l) (Fx.pair d ra.toNat)) p = linkWrite m d ra p := by
  simp only [Rope.write_link, linkWrite]

/-- The stack and the LFSR of an effect can be chosen apart from its registers. -/
theorem EffectRope.redirected {c : Ctx} {x : RopeEffect} {p : Rope} (h : EffectRope c x p) (r : Rope) :
    EffectRope c { x with stack := r.stack, base := { x.base with lfsr := r.lfsr } } (p.redirected r) where
  same := by
    have hsame := h.same
    unfold Rope.sameBut at hsame ⊢
    exact congrArg (fun b : Rope => { b with lfsr := r.lfsr }) hsame
  stack := rfl
  lanes := h.lanes
  tags := h.tags
  preds := h.preds
  unif := h.unif
  flags := h.flags
  fpst := h.fpst
  valid := h.valid

theorem flagsOver_zero (m : Word) : flagsOver m (fun _ => 0) = 0 :=
  foldl_skip _ id _ _ fun _ _ _ => BitVec.or_zero

/-- The pair that a transfer reads and the registers that it links lie in the register file; the link writes no quad and raises no flag. -/
structure Jump.Fits (j : Jump) : Prop where
  reads : ∀ a, j.reads = some a → a.r.toNat + 2 ≤ 256
  link : j.link.fits
  quiet : j.link.fpst = 0
  single : j.link.quads = []

theorem Ctx.jumped_effect (c : Ctx) (j : Jump) (hj : j.Fits) (r : Rope) :
    EffectRope c (jumpEffect c j r) (c.jumped j r) := by
  have hfits : CardFits c j.card := ⟨fun _ => hj.link, hj.single, fun x hx _ => by
    obtain ⟨a, ha, rfl⟩ := List.mem_map.1 hx
    exact hj.reads a (Option.mem_toList.1 ha)⟩
  have hflags : flagsOver (c.active j.g) (fun _ => j.link.fpst) = 0 := by rw [hj.quiet]; exact flagsOver_zero _
  have heffect : jumpEffect c j r = { cardEffect c 0 j.card with stack := r.stack, base := { c.rope with lfsr := r.lfsr } } :=
    congrArg (fun f => { jumpEffect c j r with fpst := f }) hflags.symm
  rw [heffect]
  exact (card_effect c 0 j.card hfits).redirected r

/-! ### The six transfers (R85 to R88) -/

theorem State.issue_of_ctx {c : Ctx} (hc : c.s.ctx? = some c) (f : Ctx → State) : c.s.issue f = .next (f c) := by
  unfold State.issue; rw [hc]

theorem Ctx.jumped_plain (c : Ctx) (j : Jump) (r : Rope) (h : j.link = {}) :
    c.jumped j r = (c.rope.useAll (c.active j.g) (j.reads.toList.map fun a => (a, 2))).redirected r := by
  rw [Ctx.jumped, Jump.card_apply, h, foldl_write_empty]

theorem Ctx.jumped_link (c : Ctx) (j : Jump) (r : Rope) (d : BitVec 8) (ra : BitVec 48) (h : j.link = Fx.pair d ra.toNat) :
    c.jumped j r =
      (linkWrite (c.active j.g) d ra (c.rope.useAll (c.active j.g) (j.reads.toList.map fun a => (a, 2)))).redirected r := by
  rw [Ctx.jumped, Jump.card_apply, h, foldl_write_link]

/-- What a transfer whose targets are code addresses makes of the state (R78, R81). -/
def Ctx.jumpTo (c : Ctx) (j : Jump) : State :=
  match c.rope.transfer c.pos c.party.capacity c.entry j.groups j.point j.opens with
  | none => c.controlStack
  | some r => c.put (c.jumped j r)

/-- What a transfer of R85 to R88 makes of the state: FETCH_PLACEMENT where an active lane's target is no code address. -/
def Ctx.afterJump (c : Ctx) (j : Jump) : State :=
  match j.reads with
  | none => c.jumpTo j
  | some a =>
    if c.strays j = 0 then c.jumpTo j
    else c.trap .fetchPlacement (c.strays j) (c.rope.x64 (firstLane (c.strays j).getLsbD) a.r.toNat).toNat

theorem Ctx.jumpTo_go (c : Ctx) (j : Jump) {groups : List (BitVec 48 × Word)} {f : Rope → Rope}
    (hgroups : mergeGroups groups = j.groups) (hf : ∀ r, c.jumped j r = f (c.rope.redirected r)) :
    c.jumpTo j = c.go groups j.point j.opens f := by
  unfold Ctx.jumpTo
  rw [← hgroups]
  rcases c.go_cases groups j.point j.opens f with ⟨hnone, hgo⟩ | ⟨r, hsome, hgo⟩
  · rw [hgo, hnone]
  · rw [hgo, hsome, Rope.transfer_redirected hsome, ← hf]; rfl

/-- The check of every target is the one of the statements (R34, R86). -/
theorem Ctx.badTargets_strays (c : Ctx) (j : Jump) (a : RSrc) (h : j.reads = some a) :
    c.badTargets (c.active j.g) a.r = c.strays j := by
  refine BitVec.eq_of_getLsbD_eq fun l hl => ?_
  unfold Ctx.strays Ctx.badTargets
  rw [h, laneSet_getLsbD _ _ hl, foldl_or _ (fun m : Word => m.getLsbD l)
    (fun k => l == k && decide ((c.rope.x64 k a.r.toNat).toNat % 4 ≠ 0 ∨ 2 ^ 48 ≤ (c.rope.x64 k a.r.toNat).toNat)) _ _
    (fun m k _ => by
      by_cases hok : (c.rope.x64 k a.r.toNat).toNat % 4 = 0 ∧ (c.rope.x64 k a.r.toNat).toNat < 2 ^ 48
      · rw [if_pos hok, decide_eq_false (by omega)]; simp
      · rw [if_neg hok, decide_eq_true (by omega), withBit_getLsbD _ _ _ _ hl]; grind)]
  rw [Bool.eq_iff_iff, Bool.or_eq_true, List.any_eq_true]
  constructor
  · rintro (hzero | ⟨k, hk, hbad⟩)
    · simp at hzero
    · simp only [Bool.and_eq_true, beq_iff_eq] at hbad
      obtain ⟨rfl, hbad⟩ := hbad
      rw [(mem_lanesOf.1 hk).2, hbad]; rfl
  · intro hbad
    rw [Bool.and_eq_true] at hbad
    exact .inr ⟨l, (mem_lanes _ l hl).2 hbad.1, by rw [hbad.2]; simp⟩

/-- A jump that reads a pair is an indirect transfer. -/
theorem Ctx.afterJump_indirect (c : Ctx) (j : Jump) (a : RSrc) (bytes : Nat) {f : Rope → Rope} (hreads : j.reads = some a)
    (hgroups : j.groups = c.sent j.g (fun l => (c.rope.x64 l a.r.toNat).setWidth 48) (c.entry.pc + BitVec.ofNat 48 bytes))
    (hf : ∀ r, c.jumped j r = f ((c.rope.redirected r).useUp (c.active j.g) a 2)) :
    c.afterJump j = c.indirect j.g a bytes j.point j.opens f := by
  unfold Ctx.afterJump Ctx.indirect
  simp only [hreads, c.badTargets_strays j a hreads, lowLane_eq_firstLane, BitVec.ofNat_toNat, ne_eq, ite_not]
  rw [← c.jumpTo_go j (by rw [mergeGroups_indirect, hgroups]) hf]

theorem Fx.pair_fits (d : BitVec 8) (v : Nat) (h : isEven d = true) : (Fx.pair d v).fits := by
  simp only [isEven, beq_iff_eq] at h
  refine ⟨fun r hr => ?_, nofun, nofun⟩
  have hd := d.isLt
  simp only [Fx.pair, List.mem_cons, List.not_mem_nil, or_false] at hr
  rcases hr with rfl | rfl <;> simp only <;> omega

theorem isEven_pair {r : BitVec 8} (h : isEven r = true) : r.toNat + 2 ≤ 256 := by
  simp only [isEven, beq_iff_eq] at h
  have hr := r.isLt
  omega

theorem jumpRule_fits {c : Ctx} {i : Instr} {j : Jump} (hw : i.wf = true) (hj : jumpRule c i = some j) : j.Fits := by
  have nolink : Fx.fits {} := ⟨nofun, nofun, nofun⟩
  unfold jumpRule at hj
  split at hj <;> cases hj
  case h_1 | h_2 => exact ⟨nofun, nolink, rfl, rfl⟩
  case h_3 =>
    obtain ⟨hga, -⟩ := Bool.and_eq_true_iff.1 hw
    obtain ⟨-, ha⟩ := Bool.and_eq_true_iff.1 hga
    exact ⟨by rintro _ ⟨⟩; exact isEven_pair ha, nolink, rfl, rfl⟩
  case h_4 =>
    obtain ⟨hgd, -⟩ := Bool.and_eq_true_iff.1 hw
    obtain ⟨-, hd⟩ := Bool.and_eq_true_iff.1 hgd
    exact ⟨nofun, Fx.pair_fits _ _ hd, rfl, rfl⟩
  case h_5 =>
    obtain ⟨hgd, ha⟩ := Bool.and_eq_true_iff.1 hw
    obtain ⟨-, hd⟩ := Bool.and_eq_true_iff.1 hgd
    exact ⟨by rintro _ ⟨⟩; exact isEven_pair ha, Fx.pair_fits _ _ hd, rfl, rfl⟩
  case h_6 =>
    obtain ⟨-, ha⟩ := Bool.and_eq_true_iff.1 hw
    exact ⟨by rintro _ ⟨⟩; exact isEven_pair ha, nolink, rfl, rfl⟩

theorem exec_jump {c : Ctx} {i : Instr} {j : Jump} (hc : c.s.ctx? = some c) (hj : jumpRule c i = some j) :
    exec i c.s = .next (c.afterJump j) := by
  unfold jumpRule at hj
  split at hj <;> cases hj
  all_goals refine (State.issue_of_ctx hc _).trans (congrArg Host.Outcome.next (Eq.symm ?_))
  case h_1 g tgt rcv | h_2 g tgt rcv =>
    exact c.jumpTo_go _ (mergeGroups_direct c g _ _) fun r => c.jumped_plain _ r rfl
  case h_3 g a rcv =>
    exact c.afterJump_indirect _ a 12 rfl rfl fun r => (c.jumped_plain _ r rfl).trans (Rope.useUp_redirected _ r _ a 2).symm
  case h_4 g d tgt =>
    exact c.jumpTo_go _ (mergeGroups_direct c g _ _) fun r =>
      (c.jumped_link _ r d _ rfl).trans (linkWrite_redirected _ r _ d _).symm
  case h_5 g d a =>
    refine c.afterJump_indirect _ a 12 rfl rfl fun r => (c.jumped_link _ r d _ rfl).trans ?_
    rw [Rope.useUp_redirected, linkWrite_redirected]
    rfl
  case h_6 g a =>
    exact c.afterJump_indirect _ a 8 rfl rfl fun r => (c.jumped_plain _ r rfl).trans (Rope.useUp_redirected _ r _ a 2).symm

/-- Where every target read is a code address, the transfer procedure decides (R81). -/
theorem Ctx.afterJump_placed (c : Ctx) (j : Jump) (h : c.strays j = 0) : c.afterJump j = c.jumpTo j := by
  unfold Ctx.afterJump
  split
  · rfl
  · exact if_pos h

theorem Ctx.afterJump_stray (c : Ctx) (j : Jump) (a : RSrc) (ha : j.reads = some a) (h : c.strays j ≠ 0) :
    c.afterJump j = c.trap .fetchPlacement (c.strays j) (c.rope.x64 (firstLane (c.strays j).getLsbD) a.r.toNat).toNat := by
  rw [Ctx.afterJump, ha]
  exact if_neg h

/-- Settles O9: every transfer answers `afterJump` (`exec_jump`), whose register effect is that of a card (`jumped_effect`). -/
theorem controlTransfers : Obligations.ControlTransfers := by
  unfold Obligations.ControlTransfers
  refine ⟨fun c i j r hc hw hj hstrays hr => ⟨c.jumped j r, ?_, c.jumped_effect j (jumpRule_fits hw hj) r⟩,
    fun c i j hc hw hj => ⟨fun a ha hstrays => ?_, fun hstrays hr => ?_⟩⟩
  · rw [exec_jump hc hj, c.afterJump_placed j hstrays, Ctx.jumpTo, hr]
  · rw [exec_jump hc hj, c.afterJump_stray j a ha hstrays]
  · rw [exec_jump hc hj, c.afterJump_placed j hstrays, Ctx.jumpTo, hr, Ctx.controlStack]

end Sys2Proof.Machine
end

section
/-!
PROOFS. brk and exit (R82, R83, R89, R90).
-/
namespace Sys2Proof.Machine

/-! ### brk (R82, R89, R348) -/

theorem withoutLanes_eq (m : Word) (st : List Entry) : withoutLanes m st = dropEmpty (stripMask m st) := by
  unfold withoutLanes dropEmpty stripMask
  congr 1
  funext e
  simp [bne, Bool.beq_eq_decide_eq]

theorem Ctx.joinAt_eq (c : Ctx) (n : Nat) : c.joinAt n = (joinsBelow c.rope.stack c.pos)[n - 1]? := by
  unfold Ctx.joinAt joinsBelow
  simp only [Bool.beq_eq_decide_eq]

/-- What `brk` leaves on a stack, in the words of the statements. -/
theorem brkStack_eq (st : List Entry) (pos j : Nat) (m : Word) (hj : pos < j) : brkStack st pos j m =
    withoutLanes m ((st.modify pos fun e => { e with pc := e.pc + 8 }).take j)
      ++ (st.drop j).modify 0 fun e => { e with mask := e.mask ||| m } := by
  simp only [brkStack, withoutLanes_eq, List.drop_modify_of_lt _ _ _ _ hj]

theorem exec_brk_noJoin {c : Ctx} {g : Guard} {n : BitVec 4} (hc : c.s.ctx? = some c) (hg : c.active g ≠ 0)
    (hj : c.joinAt n.toNat = none) : exec (.brk g n) c.s = .next c.controlStack := by
  refine (State.issue_of_ctx hc _).trans (congrArg Host.Outcome.next ?_)
  simp only [if_neg hg, ← c.joinAt_eq, hj]

theorem exec_brk_join {c : Ctx} {g : Guard} {n : BitVec 4} {j : Nat} (hc : c.s.ctx? = some c) (hg : c.active g ≠ 0)
    (hj : c.joinAt n.toNat = some j) : exec (.brk g n) c.s = .next
      (if c.rope.hm = true ∧ c.rope.stack.length - j ≤ c.rope.hdepth then c.controlStack
       else c.put { c.rope with stack := brkStack c.rope.stack c.pos j (c.active g) }) := by
  refine (State.issue_of_ctx hc _).trans (congrArg Host.Outcome.next ?_)
  simp only [if_neg hg, ← c.joinAt_eq, hj]

/-- A join of `joinAt` stands below the issuing slot (R82). -/
theorem Ctx.joinAt_below {c : Ctx} {n j : Nat} (h : c.joinAt n = some j) : c.pos < j := by
  have hmem := List.mem_of_getElem? h
  rw [List.mem_filter, Bool.and_eq_true, decide_eq_true_eq] at hmem
  exact hmem.2.1

/-! ### Parties under their numbers -/

/-- What the issuing pair of a state is. -/
theorem Ctx.issuing {c : Ctx} (hc : c.s.ctx? = some c) :
    c.s.party? c.uid = some c.party ∧ c.party.ropes[c.k]? = some c.rope ∧ c.rope.stack[c.pos]? = some c.entry := by
  unfold State.ctx? at hc
  split at hc
  · cases hc
  · next i hi =>
    obtain ⟨-, huid, hk, hpos, hp, hr, he⟩ := State.ctxAt_some hc
    exact ⟨huid ▸ hp, hk ▸ hr, hpos ▸ he⟩

theorem State.party?_uid {s : State} {uid : Nat} {p : Party} (h : s.party? uid = some p) : p.uid = uid := by
  simpa using List.find?_some h

theorem State.party?_setParty {s : State} {uid : Nat} {p q : Party} (h : s.party? uid = some p) (hq : q.uid = uid) :
    (s.setParty q).party? uid = some q := by
  subst hq
  have hfound : ((fun x : Party => x.uid == q.uid) ∘ fun x => if x.uid = q.uid then q else x) = fun x => x.uid == q.uid := by
    funext x
    by_cases hx : x.uid = q.uid <;> simp [hx]
  have hp := State.party?_uid h
  unfold State.party? at h ⊢
  simp only [State.setParty_fields, List.find?_map, hfound, h, Option.map_some, hp, if_true]

theorem State.setParty_setParty (s : State) {p q : Party} (h : p.uid = q.uid) : (s.setParty p).setParty q = s.setParty q := by
  unfold State.setParty
  simp only [List.map_map]
  congr 1
  refine List.map_congr_left fun x _ => ?_
  by_cases hx : x.uid = q.uid <;> simp [h, hx]

/-! ### The end of a rope (R83, R156) -/

/-- What the barriers' bookkeeping leaves of a party: its identity, its scratch, its cairns, and every rope with an empty stack. -/
structure Party.KeptByBars (p q : Party) : Prop where
  uid : q.uid = p.uid
  launch : q.launch = p.launch
  record : q.record = p.record
  scratch : q.scratch = p.scratch
  cairns : q.cairns = p.cairns
  emptied : ∀ (j : Nat) (r : Rope), p.ropes[j]? = some r → r.stack = [] → q.ropes[j]? = some r

theorem Party.KeptByBars.refl (p : Party) : p.KeptByBars p := ⟨rfl, rfl, rfl, rfl, rfl, fun _ _ h _ => h⟩

theorem Party.KeptByBars.trans {p q r : Party} (h : p.KeptByBars q) (h' : q.KeptByBars r) : p.KeptByBars r :=
  ⟨h'.uid.trans h.uid, h'.launch.trans h.launch, h'.record.trans h.record, h'.scratch.trans h.scratch, h'.cairns.trans h.cairns,
    fun j x hx hst => h'.emptied j x (h.emptied j x hx hst) hst⟩

theorem Party.setBar_kept (p : Party) (b : Nat) (r : Option BarRec) : p.KeptByBars (p.setBar b r) :=
  ⟨rfl, rfl, rfl, rfl, rfl, fun _ _ h _ => h⟩

/-- A phase that completes finds no slot waiting in a rope without entries. -/
theorem Party.completePhase_kept (p : Party) (b : Nat) : p.KeptByBars (p.completePhase b) := by
  unfold Party.completePhase
  split
  · exact .refl p
  · refine ⟨rfl, rfl, rfl, rfl, rfl, fun j r hr hst => ?_⟩
    simp [Party.setBar, hr, hst]

theorem Party.checkPhase_kept (p : Party) (b : Nat) : p.KeptByBars (p.checkPhase b) := by
  unfold Party.checkPhase
  split
  · exact .refl p
  · split
    · exact p.completePhase_kept b
    · exact .refl p

theorem Party.ropeEndAt_kept (k : Nat) (p : Party) (b : Nat) : p.KeptByBars (p.ropeEndAt k b) := by
  unfold Party.ropeEndAt
  split
  · exact .refl p
  · split
    · split
      · exact p.setBar_kept b _
      · simp only
        split
        · exact p.setBar_kept b _
        · exact (p.setBar_kept b _).trans (Party.checkPhase_kept _ b)
    · exact .refl p

theorem Party.ropeEndBars_kept (p : Party) (k : Nat) : p.KeptByBars (p.ropeEndBars k) := by
  have hfold : ∀ (l : List Nat) (q : Party), q.KeptByBars (l.foldl (Party.ropeEndAt k) q) := by
    intro l
    induction l with
    | nil => exact .refl
    | cons b l ih => exact fun q => (Party.ropeEndAt_kept k q b).trans (ih _)
  exact hfold _ p

/-- A rope that ends: its barriers are adjusted, and with the party's last rope the party ends (R83, R156). -/
theorem State.endRope_outcome {s : State} {uid : Nat} {p : Party} (k : Nat) (hp : s.party? uid = some p) :
    ∃ q, Party.KeptByBars { p with ropes := p.ropes.modify k fun r => { r with ended := true } } q ∧
      s.endRope uid k = if q.ropes.all (fun r => r.ended) then (s.setParty { q with status := .ended }).partyOver q
        else s.setParty q := by
  refine ⟨_, Party.ropeEndBars_kept _ k, ?_⟩
  rw [State.endRope, hp]

/-- The state after a rope of the issuing pair has ended, its stack being empty. -/
theorem Ctx.endRope_put {c : Ctx} (hc : c.s.ctx? = some c) (r : Rope) (hr : r.stack = []) :
    ∃ t p, (c.put r).endRope c.uid c.k = t ∧ { t with launches := c.s.launches } = c.s.setParty p
      ∧ (t.launches = if p.ropes.all (fun r => r.ended) then
          c.s.launches.map fun x => if x.id = c.party.launch then x.partyEnded c.party.record else x else c.s.launches)
      ∧ (∃ r, p.ropes[c.k]? = some r ∧ r.ended = true ∧ r.stack = [])
      ∧ ((∀ r ∈ p.ropes, r.ended = true) → p.status = .ended)
      ∧ p.scratch = c.party.scratch ∧ p.cairns = c.party.cairns := by
  obtain ⟨hparty, hrope, -⟩ := Ctx.issuing hc
  have huid : (c.party.setRope c.k r).uid = c.uid := (State.party?_uid hparty : c.party.uid = c.uid)
  obtain ⟨q, hkept, hout⟩ := State.endRope_outcome (s := c.put r) c.k (State.party?_setParty hparty huid)
  have hset (p : Party) (hp : p.uid = q.uid) : (c.put r).setParty p = c.s.setParty p :=
    c.s.setParty_setParty (hkept.uid.symm.trans hp.symm)
  have hended : q.ropes[c.k]? = some { r with ended := true } := by
    refine hkept.emptied _ _ ?_ hr
    have hk : c.k < c.party.ropes.length := (List.getElem?_eq_some_iff.1 hrope).1
    simp [hk]
  by_cases hall : q.ropes.all (fun r => r.ended) = true
  · rw [if_pos hall, hset { q with status := .ended } rfl] at hout
    refine ⟨_, { q with status := .ended }, hout, rfl, ?_, ⟨_, hended, rfl, hr⟩, fun _ => rfl, hkept.scratch, hkept.cairns⟩
    rw [if_pos hall, ← show q.launch = c.party.launch from hkept.launch, ← show q.record = c.party.record from hkept.record]
    rfl
  · rw [if_neg hall, hset q rfl] at hout
    refine ⟨_, q, hout, rfl, (if_neg hall).symm, ⟨_, hended, rfl, hr⟩, fun h => ?_, hkept.scratch, hkept.cairns⟩
    exact absurd (List.all_eq_true.2 h) hall

/-! ### exit (R90, R348) -/

theorem exec_exit_handler {c : Ctx} {g : Guard} (hc : c.s.ctx? = some c) (hg : c.active g ≠ 0) (hm : c.rope.hm = true) :
    exec (.exit g) c.s = .next c.controlStack := by
  refine (State.issue_of_ctx hc _).trans (congrArg Host.Outcome.next ?_)
  simp only [if_neg hg, if_pos hm]

/-- `exit` outside a handler: the active lanes leave every entry, and a rope without entries ends (R83). -/
theorem exec_exit {c : Ctx} {g : Guard} (hc : c.s.ctx? = some c) (hg : c.active g ≠ 0) (hm : c.rope.hm = false) :
    exec (.exit g) c.s = .next
      (if (withoutLanes (c.active g) (c.past 8)).isEmpty then
        (c.put { c.rope with stack := withoutLanes (c.active g) (c.past 8) }).endRope c.uid c.k
      else c.put { c.rope with stack := withoutLanes (c.active g) (c.past 8) }) := by
  refine (State.issue_of_ctx hc _).trans (congrArg Host.Outcome.next ?_)
  have hm' : ¬c.rope.hm = true := by rw [hm]; decide
  rw [withoutLanes_eq]
  exact (if_neg hg).trans (if_neg hm')

/-- Settles O12: `exec_brk_join` and `exec_brk_noJoin` for brk; `exec_exit` with `endRope_put` for exit. -/
theorem leavingRegionsAndLanes : Obligations.LeavingRegionsAndLanes := by
  unfold Obligations.LeavingRegionsAndLanes
  refine ⟨fun c g n hc _ hg => ⟨fun j hj hdepth => ?_, fun j hj hm hdepth => ?_, exec_brk_noJoin hc hg⟩,
    fun c g hc _ hg => ⟨exec_exit_handler hc hg, fun hm hst => ?_, fun hm hst => ?_⟩⟩
  · rw [exec_brk_join hc hg hj, if_neg fun h => absurd (hdepth h.1) (Nat.not_lt.2 h.2), brkStack_eq _ _ _ _ (c.joinAt_below hj)]
  · rw [exec_brk_join hc hg hj, if_pos ⟨hm, hdepth⟩, Ctx.controlStack]
  · rw [exec_exit hc hg hm, if_neg (by rwa [List.isEmpty_iff])]
  · obtain ⟨t, p, hend, hrest⟩ := Ctx.endRope_put hc { c.rope with stack := withoutLanes (c.active g) (c.past 8) } hst
    refine ⟨t, p, ?_, hrest⟩
    rw [exec_exit hc hg hm, if_pos (by rwa [List.isEmpty_iff]), hend]

end Sys2Proof.Machine
end

section
/-!
PROOFS. The word of nop (R84, R14), the reset state, and words that the spec writes out.
-/
namespace Sys2Proof.Machine

/-! ### The word of nop (R84) and the guard that R14 refuses -/

/-- The word of `nop` gives its fields back, and it decodes to `nop` exactly when its guard is legal (R14, R33). -/
theorem decodeRaw_nop (g : Guard) :
    decodeRaw (Raw.ofBits (encodeBits (.nop g))) = if g.ok then .ok (.nop g) 8 else .illegal := by
  obtain ⟨neg, p⟩ := g
  revert neg p
  decide +kernel

theorem decode_nop (g : Guard) {q : Nat} (hq : q ≤ 6) :
    decode q (encodeBits (.nop g)) = if g.ok then .ok (.nop g) 8 else .illegal := by
  have hlen : fieldOf (encodeBits (.nop g)) 0 2 = 1 := by
    obtain ⟨neg, p⟩ := g
    revert neg p
    decide +kernel
  have hfits : ¬8 < q + lenBytes 1 / 4 := by rw [show lenBytes 1 / 4 = 2 from rfl]; omega
  simp only [decode, hlen, Nat.one_ne_zero, if_false, if_neg hfits, decodeRaw_nop]

/-- The one rope of a party as a launch leaves it, about to issue. -/
def launchedCtx : Ctx where
  s := { State.reset with parties := [benchParty 0], issuing := some ⟨0, 0, 0⟩ }
  uid := 0
  k := 0
  pos := 0
  party := benchParty 0
  rope := Rope.blank (BitVec.ofNat 48 benchAt) 1 0 0 0 0 0 Know.none
  entry := Entry.mk' .side true 0 (BitVec.ofNat 48 benchAt) 0xFFFFFFFF

theorem launchedCtx_issues : launchedCtx.s.ctx? = some launchedCtx := rfl

/-- Refutes O11, by its last clause: it claims of `nop` under every guard that its word decodes to it again, but the guard `!p7` is an
illegal encoding (R14), so the word of `nop` under it decodes to ILLEGAL_ENCODING. For every legal guard `decode_nop` gives the clause,
so what it lacks is the hypothesis `g.ok = true`. -/
theorem not_plainControlAndYield : ¬ Obligations.PlainControlAndYield := by
  unfold Obligations.PlainControlAndYield
  rintro ⟨-, -, hnop⟩
  obtain ⟨-, -, hdecode⟩ := hnop launchedCtx ⟨true, 7⟩ launchedCtx_issues
  have hword := (decode_nop ⟨true, 7⟩ (Nat.zero_le 6)).symm.trans (hdecode 0 (Nat.zero_le 6))
  exact absurd hword (by decide)

/-! ### The reset state -/

/-- Settles O56: the tables of the reset state are empty, so every look-up in them gives its default, whatever the key. -/
theorem resetState : Obligations.ResetState := by
  unfold Obligations.ResetState
  have queues : ∀ q, State.reset.queue q = QueueRec.zero := fun _ => rfl
  have colours : ∀ c, SMap.get ColourSt.free State.reset.colours c = .free ∧ SMap.get 0 State.reset.quota c = 0 := fun _ => ⟨rfl, rfl⟩
  have ports : ∀ p, (State.reset.port p).st = .down ∧ (State.reset.port p).sealCtr = 1 := fun _ => ⟨rfl, rfl⟩
  have races : ∀ g, State.reset.raceAt g = none := fun _ => rfl
  have cores : ∀ n, (State.reset.core n).clock = 0 ∧ (State.reset.core n).stray = 0 := fun _ => ⟨rfl, rfl⟩
  have errors : ∀ d c, SMap.get 0 (State.reset.die d).errors c = 0 := fun _ _ => rfl
  have bytes : ∀ a, State.reset.byte a = 0 ∧ State.reset.tagAt a = false ∧ NSet.has State.reset.poison (a / 64) = false :=
    fun _ => ⟨rfl, rfl, rfl⟩
  exact ⟨rfl, rfl, rfl, rfl, rfl, rfl, rfl, rfl, rfl, queues, rfl, rfl, rfl, rfl, colours, ports, races, rfl, rfl, rfl, cores, errors,
    memory_wf_reset, bytes⟩

/-! ### Words that the spec writes out -/

/-- Settles O57, by decoding the seventeen words. -/
theorem sampleWords : Obligations.SampleWords := by
  unfold Obligations.SampleWords
  decide +kernel

end Sys2Proof.Machine
end

section
/-!
PROOFS. Scratch accesses and the other slot of the issuing rope (R77, R179), and the refutation of O17 that it gives.
-/
namespace Sys2Proof.Machine

/-! ### The issuing rope after a scratch card, as statements say it -/

/-- A scratch effect leaves the issuing rope the stack of its rope effect, whatever it wrote. -/
theorem ScratchEffect.issuing_stack {c : Ctx} {x : RopeEffect} {writes : Bool} {bytes : Nat → Byte} {tags : Nat → Bool} {t : State}
    (hc : c.s.ctx? = some c) (h : ScratchEffect c x writes bytes tags t) :
    ((t.party? c.uid).bind fun p => p.ropes[c.k]?).map Rope.stack = some x.stack := by
  obtain ⟨p, r, b, rfl, hropes, hrope, -, -, -, hparty⟩ := h.party
  obtain ⟨hp, hr, -⟩ := Ctx.issuing hc
  have huid : p.uid = c.uid := (congrArg Party.uid hparty).trans (State.party?_uid hp)
  have hlen : c.k < (if writes then (Party.wakeCairns { c.party with scratch := p.scratch }).ropes else c.party.ropes).length := by
    have hk := (List.getElem?_eq_some_iff.1 hr).1
    cases writes
    · exact hk
    · simpa [Party.wakeCairns, Party.wake] using hk
  rw [State.party?_setParty hp huid, Option.bind_some, hropes, List.getElem?_set_self hlen, Option.map_some, hrope.stack]

/-! ### A store that moves the generation on which the rope's slot B waits -/

/-- Slot A of one region's two sides is about to store; slot B waits in `cwait 0, 0` (R77, R179). Register 0 of lane 0 holds 1. -/
def otherSlotWaits : Rope :=
  { (launchedCtx.rope.setX 0 0 1) with
    stack := [Entry.mk' .side true 0 (BitVec.ofNat 48 benchAt) 1,
      { Entry.mk' .side true 0 (BitVec.ofNat 48 (benchAt + 8)) 2 with wait := some (.cairn 0 0) }] }

/-- The party of that one rope. -/
def otherSlotParty : Party := (benchParty 0).setRope 0 otherSlotWaits

/-- Its slot A issues. -/
def otherSlotCtx : Ctx where
  s := { State.reset with parties := [otherSlotParty], issuing := some ⟨0, 0, 0⟩ }
  uid := 0
  k := 0
  pos := 0
  party := otherSlotParty
  rope := otherSlotWaits
  entry := Entry.mk' .side true 0 (BitVec.ofNat 48 benchAt) 1

theorem otherSlotCtx_issues : otherSlotCtx.s.ctx? = some otherSlotCtx := rfl

/-- The operand that names byte 1, the generation of cairn 0 (R160). -/
def genOfCairn0 : ScrOff := ⟨none, 1⟩

/-- `sts.b8 [0x1], x0`: the generation of cairn 0 becomes 1. -/
def storeGen : Instr := .sts .n8 ⟨false, 7⟩ genOfCairn0 ⟨0, .none⟩

theorem exec_sts (sz : Sz) (g : Guard) (o : ScrOff) (b : RSrc) (s : State) : exec (.sts sz g o b) s = execSts sz g o b s := rfl

/-- The slot that waited on generation 0 waits no longer (R179). -/
theorem exec_storeGen_wakes {t : State} (ht : exec storeGen otherSlotCtx.s = .next t) :
    (((t.party? otherSlotCtx.uid).bind fun p => p.ropes[otherSlotCtx.k]?).map Rope.stack).map (fun l => l.map Entry.wait)
      = some [none, none] := by
  rw [storeGen, exec_sts, execSts, State.issue_of_ctx otherSlotCtx_issues] at ht
  obtain rfl := Host.Outcome.next.inj ht
  decide +kernel

/-- Refutes O17, by its clause on `sts`: it leaves the issuing rope the stack with the PC advanced and nothing else, but the store may move
the generation on which the other slot of that very rope waits, and that slot then tests it again (R179). The clause wakes the slots
of the party's other ropes only; what it lacks is the waking of the issuing rope's own. -/
theorem not_scratchAccesses : ¬ Obligations.ScratchAccesses := by
  unfold Obligations.ScratchAccesses
  rintro ⟨hplain, -⟩
  obtain ⟨-, hsts⟩ := hplain otherSlotCtx .n8 ⟨false, 7⟩ 0 genOfCairn0 ⟨0, .none⟩ otherSlotCtx_issues (by decide +kernel)
  obtain ⟨t, ht, heffect⟩ := hsts (by decide) (by decide +kernel) nofun
  have hwaits := exec_storeGen_wakes ht
  rw [heffect.issuing_stack otherSlotCtx_issues] at hwaits
  exact absurd hwaits (by decide +kernel)

end Sys2Proof.Machine
end

section
/-!
PROOFS. The order of the checks across lanes (R142, R198): `checkLanes_first`; and the traps of `lds`, `sts` and `atms` that come of it.
-/
namespace Sys2Proof.Machine

/-! ### Steps of one lane -/

/-- Steps that pass are skipped. -/
theorem firstStep_passed (n : Nat) (before rest : List (Bool × Cause)) (h : ∀ x ∈ before, x.1 = false) :
    firstStep n (before ++ rest) = firstStep (n + before.length) rest := by
  induction before generalizing n with
  | nil => rfl
  | cons x t ih =>
    obtain ⟨b, cause⟩ := x
    obtain rfl : b = false := h _ List.mem_cons_self
    simp only [List.cons_append, firstStep, Bool.false_eq_true, if_false, List.length_cons]
    rw [ih (n + 1) fun x hx => h x (by simp [hx])]
    congr 1
    omega

/-- The step found is one of the list, at its number or later. -/
theorem firstStep_some {n k : Nat} {cause : Cause} {l : List (Bool × Cause)} (h : firstStep n l = some (k, cause)) :
    n ≤ k ∧ ∃ x ∈ l, x.2 = cause := by
  induction l generalizing n with
  | nil => cases h
  | cons x t ih =>
    obtain ⟨b, c⟩ := x
    cases b with
    | true => cases h; exact ⟨Nat.le_refl _, _, List.mem_cons_self, rfl⟩
    | false =>
      obtain ⟨hk, y, hy, hcause⟩ := ih h
      exact ⟨by omega, y, List.mem_cons_of_mem _ hy, hcause⟩

/-! ### The earliest step across lanes -/

/-- Lane, step and cause of what one lane raises. -/
abbrev Raised := Nat × Nat × Cause

/-- Of two, the one with the earlier step; the first where they have the same. -/
def leading (b y : Raised) : Raised := if y.2.1 < b.2.1 then y else b

theorem leading_or (b y : Raised) : leading b y = b ∨ leading b y = y := by
  unfold leading; split
  · exact .inr rfl
  · exact .inl rfl

theorem leading_le (b y : Raised) : (leading b y).2.1 ≤ b.2.1 ∧ (leading b y).2.1 ≤ y.2.1 := by
  unfold leading; split <;> omega

/-- What `earliest` chooses from a first element and others is one of them, and none has an earlier step. -/
theorem foldl_leading (l : List Raised) (x : Raised) :
    l.foldl leading x ∈ x :: l ∧ ∀ y ∈ x :: l, (l.foldl leading x).2.1 ≤ y.2.1 := by
  induction l generalizing x with
  | nil => simp
  | cons y t ih =>
    obtain ⟨hmem, hle⟩ := ih (leading x y)
    obtain ⟨hx, hy⟩ := leading_le x y
    have hbest := hle _ List.mem_cons_self
    rw [List.foldl_cons]
    refine ⟨?_, fun z hz => ?_⟩
    · rcases List.mem_cons.1 hmem with heq | ht
      · rw [heq]; rcases leading_or x y with h | h <;> simp [h]
      · simp [ht]
    · rcases List.mem_cons.1 hz with rfl | hz
      · exact Nat.le_trans hbest hx
      · rcases List.mem_cons.1 hz with rfl | hz
        · exact Nat.le_trans hbest hy
        · exact hle z (List.mem_cons_of_mem _ hz)

/-- The lanes that raise a cause. -/
def raisers (l : List Raised) (cause : Cause) : Word := l.foldl (fun m y => if y.2.2 = cause then withBit m y.1 true else m) 0

theorem raisers_getLsbD (l : List Raised) (cause : Cause) (j : Nat) (hj : j < 32) :
    (raisers l cause).getLsbD j = l.any fun y => decide (y.2.2 = cause) && j == y.1 := by
  unfold raisers
  rw [foldl_or _ (fun m : Word => m.getLsbD j) (fun y => decide (y.2.2 = cause) && j == y.1) _ _ (fun m y _ => by
    by_cases hc : y.2.2 = cause
    · simp only [hc, if_true, withBit_getLsbD _ _ _ _ hj, decide_true, Bool.true_and]; grind
    · simp [hc])]
  simp

/-- Among what the lanes raise, the step that none precedes is delivered, with the lanes that raise its cause. -/
theorem earliest_of_least {l : List Raised} {n : Nat} {cause : Cause} (hle : ∀ y ∈ l, n ≤ y.2.1)
    (hcause : ∀ y ∈ l, y.2.1 = n → y.2.2 = cause) (hex : ∃ y ∈ l, y.2.1 = n) : earliest l = some (cause, raisers l cause) := by
  cases l with
  | nil => obtain ⟨y, hy, -⟩ := hex; cases hy
  | cons x t =>
    obtain ⟨y, hy, hyn⟩ := hex
    obtain ⟨hmem, hleast⟩ := foldl_leading t x
    have hbest := hcause _ hmem (Nat.le_antisymm (hyn ▸ hleast y hy) (hle _ hmem))
    change some ((t.foldl leading x).2.2, raisers (x :: t) (t.foldl leading x).2.2) = _
    rw [hbest]

theorem laneSet_ne_zero {f : Nat → Bool} : laneSet f ≠ 0 ↔ ∃ l, l < 32 ∧ f l = true := by
  constructor
  · intro h
    refine Classical.byContradiction fun hnone => h (BitVec.eq_of_getLsbD_eq fun l hl => ?_)
    have hf : f l = false := Bool.eq_false_iff.2 fun hf => hnone ⟨l, hl, hf⟩
    exact (laneSet_getLsbD f l hl).trans (hf.trans BitVec.getLsbD_zero.symm)
  · rintro ⟨l, hl, hf⟩ hzero
    have hbit := laneSet_getLsbD f l hl
    rw [hzero, hf] at hbit
    exact Bool.false_ne_true (BitVec.getLsbD_zero.symm.trans hbit)

/-- Checks across the lanes of a mask (R142, R198): when all pass the steps before one, which fails in some lane, and no later step has its
cause, then that cause is delivered with exactly the lanes in which the step fails. -/
theorem checkLanes_first (m : Word) (steps : Nat → List (Bool × Cause)) (n : Nat) (cause : Cause) (before after : Nat → List (Bool × Cause))
    (bad : Nat → Bool) (hsteps : ∀ l, steps l = before l ++ (bad l, cause) :: after l)
    (hbefore : ∀ l ∈ lanesOf m, (before l).length = n ∧ ∀ x ∈ before l, x.1 = false) (hafter : ∀ l, ∀ x ∈ after l, x.2 ≠ cause)
    (hbad : (laneSet fun l => m.getLsbD l && bad l) ≠ 0) :
    checkLanes (lanesOf m) steps = some (cause, laneSet fun l => m.getLsbD l && bad l) := by
  have hfirst : ∀ l ∈ lanesOf m, firstStep 0 (steps l) = if bad l then some (n, cause) else firstStep (n + 1) (after l) := by
    intro l hl
    obtain ⟨hlen, hpass⟩ := hbefore l hl
    rw [hsteps, firstStep_passed 0 _ _ hpass, hlen, Nat.zero_add, firstStep]
  have hraised : ∀ y : Raised, y ∈ (lanesOf m).filterMap (fun l => (firstStep 0 (steps l)).map fun x => (l, x.1, x.2)) →
      y.1 ∈ lanesOf m ∧ (bad y.1 = true ∧ y.2 = (n, cause) ∨ n + 1 ≤ y.2.1 ∧ y.2.2 ≠ cause) := by
    intro y hy
    obtain ⟨l, hl, hly⟩ := List.mem_filterMap.1 hy
    obtain ⟨x, hx, rfl⟩ := Option.map_eq_some_iff.1 hly
    refine ⟨hl, ?_⟩
    rw [hfirst l hl] at hx
    cases hb : bad l with
    | true => rw [hb, if_pos rfl] at hx; cases hx; exact .inl ⟨rfl, rfl⟩
    | false =>
      rw [hb, if_neg Bool.false_ne_true] at hx
      obtain ⟨hk, z, hz, hcause⟩ := firstStep_some hx
      exact .inr ⟨hk, hcause ▸ hafter l z hz⟩
  have hmem : ∀ l ∈ lanesOf m, bad l = true →
      (l, n, cause) ∈ (lanesOf m).filterMap (fun l => (firstStep 0 (steps l)).map fun x => (l, x.1, x.2)) := by
    intro l hl hb
    exact List.mem_filterMap.2 ⟨l, hl, by rw [hfirst l hl, hb]; rfl⟩
  obtain ⟨l, hl, hlbad⟩ := laneSet_ne_zero.1 hbad
  rw [Bool.and_eq_true] at hlbad
  unfold checkLanes
  rw [earliest_of_least (n := n) (cause := cause)]
  · congr 2
    refine BitVec.eq_of_getLsbD_eq fun j hj => ?_
    rw [raisers_getLsbD _ _ _ hj, laneSet_getLsbD _ _ hj, Bool.eq_iff_iff, List.any_eq_true, Bool.and_eq_true]
    constructor
    · rintro ⟨y, hy, hyj⟩
      rw [Bool.and_eq_true, decide_eq_true_eq, beq_iff_eq] at hyj
      obtain ⟨hcause, rfl⟩ := hyj
      obtain ⟨hlane, ⟨hb, -⟩ | ⟨-, hne⟩⟩ := hraised y hy
      · exact ⟨(mem_lanesOf.1 hlane).2, hb⟩
      · exact absurd hcause hne
    · rintro ⟨hact, hb⟩
      exact ⟨_, hmem j (mem_lanesOf.2 ⟨hj, hact⟩) hb, by simp⟩
  · intro y hy
    obtain ⟨-, ⟨-, heq⟩ | ⟨hle, -⟩⟩ := hraised y hy
    · exact Nat.le_of_eq (congrArg Prod.fst heq).symm
    · omega
  · intro y hy hyn
    obtain ⟨-, ⟨-, heq⟩ | ⟨hle, -⟩⟩ := hraised y hy
    · exact congrArg Prod.snd heq
    · omega
  · exact ⟨_, hmem l (mem_lanesOf.2 ⟨hl, hlbad.1⟩) hlbad.2, rfl⟩

/-! ### The traps of scratch cards (R142) -/

theorem szBytes_eq_sizeOf' (sz : Sz) : szBytes sz = sizeOf' sz := by cases sz <;> rfl

theorem Ctx.checked_of_not_resumed {c : Ctx} (h : c.resumed = false) : c.checked = false := by
  unfold Ctx.checked; rw [h]; rfl

/-- The lanes of a mask that name a byte outside the allotment (R142 step 1). -/
def Ctx.outside (c : Ctx) (m : Word) (o : ScrOff) (z : Nat) : Word := laneSet fun l => m.getLsbD l &&
  (decide (c.rope.scrOff o l < 0) || decide ((c.party.scratchSize : Int) < c.rope.scrOff o l + z))

/-- The lanes of a mask whose offset is no multiple of the element's bytes (R142 step 2). -/
def Ctx.misaligned (c : Ctx) (m : Word) (o : ScrOff) (z : Nat) : Word :=
  laneSet fun l => m.getLsbD l && decide (c.rope.scrOff o l % z ≠ 0)

/-- The causes of the steps of R142 after the second: those of a stash page (R139) and of the stored capability (R195, R199). -/
def laterCause (cause : Cause) : Prop := cause = .capPerm ∨ cause = .revoked

theorem laterCause.ne {cause : Cause} (h : laterCause cause) : cause ≠ .capBounds ∧ cause ≠ .misaligned := by
  rcases h with rfl | rfl <;> exact ⟨nofun, nofun⟩

theorem State.pageSteps_later (s : State) (p : Page) (wr : Bool) (need : Nat) : ∀ x ∈ s.pageSteps p wr need, laterCause x.2 := by
  cases p <;> simp [State.pageSteps, laterCause]

section
variable {c : Ctx} {m : Word} {o : ScrOff} {z : Nat} (need : Nat) (wr : Bool) {extra : Nat → List (Bool × Cause)}
  (hextra : ∀ l, ∀ x ∈ extra l, laterCause x.2)
include hextra

theorem Ctx.scrSteps_later (l : Nat) (x : Bool × Cause)
    (hx : x ∈ c.s.pageSteps (c.party.pageAt (c.rope.scrOff o l).toNat) wr need ++ extra l) : x.2 ≠ .capBounds ∧ x.2 ≠ .misaligned :=
  ((List.mem_append.1 hx).elim (c.s.pageSteps_later _ wr need x) (hextra l x)).ne

/-- Bounds are checked first (R142). -/
theorem Ctx.scrSteps_outside (hout : c.outside m o z ≠ 0) :
    checkLanes (lanesOf m) (fun l => c.scrSteps o z wr need l ++ extra l) = some (.capBounds, c.outside m o z) := by
  refine checkLanes_first _ _ 0 .capBounds (fun _ => []) _ _ (fun l => rfl) (by simp) (fun l x hx => ?_) hout
  rcases List.mem_cons.1 hx with rfl | hx
  · nofun
  · exact (Ctx.scrSteps_later need wr hextra l x hx).1

/-- Alignment is checked next, when no lane is out of bounds (R142). -/
theorem Ctx.scrSteps_misaligned (hin : c.outside m o z = 0) (hodd : c.misaligned m o z ≠ 0) :
    checkLanes (lanesOf m) (fun l => c.scrSteps o z wr need l ++ extra l) = some (.misaligned, c.misaligned m o z) := by
  have hbits : c.misaligned m o z = laneSet fun l => m.getLsbD l && (c.rope.scrOff o l % z != 0) :=
    laneSet_congr fun l _ => by rw [bne, Bool.beq_eq_decide_eq, decide_not]
  rw [hbits] at hodd ⊢
  refine checkLanes_first _ _ 1 .misaligned (fun l => [_]) _ _ (fun l => rfl) (fun l hl => ⟨rfl, fun x hx => ?_⟩)
    (fun l x hx => (Ctx.scrSteps_later need wr hextra l x hx).2) hodd
  obtain rfl := List.mem_singleton.1 hx
  obtain ⟨hlt, hact⟩ := mem_lanesOf.1 hl
  have hbit := laneSet_getLsbD _ l hlt ▸ congrArg (fun w : Word => w.getLsbD l) hin
  simpa [hact] using hbit

end

/-- An access whose checks fail traps, before anything else stands in its way (R142). -/
theorem Ctx.scrAccess_fails {c : Ctx} (i : Instr) {m : Word} {o : ScrOff} {z need : Nat} {extra : Nat → List (Bool × Cause)}
    (wr rd atomic ret : Bool) (op : Acc → PeerOp) (k : Ctx → List LaneOff → State) {cause : Cause} {lanes : Word}
    (hfresh : c.checked = false) (h : checkLanes (lanesOf m) (fun l => c.scrSteps o z wr need l ++ extra l) = some (cause, lanes)) :
    c.scrAccess i m o z need extra wr rd atomic ret op k = c.trapsAt cause lanes (c.rope.scrOff o) := by
  unfold Ctx.scrAccess
  simp only [hfresh, Bool.false_eq_true, if_false, h]
  rw [Ctx.trapOff, lowLane_eq_firstLane, Ctx.trapsAt]

/-- A scratch card with an active lane is a scratch access (R142 to R144). -/
theorem exec_scratchForm {c : Ctx} {i : Instr} {g : Guard} {o : ScrOff} {z : Nat} (hc : c.s.ctx? = some c)
    (hform : scratchForm i = some (g, o, z)) (hg : c.active g ≠ 0) :
    ∃ need extra wr rd atomic ret op k, exec i c.s = .next (c.scrAccess i (c.active g) o z need extra wr rd atomic ret op k)
      ∧ ∀ l, ∀ x ∈ extra l, laterCause x.2 := by
  unfold scratchForm at hform
  split at hform <;> cases hform
  case h_1 sz d =>
    rw [← szBytes_eq_sizeOf']
    exact ⟨_, _, _, _, _, _, _, _, State.issue_of_ctx hc _, fun l => nofun⟩
  case h_2 sz b =>
    rw [← szBytes_eq_sizeOf']
    exact ⟨_, _, _, _, _, _, _, _, State.issue_of_ctx hc _, fun l => by simp [Ctx.stsSteps, laterCause]⟩
  case h_3 o =>
    exact ⟨_, _, _, _, _, _, _, _, (State.issue_of_ctx hc _).trans (congrArg Host.Outcome.next (if_neg hg)), fun l => nofun⟩

/-- Lanes picked from a mask: when there are any, the mask is not empty. -/
theorem mask_ne_zero_of_laneSet {m : Word} {f : Nat → Bool} (h : (laneSet fun l => m.getLsbD l && f l) ≠ 0) : m ≠ 0 := by
  rintro rfl
  obtain ⟨l, -, hl⟩ := laneSet_ne_zero.1 h
  simp at hl

/-- Settles O18: bounds are the first step of R142 and alignment the second, and no later step raises their causes. -/
theorem scratchTraps : Obligations.ScratchTraps := by
  unfold Obligations.ScratchTraps
  intro c i g o z hc hresumed _ hform
  have hfresh := Ctx.checked_of_not_resumed hresumed
  refine ⟨fun hout => ?_, fun hin hodd => ?_⟩
  · obtain ⟨need, extra, wr, rd, atomic, ret, op, k, hexec, hextra⟩ := exec_scratchForm hc hform (mask_ne_zero_of_laneSet hout)
    rw [hexec, Ctx.scrAccess_fails i wr rd atomic ret op k hfresh (Ctx.scrSteps_outside need wr hextra hout)]
    rfl
  · obtain ⟨need, extra, wr, rd, atomic, ret, op, k, hexec, hextra⟩ := exec_scratchForm hc hform (mask_ne_zero_of_laneSet hodd)
    rw [hexec, Ctx.scrAccess_fails i wr rd atomic ret op k hfresh (Ctx.scrSteps_misaligned need wr hextra hin hodd)]
    rfl

end Sys2Proof.Machine
end

section
/-!
PROOFS. `smap`, `sunmap` and `sflush` (R140, R145, R146): what their updates of the party leave page by page and byte by byte.
-/
namespace Sys2Proof.Machine

/-! ### Maps and sets of which some keys were dropped -/

theorem SMap.get_filter {α : Type} (d : α) (m : SMap α) (keep : Nat → Bool) (j : Nat) :
    SMap.get d (m.filter fun e => keep e.1) j = if keep j then SMap.get d m j else d := by
  induction m with
  | nil => simp [SMap.get]
  | cons e t ih =>
    obtain ⟨k, v⟩ := e
    by_cases hj : j = k
    · subst hj; cases hk : keep j <;> simp [SMap.get, ih, hk]
    · cases hk : keep k <;> simp [SMap.get, ih, hk, hj]

theorem NSet.has_filter (s : NSet) (keep : Nat → Bool) (j : Nat) : NSet.has (s.filter keep) j = (NSet.has s j && keep j) := by
  rw [NSet.has, NSet.has, Bool.eq_iff_iff]; simp

/-! ### Ranges of pages -/

/-- Lines, half-lines, granules and bytes of the pages that begin at an offset. -/
theorem inPages_eq {off : Nat} (hoff : off % 4096 = 0) (n z x : Nat) :
    inPages (off / 4096) n z x = (decide (off ≤ x * z) && decide (x * z < off + 4096 * n)) := by
  have hq : off / 4096 * 4096 = off := by omega
  have hn : (off / 4096 + n) * 4096 = off + 4096 * n := by rw [Nat.add_mul, hq, Nat.mul_comm n]
  rw [inPages, hq, hn]

/-- Pages numbered from that of an offset. -/
theorem page_in_range {off : Nat} (hoff : off % 4096 = 0) (n x : Nat) :
    (off / 4096 ≤ x / 4096 ∧ x / 4096 < off / 4096 + n) ↔ (off ≤ x ∧ x < off + 4096 * n) := by omega

/-! ### Unbinding (R146) -/

section
variable (p : Party) {off : Nat} (hoff : off % 4096 = 0) (n : Nat)
include hoff

theorem Party.pageAt_unmap (x : Nat) :
    (p.unmap (off / 4096) n).pageAt x = if off ≤ x ∧ x < off + 4096 * n then .priv else p.pageAt x := by
  change SMap.get Page.priv (p.pages.filter fun e => !(decide (off / 4096 ≤ e.1) && decide (e.1 < off / 4096 + n))) (x / 4096) = _
  rw [SMap.get_filter _ _ (fun k => !(decide (off / 4096 ≤ k) && decide (k < off / 4096 + n)))]
  simp only [← page_in_range hoff n x]
  by_cases h : off / 4096 ≤ x / 4096 ∧ x / 4096 < off / 4096 + n <;> simp [h, Party.pageAt]

theorem Party.mem_dirty_flushPages (ln : Nat) :
    ln ∈ (p.flushPages (off / 4096) n).dirty ↔ ln ∈ p.dirty ∧ ¬(off ≤ ln * 128 ∧ ln * 128 < off + 4096 * n) := by
  rw [Party.flushPages, List.mem_filter, inPages_eq hoff, Bool.not_eq_true', ← Bool.not_eq_true, Bool.and_eq_true, decide_eq_true_eq,
    decide_eq_true_eq]

/-! ### Binding (R145) -/

theorem Party.pageAt_bindPages (cap : Quad) (ro : Bool) (a x : Nat) :
    (p.bindPages cap ro a (off / 4096) n).pageAt x =
      if off ≤ x ∧ x < off + 4096 * n then .stash cap ro (a + 4096 * ((x - off) / 4096)) else p.pageAt x := by
  have hset : ∀ m : SMap Page, SMap.get .priv ((List.range n).foldl (fun m k =>
      SMap.set .priv m (off / 4096 + k) (.stash cap ro (a + 4096 * k))) m) (x / 4096) =
      if off / 4096 ≤ x / 4096 ∧ x / 4096 < off / 4096 + n then .stash cap ro (a + 4096 * (x / 4096 - off / 4096))
      else SMap.get .priv m (x / 4096) := by
    intro m
    clear hoff
    induction n with
    | zero => rw [if_neg (by omega)]; rfl
    | succ n ih =>
      rw [List.range_succ, List.foldl_append, List.foldl_cons, List.foldl_nil, SMap.get_set, ih]
      by_cases hlast : x / 4096 = off / 4096 + n
      · rw [if_pos hlast, if_pos (by omega)]; congr; omega
      · rw [if_neg hlast]; congr 1; simp only [eq_iff_iff]; omega
  have hpage : (x - off) / 4096 = x / 4096 - off / 4096 := by omega
  have hunmap := p.pageAt_unmap hoff n x
  unfold Party.pageAt at hunmap ⊢
  rw [Party.bindPages, hset, hpage]
  simp only [page_in_range hoff n x]
  split
  · rfl
  · next h => exact hunmap.trans (if_neg h)

theorem Party.sbyte_bindPages (cap : Quad) (ro : Bool) (a x : Nat) :
    (p.bindPages cap ro a (off / 4096) n).sbyte x = if off ≤ x ∧ x < off + 4096 * n then 0 else p.sbyte x := by
  change SMap.get 0#8 (p.scratch.filter fun e => !(inPages (off / 4096) n 1 e.1)) x = _
  rw [SMap.get_filter _ _ (fun k => !(inPages (off / 4096) n 1 k)), inPages_eq hoff, Nat.mul_one]
  by_cases h : off ≤ x ∧ x < off + 4096 * n <;> simp [h, Party.sbyte]

theorem Party.stag_bindPages (cap : Quad) (ro : Bool) (a x : Nat) :
    NSet.has (p.bindPages cap ro a (off / 4096) n).stag (x / 16) =
      (NSet.has p.stag (x / 16) && !(decide (off ≤ x) && decide (x < off + 4096 * n))) := by
  change NSet.has (p.stag.filter fun g => !(inPages (off / 4096) n 16 g)) (x / 16) = _
  rw [NSet.has_filter, inPages_eq hoff]
  have hlow : off ≤ x / 16 * 16 ↔ off ≤ x := by omega
  have hhigh : x / 16 * 16 < off + 4096 * n ↔ x < off + 4096 * n := by omega
  simp only [hlow, hhigh]

end

/-- What binding leaves of the party besides its scratch. -/
@[simp] theorem Party.bindPages_fields (p : Party) (cap : Quad) (ro : Bool) (a q n : Nat) :
    (p.bindPages cap ro a q n).ropes = p.ropes ∧ (p.bindPages cap ro a q n).bars = p.bars
      ∧ (p.bindPages cap ro a q n).cairns = p.cairns := by
  and_intros <;> rfl

/-! ### Effects that write no register -/

/-- An instruction that only goes on (R24). -/
theorem Ctx.done_idle (c : Ctx) (bytes : Nat) : EffectRope c (RopeEffect.idle c bytes) (c.rope.stepOn c.pos bytes) := by
  have hcard := card_effect c bytes ⟨true, ⟨false, 7⟩, [], fun _ => {}⟩ ⟨fun _ => ⟨nofun, nofun, nofun⟩, rfl, nofun⟩
  rw [Card.apply_unif _ _ rfl] at hcard
  have hsame : c.rope.write none {} = c.rope := c.rope.orFpst_zero
  exact hsame ▸ hcard

/-- Last use, and nothing else, in the active lanes (R15, R101). -/
theorem Ctx.done_used (c : Ctx) (bytes : Nat) (g : Guard) {used : List (RSrc × Nat)} (hused : usedFits used) :
    EffectRope c (laneEffect c bytes (c.active g) used fun _ => {}) ((c.rope.useAll (c.active g) used).stepOn c.pos bytes) := by
  have hcard := card_effect c bytes ⟨false, g, used, fun _ => {}⟩ ⟨fun _ => ⟨nofun, nofun, nofun⟩, rfl, hused⟩
  rw [Card.apply_lanes _ _ rfl, foldl_write_empty] at hcard
  have hflags : laneEffect c bytes (c.active g) used (fun _ => {}) = cardEffect c bytes ⟨false, g, used, fun _ => {}⟩ :=
    congrArg (fun f => { laneEffect c bytes (c.active g) used (fun _ => {}) with fpst := f }) (flagsOver_zero _).symm
  rw [hflags]
  exact hcard

/-- Any one register lies in the register file (R94). -/
theorem usedFits_one (a : RSrc) : usedFits [(a, 1)] := fun s hs _ => by
  rw [List.mem_singleton.1 hs]
  exact a.r.isLt

theorem isQuad_fits {r : BitVec 8} (h : isQuad r = true) : r.toNat + 4 ≤ 256 := by
  simp only [isQuad, beq_iff_eq] at h
  have hr := r.isLt
  omega

theorem usedFits_smap {o : SmapOp} (hw : Instr.wf (.smap o) = true) : usedFits [(o.a, 4), (o.b, 2), (o.c, 1)] := by
  obtain ⟨hga, hb⟩ := Bool.and_eq_true_iff.1 hw
  obtain ⟨-, ha⟩ := Bool.and_eq_true_iff.1 hga
  intro s hs _
  simp only [List.mem_cons, List.not_mem_nil, or_false] at hs
  rcases hs with rfl | rfl | rfl
  · exact isQuad_fits ha
  · exact isEven_pair hb
  · exact o.c.r.isLt

/-! ### smap (R145) -/

theorem Party.pagesBad_iff (p : Party) (off n : Nat) :
    p.pagesBad off n = true ↔ off % 4096 ≠ 0 ∨ p.scratchSize < off + 4096 * n := by
  simp [Party.pagesBad]

theorem Party.pagesBad_false {p : Party} {off n : Nat} (hoff : off % 4096 = 0) (hin : off + 4096 * n ≤ p.scratchSize) :
    p.pagesBad off n = false := by
  rw [← Bool.not_eq_true, p.pagesBad_iff]; omega

/-- A usable capability with LD and, but for a read-only mapping, ST, that holds the pages, passes the checks of `smap` (R145). -/
theorem Ctx.smapSteps_pass {c : Ctx} {o : SmapOp} {l : Nat} (huse : c.usable o.a l = true)
    (hld : capHas (c.rope.quad l o.a.r.toNat) pLD = true) (hst : o.ro = true ∨ capHas (c.rope.quad l o.a.r.toNat) pST = true)
    (hview : namesView (capBase (c.rope.quad l o.a.r.toNat)) (capLen (c.rope.quad l o.a.r.toNat)) = false)
    (hlen : (c.rope.x64 l o.b.r.toNat).toNat + 4096 * (o.nm1.toNat + 1) ≤ capLen (c.rope.quad l o.a.r.toNat))
    (halign : (capBase (c.rope.quad l o.a.r.toNat) + (c.rope.x64 l o.b.r.toNat).toNat) % 128 = 0) :
    firstCause (c.smapSteps o l) = none := by
  simp only [Ctx.usable, Bool.and_eq_true, decide_eq_true_eq, Bool.not_eq_true'] at huse
  obtain ⟨⟨⟨htag, htype⟩, hcolour⟩, hrev⟩ := huse
  have hperm : (!o.ro && !(capHas (c.rope.quad l o.a.r.toNat) pST)) = false := by rcases hst with h | h <;> simp [h]
  simp [Ctx.smapSteps, State.useSteps, firstCause, htag, htype, hcolour, hrev, hld, hperm, hview, halign, Nat.not_lt.2 hlen]

/-- The lane that gives `smap`, `sunmap` and `sflush` their operands. -/
def Ctx.leads (c : Ctx) (g : Guard) : Nat := firstLane (c.active g).getLsbD

/-- The scratch offset that the leading lane gives. -/
def Ctx.pagesFrom (c : Ctx) (g : Guard) (a : RSrc) : Nat := (c.rope.x (c.leads g) a.r.toNat).toNat

/-- The party after `smap` has bound the pages that the leading lane names. -/
def Ctx.bound (c : Ctx) (o : SmapOp) : Party :=
  c.party.bindPages (c.rope.quad (c.leads o.g) o.a.r.toNat) o.ro
    (capBase (c.rope.quad (c.leads o.g) o.a.r.toNat) + (c.rope.x64 (c.leads o.g) o.b.r.toNat).toNat)
    (c.pagesFrom o.g o.c / 4096) (o.nm1.toNat + 1)

section
variable {c : Ctx} (hc : c.s.ctx? = some c) {o : SmapOp}
include hc

theorem exec_smap_idle (hg : c.active o.g = 0) : exec (.smap o) c.s = .next (c.done c.rope 12) :=
  (State.issue_of_ctx hc _).trans (congrArg Host.Outcome.next (if_pos hg))

variable (hg : c.active o.g ≠ 0)
include hg

theorem exec_smap_bad (hbad : c.party.pagesBad (c.pagesFrom o.g o.c) (o.nm1.toNat + 1) = true) :
    exec (.smap o) c.s = .next (c.trap .capBounds (withBit 0 (c.leads o.g) true) (c.pagesFrom o.g o.c)) := by
  unfold Ctx.pagesFrom Ctx.leads at *
  refine (State.issue_of_ctx hc _).trans (congrArg Host.Outcome.next ?_)
  simp only [hg, if_false, lowLane_eq_firstLane, hbad, if_true]

variable (hin : c.party.pagesBad (c.pagesFrom o.g o.c) (o.nm1.toNat + 1) = false)
  (hpass : firstCause (c.smapSteps o (c.leads o.g)) = none)
include hin hpass

/-- A job of the party that delivers into the pages makes the slot wait (R140). -/
theorem exec_smap_waits (hjobs : c.s.jobsInto c.uid (c.pagesFrom o.g o.c) (c.pagesFrom o.g o.c + 4096 * (o.nm1.toNat + 1)) = true) :
    exec (.smap o) c.s = .next (c.wait .pages) := by
  unfold Ctx.pagesFrom Ctx.leads at *
  refine (State.issue_of_ctx hc _).trans (congrArg Host.Outcome.next ?_)
  simp only [hg, if_false, lowLane_eq_firstLane, hin, hpass, Bool.false_eq_true, hjobs, if_true]

theorem exec_smap_binds (hjobs : c.s.jobsInto c.uid (c.pagesFrom o.g o.c) (c.pagesFrom o.g o.c + 4096 * (o.nm1.toNat + 1)) = false) :
    exec (.smap o) c.s = .next (c.s.setParty ((c.bound o).setRope c.k
      ((c.rope.useAll (c.active o.g) [(o.a, 4), (o.b, 2), (o.c, 1)]).stepOn c.pos 12))) := by
  unfold Ctx.bound
  unfold Ctx.pagesFrom Ctx.leads at *
  refine (State.issue_of_ctx hc _).trans (congrArg Host.Outcome.next ?_)
  simp only [hg, if_false, lowLane_eq_firstLane, hin, hpass, Bool.false_eq_true, hjobs]
  rfl

end

/-! ### sunmap and sflush (R146) -/

section
variable {c : Ctx} {nm1 : BitVec 4} {g : Guard} {a : RSrc} (f : Party → Nat → Nat → Party)

theorem Ctx.onPages_idle (hg : c.active g = 0) : c.onPages nm1 g a f = c.done c.rope 8 := if_pos hg

variable (hg : c.active g ≠ 0)
include hg

theorem Ctx.onPages_bad (hbad : c.party.pagesBad (c.pagesFrom g a) (nm1.toNat + 1) = true) :
    c.onPages nm1 g a f = c.trap .capBounds (withBit 0 (c.leads g) true) (c.pagesFrom g a) := by
  unfold Ctx.pagesFrom Ctx.leads at *
  simp only [Ctx.onPages, hg, if_false, lowLane_eq_firstLane, hbad, if_true]

variable (hin : c.party.pagesBad (c.pagesFrom g a) (nm1.toNat + 1) = false)
include hin

theorem Ctx.onPages_waits (hjobs : c.s.jobsInto c.uid (c.pagesFrom g a) (c.pagesFrom g a + 4096 * (nm1.toNat + 1)) = true) :
    c.onPages nm1 g a f = c.wait .pages := by
  unfold Ctx.pagesFrom Ctx.leads at *
  simp only [Ctx.onPages, hg, if_false, lowLane_eq_firstLane, hin, Bool.false_eq_true, hjobs, if_true]

theorem Ctx.onPages_goes (hjobs : c.s.jobsInto c.uid (c.pagesFrom g a) (c.pagesFrom g a + 4096 * (nm1.toNat + 1)) = false) :
    c.onPages nm1 g a f = c.s.setParty ((f c.party (c.pagesFrom g a / 4096) (nm1.toNat + 1)).setRope c.k
      ((c.rope.useAll (c.active g) [(a, 1)]).stepOn c.pos 8)) := by
  unfold Ctx.pagesFrom Ctx.leads at *
  simp only [Ctx.onPages, hg, if_false, lowLane_eq_firstLane, hin, Bool.false_eq_true, hjobs]
  rfl

end

section
variable {c : Ctx} (hc : c.s.ctx? = some c) (nm1 : BitVec 4) (g : Guard) (a : RSrc)
include hc

theorem exec_sunmap : exec (.sunmap nm1 g a) c.s = .next (c.onPages nm1 g a Party.unmap) := State.issue_of_ctx hc _

theorem exec_sflush : exec (.sflush nm1 g a) c.s = .next (c.onPages nm1 g a Party.flushPages) := State.issue_of_ctx hc _

end

/-- Settles O19: each card is idle, traps, waits or updates the party (the lemmas on `exec` and `Ctx.onPages`), and the lemmas on
`bindPages`, `unmap` and `flushPages` say what the update leaves at every offset. -/
theorem scratchPages : Obligations.ScratchPages := by
  unfold Obligations.ScratchPages
  intro c hc
  refine ⟨fun o _ hg => ⟨_, exec_smap_idle hc hg, c.done_idle 12⟩,
    fun o _ hg => fun hbad => exec_smap_bad hc hg ((Party.pagesBad_iff _ _ _).2 hbad), ?_, ?_, ?_⟩
  · intro o hw hg l n off so q hoff hin huse hld hst hview hlen halign
    have hgood := Party.pagesBad_false hoff hin
    have hpass := Ctx.smapSteps_pass huse hld hst hview hlen halign
    exact ⟨fun hjobs => exec_smap_waits hc hg hgood hpass hjobs,
      fun hjobs => ⟨(c.bound o).setRope c.k _, _, exec_smap_binds hc hg hgood hpass hjobs, by simp [Ctx.bound],
        c.done_used 12 o.g (usedFits_smap hw),
        fun x => c.party.pageAt_bindPages hoff n q o.ro (capBase q + so) x, fun x => c.party.sbyte_bindPages hoff n q o.ro (capBase q + so) x,
        fun x => c.party.stag_bindPages hoff n q o.ro (capBase q + so) x, by simp [Ctx.bound], by simp [Ctx.bound]⟩⟩
  · intro nm1 g a hg n off used
    refine ⟨fun hbad => ?_, fun hoff hin hjobs => ?_, fun hoff hin hjobs => ?_⟩
    · have hbad' := (Party.pagesBad_iff _ _ _).2 hbad
      exact ⟨(exec_sunmap hc nm1 g a).trans (congrArg _ (Ctx.onPages_bad _ hg hbad')),
        (exec_sflush hc nm1 g a).trans (congrArg _ (Ctx.onPages_bad _ hg hbad'))⟩
    · have hgood := Party.pagesBad_false hoff hin
      exact ⟨(exec_sunmap hc nm1 g a).trans (congrArg _ (Ctx.onPages_waits _ hg hgood hjobs)),
        (exec_sflush hc nm1 g a).trans (congrArg _ (Ctx.onPages_waits _ hg hgood hjobs))⟩
    · have hgoes := fun f => congrArg (Host.Outcome.next (φ := Fault) (ρ := Refusal))
        (Ctx.onPages_goes f hg (Party.pagesBad_false hoff hin) hjobs)
      have hrope := c.done_used 8 g (usedFits_one a)
      exact ⟨fun _ => ⟨(c.party.unmap (off / 4096) n).setRope c.k _, _, (exec_sunmap hc nm1 g a).trans (hgoes _), rfl, hrope,
          fun x => c.party.pageAt_unmap hoff n x, rfl, rfl⟩,
        fun _ => ⟨(c.party.flushPages (off / 4096) n).setRope c.k _, _, (exec_sflush hc nm1 g a).trans (hgoes _), rfl, hrope,
          fun ln => c.party.mem_dirty_flushPages hoff n ln, rfl⟩⟩
  · intro nm1 g a hg
    exact ⟨fun _ => ⟨_, (exec_sunmap hc nm1 g a).trans (congrArg _ (Ctx.onPages_idle _ hg)), c.done_idle 8⟩,
      fun _ => ⟨_, (exec_sflush hc nm1 g a).trans (congrArg _ (Ctx.onPages_idle _ hg)), c.done_idle 8⟩⟩

end Sys2Proof.Machine
end

section
/-!
PROOFS. `draw`, `drawm` and `drawk` (R188, R189, R191). An effect is built as the cards build it: last use and the lanes' writes
first, then what is written once for the rope, the flags raised, and the draw key and counter.
-/
namespace Sys2Proof.Machine

/-! ### The parts of an effect -/

/-- Last use, then one write in each active lane that raises no flag (R15, R24, R101). -/
theorem Ctx.done_each (c : Ctx) (bytes : Nat) (g : Guard) {used : List (RSrc × Nat)} {lane : Nat → Fx} (hused : usedFits used)
    (hfits : ∀ l, (lane l).fits) (hquiet : ∀ l, (lane l).fpst = 0) :
    EffectRope c (laneEffect c bytes (c.active g) used lane)
      (((c.rope.useAll (c.active g) used).writeEach (c.active g) lane).stepOn c.pos bytes) := by
  have hcard := card_effect c bytes ⟨false, g, used, fun e => e.lane.elim {} lane⟩ ⟨hfits, rfl, hused⟩
  have hwrite : ∀ (p : Rope) (l : Nat), p.write (some l) (lane l) = p.writeLane l (lane l) := fun p l => by
    rw [Rope.write, hquiet, Rope.orFpst_zero]
  have hflags : flagsOver (c.active g) (fun l => (lane l).fpst) = 0 := by simp only [hquiet, flagsOver_zero]
  have heffect : laneEffect c bytes (c.active g) used lane =
      cardEffect c bytes ⟨false, g, used, fun e => e.lane.elim {} lane⟩ :=
    congrArg (fun f => { laneEffect c bytes (c.active g) used lane with fpst := f }) hflags.symm
  rw [Card.apply_lanes _ _ rfl] at hcard
  simp only [Option.elim_some, hwrite] at hcard
  exact heffect ▸ hcard

section
variable {c : Ctx} {x : RopeEffect} {r : Rope} (h : EffectRope c x r)
include h

/-- An effect that wrote no uniform and no flag may write some (R103, R104). -/
theorem EffectRope.writesOnce (honce : x.once = {}) (y : Fx) (hy : y.quads = []) :
    EffectRope c { x with once := y } (r.writeUnif y) where
  same := by rw [Rope.sameBut_iff, Rope.masked_writeUnif]; exact (Rope.sameBut_iff _ _).1 h.same
  stack := (Rope.writeUnif_rest Rope.stack (fun _ _ _ => rfl) (fun _ _ _ => rfl) r y).trans h.stack
  lanes l n hl hn :=
    (Rope.writeUnif_rest (fun p : Rope => p.x l n) (fun _ _ _ => rfl) (fun _ _ _ => rfl) r y).trans (h.lanes l n hl hn)
  tags l q hl hq :=
    (Rope.writeUnif_rest (fun p : Rope => p.tag l (4 * q)) (fun _ _ _ => rfl) (fun _ _ _ => rfl) r y).trans (h.tags l q hl hq)
  preds l n hl hn :=
    (Rope.writeUnif_rest (fun p : Rope => p.p n l) (fun _ _ _ => rfl) (fun _ _ _ => rfl) r y).trans (h.preds l n hl hn)
  unif n hn := by rw [Rope.s_writeUnif _ _ _ hy, h.unif n hn, honce]; rfl
  flags n hn := by rw [Rope.k_writeUnif _ _ _ hn, h.flags n hn, honce]; rfl
  fpst := (Rope.writeUnif_rest Rope.fpst (fun _ _ _ => rfl) (fun _ _ _ => rfl) r y).trans h.fpst
  valid b hb := by
    rw [← h.valid b hb]
    exact Rope.writeUnif_rest (fun p : Rope => p.accValid.getLsbD b) (fun _ _ _ => rfl) (fun _ _ _ => rfl) r y

/-- An effect that raised no flag may raise some (R65). -/
theorem EffectRope.raises (hquiet : x.fpst = 0) (f : BitVec 6) : EffectRope c { x with fpst := f } (r.orFpst f) where
  same := (Rope.sameBut_iff _ _).2 ((Rope.sameBut_iff _ _).1 h.same)
  stack := h.stack
  lanes := h.lanes
  tags := h.tags
  preds := h.preds
  unif := h.unif
  flags := h.flags
  fpst := by
    have hfpst := h.fpst
    rw [hquiet, show c.rope.fpst ||| 0 = c.rope.fpst from BitVec.or_zero] at hfpst
    exact congrArg (· ||| f) hfpst
  valid := h.valid

end

/-- A rope with another draw counter and, when one is given, another draw key (R191). -/
def Rope.rekeyed (p : Rope) (key : Option DWord) (ctr : DWord) : Rope := { p with dkey := key.getD p.dkey, dctr := ctr }

/-- The draw key and counter of an effect can be chosen apart from its registers. -/
theorem EffectRope.rekeyed {c : Ctx} {x : RopeEffect} {r : Rope} (h : EffectRope c x r) (key : Option DWord) (ctr : DWord) :
    EffectRope c { x with base := x.base.rekeyed key ctr } (r.rekeyed key ctr) where
  same := by
    have hsame := h.same
    unfold Rope.sameBut at hsame ⊢
    exact congrArg (fun b : Rope => b.rekeyed key ctr) hsame
  stack := h.stack
  lanes := h.lanes
  tags := h.tags
  preds := h.preds
  unif := h.unif
  flags := h.flags
  fpst := h.fpst
  valid := h.valid

/-! ### Last use of several sources (R94, R101) -/

theorem usedFits_cons {a : RSrc} {n : Nat} {used : List (RSrc × Nat)} (ha : a.r.toNat + n ≤ 256) (h : usedFits used) :
    usedFits ((a, n) :: used) := List.forall_mem_cons.2 ⟨fun _ => ha, h⟩

theorem usedFits_append {used used' : List (RSrc × Nat)} (h : usedFits used) (h' : usedFits used') : usedFits (used ++ used') :=
  List.forall_mem_append.2 ⟨h, h'⟩

/-- An optional source of one register. -/
theorem usedFits_singles (o : Option RSrc) : usedFits (o.toList.map fun a => (a, 1)) := by
  cases o with
  | none => exact nofun
  | some a => exact usedFits_one a

/-- Only the lane register of a source of two classes has a last use. -/
theorem usedFits_csrc {b : CSrc} {n : Nat} (h : ∀ s, b = .reg s → s.r.toNat + n ≤ 256) : usedFits (b.used n) := by
  cases b with
  | reg s => exact usedFits_cons (h s rfl) nofun
  | unif r => exact nofun

/-! ### draw (R188) -/

theorem Rope.writeUnif_stepOn (p : Rope) (x : Fx) (pos bytes : Nat) :
    (p.stepOn pos bytes).writeUnif x = (p.writeUnif x).stepOn pos bytes := by
  have hregs := List.foldl_hom (l := x.regs) (init := p) (fun p : Rope => p.stepOn pos bytes)
    (g₁ := fun p rv => p.setS rv.1 rv.2) (g₂ := fun p rv => p.setS rv.1 rv.2) fun _ _ => rfl
  rw [Rope.writeUnif, hregs]
  exact List.foldl_hom (fun p : Rope => p.stepOn pos bytes) fun _ _ => rfl

theorem Rope.writeEach_pair_setK (p : Rope) (m : Word) (d : BitVec 8) (v n : Nat) (b : Bool) :
    (p.setK n b).writeEach m (fun _ => Fx.pair d v) = (p.writeEach m fun _ => Fx.pair d v).setK n b :=
  List.foldl_hom (fun p : Rope => p.setK n b) fun _ _ => rfl

theorem Rope.writeUnif_pair_setK (p : Rope) (d : BitVec 8) (v n : Nat) (b : Bool) :
    (p.setK n b).writeUnif (Fx.pair d v) = p.writeUnif { Fx.pair d v with preds := [(n, b)] } := rfl

/-- Writes a pair to a destination of R107, and flags and status bits once for the rope. -/
def Rope.writeDst (p : Rope) (m : Word) (d : Dst) (v : Nat) (flag : List (Nat × Bool)) (fl : FFlags) : Rope :=
  match d with
  | .lane d => ((p.writeEach m fun _ => Fx.pair d v).writeUnif { preds := flag }).orFpst fl
  | .unif d => (p.writeUnif { Fx.pair d v with preds := flag }).orFpst fl

theorem Ctx.writeDst_effect (c : Ctx) (bytes : Nat) (g : Guard) {used : List (RSrc × Nat)} (hused : usedFits used) {d : Dst}
    (hd : drawDst d = true) (v : Nat) (flag : List (Nat × Bool)) (fl : FFlags) :
    EffectRope c (toDst c bytes (c.active g) used d (fun d => Fx.pair d v) flag fl)
      (((c.rope.useAll (c.active g) used).writeDst (c.active g) d v flag fl).stepOn c.pos bytes) := by
  cases d with
  | lane d =>
    have hlane := c.done_each bytes g hused (fun _ => Fx.pair_fits d v hd) fun _ => rfl
    have hflag := (hlane.writesOnce rfl { preds := flag } rfl).raises rfl fl
    rw [Rope.writeUnif_stepOn] at hflag
    exact hflag
  | unif d =>
    have honce := ((c.done_used bytes g hused).writesOnce rfl { Fx.pair d v with preds := flag } rfl).raises rfl fl
    rw [Rope.writeUnif_stepOn] at honce
    exact honce

/-- A draw's result as `writeDst` takes it: the pair or the empty pair, and the flag destination. -/
theorem Rope.drawWrite_eq (p : Rope) (m : Word) (f : DForm) (k : Option (BitVec 2)) (d : Dst) (r : Option DPair) (fl : FFlags) :
    p.drawWrite m f k d r fl = p.writeDst m d ((orEmpty f r).1.idx + (orEmpty f r).1.mass * 2 ^ 32)
      (k.toList.map fun k => (k.toNat, (orEmpty f r).2 || massNaN (orEmpty f r).1.mass))
      (fl ||| if (orEmpty f r).2 then fEmpty else 0) := by
  unfold Rope.drawWrite Rope.writeDst
  rcases k with _ | k <;> rcases d with d | d
  case some.lane => simp only [Rope.writeEach_pair_setK]; rfl
  case some.unif => exact congrArg (fun p : Rope => p.orFpst _) (p.writeUnif_pair_setK d _ k.toNat _)
  all_goals rfl

/-- The sources of a `draw` whose last use poisons (R101, R188): value, index and temperature. -/
def drawSources (o : DrawOp) : List (RSrc × Nat) :=
  (o.a, 1) :: ((o.ib.toList.map fun b => (b, 1)) ++ o.l.elim [] (CSrc.used 1))

theorem drawSources_fits (o : DrawOp) : usedFits (drawSources o) := by
  refine usedFits_cons o.a.r.isLt (usedFits_append (usedFits_singles o.ib) ?_)
  cases o.l with
  | none => exact nofun
  | some l => exact usedFits_csrc fun s _ => s.r.isLt

/-- What the tree gives a `draw` before EMPTY (R188). -/
def Ctx.drawGives (c : Ctx) (o : DrawOp) : Option DPair × FFlags :=
  c.rope.ownDraw (c.active o.g) o.a.r o.ib (o.l.map (c.rope.temperature (c.active o.g)))

/-- `draw` on the issuing rope: last use, the result, and the counter moved by 31. -/
theorem Ctx.draw_eq (c : Ctx) (o : DrawOp) :
    c.rope.draw (c.active o.g) o = { (c.rope.useAll (c.active o.g) (drawSources o)).drawWrite (c.active o.g)
      (drawForm o.l.isSome) o.k o.d (c.drawGives o).1 (c.drawGives o).2 with dctr := c.rope.dctr + 31 } := by
  obtain ⟨g, d, a, ib, k, l⟩ := o
  rcases l with _ | (s | r)
  case some.reg =>
    unfold Rope.draw drawSources Rope.drawUsed
    simp only [Option.elim_some, CSrc.used, Rope.useAll, List.foldl_append, List.foldl_cons, List.foldl_nil]
    rfl
  all_goals
    unfold Rope.draw drawSources Rope.drawUsed
    simp only [Option.elim_some, Option.elim_none, CSrc.used, List.append_nil]
    rfl

theorem drawEffect_eq (c : Ctx) (o : DrawOp) :
    drawEffect c o =
      let e := orEmpty (drawForm o.l.isSome) (c.drawGives o).1
      let x := toDst c 12 (c.active o.g) (drawSources o) o.d (fun d => Fx.pair d (e.1.idx + e.1.mass * 2 ^ 32))
        (o.k.toList.map fun k => (k.toNat, e.2 || massNaN e.1.mass)) ((c.drawGives o).2 ||| if e.2 then fEmpty else 0)
      { x with base := x.base.rekeyed none (c.rope.dctr + 31) } := by
  obtain ⟨g, d, a, ib, k, l⟩ := o
  rcases l with _ | (s | r) <;> rcases d with d | d
  all_goals
    unfold drawEffect Ctx.drawGives
    simp only [← lowLane_eq_firstLane]
    rfl

theorem Ctx.draw_effect (c : Ctx) {o : DrawOp} (hw : Instr.wf (.draw o) = true) :
    EffectRope c (drawEffect c o) ((c.rope.draw (c.active o.g) o).stepOn c.pos 12) := by
  obtain ⟨hgd, -⟩ := Bool.and_eq_true_iff.1 hw
  obtain ⟨-, hd⟩ := Bool.and_eq_true_iff.1 hgd
  have hresult := c.writeDst_effect 12 o.g (drawSources_fits o) hd
  rw [drawEffect_eq, c.draw_eq, Rope.drawWrite_eq]
  exact (hresult _ _ _).rekeyed none (c.rope.dctr + 31)

/-! ### drawm (R189) -/

/-- The sources of a `drawm` whose last use poisons (R101, R189): both pairs and the coin. -/
def drawmSources (o : DrawmOp) : List (RSrc × Nat) :=
  (o.a, 2) :: (o.b.used 2 ++ o.coin.toList.map fun x => (x, 1))

theorem isEven_of_cOk {s : RSrc} (h : cOk false true (.reg s) = true) : isEven s.r = true := by
  simpa [cOk, srcOk, regOk] using h

theorem drawmSources_fits {o : DrawmOp} (ha : isEven o.a.r = true) (hb : cOk false true o.b = true) :
    usedFits (drawmSources o) :=
  usedFits_cons (isEven_pair ha) (usedFits_append
    (usedFits_csrc fun _ hs => isEven_pair (isEven_of_cOk (hs ▸ hb))) (usedFits_singles o.coin))

theorem Ctx.drawm_effect (c : Ctx) {o : DrawmOp} (hw : Instr.wf (.drawm o) = true) :
    EffectRope c (drawmEffect c o) ((c.rope.drawm (c.active o.g) o).stepOn c.pos 12) := by
  obtain ⟨hgda, hb⟩ := Bool.and_eq_true_iff.1 hw
  obtain ⟨hgd, ha⟩ := Bool.and_eq_true_iff.1 hgda
  obtain ⟨-, hd⟩ := Bool.and_eq_true_iff.1 hgd
  have hmerged := ((c.done_each 12 o.g (drawmSources_fits ha hb)
    (lane := fun l => Fx.pair o.d ((c.rope.drawmLane o l).1.idx + (c.rope.drawmLane o l).1.mass * 2 ^ 32))
    (fun _ => Fx.pair_fits _ _ hd) fun _ => rfl).raises rfl (flagsOver (c.active o.g) fun l => (c.rope.drawmLane o l).2))
  unfold drawmEffect Rope.drawm
  cases o.coin.isSome with
  | true => exact hmerged
  | false => exact hmerged.rekeyed none (c.rope.dctr + 32)

/-! ### drawk (R191) -/

theorem Ctx.drawk_effect (c : Ctx) {form : DrawkForm} {x : RopeEffect} (hx : drawRule c (.drawk form) = some x) :
    EffectRope c x ((c.rope.drawk form).stepOn c.pos 8) := by
  have hidle := c.done_idle 8
  cases form with
  | set a b => cases hx; exact hidle.rekeyed (some (c.rope.s64 a.toNat)) (c.rope.s64 b.toNat)
  | ctr b => cases hx; exact hidle.rekeyed none (c.rope.s64 b.toNat)
  | get d => cases hx; exact hidle.writesOnce rfl _ rfl

/-- Settles O8: each card completes, and the effect of its rope is the one of its own lemma (`draw_effect`, `drawm_effect`,
`drawk_effect`). -/
theorem drawCards : Obligations.DrawCards := by
  unfold Obligations.DrawCards
  intro c i x hc hw hx
  cases i with
  | draw o => cases hx; exact ⟨_, State.issue_of_ctx hc _, c.draw_effect hw⟩
  | drawm o => cases hx; exact ⟨_, State.issue_of_ctx hc _, c.drawm_effect hw⟩
  | drawk form => exact ⟨_, State.issue_of_ctx hc _, c.drawk_effect hx⟩
  | _ => exact nomatch hx

end Sys2Proof.Machine
end
